-- ==== Sys2Proof/Word.lean ====
section
/-! DEFINITION. The word types of the P9 and the sparse-table type that every memory and register table of the
model is held in. -/

namespace Sys2Proof

/-- A byte (R10). -/
abbrev Byte := BitVec 8

/-- A 32-bit word. -/
abbrev W32 := BitVec 32

/-- A 64-bit word. -/
abbrev W64 := BitVec 64

/-- A 128-bit strand instruction word (R83). -/
abbrev IWord := BitVec 128

/-- The 120 bits of a strand instruction word below its major opcode OPC (R83). -/
abbrev IBody := BitVec 120

/-- A table with few entries away from its default: keys strictly rising, and no entry that holds the default
value. Memories (byte by address), register files and the tables of tiles and partitions all have this form;
what an unlisted key reads as is the default that each reader names. -/
abbrev SMap (α : Type) := List (Nat × α)

/-- Bits [hi:lo] of a number, as a number. -/
def bitsOf (x hi lo : Nat) : Nat := (x >>> lo) % 2 ^ (hi + 1 - lo)

end Sys2Proof
end

