-- ==== Sys2Proof/Events.lean ====
section
/-! DEFINITION. The kinds of data that commands carry beside numbers: what an agent outside the model supplies with an
event. -/

namespace Sys2Proof.Machine

/-- An exact dyadic number m × 2^e (layer sums, gauge sums). -/
structure Dyadic where
  m : Int
  e : Int
  deriving DecidableEq, Repr

/-- A vote word: NAN, INF, SAT, LATE (R145, R213). -/
structure Vote where
  nan : Bool
  inf : Bool
  sat : Bool
  late : Bool
  deriving DecidableEq, Repr

/-- The clean vote. -/
def Vote.clean : Vote := ⟨false, false, false, false⟩

/-- Votes merge by OR (R145). -/
def Vote.or (a b : Vote) : Vote := ⟨a.nan || b.nan, a.inf || b.inf, a.sat || b.sat, a.late || b.late⟩

/-- An exchange record, merged over some partitions of the commit group (R310): the vote, the staged observations by
entry (as R204 lays them out), the layer sums and the gauge sums. -/
structure ExchRec where
  vote : Vote
  obs : List (Nat × W64)
  layers : List (Nat × Dyadic × Dyadic × Bool)
  gauges : List (Nat × Dyadic × Dyadic)
  deriving DecidableEq, Repr

/-- How a gang peer answers a PFX or SPILL (R136, R264). -/
inductive PeerAnswer where
  | ok | lost | outside
  deriving DecidableEq, Repr

/-- How what arrives came over the die crossings (R68): what of it is poisoned (the 32-bit words by index; of a signal, whether it is), and
the receiving die and the retries of each crossing. -/
structure Crossed (α : Type) where
  poison : α
  crossings : List (Nat × Nat)
  deriving DecidableEq, Repr

/-- Has a crossing used up its three retries? Only one that has delivers its data poisoned (R68, R82). -/
def Crossed.failed {α : Type} (a : Crossed α) : Bool := a.crossings.any fun c => decide (c.2 = 3)

/-- Does word `j` arrive poisoned from a crossing that failed (R24, R68)? -/
def Crossed.bad (a : Crossed (List Nat)) (j : Nat) : Bool := a.failed && a.poison.contains j

/-- Does a one-word message arrive poisoned from a crossing that failed (R24, R68)? -/
def Crossed.lost (a : Crossed Bool) : Bool := a.failed && a.poison

/-- What a gang peer's lender answers to a PFX or SPILL (R136, R253, R264): how, which words of what it reads are poisoned in its HBM, and
the partition address at which the lend region begins there and the lend epoch found there. -/
structure PeerReply where
  answer : PeerAnswer
  poison : List Nat
  base : Nat
  epoch : BitVec 32
  deriving DecidableEq, Repr

/-- A message to a unit inside the device (R68): its place among those on their way, and how it came. -/
structure MeshArrival where
  index : Nat
  arrived : Crossed Bool
  deriving DecidableEq, Repr

/-- A scale-table entry on its way to a tile (R149), and how it came. -/
structure ScaleArrival where
  tile : Nat
  arrived : Crossed Bool
  deriving DecidableEq, Repr

/-- Data from or to the host on its way between the PCIe controller and HBM: the TLP itself is poisoned (R253); how the data crossed dies. -/
structure HostArrival where
  poisoned : Bool
  arrived : Crossed (List Nat)
  deriving DecidableEq, Repr

/-- A read of BAR2: through the physical function or the partition's own (R402), bytes, and how the data came to the PCIe controller. -/
structure BarRead where
  physical : Bool
  len : Nat
  arrived : Crossed (List Nat)
  deriving DecidableEq, Repr

/-- A write to BAR2: through the physical function or the partition's own (R402), whether the TLP is poisoned, and how the data came to HBM. -/
structure BarWrite where
  physical : Bool
  poisoned : Bool
  arrived : Crossed (List Nat)
  deriving DecidableEq, Repr

/-- A host DMA command of a partition by its key, and how the data came from HBM to the PCIe controller. -/
structure HostTransfer where
  key : Nat
  arrived : Crossed (List Nat)
  deriving DecidableEq, Repr

/-- Where an SQPUT_WRITTEN happens (R344). -/
inductive SqSide where
  /-- an SQPUT of this device: tile, serial -/
  | producer (t serial : Nat) (a : Crossed (List Nat))
  /-- an entry from the device of the neighbouring stage: partition, binding, collective epoch, bytes -/
  | consumer (p i : Nat) (epoch : W32) (bytes : List Byte) (a : Crossed (List Nat))
  deriving DecidableEq, Repr

/-- How the entry came to where it is written. -/
def SqSide.arrived : SqSide → Crossed (List Nat)
  | .producer _ _ a => a
  | .consumer _ _ _ _ a => a

/-- The end of an SQGET (R344), or the reading or the last writing of a COLL (R140): its serial, and how its data came. -/
structure SqDelivery where
  serial : Nat
  arrived : Crossed (List Nat)
  deriving DecidableEq, Repr

/-- A LAST bucket starts on a tile (R140): how its source came. -/
structure BucketStart where
  tile : Nat
  arrived : Crossed (List Nat)
  deriving DecidableEq, Repr

/-- What the loss of a link finds (R319): the link, and whether its peer is in a loop-back. -/
structure LossEvent where
  link : Nat
  peerLoops : Bool
  deriving DecidableEq, Repr

/-- Credits returned to a producer (R344): how many, and the collective epoch of a VC2 message. -/
structure StageCredits where
  count : Nat
  epoch : W32
  deriving DecidableEq, Repr

/-- Which waiting agent takes a freed descriptor slot (R257). -/
inductive SlotTaker where
  | tile (t : Nat)
  /-- a host DMA command by its key in partition `p` -/
  | command (p key : Nat)
  deriving DecidableEq, Repr

/-- A collective message: the header of R306 and the element bytes. -/
structure CollMsg where
  entry : Nat
  gather : Bool
  last : Bool
  vote : Bool
  wire : Nat
  op : Nat
  /-- VOTEWORD: SAT in [2], INF in [1], NAN in [0] -/
  voteword : BitVec 3
  epoch : W32
  chunk : Nat
  srcRank : Nat
  step : W32
  offset : Nat
  count : Nat
  datum : Int
  check : W32
  bytes : List Byte
  deriving DecidableEq, Repr

/-- A completion entry's contents (R414). -/
structure Completion where
  cid : Nat
  status : Nat
  merged : Bool
  admission : Bool
  sq : Nat
  member : Nat
  csn : W32
  d0 : W32
  d1 : W64
  time : W64
  noIrq : Bool
  deriving DecidableEq, Repr

/-- A site record (R241), with the first position's key (R230). -/
structure SiteRec where
  sat : Nat
  flush : Nat
  nan : Nat
  inf : Nat
  invalid : Nat
  valid : Bool
  cls : Nat
  element : Nat
  tile : Nat
  step : Nat
  siteInst : Nat
  strand : Nat
  deriving DecidableEq, Repr

/-- An empty site record. -/
def SiteRec.zero : SiteRec := ⟨0, 0, 0, 0, 0, false, 0, 0, 0, 0, 0, 0⟩

/-- What a gang member tells its lead beside a completion: its own unit status summary (R31) and its site records (R36, R229). -/
structure MemberReport where
  summary : W64
  sites : List (Nat × SiteRec)
  deriving DecidableEq, Repr

/-- What the lead receives from a member (R34): its report and its completion entry. -/
structure MemberAnswer where
  report : MemberReport
  entry : Completion
  deriving DecidableEq, Repr

/-- A NAK or RESUME flit (R286): the SEQ it names, and the fields of its header. -/
structure LinkCtl where
  seq : BitVec 16
  ack : BitVec 16
  ccount : Nat
  cvc : Nat
  deriving DecidableEq, Repr

/-- A CREDIT_INIT flit (R286): the credits of each channel, and the header's ACK. -/
structure CreditFlit where
  counts : List Nat
  ack : BitVec 16
  deriving DecidableEq, Repr

/-- What a loop-back has shown (R319): errors, and whether the peer returns the symbols or flits (R318). -/
structure LoopResult where
  errors : Nat
  answers : Bool
  deriving DecidableEq, Repr

/-- A message to be relayed (R278): its epoch and its data. -/
structure RelayData where
  epoch : W32
  data : List Byte
  deriving DecidableEq, Repr

/-- What a segment message is for (R369, R371, R377, R378): a segment of a move, of a stay fill, of a stay delta; the destination's
request that one of these be sent again whole; the request of a move's source that a holder send the segment from its stay. -/
inductive SegClass where
  | warp | fill | delta | resendWarp | resendFill | resendDelta | fromStay
  deriving DecidableEq, Repr

/-- What a device that takes another's place learns of that place: state and step of its two own stays; those of the stays it holds, by
primary; the gang unit, its role in it (1 lead, 2 member), the members present, the lead (R381, R382). -/
structure Place where
  first : Nat × W64
  second : Nat × W64
  held : List (Nat × Nat × W64)
  unit : W32
  role : Nat
  present : BitVec 8
  lead : Nat
  deriving DecidableEq, Repr

/-- What the message that ends a switch carries (R361, R366, R372 step 8, R381): the greatest collective epoch of the old box, the half in
force, the promotion level the job enters, the variant it leaves, the lend epochs of the members that lend to the partition, and for a
spare the place it takes. -/
structure SwitchEnd where
  epoch : W32
  half : Bool
  level : Nat
  frm : Nat
  lends : List (Nat × W32)
  place : Option Place
  deriving DecidableEq, Repr

/-- A muster is complete (R370, R372): the highest warp epoch that another partition holds; for a warp that the Tack core has started of its
own accord, the member to move and the variant in force (R381). -/
structure Muster where
  highest : W32
  warp : Option (Nat × Nat)
  deriving DecidableEq, Repr

/-- How a position is lost (R382 to R384): since when it has not answered on VC5, or none when the only copy read for it has failed or a
reset has left it short of tiles; the copies at its reachable holders, each with holder, state and step. -/
structure PositionLoss where
  silentSince : Option W64
  stays : List (Nat × Nat × W64)
  deriving DecidableEq, Repr

/-- The job is re-formed (R382 step 9): the greatest collective epoch, and the lend epochs as for a switch. -/
structure Reform where
  epoch : W32
  lends : List (Nat × W32)
  deriving DecidableEq, Repr

/-- A backup unit of a variant (R385): the stations S and the position S′ runs at; the strands of S′ on the tiles reserved there (logical
tile, strand, station, PC, argument); the mirrored regions (address, bytes); the done counter, and the withdraw counters of the primary
and of the backup position, each as logical tile and counter. -/
structure BackupUnit where
  stations : List Nat
  position : Nat
  starts : List (Nat × Nat × Nat × W32 × W64)
  mirrored : List (Nat × Nat)
  done : Nat × Nat
  withdraw : Nat × Nat
  withdrawBackup : Nat × Nat
  deriving DecidableEq, Repr

/-- A backup set is to start (R386): in partition `part`, unit `unit`; at the primary, or, by its message on VC6, at the backup position. -/
structure BackupEvent where
  part : Nat
  unit : Nat
  atBackup : Bool
  deriving DecidableEq, Repr

/-- The first of S and S′ of a backup unit is complete (R387): S′ or S; as the primary, or, by its message on VC6, the backup position
learns it. -/
structure BackupOutcome where
  unit : Nat
  byBackup : Bool
  atBackup : Bool
  deriving DecidableEq, Repr

/-- A partition, and ELA_CTRL of its job's coordinator as it is known there on VC5, where that is another unit (R372, R382, R453). -/
structure CoordinatorView where
  part : Nat
  ctrl : BitVec 32
  deriving DecidableEq, Repr

/-- A unit of a partition that has not answered: kind 0 tile, 1 DMA engine, 2 HBM controller, 3 capstan, and its identity (R445, R454,
R461). -/
structure LateUnit where
  part : Nat
  kind : Nat
  unit : Nat
  deriving DecidableEq, Repr

/-- A recovery starts in a partition (R382), with the coordinator's ELA_CTRL where that is another unit and the exchange records of the
positions whose commit it finishes (R330). -/
structure RecoveryBegin where
  part : Nat
  ctrl : BitVec 32
  others : List (Nat × ExchRec)
  deriving DecidableEq, Repr

/-- The two moments of a command that reads from host memory: it starts to read, and what it has read is used (R421, R423). -/
inductive ReadPhase where
  | start | finish
  deriving DecidableEq, Repr

/-- The two moments of LOAD_TRAVERSE: as of every command that reads; with its end come the lend epochs of the members that lend to this
partition (R264, R421, R422). -/
inductive LoadPhase where
  | start | finish (lends : List (Nat × W32))
  deriving DecidableEq, Repr

/-- A flit as the link carries it (R285, R286). -/
structure Flit where
  epoch : W32
  seq : BitVec 16
  ack : BitVec 16
  ccount : Nat
  cvc : Nat
  len : Nat
  last : Bool
  first : Bool
  vc : Nat
  type : Nat
  data : List Byte
  deriving DecidableEq, Repr

/-- A gang member's PFX or SPILL as it reaches the lender (R137, R264): a write or a read, the lend epoch the borrower recorded, the offset
in its lend region, the bytes written with the words among them that are poisoned, or the number of bytes read. -/
structure LendAsk where
  write : Bool
  epoch : W32
  offset : Nat
  bytes : List Byte
  poison : List Nat
  len : Nat
  deriving DecidableEq, Repr

/-- What a message that a DATA flit ends has this device do: a PFX or SPILL of a gang member on VC3 (R137, R264); on VC6 a write to this
partition's HBM, of a mirrored region or of S′ (R385). -/
inductive MsgAsk where
  | lend (a : LendAsk)
  | write (addr : Nat) (bytes : List Byte)
  deriving DecidableEq, Repr

/-- What a partition is restored from in its wave (R382 step 7): image, numerics record, its own half, the half selector, the stays it
holds (primary, bytes), the variant and the promotion level, state and step of its two own stays, the lend epochs; for an armed spare
brought in, the member index it takes and its place (step 5). -/
structure Restore where
  image : List Byte
  numerics : List Byte
  half : List Byte
  selector : Bool
  stays : List (Nat × List Byte)
  variant : Nat
  level : Nat
  own : (Nat × W64) × (Nat × W64)
  lends : List (Nat × W32)
  member : Option (Nat × Place)
  deriving DecidableEq, Repr

/-- What a PLDM Type 2 request asks for (R499): a sensor's reading, a record of the PDR repository, or the oldest pending event. -/
inductive PlatformReq where
  | sensor (id : Nat)
  | pdr (record : Nat)
  | event
  deriving DecidableEq, Repr

/-- A check traverse completed on a cluster (R461, R473): the last point in °C; 0 pass, 1 fail that its repeat did not confirm,
2 confirmed fail; the first failing tile; expected and observed signatures. -/
structure CheckResult where
  cluster : Nat
  point : Nat
  result : Nat
  tile : Nat
  expected : W32
  observed : W32
  deriving DecidableEq, Repr

end Sys2Proof.Machine
end

