-- ==== Sys2Proof/Syntax.lean ====
section
/-! DEFINITION. The commands of the device, one constructor per row of the command table, in the table's order. -/

namespace Sys2Proof

open Machine

/-- A command: a strand instruction of a tile, an event at a unit of the device, an access by the host or by the board, or
a command of one of the device's queues and registers.

Operands: `t` a tile by PHYS_ID and `k` a strand of it, with `b` the instruction word below its opcode; `p` a device
partition; `key` a command in execution in that partition; `n` (links) a Balca link; `fn` a PCIe function, 0 the physical
one and p + 1 that of partition p; `off` a BAR0 offset. Data that an agent outside the model supplies with the event
(bytes read, votes of other partitions, measured values) are operands too. -/
inductive Instr where
  /-- ADD (R90): Scalar add of two sources into SD, optionally setting the condition flags. -/
  | add (t k : Nat) (b : IBody)
  /-- SUB (R90): Scalar subtract of two sources into SD, optionally setting the condition flags. -/
  | sub (t k : Nat) (b : IBody)
  /-- MUL (R90): Scalar multiply giving the low half or the signed or unsigned high half of the double-width product. -/
  | mul (t k : Nat) (b : IBody)
  /-- AND (R89): Scalar bitwise AND of two sources. -/
  | and (t k : Nat) (b : IBody)
  /-- OR (R89): Scalar bitwise OR of two sources. -/
  | or (t k : Nat) (b : IBody)
  /-- XOR (R89): Scalar bitwise XOR of two sources. -/
  | xor (t k : Nat) (b : IBody)
  /-- SHL (R90): Scalar shift left by the amount in SB. -/
  | shl (t k : Nat) (b : IBody)
  /-- SHR (R90): Scalar logical or arithmetic shift right by the amount in SB. -/
  | shr (t k : Nat) (b : IBody)
  /-- CMP (R91): Integer compare that writes Z, N, C, V and U from sa minus sb. -/
  | cmp (t k : Nat) (b : IBody)
  /-- SEL (R89): Select SA or SB into SD by a condition-word predicate. -/
  | sel (t k : Nat) (b : IBody)
  /-- LI (R89): Load the 64-bit immediate into SD. -/
  | li (t k : Nat) (b : IBody)
  /-- LDS (R90): Scalar load from tile store, row statistics or tile control space, with bounds and alignment checks. -/
  | lds (t k : Nat) (b : IBody)
  /-- STS (R90): Scalar store to tile store or row statistics, with read-merge for partial words. -/
  | sts (t k : Nat) (b : IBody)
  /-- FADD (R92): FP32 add or subtract in the control core. -/
  | fadd (t k : Nat) (b : IBody)
  /-- FMUL (R92): FP32 multiply in the control core. -/
  | fmul (t k : Nat) (b : IBody)
  /-- FCMP (R92): FP32 compare that writes the condition word, with U for unordered. -/
  | fcmp (t k : Nat) (b : IBody)
  /-- BR (R93): Branch to base plus immediate, emptying the fetch buffer when taken. -/
  | br (t k : Nat) (b : IBody)
  /-- BRC (R93): Compare-and-branch on an integer or FP32 comparison or a condition-word field. -/
  | brc (t k : Nat) (b : IBody)
  /-- CALL (R93): Write the link register and branch. -/
  | call (t k : Nat) (b : IBody)
  /-- RET (R93): Branch to the address held in a register. -/
  | ret (t k : Nat) (b : IBody)
  /-- YIELD (R95): Make the strand WAITING for a stated number of cycles. -/
  | yield (t k : Nat) (b : IBody)
  /-- YIELD_EXPIRY (R95): The YIELD cycle count runs out and the strand may become READY again. -/
  | yieldExpiry (t k : Nat)
  /-- HALT (R95): Stop the strand's issue; it becomes INACTIVE for the rest of the step. -/
  | halt (t k : Nat) (b : IBody)
  /-- TRAP_NOTIFY (R96): Write a TRAP_NOTIFY field-book entry and continue. -/
  | trapNotify (t k : Nat) (b : IBody)
  /-- TRAP_FAULT (R96): Raise ILLEGAL_INSTR as a precise fault recording the trap number. -/
  | trapFault (t k : Nat) (b : IBody)
  /-- INSTRUCTION_FETCH (R65): The control core refills a strand's fetch buffer with 64 bytes from tile store, faulting outside tile store. -/
  | instructionFetch (t k : Nat)
  /-- SIG (R98): Add an increment to a local or remote signal counter, after a release fence when RELEASE is set. -/
  | sig (t k : Nat) (b : IBody)
  /-- SIG_ARRIVAL (R98): A remote signal arrives at its destination tile and is added, or discarded as poisoned with an imprecise fault. -/
  | sigArrival (i : Nat) (a : Crossed Bool)
  /-- WAITQ (R99): Wait until a signal counter reaches a threshold, optionally consuming it. -/
  | waitq (t k : Nat) (b : IBody)
  /-- WAITQ_RELEASE (R99): A waiting strand's counter reaches its threshold and the lowest-numbered waiter is released first. -/
  | waitqRelease (t k : Nat)
  /-- BAR (R99): Barrier instruction that first fences the strand's scalar and vector writes. -/
  | bar (t k : Nat) (b : IBody)
  /-- BAR_ARRIVE (R99): After its fence, a strand arrives at a barrier group; the c-th arrival releases the generation. -/
  | barArrive (t k : Nat)
  /-- FENCE (R100): Wait until the strand's earlier operations of the named classes are complete. -/
  | fence (t k : Nat) (b : IBody)
  /-- MMA (R115): Matrix multiply-accumulate of plain operands into an accumulator slot, with issue-time checks. -/
  | mma (t k : Nat) (b : IBody)
  /-- MMAS (R115): Matrix multiply-accumulate of block-format operands into an accumulator slot. -/
  | mmas (t k : Nat) (b : IBody)
  /-- MMA_ARRAY_START (R44): The array starts the next MMA or MMAS from the matrix issue queue, loading, clearing or chaining its buffer. -/
  | mmaArrayStart (t : Nat)
  /-- MMA_WRITEBACK_END (R44): An MMA's write-back to its slot ends and the MMA is complete. -/
  | mmaWritebackEnd (t : Nat)
  /-- ACCRD (R118): Accumulator read instruction that converts a slot to an output format through a drain entry. -/
  | accrd (t k : Nat) (b : IBody)
  /-- ACCRD_PORT_START (R118): An ACCRD starts reading its slot through port B once earlier operations are complete and a drain entry is free. -/
  | accrdPortStart (t : Nat)
  /-- DRAIN_ENTRY_VALID (R49): An ACCRD's converted tile, flags and row statistics become a valid drain entry and site counts are added. -/
  | drainEntryValid (t : Nat)
  /-- ACCCLR (R119): Clear every entry of a slot and set its depth to 0 through port B. -/
  | accclr (t k : Nat) (b : IBody)
  /-- ACCCLR_DONE (R48): An ACCCLR's last entry is cleared and it completes. -/
  | accclrDone (t : Nat)
  /-- VECTOR_ENGINE_START (R54): The vector engine starts the next vector instruction once free and its sources are written. -/
  | vectorEngineStart (t : Nat)
  /-- VLD (R121): Copy bytes from tile store into a VT register or pair without conversion. -/
  | vld (t k : Nat) (b : IBody)
  /-- VST (R121): Copy a VT register or pair back to tile store without conversion. -/
  | vst (t k : Nat) (b : IBody)
  /-- VDRAIN (R122): Take the strand's oldest drain entry into a VT register and optionally row statistics. -/
  | vdrain (t k : Nat) (b : IBody)
  /-- VDRAIN_TAKE (R50): A waiting VDRAIN finds a valid entry of its strand, copies it and frees it. -/
  | vdrainTake (t : Nat)
  /-- VOP (R123): Element-wise FP32 operation selected by FN with one rounding. -/
  | vop (t k : Nat) (b : IBody)
  /-- VRED (R124): Row or column reduction of a register or pair. -/
  | vred (t k : Nat) (b : IBody)
  /-- VSUM (R125): Scalar summary of a vector source into a scalar register and the condition word. -/
  | vsum (t k : Nat) (b : IBody)
  /-- VBC (R126): Broadcast one row or column of a register to all rows or columns. -/
  | vbc (t k : Nat) (b : IBody)
  /-- VTBL (R127): Table function f(a minus b) times c from the fixed reference tables. -/
  | vtbl (t k : Nat) (b : IBody)
  /-- VQNT (R128): Quantise a tile against a scale-table entry into an element or block format. -/
  | vqnt (t k : Nat) (b : IBody)
  /-- VDQ (R129): Decode a packed tile and multiply by a scale-table entry's scale. -/
  | vdq (t k : Nat) (b : IBody)
  /-- SCALE_ENTRY_ARRIVAL (R149): A scale-table entry read by VQNT or VDQ arrives from the numerics home and the waiting instruction may proceed. -/
  | scaleEntryArrival (a : ScaleArrival)
  /-- VRNG (R130): Generate a drop-out mask from the global index and the generator. -/
  | vrng (t k : Nat) (b : IBody)
  /-- VOPT (R132): Optimiser update of 1,024 compensated pairs and moments, staging layer sums. -/
  | vopt (t k : Nat) (b : IBody)
  /-- VSCALE_OBSERVE (R133): Stage the absolute maximum, NaN mark and infinity overflows of a tile on a scale entry. -/
  | vscaleObserve (t k : Nat) (b : IBody)
  /-- VSCALE_FLAG (R133): Add 1 to a scale entry's staged overflow count. -/
  | vscaleFlag (t k : Nat) (b : IBody)
  /-- STAGED_OBSERVATION_MERGE (R204): A tile's staged observation reaches the numerics home and merges by maximum, OR and sum. -/
  | stagedObservationMerge (a : MeshArrival)
  /-- DMA (R134): Move rows between tile stores, partition HBM and host memory through a bay DMA engine. -/
  | dma (t k : Nat) (b : IBody)
  /-- DMA_COMPLETE (R135): A DMA, PFX or SPILL finishes at both ends, optionally adding 1 to its signal counter. -/
  | dmaComplete (t serial : Nat) (data : List Byte) (a : Crossed (List Nat)) (ans : PeerReply)
  /-- DESCRIPTOR_SLOT_FREE (R257): A DMA engine slot frees and a waiting movement instruction or host DMA command takes it. -/
  | descriptorSlotFree (taker : SlotTaker)
  /-- PFX (R137): Copy from a gang peer's lend region to local tile store or HBM over VC3. -/
  | pfx (t k : Nat) (b : IBody)
  /-- SPILL (R137): Copy from local tile store or HBM into a gang peer's lend region over VC3. -/
  | spill (t k : Nat) (b : IBody)
  /-- SQPUT (R138): Send one entry into an outbound stage queue using one credit. -/
  | sqput (t k : Nat) (b : IBody)
  /-- SQPUT_WRITTEN (R344): An SQPUT's entry has been written into the consumer's ring slot. -/
  | sqputWritten (side : SqSide)
  /-- SQGET (R138): Take the next fully written entry from an inbound stage queue into tile store. -/
  | sqget (t k : Nat) (b : IBody)
  /-- SQGET_DELIVERED (R344): An SQGET's entry is delivered and a credit is returned to the producer. -/
  | sqgetDelivered (t : Nat) (d : SqDelivery)
  /-- STAGE_CREDIT_RETURN (R344): A VC2 credit message or local credit reaches the producer and adds credits. -/
  | stageCreditReturn (p i : Nat) (c : StageCredits)
  /-- COLL (R140): Issue a collective on a shard-table entry, in element or slot form. -/
  | coll (t k : Nat) (b : IBody)
  /-- CAPSTAN_COLL_START (R298): A capstan starts a queued collective in acceptance order. -/
  | capstanCollStart (t : Nat) (d : SqDelivery)
  /-- COLL_MESSAGE_RECEIVE (R305): A capstan receives a collective message, checks it and places, reduces or merges its elements and votes. -/
  | collMessageReceive (p l : Nat) (bytes : List Byte)
  /-- COLL_COMPLETE (R140): A collective completes, writing its results and optionally signalling. -/
  | collComplete (t : Nat) (d : SqDelivery)
  /-- CWAIT (R143): Wait for the strand's latest collective on an entry, or for the step's commit, and return its status. -/
  | cwait (t k : Nat) (b : IBody)
  /-- LSCALE_READ (R144): Read the loss-scale exponent L into a scalar register. -/
  | lscaleRead (t k : Nat) (b : IBody)
  /-- LSCALE_MUL (R144): Multiply a vector source by 2^L exactly. -/
  | lscaleMul (t k : Nat) (b : IBody)
  /-- LSCALE_DIV (R144): Multiply a vector source by 2^-L exactly. -/
  | lscaleDiv (t k : Nat) (b : IBody)
  /-- LOSSCHK (R144): Check a loss for finiteness, casting NAN or INF and sending an early-abort notice when enabled. -/
  | losschk (t k : Nat) (b : IBody)
  /-- VOTE_CAST (R145): OR vote bits into the partition's local vote, setting LATE after the tile's COMMIT. -/
  | voteCast (t k : Nat) (b : IBody)
  /-- VOTE_READ (R145): Read the local or global vote status word. -/
  | voteRead (t k : Nat) (b : IBody)
  /-- COMMIT (R146): A tile declares its part of the step ready to commit. -/
  | commit (t k : Nat) (b : IBody)
  /-- LAST_BUCKET_START (R308): The LAST voting bucket starts once every tile has committed and earlier collectives are complete. -/
  | lastBucketStart (b : BucketStart)
  /-- COMMIT_EXCHANGE (R310): The partition enters the commit exchange once its strands are inactive or in CWAIT and its witness pairs are resolved. -/
  | commitExchange (p : Nat)
  /-- PARTITION_COMMIT (R146): On completion of the commit exchange the partition switches and applies staged state, or discards on an unclean vote. -/
  | partitionCommit (p : Nat) (others : List (Nat × ExchRec))
  /-- STEP_START (R104): A step of RUN_STEPS or a replay begins: start lists are read, witnesses selected and strands started. -/
  | stepStart (p : Nat)
  /-- TILE_STEP_DONE (R105): A tile's strands are all inactive and its operations complete, and it reports to the command. -/
  | tileStepDone (t : Nat)
  /-- SITE_CONTRIBUTION (R229): A site-bearing instruction's counts reach the numerics home and merge into the site record. -/
  | siteContribution (a : MeshArrival)
  /-- EARLY_ABORT_NOTICE (R217): An early-abort notice is received and applied, ending the step with LOSS_NONFINITE. -/
  | earlyAbortNotice (p : Nat) (source : Option (Nat × List Byte))
  /-- STEP_TIMEOUT (R446): A step's timeout expires and CMD_TIMEOUT is raised naming the least open strand. -/
  | stepTimeout (p : Nat)
  /-- COLL_TIMEOUT (R305): A collective outlives the collective timeout, ends with CMD_TIMEOUT and strikes its epoch. -/
  | collTimeout (t serial : Nat)
  /-- PARTITION_FAULT_STOP (R445): A partition fault fills the record, strikes, freezes tiles and completes the running command. -/
  | partitionFaultStop (p : Nat)
  /-- FREEZE_ACK_TIMEOUT (R445): A tile that has not acknowledged the freeze within 20 µs is declared unreachable; so is a unit that
  has not answered 1 ms into a reset (R454). -/
  | freezeAckTimeout (u : LateUnit)
  /-- STRIKE_RECEIVE (R313): A strike arrives on VC4 and is forwarded, dropped as duplicate, held or applied by epoch. -/
  | strikeReceive (l : Nat) (b : List Byte)
  /-- TILE_SCRUB_READ (R60): The tile scrubber reads and corrects one line every 4,096 cycles. -/
  | tileScrubRead (t : Nat)
  /-- HBM_SCRUB_READ (R254): The HBM scrubber reads a beat, correcting or poisoning it. -/
  | hbmScrubRead (b : Nat)
  /-- BAR2_READ (R250): A host read through BAR2 reaches partition HBM or returns all ones when out of range. -/
  | bar2Read (p o : Nat) (r : BarRead)
  /-- BAR2_WRITE (R250): A host write through BAR2 reaches partition HBM or is dropped and counted. -/
  | bar2Write (p o : Nat) (bytes : List Byte) (a : BarWrite)
  /-- HOST_READ_COMPLETION (R260): A PCIe read completion arrives and is accepted or discarded as late by epoch. -/
  | hostReadCompletion (p tag : Nat) (bytes : List Byte) (a : HostArrival)
  /-- HOST_COMPLETION_TIMEOUT (R261): A host read reaches the PCIe completion timeout and is reissued at the next epoch. -/
  | hostCompletionTimeout (p i : Nat)
  /-- LINK_SIGNAL_DETECT (R282): A link's lanes detect signal and block lock and exchange identity frames, choosing cached or full training. -/
  | linkSignalDetect (n : Nat) (serial : W64) (peerLink : Nat) (coord : W32) (lanes : Nat)
  /-- LINK_TRAINING_DONE (R282): Full or cached training finishes and qualification begins, or a retry follows. -/
  | linkTrainingDone (n : Nat) (pass : Bool) (ms : Nat)
  /-- QUALIFICATION_DONE (R282): The 1 ms PRBS qualification ends; the link comes UP or retrains. -/
  | qualificationDone (n : Nat) (pass : Bool)
  /-- TRAINING_RETRY_TIMER (R282): A DOWN link with TRAIN_FAIL attempts full training again every 10 s. -/
  | trainingRetryTimer (n : Nat)
  /-- LINK_RETRAIN_TRIGGER (R284): Loss of lock or 8 NAKs on one SEQ sends an UP link into RETRAIN. -/
  | linkRetrainTrigger (n lanes : Nat)
  /-- LINK_LOSS_TIMEOUT (R284): A link not UP within LOSS_MS of leaving UP is lost. -/
  | linkLossTimeout (e : LossEvent)
  /-- RETRAIN (R321): A write of RETRAIN requests a link retrain. -/
  | retrain (n : Nat)
  /-- FULL_TRAIN (R321): A write of FULL_TRAIN discards the cache entry and requests full training. -/
  | fullTrain (n : Nat)
  /-- LOOPBACK (R319): A link loop-back at the selected depth runs while ENABLE is 0. -/
  | loopback (n : Nat) (bits : Nat) (r : LoopResult)
  /-- DATA_FLIT_RECEIVE (R288): A DATA flit is accepted, dropped as duplicate, NAKed, held or discarded as stale. -/
  | dataFlitReceive (n : Nat) (bytes : List Byte) (fixed bad : Nat) (ask : Option MsgAsk)
  /-- NAK (R288): A NAK is received and the sender resends from the named SEQ. -/
  | nak (n : Nat) (f : LinkCtl)
  /-- CREDIT_INIT (R286): Initial credit counts are received during link bring-up. -/
  | creditInit (n : Nat) (f : CreditFlit)
  /-- RESUME (R288): A RESUME after a retrain names the expected SEQ and replay restarts. -/
  | resume (n : Nat) (f : LinkCtl)
  /-- REPLAY_TIMEOUT (R288): The oldest unacknowledged flit waits 20 µs and the sender resends from it. -/
  | replayTimeout (n : Nat)
  /-- SLACK (R293): An open message receives no flit for 2 µs and slack is declared. -/
  | slack (n vc : Nat)
  /-- COMMAND_FORWARD_RECEIVE (R432): A gang member receives a forwarded command on VC4 and executes it with the lead's CSN. -/
  | commandForwardReceive (data : List Byte)
  /-- HOVE_TO_FORWARD_RECEIVE (R432): A gang member receives a hove-to action and applies it. -/
  | hoveToForwardReceive (data : List Byte)
  /-- MEMBER_COMPLETION_RECEIVE (R34): The lead receives a member's completion and posts the merged completion when all have answered. -/
  | memberCompletionReceive (p m : Nat) (a : MemberAnswer)
  /-- IDLE_RECORD_LATCH (R354): The idle record is latched every 100 ms while no step runs. -/
  | idleRecordLatch (p : Nat)
  /-- SET_VARIANT (R362): Command that starts a variant switch, reef, shake-out or warp. -/
  | setVariant (p key : Nat)
  /-- SET_VARIANT_CANCEL (R362): A SET_VARIANT with REASON CANCEL ends a reshape in progress before the switch. -/
  | setVariantCancel (p key : Nat)
  /-- CUT_STEP (R374): With CUT_STEP set, the running step is ended by discard with PREEMPTED_REEF at the computed moment. -/
  | cutStep (p : Nat)
  /-- MUSTER_COMPLETE (R372): Every unit of both boxes has reported and the coordinator sets the warp epoch. -/
  | musterComplete (p : Nat) (m : Muster)
  /-- MUSTER_TIMEOUT (R372): A muster not complete in 2 s or by the deadline ends the reshape with MUSTER. -/
  | musterTimeout (p : Nat)
  /-- PRECOPY_PASS (R372): A precopy pass ends and another pass runs unless few granules are dirty or 8 passes have run. -/
  | precopyPass (p : Nat)
  /-- RESHAPE_BOUNDARY (R372): The running step reaches its boundary; boundary and numerics moves are sent. -/
  | reshapeBoundary (p : Nat)
  /-- SEGMENT_RECEIVE (R371): A warp or stay segment message is written and the segment verified or resent. -/
  | segmentReceive (p l src move seg off : Nat) (epoch : W32) (cls : SegClass) (last : Bool) (check : W32) (bytes : List Byte)
  /-- DESTINATION_VERIFIED (R372): A destination reports all its segments verified to the coordinator. -/
  | destinationVerified (p : Nat)
  /-- STAY_FILL (R377): A partition sends its whole current half to a stay holder. -/
  | stayFill (p : Nat) (second : Bool)
  /-- RESHAPE_SWITCH (R372): SWITCH makes the new variant current; leaving partitions are reset and released. -/
  | reshapeSwitch (p : Nat) (m : SwitchEnd)
  /-- RESHAPE_DEADLINE (R375): The reshape deadline passes before the switch and the reshape ends. -/
  | reshapeDeadline (p : Nat)
  /-- STAY_DELTA_START (R378): After a clean commit's switch, a stay delta starts once the previous delta has completed. -/
  | stayDeltaStart (p : Nat) (second : Bool)
  /-- STAY_DELTA_COMPLETE (R378): A stay delta's last segment is verified and the stay becomes CURRENT or BEHIND. -/
  | stayDeltaComplete (p : Nat) (second : Bool) (step : W64)
  /-- RECOVERY_START (R382): Automatic recovery starts when the job's partitions are FAULTED. -/
  | recoveryStart (r : RecoveryBegin)
  /-- SETTLE_TIMEOUT (R382): The 50 ms settle bound of recovery expires. -/
  | settleTimeout (p : Nat)
  /-- POSITION_LOST (R382): A position unanswered on VC5 for 100 ms is lost and assigned a spare or fallback. -/
  | positionLost (p id : Nat) (spare : Bool) (replica : Option Nat) (loss : PositionLoss)
  /-- RECOVERY_WAVE (R382): A recovery wave's partitions are reset and restored from the other wave. -/
  | recoveryWave (p wave : Nat) (data : Option Restore)
  /-- RECOVERY_REFORM (R382): Recovery re-forms the job at the committed step and returns partitions to LOADED. -/
  | recoveryReform (p : Nat) (m : Reform)
  /-- BACKUP_TRIGGER (R386): A station set running past its trigger factor starts its backup set once. -/
  | backupTrigger (b : BackupEvent)
  /-- BACKUP_DONE (R387): The first of primary or backup to complete sets the done counter and the other is withdrawn. -/
  | backupDone (p : Nat) (b : BackupOutcome)
  /-- SQ_TAIL_DOORBELL (R411): A host write of a submission-queue tail doorbell, checked and logged. -/
  | sqTailDoorbell (p q : Nat) (d : W32)
  /-- CQ_HEAD_DOORBELL (R411): A host write of a completion-queue head doorbell, freeing entries or setting ERROR. -/
  | cqHeadDoorbell (p q : Nat) (d : W32)
  /-- QUEUE_ENABLE (R411): Enabling a submission or completion queue resets its pointers and phase. -/
  | queueEnable (p q : Nat) (completion : Bool) (cfg : W32)
  /-- COMMAND_TAKE (R412): Dispatch takes a command from a queue round-robin and assigns its CSN, starting it when its ordering rules allow. -/
  | commandTake (p : Nat) (b : List Byte)
  /-- LOAD_TRAVERSE (R421): Read, check and install a traverse image, or refuse it. -/
  | loadTraverse (p key : Nat) (ph : LoadPhase)
  /-- UNLOAD (R415): Discard the loaded traverse, optionally with a partition reset. -/
  | unload (p key : Nat)
  /-- RUN_STEPS (R415): Run a count of training steps. -/
  | runSteps (p key : Nat)
  /-- WARP_OUT (R423): Write the partition's checkpoint to host memory at a step boundary. -/
  | warpOut (p key : Nat)
  /-- WARP_IN (R423): Restore a checkpoint into the staged half and switch when every segment verifies. -/
  | warpIn (p key : Nat) (ph : ReadPhase)
  /-- DMA_H2D (R259): Host DMA command from host memory into partition HBM. -/
  | dmaH2d (p key : Nat)
  /-- DMA_D2H (R259): Host DMA command from partition HBM to host memory. -/
  | dmaD2h (p : Nat) (x : HostTransfer)
  /-- FENCE_COMMAND (R415): Host FENCE command completing after earlier commands and prior BAR2 writes. -/
  | fenceCommand (p key : Nat)
  /-- SET_TIME (R537): Give the device UTC and update the calendar and REFPPM. -/
  | setTime (p key : Nat)
  /-- QUERY (R418): Write a named record to a host buffer. -/
  | query (p key : Nat) (others : List (Nat × List Byte))
  /-- OPEN_TENANCY (R415): Open a tenancy with a host tag through the Cadastre. -/
  | openTenancy (p key : Nat)
  /-- CLOSE_TENANCY (R415): Close the partition's open tenancy. -/
  | closeTenancy (p key : Nat)
  /-- COMMAND_TIMEOUT (R416): A command's timeout expires and it completes with CMD_TIMEOUT or TACK_RESTART. -/
  | commandTimeout (p key : Nat)
  /-- PARTITION_RESET (R454): Reset a partition: complete commands, close tenancy, zero HBM and tiles, apply retirements. -/
  | partitionReset (p : Nat) (failed back : List Nat)
  /-- PART_CTRL_RESET (R405): A write of PART_CTRL.RESET starts a partition reset. -/
  | partCtrlReset (p : Nat)
  /-- FLR (R405): A function-level reset of a function resets its partition, or the device for the physical function. -/
  | flr (fn : Nat)
  /-- FUNCTION_POWER_STATE (R401): A function enters or leaves D3hot, holding or releasing its doorbells. -/
  | functionPowerState (p : Nat) (d3hot : Bool)
  /-- GANG_FORM (R431): FORM on the lead invites members over VC5 to join a gang unit. -/
  | gangForm (p : Nat)
  /-- GANG_FORMATION_END (R431): Formation ends 10 ms after FORM and FORMED is set on joined members. -/
  | gangFormationEnd (p : Nat) (joined : BitVec 8) (invite : Option (Nat × W32 × Nat))
  /-- GANG_DISSOLVE (R431): DISSOLVE ends the gang unit when every member is EMPTY or FAULTED. -/
  | gangDissolve (p : Nat) (others : Bool)
  /-- HEARTBEAT_BEAT (R433): A write to TCK_HEARTBEAT is a beat, and ends hove-to before its lease ends. -/
  | heartbeatBeat (p : Nat) (v : W32)
  /-- HEARTBEAT_MISS (R434): Three intervals pass without a beat and the partition enters hove-to. -/
  | heartbeatMiss (p : Nat)
  /-- PCIE_DL_DOWN (R434): The PCIe link goes to DL_Down without PERST# and tenanted partitions enter hove-to. -/
  | pcieDlDown
  /-- HOVE_TO_LEASE_END (R435): The hove-to lease ends and the partition is quiesced. -/
  | hoveToLeaseEnd (p : Nat)
  /-- ADM_CREATE (R425): An admission request to create a partition is decided: served, pending, deferred or refused. -/
  | admCreate
  /-- ADM_RESIZE (R427): An admission request resizes an EMPTY partition. -/
  | admResize
  /-- ADM_DESTROY (R427): An admission request releases a partition at once. -/
  | admDestroy
  /-- ADM_CANCEL (R425): Cancel a DEFERRED admission request. -/
  | admCancel (n : Nat)
  /-- ADM_RELEASE (R429): Writing RELEASE frees an ENDED admission result slot. -/
  | admRelease (n : Nat)
  /-- DEFERRED_SERVE (R425): Freed bays serve the deferred queue from its head. -/
  | deferredServe
  /-- WAIT_LIMIT_EXPIRY (R425): A deferred request's WAIT_LIMIT passes and it is refused. -/
  | waitLimitExpiry (n : Nat)
  /-- VICTIM_DEADLINE (R426): A victim's reef deadline passes; a LEASE takes it, a GUARANTEED request re-defers. -/
  | victimDeadline (p : Nat)
  /-- LEASE_DURATION_END (R427): A lease's duration ends; its partition is closed, reset and destroyed. -/
  | leaseDurationEnd (p : Nat)
  /-- FLT_CLEAR (R444): FLT_CTRL.CLEAR clears an unfrozen fault record. -/
  | fltClear (p : Nat)
  /-- AUTO_RESET (R453): A FAULTED partition with AUTO_RESET set is reset after its dump ends. -/
  | autoReset (a : CoordinatorView)
  /-- DUMP_START (R448): A dump is started by START, queued if another runs. -/
  | dumpStart (p : Nat)
  /-- DUMP_ARMED_START (R448): With ARM set, a dump starts within 100 µs of the freeze completing. -/
  | dumpArmedStart (p : Nat)
  /-- DUMP_ACCESS_TIMEOUT (R449): A dump access times out after 20 µs and is written as holes, declaring units unreachable after 4. -/
  | dumpAccessTimeout (p kind unit i : Nat)
  /-- DUMP_END (R452): A dump ends COMPLETE, TRUNCATED or NO_BUFFER and the next queued dump starts. -/
  | dumpEnd (p : Nat) (accepted : Option Nat)
  /-- DUMP_ABORT (R452): ABORT ends a queued or running dump. -/
  | dumpAbort (p : Nat)
  /-- WITNESS_COMPARE (R469): The later of a marked pair arrives and the comparator matches or records a mismatch. -/
  | witnessCompare (p i : Nat)
  /-- WITNESS_UNMATCHED (R469): A marked pair that can no longer complete is counted UNMATCHED. -/
  | witnessUnmatched (p i : Nat)
  /-- FIELD_BOOK_ENTRY (R462): An entry reaches L0 and is written, dropped on overrun, or freezes the book. -/
  | fieldBookEntry
  /-- FBK_UNFREEZE (R463): W1C of FBK_STATUS.FROZEN unfreezes the field book. -/
  | fbkUnfreeze
  /-- SITES (R237): W1C of NUM_EVENTS.SITES clears every site record of the partition. -/
  | sites (p : Nat)
  /-- CHECK_ROUND (R473): Trim runs a round of check traverses over eligible clusters. -/
  | checkRound (results : List CheckResult)
  /-- COMPONENT_FAULT (R481): A Masthead component faults and is restarted, or its core restarts on escalation. -/
  | componentFault (core comp cause pc addr : Nat)
  /-- COMPONENT_WATCHDOG_EXPIRY (R481): A component misses its kernel watchdog deadline. -/
  | componentWatchdogExpiry (core comp : Nat)
  /-- HARDWARE_WATCHDOG (R482): A core's kernel fails to kick for 10 ms and the core restarts. -/
  | hardwareWatchdog (core : Nat)
  /-- CORE_RESTART (R482): A Trim or Tack core resets and reruns its kernel and components. -/
  | coreRestart (core cause : Nat)
  /-- TACK_RESTORE (R488): Tack returns, replays its journal, reads hardware tables and takes held doorbells. -/
  | tackRestore
  /-- SHIM_READ (R483): A host read of an emulated register is forwarded to SHIM. -/
  | shimRead (fn off n : Nat)
  /-- SHIM_READ_TIMEOUT (R485): No SHIM answer within 40 µs returns the busy value. -/
  | shimReadTimeout (fn off n : Nat)
  /-- SHIM_WRITE (R483): A host write to an emulated register enters the FIFO or is dropped. -/
  | shimWrite (fn off : Nat) (bytes : List Byte)
  /-- SHADOW_WRITE (R489): A host write to CLK_, PWR_, THM_ or LIF_ enters Trim's mailbox or is dropped. -/
  | shadowWrite (fn off : Nat) (bytes : List Byte)
  /-- FALLBACK_ENGAGE (R490): The fallback governor takes the clusters to the safe point when Trim stops. -/
  | fallbackEngage
  /-- FALLBACK_RELEASE (R490): The governor releases after two Trim loops and Trim restores points. -/
  | fallbackRelease
  /-- BOOT_SUCCESS (R497): Both cores run 60 s without restart and the slot earns its success mark. -/
  | bootSuccess
  /-- FIRMWARE_ACTIVATION (R496): A pending image is activated at the first idle moment or PERST#. -/
  | firmwareActivation
  /-- QUERY_DEVICE_IDENTIFIERS (R495): PLDM Type 5 request for device identifiers. -/
  | queryDeviceIdentifiers
  /-- GET_FIRMWARE_PARAMETERS (R495): PLDM Type 5 request for firmware parameters. -/
  | getFirmwareParameters
  /-- REQUEST_UPDATE (R495): PLDM Type 5 request to enter update mode. -/
  | requestUpdate
  /-- PASS_COMPONENT_TABLE (R495): PLDM Type 5 component table. -/
  | passComponentTable
  /-- UPDATE_COMPONENT (R495): PLDM Type 5 start of the MASTHEAD component update. -/
  | updateComponent (size : Nat)
  /-- REQUEST_FIRMWARE_DATA (R495): Image data transfer into the inactive slot. -/
  | requestFirmwareData (off : Nat) (data : List Byte)
  /-- TRANSFER_COMPLETE (R495): PLDM Type 5 end of transfer. -/
  | transferComplete
  /-- VERIFY_COMPLETE (R495): Report of the R494 checks on the written slot. -/
  | verifyComplete
  /-- APPLY_COMPLETE (R495): PLDM Type 5 apply report. -/
  | applyComplete
  /-- ACTIVATE_FIRMWARE (R496): Make the written slot pending activation. -/
  | activateFirmware
  /-- GET_STATUS (R495): PLDM Type 5 status request. -/
  | getStatus
  /-- CANCEL_UPDATE_COMPONENT (R495): Cancel the component update. -/
  | cancelUpdateComponent
  /-- CANCEL_UPDATE (R495): Cancel the update, including a pending activation. -/
  | cancelUpdate
  /-- GET_VERSION (R500): SPDM version request. -/
  | getVersion
  /-- GET_CAPABILITIES (R500): SPDM capabilities request. -/
  | getCapabilities
  /-- NEGOTIATE_ALGORITHMS (R500): SPDM algorithm negotiation. -/
  | negotiateAlgorithms
  /-- GET_DIGESTS (R500): SPDM certificate digests request. -/
  | getDigests
  /-- GET_CERTIFICATE (R500): SPDM certificate chain request. -/
  | getCertificate (slot off n : Nat)
  /-- CHALLENGE (R500): SPDM challenge signed with the device key. -/
  | challenge (slot : Nat) (nonce : List Byte)
  /-- GET_MEASUREMENTS (R500): SPDM measurement blocks request. -/
  | getMeasurements (i : Nat) (sign : Bool) (nonce : List Byte)
  /-- REFCLK_PRESENT (R505): REFCLK has 100 µs of edges; PLLs lock and power-up continues. -/
  | refclkPresent (us : Nat)
  /-- REFCLK_ABSENT (R505): REFCLK has no edge for 1 µs; main domains reset as a device reset. -/
  | refclkAbsent
  /-- PLL_LOCK_ATTEMPT (R509): A PLL lock attempt passes or fails, retrying up to four times. -/
  | pllLockAttempt (i : Nat) (pass : Bool) (ppm : Int)
  /-- PLL_MONITOR_WINDOW (R511): A monitor window finds a PLL outside ±0.5 %, recording an excursion and bypassing a compute cluster. -/
  | pllMonitorWindow (i : Nat) (ppm : Int)
  /-- POWER_LOOP (R521): Trim's 1 ms power loop steps clusters slower or faster against caps. -/
  | powerLoop (power : List (Nat × Nat))
  /-- THERMAL_LOOP (R524): Trim's 1 ms thermal loop throttles or releases clusters by temperature. -/
  | thermalLoop (clusters links hbms : List (Nat × Nat)) (predicted : List Nat) (model : Option Bool)
  /-- VIN_OVERCURRENT (R522): VIN_MAIN current above 1,150 A stops every cluster clock for 10 µs. -/
  | vinOvercurrent
  /-- THROTTLE_ASSERT (R522): THROTTLE# asserted puts every cluster at P7 within 20 µs. -/
  | throttleAssert
  /-- THROTTLE_RELEASE (R522): 1 ms after THROTTLE# release the clusters leave P7. -/
  | throttleRelease
  /-- HW_THERMAL_STOP (R524): A cluster at 105 °C has its clock stopped until 102 °C. -/
  | hwThermalStop (c temp : Nat)
  /-- HBM_HOT_REFRESH (R524): An HBM stack at 85 °C doubles its refresh rate. -/
  | hbmHotRefresh (n temp : Nat)
  /-- THERMTRIP (R525): A sensor at its trip temperature asserts THERMTRIP#, powers off domains and latches. -/
  | thermtrip (source temp : Nat)
  /-- REGULATOR_FAULT (R519): A regulator detects over- or undervoltage or overcurrent and turns its domain off. -/
  | regulatorFault (d kind : Nat)
  /-- DOMAIN_GATE (R518): A cluster or bay-fabric domain idle for 10 s is gated. -/
  | domainGate (d : Nat)
  /-- BENCHMARK_SAMPLE (R527): Every 10 minutes BENCH measures each benchmark and updates drift. -/
  | benchmarkSample (l : List (Nat × Nat × Nat × Nat))
  /-- LEVELLING_START (R529): A levelling plans new margin tables, writes them and clusters adopt them. -/
  | levellingStart
  /-- LEVEL_NOW (R529): A write of LIF_CTRL.LEVEL_NOW triggers a levelling. -/
  | levelNow
  /-- CLK_MEAS_START (R513): START begins counting a PLL's cycles over a window. -/
  | clkMeasStart (pll log2 : Nat)
  /-- CLK_MEAS_DONE (R513): The measurement window ends and the count is valid. -/
  | clkMeasDone (count : W32)
  /-- UTC_STALE (R537): Two hours pass without SET_TIME and UTC_STALE is set. -/
  | utcStale
  /-- LIFETIME_STATUS_RECORD (R534): Each operating hour a status record is written to the lifetime store. -/
  | lifetimeStatusRecord
  /-- CAD_ATTRIBUTION (R552): Each millisecond the Cadastre attributes energy to open tenancies and common. -/
  | cadAttribution (reg hbm : List (Nat × Nat)) (vin vddq link io aux : Nat)
  /-- CAD_RAIL_COMPARE (R551): Each second the Cadastre compares regulator sum with VIN_MAIN, setting or clearing ATTR_FAULT. -/
  | cadRailCompare
  /-- CAD_SENSOR_SILENT (R551): The sensor bus delivers no reading for 1 ms and ATTR_FAULT is set. -/
  | cadSensorSilent
  /-- CAD_DECLARE_OPEN (R557): A tenancy opening declaration is accepted and an OPEN record written. -/
  | cadDeclareOpen
  /-- CAD_DECLARE_CLOSE (R557): A tenancy closing declaration writes a CLOSE record and a seal. -/
  | cadDeclareClose
  /-- CAD_DECLARE_UTC (R560): A UTC declaration writes a TIME record. -/
  | cadDeclareUtc
  /-- CAD_RESET_PULSE (R557): A partition reset pulse closes the partition's tenancy with reason RESET. -/
  | cadResetPulse (p : Nat)
  /-- CAD_DEVICE_RESET_CLOSE (R557): PERST# or a device reset closes every open tenancy with DEVICE_RESET. -/
  | cadDeviceResetClose
  /-- CAD_CHECKPOINT (R553): Every 10 s meter time and running figures are checkpointed. -/
  | cadCheckpoint
  /-- CAD_INTERIM (R560): Every INTERIM_H hours of an open tenancy an INTERIM record is written. -/
  | cadInterim (p : Nat)
  /-- CAD_DEVICE_RECORD (R560): Each hour of meter time a DEVICE record and a seal are written. -/
  | cadDeviceRecord
  /-- CAD_SSC_DETECT (R555): The Cadastre detects or loses REFCLK spread deeper than 600 ppm. -/
  | cadSscDetect (ppm : Nat)
  /-- IDENT (R570): CAD pin command returning identity and status. -/
  | ident
  /-- READ (R570): CAD pin command returning one ledger record. -/
  | read (index : W32)
  /-- MARKS (R570): CAD pin command returning next index, read mark and drops. -/
  | marks
  /-- ACK (R564): CAD pin command moving the read mark, freeing held records. -/
  | ack (index : W32)
  /-- CERT (R570): CAD pin command returning part of the certificate chain. -/
  | cert (off : Nat)
  /-- TOTALS (R570): CAD pin command returning meter time and energy totals. -/
  | totals
  /-- PART (R570): CAD pin command returning a partition's running figures. -/
  | part (p : Nat)
  /-- SET_PARAM (R569): Guarded change of a Cadastre field parameter. -/
  | setParam (code : Nat) (value guard : W32)
  /-- AUX_POWER_UP (R582): VDD_AUX reaches tolerance and the AUX phase starts the Cadastre and Masthead. -/
  | auxPowerUp (crc : W32) (rail ppm : Nat)
  /-- MASTHEAD_READY (R582): The Masthead is ready, allowing the main phase to begin. -/
  | mastheadReady
  /-- PERST_DEASSERT (R583): PERST# deasserted samples TEST_MODE and starts the main power-up phase. -/
  | perstDeassert (mode : Nat)
  /-- PERST_ASSERT (R406): PERST# asserted causes a device reset. -/
  | perstAssert
  /-- HBM_TRAINING_TIMEOUT (R585): A stack not trained within 900 ms is marked failed and its bay disabled. -/
  | hbmTrainingTimeout (n : Nat)
  /-- DEVICE_READY (R583): Stacks are trained and zeroed and configuration requests complete normally. -/
  | deviceReady (hbmMs : Nat) (fusesOk : Bool)
  /-- SEQUENCE_FAULT (R581): A main rail rising out of order holds main domains in reset. -/
  | sequenceFault
  /-- PWR_GOOD_FALL (R581): PWR_GOOD falls while PERST# is deasserted and the device resets. -/
  | pwrGoodFall
  /-- SCAN_EN_HIGH (R578): SCAN_EN high outside factory test stops every compute and fabric clock. -/
  | scanEnHigh
  /-- TRST (R587): TRST# low or five TMS-high cycles resets the test port to IDCODE. -/
  | trst
  /-- EXTEST (R588): Guarded boundary-scan EXTEST instruction. -/
  | extest
  /-- IDCODE (R587): JTAG IDCODE instruction. -/
  | idcode
  /-- SAMPLE_PRELOAD (R588): JTAG SAMPLE/PRELOAD instruction. -/
  | samplePreload
  /-- CLAMP (R588): Guarded JTAG CLAMP instruction. -/
  | clamp
  /-- HIGHZ (R588): Guarded JTAG HIGHZ instruction. -/
  | highz
  /-- EXTEST_PULSE (R588): Guarded IEEE 1149.6 EXTEST_PULSE instruction. -/
  | extestPulse
  /-- EXTEST_TRAIN (R588): Guarded IEEE 1149.6 EXTEST_TRAIN instruction. -/
  | extestTrain
  /-- IJTAG_ACCESS (R590): Access to the internal IEEE 1687 network when unlocked or in factory test. -/
  | ijtagAccess
  /-- BYPASS (R588): JTAG BYPASS, also taken by refused guarded instructions. -/
  | bypass
  /-- UNLOCK (R590): A write of TST_JTAG.UNLOCK opens IJTAG access while no partition exists. -/
  | unlock (value : Bool)
  /-- PCIE_LOOPBACK (R593): TST_PCIELB START runs a PCIe loop-back at the selected depth when no tenancy is open. -/
  | pcieLoopback (depth : Nat) (pattern : Bool) (duration : Nat)
  /-- PCIE_LOOPBACK_END (R593): The PCIe loop's duration ends, the result is recorded and the link retrains. -/
  | pcieLoopbackEnd (errors : W32)
  /-- HOST_DIRECTED_LOOPBACK (R593): The host directs the device into PCIe Loopback as follower. -/
  | hostDirectedLoopback
  /-- HBM_LOOPBACK (R594): TST_HBMLB START runs an H test on a stack whose bay is in no partition. -/
  | hbmLoopback (depth stack : Nat)
  /-- HBM_LOOPBACK_END (R594): An H test ends, is aborted by admission, and the stack is zeroed. -/
  | hbmLoopbackEnd (errors : W32)
  /-- REGISTER_WRITE (R17): A host write to a register that has no row of its own, applied per its access code. -/
  | registerWrite (fn off : Nat) (bytes : List Byte)
  /-- REGISTER_READ_CLEAR (R17): A host read of an RC field returns its value and then clears it. -/
  | registerReadClear (fn off n : Nat)
  /-- AUX_POWER_LOSS (R18): VDD_AUX is lost: sticky fields, the field book, the Cadastre hold buffer and the shared SRAM journals are lost. -/
  | auxPowerLoss
  /-- VIN_MAIN_CYCLE (R525): VIN_MAIN falls below 0.3 V and rises again, releasing a latched THERMTRIP# and a sequence-fault hold. -/
  | vinMainCycle
  /-- DEVICE_TICK (R79): On each 10 ns edge device time advances and every tile's busy or idle counter is sampled once. -/
  | deviceTick (issued : List Nat)
  /-- VECTOR_COMPLETE (R54): A vector instruction reaches its latency and writes its destination, scalar summary and condition-word flags. -/
  | vectorComplete (t : Nat)
  /-- HOST_DMA_COMPLETE (R259): A DMA_H2D has written its last byte into HBM, or a DMA_D2H has sent its last write, and its completion is posted. -/
  | hostDmaComplete (p key : Nat)
  /-- HOST_POSTED_CREDIT (R261): The host returns posted write credits and a stalled host write transfer resumes. -/
  | hostPostedCredit (p key n : Nat)
  /-- TAG_SLOT_HOLDOFF_END (R261): A read request slot held out of use for eight Completion Timeout periods returns to use. -/
  | tagSlotHoldoffEnd (p i : Nat)
  /-- PCIE_DL_UP (R434): The PCIe link returns to DL_Up and held completions are written in order. -/
  | pcieDlUp
  /-- IDLE_FLIT_RECEIVE (R287): An IDLE flit is received and its ACK and returned credits are applied. -/
  | idleFlitReceive (n : Nat) (ack : BitVec 16) (ccount cvc : Nat)
  /-- RELAY_FORWARD (R278): An intermediate device receives VC3 or relayed torus traffic not addressed to it and forwards it on. -/
  | relayForward (n vc dest : Nat) (m : RelayData)
  /-- HW_THERMAL_RESTART (R524): A cluster whose clock was stopped at 105 °C cools to 102 °C and its clock restarts. -/
  | hwThermalRestart (c temp : Nat)
  /-- GOVERNOR_CLOCK_STOP (R490): While engaged, the fallback governor stops clusters at 100 °C or over a cap, and restarts them at 98 °C or after 1 ms. -/
  | governorClockStop (temps power : List (Nat × Nat))
  /-- SENSOR_SHADOW_UPDATE (R489): Every 1 ms SENSORS writes the CLK_, PWR_, THM_ and LIF_ shadow and sensor values, raising PLDM threshold events. -/
  | sensorShadowUpdate
  /-- PLDM_PLATFORM_REQUEST (R499): A PLDM Type 2 request over MCTP reads sensors, PDRs or a pending event, releasing MGMT_ALERT# when the event is read. -/
  | pldmPlatformRequest (q : PlatformReq)
  deriving DecidableEq, Repr

end Sys2Proof
end

