-- ==== Sys2Proof/Decode.lean ====
section
/-! DEFINITION. The command that a word spells by the command table's bits. The table gives no row any bits: a command is an event or
an access with its operands, not an encoded word. (The strand instruction words of R83 are decoded where they issue, in
Machine/Word128.lean and Machine/Operands.lean.) -/

namespace Sys2Proof

/-- The command spelled by the `nbits` bits of `w`: none, for no row of the table has bits. -/
def decodeTableWord (_nbits _w : Nat) : Option Instr := none

end Sys2Proof
end

