-- ==== Sys2Proof/Machine/Crc.lean ====
section
/-! DEFINITION. The CRC-32 of flits, messages, images and operand signatures (R285, R306, R420, R468). -/

namespace Sys2Proof.Machine

/-! ### CRC-32 (R285) -/

/-- One bit of the reflected CRC-32. -/
def crcBit (c : W32) : W32 := if c.getLsbD 0 then (c >>> 1) ^^^ 0xEDB88320#32 else c >>> 1

/-- One byte. -/
def crcByte (c : W32) (b : Byte) : W32 :=
  crcBit (crcBit (crcBit (crcBit (crcBit (crcBit (crcBit (crcBit (c ^^^ BitVec.ofNat 32 b.toNat))))))))

/-- CRC-32 with polynomial 0x04C1_1DB7, computed as the Ethernet frame check sequence (R285). -/
def crc32 (bs : List Byte) : W32 := bs.foldl crcByte 0xFFFFFFFF#32 ^^^ 0xFFFFFFFF#32

end Sys2Proof.Machine
end

