-- ==== Sys2Proof/Machine/Map.lean ====
section
/-! DEFINITION. Reading and writing a sparse table (SMap) in its one canonical form: keys strictly rising, no entry
equal to the default value. -/

namespace Sys2Proof.Machine

variable {α : Type}

/-- What key `k` holds; an unlisted key holds the default `d`. -/
def mget (d : α) : SMap α → Nat → α
  | [], _ => d
  | (j, v) :: m, k => if k = j then v else if k < j then d else mget d m k

/-- `m` with nothing listed at `k`. -/
def mdel : SMap α → Nat → SMap α
  | [], _ => []
  | (j, v) :: m, k => if k = j then m else if k < j then (j, v) :: m else (j, v) :: mdel m k

/-- `m` with `v` listed at `k`. -/
def mput : SMap α → Nat → α → SMap α
  | [], k, v => [(k, v)]
  | (j, w) :: m, k, v =>
    if k = j then (k, v) :: m else if k < j then (k, v) :: (j, w) :: m else (j, w) :: mput m k v

/-- Write `v` at `k`: writing the default removes the entry, so that equal tables are equal data. -/
def mset [DecidableEq α] (d : α) (m : SMap α) (k : Nat) (v : α) : SMap α :=
  if v = d then mdel m k else mput m k v

/-- Change what key `k` holds by `f`. -/
def mmod [DecidableEq α] (d : α) (m : SMap α) (k : Nat) (f : α → α) : SMap α :=
  mset d m k (f (mget d m k))

/-- All keys of `m` lie at or above `lo`, rise strictly, and no entry holds the default. -/
def mwfFrom [DecidableEq α] (d : α) : Nat → SMap α → Bool
  | _, [] => true
  | lo, (k, v) :: m => decide (lo ≤ k) && decide (v ≠ d) && mwfFrom d (k + 1) m

/-- The canonical form of a table. -/
def mwf [DecidableEq α] (d : α) (m : SMap α) : Bool := mwfFrom d 0 m

/-- The table whose keys `k`, `k+1`, …, one for each value of the list, hold those values. -/
def mlist [DecidableEq α] (d : α) : Nat → List α → SMap α
  | _, [] => []
  | k, v :: vs => if v = d then mlist d (k + 1) vs else (k, v) :: mlist d (k + 1) vs

/-- Write the values of the list at `k`, `k+1`, …, all else unchanged. -/
def msetList [DecidableEq α] (d : α) : SMap α → Nat → List α → SMap α
  | m, _, [] => m
  | m, k, v :: vs => msetList d (mset d m k v) (k + 1) vs

/-- The `n` values at `k`, `k+1`, …. -/
def mgetList (d : α) (m : SMap α) (k : Nat) : Nat → List α
  | 0 => []
  | n + 1 => mget d m k :: mgetList d m (k + 1) n

/-- Write `v` at the `n` keys `k`, `k+1`, …. -/
def mfill [DecidableEq α] (d : α) (m : SMap α) (k : Nat) : Nat → α → SMap α
  | 0, _ => m
  | n + 1, v => mfill d (mset d m k v) (k + 1) n v

/-- Clear every key from `lo` up to but not including `hi`. -/
def mclear (m : SMap α) (lo hi : Nat) : SMap α :=
  m.filter fun e => decide (e.1 < lo) || decide (hi ≤ e.1)

/-- The keys at which the listed value passes the test, lowest first. -/
def mkeys (p : α → Bool) (m : SMap α) : List Nat :=
  (m.filter fun e => p e.2).map (·.1)

/-- Apply `f` to every listed value; the default is assumed unchanged by `f`. -/
def mmap [DecidableEq α] (d : α) (f : Nat → α → α) (m : SMap α) : SMap α :=
  (m.map fun e => (e.1, f e.1 e.2)).filter fun e => decide (e.2 ≠ d)

/-- Put `x` before the first element of a sorted list that it may stand before. -/
def insertBy (le : α → α → Bool) (x : α) : List α → List α
  | [] => [x]
  | y :: l => if le x y then x :: y :: l else y :: insertBy le x l

/-- A list in the order `le`, equal elements as they stood. -/
def sortBy (le : α → α → Bool) : List α → List α
  | [] => []
  | x :: l => insertBy le x (sortBy le l)

end Sys2Proof.Machine
end

