-- ==== Sys2Proof/Config.lean ====
section
/-! DEFINITION. What one device fixes and the manual does not state: opaque constants without a body. No proof can
see a value of one, so a claim that mentions one holds whatever it is. -/

namespace Sys2Proof

/-- FREE VALUE (R127). The result bits of VTBL function `fn` on an FP32 input that R127's table does not fix: they
are the bits of Avhild's VTBL reference model, which the manual does not contain. -/
opaque Config.vtbl : Nat → BitVec 32 → BitVec 32

/-- FREE VALUE (R59, R251). Whether a word or beat with three or more bad bits or symbols is detected (true), or passes
with wrong data (false). The argument numbers the pattern of the errors, from 3 on. -/
opaque Config.wideErrorDetected : Nat → Bool

/-- FREE VALUE (R59, R251). Byte by byte, the wrong data delivered when an error of three or more bad bits or symbols passes undetected,
by the pattern of the errors. -/
opaque Config.wideErrorByte : Nat → Nat → Byte

/-- FREE VALUE (R257, R261). Whether word (or beat) `w` of a transfer that faults or times out was moved before it
ended. The first argument numbers the transfer. -/
opaque Config.wordMoved : Nat → Nat → Bool

/-- FREE VALUE (R192). What the destination slot of a struck slot-form collective holds: the word of each entry, its first-special
index, and DEPTH. The first argument numbers the strike's slot, the second the entry. -/
opaque Config.struckWord : Nat → Nat → BitVec 128
@[inherit_doc Config.struckWord] opaque Config.struckFirst : Nat → Nat → Option (BitVec 16)
@[inherit_doc Config.struckWord] opaque Config.struckDepth : Nat → BitVec 17

/-- FREE VALUE (R310, R420). Size of an exchange record in a layout that an EXCHANGE section holds, and byte `i` of a record in it: the spec
gives the layout of no such section. -/
opaque Config.exchangeSize : List Byte → Nat
@[inherit_doc Config.exchangeSize] opaque Config.exchangeByte : List Byte → Machine.ExchRec → Nat → Byte

/-- FREE VALUE (R217, R312). Which of NAN (true) and INF another partition's LOSSCHK cast, when its early-abort notice ends the step. The
argument numbers the notice. -/
opaque Config.abortNan : Nat → Bool

/-- FREE VALUE (R385, R420). The backup units that variant `v` of the job with identity `j` declares: the spec names no section of the image
that gives them. -/
opaque Config.backupUnits : BitVec 32 → Nat → List Machine.BackupUnit

/-- FREE VALUE (R514). Factory voltage Vf of cluster `c` at point `k`, in mV, and its drift sensitivity S, in mV per percentage
point: the factory data the manual does not contain. -/
opaque Config.vf : Nat → Nat → Nat
@[inherit_doc Config.vf] opaque Config.sens : Nat → Nat → Nat

/-- FREE VALUE (R528). Normalised speed of benchmark `b` from a measurement, in mV and 0.25 °C, by its factory coefficients, and
its factory baseline. -/
opaque Config.speed : Nat → Nat → Nat → Nat → Nat
@[inherit_doc Config.speed] opaque Config.baseline : Nat → Nat

/-- FREE VALUE (R407). The device's serial number. -/
opaque Config.serial : W64

/-- FREE VALUE (R493). VERSION, SVN and DIGEST of the firmware image of manufacture. -/
opaque Config.fwVersion : W32
@[inherit_doc Config.fwVersion] opaque Config.fwSvn : Nat
@[inherit_doc Config.fwVersion] opaque Config.fwDigest : List Byte

/-- FREE VALUE (R494, R561). SHA-384, which the manual takes from its standard. -/
opaque Config.sha384 : List Byte → List Byte

/-- FREE VALUE (R494). Does a signature verify over a digest under fused firmware key `k`? -/
opaque Config.fwVerify : Nat → List Byte → List Byte → Bool

/-- FREE VALUE (R500, R561). ECDSA P-384 signatures, r then s, of the Masthead's device key and of the Cadastre's. -/
opaque Config.signMast : List Byte → List Byte
@[inherit_doc Config.signMast] opaque Config.signCad : List Byte → List Byte

/-- FREE VALUE (R500, R570, R572). The Cadastre's public key and certificate chain, the SPDM device certificate chain, and the boot
ROM's digest. -/
opaque Config.cadKey : List Byte
@[inherit_doc Config.cadKey] opaque Config.cadCert : List Byte
@[inherit_doc Config.cadKey] opaque Config.spdmCert : List Byte
@[inherit_doc Config.cadKey] opaque Config.romDigest : List Byte

/-- FREE VALUE (R565). The Cadastre's software version and the CRC-32 of its ROM. -/
opaque Config.cadVersion : W32
@[inherit_doc Config.cadVersion] opaque Config.cadRomCrc : W32

/-- FREE VALUE (R495, R499, R500). The bytes of an answer that the named standard lays out, by message code and arguments. -/
opaque Config.standardReply : Nat → List Nat → List Byte

/-- FREE VALUE (R253, R443). The unit that DETAIL names for a tile's DMA whose host source arrives poisoned: the spec gives that transfer no
fault of its own. -/
opaque Config.hostEccUnit : Nat

/-- FREE VALUE (R457). Which of the partition fault codes of R438 reports a fault of a shared resource: 0 capstan, 1 link-die crossing,
2 PCIe controller. -/
opaque Config.sharedFaultCode : Nat → Nat

/-- FREE VALUE (R537). The step that the first SET_TIME after AUX power-up records, when there is no estimate to compare with. -/
opaque Config.firstStep : W64

end Sys2Proof
end

