-- ==== Sys2Proof/Machine/Num.lean ====
section
/-! DEFINITION. Exact numbers, the fifteen number formats (R151 to R174), FP32 arithmetic (R155) and the one
conversion rule (R165). -/

namespace Sys2Proof.Machine

/-- A datum a unit computes with: a NaN, a signed infinity, or the exact number (−1)^neg × m × 2^e. Zero keeps its
sign (R153). -/
inductive Val where
  | nan
  | inf (neg : Bool)
  | fin (neg : Bool) (m : Nat) (e : Int)
  deriving DecidableEq, Repr

/-- m × 2^(−d) rounded to the nearest integer, ties to even. -/
def rneShift (m d : Nat) : Nat :=
  let q := m >>> d
  let r := m % 2 ^ d
  let h := 2 ^ d
  if 2 * r > h then q + 1 else if 2 * r = h then q + q % 2 else q

/-- m × 2^e rounded to a multiple of 2^k, in units of 2^k: `rne(x, q)` of the manual for a magnitude. -/
def rneUnits (m : Nat) (e k : Int) : Nat :=
  if k ≤ e then m <<< (e - k).toNat else rneShift m (k - e).toNat

/-- floor(log2(m × 2^e)) for m not 0. -/
def flog2 (m : Nat) (e : Int) : Int := (Nat.log2 m : Int) + e

/-- Is m1 × 2^e1 less than m2 × 2^e2 (magnitudes)? -/
def magLt (m1 : Nat) (e1 : Int) (m2 : Nat) (e2 : Int) : Bool :=
  if e1 ≤ e2 then decide (m1 < m2 <<< (e2 - e1).toNat) else decide (m1 <<< (e1 - e2).toNat < m2)

/-- The signed integer numerator of a finite value over 2^k, exact when k is at most its exponent. -/
def sintOver (neg : Bool) (m : Nat) (e k : Int) : Int :=
  let x : Int := ((m <<< (e - k).toNat : Nat) : Int)
  if neg then -x else x

namespace Val

/-- The exact number n × 2^e. -/
def ofInt (n : Int) (e : Int) : Val := .fin (decide (n < 0)) n.natAbs e

/-- Multiply by 2^k, exactly. -/
def scale (k : Int) : Val → Val
  | .fin s m e => .fin s m (e + k)
  | v => v

/-- Is it a NaN? -/
def isNan : Val → Bool
  | .nan => true
  | _ => false

/-- Is it an infinity? -/
def isInf : Val → Bool
  | .inf _ => true
  | _ => false

/-- Is it finite? -/
def isFin : Val → Bool
  | .fin _ _ _ => true
  | _ => false

/-- Is it a zero of either sign? -/
def isZero : Val → Bool
  | .fin _ 0 _ => true
  | _ => false

/-- −x; a NaN stays a NaN. -/
def neg : Val → Val
  | .nan => .nan
  | .inf s => .inf (!s)
  | .fin s m e => .fin (!s) m e

/-- |x|. -/
def abs : Val → Val
  | .nan => .nan
  | .inf _ => .inf false
  | .fin _ m e => .fin false m e

/-- The sign bit. -/
def sign : Val → Bool
  | .nan => false
  | .inf s => s
  | .fin s _ _ => s

/-- x < y as numbers (−0 = +0); false when either is a NaN. -/
def lt : Val → Val → Bool
  | .nan, _ => false
  | _, .nan => false
  | .inf true, .inf true => false
  | .inf true, _ => true
  | .inf false, _ => false
  | .fin _ _ _, .inf s => !s
  | .fin s m e, .fin t n f =>
    let k := min e f
    decide (sintOver s m e k < sintOver t n f k)

/-- x = y as numbers (−0 = +0); false when either is a NaN. -/
def eq (x y : Val) : Bool := !x.isNan && !y.isNan && !lt x y && !lt y x

/-- The exact product; NaN for a NaN operand and for 0 × infinity. -/
def mul : Val → Val → Val
  | .nan, _ => .nan
  | _, .nan => .nan
  | .inf s, .inf t => .inf (xor s t)
  | .inf s, .fin t m _ => if m = 0 then .nan else .inf (xor s t)
  | .fin s m _, .inf t => if m = 0 then .nan else .inf (xor s t)
  | .fin s m e, .fin t n f => .fin (xor s t) (m * n) (e + f)

/-- The exact sum under IEEE 754: opposite infinities give a NaN, and an exact zero sum is −0 only when both terms
are −0 (R118, R155). -/
def add : Val → Val → Val
  | .nan, _ => .nan
  | _, .nan => .nan
  | .inf s, .inf t => if s = t then .inf s else .nan
  | .inf s, .fin _ _ _ => .inf s
  | .fin _ _ _, .inf t => .inf t
  | .fin s m e, .fin t n f =>
    let k := min e f
    let x := sintOver s m e k + sintOver t n f k
    if x = 0 then .fin (s && t && decide (m = 0) && decide (n = 0)) 0 0 else ofInt x k

/-- The greatest of two numbers: NaN if either is, +0 above −0 (R118, R123). -/
def max : Val → Val → Val
  | .nan, _ => .nan
  | _, .nan => .nan
  | x, y => if lt x y then y else if lt y x then x else if x.sign then y else x

/-- The lesser of two numbers: NaN if either is, −0 below +0 (R123). -/
def min' : Val → Val → Val
  | .nan, _ => .nan
  | _, .nan => .nan
  | x, y => if lt x y then x else if lt y x then y else if x.sign then x else y

end Val

/-! ## Formats -/

/-- The fifteen formats (R151). -/
inductive Fmt where
  | bf16 | fp16 | fp32 | e4m3 | e5m2 | int8 | e2m1 | int4 | tern
  | mx8e4 | mx8e5 | mxi8 | mx4 | pb4 | tb2
  deriving DecidableEq, Repr

/-- The format of an 8-bit format code (R151). -/
def Fmt.ofCode : Nat → Option Fmt
  | 0x01 => some .bf16
  | 0x02 => some .fp16
  | 0x04 => some .fp32
  | 0x10 => some .e4m3
  | 0x11 => some .e5m2
  | 0x12 => some .int8
  | 0x20 => some .e2m1
  | 0x21 => some .int4
  | 0x22 => some .tern
  | 0x30 => some .mx8e4
  | 0x31 => some .mx8e5
  | 0x32 => some .mxi8
  | 0x33 => some .mx4
  | 0x34 => some .pb4
  | 0x35 => some .tb2
  | _ => none

/-- The 8-bit code of a format (R151). -/
def Fmt.code : Fmt → Nat
  | .bf16 => 0x01 | .fp16 => 0x02 | .fp32 => 0x04 | .e4m3 => 0x10 | .e5m2 => 0x11 | .int8 => 0x12
  | .e2m1 => 0x20 | .int4 => 0x21 | .tern => 0x22 | .mx8e4 => 0x30 | .mx8e5 => 0x31 | .mxi8 => 0x32
  | .mx4 => 0x33 | .pb4 => 0x34 | .tb2 => 0x35

/-- Is it a block format (R151)? -/
def Fmt.isBlock : Fmt → Bool
  | .mx8e4 | .mx8e5 | .mxi8 | .mx4 | .pb4 | .tb2 => true
  | _ => false

/-- The element format inside a format: a block's elements, or the format itself (R159). -/
def Fmt.elem : Fmt → Fmt
  | .mx8e4 => .e4m3 | .mx8e5 => .e5m2 | .mxi8 => .int8 | .mx4 => .e2m1 | .pb4 => .e2m1 | .tb2 => .tern
  | f => f

/-- Stored bits of one element of an element format (R151, R156). -/
def Fmt.bits : Fmt → Nat
  | .fp32 => 32
  | .bf16 | .fp16 => 16
  | .e4m3 | .e5m2 | .int8 | .mx8e4 | .mx8e5 | .mxi8 => 8
  | .e2m1 | .int4 | .mx4 | .pb4 => 4
  | .tern | .tb2 => 2

/-- Four k-steps per cycle: 4-bit and narrower formats (R42). -/
def Fmt.isNarrow (f : Fmt) : Bool := decide (f.bits ≤ 4)

/-- Has the format infinities (R152)? -/
def Fmt.hasInf : Fmt → Bool
  | .bf16 | .fp16 | .fp32 | .e5m2 | .mx8e5 => true
  | _ => false

/-- The layout of a floating-point format: mantissa bits, exponent bits, bias (R152). -/
structure Layout where
  mbits : Nat
  ebits : Nat
  bias : Nat
  deriving DecidableEq, Repr

/-- The layout of a floating-point element format; none for an integer format (R152). -/
def Fmt.layout : Fmt → Option Layout
  | .fp32 => some ⟨23, 8, 127⟩
  | .bf16 => some ⟨7, 8, 127⟩
  | .fp16 => some ⟨10, 5, 15⟩
  | .e4m3 => some ⟨3, 4, 7⟩
  | .e5m2 => some ⟨2, 5, 15⟩
  | .e2m1 => some ⟨1, 2, 1⟩
  | _ => none

/-- The code of the largest finite magnitude of a floating-point format (R152). -/
def Fmt.maxCode : Fmt → Nat
  | .fp32 => 0x7F7FFFFF | .bf16 => 0x7F7F | .fp16 => 0x7BFF | .e4m3 => 0x7E | .e5m2 => 0x7B | .e2m1 => 0x7
  | .int8 => 0x7F | .int4 => 0x7 | .tern => 1
  | _ => 0

/-- The code of +infinity of a format that has one (R152). -/
def Fmt.infCode : Fmt → Nat
  | .fp32 => 0x7F800000 | .bf16 => 0x7F80 | .fp16 => 0x7C00 | .e5m2 => 0x7C
  | _ => 0

/-- The canonical NaN, or the NaN substitute of a format without one (R152, R166). -/
def Fmt.nanCode : Fmt → Nat
  | .fp32 => 0x7FC00000 | .bf16 => 0x7FC0 | .fp16 => 0x7E00 | .e4m3 => 0x7F | .e5m2 => 0x7E
  | .e2m1 => 0x8 | .int8 => 0x80 | .int4 => 0x8 | .tern => 2
  | _ => 0

/-- Read `n` bits as two's complement. -/
def sintOf (bits n : Nat) : Int :=
  let x := n % 2 ^ bits
  if 2 * x < 2 ^ bits then (x : Int) else (x : Int) - (2 ^ bits : Nat)

/-- The value of an element code (R153, R157). -/
def Fmt.decode (f : Fmt) (c : Nat) : Val :=
  match f.layout with
  | some l =>
    let fr := c % 2 ^ l.mbits
    let ex := (c >>> l.mbits) % 2 ^ l.ebits
    let s := decide ((c >>> (l.mbits + l.ebits)) % 2 = 1)
    if decide (ex = 2 ^ l.ebits - 1) && f.hasInf then (if fr = 0 then .inf s else .nan)
    else if decide (f = .e4m3) && decide (ex = 15) && decide (fr = 7) then .nan
    else if ex = 0 then .fin s fr (1 - (l.bias : Int) - l.mbits)
    else .fin s (2 ^ l.mbits + fr) ((ex : Int) - l.bias - l.mbits)
  | none =>
    match f with
    | .int8 => Val.ofInt (sintOf 8 c) 0
    | .int4 => Val.ofInt (sintOf 4 c) 0
    | .tern => if c % 4 = 1 then .fin false 1 0 else if c % 4 = 3 then .fin true 1 0 else .fin false 0 0
    | _ => .nan

/-- The classes a conversion counts an element in (R168); `none` counts nowhere. -/
inductive Cls where
  | none | sat | flush | inf | nan
  deriving DecidableEq, Repr

/-- The code of a magnitude that is `y` units of 2^(q) in a floating-point layout, `y` in range. -/
def floatCode (l : Layout) (y : Nat) (q : Int) : Nat :=
  -- y units of 2^q; q is at least the subnormal quantum
  let emin : Int := 1 - (l.bias : Int)
  if y < 2 ^ l.mbits then y            -- subnormal or zero: q = emin - mbits
  else
    let k := Nat.log2 y - l.mbits      -- 0, or 1 after a carry into the next binade
    let y' := y >>> k
    let ex := (q + k + l.mbits - emin + 1).toNat
    ex * 2 ^ l.mbits + (y' - 2 ^ l.mbits)

/-- `convert(x, f, md)` of R165 with the class of R168: `ieee` is the mode md. -/
def convert (f : Fmt) (ieee : Bool) (x : Val) : Nat × Cls :=
  let sgn (s : Bool) : Nat :=
    match f.layout with
    | some l => if s then 2 ^ (l.mbits + l.ebits) else 0
    | none => 0
  let largest (s : Bool) : Nat :=
    match f with
    | .int8 => if s then 0x80 else 0x7F
    | .int4 => if s then 0x8 else 0x7
    | .tern => if s then 3 else 1
    | _ => sgn s + f.maxCode
  match x with
  | .nan => (f.nanCode, .nan)
  | .inf s => if f.hasInf then (sgn s + f.infCode, .inf) else (largest s, .sat)
  | .fin s m e =>
    match f.layout with
    | some l =>
      if m = 0 then (sgn s, .none)
      else
        let emin : Int := 1 - (l.bias : Int)
        let q := max (flog2 m e) emin - l.mbits
        let y := rneUnits m e q
        if y = 0 then (sgn s, .flush)
        else
          -- compare y × 2^q with the largest finite value
          match f.decode f.maxCode with
          | .fin _ mm me =>
            if magLt mm me y q then
              (if ieee && f.hasInf then (sgn s + f.infCode, .inf) else (largest s, .sat))
            else (sgn s + floatCode l y q, .none)
          | _ => (sgn s + floatCode l y q, .none)
    | none =>
      let y := rneUnits m e 0
      let hi : Nat := match f with | .int8 => 127 | .int4 => 7 | _ => 1
      let lo : Nat := match f with | .int8 => 128 | .int4 => 8 | _ => 1
      if m = 0 then (0, .none)
      else if y = 0 then (0, .flush)
      else if (!s && decide (hi < y)) || (s && decide (lo < y)) then (largest s, .sat)
      else if s then (2 ^ f.bits - y, .none) else (y, .none)

/-! ## FP32 arithmetic (R155) -/

/-- The value of FP32 bits. -/
def f32 (b : BitVec 32) : Val := Fmt.fp32.decode b.toNat

/-- Round an exact result once to FP32; `sat` selects SAT for a finite overflow (R120). -/
def toF32 (sat : Bool) (x : Val) : BitVec 32 := BitVec.ofNat 32 (convert .fp32 (!sat) x).1

/-- Round to FP32 and read it back as a value. -/
def rnd32 (sat : Bool) (x : Val) : Val := f32 (toF32 sat x)

/-- FP32 addition. -/
def fadd (sat : Bool) (a b : Val) : Val := rnd32 sat (Val.add a b)

/-- FP32 subtraction. -/
def fsub (sat : Bool) (a b : Val) : Val := rnd32 sat (Val.add a b.neg)

/-- FP32 multiplication. -/
def fmul (sat : Bool) (a b : Val) : Val := rnd32 sat (Val.mul a b)

/-- Fused multiply-add, rounded once. -/
def ffma (sat : Bool) (a b c : Val) : Val := rnd32 sat (Val.add (Val.mul a b) c)

/-- The exact sum of a list of values under rsum's rules (R118): NaN for a NaN or for both infinities, the infinity
present, else the exact sum; an exact zero is −0 only when every value summed is −0. -/
def exactSum : List Val → Val
  | [] => .fin false 0 0
  | [v] => v
  | v :: vs => Val.add v (exactSum vs)

/-- rsum of R118: the exact sum rounded once to FP32. -/
def rsum (vs : List Val) : Val := rnd32 false (exactSum vs)

/-- rmax of R118: NaN if any is NaN, else the greatest, +0 above −0. -/
def rmax : List Val → Val
  | [] => .inf true
  | [v] => v
  | v :: vs => Val.max v (rmax vs)

/-- The least element, with the NaN rule of MIN (R123, R124). -/
def rmin : List Val → Val
  | [] => .inf false
  | [v] => v
  | v :: vs => Val.min' v (rmin vs)

/-! ## VTBL (R127) -/

/-- The special inputs of VTBL function `fn` (R127); `none` where only the reference model gives the bits. -/
def vtblSpecial (fn : Nat) (x : Val) : Option Val :=
  let num (n : Int) : Val := Val.ofInt n 0
  match x with
  | .nan => some .nan
  | _ =>
    match fn with
    | 0 => if x.lt (num (-150)) then some (.fin false 0 0) else if !(x.lt (num 128)) then some (.inf false) else none
    | 1 =>
      if x.isZero then some (.inf true) else if x.lt (num 0) then some .nan
      else if x.isInf then some (.inf false) else none
    | 2 =>
      if x.isZero then some (.inf x.sign) else if x.isInf then some (.fin x.sign 0 0) else none
    | 3 =>
      if x.isZero then some (.inf x.sign) else if x.lt (num 0) then some .nan
      else if x.isInf then some (.fin false 0 0) else none
    | 4 => if !(x.abs.lt (num 9)) then some (.fin x.sign 1 0) else none
    | 5 => if !(x.abs.lt (num 4)) then some (.fin x.sign 1 0) else none
    | 6 =>
      if !(x.lt (num 8)) then some x else if !((num (-10)).lt x) then some (.fin true 0 0) else none
    | _ => none

/-- 1.0 of the fixed-point numbers in which VTBL's bounds are formed: 160 fraction bits. -/
def fxOne : Int := 2 ^ 160

/-- ln 2, to 2^−130. -/
def fxLn2 : Int := 6931471805599453094172321214581765680755 * fxOne / 10 ^ 40

/-- 2 ÷ √π, to 2^−130. -/
def fxErf : Int := 11283791670955125738961589031215451716881 * fxOne / 10 ^ 40

/-- 1 ÷ √2, to 2^−130. -/
def fxHalfRoot : Int := 7071067811865475244008443621048490392848 * fxOne / 10 ^ 40

/-- An FP32 value in fixed point, exactly. -/
def Val.fx : Val → Int
  | .fin s m e => sintOver s m e (-160)
  | _ => 0

/-- e^z for z from 0 to 1, by its series. -/
def fxExp (z : Int) : Int :=
  ((List.range 48).foldl (fun (a : Int × Int) (i : Nat) => (a.1 + a.2, a.2 * z / (fxOne * ((i : Int) + 1)))) (0, fxOne)).1

/-- 2^z as mantissa in fixed point and power of two. -/
def fxExp2 (z : Int) : Int × Int := (fxExp (z % fxOne * fxLn2 / fxOne), z / fxOne)

/-- ln of a number from 1 to 2: 2 artanh((t − 1) ÷ (t + 1)). -/
def fxLn (t : Int) : Int :=
  let z := (t - fxOne) * fxOne / (t + fxOne)
  2 * ((List.range 52).foldl (fun (a : Int × Int) (i : Nat) => (a.1 + a.2 / (2 * (i : Int) + 1), a.2 * z / fxOne * z / fxOne)) (0, z)).1

/-- erf(z) for |z| below 7.1, by its series. -/
def fxErfOf (z : Int) : Int :=
  ((List.range 240).foldl (fun (a : Int × Int) (i : Nat) =>
    (a.1 + a.2 / (2 * (i : Int) + 1), -(a.2 * z / fxOne * z / (fxOne * ((i : Int) + 1))))) (0, z)).1 * fxErf / fxOne

/-- floor(sqrt n), its bits found from bit `i − 1` down. -/
def isqrtFrom (n : Nat) : Nat → Nat → Nat
  | 0, r => r
  | i + 1, r => if (r + 2 ^ i) * (r + 2 ^ i) ≤ n then isqrtFrom n i (r + 2 ^ i) else isqrtFrom n i r

/-- floor(sqrt n). -/
def isqrt (n : Nat) : Nat := isqrtFrom n (Nat.log2 n / 2 + 1) 0

/-- f of VTBL to within 2^−60 of R127's bound, for an input that is not special. -/
def vtblNear (fn : Nat) (x : Val) : Val :=
  let z := x.fx
  let fx (v : Int) : Val := .ofInt v (-160)
  match x with
  | .fin s m e =>
    match fn with
    | 0 => let r := fxExp2 z; .ofInt r.1 (r.2 - 160)
    | 1 => fx (flog2 m e * fxOne + fxLn ((m : Int) * fxOne / (2 ^ Nat.log2 m : Nat)) * fxOne / fxLn2)
    | 2 => .fin s (2 ^ 160 / m) (-160 - e)
    | 3 => let h := e / 2; .fin false (isqrt (2 ^ 320 / (m * 2 ^ (e - 2 * h).toNat))) (-160 - h)
    | 4 =>
      let r := fxExp2 (2 * (z.natAbs : Int) * fxOne / fxLn2)
      .scale (-160) (.fin s (fxOne - 2 * fxOne * fxOne / (r.1 * 2 ^ r.2.toNat + fxOne)).natAbs 0)
    | 5 => fx (fxErfOf z)
    | _ => fx (z * (fxOne + fxErfOf (z * fxHalfRoot / fxOne)) / (2 * fxOne))
  | _ => .nan

/-- One unit in the last place of FP32 at a value (R127). -/
def ulp32 : Val → Val
  | .fin _ m e => .fin false 1 (Max.max (-149) ((if m = 0 then -149 else flog2 m e) - 23))
  | v => v

/-- The largest error of f at `x`, where f is `y` (R127). -/
def vtblBound (fn : Nat) (x y : Val) : Val :=
  match fn with
  | 0 => (ulp32 y).scale 1
  | 1 => if !(x.lt (.ofInt 1 (-1))) && !((Val.ofInt 2 0).lt x) then .ofInt 1 (-21) else (ulp32 y).scale 1
  | 2 => ulp32 y
  | 3 => ulp32 y
  | 4 => .ofInt 1 (-22)
  | 5 => .ofInt 1 (-22)
  | _ => ((Val.ofInt 1 0).max x.abs).scale (-20)

/-- The function f of VTBL: the special inputs as R127 states them, and elsewhere the bits of the reference model,
a FREE VALUE (assumption log 5) that keeps R127's bound: where FP32 holds a number within it, the result is one. -/
def vtblF (fn : Nat) (x : Val) : Val :=
  match vtblSpecial fn x with
  | some v => v
  | none =>
    let v := f32 (Config.vtbl fn (toF32 false x))
    let y := vtblNear fn x
    let near := rnd32 false y
    if near.isInf ∨ (v.isFin ∧ !((vtblBound fn x y).lt (v.add y.neg).abs)) then v else near

/-- VTBL: d := f(a − b) × c, three FP32 operations (R127). -/
def vtbl (fn : Nat) (sat : Bool) (a b c : Val) : Val := fmul sat (vtblF fn (fsub sat a b)) c

end Sys2Proof.Machine
end

