-- ==== Sys2Proof/Machine/Block.lean ====
section
/-! DEFINITION. How elements lie in bytes (R156), the block formats and their tiles (R158 to R164), and their
encoders (R169 to R172). A byte source is a function from a byte offset to a byte. -/

namespace Sys2Proof.Machine

/-- The code of element `n` of an element-format tensor (R156). -/
def elemCode (f : Fmt) (rd : Nat → Byte) (n : Nat) : Nat :=
  match f.bits with
  | 32 => (rd (4 * n)).toNat + 2 ^ 8 * (rd (4 * n + 1)).toNat + 2 ^ 16 * (rd (4 * n + 2)).toNat
            + 2 ^ 24 * (rd (4 * n + 3)).toNat
  | 16 => (rd (2 * n)).toNat + 2 ^ 8 * (rd (2 * n + 1)).toNat
  | 8 => (rd n).toNat
  | 4 => ((rd (n / 2)).toNat >>> (4 * (n % 2))) % 16
  | _ => ((rd (n / 4)).toNat >>> (2 * (n % 4))) % 4

/-- Pack element codes into bytes (R156). -/
def packCodes (f : Fmt) (cs : List Nat) : List Byte :=
  let nth (i : Nat) : Nat := cs.getD i 0
  match f.bits with
  | 32 => (List.range (4 * cs.length)).map fun i => BitVec.ofNat 8 (nth (i / 4) >>> (8 * (i % 4)))
  | 16 => (List.range (2 * cs.length)).map fun i => BitVec.ofNat 8 (nth (i / 2) >>> (8 * (i % 2)))
  | 8 => cs.map (BitVec.ofNat 8)
  | 4 => (List.range ((cs.length + 1) / 2)).map fun i => BitVec.ofNat 8 (nth (2 * i) + 16 * nth (2 * i + 1))
  | _ => (List.range ((cs.length + 3) / 4)).map fun i =>
      BitVec.ofNat 8 (nth (4 * i) + 4 * nth (4 * i + 1) + 16 * nth (4 * i + 2) + 64 * nth (4 * i + 3))

/-- The tile size T of a block format in bytes (R160). -/
def tileSize (f : Fmt) (esc : Bool) : Nat :=
  match f with
  | .mx8e4 | .mx8e5 | .mxi8 => 1088
  | .mx4 => 576
  | .pb4 => if esc then 640 else 576
  | .tb2 => 320
  | _ => 0

/-- The packed bytes of a block tile, before padding (R160). -/
def packedSize (f : Fmt) (esc : Bool) : Nat :=
  match f with
  | .mx8e4 | .mx8e5 | .mxi8 => 1056
  | .mx4 => 544
  | .pb4 => if esc then 602 else 576
  | .tb2 => 320
  | _ => 0

/-- Bytes of 1,024 elements in a register or block tile (R121, R160). -/
def tileBytes (f : Fmt) (esc : Bool) : Nat :=
  if f.isBlock then tileSize f esc else 128 * f.bits

/-- The escape that governs tile element `p`, if any: the lowest-numbered used entry naming it (R162). -/
def escapeOf (rd : Nat → Byte) (p : Nat) : Option Val :=
  let value (n : Nat) : Nat := (rd (0x240 + 2 * n)).toNat + 256 * (rd (0x240 + 2 * n + 1)).toNat
  let field : Nat := (List.range 10).foldl (fun a i => a + (rd (0x250 + i)).toNat <<< (8 * i)) 0
  let pos (n : Nat) : Nat := (field >>> (10 * n)) % 1024
  match (List.range 8).find? fun n => decide (value n ≠ 0) && decide (pos n = p) with
  | some n => some (Fmt.bf16.decode (value n))
  | none => none

/-- The value of element `p` (0 to 1,023) of a block tile (R159, R161, R162, R163). A TERN element 0 has the sign of the product t(e) × σ, so it is
−0 under a negative σ (DESIGN CHOICE: R163 gives no sign, and R165 returns +0 for an exact zero; log 140). -/
def blockElem (f : Fmt) (esc : Bool) (rd : Nat → Byte) (p : Nat) : Val :=
  let c := p / 32
  let e := p % 32
  match f with
  | .mx8e4 | .mx8e5 | .mxi8 =>
    let x := (rd (0x400 + c)).toNat
    let v := f.elem.decode (rd (32 * c + e)).toNat
    if x = 0xFF then .nan
    else v.scale ((x : Int) - 127 - (if f = .mxi8 then 6 else 0))
  | .mx4 =>
    let x := (rd (0x200 + c)).toNat
    if x = 0xFF then .nan else (Fmt.e2m1.decode (elemCode .e2m1 rd p)).scale ((x : Int) - 127)
  | .pb4 =>
    let x := (rd (0x200 + c)).toNat
    let h := ((rd (0x220 + c)).toNat >>> (2 * (e / 8))) % 4
    let plain : Val :=
      if x = 0xFF then .nan else (Fmt.e2m1.decode (elemCode .e2m1 rd p)).scale ((x : Int) - 127 - h)
    if esc then (escapeOf rd p).getD plain else plain
  | .tb2 =>
    let sg := Fmt.bf16.decode ((rd (0x100 + 2 * c)).toNat + 256 * (rd (0x100 + 2 * c + 1)).toNat)
    let t := Fmt.tern.decode (elemCode .tern rd p)
    match sg with
    | .nan => .nan
    | .inf s => if t.isZero then .nan else .inf (xor s t.sign)
    | _ => Val.mul t sg
  | _ => .nan

/-- Is element `p` of a tile or plain tensor a TERN code 0b10, which MMA and MMAS count (R157, R164)? -/
def ternInvalid (f : Fmt) (rd : Nat → Byte) (p : Nat) : Bool :=
  decide (f.elem = .tern) && decide (elemCode .tern rd p = 2)

/-- The value of element `p` of a 1,024-element tile in any format. -/
def tileElem (f : Fmt) (esc : Bool) (rd : Nat → Byte) (p : Nat) : Val :=
  if f.isBlock then blockElem f esc rd p else f.decode (elemCode f rd p)

/-! ## Encoding blocks (R169 to R172) -/

/-- The result of encoding one tile: its packed bytes and the class of each element, in element order. -/
structure Encoded where
  bytes : List Byte
  cls : List Cls
  deriving DecidableEq, Repr

/-- The exponent of the largest binade of a block's element format (R169). -/
def emaxOf : Fmt → Int
  | .mx8e4 => 8
  | .mx8e5 => 15
  | .mx4 | .pb4 => 2
  | _ => 0

/-- The greatest finite magnitude of a list, as a value; zero when there is none. -/
def maxMag (vs : List Val) : Val :=
  vs.foldl (fun a v => if v.isFin && a.lt v.abs then v.abs else a) (.fin false 0 0)

/-- The E8M0 exponent xs that R169 chooses for greatest magnitude `a`. -/
def mxScale (f : Fmt) (a : Val) : Int :=
  match a with
  | .fin _ m e => if m = 0 then -127 else min 127 (max (-127) (flog2 m e - emaxOf f))
  | _ => -127

/-- floor(log2) of a non-zero finite value. -/
def vlog2 : Val → Int
  | .fin _ m e => flog2 m e
  | _ => 0

/-- One encoded block: its element codes and their classes, its scale field and its sub-scale byte. -/
structure EncBlock where
  codes : List Nat
  cls : List Cls
  scale : Nat
  sub : Nat
  deriving DecidableEq, Repr

/-- Encode one block of 32 elements of a block format (R169, R170, R172); `esc e` says that element e is escaped. -/
def encodeBlock (f : Fmt) (ieee : Bool) (xs : List Val) (esc : Nat → Bool) : EncBlock :=
  let idx := List.range 32
  let at' (e : Nat) : Val := xs.getD e (.fin false 0 0)
  let hasNan := xs.any Val.isNan
  let live := (idx.filter fun e => !(esc e)).map at'
  let a := maxMag live
  let sc := mxScale f a
  match f with
  | .mx8e4 | .mx8e5 =>
    let r := xs.map fun x => convert f.elem ieee (x.scale (-sc))
    ⟨r.map (·.1), r.map (·.2), (sc + 127).toNat, 0⟩
  | .mxi8 =>
    if hasNan then ⟨List.replicate 32 0, List.replicate 32 .none, 0xFF, 0⟩
    else
      let r := xs.map fun x => convert .int8 false (x.scale (6 - sc))
      ⟨r.map (·.1), r.map (·.2), (sc + 127).toNat, 0⟩
  | .mx4 =>
    if hasNan then ⟨List.replicate 32 0, List.replicate 32 .none, 0xFF, 0⟩
    else
      let r := xs.map fun x => convert .e2m1 false (x.scale (-sc))
      ⟨r.map (·.1), r.map (·.2), (sc + 127).toNat, 0⟩
  | .pb4 =>
    if hasNan then ⟨List.replicate 32 0, List.replicate 32 .none, 0xFF, 0⟩
    else
      let h (g : Nat) : Nat :=
        let ag := maxMag (((List.range 8).map (8 * g + ·)).filter (fun e => !(esc e)) |>.map at')
        if a.isZero || ag.isZero then 3 else (min 3 (vlog2 a - vlog2 ag)).toNat
      let r := idx.map fun e =>
        if esc e then (0, Cls.none) else convert .e2m1 false ((at' e).scale ((h (e / 8) : Int) - sc))
      ⟨r.map (·.1), r.map (·.2), (sc + 127).toNat, h 0 + 4 * h 1 + 16 * h 2 + 64 * h 3⟩
  | _ => -- TB2
    if hasNan then ⟨List.replicate 32 0, List.replicate 32 .none, 0x7FC0, 0⟩
    else
      let mu := (exactSum ((xs.filter Val.isFin).map Val.abs)).scale (-5)
      let sigma := (convert .bf16 false mu).1
      let sv := Fmt.bf16.decode sigma
      let conv (x : Val) : Nat × Cls :=
        match x with
        | .inf s => (if s then 3 else 1, .sat)
        | .fin s m e =>
          match sv with
          | .fin _ sm se =>
            if sm = 0 then (0, if m = 0 then .none else .flush)
            else
              -- |x| / σ rounded to an integer in {0, 1, saturated}: 2|x| against σ and 3σ
              let k := min e se
              let X := 2 * (m <<< (e - k).toNat)
              let S := sm <<< (se - k).toNat
              if m = 0 then (0, .none)
              else if X ≤ S then (0, .flush)
              else if X < 3 * S then (if s then 3 else 1, .none)
              else (if s then 3 else 1, .sat)
          | _ => (0, .none)
        | .nan => (0, .none)
      let r := xs.map conv
      ⟨r.map (·.1), r.map (·.2), sigma, 0⟩

/-- Is value `a` of greater magnitude than `b`? -/
def magGt (a b : Val) : Bool := b.abs.lt a.abs

/-- The positions that R171 escapes in a PB4 tile, ascending. -/
def escapePositions (xs : List Val) : List Nat :=
  let block (c : Nat) : List Val := (xs.drop (32 * c)).take 32
  let cand (c : Nat) : List (Nat × Val) :=
    let b := block c
    if b.any Val.isNan then []
    else
      -- an infinite element stands above every finite one in the ranking of magnitudes
      let infs := (b.filter Val.isInf).length
      let t := if 9 ≤ infs then Val.inf false
        else (sortBy (fun p q => !(p.lt q)) ((b.filter Val.isFin).map Val.abs)).getD (8 - infs) (.fin false 0 0)
      if t.isZero then []
      else ((List.range 32).map fun e => (32 * c + e, b.getD e (.fin false 0 0))).filter fun pv =>
        pv.2.isFin && (t.scale 3).lt pv.2.abs && decide ((convert .bf16 false pv.2).1 % 2 ^ 15 ≠ 0)
  let all := ((List.range 32).map cand).flatten
  let ranked := sortBy (fun p q => magGt p.2 q.2 || (!(magGt q.2 p.2) && decide (p.1 ≤ q.1))) all
  sortBy (fun p q => decide (p ≤ q)) ((ranked.take 8).map (·.1))

/-- Encode 1,024 values as a tile of format `f` (R128): packed bytes, padding written 0 (R160), and classes. -/
def encodeTile (f : Fmt) (ieee esc : Bool) (xs : List Val) : Encoded :=
  if !f.isBlock then
    let r := xs.map (convert f ieee)
    ⟨packCodes f (r.map (·.1)), r.map (·.2)⟩
  else
    let escs := if f = .pb4 && esc then escapePositions xs else []
    let blocks := (List.range 32).map fun c =>
      encodeBlock f ieee ((xs.drop (32 * c)).take 32) (fun e => escs.contains (32 * c + e))
    let codes := packCodes f.elem (blocks.map (·.codes)).flatten
    let scales : List Byte :=
      if f = .tb2 then (blocks.map fun b => [BitVec.ofNat 8 b.scale, BitVec.ofNat 8 (b.scale / 256)]).flatten
      else blocks.map fun b => BitVec.ofNat 8 b.scale
    let subs : List Byte := if f = .pb4 then blocks.map fun b => BitVec.ofNat 8 b.sub else []
    let escv := escs.map fun p => convert .bf16 false (xs.getD p (.fin false 0 0))
    let escField : Nat := (escs.zipIdx).foldl (fun a pe => a + pe.1 <<< (10 * pe.2)) 0
    let table : List Byte :=
      if f = .pb4 && esc then
        packCodes .bf16 ((escv.map (·.1)) ++ List.replicate (8 - escs.length) 0)
          ++ (List.range 10).map fun i => BitVec.ofNat 8 (escField >>> (8 * i))
      else []
    let body := codes ++ scales ++ subs ++ table
    let cls := (blocks.map (·.cls)).flatten
    let cls' := (cls.zipIdx).map fun ce =>
      match (escs.zip escv).find? fun pv => decide (pv.1 = ce.2) with
      | some pv => pv.2.2
      | none => ce.1
    ⟨body ++ List.replicate (tileSize f esc - body.length) 0, cls'⟩

end Sys2Proof.Machine
end

