-- ==== Sys2Proof/Machine/Window.lean ====
section
/-! DEFINITION. The datum window (chapter 6): accumulator entries, adding one product (R176), reading a slot (R183 to
R185) and the wide merge of entries (R192). -/

namespace Sys2Proof.Machine

/-- One accumulator entry (R46) with its first-special index (R182). -/
structure Entry where
  v : BitVec 112
  nan : Bool
  infPos : Bool
  infNeg : Bool
  ovfPos : Bool
  ovfNeg : Bool
  first : Option Nat
  deriving DecidableEq, Repr

/-- A cleared entry (R181). -/
def Entry.zero : Entry := ⟨0, false, false, false, false, false, none⟩

/-- The 128-bit word of an entry (R46). -/
def Entry.word (e : Entry) : BitVec 128 :=
  BitVec.ofNat 128 (e.v.toNat + (if e.nan then 2 ^ 112 else 0) + (if e.infPos then 2 ^ 113 else 0)
    + (if e.infNeg then 2 ^ 114 else 0) + (if e.ovfPos then 2 ^ 115 else 0) + (if e.ovfNeg then 2 ^ 116 else 0))

/-- The entry whose 128-bit word is `w`, with its first-special index (R46, R182). -/
def Entry.ofWord (w : Nat) (first : Option Nat) : Entry :=
  let bit (n : Nat) : Bool := decide (w / 2 ^ n % 2 = 1)
  { v := BitVec.ofNat 112 w, nan := bit 112, infPos := bit 113, infNeg := bit 114, ovfPos := bit 115, ovfNeg := bit 116
    first := first }

/-- Note a special product at k index `k` (R182). -/
def Entry.special (e : Entry) (k : Nat) : Entry :=
  { e with first := some (match e.first with | some i => min i k | none => k) }

/-- The rounded contribution `rne(p, unit) / unit` of an ordinary product at datum `d` (R176). -/
def contribution (d : Int) (s : Bool) (m : Nat) (e : Int) : Int :=
  let u := rneUnits m e (d - 64)
  if s then -(u : Int) else u

/-- Does a finite product of magnitude m × 2^e reach the overflow bound 2^(d+31) (R176)? -/
def overflows (d : Int) (m : Nat) (e : Int) : Bool := !(magLt m e 1 (d + 31))

/-- Add the product of a and b, at k index `k`, to an entry at datum `d` (R176). -/
def addProduct (d : Int) (en : Entry) (a b : Val) (k : Nat) : Entry :=
  match Val.mul a b with
  | .nan => ({ en with nan := true }).special k
  | .inf s => ({ en with infPos := en.infPos || !s, infNeg := en.infNeg || s }).special k
  | .fin s m e =>
    if overflows d m e then
      ({ en with ovfPos := en.ovfPos || !s, ovfNeg := en.ovfNeg || s }).special k
    else { en with v := en.v + BitVec.ofInt 112 (contribution d s m e) }

/-- Which of the orders of R183 decides an entry. -/
def Entry.order (e : Entry) : Nat :=
  if e.nan then 1 else if e.infPos && e.infNeg then 2 else if e.infPos || e.infNeg then 3
  else if e.ovfPos && e.ovfNeg then 4 else if e.ovfPos || e.ovfNeg then 5 else 6

/-- The value of V × 2^(D−64) (R175). -/
def Entry.value (e : Entry) (d : Int) : Val := Val.ofInt e.v.toInt (d - 64)

/-- Convert one entry to format `f` in mode `ieee` (R183): the code and its class. -/
def convertEntry (f : Fmt) (ieee : Bool) (d : Int) (e : Entry) : Nat × Cls :=
  match e.order with
  | 1 | 2 | 4 => (f.nanCode, .nan)
  | 3 => convert f ieee (.inf e.infNeg)
  | 5 =>
    -- the largest finite value of f with that sign, in either mode
    if f.hasInf || f.layout.isSome then
      ((convert f false (.fin e.ovfNeg 1 1024)).1, .sat)
    else (convert f false (.inf e.ovfNeg)).1 |> fun c => (c, .sat)
  | _ => convert f ieee (e.value d)

/-- Does an output element set NAN_INF: a NaN, a NaN substitute or an infinity (R184)? -/
def setsNanInf (c : Cls) : Bool := decide (c = .nan) || decide (c = .inf)

/-- FIRST_K of an element that sets NAN_INF (R185). -/
def firstK (depth : Nat) (e : Entry) : Nat :=
  if e.order = 6 then (depth + 65535) % 65536 else e.first.getD 0

/-- Merge two entries, the second standing at products `off` and later (R192). -/
def mergeEntry (off : Nat) (a b : Entry) : Entry :=
  { v := a.v + b.v
    nan := a.nan || b.nan
    infPos := a.infPos || b.infPos
    infNeg := a.infNeg || b.infNeg
    ovfPos := a.ovfPos || b.ovfPos
    ovfNeg := a.ovfNeg || b.ovfNeg
    first := match a.first, b.first with
      | some i, some j => some (min i (off + j))
      | some i, none => some i
      | none, some j => some (off + j)
      | none, none => none }

end Sys2Proof.Machine
end

