-- ==== Sys2Proof/Machine/State.lean ====
section
/-! DEFINITION. The state of one P9 device: every register, memory, queue and bit the manual gives it, as plain data;
what it is after reset; and the reasons a step can stop. -/

namespace Sys2Proof.Machine

/-! ### The tile (chapters 2 and 3) -/

/-- Why a strand waits (R64, R79, R95, R99, R100, R143): the first condition of R64 that fails. -/
inductive Wait where
  /-- the fetch buffer does not hold the next instruction (R64, condition 3) -/
  | fetch
  /-- a source scalar register or condition-word field awaits a result (R64, condition 4; R87) -/
  | source
  /-- the matrix issue queue is full -/
  | matrixQueue
  /-- the vector issue queue is full -/
  | vectorQueue
  /-- the movement issue queue is full -/
  | moveQueue
  /-- the collective issue queue is full -/
  | collQueue
  /-- WAITQ on counter `n`, threshold `t` (R99) -/
  | waitq (n : Nat) (t : W32) (consume : Bool)
  /-- BAR on group `g` with member count `c`, arrived or still in its fence (R99) -/
  | bar (g c : Nat) (arrived : Bool)
  /-- FENCE, or the fence of a SIG with RELEASE, on a class mask (R98, R100) -/
  | fence (mask : Nat)
  /-- YIELD for a number of compute cycles (R95) -/
  | yield (cycles : Nat)
  /-- CWAIT on a collective entry (R143) -/
  | cwait (entry : Nat)
  /-- SQGET on an empty stage queue (R138) -/
  | sqget (queue : Nat)
  /-- SQPUT without credit (R138) -/
  | sqput (queue : Nat)
  /-- a slot held by the strand's own outstanding slot-form COLL (R142) -/
  | slotColl (slot : Nat)
  /-- paused by the Tack core for a variant switch or warp (R103) -/
  | warp
  deriving DecidableEq, Repr

/-- Scheduler state of a strand (R61, R103). -/
inductive Sched where
  | inactive
  | ready
  | waiting (w : Wait)
  | faulted
  deriving DecidableEq, Repr

/-- One strand context (R61, R107). -/
structure Strand where
  pc : W32
  /-- S0–S15, default 0 -/
  s : SMap W64
  /-- condition word (R62) -/
  cw : W32
  /-- address of the first word the fetch buffer holds -/
  fbase : W32
  /-- the fetch buffer: up to four instruction words -/
  fbuf : List IWord
  sched : Sched
  /-- station number from the start entry (R104) -/
  station : BitVec 12
  deriving DecidableEq, Repr

/-- A strand context at reset (R61, R72). -/
def Strand.reset : Strand := ⟨0, [], 0, 0, [], .inactive, 0⟩

/-- An instruction in an issue queue or in execution: the word, the strand and PC that issued it, and the scalar
values read at issue (R113). -/
structure QOp where
  strand : Nat
  pc : W32
  word : IWord
  sa : W64
  sb : W64
  sc : W64
  /-- projected depth of the slot before this operation (R179, R182) -/
  k0 : Nat
  /-- datum of an MMA or MMAS (R175) -/
  datum : Int
  /-- the committed scale exponent, once its entry has arrived (R128, R129, R149) -/
  scale : Option Int
  /-- an ACCRD at the queue's head has been counted as waiting for a drain entry (R51, R76) -/
  waited : Bool
  /-- the step's serial number of this operation in its tile -/
  serial : Nat
  /-- INSTANCE of a site-bearing instruction (R230) -/
  inst : Nat
  /-- device time of issue of a COLL (R305) -/
  issued : W64
  /-- ACCRDs the strand issued earlier in the step (R466) -/
  accNo : Nat
  deriving DecidableEq, Repr

/-- An MMA or MMAS in the matrix array, with its accumulation buffer (R43, R44). -/
structure MmaRun where
  op : QOp
  /-- the 1,024 entries of the buffer, default cleared -/
  buf : SMap Entry
  /-- DEPTH the slot takes at write-back -/
  depth : Nat
  /-- TERN operand elements coded 0b10 (R157) -/
  invalid : Nat
  /-- a double-bit error was met: no write-back (R116) -/
  bad : Bool
  /-- operand signature the slot takes at write-back (R468) -/
  sig : W32
  deriving DecidableEq, Repr

/-- A slot descriptor (R48, R78) and the projected depth the control core keeps (R179). -/
structure SlotDesc where
  datum : Int
  owned : Bool
  inflight : Nat
  owner : Nat
  depth : Nat
  projected : Nat
  deriving DecidableEq, Repr

/-- A slot descriptor at reset (R78). -/
def SlotDesc.reset : SlotDesc := ⟨0, false, 0, 0, 0, 0⟩

/-- A drain-queue entry (R49). -/
structure Drain where
  number : Nat
  /-- 2,048 bytes, default 0 -/
  data : SMap Byte
  /-- 32 row maxima, default 0 -/
  rowMax : SMap W32
  /-- 32 row sums, default 0 -/
  rowSum : SMap W32
  format : Nat
  strand : Nat
  slot : Nat
  nanInf : Bool
  accSat : Bool
  firstElem : Nat
  firstK : Nat
  rowMaxValid : Bool
  rowSumValid : Bool
  deriving DecidableEq, Repr

/-- Counts an output adds to its site: saturated, flushed, NaN, Inf, flushed-invalid and gauge bookkeeping (R147). -/
structure SiteCounts where
  sat : Nat
  flush : Nat
  nan : Nat
  inf : Nat
  invalid : Nat
  deriving DecidableEq, Repr

/-- An ACCRD or ACCCLR in accumulator port B (R47, R118, R119); `high` and `low` are its first elements (R230). -/
inductive PortB where
  | accrd (op : QOp) (entry : Drain) (counts : SiteCounts) (high low : Option (Nat × Nat))
  | accclr (op : QOp)
  deriving DecidableEq, Repr

/-- One write a vector instruction makes when it completes (R54). -/
inductive VWrite where
  /-- a VT register takes 1,024 elements -/
  | vt (n : Nat) (elems : SMap (BitVec 16))
  /-- a column of row maxima -/
  | rsMax (n : Nat) (vals : List W32)
  /-- a column of row sums -/
  | rsSum (n : Nat) (vals : List W32)
  /-- bytes stored to tile store -/
  | bytes (addr : Nat) (bs : List Byte)
  /-- a scalar summary to S register `r` -/
  | sreg (r : Nat) (v : W64)
  /-- condition-word bits: the bits of `mask` take those of `bits` -/
  | cw (mask bits : W32)
  deriving DecidableEq, Repr

/-- What a vector instruction stages beyond the tile when it completes (R133, R147, R219). -/
inductive VStage where
  /-- an observation on a scale entry: absolute maximum where VSCALE OBSERVE made one, NaN mark, overflow count (R133) -/
  | observe (entry : Nat) (absmax : Option W32) (nan : Bool) (overflow : Nat)
  /-- counts at a site, with the lowest element position that set each of NaN and Inf (R147, R229) -/
  | site (site : Nat) (counts : SiteCounts)
  /-- VOPT's exact layer sums: Σu² and Σw² as mantissa and power of two, and an invalid mark (R132, R219) -/
  | layer (layer : Nat) (su : Int × Int) (sw : Int × Int) (invalid : Bool)
  /-- a gauged VQNT's exact sums d and n at a site (R220) -/
  | gauge (site : Nat) (d : Int × Int) (n : Int × Int)
  /-- NAN and INF that VOPT casts into the local vote (R213) -/
  | cast (nan inf : Bool)
  deriving DecidableEq, Repr

/-- A vector instruction in flight: started, with the results it will write (R54, R113). -/
structure VRun where
  op : QOp
  writes : List VWrite
  stages : List VStage
  /-- where in the site's order the counts stand: first of the higher classes and of the lower ones (R230) -/
  high : Option (Nat × Nat)
  low : Option (Nat × Nat)
  deriving DecidableEq, Repr

/-- The open generation of a barrier group (R99). -/
structure BarGroup where
  count : Nat
  arrived : List Nat
  deriving DecidableEq, Repr

/-- A fault capture (R107). -/
structure Capture where
  code : Nat
  precise : Bool
  fetch : Bool
  noStrand : Bool
  strand : Nat
  station : BitVec 12
  physId : Nat
  logical : Nat
  pc : W32
  instr : IWord
  addr : W64
  trapNo : Nat
  time : W64
  later : Nat
  deriving DecidableEq, Repr

/-- One physical tile (R41). -/
structure Tile where
  /-- strand contexts, default `Strand.reset` -/
  strands : SMap Strand
  /-- G0–G15, default 0 -/
  g : SMap W64
  /-- tile store bytes, default 0 -/
  ts : SMap Byte
  /-- row maxima, row r of RSn at 32 n + r, default 0xFF80_0000 -/
  rsMax : SMap W32
  /-- row sums, default 0 -/
  rsSum : SMap W32
  /-- vector registers, element e of VTn at 1,024 n + e, default 0 -/
  vt : SMap (BitVec 16)
  /-- accumulator entries, entry e of slot n at 1,024 n + e, default cleared -/
  acc : SMap Entry
  /-- slot descriptors, default `SlotDesc.reset` -/
  slots : SMap SlotDesc
  /-- valid drain entries, oldest first (R49, R50) -/
  drain : List Drain
  /-- matrix issue queue, oldest first, at most 4 -/
  mq : List QOp
  /-- vector issue queue, at most 4 -/
  vq : List QOp
  /-- movement and stage-queue issue queue, at most 8 -/
  xq : List QOp
  /-- collective issue queue, at most 4 -/
  cq : List QOp
  /-- MMAs in the array, oldest first, at most 2 -/
  arr : List MmaRun
  portB : Option PortB
  /-- vector instructions in flight, oldest first -/
  vrun : List VRun
  /-- movement and stage-queue instructions that have left the queue and are not complete -/
  xrun : List QOp
  /-- serial numbers of the transfers that have outlived their command (R136, R257) -/
  timedOut : List Nat
  /-- signal counters, default 0 (R97) -/
  sc : SMap W32
  /-- barrier groups with an open generation (R99) -/
  bars : SMap (Option BarGroup)
  capture : Option Capture
  /-- frozen by its partition's freeze (R445), with no fault of its own -/
  halted : Bool
  /-- found unreachable while stopping or resetting: it answers no access (R445, R454) -/
  dead : Bool
  /-- errors of storage words: 0 tile store, 1 accumulator, 2 VT, 3 row statistics, 4 strand context and G0–G15, 5 drain queue;
  word w of unit u at u × 2^20 + w; the number of bad bits up to 2, from 3 on the pattern of three or more; default 0 (R59) -/
  ecc : SMap Nat
  corrCount : Nat
  uncorrCount : Nat
  lastUnit : Nat
  /-- start of the present second of counting corrections, and the corrections in it (R458) -/
  stormStart : W64
  stormCount : Nat
  fullWaits : Nat
  highWater : Nat
  /-- TIL_IDLE0–9, default 0 -/
  idle : SMap W64
  busy : W64
  kstep : W64
  kstep4 : W64
  /-- next line the scrubber reads (R60) -/
  scrub : Nat
  /-- COMMIT issued in this step (R146) -/
  committed : Bool
  /-- the step's COMMIT, outstanding until the partition's commit or discard is done (R146) -/
  commitOp : Option QOp
  /-- the tile has started strands in the running step and has not yet reported (R105) -/
  inStep : Bool
  /-- strands have been started on the tile in the step that began last (R146) -/
  worked : Bool
  /-- the next serial number -/
  serial : Nat
  /-- issues of site-bearing instructions in this step, strand k and site n at 16,384 k + n (R230) -/
  siteIssues : SMap Nat
  /-- ACCRDs issued in this step by strand, default 0 (R466) -/
  accIssues : SMap Nat
  /-- operand signature by slot, default 0 (R468) -/
  sigs : SMap W32
  deriving DecidableEq, Repr

/-- A tile as a partition reset leaves it (R72). -/
def Tile.reset : Tile :=
  { strands := [], g := [], ts := [], rsMax := [], rsSum := [], vt := [], acc := [], slots := [], drain := [],
    mq := [], vq := [], xq := [], cq := [], arr := [], portB := none, vrun := [], xrun := [], timedOut := [], sc := [], bars := [],
    capture := none, halted := false, dead := false, ecc := [], corrCount := 0, uncorrCount := 0, lastUnit := 0, stormStart := 0, stormCount := 0, fullWaits := 0, highWater := 0,
    idle := [], busy := 0, kstep := 0, kstep4 := 0, scrub := 0, committed := false, commitOp := none,
    inStep := false, worked := false, serial := 0, siteIssues := [], accIssues := [], sigs := [] }

/-! ### The numerics unit of a partition (chapter 7) -/

/-- A site-limit entry (R242) with the running step's counts. -/
structure SiteLimit where
  satLimit : W32
  flushLimit : W32
  lastSat : W32
  lastFlush : W32
  stepSat : Nat
  stepFlush : Nat
  deriving DecidableEq, Repr

/-- A site-limit entry at reset. -/
def SiteLimit.zero : SiteLimit := ⟨0, 0, 0, 0, 0, 0⟩

/-- A layer-telemetry entry (R242) with the staged sums of R219. -/
structure Layer where
  ratio : W32
  low : W32
  high : W32
  valid : Bool
  lowHit : Bool
  highHit : Bool
  step : BitVec 28
  touched : Bool
  su : Dyadic
  sw : Dyadic
  invalid : Bool
  deriving DecidableEq, Repr

/-- A layer-telemetry entry at reset (R242). -/
def Layer.reset : Layer :=
  ⟨0, 0, 0x7F800000, false, false, false, 0, false, ⟨0, 0⟩, ⟨0, 0⟩, false⟩

/-- A gauge (R243) with its staged sums (R220) and the exact sum of its first samples (R221). -/
structure Gauge where
  enable : Bool
  layer : Nat
  site : Nat
  ratioLimit : W32
  last : W32
  baseline : W32
  streakLimit : Nat
  streak : Nat
  samples : Nat
  d : Dyadic
  n : Dyadic
  sum : Dyadic
  /-- BASELINE has been restored before the first step, and is in force though fewer than 64 samples have been taken (R228) -/
  restored : Bool
  deriving DecidableEq, Repr

/-- A gauge at reset (R243). -/
def Gauge.reset : Gauge :=
  ⟨false, 0, 0, 0x40800000, 0, 0, 3, 0, 0, ⟨0, 0⟩, ⟨0, 0⟩, ⟨0, 0⟩, false⟩

/-- The numerics unit (R202). -/
structure Numerics where
  /-- scale table, default HEADROOM 2 and 0 elsewhere (R203) -/
  scale : SMap W64
  /-- staged observations, default 0 (R204) -/
  staged : SMap W64
  /-- watched histories, value j of tensor w at 16 w + j, default 0 (R207) -/
  hist : SMap W32
  /-- site records (R241), sticky -/
  sites : SMap SiteRec
  /-- site limits (R242) -/
  limits : SMap SiteLimit
  /-- layer telemetry (R242) -/
  layers : SMap Layer
  /-- gauges (R243) -/
  gauges : SMap Gauge
  /-- NUM_CTRL as written (R234) -/
  ctrl : W32
  /-- NUM_CTRL in force for the running step (R233) -/
  ctrlStep : W32
  replays : Nat
  firstUse : Bool
  writeIgnored : Bool
  committed : Bool
  /-- last vote shown in NUM_STATUS (R235) -/
  lastVote : Vote
  /-- loss-scale exponent L (R236) -/
  lossL : Int
  growth : Nat
  calActive : Bool
  stepsLeft : Nat
  /-- step counter (R236) -/
  step : W64
  /-- NUM_EVENTS (R237), sticky -/
  events : BitVec 8
  /-- NUM_WINDOW (R238) -/
  window : W32
  /-- layers for which promotion has been requested and not yet served (R222) -/
  promoteReq : List Nat
  /-- the partition's local vote of the step (R145) -/
  vote : Vote
  /-- global vote, once complete (R145, R308) -/
  global : Option Vote
  /-- an unclean step is to be run again at the next boundary (R215) -/
  replayDue : Bool
  deriving DecidableEq, Repr

/-- The numerics unit at reset (R203 to R243). -/
def Numerics.reset : Numerics :=
  { scale := [], staged := [], hist := [], sites := [], limits := [], layers := [], gauges := [],
    ctrl := 0x03E84204, ctrlStep := 0x03E84204, replays := 0, firstUse := false, writeIgnored := false,
    committed := false, lastVote := .clean, lossL := 16, growth := 0, calActive := false, stepsLeft := 0, step := 0,
    events := 0, window := 0, promoteReq := [], vote := .clean, global := none, replayDue := false }

/-! ### A partition's memory (chapter 8) -/

/-- A host window W0 to W15 (R258). -/
structure HostWindow where
  base : W64
  length : Nat
  read : Bool
  write : Bool
  deriving DecidableEq, Repr

/-- A host window at reset. -/
def HostWindow.zero : HostWindow := ⟨0, 0, false, false⟩

/-- Whose read of host memory a request belongs to: no one's, a command's by its key (R256, R421, R423), a tile's transfer's (R134). -/
inductive ReadOwner where
  | none
  | cmd (key : Nat)
  | tile (t serial : Nat)
  deriving DecidableEq, Repr

/-- A PCIe read request slot of a function (R260, R261). -/
structure ReqSlot where
  epoch : BitVec 3
  waiting : Bool
  /-- epochs used since its last accepted completion -/
  used : Nat
  /-- held out of use after a timed-out command -/
  held : Bool
  owner : ReadOwner
  /-- bus address, where the data goes (a partition address, or an offset in what the owner reads), and byte count -/
  addr : Nat
  dest : Nat
  len : Nat
  /-- bytes of the request that have arrived, and whether some were poisoned -/
  buf : List Byte
  bad : Bool
  deriving DecidableEq, Repr

/-- A request slot at reset. -/
def ReqSlot.zero : ReqSlot := ⟨0, false, 0, false, .none, 0, 0, 0, [], false⟩

/-- A read of host memory under way (R259): into HBM, or gathered for its owner; the ranges not yet requested (bus address, destination,
bytes), and what was gathered: offset, bytes, poisoned. -/
structure HostRead where
  owner : ReadOwner
  hbm : Bool
  left : List (Nat × Nat × Nat)
  data : List (Nat × List Byte × Bool)
  deriving DecidableEq, Repr

/-- What the host configures of a function in PCI configuration space: BAR2's window size as a power of two (R250), Max_Payload_Size and
Relaxed Ordering (R259); and the advisory non-fatal error it records (R261 rule 2). -/
structure PciFn where
  windowLog2 : Nat
  maxPayload : Nat
  relaxed : Bool
  advisory : Bool
  deriving DecidableEq, Repr

/-- A function before the host has configured it: the least window, 128 bytes, Relaxed Ordering enabled. -/
def PciFn.reset : PciFn := ⟨30, 128, true, false⟩

/-- The memory record's counters (R272) and the dirty session (R262). -/
structure MemRec where
  corrSymbols : W32
  uncorrBeats : W32
  poisonReads : W32
  cplRetries : W32
  lateCpl : W32
  bar2Dropped : W32
  scrubPasses : BitVec 16
  lastPoison : Option (Nat × Nat)
  lentEpoch : W32
  dirtyActive : Bool
  /-- dirty granules, default false -/
  dirty : SMap Bool
  deriving DecidableEq, Repr

/-- The memory record at reset (R272). -/
def MemRec.reset : MemRec := ⟨0, 0, 0, 0, 0, 0, 0, none, 0, false, []⟩

/-! ### The loaded traverse (chapters 10 and 12) -/

/-- A start-list entry (R104). -/
structure StartEntry where
  tile : Nat
  strand : Nat
  station : BitVec 12
  pc : W32
  arg : W64
  deriving DecidableEq, Repr

/-- A shard descriptor (R339). -/
structure ShardDesc where
  tensor : Nat
  cut : Nat
  kind : Nat
  parts : Nat
  extent : Nat
  unitElements : Nat
  lengthIndex : Nat
  branch : Nat
  reserved : Nat
  deriving DecidableEq, Repr

/-- A collective entry (R340). -/
structure CollEntry where
  op : Nat
  wire : Nat
  group : Nat
  size : Nat
  first : Nat
  xmask : Nat
  ifmt : Nat
  ofmt : Nat
  datum : Int
  datumHigh : Nat
  issueTile : Nat
  peer : Nat
  flags : Nat
  depthBound : Nat
  lengthIndex : Nat
  shard : Nat
  reserved : Nat
  deriving DecidableEq, Repr

/-- A stage descriptor (R341). -/
structure StageDesc where
  stage : Nat
  schedule : Nat
  microBatches : Nat
  inflight : Nat
  firstLayer : Nat
  layerCount : Nat
  branch : Nat
  reserved : Nat
  deriving DecidableEq, Repr

/-- A queue binding (R343). -/
structure QueueBinding where
  queueId : Nat
  dir : Nat
  producerStage : Nat
  producerTile : Nat
  outQueue : Nat
  inQueue : Nat
  consumerTile : Nat
  depth : Nat
  entryBytes : Nat
  ringAddr : Nat
  putsPerStep : Nat
  reserved : Nat
  deriving DecidableEq, Repr

/-- A region of a memory plan (R266, R422). -/
structure Region where
  kind : Nat
  overlay : Nat
  /-- member or device the region is for: borrower of a LEND region, owner of a STAY region -/
  peer : Nat
  flags : Nat
  address : Nat
  size : Nat
  layer : Nat
  deriving DecidableEq, Repr

/-- An entry of a WITNESS_PLAN (R466); a disabled one is kept with `enabled` false. -/
structure WitEntry where
  pTile : Nat
  pStrand : Nat
  pInst : Nat
  wTile : Nat
  wStrand : Nat
  wInst : Nat
  station : Nat
  pc : W32
  arg : W64
  enabled : Bool
  deriving DecidableEq, Repr

/-- What a NUMERICS section sets beside the histories and the promotion order (R242, R243, R601): SAT_LIMIT and FLUSH_LIMIT of sites, LOW and
HIGH of layers, gauges. -/
structure NumTables where
  limits : List (Nat × W32 × W32)
  layers : List (Nat × W32 × W32)
  gauges : List (Nat × Gauge)
  deriving DecidableEq, Repr

/-- One variant of the image, its shard table and plan parsed (R338 to R343, R361, R420 to R422). -/
structure Variant where
  /-- shard table header fields (R338) -/
  format : Nat
  width : Nat
  gangMask : Nat
  y0 : Nat
  yj : Nat
  z0 : Nat
  zj : Nat
  flags : Nat
  reservedZero : Bool
  sectionsOk : Bool
  seqEntries : Nat
  shards : List ShardDesc
  colls : List CollEntry
  queues : List QueueBinding
  stages : List StageDesc
  lengths : List Nat
  regions : List Region
  starts : List StartEntry
  /-- code blobs: logical tile, tile-store address, bytes -/
  code : List (Nat × Nat × List Byte)
  /-- KIND (0 FIRST_USE, 1 STEADY, 2 PROMOTION), LEVEL, FLAGS (NONINV [0], BACKUP [1]) and INV_GROUP of its descriptor
  (R358) -/
  kind : Nat
  level : Nat
  descFlags : Nat
  invGroup : Nat
  /-- the witness plan of the variant (R466) -/
  wit : List WitEntry
  /-- the EXCHANGE section that serves it: the layout of the exchange record (R310, R420) -/
  exchange : List Byte
  /-- the tables of the NUMERICS section that serves it (R420, R601) -/
  tables : NumTables
  deriving DecidableEq, Repr
/-- A move of a warp plan (R365). -/
structure Move where
  kind : Nat
  precopy : Bool
  route : Nat
  hops : Nat
  /-- source and destination positions as shard identities (R380) -/
  src : Nat
  dst : Nat
  shard : Nat
  srcAddr : Nat
  dstAddr : Nat
  bytes : Nat
  deriving DecidableEq, Repr

/-- A warp plan (R364), available or not (R368). -/
structure WarpPlan where
  frm : Nat
  dst : Nat
  moves : List Move
  peak : Nat
  available : Bool
  deriving DecidableEq, Repr

/-- The loaded traverse image (R420 to R422). -/
structure Image where
  bays : Nat
  tilesNeeded : Nat
  earlyAbort : Bool
  replayOk : Bool
  job : W32
  seed : W64
  /-- index of the STEADY variant of the loaded shape -/
  initial : Nat
  variants : List (Nat × Variant)
  /-- variants marked unavailable (R267, R353, R421) -/
  unavailable : List Nat
  plans : List WarpPlan
  /-- promotable layers in promotion order (R222, R601) -/
  promoOrder : List Nat
  /-- a step has run since the load (R228) -/
  ran : Bool
  /-- the bytes it was read as, which recovery sends on (R382) -/
  raw : List Byte
  deriving DecidableEq, Repr

/-! ### Collectives (chapter 9) -/

/-- A collective the capstans have taken from a tile's collective issue queue: queued or running (R298), with what it
has received (R305). -/
structure CollRun where
  /-- issuing tile (PHYS_ID) and instruction -/
  tile : Nat
  op : QOp
  entry : Nat
  started : Bool
  /-- device time at which the capstan pair took it (R298) -/
  accepted : W64
  /-- collective epoch it belongs to -/
  epoch : W32
  /-- merged vote so far: SAT, INF, NAN bits as VOTEWORD (R306, R307) -/
  vote : BitVec 3
  /-- this member's own contributions as wire codes, by source element (R301), default 0 -/
  own : SMap Nat
  /-- contributions or partial sums received for the owned chunk: element i from rank r at r × 2^40 + i, default 0 -/
  inputs : SMap Nat
  /-- messages received: gather phase, CHUNK, SRC_RANK, COUNT -/
  got : List (Bool × Nat × Nat × Nat)
  /-- the owned sums have been converted (R302) -/
  converted : Bool
  /-- slot entries, with DEPTH, received from each rank and this member's own (R304) -/
  slots : List (Nat × SMap Entry × Nat)
  /-- a LAST bucket's phases are complete; it ends with the commit exchange (R205, R308) -/
  done : Bool
  deriving DecidableEq, Repr

/-- The status a completed collective leaves for CWAIT (R143). -/
structure CollDone where
  tile : Nat
  strand : Nat
  entry : Nat
  status : W64
  deriving DecidableEq, Repr

/-- One capstan's registers (R329). -/
structure Capstan where
  wireBytes : W64
  deriving DecidableEq, Repr

/-- The commit exchange of a step (R310). -/
structure Exchange where
  /-- this partition has entered it -/
  entered : Bool
  start : W64
  /-- merged vote -/
  vote : Vote
  deriving DecidableEq, Repr

/-- The exchange before a partition enters it. -/
def Exchange.none : Exchange := ⟨false, 0, .clean⟩

/-- A strike or early-abort notice (R312): KIND 1 or 2, CODE, the origin and the epoch. -/
structure Strike where
  kind : Nat
  code : Nat
  x : Nat
  y : Nat
  z : Nat
  epoch : W32
  deriving DecidableEq, Repr

/-- A partition's capstan registers (R328, R329) and the strikes it holds (R313, R315). -/
structure CapRegs where
  epoch : W32
  job : W32
  sat : W32
  flush : W32
  nan : W32
  inf : W32
  sent : BitVec 16
  received : BitVec 16
  ignored : W32
  xchg : W32
  lastStrike : W64
  /-- strikes and early-abort notices of a newer epoch, held (R315) -/
  held : List Strike
  /-- (KIND, EPOCH) pairs of this job already sent or forwarded (R313) -/
  seen : List (Nat × W32)
  /-- epochs that committed, newest first (R315) -/
  committedEpochs : List W32
  deriving DecidableEq, Repr

/-- The capstan registers of a partition at reset. -/
def CapRegs.reset : CapRegs := ⟨0, 0, 0, 0, 0, 0, 0, 0, 0, 0, 0, [], [], []⟩

/-- One side of a stage queue (R344 to R346). -/
structure QueueState where
  credits : Nat
  puts : Nat
  gets : Nat
  /-- ring slots written in full and not yet taken, default false -/
  full : SMap Bool
  /-- credits the consumer has returned and the producer has not received (R344 rule 4) -/
  owed : Nat
  highWater : Nat
  /-- ticks waited for credit (producer) and for an entry (consumer) -/
  waitTicks : W64
  waitTicksIn : W64
  discarded : W32
  deriving DecidableEq, Repr

/-- A stage queue before the first step. -/
def QueueState.zero : QueueState := ⟨0, 0, 0, [], 0, 0, 0, 0, 0⟩

/-- The 128-byte idle record (R354). -/
structure IdleRec where
  step : W32
  tiles : Nat
  time : W64
  busy : W64
  idle : SMap W64
  deriving DecidableEq, Repr

/-- The idle record at reset. -/
def IdleRec.zero : IdleRec := ⟨0, 0, 0, 0, []⟩

/-! ### Balca links (chapter 9) -/

/-- State of a link (R322). -/
inductive LinkState where
  | down | trainFull | trainCached | qualify | up | retrain | loopback | disabled
  deriving DecidableEq, Repr

/-- Per virtual channel state of a link (R289 to R296). -/
structure VcState where
  /-- credits held for sending -/
  credits : Nat
  /-- flits of the open message, accepted (R293) -/
  open' : List Flit
  /-- a message is open: FIRST seen, LAST not -/
  isOpen : Bool
  /-- device time of the last DATA flit of the open message -/
  lastFlit : W64
  slack : Bool
  /-- flits of epoch e + 1, held (R296) -/
  held : List Flit
  /-- receive buffers that hold accepted flits whose credits have not gone back (R289) -/
  busy : Nat
  deriving DecidableEq, Repr

/-- A virtual channel at reset. -/
def VcState.zero : VcState := ⟨0, [], false, 0, false, [], 0⟩

/-- A message this device sends on one link, from when the link is given it until its last flit is acknowledged (R288, R292, R294). -/
structure OutMsg where
  vc : Nat
  epoch : W32
  /-- where the search for a link of its bundle begins: QUEUE_ID mod 6 for a stage queue, else 0 (R292, R294) -/
  key : Nat
  data : List Byte
  /-- flits sent so far, and the SEQ of the last of them -/
  sent : Nat
  lastSeq : BitVec 16
  deriving DecidableEq, Repr

/-- A Balca link (R320 to R324). -/
structure Link where
  /-- LNK_CTRLn: ENABLE, RESPONDER, LOOPBACK, PATTERN -/
  enable : Bool
  responder : Bool
  loopback : Nat
  pattern : Nat
  state : LinkState
  /-- full training requested (R321) -/
  wantFull : Bool
  peerSerial : W64
  peerLink : Nat
  lanes : Nat
  lastFull : Bool
  trainMs : Nat
  sticky : BitVec 5
  fecCorr : W32
  fecUncorr : W32
  crcErr : W32
  replays : W32
  retrains : W32
  slackCnt : W32
  stale : W32
  lbErr : W32
  lbBits : W64
  txFlits : W64
  rxFlits : W64
  /-- coefficient cache entry: peer serial and peer link (R283), non-volatile -/
  cache : Option (W64 × Nat)
  /-- attempts made in the present training -/
  attempts : Nat
  /-- device time of leaving UP, while not UP again (R284) -/
  leftUp : Option W64
  lost : Bool
  /-- messages not yet sent and acknowledged in full, oldest first -/
  outMsgs : List OutMsg
  /-- deficit round robin: the channel whose turn it is, and the flits it may still send in its turn (R291) -/
  rr : Nat
  quota : Nat
  /-- replay buffer, oldest first, at most 2,048, each flit with the device time it was last sent (R288) -/
  replay : List (Flit × W64)
  nextSeq : BitVec 16
  expectSeq : BitVec 16
  /-- a NAK has been sent and the named SEQ has not arrived (R288) -/
  nakSent : Bool
  /-- the SEQ last NAKed by the peer and how often (R284) -/
  nakSeq : BitVec 16
  nakCount : Nat
  vcs : SMap VcState
  /-- device time when the device last failed training and waits 10 s (R282) -/
  failedAt : Option W64
  /-- found miswired: it stays DOWN until LNK_COORD is written or a retrain is requested (R276) -/
  barred : Bool
  /-- a lane holds signal and its peer's identity is known (R282) -/
  found : Bool
  /-- LNK_COORD as the link's last training took it (R325) -/
  pos : W32
  /-- the training under way began as RETRAIN: cached attempts, up to three, come first (R284) -/
  retraining : Bool
  /-- the training under way has exchanged identity frames and checked the wiring (R276, R282) -/
  identified : Bool
  deriving DecidableEq, Repr

/-- A link at PERST# (R321 to R324), in service and down. -/
def Link.reset : Link :=
  { enable := true, responder := false, loopback := 0, pattern := 0, state := .down, wantFull := false,
    peerSerial := 0, peerLink := 0, lanes := 0, lastFull := false, trainMs := 0, sticky := 0,
    fecCorr := 0, fecUncorr := 0, crcErr := 0, replays := 0, retrains := 0, slackCnt := 0, stale := 0, lbErr := 0,
    lbBits := 0, txFlits := 0, rxFlits := 0, cache := none, attempts := 0, leftUp := none, lost := false,
    outMsgs := [], rr := 0, quota := 0, replay := [], nextSeq := 0, expectSeq := 0, nakSent := false, nakSeq := 0, nakCount := 0,
    vcs := [], failedAt := none, barred := false, found := false, pos := 0, retraining := false, identified := false }

/-! ### In flight between units -/

/-- A remote signal in the mesh (R98). -/
structure SigMsg where
  srcTile : Nat
  strand : Nat
  destTile : Nat
  counter : Nat
  inc : W32
  deriving DecidableEq, Repr

/-- What a tile has sent to its numerics home and has not merged there: a staged observation or site counts
(R133, R204, R229), with what orders first positions (R230). -/
structure StageMsg where
  part : Nat
  tile : Nat
  logical : Nat
  strand : Nat
  stage : VStage
  /-- number of site-bearing instructions the strand issued earlier at this site in the step -/
  siteInst : Nat
  /-- the first event of the higher classes: class code and element (R230) -/
  high : Option (Nat × Nat)
  /-- the first event of the lower classes -/
  low : Option (Nat × Nat)
  deriving DecidableEq, Repr

/-! ### The field book (R459 to R464) -/

/-- A field-book entry (R460, R461). -/
structure BookEntry where
  seq : W32
  type : Nat
  part : Nat
  code : Nat
  flags : Nat
  time : W64
  payload : List Byte
  deriving DecidableEq, Repr

/-- A ring place that holds no entry. -/
def BookEntry.zero : BookEntry := ⟨0, 0, 0, 0, 0, 0, []⟩

/-- The field book and its registers (R464). -/
structure FieldBook where
  /-- entries by index, default `BookEntry.zero` -/
  ring : SMap BookEntry
  /-- entries waiting to be written, oldest first, at most 256 (R462) -/
  waiting : List BookEntry
  freezeEn : Bool
  keepBefore : Nat
  frozen : Bool
  wrapped : Bool
  overrun : Bool
  nextSeq : W32
  nextIndex : Nat
  freezeSeq : W32
  freezeIndex : Nat
  dropped : W32
  page : Nat
  deriving DecidableEq, Repr

/-- The field book after AUX power-up (R464). -/
def FieldBook.reset : FieldBook :=
  { ring := [], waiting := [], freezeEn := true, keepBefore := 0x1000, frozen := false, wrapped := false,
    overrun := false, nextSeq := 0, nextIndex := 0, freezeSeq := 0, freezeIndex := 0, dropped := 0, page := 0 }

/-! ### Host commands, queues and tenancies (chapter 12) -/

/-- Where a command came from (R33, R412, R426). -/
inductive CmdOrigin where
  | host | admission | lead
  deriving DecidableEq, Repr

/-- A command that has been taken and is not complete (R412, R413). -/
structure Cmd where
  key : Nat
  sq : Nat
  csn : W32
  cid : Nat
  op : Nat
  noIrq : Bool
  /-- in ticks, the default of R416 resolved when the command was taken -/
  timeout : Nat
  /-- RUN_STEPS: the collective timeout of its steps in ticks, as PART_TIMEOUT gave it when the command was taken (R409) -/
  collTicks : Nat
  opflags : Nat
  /-- bytes 0x10 to 0x3F -/
  args : List Byte
  origin : CmdOrigin
  started : Bool
  /-- device time the timeout runs from (R416) -/
  start : W64
  /-- RUN_STEPS: steps run, steps that did not commit, status of the last of those (R417) -/
  stepsRun : Nat
  stepsBad : Nat
  lastBad : Nat
  /-- host DMA: the descriptor slot held, bytes moved or sent, first poisoned address (R256, R253) -/
  engine : Option Nat
  moved : Nat
  poison : Option Nat
  /-- device time at which it was taken, from which a DEADLINE counts (R362) -/
  received : W64
  /-- host DMA: words of a DMA_D2H that a die crossing has delivered poisoned, and whether one of the transfer's has been (R24, R68) -/
  crossed : List Nat
  ecc : Bool
  /-- a gang lead's command: members that have answered, itself among them, with their completion (R34) -/
  answers : List (Nat × Completion)
  /-- forwarded to the gang's members (R33) -/
  forwarded : Bool
  deriving DecidableEq, Repr

/-- A submission queue (R411). -/
structure SubQ where
  base : W64
  enable : Bool
  cq : Nat
  log2 : Nat
  head : Nat
  tail : Nat
  error : Nat
  csn : W32
  deriving DecidableEq, Repr

/-- A submission queue at reset (R411). -/
def SubQ.reset : SubQ := ⟨0, false, 0, 4, 0, 0, 0, 0⟩

/-- A completion queue (R411) with the completions it holds back. -/
structure CplQ where
  base : W64
  enable : Bool
  irqEn : Bool
  log2 : Nat
  tail : Nat
  phase : Bool
  head : Nat
  /-- entries written that the host has not consumed: all of the queue's when it is full (R411) -/
  used : Nat
  error : Nat
  held : List Completion
  deriving DecidableEq, Repr

/-- A completion queue at reset (R411). -/
def CplQ.reset : CplQ := ⟨0, false, false, 4, 0, true, 0, 0, 0, []⟩

/-- PART_GANG (R431) and what formation knows. -/
structure GangReg where
  unitId : W32
  /-- 0 none, 1 lead, 2 member -/
  role : Nat
  formed : Bool
  /-- device time of FORM, while the unit is forming -/
  forming : Option W64
  /-- members present, by member index -/
  present : BitVec 8
  /-- what each other member has last told of itself, on the lead (R31, R35, R36) -/
  members : List (Nat × MemberReport)
  /-- this partition's own member index, fixed at formation (R30) -/
  index : Nat
  /-- the lead's member index -/
  lead : Nat
  /-- the lead has become unreachable (R38) -/
  leadLost : Bool
  deriving DecidableEq, Repr

/-- PART_GANG at reset. -/
def GangReg.reset : GangReg := ⟨0, 0, false, none, 0, [], 0, 0, false⟩

/-- TCK_HEARTBEAT, TCK_HOVE and TCK_HOVE_LEASE (R433). -/
structure Hove where
  enable : Bool
  interval : Nat
  beat : BitVec 16
  /-- device time of the last beat -/
  lastBeat : W64
  /-- 0 normal, 1 hove-to, 2 quiesced -/
  state : Nat
  cause : Nat
  /-- device time at which the hove-to lease ends -/
  leaseEnd : W64
  leaseS : Nat
  /-- the lease has ended and RUN_STEPS runs to its next step boundary (R435) -/
  quiescing : Bool
  deriving DecidableEq, Repr

/-- The heartbeat registers at reset (R433). -/
def Hove.reset : Hove := ⟨true, 10, 0, 0, 0, 0, 0, 600, false⟩

/-! ### Elastic operation (chapter 11) -/

/-- What a partition knows of a stay copy: its holder's or its own (R376). -/
structure Stay where
  /-- 0 EMPTY, 1 FILLING, 2 CURRENT, 3 UPDATING, 4 BEHIND -/
  state : Nat
  step : W64
  deriving DecidableEq, Repr

/-- A stay before its first fill. -/
def Stay.empty : Stay := ⟨0, 0⟩

/-- A segment in arrival (R369, R371); its bytes in full for a NUMERICS move only. -/
structure SegRun where
  move : Nat
  segment : Nat
  /-- received bytes of a NUMERICS move, by offset -/
  data : SMap Byte
  got : Nat
  /-- SEG_CHECK, once the LAST message has come -/
  check : Option W32
  resends : Nat
  /-- verified, and not sent again since -/
  done : Bool
  deriving DecidableEq, Repr

/-- Stay traffic in arrival at a holder: a fill or a delta, the step it brings the stay to, its segments (R377, R378). -/
structure InStay where
  fill : Bool
  epoch : W32
  segments : List SegRun
  deriving DecidableEq, Repr

/-- What the Tack core keeps of a backup unit (R386, R387): the last 32 durations of S, newest first; in the running step, the duration once S or
S′ is done, whether S′ has been started, whether the start has been refused. -/
structure BackupRec where
  durations : List W64
  time : Option W64
  run : Bool
  refused : Bool
  deriving DecidableEq, Repr

/-- A backup unit before its first step. -/
def BackupRec.zero : BackupRec := ⟨[], none, false, false⟩

/-- A variant switch, reef, shake-out, warp or recovery in progress (R360, R372, R382). -/
structure Reshape where
  /-- PHASE of R393 -/
  phase : Nat
  /-- REASON of R360 -/
  reason : Nat
  target : Nat
  from' : Nat
  member : Nat
  id : W32
  lease : W32
  deadline : Option W64
  /-- the SET_VARIANT it serves, if any -/
  cmd : Option Nat
  /-- index of the warp plan, if one is used -/
  plan : Option Nat
  /-- device time of the boundary, once reached -/
  pauseAt : Option W64
  /-- a device time at which CUT_STEP ends the running step (R374) -/
  cutAt : Option W64
  passes : Nat
  segments : List SegRun
  /-- segments still to verify, and still to send -/
  segmentsLeft : Nat
  toSend : Nat
  sentMib : Nat
  verified : Bool
  leaving : Bool
  /-- device time at which it started -/
  startedAt : W64
  /-- the numerics record that has landed, in force at the switch (R365, R373) -/
  numerics : List Byte
  /-- the stays as the boundary found them: the two own copies, and those held (R373) -/
  stays : Option (Stay × Stay × SMap Stay)
  deriving DecidableEq, Repr

/-- The ELA_ registers and what elastic operation keeps (R391 to R398). -/
structure Ela where
  ctrl : W32
  /-- ELA_CTRL in force: as written when the running switch or step began (R392) -/
  ctrlNow : W32
  run : Option Reshape
  lastReason : Nat
  joining : Bool
  armed : Bool
  warpEpoch : W32
  estimate : Nat
  last : W64
  lost : W64
  /-- the two holders' copies of this partition -/
  stay1 : Stay
  stay2 : Stay
  /-- stays held for others, by shard identity, and the traffic for them in arrival -/
  held : SMap Stay
  inStays : List (Nat × InStay)
  /-- a stay delta is being sent, to the first and second holder -/
  delta1 : Bool
  delta2 : Bool
  /-- a stay fill is being sent, to the first and second holder (R377) -/
  fill1 : Bool
  fill2 : Bool
  backup : W32
  started : BitVec 16
  backupWon : BitVec 8
  notStarted : BitVec 8
  /-- backup units of the current variant, by index -/
  units : SMap BackupRec
  /-- the commit exchange that a strike has stopped, with the local vote (R330, R382 step 2) -/
  stopped : Option Exchange
  events : BitVec 8
  /-- durations of the last 32 committed steps, newest first -/
  durations : List W64
  /-- recovery: wave under way (0 none, 1 A, 2 B), positions lost, those of them to which a spare is assigned -/
  wave : Nat
  lostPositions : List Nat
  spares : List Nat
  /-- the recovery that ended last has lost a shard (R383) -/
  shardLost : Bool
  /-- STEP of the stay that STAY_STALE found (R383) -/
  staleStep : W64
  deriving DecidableEq, Repr

/-- Elastic state of a partition at reset (R392 to R398). -/
def Ela.reset : Ela :=
  { ctrl := 0xC0000000, ctrlNow := 0xC0000000, run := none, lastReason := 0, joining := false, armed := false, warpEpoch := 0, estimate := 0,
    last := 0, lost := 0, stay1 := .empty, stay2 := .empty, held := [], delta1 := false, delta2 := false, fill1 := false, fill2 := false,
    backup := 0x00001808, started := 0, backupWon := 0, notStarted := 0, units := [], stopped := none, events := 0, durations := [], inStays := [],
    wave := 0, lostPositions := [], spares := [], shardLost := false, staleStep := 0 }

/-! ### Admission (R424 to R430) -/

/-- A request of ADM_REQ (R430). -/
structure AdmReq where
  kind : Nat
  cls : Nat
  bayCount : Nat
  queue : Bool
  exact : Bool
  bayMask : Nat
  partition : Nat
  tag : W64
  lease : W32
  reshapeId : W32
  target : Nat
  deadline : Nat
  duration : Nat
  waitLimit : Nat
  deriving DecidableEq, Repr

/-- ADM_REQ at reset. -/
def AdmReq.zero : AdmReq := ⟨0, 0, 0, false, false, 0, 0, 0, 0, 0, 0, 0, 0, 0⟩

/-- A request slot: ADM_RESULTs (R430) and the request it serves. -/
structure AdmSlot where
  /-- 0 FREE, 1 PENDING, 2 DECIDED, 3 ENDED -/
  slot : Nat
  status : Nat
  reason : Nat
  partition : Nat
  bays : Nat
  position : Nat
  estWait : W32
  byLease : W32
  byReshape : W32
  time : W64
  req : AdmReq
  /-- device time of submission -/
  submitted : W64
  /-- partitions still to be released for it -/
  victims : List Nat
  deriving DecidableEq, Repr

/-- A free slot (R430). -/
def AdmSlot.free : AdmSlot := ⟨0, 0, 0, 0xF, 0, 0, 0, 0, 0, 0, .zero, 0, []⟩

/-- Admission's registers and queue (R429). -/
structure Admission where
  ctrl : BitVec 4
  req : AdmReq
  lastValid : Bool
  lastSlot : Nat
  slots : SMap AdmSlot
  /-- deferred requests by slot, in queue order (R425) -/
  queue : List Nat
  /-- partition numbers in the order served, oldest first, with the slot that created each -/
  served : List (Nat × Nat)
  /-- ADM_SHAREp, default 0x8000_8422 -/
  share : SMap W32
  deriving DecidableEq, Repr

/-- Admission at reset. -/
def Admission.reset : Admission := ⟨0xF, .zero, false, 0, [], [], [], []⟩

/-! ### Partition faults (chapter 13) -/

/-- A partition fault that has been detected and has not yet entered the record (R439, R441). -/
structure PendFault where
  code : Nat
  originating : Bool
  /-- the faulting tile, whose capture fills the record (R107); none sets NOTILE -/
  tile : Option Nat
  addr : W64
  detail : W64
  time : W64
  /-- the strand named when no capture does: strand, station, PC, instruction word (R446) -/
  strand : Option (Nat × Nat × W32 × IWord)
  /-- the epoch to strike, when one is to be struck (R311) -/
  epoch : Option W32
  deriving DecidableEq, Repr

/-- The fault record, FLT_STATUS to FLT_CTX_DETAIL (R442). -/
structure FaultRec where
  code : Nat
  valid : Bool
  originating : Bool
  precise : Bool
  fetch : Bool
  noStrand : Bool
  noTile : Bool
  noCmd : Bool
  unreachable : Nat
  later : Nat
  partition : Nat
  function : Nat
  queue : Nat
  member : Nat
  opcode : Nat
  csn : W32
  job : W32
  variant : Nat
  step : Nat
  station : Nat
  strand : Nat
  logical : Nat
  physId : Nat
  trapNo : Nat
  tileLater : Nat
  pc : W32
  addr : W64
  time : W64
  instr : IWord
  detail : W64
  deriving DecidableEq, Repr

/-- An empty fault record (R442). -/
def FaultRec.zero : FaultRec :=
  ⟨0, false, false, false, false, false, false, false, 0, 0, 0, 0, 0, 0, 0, 0, 0, 0, 0, 0, 0, 0, 0, 0, 0, 0, 0, 0, 0, 0⟩

/-- The dump registers of a partition (R447) and its dump in progress. -/
structure Dump where
  arm : Bool
  tileStore : Bool
  /-- 0 IDLE, 1 QUEUED, 2 RUNNING, 3 COMPLETE, 4 TRUNCATED, 5 ABORTED, 6 NO_BUFFER -/
  state : Nat
  unreachable : Nat
  /-- bus address, in units of 64 bytes -/
  addr : Nat
  len : W64
  bytes : W64
  holes : W32
  start : W64
  /-- accesses that timed out: unit (kind, identity) and access index -/
  timeouts : List (Nat × Nat × Nat)
  /-- units declared unreachable in this dump, with the access index from which on -/
  gone : List (Nat × Nat × Nat)
  deriving DecidableEq, Repr

/-- The dump registers at reset (R447). -/
def Dump.reset : Dump := ⟨false, false, 0, 0, 0, 0, 0, 0, 0, [], []⟩

/-- One marked ACCRD as it reaches the comparator (R469): plan entry, which side, the drain entry, the operand signature,
cluster clock, voltage and temperature, and the tile. -/
structure WitCopy where
  entry : Nat
  witness : Bool
  drain : Drain
  sig : W32
  clock : Nat
  volt : Nat
  temp : Nat
  logical : Nat
  phys : Nat
  deriving DecidableEq, Repr

/-- The witness record (R471), sticky. -/
structure WitRec where
  step : W32
  valid : Bool
  operand : Bool
  flagsDiff : Bool
  firstDiff : Nat
  primary : W64
  witness : W64
  sigP : W32
  sigW : W32
  time : W64
  entry : W32
  deriving DecidableEq, Repr

/-- A cleared witness record. -/
def WitRec.zero : WitRec := ⟨0, false, false, false, 0, 0, 0, 0, 0, 0, 0⟩

/-- The witness registers of a partition (R471), and the pairs of the running step. -/
structure Witness where
  action : Bool
  rate : Nat
  seed : W64
  selected : W32
  compared : W32
  result : W32
  operand : W32
  unmatched : W32
  disabled : W32
  record : WitRec
  /-- plan entries selected in this step and not yet compared or counted UNMATCHED -/
  open' : List Nat
  /-- marked ACCRDs that have arrived and wait for their other half -/
  arrived : List WitCopy
  deriving DecidableEq, Repr

/-- The witness registers at reset (R471). -/
def Witness.reset : Witness := ⟨true, 0, 0, 0, 0, 0, 0, 0, 0, .zero, [], []⟩

/-! ### A partition -/

/-- A partition of the device (R30, R408 to R410). -/
structure Part where
  exist : Bool
  /-- its bays, ascending -/
  bays : List Nat
  /-- remap table: entry of logical tile n at n (R71), default 0 -/
  remap : SMap W32
  /-- enabled tiles (R27) -/
  tiles : Nat
  num : Numerics
  mem : MemRec
  hostWin : SMap HostWindow
  slots : SMap ReqSlot
  /-- reads of host memory under way, in the order they started (R259) -/
  reads : List HostRead
  /-- added to the epoch of every request slot: partition resets so far, modulo 8 (R261) -/
  slotBase : BitVec 3
  image : Option Image
  /-- current variant (R360) -/
  variant : Option Nat
  caps : CapRegs
  /-- collectives accepted and not complete, in acceptance order (R298) -/
  colls : List CollRun
  /-- messages waiting in their VC buffers, oldest first, each with its link: of the next epoch, or of a collective not yet started
  (R296, R298) -/
  collWait : List (Nat × CollMsg)
  collDone : List CollDone
  /-- collectives that a strike has ended: tile, strand, entry; a CWAIT on one never issues (R143, R314) -/
  aborted : List (Nat × Nat × Nat)
  exch : Exchange
  /-- a step is open (R311) -/
  stepOpen : Bool
  /-- the status CWAIT on 0xFFFF returns, once the step's commit or discard is done (R143) -/
  commitStatus : Option W64
  queues : SMap QueueState
  idleRec : IdleRec
  /-- FLT_STICKY (R444), sticky -/
  fltSticky : BitVec 8
  gang : GangReg
  /-- service class of the request that created it (R409) -/
  cls : Nat
  /-- PART_TIMEOUT (R409) -/
  timeouts : W64
  /-- PART_BAR2.BASE, in 2 MiB (R409) -/
  bar2Base : Nat
  /-- tag of the open tenancy; 0 when none is open (R409, R419) -/
  tenancy : W64
  sqs : SMap SubQ
  cqs : SMap CplQ
  /-- commands taken and not complete, in the order taken (R412) -/
  cmds : List Cmd
  /-- the next command key, and the queue dispatch looks at next -/
  nextKey : Nat
  nextSq : Nat
  hove : Hove
  /-- a partition reset is in progress, with its cause (R405, R461) -/
  resetting : Option Nat
  /-- its LEASE's duration has ended (R427) -/
  leaseEnded : Bool
  ela : Ela
  /-- the PERSISTENT half that is current (R366) -/
  half : Bool
  /-- function in D3hot (R401) -/
  d3hot : Bool
  /-- doorbells held in D3hot: queue, completion side, value -/
  heldBells : List (Nat × Bool × W32)
  /-- tail doorbells held in the queues' hardware logs during a Tack outage, oldest first (R486) -/
  bellLog : List (Nat × W32)
  /-- device time the open step started, and the step counter it started with (R230) -/
  stepStart : W64
  stepNo : Nat
  /-- the step ended by LOSCHK's notice: early abort received (R217) -/
  earlyAbort : Bool
  /-- lend epochs recorded at load, by member (R264) -/
  lendSeen : SMap W32
  fault : FaultRec
  pend : List PendFault
  /-- the fault of a lost gang lead, kept while a started control command finishes (R38) -/
  lostFault : Option PendFault
  /-- FLT_CTRL.AUTO_RESET (R444) -/
  autoReset : Bool
  dump : Dump
  wit : Witness
  /-- the job's promotion level (R222, R361) -/
  level : Nat
  /-- calibration has ended, and the switch to the steady variant waits for a step boundary (R227, R228) -/
  calDue : Bool
  /-- status of a step that has reached its boundary and whose tiles have not all reported (R105, R216) -/
  stepResult : Option Nat
  /-- device time at which the partition reset in progress began (R461) -/
  resetStart : W64
  /-- the units found unreachable during the reset, by kind and identity (R454) -/
  resetGone : List (Nat × Nat)
  /-- admission destroys the partition at the end of the reset in progress: STATUS, BY_LEASE, BY_RESHAPE of the request that
  created it (R426, R427) -/
  destroy : Option (Nat × W32 × W32)
  /-- device time the freeze completed (R445, R448) -/
  frozenAt : W64
  deriving DecidableEq, Repr

/-- A partition slot that holds no partition. -/
def Part.reset : Part :=
  { exist := false, bays := [], remap := [], tiles := 0, num := .reset, mem := .reset, hostWin := [], slots := [], reads := [], slotBase := 0,
    image := none, variant := none, caps := .reset, colls := [], collWait := [], collDone := [], aborted := [], exch := .none, stepOpen := false, commitStatus := none,
    queues := [], idleRec := .zero, fltSticky := 0,
    gang := .reset, cls := 0, timeouts := 0x003C001E00FA000A, bar2Base := 0, tenancy := 0, sqs := [], cqs := [],
    cmds := [], nextKey := 0, nextSq := 0, hove := .reset, resetting := none, leaseEnded := false, ela := .reset,
    half := false, d3hot := false, heldBells := [], bellLog := [], stepStart := 0, stepNo := 0, earlyAbort := false,
    lendSeen := [], fault := .zero, pend := [], lostFault := none, autoReset := false, dump := .reset, wit := .reset, level := 0, calDue := false,
    stepResult := none, resetStart := 0, resetGone := [], destroy := none, frozenAt := 0 }

/-! ### Check traverses and retirement (R473 to R476) -/

/-- An entry of the pending retirement list (R476). -/
structure Retire where
  cluster : Bool
  /-- 0 WITNESS, 1 CHECK, 2 DRIFT, 3 ZEROING -/
  cause : Nat
  phys : Nat
  deriving DecidableEq, Repr

/-- FLT_CHECK_ registers and the retirement registers (R474, R476), and what retirement keeps in the lifetime store. -/
structure DevCheck where
  enable : Bool
  intervalH : Nat
  points : W32
  running : Bool
  cluster : Nat
  point : Nat
  fails : BitVec 16
  resValid : Bool
  resPoint : Nat
  resPhys : Nat
  hold : Bool
  /-- the pending list, at most 16 -/
  pending : List Retire
  /-- scheduled and not yet in the list, oldest first -/
  backlog : List Retire
  /-- tiles retired so far, and the spare that took each one's place (R70) -/
  retired : List Nat
  spareFor : List (Nat × Nat)
  /-- RESULT mismatches: tile, partner, device time (R475) -/
  history : List (Nat × Nat × W64)
  /-- schedulings: tile, device time (R475) -/
  scheduled : List (Nat × W64)
  /-- device time of the last check round -/
  lastRound : W64
  deriving DecidableEq, Repr

/-- The check and retirement registers at reset (R474, R476). -/
def DevCheck.reset : DevCheck :=
  ⟨true, 0x18, 0x5F503C28, false, 0, 0, 0, false, 0, 0, false, [], [], [], [], [], [], 0⟩

/-- A declaration on its way from Tack to the Cadastre (R557). -/
inductive CadDecl where
  /-- partition, tag and bays; the command, by key, that completes on acceptance -/
  | opening (part : Nat) (tag : W64) (key : Nat)
  /-- partition and reason (R419) -/
  | closing (part reason : Nat)
  /-- UTC in ns, uncertainty in µs (R560) -/
  | utc (utc : W64) (uncertainty : W32)
  deriving DecidableEq, Repr

/-! ### The Masthead (chapter 14) -/

/-- A firmware slot (R492, R493, R497). -/
structure FwSlot where
  /-- bytes an update has written, default 0 -/
  img : SMap Byte
  /-- holds the image of manufacture, whose bytes the manual does not give and which passes R494 -/
  factory : Bool
  /-- marked invalid by an update that broke off (R495) -/
  invalid : Bool
  /-- success mark and boot counter (R497) -/
  mark : Bool
  boots : Nat
  deriving DecidableEq, Repr

/-- A firmware update in progress (R495): PHASE 0 idle, 1 after RequestUpdate, 2 after PassComponentTable, 3 downloading,
4 transferred, 5 verified, 6 applied. -/
structure FwUpdate where
  phase : Nat
  size : Nat
  got : Nat
  deriving DecidableEq, Repr

/-- A posted host write: function, offset in BAR0, bytes (R483, R489). -/
structure HostWrite where
  function : Nat
  offset : Nat
  bytes : List Byte
  deriving DecidableEq, Repr

/-- A region of a core's memory-protection unit (R480); one of size 0 is off. -/
structure MpuRegion where
  base : Nat
  size : Nat
  read : Bool
  write : Bool
  exec : Bool
  /-- the component that owns it; none: for all -/
  owner : Option Nat
  deriving DecidableEq, Repr

/-- A region that is off. -/
def MpuRegion.off : MpuRegion := ⟨0, 0, false, false, false, none⟩

/-- Part `i` of the 16 equal parts of a core's local SRAM: 32 KiB of Trim's, 128 KiB of Tack's (R477, R479). -/
def localPart (core i : Nat) : Nat × Nat :=
  let n := if core = 0 then 0x8000 else 0x20000
  (0x10000000 + i * n, n)

/-- Regions 0–3 of a core, which stay fixed (R480). -/
def mpuFixed (core : Nat) : List MpuRegion :=
  [⟨0, 0x10000, false, false, true, none⟩, ⟨(localPart core 0).1, (localPart core 0).2, false, false, true, some 0⟩
   , ⟨(localPart core 1).1, (localPart core 1).2, true, true, false, some 0⟩, ⟨0x80000000, 0x1000, false, true, false, none⟩]

/-- The hardware a component owns: base, size, written as well as read (R478, R479). -/
def ownedHardware (core comp : Nat) : List (Nat × Nat × Bool) :=
  match core, comp with
  | 0, 1 => [(0x30000000, 0x800000, true)]
  | 0, 2 => [(0x30800000, 0x400000, true)]
  | 0, 3 => [(0x30C00000, 0x400000, true), (0x60000000, 0x4000000, true)]
  | 0, 4 => [(0x50000000, 0x10000000, true)]
  | 0, 5 => [(0x30000000, 0x1000000, false), (0x40000000, 0x1000000, true)]
  | 1, 1 => [(0x30000000, 0x1000000, true)]
  | 1, 2 => [(0x40000000, 0x1000000, true)]
  | 1, 3 => [(0x50000000, 0x2000000, true)]
  | 1, 4 => [(0x52000000, 0x2000000, true), (0x54000000, 0x2000000, true), (0x56000000, 0x2000000, true)]
  | 1, 5 => [(0x58000000, 0x2000000, true)]
  | 1, 6 => [(0x60000000, 0x4000000, true), (0x70000000, 0x1000000, true)]
  | _, _ => []

/-- Regions 4–15 as the kernel loads them for a component: its text, its data and stack, its journal area, its hardware (R480); the kernel
itself has none of them. -/
def mpuLoaded (core comp : Nat) : List MpuRegion :=
  let own := some comp
  let j := if core = 0 then (0x20040000 + comp * 0x2000, 0x2000) else (0x20000000 + comp * 0x8000, 0x8000)
  let l : List MpuRegion :=
    if comp = 0 then []
    else [⟨(localPart core (2 * comp)).1, (localPart core (2 * comp)).2, false, false, true, own⟩
          , ⟨(localPart core (2 * comp + 1)).1, (localPart core (2 * comp + 1)).2, true, true, false, own⟩
          , ⟨j.1, j.2, true, true, false, own⟩]
      ++ (ownedHardware core comp).map fun e => ⟨e.1, e.2.1, true, e.2.2, false, own⟩
  (l ++ List.replicate 12 MpuRegion.off).take 12

/-- The 16 regions of a core while a component runs (R480). -/
def mpuRegions (core comp : Nat) : List MpuRegion := mpuFixed core ++ mpuLoaded core comp

/-- The Masthead complex (R477 to R500). -/
structure Mast where
  /-- the regions 0–15 of the memory-protection units of Trim and of Tack (R480) -/
  mpuTrim : List MpuRegion
  mpuTack : List MpuRegion
  trimUp : Bool
  /-- device time at which the running outage of Tack and of Trim began -/
  tackSince : W64
  trimSince : W64
  /-- cause of the running or last restart of each core, as R501 codes it -/
  tackCause : Nat
  trimCause : Nat
  /-- components being restarted: core (0 Trim, 1 Tack) and component -/
  comps : List (Nat × Nat)
  /-- component faults of the last 60 s: core, component, device time -/
  faults : List (Nat × Nat × W64)
  tackRestarts : Nat
  trimRestarts : Nat
  /-- the fallback governor holds the clusters (R490), since a device time -/
  fallback : Bool
  fallbackSince : W64
  /-- consecutive loops of POWER and of THERMAL since the governor engaged -/
  powerLoops : Nat
  thermLoops : Nat
  recovery : Bool
  /-- ActivateFirmware has made the inactive slot pending (R496) -/
  actPending : Bool
  drop : Bool
  /-- writes dropped at the full FIFO and at the full mailbox, not yet in a SHIM_DROP entry -/
  fifoDropped : Nat
  boxDropped : Nat
  /-- slot B runs -/
  slotB : Bool
  slotsAB : SMap FwSlot
  /-- device time both cores last started -/
  bootAt : W64
  svnFloor : Nat
  /-- revoked firmware keys (R494) -/
  revoked : BitVec 4
  update : FwUpdate
  fifo : List HostWrite
  mailbox : List HostWrite
  /-- commands completed TACK_RESTART in the running outage (R501) -/
  lateDone : Nat
  /-- PLDM events pending: sensor and state (R498, R499) -/
  events : List (Nat × Nat)
  /-- threshold state of each sensor, default 0 normal -/
  sensors : SMap Nat
  /-- shadow words of CLK_, PWR_, THM_ and LIF_, by BAR0 offset, default 0 (R489) -/
  shadow : SMap W32
  /-- SPDM: a version, then the algorithms have been negotiated (R500) -/
  spdmVersion : Bool
  spdmAlgo : Bool
  deriving DecidableEq, Repr

/-- A slot with no image. -/
def FwSlot.empty : FwSlot := ⟨[], false, false, false, 0⟩

/-- The Masthead of a device in service: slot A runs the image of manufacture (R484, R497). -/
def Mast.reset : Mast :=
  { mpuTrim := mpuRegions 0 0, mpuTack := mpuRegions 1 0
    trimUp := true, tackSince := 0, trimSince := 0, tackCause := 0, trimCause := 0, comps := [], faults := [], tackRestarts := 0, trimRestarts := 0
    fallback := false, fallbackSince := 0, powerLoops := 0, thermLoops := 0, recovery := false, actPending := false, drop := false
    fifoDropped := 0, boxDropped := 0, slotB := false, slotsAB := [(0, ⟨[], true, false, true, 0⟩)], bootAt := 0, svnFloor := 0
    revoked := 0, update := ⟨0, 0, 0⟩, fifo := [], mailbox := [], lateDone := 0, events := [], sensors := [], shadow := []
    spdmVersion := false, spdmAlgo := false }

/-! ### Clocks, power, temperature and ageing (chapter 15) -/

/-- A cluster's operating point (R512 to R524, R541). -/
structure Cluster where
  point : Nat
  /-- points asked for by the power and the thermal loop (R521, R524), and consecutive loops in which each could step back -/
  powerReq : Nat
  powerGood : Nat
  thermReq : Nat
  thermGood : Nat
  bypass : Bool
  /-- reasons its clock is stopped: 0 power loop, 1 thermal loop, 2 hardware at 105 °C, 3 VIN_MAIN current, 4 the governor at
  100 °C, 5 the governor over a cap -/
  stops : BitVec 6
  /-- device time of its last THROTTLE entry (R524) -/
  throttled : Option W64
  /-- junction, in 0.25 °C -/
  temp : Nat
  /-- margin table in force, P0 to P7 as MHz and mV; empty: the plan of R530 with no drift (R533) -/
  table : List (Nat × Nat)
  /-- D_c at the last levelling, in 0.01 % -/
  driftLevel : Nat
  /-- its regulator fault has not been retried yet (R519) -/
  retry : Bool
  deriving DecidableEq, Repr

/-- A cluster at reset: it runs at P0. -/
def Cluster.reset : Cluster := ⟨0, 0, 0, 0, 0, false, 0, none, 0, [], 0, false⟩

/-- A benchmark (R527, R528): last valid drifts in 0.01 %, newest first, at most 6; samples taken since AUX power-up. -/
structure Bench where
  drifts : List Int
  samples : Nat
  invalid : Nat
  deriving DecidableEq, Repr

/-- A benchmark that has not been sampled. -/
def Bench.zero : Bench := ⟨[], 0, 0⟩

/-- Clocks, power, thermal control and the lifetime store. -/
structure Clk where
  /-- REFCLK present (R505) -/
  refclk : Bool
  /-- CLK_CTRL.REFCLK_SSC, and REFCLK cycles times 250 × SSC counted towards the next added tick (R506) -/
  ssc : Nat
  sscAcc : Nat
  utcValid : Bool
  utcStale : Bool
  /-- last UTC given and the device time of it -/
  utc : W64
  utcAt : W64
  /-- SET_TIMEs since AUX power-up, newest first: UTC and device time (R537) -/
  utcHist : List (W64 × W64)
  refPpm : W32
  /-- CLK_MON as written -/
  mon : W32
  measPll : Nat
  measLog2 : Nat
  measDone : Bool
  measCount : W32
  measRun : Option W64
  /-- CLK_LOCKFAILw and CLK_EXCURw, bit i for PLL i, sticky -/
  lockFail : BitVec 150
  excur : BitVec 150
  /-- PLLs not locked, and failed attempts of the lock in progress, default 0 (R509) -/
  unlocked : SMap Bool
  attempts : SMap Nat
  devCap : Nat
  /-- PWR_PARTp: CAP [31:20], MAXPOINT [18:16], default 0 -/
  partCap : SMap W32
  devCapped : Bool
  partCapped : BitVec 12
  /-- power of the domains in 0.1 W, default 0 (R520) -/
  power : SMap Nat
  /-- domain states: 0 as the domain's kind is when nothing has happened to it, else 1 plus STATE (R541) -/
  domains : SMap Nat
  /-- device time since which a bay belongs to no partition, default 0 (R518) -/
  freeSince : SMap W64
  clusters : SMap Cluster
  throttleIn : Bool
  /-- device time at which the VIN_MAIN stop ends (R522) -/
  vinStop : Option W64
  modelReady : Bool
  modelLoops : Nat
  /-- THM_STICKY [3:0] and TRIP_SOURCE, sticky -/
  thmSticky : BitVec 4
  tripSource : Nat
  /-- THERMTRIP# is latched (R525) -/
  tripped : Bool
  linkTemp : SMap Nat
  hbmTemp : SMap Nat
  refresh2x : BitVec 12
  hbmHot : BitVec 12
  /-- bays whose fabric, memory or link die is lost until PERST# (R510, R519) -/
  baysLost : List Nat
  bench : SMap Bench
  /-- a levelling has been asked for by trigger (R529) -/
  levelWant : List Nat
  lastTrigger : Nat
  levelChanged : Nat
  /-- operating milliseconds at the last levelling -/
  levelAt : Nat
  lifEvents : BitVec 5
  /-- milliseconds with AUX up and with the main rails up since manufacture -/
  auxMs : Nat
  opMs : Nat
  /-- counts of the status record by byte offset (R535), default 0; the cluster times and histograms in milliseconds -/
  life : SMap Nat
  /-- `life` as the last status record was written, with `auxMs` at 0x10 and `opMs` at 0x14: what loss of AUX leaves (R534) -/
  saved : SMap Nat
  /-- per die: present extreme of its temperature, and whether a rise of 40 °C has been seen (R535) -/
  cycle : SMap (Nat × Bool)
  /-- greatest junction temperature of the day by die -/
  dayMax : SMap Nat
  /-- the areas of the lifetime store, newest record first (R534) -/
  status : List (List Byte)
  daily : List (List Byte)
  levelLog : List (List Byte)
  /-- kind (0 retirement, 1 witness mismatch, 2 confirmed check failure, 3 THERMTRIP, 4 PLL failure, 5 domain fault, 6 REFCLK
  loss), device time, subject -/
  history : List (Nat × W64 × Nat)
  timeLog : List (List Byte)
  deriving DecidableEq, Repr

/-- A new device, ready (R533, R540 to R544). -/
def Clk.reset : Clk :=
  { refclk := true, ssc := 0, sscAcc := 0, utcValid := false, utcStale := false, utc := 0, utcAt := 0, utcHist := []
    refPpm := 0x80000000, mon := 4, measPll := 0, measLog2 := 14, measDone := false, measCount := 0, measRun := none
    lockFail := 0, excur := 0, unlocked := [], attempts := [], devCap := 0x898, partCap := [], devCapped := false
    partCapped := 0, power := [], domains := [], freeSince := [], clusters := [], throttleIn := false
    vinStop := none, modelReady := false, modelLoops := 0, thmSticky := 0, tripSource := 0, tripped := false, linkTemp := []
    hbmTemp := [], refresh2x := 0, hbmHot := 0, baysLost := [], bench := [], levelWant := [], lastTrigger := 0
    levelChanged := 0, levelAt := 0, lifEvents := 0, auxMs := 0, opMs := 0, life := [], saved := [], cycle := [], dayMax := [], status := []
    daily := [], levelLog := [], history := [], timeLog := [] }

/-! ### The Cadastre (chapter 16) -/

/-- A tenancy as the Cadastre holds it (R552, R556, R559). -/
structure CadTen where
  tag : W64
  bays : Nat
  openIndex : Nat
  /-- meter time of the opening -/
  start : W64
  /-- attributed energy, µJ -/
  energy : Nat
  acc : BitVec 8
  /-- duration at the last INTERIM record -/
  lastInterim : W64
  /-- duration and energy at the last checkpoint (R557) -/
  ckTime : W64
  ckEnergy : Nat
  deriving DecidableEq, Repr

/-- The Cadastre (R547 to R572). -/
structure Cad where
  meter : W64
  /-- meter time and energies last written to its store (R553) -/
  checkpoint : W64
  ckTotal : Nat
  ckCommon : Nat
  /-- energies since manufacture, since the last whole hour and in the present second, µJ -/
  total : Nat
  common : Nat
  hourTotal : Nat
  hourCommon : Nat
  /-- peak power in the hour, 0.1 W -/
  peak : Nat
  secTotal : Nat
  secCommon : Nat
  /-- milliseconds attributed in the present second, and regulator and VIN_MAIN energies over it, µJ -/
  secMs : Nat
  secReg : Nat
  secVin : Nat
  /-- CAD_POWER, 0.1 W -/
  powerTotal : Nat
  powerCommon : Nat
  tens : SMap (Option CadTen)
  /-- the ledger by slot, default empty (R558) -/
  ledger : SMap (List Byte)
  /-- INDEX of the next record, and the read mark -/
  next : Nat
  mark : Nat
  /-- records waiting for a slot, oldest first, at most 256 (R564): bytes 0x04 to 0x2F of a data record, or the type of a seal record -/
  hold : List (List Byte)
  dropRecords : Nat
  dropDecl : Nat
  /-- declarations dropped in the present second (R562) -/
  declSec : Nat
  /-- records dropped since the last EVENT 0x0014, and the INDEX of the first -/
  droppedNow : Nat
  droppedFirst : Nat
  /-- loss of AUX has cut a seal off: one is due before any new record (R573) -/
  sealDue : Bool
  /-- the chain value H, 48 bytes; empty: H_0 (R561) -/
  chain : List Byte
  /-- data records since the last seal -/
  sinceSeal : Nat
  attrFault : Bool
  badSecs : Nat
  goodSecs : Nat
  ssc : Bool
  sscPpm : Nat
  meterOk : Bool
  calLock : Bool
  events : W32
  address : Nat
  interimH : Nat
  retain : Bool
  /-- last UTC declared, with its meter time (R560) -/
  utc : Option (W64 × W64)
  /-- meter time at power-up, and DEVICE records written since -/
  upAt : W64
  devRecords : Nat
  /-- accuracy flags accumulated in the hour (R559) -/
  hourAcc : BitVec 8
  deriving DecidableEq, Repr

/-- The Cadastre of a new device: CAL_LOCK blown, nothing metered (R567, R572). -/
def Cad.reset : Cad :=
  { meter := 0, checkpoint := 0, ckTotal := 0, ckCommon := 0, total := 0, common := 0, hourTotal := 0, hourCommon := 0, peak := 0, secTotal := 0
    secCommon := 0, secMs := 0, secReg := 0, secVin := 0, powerTotal := 0, powerCommon := 0, tens := [], ledger := []
    next := 0, mark := 0, hold := [], dropRecords := 0, dropDecl := 0, declSec := 0, droppedNow := 0, droppedFirst := 0, sealDue := false, chain := []
    sinceSeal := 0, attrFault := false, badSecs := 0, goodSecs := 0, ssc := false, sscPpm := 0, meterOk := true
    calLock := true, events := 0, address := 0x63, interimH := 1, retain := true, utc := none, upAt := 0, devRecords := 0
    hourAcc := 0 }

/-! ### Package, power-up and test access (chapter 17) -/

/-- A loop-back test of TST_PCIELB or TST_HBMLB (R593, R594, R597). -/
structure Loop where
  done : Bool
  pass : Bool
  aborted : Bool
  depth : Nat
  pattern : Bool
  duration : Nat
  stack : Nat
  errors : W32
  /-- device time at which the running test began; none when no test runs -/
  running : Option W64
  deriving DecidableEq, Repr

/-- The device's lands, rails and power-up, and the TST_ registers (R577 to R597). -/
structure Pkg where
  /-- VDD_AUX in tolerance -/
  auxUp : Bool
  pwrGood : Bool
  /-- PERST# asserted -/
  perst : Bool
  /-- TEST_MODE as sampled (R578) -/
  mode : Nat
  /-- SCAN_EN high has stopped the clocks until PERST# (R578) -/
  scanStop : Bool
  /-- a sequence fault holds every main domain in reset (R581) -/
  seqHold : Bool
  /-- the Masthead is ready (R582) -/
  mastReady : Bool
  /-- the main phase runs or has run since its device time, and the device is ready (R583) -/
  mainStart : Option W64
  ready : Bool
  /-- stacks that failed training since PERST#, by bay (R585) -/
  untrained : List Nat
  /-- the fuse check failed since PERST# (R584) -/
  fusesBad : Bool
  /-- TST_STATUS.JTAG_REFUSED and REFUSED -/
  jtagRefused : Bool
  refused : Bool
  /-- TST_STICKY and TST_HBMFAIL, sticky -/
  sticky : BitVec 4
  hbmFail : BitVec 12
  readyMs : Nat
  hbmMs : Nat
  /-- TST_JTAG.UNLOCK -/
  unlock : Bool
  pcieLb : Loop
  hbmLb : Loop
  /-- TST_CAD: VALID, PASS, WORST_RAIL, WORST_PPM -/
  cadValid : Bool
  cadPass : Bool
  cadRail : Nat
  cadPpm : Nat
  /-- JTAG instruction in force (R588) -/
  ir : Nat
  /-- the PCIe link is in Loopback, directed by the host (R593) -/
  hostLoop : Bool
  deriving DecidableEq, Repr

/-- A device that has powered up without a failure and is ready (R583, R597). -/
def Pkg.reset : Pkg :=
  { auxUp := true, pwrGood := true, perst := false, mode := 0, scanStop := false, seqHold := false, mastReady := true
    mainStart := some 0, ready := true, untrained := [], fusesBad := false, jtagRefused := false, refused := false
    sticky := 0, hbmFail := 0, readyMs := 0, hbmMs := 0, unlock := false
    pcieLb := ⟨false, false, false, 0, false, 0x3E8, 0, 0, none⟩, hbmLb := ⟨false, false, false, 0, false, 0, 0, 0, none⟩
    cadValid := true, cadPass := true, cadRail := 0, cadPpm := 0, ir := 1, hostLoop := false }

/-! ### What the device sends out -/

/-- A message to the world outside the device. -/
inductive Msg where
  /-- a posted write to host memory at a bus address; `poisoned` marks a poisoned TLP, `relaxed` Relaxed Ordering (R259, R59) -/
  | hostWrite (addr : Nat) (bytes : List Byte) (poisoned relaxed : Bool)
  /-- MSI-X vector of a function: function 0 is physical, p + 1 presents partition p (R401, R411) -/
  | msix (function vector : Nat)
  /-- a completion returned to the gang lead over VC5 (R432) -/
  | memberCompletion (part : Nat) (c : Completion)
  /-- a read request to host memory: function, tag, bus address, bytes (R259, R260) -/
  | hostRead (function tag addr len : Nat)
  /-- a completion of a host read through a BAR: function, bytes, poisoned (R250, R253) -/
  | barData (function : Nat) (bytes : List Byte) (poisoned : Bool)
  /-- the identity frame this end sends as link `n` trains: serial number, link, LNK_COORD, role and port (R276, R282) -/
  | identity (link : Nat) (serial : W64) (coord : W32) (role port : Nat)
  /-- a one-flit VC4 message, 240 data bytes at most, and the links it leaves on (R312, R313) -/
  | vc4 (links : List Nat) (data : List Byte)
  /-- a collective message of partition `part` to rank `rank` of its entry's group, or to neighbour PEER of a SEND as
  256 + PEER (R306, R340) -/
  | coll (part rank : Nat) (m : CollMsg)
  /-- this partition's exchange record, in its collective epoch (R295, R310) -/
  | exchange (part : Nat) (epoch : W32) (r : ExchRec)
  /-- a coordinator or unit message on VC5, by name (R372, R382) -/
  | vc5 (part : Nat) (what : String)
  /-- a message of backup execution on VC6, by name, with the collective epoch (R295, R386, R387) -/
  | vc6 (part : Nat) (epoch : W32) (what : String)
  /-- a warp or stay segment message on VC3 to a position, as a shard identity; SEG_CHECK counts in the last one (R369) -/
  | segment (part dest move segment offset : Nat) (epoch : W32) (cls : SegClass) (last : Bool) (check : W32) (bytes : List Byte)
  /-- a write to a mirrored region, for the backup position, on VC6 with the collective epoch (R385) -/
  | mirror (part dest addr : Nat) (epoch : W32) (bytes : List Byte)
  /-- a SPILL's row for gang member `m` at an offset of the lend region (R137) -/
  | spill (part member offset : Nat) (bytes : List Byte) (poisoned : List Nat)
  /-- an entry for a stage queue on another device, with the ring slot and the collective epoch (R295, R344) -/
  | stageEntry (part queueId slot : Nat) (epoch : W32) (bytes : List Byte) (poisoned : List Nat)
  /-- a credit of a stage queue, for its producer on another device, with the collective epoch (R295, R344) -/
  | stageCredit (part queueId credits : Nat) (epoch : W32)
  /-- what a gang member's PFX reads in this partition's lend regions: the member, the bytes, the words poisoned (R137, R264, R265) -/
  | lendData (part member : Nat) (bytes : List Byte) (poisoned : List Nat)
  /-- a gang member's PFX or SPILL lies outside the lend region, or names another lend epoch (R264) -/
  | lendRefused (part member : Nat) (lost : Bool)
  /-- a completion of a read or write of BAR4 or a CAD pin reply: status byte and data (R570) -/
  | cadReply (bytes : List Byte)
  /-- an answer over MCTP or DOE: PLDM Type 2 or 5 or SPDM message code and bytes (R495, R499, R500) -/
  | mctp (code : Nat) (bytes : List Byte)
  /-- a PlatformEventMessage: sensor and state (R499) -/
  | pldmEvent (sensor state : Nat)
  /-- a message forwarded whole on a virtual channel towards a position, as a shard identity, on one of some links (R278, R367) -/
  | relay (links : List Nat) (vc dest : Nat) (data : List Byte)
  /-- bits shifted out at TDO: register length and value (R587) -/
  | tdo (length : Nat) (value : W32)
  /-- flits on a Balca link: DATA, ACK, NAK or IDLE, by link (R285 to R288) -/
  | flit (link : Nat) (f : Flit)
  deriving DecidableEq, Repr

/-! ### The device -/

/-- The state of the device. -/
structure State where
  /-- commands waiting, first in, first out -/
  pending : List Instr
  /-- device time (R11) -/
  time : W64
  /-- messages sent, newest first -/
  out : List Msg
  /-- tiles by PHYS_ID (R13), default `Tile.reset` -/
  tiles : SMap Tile
  /-- HBM: byte `off` of stack n at n × 2^36 + off, default 0 -/
  hbm : SMap Byte
  /-- errors of a beat, beat b at address ÷ 32: the number of bad symbols up to 2, from 3 on the pattern of three or more;
  default 0 (R251) -/
  hbmErr : SMap Nat
  /-- poisoned beats, default false (R252) -/
  hbmPoison : SMap Bool
  /-- next beat the scrubber of a stack reads, by bay, default 0 (R254) -/
  hbmScrub : SMap Nat
  /-- descriptor slots held, engine e of bay n at 4 n + e, default 0 (R256) -/
  engines : SMap Nat
  parts : SMap Part
  sigs : List SigMsg
  stageMsgs : List StageMsg
  book : FieldBook
  links : SMap Link
  capstans : SMap Capstan
  /-- numbers the model's free choices (FREE VALUE counter; the model's own field) -/
  free : Nat
  /-- LNK_COORD (R325) -/
  coord : W32
  adm : Admission
  /-- partitions whose dump runs (first) or is queued (R448) -/
  dumps : List Nat
  check : DevCheck
  /-- the PCIe link is in DL_Up -/
  dlUp : Bool
  /-- declarations waiting in the Cadastre's FIFO, at most 32 (R557) -/
  decls : List CadDecl
  /-- the member index a hot spare has taken (R381) -/
  spareAs : Option Nat
  /-- positions, as shard identities, whose place their gang's hot spare has taken: traffic for them is relayed (R278, R381) -/
  relayed : List Nat
  /-- relayed messages sent so far: the next takes the next gang port in turn (R278) -/
  stripe : Nat
  /-- the Tack core and its components run (R481, R487) -/
  tackUp : Bool
  mast : Mast
  clk : Clk
  cad : Cad
  pkg : Pkg
  /-- LNK_VCWEIGHT and LNK_LOSS (R326) -/
  vcWeight : W32
  lossMs : Nat
  /-- LNK_SSCg as written and as in force, default 0 (R281, R327) -/
  lnkSsc : SMap W32
  sscForce : SMap W32
  /-- high halves latched by reads of low halves, and low halves written whose high half is still to come: function × 2^32 + BAR0
  offset of the 64-bit register (R16) -/
  latchRead : SMap (Option W32)
  latchWrite : SMap (Option W32)
  /-- NUM_WINDOW of the physical function (R238) -/
  pfWindow : W32
  /-- by function: 0 physical, p + 1 presents partition p -/
  pci : SMap PciFn
  deriving DecidableEq, Repr

/-- Why the machine stops with a fault: it has no constructor, for no command of the device stops it. Every fault the manual
describes (of a strand, a partition, a link, the Masthead, a supply) is a state the device goes on from. -/
inductive Fault where
  deriving DecidableEq, Repr

/-- Why a command is refused. -/
inductive Refusal where
  /-- kept for an arm of `exec` whose command has no meaning; every command has one, so nothing raises it; safe -/
  | notModelled (mnemonic : String)
  deriving DecidableEq, Repr

/-- The outcome of a command. -/
abbrev Out := Host.Outcome State Fault Refusal

/-- The device after reset. -/
def State.reset : State :=
  { pending := [], time := 0, out := [], tiles := [], hbm := [], hbmErr := [], hbmPoison := [], hbmScrub := [], engines := [],
    parts := [], sigs := [], stageMsgs := [], book := .reset, links := [], capstans := []
    free := 0, coord := 0, adm := .reset, dumps := [], check := .reset, dlUp := true, tackUp := true
    decls := [], spareAs := none, relayed := [], stripe := 0, mast := .reset, clk := .reset
    cad := .reset, pkg := .reset, vcWeight := 0x00212488, lossMs := 20, lnkSsc := [], sscForce := [], latchRead := [], latchWrite := [], pfWindow := 0, pci := [] }

end Sys2Proof.Machine
end

