-- ==== Sys2Proof/Machine/Word128.lean ====
section
/-! DEFINITION. The fields of the 128-bit instruction word (R83) and of the class encodings. -/

namespace Sys2Proof.Machine

/-- Bits [hi:lo] of an instruction word, as a number. -/
def wf (w : IWord) (hi lo : Nat) : Nat := bitsOf w.toNat hi lo

/-- OPC, the major opcode (R83). -/
def opcOf (w : IWord) : Nat := wf w 127 120
/-- XT (R83): the minor function FN, or site[15:8]. -/
def xtOf (w : IWord) : Nat := wf w 119 112
/-- PCOND (R83, R86). -/
def pcondOf (w : IWord) : Nat := wf w 111 108
/-- PNEG (R83). -/
def pnegOf (w : IWord) : Nat := wf w 107 107
/-- FLAGS, bits [106:104] (R83). -/
def flagsOf (w : IWord) : Nat := wf w 106 104
/-- FLAGS[106]. -/
def fl106 (w : IWord) : Bool := decide (wf w 106 106 = 1)
/-- FLAGS[105]. -/
def fl105 (w : IWord) : Bool := decide (wf w 105 105 = 1)
/-- FLAGS[104]. -/
def fl104 (w : IWord) : Bool := decide (wf w 104 104 = 1)
/-- SD (R83). -/
def sdOf (w : IWord) : Nat := wf w 103 96
/-- SA (R83). -/
def saOf (w : IWord) : Nat := wf w 95 88
/-- SB (R83). -/
def sbOf (w : IWord) : Nat := wf w 87 80
/-- SC (R83). -/
def scOf (w : IWord) : Nat := wf w 79 72
/-- XL (R83). -/
def xlOf (w : IWord) : Nat := wf w 71 64
/-- IMM (R83). -/
def immOf (w : IWord) : W64 := BitVec.ofNat 64 w.toNat
/-- Bits [hi:lo] of IMM, as a number. -/
def immf (w : IWord) (hi lo : Nat) : Nat := wf w hi lo
/-- The numerics site number of a site-bearing instruction (R83). -/
def siteOf (w : IWord) : Nat := 256 * xtOf w + xlOf w
/-- The word with major opcode `opc` and body `b`. -/
def wordOf (opc : Nat) (b : IBody) : IWord := BitVec.ofNat 128 (opc * 2 ^ 120 + b.toNat)

/-- The path and issue class of an opcode (R64, R111). -/
inductive QueueKind where
  | none | matrix | vector | move | coll
  deriving DecidableEq, Repr

/-- The issue queue an instruction word needs (R64, R111). -/
def queueOf (w : IWord) : QueueKind :=
  let o := opcOf w
  if 0x40 ≤ o ∧ o ≤ 0x43 then .matrix
  else if 0x50 ≤ o ∧ o ≤ 0x5C then .vector
  else if 0x80 ≤ o ∧ o ≤ 0x89 then .move
  else if o = 0x90 ∨ o = 0x9A then .coll
  else if o = 0x98 ∧ (xtOf w = 1 ∨ xtOf w = 2) then .vector
  else .none

/-- Is an opcode reserved or illegal (R85, R111)? -/
def opcReserved (o : Nat) : Bool :=
  !(decide (0x01 ≤ o ∧ o ≤ 0x10) || decide (0x20 ≤ o ∧ o ≤ 0x26) || decide (0x30 ≤ o ∧ o ≤ 0x33)
    || decide (0x40 ≤ o ∧ o ≤ 0x43) || decide (0x50 ≤ o ∧ o ≤ 0x5C) || decide (0x80 ≤ o ∧ o ≤ 0x82)
    || decide (o = 0x88) || decide (o = 0x89) || decide (o = 0x90) || decide (o = 0x91)
    || decide (0x98 ≤ o ∧ o ≤ 0x9A))

/-! ### Scalar specifiers (R84) -/

/-- May a specifier be a scalar source? -/
def srcOk (x : Nat) : Bool :=
  decide (x ≤ 0x0F) || decide (0x40 ≤ x ∧ x ≤ 0x4F) || decide (x = 0x80) || decide (x = 0x81) || decide (x = 0x82)
    || decide (x = 0xC0)

/-- May a specifier be a scalar destination? -/
def dstOk (x : Nat) : Bool :=
  decide (x ≤ 0x0F) || decide (0x40 ≤ x ∧ x ≤ 0x4F) || decide (x = 0x80) || decide (x = 0x81)

/-- An S or G register. -/
def regOk (x : Nat) : Bool := decide (x ≤ 0x0F) || decide (0x40 ≤ x ∧ x ≤ 0x4F)

/-- An S or G register or ZERO. -/
def regOrZero (x : Nat) : Bool := regOk x || decide (x = 0x80)

/-- One of S0–S15, or 0x80 (R120). -/
def sregOrNone (x : Nat) : Bool := decide (x ≤ 0x0F) || decide (x = 0x80)

/-! ### Vector specifiers (R112) -/

/-- The kinds of vector operand. -/
inductive VKind where
  | scalar | vt (n : Nat) | pair (n : Nat) | rsMax (n : Nat) | rsSum (n : Nat) | zero | imm | bad
  deriving DecidableEq, Repr

/-- The operand a vector specifier names (R112). -/
def vkind (x : Nat) : VKind :=
  if x ≤ 0x0F ∨ (0x40 ≤ x ∧ x ≤ 0x4F) then .scalar
  else if 0x20 ≤ x ∧ x ≤ 0x3F then .vt (x - 0x20)
  else if 0x60 ≤ x ∧ x ≤ 0x7E ∧ x % 2 = 0 then .pair (x - 0x60)
  else if x = 0x80 then .zero
  else if 0xA0 ≤ x ∧ x ≤ 0xBF then .rsMax (x - 0xA0)
  else if x = 0xC0 then .imm
  else if 0xE0 ≤ x then .rsSum (x - 0xE0)
  else .bad

/-- A broadcast source (R123). -/
def VKind.isBroadcast : VKind → Bool
  | .scalar | .zero | .imm => true
  | _ => false

/-- An RS column. -/
def VKind.isRs : VKind → Bool
  | .rsMax _ | .rsSum _ => true
  | _ => false

/-- A VT register or a pair. -/
def VKind.isFull : VKind → Bool
  | .vt _ | .pair _ => true
  | _ => false

/-- May it be a vector destination? -/
def VKind.isDst : VKind → Bool
  | .vt _ | .pair _ | .rsMax _ | .rsSum _ => true
  | _ => false

/-- Is it a listed operand at all? -/
def VKind.ok : VKind → Bool
  | .bad => false
  | _ => true

/-! ### Predicates (R86) -/

/-- The flags Z, N, C, V, U of a comparison. -/
structure Flags where
  z : Bool
  n : Bool
  c : Bool
  v : Bool
  u : Bool
  deriving DecidableEq, Repr

/-- The flags in a condition word (R62). -/
def flagsOfCw (cw : W32) : Flags :=
  ⟨cw.getLsbD 0, cw.getLsbD 1, cw.getLsbD 2, cw.getLsbD 3, cw.getLsbD 4⟩

/-- Is condition code `c` true of flags `f`, with codes 0xA to 0xF read from condition word `cw` (R86, R93)? -/
def condHolds (c : Nat) (f : Flags) (cw : W32) : Bool :=
  match c with
  | 0x0 => true
  | 0x1 => f.z
  | 0x2 => !f.z
  | 0x3 => f.n != f.v
  | 0x4 => f.n == f.v
  | 0x5 => f.c
  | 0x6 => !f.c
  | 0x7 => f.z || (f.n != f.v)
  | 0x8 => !f.z && (f.n == f.v)
  | 0x9 => f.u
  | 0xA => cw.getLsbD 8
  | 0xB => cw.getLsbD 9
  | 0xC => cw.getLsbD 11
  | 0xD => cw.getLsbD 10
  | 0xE => cw.getLsbD 16
  | _ => cw.getLsbD 17

/-- Does the word's predicate hold on condition word `cw` (R86)? -/
def predHolds (w : IWord) (cw : W32) : Bool :=
  xor (condHolds (pcondOf w) (flagsOfCw cw) cw) (decide (pnegOf w = 1))

/-- The RW fields of the condition word (R62). -/
def cwMask : W32 := 0x00030F1F

end Sys2Proof.Machine
end

