-- ==== Sys2Proof/Machine/Ops.lean ====
section
/-! DEFINITION. The named operations over registers, tile storage, partitions and HBM, and taking a tile fault. Every
meaning reads and writes the state through these. -/

namespace Sys2Proof.Machine

/-! ### Fault codes (R442) -/

/-- CMD_TIMEOUT. -/
def cCmdTimeout : Nat := 0x10
/-- COLL_ABORT. -/
def cCollAbort : Nat := 0x11
/-- PEER_LOST. -/
def cPeerLost : Nat := 0x12
/-- ACC_COLLISION. -/
def cAccCollision : Nat := 0x20
/-- ACC_DEPTH. -/
def cAccDepth : Nat := 0x21
/-- ILLEGAL_INSTR. -/
def cIllegal : Nat := 0x22
/-- STORE_BOUNDS. -/
def cBounds : Nat := 0x23
/-- FORMAT_MISMATCH. -/
def cFormat : Nat := 0x24
/-- ECC_UNCORRECTABLE. -/
def cEcc : Nat := 0x30
/-- HBM_POISON. -/
def cPoison : Nat := 0x32

/-! ### Bytes (R10) -/

/-- Little-endian value of bytes (R10). -/
def leNat : List Byte → Nat
  | [] => 0
  | b :: bs => b.toNat + 256 * leNat bs

/-- The `n` low bytes of a number, little-endian (R10). -/
def leBytes (n v : Nat) : List Byte := (List.range n).map fun i => BitVec.ofNat 8 (v >>> (8 * i))

/-! ### Geometry (R13, R25) -/

/-- The bay of a physical tile. -/
def bayOf (t : Nat) : Nat := 3 * (t / 1024) + (t / 32 % 32) / 8

/-- The cluster of a physical tile. -/
def clusterOf (t : Nat) : Nat := 30 * (t / 1024) + 5 * ((t / 32 % 32) / 4) + (t % 32) / 5

/-- Does a number name a physical tile? -/
def isTile (t : Nat) : Bool := decide (t < 4096) && decide (t / 32 % 32 < 24) && decide (t % 32 < 25)

/-- The physical tiles of a bay, in row-major order (R69). -/
def bayTiles (b : Nat) : List Nat :=
  ((List.range 8).map fun r => (List.range 25).map fun c => 1024 * (b / 3) + 32 * (8 * (b % 3) + r) + c).flatten

/-- Add to a count of the lifetime store, by its offset in the status record (R535). -/
def State.lifeAdd (s : State) (off n : Nat) : State :=
  if n = 0 then s else { s with clk := { s.clk with life := mmod 0 s.clk.life off (· + n) } }

/-! ### Tiles -/

/-- Tile `t`. -/
def State.tile (s : State) (t : Nat) : Tile := mget Tile.reset s.tiles t

/-- Write tile `t`. -/
def State.setTile (s : State) (t : Nat) (x : Tile) : State := { s with tiles := mset Tile.reset s.tiles t x }

/-- Change tile `t` by `f`. -/
def State.modTile (s : State) (t : Nat) (f : Tile → Tile) : State := s.setTile t (f (s.tile t))

/-- Strand `k` of a tile. -/
def Tile.strand (x : Tile) (k : Nat) : Strand := mget Strand.reset x.strands k

/-- Write strand `k` of a tile. -/
def Tile.setStrand (x : Tile) (k : Nat) (v : Strand) : Tile := { x with strands := mset Strand.reset x.strands k v }

/-- Change strand `k` of a tile. -/
def Tile.modStrand (x : Tile) (k : Nat) (f : Strand → Strand) : Tile := x.setStrand k (f (x.strand k))

/-- Change strand `k` of tile `t`. -/
def State.modStrand (s : State) (t k : Nat) (f : Strand → Strand) : State :=
  s.modTile t fun x => x.modStrand k f

/-- Slot descriptor `n`. -/
def Tile.slot (x : Tile) (n : Nat) : SlotDesc := mget SlotDesc.reset x.slots n

/-- Write slot descriptor `n`. -/
def Tile.setSlot (x : Tile) (n : Nat) (d : SlotDesc) : Tile := { x with slots := mset SlotDesc.reset x.slots n d }

/-- Accumulator entry `e` of slot `n`. -/
def Tile.entry (x : Tile) (n e : Nat) : Entry := mget Entry.zero x.acc (1024 * n + e)

/-- Element `e` of VT register `n`. -/
def Tile.vtElem (x : Tile) (n e : Nat) : BitVec 16 := mget 0 x.vt (1024 * n + e)

/-- Element `e` of the pair VTn:n+1 (R53). -/
def Tile.pairElem (x : Tile) (n e : Nat) : BitVec 32 :=
  BitVec.ofNat 32 ((x.vtElem n e).toNat + 65536 * (x.vtElem (n + 1) e).toNat)

/-- Byte `i` of VT register `n` (R156). -/
def Tile.vtByte (x : Tile) (n i : Nat) : Byte := BitVec.ofNat 8 ((x.vtElem n (i / 2)).toNat >>> (8 * (i % 2)))

/-- Row maximum: row `r` of RSn. -/
def Tile.rowMax (x : Tile) (n r : Nat) : W32 := mget 0xFF800000 x.rsMax (32 * n + r)

/-- Row sum: row `r` of RSn. -/
def Tile.rowSum (x : Tile) (n r : Nat) : W32 := mget 0 x.rsSum (32 * n + r)

/-- Signal counter `n`. -/
def Tile.counter (x : Tile) (n : Nat) : W32 := mget 0 x.sc n

/-- Add to signal counter `n`, modulo 2^32 (R97). -/
def Tile.addCounter (x : Tile) (n : Nat) (v : W32) : Tile := { x with sc := mmod 0 x.sc n (· + v) }

/-- The open generation of barrier group `g`, if any (R99). -/
def Tile.barGroup (x : Tile) (g : Nat) : Option BarGroup := mget none x.bars g

/-- A strand's operations in the vector queue and engine. -/
def Tile.vecOps (x : Tile) (k : Nat) : List QOp :=
  (x.vq ++ x.vrun.map (·.op)).filter fun o => decide (o.strand = k)

/-- A strand's operations in the matrix queue, the array and port B. -/
def Tile.matOps (x : Tile) (k : Nat) : List QOp :=
  (x.mq ++ x.arr.map (·.op) ++ (match x.portB with
    | some (.accrd o _ _ _ _) => [o]
    | some (.accclr o) => [o]
    | none => [])).filter fun o => decide (o.strand = k)

/-- A strand's movement and stage-queue operations, queued or under way. -/
def Tile.moveOps (x : Tile) (k : Nat) : List QOp :=
  (x.xq ++ x.xrun).filter fun o => decide (o.strand = k)

/-- Is a tile frozen, by its own fault or by its partition's freeze (R108, R445)? -/
def Tile.frozen (x : Tile) : Bool := x.capture.isSome || x.halted

/-! ### Partitions -/

/-- Partition `p`. -/
def State.part (s : State) (p : Nat) : Part := mget Part.reset s.parts p

/-- Write partition `p`. -/
def State.setPart (s : State) (p : Nat) (x : Part) : State := { s with parts := mset Part.reset s.parts p x }

/-- Change partition `p` by `f`. -/
def State.modPart (s : State) (p : Nat) (f : Part → Part) : State := s.setPart p (f (s.part p))

/-- Change the numerics unit of partition `p`. -/
def State.modNum (s : State) (p : Nat) (f : Numerics → Numerics) : State :=
  s.modPart p fun x => { x with num := f x.num }

/-- The partition that owns bay `b`, if any. -/
def State.ownerOfBay (s : State) (b : Nat) : Option Nat :=
  (List.range 12).find? fun p => (s.part p).exist && (s.part p).bays.contains b

/-- The partition a tile belongs to, if any. -/
def State.partOf (s : State) (t : Nat) : Option Nat := s.ownerOfBay (bayOf t)

/-- The physical tile of logical tile `n`; none at or above the enabled count (R71). -/
def Part.physOf (x : Part) (n : Nat) : Option Nat :=
  let e := mget 0 x.remap n
  if decide (n < x.tiles) && e.getLsbD 31 then some (e.toNat % 4096) else none

/-- The logical number of physical tile `t` in a partition (R71). -/
def Part.logicalOf (x : Part) (t : Nat) : Option Nat :=
  (x.remap.find? fun e => e.2.getLsbD 31 && decide (e.2.toNat % 4096 = t)).map (·.1)

/-- Is the tile a spare in service (R71, R75)? -/
def Part.isSpare (x : Part) (t : Nat) : Bool :=
  x.remap.any fun e => e.2.getLsbD 31 && e.2.getLsbD 30 && decide (e.2.toNat % 4096 = t)

/-- The physical tiles a partition's remap table names, by logical number. -/
def Part.enabled (x : Part) : List Nat := (x.remap.filter fun e => e.2.getLsbD 31).map fun e => e.2.toNat % 4096

/-- Partition HBM size in bytes (R247). -/
def Part.hbmSize (x : Part) : Nat := x.bays.length * 48 * 2 ^ 30

/-- Does the fault record hold a fault (R32)? -/
def Part.faulted (x : Part) : Bool := x.fault.valid

/-- Has the partition started work it may still do: it exists, holds no fault and none is being taken (R445)? -/
def Part.sound (x : Part) : Bool := x.exist && !x.fault.valid && x.pend.isEmpty && x.resetting.isNone

/-- Detect a partition fault that names no tile (R441). -/
def State.partFault (s : State) (p code : Nat) (orig : Bool) (addr detail : W64) : State :=
  s.modPart p fun y => { y with
    pend := y.pend ++ [⟨code, orig, none, addr, detail, s.time, none,
      if orig && y.stepOpen then some y.caps.epoch else none⟩] }

/-- The loaded variant, if any. -/
def Part.cur (x : Part) : Option Variant :=
  match x.image, x.variant with
  | some im, some v => (im.variants.find? fun e => decide (e.1 = v)).map (·.2)
  | _, _ => none

/-! ### Positions (R325, R332) -/

/-- X, Y and Z of a position word (R325). -/
def coordX (c : W32) : Nat := c.toNat % 8
/-- Y. -/
def coordY (c : W32) : Nat := c.toNat / 256 % 32
/-- Z. -/
def coordZ (c : W32) : Nat := c.toNat / 65536 % 32
/-- SPARE. -/
def coordSpare (c : W32) : Bool := c.getLsbD 31

/-- A position word. -/
def mkCoord (x y z : Nat) : W32 := BitVec.ofNat 32 (x + y * 256 + z * 65536)

/-- Stage of the device in a variant's box: its Y offset (R332). -/
def State.stageOf (s : State) (v : Variant) : Nat := (coordY s.coord + 32 - v.y0) % 32

/-- Replica of the device: its Z offset (R332). -/
def State.replicaOf (s : State) (v : Variant) : Nat := (coordZ s.coord + 32 - v.z0) % 32

/-! ### Taking a tile fault (R106 to R108) -/

/-- What a fault reports, beside what the tile knows (R107). -/
structure FaultInfo where
  code : Nat
  precise : Bool
  fetch : Bool
  strand : Option Nat
  pc : W32
  instr : IWord
  addr : W64
  trapNo : Nat
  /-- FLT_CTX_DETAIL (R443) -/
  detail : W64
  deriving DecidableEq, Repr

/-- The four fields of FLT_CTX_DETAIL (R443). -/
def detailOf (a b c d : Nat) : W64 := BitVec.ofNat 64 (a * 2 ^ 56 + b * 2 ^ 48 + c * 2 ^ 32 + d)

/-- ADDR of a capture: KIND in [63:60], the address below (R107). -/
def faultAddr (kind : Nat) (a : Nat) : W64 := BitVec.ofNat 64 (kind * 2 ^ 60 + a % 2 ^ 60)

/-- Tile `t` takes a fault: the first produces the capture and freezes the tile with the strand FAULTED; a later one
only increments LATER, saturating (R107, R108). A strand that has halted and whose accepted operation then takes an imprecise fault is
FAULTED too, as R108 says of the faulting strand (DEDUCED: R103's table has no row from INACTIVE; log 182). -/
def State.tileFault (s : State) (t : Nat) (f : FaultInfo) : State :=
  let x := s.tile t
  match x.capture with
  | some c => s.setTile t { x with capture := some { c with later := min 255 (c.later + 1) } }
  | none =>
    let k := f.strand.getD 0
    let c : Capture :=
      { code := f.code, precise := f.precise, fetch := f.fetch, noStrand := f.strand.isNone, strand := k
        station := if f.strand.isSome then (x.strand k).station else 0
        physId := t
        logical := match s.partOf t with
          | some p => ((s.part p).logicalOf t).getD 0
          | none => 0
        pc := f.pc, instr := if f.fetch then 0 else f.instr, addr := f.addr, trapNo := f.trapNo
        time := s.time, later := 0 }
    let x := { x with capture := some c }
    let s := s.setTile t (if f.strand.isSome then x.modStrand k fun v => { v with sched := .faulted } else x)
    match s.partOf t with
    | some p => s.modPart p fun y => { y with
        pend := y.pend ++ [⟨f.code, true, some t, f.addr, f.detail, s.time, none,
          if y.stepOpen then some y.caps.epoch else none⟩] }
    | none => s

/-- A precise fault on the issuing strand (R106). -/
def State.precise (s : State) (t k : Nat) (w : IWord) (code : Nat) (addr : W64) : State :=
  s.tileFault t ⟨code, true, false, some k, ((s.tile t).strand k).pc, w, addr, 0, 0⟩

/-- A precise ECC_UNCORRECTABLE of storage unit `unit`, which DETAIL names (R59, R443). -/
def State.preciseEcc (s : State) (t k : Nat) (w : IWord) (unit : Nat) (addr : W64) : State :=
  s.tileFault t ⟨cEcc, true, false, some k, ((s.tile t).strand k).pc, w, addr, 0, detailOf unit 0 0 0⟩

/-- An imprecise fault of an accepted operation: the PC and word the queue entry carries (R106). -/
def State.imprecise (s : State) (t : Nat) (o : QOp) (code : Nat) (addr : W64) : State :=
  s.tileFault t ⟨code, false, false, some o.strand, o.pc, o.word, addr, 0, 0⟩

/-- An imprecise fault of an accepted operation with its FLT_CTX_DETAIL (R106, R443). -/
def State.impreciseAs (s : State) (t : Nat) (o : QOp) (code : Nat) (addr detail : W64) : State :=
  s.tileFault t ⟨code, false, false, some o.strand, o.pc, o.word, addr, 0, detail⟩

/-- An imprecise ECC_UNCORRECTABLE of storage unit `unit`, or of a die crossing (8), which DETAIL names (R59, R68, R443). -/
def State.impreciseEcc (s : State) (t : Nat) (o : QOp) (unit : Nat) (addr : W64) : State :=
  s.impreciseAs t o cEcc addr (detailOf unit 0 0 0)

/-! ### The field book and sticky faults (R444, R462) -/

/-- A field-book entry goes to L0: at most 256 wait; a further one is dropped and counted (R462). -/
def State.bookEntry (s : State) (type part code flags : Nat) (payload : List Byte) : State :=
  let b := s.book
  if 256 ≤ b.waiting.length then
    { s with book := { b with
        overrun := true
        dropped := BitVec.ofNat 32 (min (2 ^ 32 - 1) (b.dropped.toNat + 1)) } }
  else { s with book := { b with waiting := b.waiting ++ [⟨0, type, part, code, flags, s.time, payload⟩] } }

/-- Set FLT_STICKY bit `i` of partition `p` (R444). -/
def State.sticky (s : State) (p i : Nat) : State :=
  s.modPart p fun x => { x with fltSticky := x.fltSticky ||| BitVec.ofNat 8 (2 ^ i) }

/-! ### Storage errors (R59) -/

/-- What reading a protected word gives (R59). -/
inductive EccOut where
  | ok | corrected | bad | wrong
  deriving DecidableEq, Repr

/-- The outcome for error `n` of a word: none, one bad bit, two, or one of the patterns of three or more, numbered from 3; which of those
are detected is a free choice (R59, R251). -/
def eccOut (n : Nat) : EccOut :=
  match n with
  | 0 => .ok
  | 1 => .corrected
  | 2 => .bad
  | _ => if Config.wideErrorDetected n then .bad else .wrong

/-- The key of word `w` of storage unit `u`. -/
def eccKey (u w : Nat) : Nat := u * 2 ^ 20 + w

/-- The outcomes of reading `n` words of unit `u` from word `w`. -/
def Tile.eccRange (x : Tile) (u w n : Nat) : List EccOut :=
  if x.ecc.isEmpty then [] else (List.range n).map fun j => eccOut (mget 0 x.ecc (eccKey u (w + j)))

/-- The first uncorrectable word of a range, as an index from its start. -/
def Tile.firstBad (x : Tile) (u w n : Nat) : Option Nat :=
  let r := (x.eccRange u w n).findIdx (fun o => decide (o = .bad))
  if r < (x.eccRange u w n).length then some r else none

/-- The first uncorrectable word of a list of words, each as unit and word. -/
def Tile.badWord (x : Tile) (ws : List (Nat × Nat)) : Option (Nat × Nat) :=
  if x.ecc.isEmpty then none else ws.find? fun e => decide (eccOut (mget 0 x.ecc (eccKey e.1 e.2)) = .bad)

/-- Whole words written carry new check bits: their errors are gone (R59). -/
def Tile.clearEcc (x : Tile) (u w n : Nat) : Tile :=
  if x.ecc.isEmpty then x else { x with ecc := mclear x.ecc (eccKey u w) (eccKey u (w + n)) }

/-- `w` with its 32-bit word `i` replaced by `v`. -/
def setLane (w i v : Nat) : Nat := w - w / 2 ^ (32 * i) % 2 ^ 32 * 2 ^ (32 * i) + v % 2 ^ 32 * 2 ^ (32 * i)

/-- Half `i` of a 64-bit register replaced by `v`. -/
def setHalf (r : W64) (i v : Nat) : W64 := BitVec.ofNat 64 (setLane r.toNat i v)

/-- Word `j` of a strand context replaced by `v`. The context is laid out as S0 to S15 in two words each, the PC, the condition word,
and the fetch buffer in four words an instruction (DESIGN CHOICE, log 149: the spec gives no layout). -/
def Strand.putWord (c : Strand) (j v : Nat) : Strand :=
  if j < 32 then { c with s := mmod 0 c.s (j / 2) fun r => setHalf r (j % 2) v }
  else if j = 32 then { c with pc := BitVec.ofNat 32 v }
  else if j = 33 then { c with cw := BitVec.ofNat 32 v }
  else { c with fbuf := c.fbuf.modify ((j - 34) / 4) fun w => BitVec.ofNat 128 (setLane w.toNat ((j - 34) % 4) v) }

/-- A first-special index as its 32-bit word holds it: bit 31 says that there is one. -/
def indexOfWord (v : Nat) : Option Nat := if v / 2 ^ 31 = 1 then some (v % 65536) else none

/-- The 32-bit words of a drain entry (R41, R49). -/
def drainWords : Nat := 578

/-- Word `j` of a drain entry replaced by `v`: its data, its row maxima, its row sums, and two words that hold FORMAT, STRAND, SLOT and the
four flags from bit 0 up, and FIRST_ELEM and FIRST_K (DESIGN CHOICE: R49 gives the fields no layout; log 181). -/
def Drain.putWord (d : Drain) (j v : Nat) : Drain :=
  if j < 512 then { d with data := msetList 0 d.data (4 * j) (leBytes 4 v) }
  else if j < 544 then { d with rowMax := mset 0 d.rowMax (j - 512) (BitVec.ofNat 32 v) }
  else if j < 576 then { d with rowSum := mset 0 d.rowSum (j - 544) (BitVec.ofNat 32 v) }
  else if j = 576 then
    { d with
      format := v % 2 ^ 8, strand := v / 2 ^ 8 % 2 ^ 9, slot := v / 2 ^ 17 % 16, nanInf := decide (v / 2 ^ 21 % 2 = 1)
      accSat := decide (v / 2 ^ 22 % 2 = 1), rowMaxValid := decide (v / 2 ^ 23 % 2 = 1), rowSumValid := decide (v / 2 ^ 24 % 2 = 1) }
  else { d with firstElem := v % 2 ^ 10, firstK := v / 2 ^ 10 % 2 ^ 16 }

/-- Word `w` of storage unit `u` replaced by `v` (R59). Unit 1 holds the entries, four words each, then the first-special indices from
word 65,536; unit 4 the strand contexts, 64 words each, then G0 to G15 from word 32,768; unit 5 the drain entries, 1,024 words each. -/
def Tile.putWord (x : Tile) (u w v : Nat) : Tile :=
  match u with
  | 0 => { x with ts := msetList 0 x.ts (4 * w) (leBytes 4 v) }
  | 1 =>
    if w < 65536 then { x with acc := mmod Entry.zero x.acc (w / 4) fun e => .ofWord (setLane e.word.toNat (w % 4) v) e.first }
    else { x with acc := mmod Entry.zero x.acc (w - 65536) fun e => { e with first := indexOfWord v } }
  | 2 => { x with vt := msetList 0 x.vt (2 * w) [BitVec.ofNat 16 v, BitVec.ofNat 16 (v / 65536)] }
  | 3 =>
    if w % 2 = 0 then { x with rsMax := mset 0xFF800000 x.rsMax (w / 2) (BitVec.ofNat 32 v) }
    else { x with rsSum := mset 0 x.rsSum (w / 2) (BitVec.ofNat 32 v) }
  | 4 =>
    if w < 32768 then x.modStrand (w / 64) fun c => c.putWord (w % 64) v
    else { x with g := mmod 0 x.g ((w - 32768) / 2) fun r => setHalf r (w % 2) v }
  | 5 => { x with drain := x.drain.map fun d => if d.number = w / 1024 then d.putWord (w % 1024) v else d }
  | _ => x

/-- The tile as reads deliver it: wrong data in every word whose error passes undetected (R59). -/
def Tile.delivered (x : Tile) : Tile :=
  if x.ecc.isEmpty then x
  else x.ecc.foldl (fun y e =>
    if eccOut e.2 = .wrong then
      y.putWord (e.1 / 2 ^ 20) (e.1 % 2 ^ 20) (leNat ((List.range 4).map (Config.wideErrorByte e.2)))
    else y) x

/-- Byte `a` of tile store as a read delivers it (R59). -/
def Tile.tsByte (x : Tile) (a : Nat) : Byte := mget 0 x.delivered.ts a

/-- `n` bytes of tile store from address `a`. -/
def Tile.tsRead (x : Tile) (a n : Nat) : List Byte :=
  let y := x.delivered
  (List.range n).map fun j => mget 0 y.ts (a + j)

/-- The words of the strand context or of G0 to G15 that hold scalar specifier `sp` of strand `k`. -/
def scalarWords (k sp : Nat) : List (Nat × Nat) :=
  if sp ≤ 0x0F then [(4, 64 * k + 2 * sp), (4, 64 * k + 2 * sp + 1)]
  else if 0x40 ≤ sp ∧ sp ≤ 0x4F then [(4, 32768 + 2 * (sp - 0x40)), (4, 32768 + 2 * (sp - 0x40) + 1)]
  else if sp = 0x81 then [(4, 64 * k + 33)]
  else []

/-- The words of specifier `sp` are written anew. -/
def Tile.clearScalar (x : Tile) (k sp : Nat) : Tile := (scalarWords k sp).foldl (fun x e => x.clearEcc e.1 e.2 1) x

/-- Slot `n` is written whole: its entries' and indices' errors are gone (R59). -/
def Tile.clearSlot (x : Tile) (n : Nat) : Tile := (x.clearEcc 1 (4096 * n) 4096).clearEcc 1 (65536 + 1024 * n) 1024

/-- Does a read of slot `n`, its entries and their first-special indices, meet an uncorrectable word (R59, R182)? -/
def Tile.slotBad (x : Tile) (n : Nat) : Bool :=
  (x.firstBad 1 (4096 * n) 4096).isSome || (x.firstBad 1 (65536 + 1024 * n) 1024).isSome

/-- Write bytes at address `a` of tile store; the words wholly written lose their errors (R59). -/
def Tile.tsWrite (x : Tile) (a : Nat) (bs : List Byte) : Tile :=
  let y := x.clearEcc 0 ((a + 3) / 4) ((a + bs.length) / 4 - (a + 3) / 4)
  { y with ts := msetList 0 x.ts a bs }

/-- The TILE_ECC payload of R461. -/
def tileEccPayload (unit logical t : Nat) (strand : Option Nat) (addr : Nat) : List Byte :=
  leBytes 2 unit ++ leBytes 2 logical ++ leBytes 2 t ++ leBytes 2 (strand.getD 0xFFFF) ++ leBytes 4 addr

/-- Count one uncorrectable storage error of tile `t`: TIL_ECC, the TILE_ECC entry, FLT_STICKY (R59, R77, R458). -/
def State.noteBad (s : State) (t unit : Nat) (strand : Option Nat) (addr : Nat) : State :=
  let s := s.modTile t fun x => { x with uncorrCount := min 0xFF (x.uncorrCount + 1), lastUnit := unit }
  match s.partOf t with
  | some p =>
    (s.bookEntry 0x04 p cEcc 0 (tileEccPayload unit (((s.part p).logicalOf t).getD 0) t strand addr)).sticky p 1
  | none => s.bookEntry 0x04 0xF cEcc 0 (tileEccPayload unit 0 t strand addr)

/-- Count `n` corrected words of tile `t` (R59, R77); 16 or more within one second write TILE_ECC_STORM once for that
second (R458). -/
def State.noteCorrected (s : State) (t unit n : Nat) : State :=
  if n = 0 then s
  else
    let x := s.tile t
    let fresh := decide (100000000 < s.time.toNat - x.stormStart.toNat)
    let before := if fresh then 0 else x.stormCount
    let x := { x with
      corrCount := min 0xFFFF (x.corrCount + n)
      lastUnit := unit
      stormStart := if fresh then s.time else x.stormStart
      stormCount := before + n }
    let s := (s.setTile t x).lifeAdd (0x460 + 4 * clusterOf t) n
    if before < 16 ∧ 16 ≤ before + n then
      s.bookEntry 0x0E ((s.partOf t).getD 0xF) 0 0 (leBytes 4 t ++ leBytes 4 (before + n))
    else s

/-- What reading `n` words of unit `u` from word `w` records for strand `k`: every corrected and every uncorrectable word counts
(R59, R77). -/
def State.countEcc (s : State) (t u w n : Nat) (strand : Option Nat) : State :=
  if (s.tile t).ecc.isEmpty then s
  else
    let o := (s.tile t).eccRange u w n
    let s := s.noteCorrected t u (o.filter fun e => decide (e = .corrected)).length
    o.zipIdx.foldl (fun s e => if e.1 = .bad then s.noteBad t u strand (4 * (w + e.2)) else s) s

/-- What reading the words of a list records. -/
def State.countWords (s : State) (t : Nat) (ws : List (Nat × Nat)) (strand : Option Nat) : State :=
  if (s.tile t).ecc.isEmpty then s else ws.foldl (fun s e => s.countEcc t e.1 e.2 1 strand) s

/-- What reading slot `n` records. -/
def State.countSlot (s : State) (t n : Nat) (strand : Option Nat) : State :=
  (s.countEcc t 1 (4096 * n) 4096 strand).countEcc t 1 (65536 + 1024 * n) 1024 strand

/-- Count the retries of die crossings, each given as its receiving die and its retries, in the lifetime store (R68, R535). -/
def State.countRetries (s : State) (cs : List (Nat × Nat)) : State := cs.foldl (fun s c => s.lifeAdd (0x6A0 + 4 * c.1) c.2) s

/-! ### Counters that saturate -/

/-- Add to a 32-bit count that saturates. -/
def sat32 (c : W32) (n : Nat) : W32 := BitVec.ofNat 32 (min (2 ^ 32 - 1) (c.toNat + n))

/-- Add to a 16-bit count that saturates. -/
def sat16 (c : BitVec 16) (n : Nat) : BitVec 16 := BitVec.ofNat 16 (min (2 ^ 16 - 1) (c.toNat + n))

/-! ### HBM (R248, R251 to R253, R262) -/

/-- The storage key of partition address `a`: bay × 2^36 + offset in its stack (R248). -/
def Part.hbmKey (x : Part) (a : Nat) : Nat :=
  let n := x.bays.length
  let g := a / 4096
  (x.bays.getD (g % n) 0) * 2 ^ 36 + (g / n) * 4096 + a % 4096

/-- Byte at partition address `a`. -/
def State.hbmByte (s : State) (x : Part) (a : Nat) : Byte :=
  if s.hbmErr.isEmpty then mget 0 s.hbm (x.hbmKey a)
  else
    let n := mget 0 s.hbmErr (x.hbmKey a / 32)
    match eccOut n with
    | .wrong => Config.wideErrorByte n (a % 32)
    | _ => mget 0 s.hbm (x.hbmKey a)

/-- `n` bytes from partition address `a`. -/
def State.hbmRead (s : State) (x : Part) (a n : Nat) : List Byte := (List.range n).map fun j => s.hbmByte x (a + j)

/-- Mark the 2 MiB granules of a write dirty while a session is active (R262). -/
def markDirty (m : MemRec) (a n : Nat) : MemRec :=
  if m.dirtyActive && decide (n ≠ 0) then
    let g := a / 2 ^ 21
    { m with dirty := mfill false m.dirty g ((a + n - 1) / 2 ^ 21 - g + 1) true }
  else m

/-- The beats (by partition address ÷ 32) a range touches. -/
def beatsOf (a n : Nat) : List Nat :=
  if n = 0 then [] else (List.range ((a + n - 1) / 32 - a / 32 + 1)).map (a / 32 + ·)

/-- Is the beat at partition beat number `b` poisoned, or does reading it find it uncorrectable (R251, R252)? -/
def State.beatPoisoned (s : State) (x : Part) (b : Nat) : Bool :=
  let k := x.hbmKey (32 * b) / 32
  mget false s.hbmPoison k || decide (eccOut (mget 0 s.hbmErr k) = .bad)

/-- The first poisoned beat of a range, as a partition address. -/
def State.firstPoison (s : State) (x : Part) (a n : Nat) : Option Nat :=
  if s.hbmPoison.isEmpty && s.hbmErr.isEmpty then none
  else ((beatsOf a n).find? (s.beatPoisoned x)).map (32 * ·)

/-- Poison a beat, with its SOURCE (R252): count it, record LAST_POISON, mark its granule dirty, whoever poisons it; for the scrubber that is a DESIGN
CHOICE, since by R262 poison write-backs set a dirty bit and scrubbing sets none (log 145). -/
def State.poisonBeat (s : State) (p : Nat) (b source : Nat) : State :=
  let x := s.part p
  let k := x.hbmKey (32 * b) / 32
  if mget false s.hbmPoison k then s
  else
    let m := { x.mem with
      uncorrBeats := sat32 x.mem.uncorrBeats 1
      lastPoison := some (source, 32 * b) }
    let m := markDirty m (32 * b) 32
    let s := { s with hbmPoison := mset false s.hbmPoison k true, hbmErr := mset 0 s.hbmErr k 0 }
    let off := x.hbmKey (32 * b) % 2 ^ 36
    let s := ((s.setPart p { x with mem := m }).sticky p 2).lifeAdd (0x670 + 4 * (x.hbmKey (32 * b) / 2 ^ 36)) 1
    s.bookEntry 0x05 p cPoison 0 (leBytes 8 (32 * b) ++ leBytes 1 source ++ leBytes 1 (x.hbmKey (32 * b) / 2 ^ 36)
      ++ leBytes 1 (off / 256 % 64) ++ leBytes 5 0 ++ leBytes 8 off)

/-- Poison the beat with key `k` of a stack that is in no partition (R252): its entry names none, and has the beat's place in the
stack for a partition address. -/
def State.poisonFree (s : State) (k source : Nat) : State :=
  let b := 32 * k / 2 ^ 36
  let off := 32 * k % 2 ^ 36
  let s := ({ s with hbmPoison := mset false s.hbmPoison k true, hbmErr := mset 0 s.hbmErr k 0 }).lifeAdd (0x670 + 4 * b) 1
  s.bookEntry 0x05 0xF cPoison 0 (leBytes 8 off ++ leBytes 1 source ++ leBytes 1 b ++ leBytes 1 (off / 256 % 64) ++ leBytes 5 0 ++ leBytes 8 off)

/-- What one read of a beat does to it (R251): one bad symbol is corrected, counted and written back; two poison it
with `source`. -/
def State.readBeat (s : State) (p : Nat) (source : Nat) (b : Nat) : State :=
  let x := s.part p
  let k := x.hbmKey (32 * b) / 32
  match mget 0 s.hbmErr k with
  | 0 => s
  | 1 =>
    (({ s with hbmErr := mset 0 s.hbmErr k 0 }).lifeAdd (0x640 + 4 * (x.hbmKey (32 * b) / 2 ^ 36)) 1).modPart p fun y =>
      { y with mem := { y.mem with corrSymbols := sat32 y.mem.corrSymbols 1 } }
  | n =>
    match eccOut n with
    | .bad => s.poisonBeat p b source
    | _ => s

/-- A consumer's read of a range: errors handled beat by beat, POISON_READS counted for each poisoned beat delivered
(R251, R253). -/
def State.readRange (s : State) (p a n : Nat) : State :=
  if s.hbmPoison.isEmpty && s.hbmErr.isEmpty then s
  else
    let s := (beatsOf a n).foldl (fun s b => s.readBeat p 0 b) s
    let c := ((beatsOf a n).filter fun b => mget false s.hbmPoison ((s.part p).hbmKey (32 * b) / 32)).length
    if c = 0 then s
    else s.modPart p fun y => { y with mem := { y.mem with poisonReads := sat32 y.mem.poisonReads c } }

/-- The read that a partial write of a beat begins with (R251, R252): as `State.readBeat`; an error that passes undetected is merged as
it was delivered, and the new check symbols hide it. -/
def State.mergeBeat (s : State) (p b : Nat) : State :=
  let s := s.readBeat p 0 b
  let k := (s.part p).hbmKey (32 * b)
  let n := mget 0 s.hbmErr (k / 32)
  if eccOut n = .wrong then
    { s with
      hbm := (List.range 32).foldl (fun h j => mset 0 h (k + j) (Config.wideErrorByte n j)) s.hbm
      hbmErr := mset 0 s.hbmErr (k / 32) 0 }
  else s

/-- Write bytes at partition address `a`: whole beats lose poison and errors, partial beats merge after a read
(R252); granules become dirty (R262). -/
def State.hbmWrite (s : State) (p a : Nat) (bs : List Byte) : State :=
  let n := bs.length
  let s := if s.hbmPoison.isEmpty && s.hbmErr.isEmpty then s
    else (beatsOf a n).foldl (fun s b =>
      if decide (a ≤ 32 * b) && decide (32 * b + 32 ≤ a + n) then
        let k := (s.part p).hbmKey (32 * b) / 32
        { s with hbmPoison := mset false s.hbmPoison k false, hbmErr := mset 0 s.hbmErr k 0 }
      else s.mergeBeat p b) s
  let x := s.part p
  let h := (bs.zipIdx).foldl (fun h e => mset 0 h (x.hbmKey (a + e.2)) e.1) s.hbm
  ({ s with hbm := h }).setPart p { x with mem := markDirty x.mem a n }

end Sys2Proof.Machine
end

