-- ==== Sys2Proof/Machine/Life.lean ====
section
/-! DEFINITION. The lifetime store's status record and event history, and the UTC estimate they carry (R534 to R537). -/

namespace Sys2Proof.Machine

/-- Change the clock state by `f`. -/
def State.modClk (s : State) (f : Clk → Clk) : State := { s with clk := f s.clk }

/-- An entry of the event history (R534). -/
def State.historyAdd (s : State) (kind subject : Nat) : State :=
  s.modClk fun k => { k with history := (kind, s.time, subject) :: k.history }

/-- UTC of now, in ns (R537). -/
def Clk.estimate (k : Clk) (now : W64) : W64 := if k.utcValid then k.utc + (now - k.utcAt) * 10 else 0

/-- A count of the status record: milliseconds read as hours or minutes, saturating at the field's size (R535). -/
def lifeField (m : SMap Nat) (off n unit : Nat) : List Byte := leBytes n (min (2 ^ (8 * n) - 1) (mget 0 m off / unit))

/-- `k` fields of `n` bytes of the status record from an offset. -/
def lifeFields (m : SMap Nat) (off n k unit : Nat) : List Byte := ((List.range k).map fun i => lifeField m (off + n * i) n unit).flatten

/-- The status record (R535). -/
def State.statusRecord (s : State) : List Byte :=
  let k := s.clk
  let m := k.life
  let b := leBytes 4 0x4C465354 ++ leBytes 4 (mget 0 m 4) ++ leBytes 8 s.time.toNat ++ leBytes 4 (k.auxMs / 3600000)
    ++ leBytes 4 (k.opMs / 3600000) ++ leBytes 8 (k.estimate s.time).toNat ++ lifeFields m 0x20 4 120 3600000
    ++ lifeFields m 0x200 4 144 60000 ++ lifeFields m 0x440 4 8 1 ++ lifeFields m 0x460 4 120 1 ++ lifeFields m 0x640 4 30 1
    ++ leBytes 8 0 ++ lifeFields m 0x6C0 4 32 1 ++ lifeFields m 0x740 2 120 1 ++ lifeFields m 0x830 1 240 1
    ++ lifeField m 0x920 4 1 ++ leBytes 1752 0
  b ++ leBytes 4 (crc32 b).toNat

/-- A status record is written to the ring of 2,048 (R534). -/
def State.writeStatus (s : State) : State :=
  let r := s.statusRecord
  let s := (s.lifeAdd 4 1).modClk fun k => { k with status := (r :: k.status).take 2048 }
  s.modClk fun k => { k with saved := mset 0 (mset 0 k.life 0x10 k.auxMs) 0x14 k.opMs }

end Sys2Proof.Machine
end

