-- ==== Sys2Proof/Machine/Points.lean ====
section
/-! DEFINITION. The operating points of the clusters: margin tables and their plan, the safe point, and the frequency and
voltage in force (R490, R512 to R516, R530). -/

namespace Sys2Proof.Machine

/-- Cluster `c`. -/
def State.cluster (s : State) (c : Nat) : Cluster := mget Cluster.reset s.clk.clusters c

/-- Change cluster `c` by `f`. -/
def State.modCluster (s : State) (c : Nat) (f : Cluster → Cluster) : State :=
  { s with clk := { s.clk with clusters := mmod Cluster.reset s.clk.clusters c f } }

/-- Frequency of point `k` in MHz (R514). -/
def pointMhz (k : Nat) : Nat := [1800, 1650, 1500, 1350, 1200, 1000, 800].getD k 600

/-- Vsafe of a cluster in mV (R514). -/
def vsafe (c : Nat) : Nat := (Config.vf c 4 + 10 + 6 * Config.sens c 4 + 4) / 5 * 5

/-- One point of the plan before merging, with D_c in 0.01 % (R530). -/
def planPoint (c d k : Nat) : Nat × Nat :=
  let v := Config.vf c k + 10 + 5 * ((Config.sens c k * d + 499) / 500)
  if 850 < v then (pointMhz k - 25 * ((v - 850 + 4) / 5), 850) else (pointMhz k, v)

/-- Merge each point whose frequency is not above the next slower one's with it, from P6 up (R530). -/
def mergePoints : List (Nat × Nat) → List (Nat × Nat)
  | [] => []
  | a :: rest =>
    match mergePoints rest with
    | [] => [a]
    | b :: r => (if a.1 ≤ b.1 then b else a) :: b :: r

/-- The margin table of R530 for cluster `c` at drift `d` in 0.01 %. -/
def marginPlan (c d : Nat) : List (Nat × Nat) := mergePoints ((List.range 8).map (planPoint c d))

/-- The margin table in force; a cluster that has never been levelled has the plan with no drift (R533). -/
def State.marginTable (s : State) (c : Nat) : List (Nat × Nat) :=
  let t := (s.cluster c).table
  if t.isEmpty then marginPlan c 0 else t

/-- TABLE_MAX: the fastest point the table allows (R516, R530, R541). -/
def tableMax (t : List (Nat × Nat)) : Nat :=
  ((List.range 7).find? fun k => decide (t.getD k (0, 0) ≠ t.getD (k + 1) (0, 0))).getD 7

/-- The point in force: P4 in bypass (R512), the safe point's P4 under the governor (R490). -/
def State.pointOf (s : State) (c : Nat) : Nat :=
  let x := s.cluster c
  if x.bypass || s.mast.fallback then 4 else x.point

/-- Frequency of cluster `c` in MHz and its voltage in mV (R490, R512, R514). -/
def State.clusterRun (s : State) (c : Nat) : Nat × Nat :=
  let x := s.cluster c
  if x.bypass || s.mast.fallback then (1200, vsafe c) else (s.marginTable c).getD x.point (0, 0)

/-- Is the clock of tile `t`'s cluster stopped, or every compute clock (R521, R522, R524, R578)? -/
def State.clockStopped (s : State) (t : Nat) : Bool := decide ((s.cluster (clusterOf t)).stops ≠ 0) || s.pkg.scanStop

/-! ### Power domains (R517, R518) -/

/-- The domain of cluster `c` (R517). -/
def clusterDomain (c : Nat) : Nat := 41 * (c / 30) + c % 30

/-- The clusters of bay `b`. -/
def bayClusters (b : Nat) : List Nat := (List.range 10).map fun i => 30 * (b / 3) + 10 * (b % 3) + i

/-- The bay fabric's, HBM controller's and HBM PHY's domains of bay `b` (R517). -/
def bayUnits (b : Nat) : List Nat := [30, 33, 36].map fun o => 41 * (b / 3) + o + b % 3

/-- The 13 domains of a bay (R520). -/
def bayDomains (b : Nat) : List Nat := (bayClusters b).map clusterDomain ++ bayUnits b

/-- The domains that are gated while a bay is free: clusters and the bay fabric (R518). -/
def gatedDomains (b : Nat) : List Nat := (bayClusters b).map clusterDomain ++ [41 * (b / 3) + 30 + b % 3]

/-- Is `d` a domain that is gated while its bay is free? -/
def isGated (d : Nat) : Bool := decide (d < 164) && decide (d % 41 < 33)

/-- STATE of domain `d`: 0 OFF, 1 ON, 2 POWERING, 3 FAULT (R541). -/
def State.domainState (s : State) (d : Nat) : Nat :=
  match mget 0 s.clk.domains d with
  | 0 => if isGated d then 0 else 1
  | n + 1 => n

/-- Put domain `d` into a state. -/
def State.setDomain (s : State) (d v : Nat) : State :=
  let natural := if isGated d then 0 else 1
  { s with clk := { s.clk with domains := mset 0 s.clk.domains d (if v = natural then 0 else v + 1) } }

/-- Do the transmit PLL and the two domains of link `n`'s group run (R510, R518, R519)? -/
def State.linkOn (s : State) (n : Nat) : Bool :=
  !(mget false s.clk.unlocked (141 + n / 4)) && decide (s.domainState (164 + n / 4) = 1) && decide (s.domainState (172 + n / 4) = 1)

/-- The tiles of a bay whose cluster's regulator has turned its domain off (R519). -/
def State.offTiles (s : State) (b : Nat) : List Nat :=
  (bayTiles b).filter fun t => decide (s.domainState (clusterDomain (clusterOf t)) = 3)

/-- Power the clusters and fabric of bay `b`, but for domains in FAULT (R518). -/
def State.powerBay (s : State) (b : Nat) : State :=
  (gatedDomains b).foldl (fun (s : State) d => if s.domainState d = 0 then s.setDomain d 1 else s) s

end Sys2Proof.Machine
end

