-- ==== Sys2Proof/Machine/HostIo.lean ====
section
/-! DEFINITION. What the device does as a PCIe requester: a function's request slots and the reads they carry (R256, R259 to R261), and
posted writes cut into payloads (R259). -/

namespace Sys2Proof.Machine

/-- Send a message out of the device. -/
def State.send (s : State) (m : Msg) : State := { s with out := m :: s.out }

/-- The device partition holds all 12 bays (R404). -/
def Part.isDevice (x : Part) : Bool := decide (x.bays.length = 12)

/-- The function partition `p` is presented through: 0 the physical one (R404). -/
def Part.function (x : Part) (p : Nat) : Nat := if x.isDevice then 0 else p + 1

/-- What the host has configured of function `fn` in PCI configuration space (R250, R259, R261). -/
def State.pciOf (s : State) (fn : Nat) : PciFn := mget PciFn.reset s.pci fn

/-- The size of the BAR2 window of function `fn` (R247, R250). -/
def State.windowSize (s : State) (fn : Nat) : Nat := 2 ^ (s.pciOf fn).windowLog2

/-! ### Posted writes (R259 rule 2) -/

/-- Cut the bytes for bus address `h` into payloads of at most `most` bytes, none across 4 KiB. -/
def payloads (most : Nat) : Nat → Nat → List Byte → List (Nat × List Byte)
  | 0, _, _ => []
  | _, _, [] => []
  | f + 1, h, b =>
    let n := min most (4096 - h % 4096)
    (h, b.take n) :: payloads most f (h + n) (b.drop n)

/-- The writes that carry bytes to bus address `h` for function `fn`: payloads of its Max_Payload_Size, with Relaxed Ordering where it is
enabled; `bad` says of which bus addresses and lengths the payload is poisoned (R59, R253). -/
def State.hostMsgsBad (s : State) (fn h : Nat) (b : List Byte) (bad : Nat → Nat → Bool) : List Msg :=
  let c := s.pciOf fn
  (payloads (max 1 (min 512 c.maxPayload)) b.length h b).map fun e => .hostWrite e.1 e.2 (bad e.1 e.2.length) c.relaxed

/-- Such writes, all of them poisoned or none. -/
def State.hostMsgs (s : State) (fn h : Nat) (b : List Byte) (poisoned : Bool) : List Msg := s.hostMsgsBad fn h b fun _ _ => poisoned

/-- Write bytes to host memory for function `fn`, the payloads that `bad` names poisoned. -/
def State.hostSendBad (s : State) (fn h : Nat) (b : List Byte) (bad : Nat → Nat → Bool) : State :=
  { s with out := (s.hostMsgsBad fn h b bad).reverse ++ s.out }

/-- Write bytes to host memory for function `fn`. -/
def State.hostSend (s : State) (fn h : Nat) (b : List Byte) (poisoned : Bool) : State :=
  { s with out := (s.hostMsgs fn h b poisoned).reverse ++ s.out }

/-! ### Read requests (R259 to R261) -/

/-- Request slot `i` of a partition's function. -/
def Part.reqSlot (x : Part) (i : Nat) : ReqSlot := mget ReqSlot.zero x.slots i

/-- Write request slot `i`. -/
def Part.setReq (x : Part) (i : Nat) (r : ReqSlot) : Part := { x with slots := mset ReqSlot.zero x.slots i r }

/-- The tag of a slot (R260). -/
def Part.tag (x : Part) (i : Nat) : Nat := (x.slotBase + (x.reqSlot i).epoch).toNat * 2048 + i

/-- The lowest free request slot. -/
def Part.freeSlot (x : Part) : Option Nat :=
  (List.range 2048).find? fun i => let r := x.reqSlot i; !r.waiting && !r.held

/-- What an owner reads from host memory, if it has not ended. -/
def Part.hostRead (x : Part) (o : ReadOwner) : Option HostRead := x.reads.find? fun r => decide (r.owner = o)

/-- Change an owner's read. -/
def Part.modRead (x : Part) (o : ReadOwner) (f : HostRead → HostRead) : Part :=
  { x with reads := x.reads.map fun r => if r.owner = o then f r else r }

/-- The bytes of the next request of a range at bus address `a` of which `n` bytes are left (R259 rule 1). -/
def requestSize (a n : Nat) : Nat := min (min 512 (4096 - a % 4096)) n

/-- Issue read requests, in the order the reads started, as far as slots are free; at most `n` of them (R259, R260). A slot keeps the
epochs it has used until a completion is accepted in it (R261 rule 3). -/
def State.issueReads (s : State) (p : Nat) : Nat → State
  | 0 => s
  | n + 1 =>
    let x := s.part p
    match x.reads.find? (fun r => !r.left.isEmpty), x.freeSlot with
    | some h, some i =>
      match h.left with
      | [] => s
      | (a, d, len) :: rest =>
        let m := requestSize a len
        let q : ReqSlot := { x.reqSlot i with waiting := true, owner := h.owner, addr := a, dest := d, len := m, buf := [], bad := false }
        let s := s.modPart p fun x => (x.setReq i q).modRead h.owner fun r =>
          { r with left := if m = len then rest else (a + m, d + m, len - m) :: rest }
        (s.send (.hostRead (x.function p) (x.tag i) a m)).issueReads p n
    | _, _ => s

/-- An owner starts to read ranges (bus address, destination, bytes) of host memory. -/
def State.startRead (s : State) (p : Nat) (o : ReadOwner) (hbm : Bool) (ranges : List (Nat × Nat × Nat)) : State :=
  (s.modPart p fun x => { x with reads := x.reads ++ [⟨o, hbm, ranges.filter fun e => decide (e.2.2 ≠ 0), []⟩] }).issueReads p 2048

/-- An owner's read ends: it issues no more requests, and what arrives later for it is discarded (R257). -/
def State.endRead (s : State) (p : Nat) (o : ReadOwner) : State :=
  s.modPart p fun x => { x with reads := x.reads.filter fun r => decide (r.owner ≠ o) }

/-- The slots of an owner advance their epoch, which uses up one more of the eight, and are held out of use (R261 rules 3 and 5). -/
def State.holdSlots (s : State) (p : Nat) (o : ReadOwner) : State :=
  let f (r : ReqSlot) : ReqSlot :=
    if r.waiting && decide (r.owner = o) then { ReqSlot.zero with epoch := r.epoch + 1, used := r.used + 1, held := true } else r
  (s.modPart p fun x => { x with slots := mmap ReqSlot.zero (fun _ r => f r) x.slots }).endRead p o

/-- Has everything an owner reads arrived? -/
def Part.readDone (x : Part) (o : ReadOwner) : Bool :=
  match x.hostRead o with
  | some r => r.left.isEmpty && !(x.slots.any fun e => e.2.waiting && decide (e.2.owner = o))
  | none => false

/-- What has arrived for an owner, in the order of its destination: offset, bytes, poisoned. -/
def Part.arrived (x : Part) (o : ReadOwner) : List (Nat × List Byte × Bool) :=
  match x.hostRead o with
  | some r => sortBy (fun a b => decide (a.1 ≤ b.1)) r.data
  | none => []

/-- The bytes an owner has read. -/
def Part.readBytes (x : Part) (o : ReadOwner) : List Byte := ((x.arrived o).map fun e => e.2.1).flatten

/-- The words, from the start of what an owner has read, that arrived poisoned (R253). -/
def Part.readPoison (x : Part) (o : ReadOwner) : List Nat :=
  (((x.arrived o).filter fun e => e.2.2).map fun e => (List.range (e.2.1.length / 4)).map fun j => e.1 / 4 + j).flatten

end Sys2Proof.Machine
end

