-- ==== Sys2Proof/Machine/Topology.lean ====
section
/-! DEFINITION. Where the 32 Balca links lead (R274, R275, R277), the CRC of flits and messages (R285, R306), and the
operations over one link's registers. -/

namespace Sys2Proof.Machine

/-! ### Link registers -/

/-- Link `n`. -/
def State.link (s : State) (n : Nat) : Link := mget Link.reset s.links n

/-- Write link `n`. -/
def State.setLink (s : State) (n : Nat) (l : Link) : State := { s with links := mset Link.reset s.links n l }

/-- Change link `n` by `f`. -/
def State.modLink (s : State) (n : Nat) (f : Link → Link) : State := s.setLink n (f (s.link n))

/-- Set LNK_STICKYn bit `i` (R323). -/
def Link.stick (l : Link) (i : Nat) : Link := { l with sticky := l.sticky ||| BitVec.ofNat 5 (2 ^ i) }

/-- Count a stale flit, message or foreign strike (R296, R313). -/
def State.staleOn (s : State) (n : Nat) : State := s.modLink n fun l => { l with stale := sat32 l.stale 1 }

/-! ### Roles (R274, R322) -/

/-- ROLE and PORT of link `n`: 0 gang port p; 1 Y+, 2 Y−, 3 Z+, 4 Z− with the bundle index (R274, R322). -/
def linkRole (n : Nat) : Nat × Nat :=
  if n < 4 then (0, n)
  else if n < 16 then ((n - 4) / 3 + 1, (n - 4) % 3)
  else if n < 20 then (0, n - 12)
  else ((n - 20) / 3 + 1, (n - 20) % 3 + 3)

/-- The position and link number the peer of link `n` must have on a device at `c`: its position, whether it must be
the hot spare, and the peer's link (R274, R275). A gang port 0 leads to the spare; on the spare, port p leads to port 0
of member p, and its port 0 to member 0. -/
def linkPeer (c : W32) (n : Nat) : W32 × Bool × Nat :=
  let gangLink (p : Nat) : Nat := if p < 4 then p else p + 12
  let bundleLink (role i : Nat) : Nat := if i < 3 then 4 + 3 * (role - 1) + i else 20 + 3 * (role - 1) + (i - 3)
  let (role, i) := linkRole n
  let x := coordX c
  let y := coordY c
  let z := coordZ c
  match role with
  | 0 =>
    if coordSpare c then (mkCoord i y z, false, 0)
    else if i = 0 then (mkCoord x y z, true, gangLink x)
    else (mkCoord ((x + i) % 8) y z, false, gangLink (8 - i))
  | 1 => (mkCoord x ((y + 1) % 32) z, false, bundleLink 2 i)
  | 2 => (mkCoord x ((y + 31) % 32) z, false, bundleLink 1 i)
  | 3 => (mkCoord x y ((z + 1) % 32), false, bundleLink 4 i)
  | _ => (mkCoord x y ((z + 31) % 32), false, bundleLink 3 i)

/-- The links of a torus direction (role 1 to 4), by bundle index (R277). -/
def bundle (role : Nat) : List Nat := (List.range 32).filter fun n => decide ((linkRole n).1 = role)

/-- The link of gang port `p` (R274). -/
def gangPortLink (p : Nat) : Nat := if p < 4 then p else p + 12

/-- The gang link from member `x` to member `m` (R275). -/
def gangLinkTo (x m : Nat) : Nat := gangPortLink ((m + 8 - x) % 8)

/-- The links of an index list that are UP. -/
def State.upLinks (s : State) (l : List Nat) : List Nat := l.filter fun n => decide ((s.link n).state = .up)

/-- Is a link in use: UP, or on its way back to UP and not lost (R284)? -/
def Link.carries (l : Link) : Bool := decide (l.state = .up) || (l.leftUp.isSome && !l.lost)

/-- Is the neighbour over a set of links unreachable: every one of them lost (R277)? -/
def State.allLost (s : State) (l : List Nat) : Bool := l.all fun n => (s.link n).lost

/-- A link group takes its written spread-spectrum setting when none of its links is UP (R281). -/
def State.takeSsc (s : State) (g : Nat) : State :=
  if ((List.range 4).any fun i => decide ((s.link (4 * g + i)).state = .up)) then s
  else { s with sscForce := mset 0 s.sscForce g (mget 0 s.lnkSsc g) }

/-- The pattern of a loop-back depth: the one asked for, if it suits the depth, else the depth's first listed: 0 flits, 1 PRBS13Q,
2 PRBS31Q (R318). -/
def suitPattern (depth pat : Nat) : Nat :=
  let ok := ([[pat], [0], [2, 0], [1, 2], [1, 2], [0]] : List (List Nat)).getD depth [pat]
  if ok.contains pat then pat else ok.headD 0

/-! ### Positions in force, and gang members (R30, R275, R278, R325, R381) -/

/-- The position link `n` works with, X, Y, Z and SPARE: LNK_COORD as its last training took it; of a link that has met no peer, as it
stands (R325, R330). -/
def State.posOf (s : State) (n : Nat) : W32 := if (s.link n).found then (s.link n).pos else s.coord

/-- The gang member index of this device: the one a hot spare has taken, the one fixed when its gang unit was formed, else its gang
position (R30, R274, R381). -/
def State.member (s : State) : Nat :=
  match s.spareAs with
  | some m => m
  | none =>
    match (List.range 12).find? fun p => (s.part p).exist && (s.part p).gang.formed with
    | some p => (s.part p).gang.index
    | none => coordX s.coord

/-- The shard identity of a position (R380). -/
def positionId (x y z : Nat) : Nat := x + y * 256 + z * 65536

/-- The member of this device's own gang whose place the hot spare has taken, if any (R381). -/
def State.spareHolds (s : State) : Option Nat :=
  (s.relayed.find? fun id => decide (id / 256 = coordY s.coord + coordZ s.coord * 256)).map (· % 256)

/-- The gang member at the other end of gang link `n`, if any, by the position the link works with: on a spare, whose port p leads to port
0 of member p, that member; elsewhere none behind port 0 while the spare has no member's place, nor behind the port of a member whose
place it has (R275, R325, R381). -/
def State.farMember (s : State) (n : Nat) : Option Nat :=
  let (role, i) := linkRole n
  if role ≠ 0 then none
  else if coordSpare (s.posOf n) then some i
  else if i = 0 then s.spareHolds
  else
    let m := (coordX (s.posOf n) + i) % 8
    if s.spareHolds = some m then none else some m

/-- The link to gang member `m`: the first gang link that leads to it; for a member that none leads to, the port of R275. -/
def State.gangLink (s : State) (m : Nat) : Nat :=
  (((List.range 8).map gangPortLink).find? fun n => decide (s.farMember n = some m)).getD (gangLinkTo (coordX s.coord) m)

/-! ### The box (R332) -/

/-- Does the neighbour of position `c` in a torus direction lie in the box (R332)? -/
def dirInBox (c : W32) (v : Variant) (role : Nat) : Bool :=
  let inAxis (off extent : Nat) (up : Bool) : Bool :=
    if extent = 32 then true
    else if up then decide (off + 1 < extent) else decide (0 < off) && decide (off < extent)
  let stage := (coordY c + 32 - v.y0) % 32
  let replica := (coordZ c + 32 - v.z0) % 32
  match role with
  | 1 => inAxis stage v.yj true
  | 2 => inAxis stage v.yj false
  | 3 => inAxis replica v.zj true
  | 4 => inAxis replica v.zj false
  | _ => false

/-- Is this device the coordinator of partition `p`'s job: at offset (lowest member of GANG_MASK, 0, 0) of the current box (R372)? -/
def State.coordinates (s : State) (p : Nat) : Bool :=
  (s.part p).cur.any fun v =>
    decide ((List.range 8).find? (fun m => decide (v.gangMask / 2 ^ m % 2 = 1)) = some s.member)
      && decide (coordY s.coord = v.y0) && decide (coordZ s.coord = v.z0)

/-- ELA_CTRL of the coordinator of partition `p`'s job: this device's own, or as the coordinator told it on VC5 (R372, R382, R392). -/
def State.jobCtrl (s : State) (p : Nat) (told : W32) : W32 := if s.coordinates p then (s.part p).ela.ctrl else told

/-- Does link `n` lead to a neighbour in the box of variant `v`? -/
def State.linkInBox (s : State) (v : Variant) (n : Nat) : Bool :=
  if (linkRole n).1 = 0 then
    match s.farMember n with
    | some m => decide (v.gangMask / 2 ^ m % 2 = 1)
    | none => false
  else dirInBox (s.posOf n) v (linkRole n).1

/-- The links in use to neighbours in the commit group of partition `p` (R313). -/
def State.jobLinks (s : State) (p : Nat) : List Nat :=
  match (s.part p).cur with
  | none => []
  | some v => (List.range 32).filter fun n => (s.link n).carries && s.linkInBox v n

/-- The partition whose job a link's traffic belongs to: its box holds the neighbour (R274, R332). -/
def State.linkPart (s : State) (n : Nat) : Option Nat :=
  (List.range 12).find? fun p => match (s.part p).cur with | some v => (s.part p).exist && s.linkInBox v n | none => false

end Sys2Proof.Machine
end

