-- ==== Sys2Proof/Machine/Flits.lean ====
section
/-! DEFINITION. Flits and messages on the Balca links: their layout (R285, R286, R306), the order in which a link sends (R287 to R291),
the link a message takes (R277, R278, R292), what loss of a link and an epoch advance do to messages (R294, R296). -/

namespace Sys2Proof.Machine

/-! ### Layout -/

/-- A bit as a number. -/
def bitNat (b : Bool) : Nat := if b then 1 else 0

/-- `n` bytes of a list, zeros beyond its end. -/
def padTo (n : Nat) (bs : List Byte) : List Byte := bs.take n ++ List.replicate (n - bs.length) 0

/-- The 96-bit header of a flit (R286). -/
def Flit.head (f : Flit) : Nat :=
  f.type % 16 + f.vc % 8 * 2 ^ 8 + bitNat f.first * 2 ^ 11 + bitNat f.last * 2 ^ 12 + f.len % 256 * 2 ^ 13 + f.cvc % 8 * 2 ^ 21
    + f.ccount % 256 * 2 ^ 24 + f.ack.toNat * 2 ^ 32 + f.seq.toNat * 2 ^ 48 + f.epoch.toNat * 2 ^ 64

/-- The 256 bytes of a flit: header, data, CRC-32 (R285). -/
def Flit.bytes (f : Flit) : List Byte :=
  let b := leBytes 12 f.head ++ padTo 240 f.data
  b ++ leBytes 4 (crc32 b).toNat

/-- The flit that 256 bytes hold; none where they are treated as a CRC failure: a wrong CRC, a TYPE above 2, a DATA flit on VC7, a LINKCTL
flit of another subtype than NAK, CREDIT_INIT and RESUME (R285, R286). -/
def Flit.ofBytes (b : List Byte) : Option Flit :=
  let h := leNat (b.take 12)
  let field (lo n : Nat) : Nat := h / 2 ^ lo % 2 ^ n
  let d := (b.drop 12).take 240
  let f : Flit := {
    epoch := BitVec.ofNat 32 (field 64 32), seq := BitVec.ofNat 16 (field 48 16), ack := BitVec.ofNat 16 (field 32 16)
    ccount := field 24 8, cvc := field 21 3, len := field 13 8, last := decide (field 12 1 = 1), first := decide (field 11 1 = 1)
    vc := field 8 3, type := field 0 4, data := d.take (field 13 8) }
  let subtype := (d.headD 0).toNat
  if b.length ≠ 256 ∨ leNat (b.drop 252) ≠ (crc32 (b.take 252)).toNat then none
  else if 2 < f.type ∨ (f.type = 1 ∧ f.vc = 7) ∨ (f.type = 2 ∧ ¬ (1 ≤ subtype ∧ subtype ≤ 3)) then none
  else some f

/-- The 32-byte header of a collective message (R306). -/
def CollMsg.header (m : CollMsg) : List Byte :=
  leBytes 2 m.entry
    ++ leBytes 1 (bitNat m.gather * 128 + bitNat m.last * 64 + bitNat m.vote * 32 + m.wire % 4 * 8 + m.op % 8)
    ++ leBytes 1 m.voteword.toNat ++ leBytes 4 m.epoch.toNat ++ leBytes 2 m.srcRank ++ leBytes 2 m.chunk ++ leBytes 4 m.step.toNat
    ++ leBytes 4 m.offset ++ leBytes 4 m.count ++ leBytes 2 (m.datum % 512).toNat ++ leBytes 2 0 ++ leBytes 4 m.check.toNat

/-- A collective message as its flits carry it: the header, then the element bytes (R306). -/
def CollMsg.toBytes (m : CollMsg) : List Byte := m.header ++ m.bytes

/-- The collective message that bytes hold; none when they are too few for a header (R306). -/
def CollMsg.ofBytes (b : List Byte) : Option CollMsg :=
  let f (o n : Nat) : Nat := leNat ((b.drop o).take n)
  let k := f 2 1
  let d := f 0x18 2 % 512
  if b.length < 32 then none
  else some {
    entry := f 0 2, gather := decide (k / 128 = 1), last := decide (k / 64 % 2 = 1), vote := decide (k / 32 % 2 = 1)
    wire := k / 8 % 4, op := k % 8, voteword := BitVec.ofNat 3 (f 3 1), epoch := BitVec.ofNat 32 (f 4 4), chunk := f 0xA 2
    srcRank := f 8 2, step := BitVec.ofNat 32 (f 0xC 4), offset := f 0x10 4, count := f 0x14 4
    datum := if d < 256 then (d : Int) else (d : Int) - 512, check := BitVec.ofNat 32 (f 0x1C 4), bytes := b.drop 32 }

/-! ### Sending flits (R287 to R291) -/

/-- Send flits on link `n`. -/
def State.sendFlits (s : State) (n : Nat) (fs : List Flit) : State := fs.foldl (fun (s : State) f => s.send (.flit n f)) s

/-- Flits of a message (R292). -/
def OutMsg.flits (m : OutMsg) : Nat := max 1 ((m.data.length + 239) / 240)

/-- Virtual channel `vc` of a link. -/
def Link.vcOf (l : Link) (vc : Nat) : VcState := mget VcState.zero l.vcs vc

/-- The next DATA flit of a message (R286, R292). -/
def Link.dataFlit (l : Link) (m : OutMsg) : Flit :=
  let d := (m.data.drop (240 * m.sent)).take 240
  { epoch := m.epoch, seq := l.nextSeq, ack := l.expectSeq - 1, ccount := 0, cvc := 0, len := d.length
    last := decide (m.sent + 1 = m.flits), first := decide (m.sent = 0), vc := m.vc, type := 1, data := d }

/-- Weight of a virtual channel in LNK_VCWEIGHT (R326). -/
def vcWeightOf (w : W32) (vc : Nat) : Nat := w.toNat / 16 ^ (if vc < 4 then vc else vc - 1) % 16

/-- Has a channel a flit to send, and a credit for it (R289)? -/
def Link.vcReady (l : Link) (vc : Nat) : Bool :=
  l.outMsgs.any (fun m => decide (m.vc = vc) && decide (m.sent < m.flits)) && decide (0 < (l.vcOf vc).credits)

/-- The channel whose flit goes next, with the round robin after it: VC4 first; then deficit round robin by weight; a channel of weight
0 only when no other is ready (R291). -/
def Link.pickVc (l : Link) (w : W32) : Option (Nat × Link) :=
  let turn : List Nat := [0, 1, 2, 3, 5, 6]
  if l.vcReady 4 then some (4, l)
  else if l.quota ≠ 0 ∧ l.vcReady l.rr then some (l.rr, { l with quota := l.quota - 1 })
  else
    let order := turn.filter (fun v => decide (l.rr < v)) ++ turn.filter fun v => decide (v ≤ l.rr)
    match order.find? fun v => l.vcReady v && decide (vcWeightOf w v ≠ 0) with
    | some v => some (v, { l with rr := v, quota := vcWeightOf w v - 1 })
    | none => (turn.find? l.vcReady).map fun v => (v, l)

/-- Replace the first message of a list that satisfies a test. -/
def replaceFirst (p : OutMsg → Bool) (f : OutMsg → OutMsg) : List OutMsg → List OutMsg
  | [] => []
  | m :: ms => if p m then f m :: ms else m :: replaceFirst p f ms

/-- Send the next DATA flit, if the link may: it is UP, its replay buffer is not full, and a channel with a credit has a flit (R287 to
R291). -/
def Link.sendNext (l : Link) (w : W32) (now : W64) : Option (Link × Flit) :=
  if l.state ≠ .up ∨ 2048 ≤ l.replay.length then none
  else match l.pickVc w with
    | none => none
    | some (vc, l) =>
      let mine (m : OutMsg) : Bool := decide (m.vc = vc) && decide (m.sent < m.flits)
      match l.outMsgs.find? mine with
      | none => none
      | some m =>
        let f := l.dataFlit m
        some ({ l with
          outMsgs := replaceFirst mine (fun m => { m with sent := m.sent + 1, lastSeq := f.seq }) l.outMsgs
          replay := l.replay ++ [(f, now)], nextSeq := l.nextSeq + 1
          txFlits := BitVec.ofNat 64 (min (2 ^ 64 - 1) (l.txFlits.toNat + 1))
          vcs := mmod VcState.zero l.vcs vc fun v => { v with credits := v.credits - 1 } }, f)

/-- Send DATA flits as long as the link may, at most `n` of them. -/
def Link.sendAll (w : W32) (now : W64) : Nat → Link → Link × List Flit
  | 0, l => (l, [])
  | n + 1, l =>
    match l.sendNext w now with
    | none => (l, [])
    | some (l, f) => let (l, fs) := Link.sendAll w now n l; (l, f :: fs)

/-- Link `n` sends what it may send now. -/
def State.pump (s : State) (n : Nat) : State :=
  let (l, fs) := Link.sendAll s.vcWeight s.time 2048 (s.link n)
  (s.setLink n l).sendFlits n fs

/-- Give link `n` a message, and let it send. -/
def State.transmit (s : State) (n vc : Nat) (epoch : W32) (key : Nat) (data : List Byte) : State :=
  (s.modLink n fun l => { l with outMsgs := l.outMsgs ++ [⟨vc, epoch, key, data, 0, 0⟩] }).pump n

/-- Send a one-flit VC4 message on some links (R312, R313, R432). -/
def State.sendVc4 (s : State) (links : List Nat) (data : List Byte) : State :=
  links.foldl (fun (s : State) n => s.transmit n 4 0 0 data) (s.send (.vc4 links data))

/-- The IDLE flit that returns an ACK and credits (R287, R289). -/
def Link.idleFlit (l : Link) (ccount cvc : Nat) : Flit :=
  { epoch := 0, seq := l.nextSeq, ack := l.expectSeq - 1, ccount := ccount, cvc := cvc, len := 0, last := false, first := false, vc := 0
    type := 0, data := [] }

/-- Return `n` credits of a channel, at most 255 in a flit (R286, R289). -/
def State.returnCredits (s : State) (l vc n : Nat) : State :=
  let full := List.replicate (n / 255) 255
  s.sendFlits l ((full ++ if n % 255 = 0 then [] else [n % 255]).map fun c => (s.link l).idleFlit c vc)

/-- Free `n` receive buffers of a channel: their credits return (R289). -/
def State.freeBuffers (s : State) (l vc n : Nat) : State :=
  let v := (s.link l).vcOf vc
  let k := min n v.busy
  if k = 0 then s
  else (s.modLink l fun x => { x with vcs := mset VcState.zero x.vcs vc { v with busy := v.busy - k } }).returnCredits l vc k

/-! ### The link a message takes (R277, R278, R292) -/

/-- The link of a list, from index `key` on with wrap, that a message takes: the first UP one; with none UP, the first in use, then the
first that is not lost; none when all are lost. -/
def State.routeOver (s : State) (links : List Nat) (key : Nat) : Option Nat :=
  let order := links.drop key ++ links.take key
  (order.find? fun n => decide ((s.link n).state = .up)).orElse fun _ =>
    (order.find? fun n => (s.link n).carries).orElse fun _ => order.find? fun n => !(s.link n).lost

/-- The link of a bundle that a stage queue of index `key` uses: the one that still carries a message of that index and is not lost, so
that no later message overtakes it; else the first UP one from the index on (R292). -/
def State.queueLink (s : State) (links : List Nat) (key : Nat) : Option Nat :=
  (links.find? fun n => !(s.link n).lost && (s.link n).outMsgs.any fun m => decide (m.vc = 2) && decide (m.key = key)).orElse
    fun _ => s.routeOver links key

/-- PEER_LOST of partition `p` for the neighbour over some links: link number and gang member index, 0xFF for none (R277, R443). -/
def State.pathLost (s : State) (p : Nat) (links : List Nat) : State :=
  s.partFault p cPeerLost true 0 (detailOf (links.headD 0) ((s.farMember (links.headD 0)).getD 0xFF) 0 0)

/-- Send a message of partition `p` on one of some links; a neighbour that is unreachable is PEER_LOST (R277). -/
def State.sendOver (s : State) (p : Nat) (links : List Nat) (vc : Nat) (epoch : W32) (key : Nat) (data : List Byte) : State :=
  match if vc = 2 then s.queueLink links key else s.routeOver links key with
  | some n => s.transmit n vc epoch key data
  | none => s.pathLost p links

/-- The neighbour of this device in a torus direction, as a shard identity, by the position its bundle works with (R274, R325). -/
def State.neighbour (s : State) (role : Nat) : Nat :=
  let c := s.posOf ((bundle role).headD 0)
  let (x, y, z) := (s.member, coordY c, coordZ c)
  match role with
  | 1 => positionId x ((y + 1) % 32) z
  | 2 => positionId x ((y + 31) % 32) z
  | 3 => positionId x y ((z + 1) % 32)
  | _ => positionId x y ((z + 31) % 32)

/-- The gang members that relay for this device, ascending: six others (R278). -/
def State.relayers (s : State) : List Nat := ((List.range 8).filter fun j => decide (j ≠ s.member)).take 6

/-- The gang links over which relaying members can be reached for a neighbour whose place a hot spare has taken (R278). -/
def State.relayLinks (s : State) : List Nat := s.relayers.map s.gangLink

/-- Is the neighbour in a torus direction unreachable: every link of its bundle lost, or, when a hot spare has its place, every gang link to
a relaying member (R277, R278)? -/
def State.torusLost (s : State) (role : Nat) : Bool :=
  s.allLost (if s.relayed.contains (s.neighbour role) then s.relayLinks else bundle role)

/-- Send torus traffic of partition `p` in a direction: over its bundle, or, when a hot spare has the neighbour's place, over a gang port
to one of the relaying members in turn, but for those whose gang link is lost (R277, R278). -/
def State.sendTorus (s : State) (p role vc : Nat) (epoch : W32) (key : Nat) (data : List Byte) : State :=
  let dest := s.neighbour role
  if s.relayed.contains dest then
    let live := s.relayLinks.filter fun n => !(s.link n).lost
    match live[s.stripe % max 1 live.length]? with
    | some l => (({ s with stripe := s.stripe + 1 }).send (.relay [l] vc dest data)).transmit l vc epoch 0 data
    | none => s.pathLost p s.relayLinks
  else s.sendOver p (bundle role) vc epoch key data

/-- The way towards a position, as R365 codes a ROUTE: its gang port; else, along an axis on which it stands apart, the shorter sense of the
torus (R364, R367; the sense is a DESIGN CHOICE, log 155). -/
def State.wayTo (s : State) (dest : Nat) : Nat :=
  let dy := (dest / 256 % 256 + 32 - coordY s.coord) % 32
  let dz := (dest / 65536 + 32 - coordZ s.coord) % 32
  if dy = 0 ∧ dz = 0 then 0x10 + dest % 256
  else if dy ≠ 0 then (if dy ≤ 16 then 1 else 2)
  else if dz ≤ 16 then 3 else 4

/-- Send a message of partition `p` on a route: as torus traffic, or over a gang link; a member's own index names the hot spare, which
stands at port 0 (R275, R278, R365, R381). -/
def State.sendOn (s : State) (p route vc : Nat) (epoch : W32) (data : List Byte) : State :=
  if route < 0x10 then s.sendTorus p route vc epoch 0 data
  else s.sendOver p [if route - 0x10 = s.member ∧ !coordSpare s.coord then 0 else s.gangLink (route - 0x10)] vc epoch 0 data

/-- The largest message: 256 flits of 240 bytes (R292). -/
def maxMessage : Nat := 256 * 240

/-- The bytes of a message that Masthead complexes or backup execution send by name. -/
def nameBytes (what : String) : List Byte := what.toList.map fun c => BitVec.ofNat 8 c.toNat

/-- Send a message by name on some links, on VC5, or on VC6 with the collective epoch (R290, R295, R372, R387). The spec gives these
messages no layout and no route: the header of the model's own, and that each goes to every neighbour of the job or the unit, are a
DESIGN CHOICE (log 73, log 152). -/
def State.sendNamed (s : State) (p vc : Nat) (links : List Nat) (what : String) : State :=
  let e : W32 := if vc = 6 then (s.part p).caps.epoch else 0
  links.foldl (fun (s : State) n => s.transmit n vc e 0 (leBytes 1 (vc + 3) ++ leBytes 1 0 ++ leBytes 2 p ++ leBytes 12 0 ++ nameBytes what))
    (s.send (if vc = 6 then .vc6 p e what else .vc5 p what))

/-- A coordinator or unit message to the neighbours of the job (R372, R382). -/
def State.vc5 (s : State) (p : Nat) (what : String) : State := s.sendNamed p 5 (s.jobLinks p) what

/-- A message of backup execution to the neighbours of the job (R386, R387). -/
def State.vc6 (s : State) (p : Nat) (what : String) : State := s.sendNamed p 6 (s.jobLinks p) what

/-- Cut `n` units from `off` into runs of at most `m`. -/
def cutRange (off n m : Nat) : Nat → List (Nat × Nat)
  | 0 => []
  | f + 1 => if n = 0 then [] else (off, min n m) :: cutRange (off + min n m) (n - min n m) m f

/-- Bytes cut so that each piece, behind a header of 16 bytes, fits a message; with the offset of each. -/
def messagePieces (bs : List Byte) : List (Nat × List Byte) :=
  (cutRange 0 bs.length (maxMessage - 16) bs.length).map fun e => (e.1, (bs.drop e.1).take e.2)

/-- The header of the model's own for a message whose layout the spec does not give (DESIGN CHOICE, log 152): kind (1 stage entry, 2 stage
credits, 3 spilled row, 4 request of a PFX, 5 data read for a PFX, 6 poisoned words of a row, 7 refusal of a lender, 8 a message of VC5, 9
of VC6, 10 a mirrored write), queue, member or partition, slot, count or lend epoch, offset. -/
def ownHeader (kind who what off : Nat) : List Byte := leBytes 1 kind ++ leBytes 1 0 ++ leBytes 2 who ++ leBytes 4 what ++ leBytes 8 off

/-- Send bytes at an offset of a lend region to gang member `m` on VC3, in as many messages as they need, and after them the words among
them that are poisoned (R137, R265, R290). -/
def State.sendLend (s : State) (p kind m : Nat) (epoch : W32) (off : Nat) (bs : List Byte) (bad : List Nat) : State :=
  let l := s.gangLink m
  let s := (messagePieces bs).foldl (fun (s : State) e =>
    s.transmit l 3 epoch 0 (ownHeader kind p epoch.toNat (off + e.1) ++ e.2)) s
  if bad.isEmpty then s
  else s.transmit l 3 epoch 0 (ownHeader 6 p epoch.toNat off ++ (bad.map (leBytes 4)).flatten)

/-- The backup units of the current variant (R385). -/
def Part.backupUnits (x : Part) : List BackupUnit :=
  match x.cur, x.variant with
  | some v, some i => if v.descFlags / 2 % 2 = 1 then Config.backupUnits x.caps.job i else []
  | _, _ => []

/-- Send bytes written at partition address `a` to the backup position of unit `u`, as far as they lie in a mirrored region (R385). -/
def State.mirrorTo (s : State) (p a : Nat) (bs : List Byte) (u : BackupUnit) : State :=
  u.mirrored.foldl (fun (s : State) r =>
    let lo := max a r.1
    let hi := min (a + bs.length) (r.1 + r.2)
    if hi ≤ lo then s
    else
      let e := (s.part p).caps.epoch
      let d := (bs.drop (lo - a)).take (hi - lo)
      (messagePieces d).foldl (fun (s : State) c => s.sendOn p (s.wayTo u.position) 6 e (ownHeader 10 p e.toNat (lo + c.1) ++ c.2))
        (s.send (.mirror p u.position lo e d))) s

/-- Write bytes at partition address `a`; during a step, what a backup unit mirrors goes to its backup position as well (R252, R385). -/
def State.writeHbm (s : State) (p a : Nat) (bs : List Byte) : State :=
  let s := s.hbmWrite p a bs
  if (s.part p).stepOpen then (s.part p).backupUnits.foldl (fun (s : State) u => s.mirrorTo p a bs u) s else s

/-! ### Loss of a link and epoch advance (R284, R294, R296) -/

/-- Drop what a link has sent and holds in part: its replay buffer, partial messages, held flits and the buffers they fill (R284, R294,
R330). -/
def Link.abandon (l : Link) : Link :=
  { l with
    outMsgs := [], replay := [], nakSent := false, nakCount := 0
    vcs := mmap VcState.zero (fun _ v => { v with open' := [], isOpen := false, slack := false, held := [], busy := 0 }) l.vcs }

/-- What a lost torus link had not delivered is resent whole on another link of its bundle, each message from where its key begins; where
every link of the bundle is lost the partition needs that path and learns so (R277, R292, R294). Of a gang link it is abandoned. -/
def State.resendElsewhere (s : State) (n : Nat) (msgs : List OutMsg) : State :=
  let role := (linkRole n).1
  if role = 0 then s
  else msgs.foldl (fun (s : State) m =>
    match s.routeOver (bundle role) m.key with
    | some k => s.transmit k m.vc m.epoch m.key m.data
    | none => match s.linkPart n with
      | some p => if m.vc ≤ 2 && (s.part p).sound then s.pathLost p (bundle role) else s
      | none => s) s

/-- Link `n` is lost: it is marked so, its state becomes what `f` makes of it, and what it carried is resent on other links or abandoned
(R284, R294). -/
def State.dropLink (s : State) (n : Nat) (f : Link → Link) : State :=
  let l := s.link n
  (s.setLink n (f { (l.stick 1).abandon with lost := true })).resendElsewhere n l.outMsgs

/-- The channels whose flits carry a collective epoch that is checked (R290). -/
def epochVcs : List Nat := [0, 1, 2, 6]

/-- Does a channel keep its flits in their buffers until a capstan takes the message (R298)? The others' are freed at acceptance. -/
def vcKeeps (vc : Nat) : Bool := decide (vc ≤ 1)

/-- A flit enters its message on a virtual channel (R292, R293). -/
def VcState.take (v : VcState) (f : Flit) (now : W64) : VcState :=
  let body := if f.first then [f] else v.open' ++ [f]
  { v with open' := if f.last then [] else body, isOpen := !f.last, lastFlit := now, slack := false }

/-- One channel of one link when its partition has reached epoch `e`: the partial message of the old epoch is discarded; held flits of
`e` are accepted, those neither of `e` nor of `e + 1` are stale; what no longer fills a buffer returns its credit (R294 to R296). -/
def State.advanceVc (s : State) (n vc : Nat) (e : W32) : State :=
  let v := (s.link n).vcOf vc
  let ready := v.held.filter fun f => decide (f.epoch = e)
  let wait := v.held.filter fun f => decide (f.epoch = e + 1)
  let stale := v.held.length - ready.length - wait.length
  let part := if v.isOpen then min v.busy v.open'.length else 0
  let v' := ready.foldl (fun (w : VcState) f => w.take f s.time)
    { v with open' := [], isOpen := false, slack := false, held := wait
             busy := v.busy - part + if vcKeeps vc then ready.length else 0 }
  let back := part + stale + if vcKeeps vc then 0 else ready.length
  (s.modLink n fun l => { l with stale := sat32 l.stale stale, vcs := mset VcState.zero l.vcs vc v' }).returnCredits n vc back

/-- What the epoch that partition `p` has reached does to its links' buffers (R294 to R296). -/
def State.afterEpoch (s : State) (p : Nat) : State :=
  let e := (s.part p).caps.epoch
  ((List.range 32).filter fun n => decide ((s.link n).carries) && decide (s.linkPart n = some p)).foldl (fun (s : State) n =>
    epochVcs.foldl (fun (s : State) vc => s.advanceVc n vc e) s) s

end Sys2Proof.Machine
end

