-- ==== Sys2Proof/Machine/Flags.lean ====
section
/-! DEFINITION. Integer results and every flag computation of the scalar instructions (R90, R91, R92). -/

namespace Sys2Proof.Machine

/-- Operand width w of R90: 32 with W32, else 64. -/
def opWidth (w32 : Bool) : Nat := if w32 then 32 else 64

/-- The low `n` bits of a register, as a number. -/
def lowBits (n : Nat) (x : W64) : Nat := x.toNat % 2 ^ n

/-- The low `n` bits of a register, as two's complement. -/
def lowInt (n : Nat) (x : W64) : Int := sintOf n x.toNat

/-- An integer modulo 2^n, zero-extended to 64 bits. -/
def wrapTo (n : Nat) (x : Int) : W64 := BitVec.ofNat 64 (x % (2 ^ n : Nat)).toNat

/-- Is r's bit w−1 set? -/
def negBit (n : Nat) (r : W64) : Bool := decide (2 ^ (n - 1) ≤ lowBits n r)

/-- Does a signed value lie outside n bits? -/
def outside (n : Nat) (x : Int) : Bool :=
  decide (x < -(2 ^ (n - 1) : Nat)) || decide ((2 ^ (n - 1) : Nat) ≤ x)

/-- A result with its flags. -/
structure AluOut where
  r : W64
  f : Flags
  deriving DecidableEq, Repr

/-- Flags Z and N of a result, with given C and V, and U 0 (R91). -/
def flagsZN (n : Nat) (r : W64) (c v : Bool) : Flags := ⟨decide (lowBits n r = 0), negBit n r, c, v, false⟩

/-- ADD (R90, R91). -/
def aluAdd (n : Nat) (a b : W64) : AluOut :=
  let r := wrapTo n ((lowBits n a : Int) + lowBits n b)
  ⟨r, flagsZN n r (decide (2 ^ n ≤ lowBits n a + lowBits n b)) (outside n (lowInt n a + lowInt n b))⟩

/-- SUB and CMP (R90, R91). -/
def aluSub (n : Nat) (a b : W64) : AluOut :=
  let r := wrapTo n ((lowBits n a : Int) - lowBits n b)
  ⟨r, flagsZN n r (decide (lowBits n a < lowBits n b)) (outside n (lowInt n a - lowInt n b))⟩

/-- MUL: fn 0 low half, 1 high half unsigned, 2 high half signed (R89 to R91). -/
def aluMul (n fn : Nat) (a b : W64) : AluOut :=
  let p : Int := if fn = 2 then lowInt n a * lowInt n b else (lowBits n a : Int) * lowBits n b
  let r := if fn = 0 then wrapTo n p else wrapTo n (p / (2 ^ n : Nat))
  ⟨r, flagsZN n r false (decide (fn = 0) && outside n (lowInt n a * lowInt n b))⟩

/-- AND, OR, XOR share their flags (R91). -/
def aluLogic (n : Nat) (r : W64) : AluOut :=
  let q := wrapTo n (lowBits n r)
  ⟨q, flagsZN n q false false⟩

/-- The shift amount of R90. -/
def shiftAmount (n : Nat) (b : W64) : Nat := b.toNat % n

/-- SHL (R90, R91). -/
def aluShl (n : Nat) (a b : W64) : AluOut :=
  let k := shiftAmount n b
  let x := lowBits n a
  let r := wrapTo n (x * 2 ^ k : Nat)
  ⟨r, flagsZN n r (decide (k ≠ 0) && decide ((x >>> (n - k)) % 2 = 1)) false⟩

/-- SHR, logical or arithmetic (R90, R91). -/
def aluShr (n : Nat) (arith : Bool) (a b : W64) : AluOut :=
  let k := shiftAmount n b
  let x : Int := if arith then lowInt n a else lowBits n a
  let r := wrapTo n (x / (2 ^ k : Nat))
  ⟨r, flagsZN n r (decide (k ≠ 0) && decide ((lowBits n a >>> (k - 1)) % 2 = 1)) false⟩

/-- The flags of FCMP (R92). -/
def fcmpFlags (a b : BitVec 32) : Flags :=
  let x := f32 a
  let y := f32 b
  if x.isNan || y.isNan then ⟨false, false, false, false, true⟩
  else if Val.eq x y then ⟨true, false, false, false, false⟩
  else if Val.lt x y then ⟨false, true, true, false, false⟩
  else ⟨false, false, false, false, false⟩

/-- Write Z, N, C, V, U into a condition word, all else unchanged (R91). -/
def putFlags (cw : W32) (f : Flags) : W32 :=
  (cw &&& ~~~(0x1F : W32)) ||| BitVec.ofNat 32 ((if f.z then 1 else 0) + (if f.n then 2 else 0)
    + (if f.c then 4 else 0) + (if f.v then 8 else 0) + (if f.u then 16 else 0))

end Sys2Proof.Machine
end

