-- ==== Sys2Proof/Machine/Operands.lean ====
section
/-! DEFINITION. Operand forms (R84, R112), the strand scheduler's READY conditions (R64, R87), the interlocks, and
issuing an instruction: the one way every strand instruction begins. -/

namespace Sys2Proof.Machine

/-! ### Scalar operands (R84) -/

/-- The value of a scalar source specifier of strand `k`, as the storage delivers it (R59, R84). -/
def Tile.src (x : Tile) (k : Nat) (w : IWord) (sp : Nat) : W64 :=
  let y := x.delivered
  let v := y.strand k
  if sp ≤ 0x0F then mget 0 v.s sp
  else if 0x40 ≤ sp ∧ sp ≤ 0x4F then mget 0 y.g (sp - 0x40)
  else if sp = 0x81 then BitVec.ofNat 64 v.cw.toNat
  else if sp = 0x82 then BitVec.ofNat 64 v.pc.toNat
  else if sp = 0xC0 then immOf w
  else 0

/-- Write a scalar destination specifier of strand `k` (R84): ZERO discards; CW takes its RW fields, which are all that its word holds. The
words written lose their errors (R59). -/
def Tile.dst (x : Tile) (k : Nat) (sp : Nat) (r : W64) : Tile :=
  let x := x.clearScalar k sp
  if sp ≤ 0x0F then x.modStrand k fun v => { v with s := mset 0 v.s sp r }
  else if 0x40 ≤ sp ∧ sp ≤ 0x4F then { x with g := mset 0 x.g (sp - 0x40) r }
  else if sp = 0x81 then
    x.modStrand k fun v => { v with cw := (v.cw &&& ~~~cwMask) ||| (BitVec.ofNat 32 r.toNat &&& cwMask) }
  else x

/-- Write some fields of the condition word of strand `k`: they merge into the word as its read delivers it, which has been checked, and the
word gets new check bits (R59, R91). -/
def Tile.mergeCw (x : Tile) (k : Nat) (f : W32 → W32) : Tile :=
  (x.clearScalar k 0x81).modStrand k fun v => { v with cw := f (x.delivered.strand k).cw }

/-- Write the condition word's Z, N, C, V, U (R91). -/
def Tile.putFlags (x : Tile) (k : Nat) (f : Flags) : Tile := x.mergeCw k fun c => Sys2Proof.Machine.putFlags c f

/-- Set or clear Z, leaving the other fields (R91, R143, R144). -/
def Tile.putZ (x : Tile) (k : Nat) (z : Bool) : Tile :=
  x.mergeCw k fun c => (c &&& ~~~1#32) ||| (if z then 1#32 else 0#32)

/-- The scalar specifiers an instruction reads at issue, in their positions (R84, R113, R120). -/
def scalarSources (w : IWord) : List Nat :=
  let o := opcOf w
  let vec (x : Nat) : List Nat := if vkind x = .scalar then [x] else []
  if 0x01 ≤ o ∧ o ≤ 0x10 then [saOf w, sbOf w]
  else if 0x20 ≤ o ∧ o ≤ 0x23 then [saOf w, sbOf w]
  else if o = 0x30 ∨ o = 0x31 then [saOf w]
  else if o = 0x40 ∨ o = 0x41 then [saOf w, sbOf w, scOf w]
  else if o = 0x50 ∨ o = 0x51 then [saOf w]
  else if o = 0x53 ∨ o = 0x57 then vec (saOf w) ++ vec (sbOf w) ++ vec (scOf w)
  else if o = 0x55 then vec (saOf w) ++ vec (sbOf w)
  else if o = 0x58 ∨ o = 0x59 ∨ o = 0x5C then [sbOf w]
  else if o = 0x5A then [saOf w, sbOf w]
  else if o = 0x5B then [scOf w]
  else if 0x80 ≤ o ∧ o ≤ 0x82 then [saOf w, sbOf w, scOf w]
  else if o = 0x88 ∨ o = 0x89 then [saOf w]
  else if o = 0x90 then (if wf w 115 115 = 1 then [] else [saOf w, sbOf w])
  else if o = 0x98 then
    (if xtOf w = 3 then [saOf w] else if xtOf w = 1 ∨ xtOf w = 2 then vec (saOf w) else [])
  else if o = 0x99 then [saOf w]
  else []

/-- The scalar destination specifier the control core writes, if any. -/
def scalarDest (w : IWord) : Option Nat :=
  let o := opcOf w
  if (0x01 ≤ o ∧ o ≤ 0x0F) ∨ o = 0x22 ∨ o = 0x91 ∨ (o = 0x98 ∧ xtOf w = 0) ∨ (o = 0x99 ∧ xtOf w = 1) then
    some (sdOf w)
  else none

/-- The S registers that accepted vector instructions of strand `k` will write (R113 rule 5). -/
def Tile.pendingRegs (x : Tile) (k : Nat) : List Nat :=
  ((x.vecOps k).filterMap fun o =>
    if opcOf o.word = 0x55 then some (sdOf o.word) else if opcOf o.word = 0x58 then some (scOf o.word) else none).filter
    fun r => decide (r ≤ 0x0F)

/-- The condition-word fields by who writes them: Z to U; VINF and VZERO; VNAN and VTHR; the drain fields (R87). -/
inductive CwGroup where
  | cmp | infZero | nanThr | drain
  deriving DecidableEq, Repr

/-- The fields a condition code reads; none for AL. -/
def cwGroupOf (c : Nat) : Option CwGroup :=
  if c = 0 then none else if c ≤ 9 then some .cmp else if c = 0xB ∨ c = 0xC then some .infZero
  else if c ≤ 0xD then some .nanThr else some .drain

/-- Is a writer of the fields outstanding for strand `k`: a scalar summary, a VQNT, a VDRAIN (R87)? Z is written when its instruction
issues, so no such writer is ever outstanding in this model. -/
def Tile.cwPending (x : Tile) (k : Nat) (g : CwGroup) : Bool :=
  (x.vecOps k).any fun o =>
    match g with
    | .cmp => false
    | .infZero => decide (opcOf o.word = 0x55)
    | .nanThr => decide (opcOf o.word = 0x55) || decide (opcOf o.word = 0x58)
    | .drain => decide (opcOf o.word = 0x52)

/-- Must the word wait for a source register or a condition-word field (R64 condition 4, R87)? -/
def Tile.sourcePending (x : Tile) (k : Nat) (w : IWord) : Bool :=
  let pend := x.pendingRegs k
  let reads (c : Nat) : Bool := match cwGroupOf c with | some g => x.cwPending k g | none => false
  let usesCw := (scalarSources w).contains 0x81 || decide (scalarDest w = some 0x81)
  ((scalarSources w).any pend.contains)
    || reads (pcondOf w)
    || (decide (opcOf w = 0x0A) && reads (xtOf w % 16))
    || (decide (opcOf w = 0x21) && decide (0xA ≤ xtOf w % 16) && reads (xtOf w % 16))
    || (usesCw && (x.cwPending k .nanThr || x.cwPending k .drain))

/-- Is the word's issue queue full (R64 condition 5)? -/
def Tile.queueFull (x : Tile) (w : IWord) : Option Wait :=
  match queueOf w with
  | .none => none
  | .matrix => if 4 ≤ x.mq.length then some .matrixQueue else none
  | .vector => if 4 ≤ x.vq.length then some .vectorQueue else none
  | .move => if 8 ≤ x.xq.length then some .moveQueue else none
  | .coll => if 4 ≤ x.cq.length then some .collQueue else none

/-- The next instruction word, when the fetch buffer holds it (R61). -/
def Strand.nextWord (v : Strand) : Option IWord :=
  if v.fbase.toNat ≤ v.pc.toNat ∧ (v.pc.toNat - v.fbase.toNat) % 16 = 0 then
    v.fbuf[(v.pc.toNat - v.fbase.toNat) / 16]?
  else none

/-! ### Waiting on operations (R98 to R100, R142, R143) -/

/-- Source and destination space of a DMA word (R134). -/
def dmaTouchesHost (w : IWord) : Bool := decide (wf w 113 112 = 3) || decide (wf w 115 114 = 3)

/-- The FENCE class bit of a movement or stage-queue word (R100, R111). -/
def moveClass (w : IWord) : Nat :=
  if opcOf w = 0x80 then (if dmaTouchesHost w then 16 else 8)
  else if opcOf w = 0x88 ∨ opcOf w = 0x89 then 32 else 8

/-- The classes of `mask` in which strand `k` has an operation that is not complete (R100). Scalar stores are performed
as they issue. -/
def State.fenceOpen (s : State) (t k mask : Nat) : Nat :=
  let x := s.tile t
  let bit (b : Nat) (c : Bool) : Nat := if mask / b % 2 = 1 ∧ c then b else 0
  bit 2 (!(x.vecOps k).isEmpty || s.stageMsgs.any fun m =>
      decide (m.tile = t) && decide (m.strand = k) && (match m.stage with | .observe .. => true | _ => false))
    + bit 4 (!(x.matOps k).isEmpty)
    + bit 8 ((x.moveOps k).any fun o => decide (moveClass o.word = 8))
    + bit 16 ((x.moveOps k).any fun o => decide (moveClass o.word = 16))
    + bit 32 ((x.moveOps k).any fun o => decide (moveClass o.word = 32))

/-- Does strand `k` hold slot `n` by an outstanding slot-form COLL (R142)? -/
def State.slotHeld (s : State) (t k n : Nat) : Bool :=
  let holds (o : QOp) : Bool :=
    decide (opcOf o.word = 0x90) && decide (wf o.word 115 115 = 1) && decide (o.strand = k)
      && (decide (saOf o.word = n) || decide (sbOf o.word = n))
  (s.tile t).cq.any holds || (match s.partOf t with
    | some p => (s.part p).colls.any fun c => decide (c.tile = t) && holds c.op
    | none => false)

/-- The stage a binding's consumer stands at, in a box of `n` stages (R343). -/
def QueueBinding.consumerStage (b : QueueBinding) (n : Nat) : Nat :=
  if b.dir = 0 then b.producerStage else if b.dir = 1 then (b.producerStage + 1) % n else (b.producerStage + n - 1) % n

/-- The index of the queue binding of a tile's outbound or inbound queue number, at this device's stage (R343). -/
def State.bindingOf (s : State) (p logical : Nat) (out : Bool) (q : Nat) : Option Nat :=
  match (s.part p).cur with
  | some v =>
    let g := s.stageOf v
    let i := v.queues.findIdx fun b =>
      if out then decide (b.producerStage = g) && decide (b.producerTile = logical) && decide (b.outQueue = q)
      else decide (b.consumerStage v.yj = g) && decide (b.consumerTile = logical) && decide (b.inQueue = q)
    if i < v.queues.length then some i else none
  | none => none

/-- Stage-queue state of binding `i`. -/
def Part.queue (x : Part) (i : Nat) : QueueState := mget QueueState.zero x.queues i

/-- Is a CWAIT on `e` of strand `k` still waiting (R143)? -/
def State.cwaitOpen (s : State) (t k e : Nat) : Bool :=
  match s.partOf t with
  | none => false
  | some p =>
    let x := s.part p
    if e = 0xFFFF then x.stepOpen && x.commitStatus.isNone
    else
      ((s.tile t).cq.any fun o => decide (opcOf o.word = 0x90) && decide (o.strand = k) && decide (immf o.word 15 0 = e))
        || (x.colls.any fun c => decide (c.tile = t) && decide (c.op.strand = k) && decide (c.entry = e))
        || x.aborted.contains (t, k, e)

/-- The synchronisation condition of R64 (condition 2) that a word of strand `k` fails, if any. -/
def State.syncWait (s : State) (t k : Nat) (w : IWord) : Option Wait :=
  let o := opcOf w
  let heldSlot (n : Nat) : Option Wait := if n < 16 && s.slotHeld t k n then some (.slotColl n) else none
  if o = 0x33 then
    let m := s.fenceOpen t k (xtOf w)
    if m = 0 then none else some (.fence m)
  else if o = 0x30 ∧ xtOf w / 2 % 2 = 1 then
    let m := s.fenceOpen t k 0x2F
    if m = 0 then none else some (.fence m)
  else if o = 0x40 ∨ o = 0x41 then heldSlot (sdOf w)
  else if o = 0x42 ∨ o = 0x43 then heldSlot (saOf w)
  else if o = 0x91 then (if s.cwaitOpen t k (immf w 15 0) then some (.cwait (immf w 15 0)) else none)
  else if o = 0x88 ∨ o = 0x89 then
    match s.partOf t with
    | none => none
    | some p =>
      let y := s.part p
      match s.bindingOf p ((y.logicalOf t).getD 0) (decide (o = 0x88)) (immf w 37 32) with
      | none => none
      | some i =>
        let q := y.queue i
        if o = 0x88 then (if q.credits = 0 then some (.sqput i) else none)
        else
          let d := match y.cur with | some v => (v.queues[i]?.map (·.depth)).getD 1 | none => 1
          if mget false q.full (q.gets % d) then none else some (.sqget i)
  else none

/-- Does a recorded wait block the strand until its own event ends it (R95, R99, R103)? -/
def Wait.blocks : Wait → Bool
  | .waitq .. | .bar .. | .yield _ => true
  | _ => false

/-- Do the partition's tiles pause for a switch: it has reached its boundary, and a RUN_STEPS waits (R103, R372 step 4)? -/
def Part.paused (x : Part) : Bool :=
  (match x.ela.run with | some r => r.pauseAt.isSome | none => false) && x.cmds.any fun c => decide (c.op = 3)

/-- Is tile `t` paused by a switch? -/
def State.tilePaused (s : State) (t : Nat) : Bool := match s.partOf t with | some p => (s.part p).paused | none => false

/-- Why a started strand of an unfrozen tile is not READY; `none` when it is READY (R64, R103). -/
def State.notReady (s : State) (t k : Nat) : Option Wait :=
  let x := s.tile t
  let v := x.delivered.strand k
  let blocked : Option Wait := match v.sched with
    | .waiting r => if r.blocks then some r else none
    | _ => none
  if s.tilePaused t then some .warp
  else match blocked with
  | some r => some r
  | none =>
    match v.nextWord with
    | none => some .fetch
    | some w =>
      let runs := predHolds w v.cw
      let sync := if runs then s.syncWait t k w else none
      if (x.sourcePending k w) then some (match sync with | some r => r | none => .source)
      else match sync with
        | some r => some r
        | none => if runs then x.queueFull w else none

/-- Has the strand been started and neither halted nor faulted (R64 condition 1)? -/
def Strand.started (v : Strand) : Bool :=
  match v.sched with
  | .ready | .waiting _ => true
  | _ => false

/-- Is strand `k` READY? -/
def State.strandReady (s : State) (t k : Nat) : Bool :=
  ((s.tile t).strand k).started && (s.notReady t k).isNone

/-- Is `k` the lowest-numbered READY strand of tile `t`, with `w` its next instruction, in a tile that is not frozen
(R64, R108) and whose clock runs? -/
def State.canIssue (s : State) (t k : Nat) (w : IWord) : Bool :=
  !(s.tile t).frozen && !(s.clockStopped t) && decide (k < 512) && s.strandReady t k && decide (((s.tile t).delivered.strand k).nextWord = some w)
    && (List.range k).all fun j => !(s.strandReady t j)

/-- A strand that cannot issue is WAITING, with the reason of the first condition it fails (R64). -/
def State.noteWait (s : State) (t k : Nat) : State :=
  if (s.tile t).frozen || !((s.tile t).strand k).started then s
  else match s.notReady t k with
    | some r => s.modStrand t k fun v => { v with sched := .waiting r }
    | none => s

/-- The strand goes on to its next instruction, READY or not being decided anew (R87, R103). -/
def State.advance (s : State) (t k : Nat) : State :=
  s.modTile t fun x => (x.clearEcc 4 (64 * k + 32) 1).modStrand k fun v => { v with pc := v.pc + 16, sched := .ready }

/-- The storage words read as strand `k` of a tile issues `w`: its PC, the instruction, and the condition word where the predicate reads
it (R59, R106). -/
def Strand.issueWords (v : Strand) (k : Nat) (w : IWord) : List (Nat × Nat) :=
  let i := (v.pc.toNat - v.fbase.toNat) / 16
  [(4, 64 * k + 32)] ++ ((List.range 4).map fun j => (4, 64 * k + 34 + 4 * i + j))
    ++ (if pcondOf w = 0 then [] else [(4, 64 * k + 33)])

/-- Does an instruction write part of the condition word as it issues, so that the word is read and merged (R59, R91, R143, R144)? One whose
destination is the condition word writes it whole. -/
def mergesCw (w : IWord) : Bool :=
  let o := opcOf w
  ((decide (1 ≤ o) && decide (o ≤ 8) && fl106 w) || decide (o = 0x09) || decide (o = 0x10) || decide (o = 0x91)
      || (decide (o = 0x98) && decide (xtOf w = 3))) && decide (scalarDest w ≠ some 0x81)

/-- The storage words of an instruction's scalar sources, of the condition SEL or BRC takes from the condition word, and of a condition word
it writes in part. -/
def operandWords (k : Nat) (w : IWord) : List (Nat × Nat) :=
  let c := xtOf w % 16
  let cw := (decide (opcOf w = 0x0A) && decide (c ≠ 0)) || (decide (opcOf w = 0x21) && decide (0xA ≤ c)) || mergesCw w
  (((scalarSources w).map (scalarWords k)).flatten ++ (if cw then [(4, 64 * k + 33)] else [])).eraseDups

/-- ISSUE (R64, R87, R88, R106). The word `w` of strand `k`: when the strand cannot issue it, the strand waits; an uncorrectable error
in its PC, its instruction, the predicate's condition word or, when it executes, a source it reads is precise (R59); a decode fault
is precise and raised whatever the predicate; a false predicate annuls; otherwise `eff` is the instruction's effect. -/
def State.issue (s : State) (t k : Nat) (w : IWord) (ok : Bool) (eff : State → State) : Out :=
  if s.canIssue t k w then
    let x := s.tile t
    let y := x.delivered.strand k
    let ws := (x.strand k).issueWords k w
    let s := if x.ecc.isEmpty then s else (s.countWords t ws (some k)).modStrand t k fun v => { v with pc := y.pc }
    if let some e := x.badWord ws then .next (s.preciseEcc t k w e.1 (faultAddr 0 0))
    else if !ok then .next (s.precise t k w cIllegal (faultAddr 0 0))
    else if !(predHolds w y.cw) then .next (s.advance t k)
    else
      let s := s.countWords t (operandWords k w) (some k)
      if let some e := x.badWord (operandWords k w) then .next (s.preciseEcc t k w e.1 (faultAddr 0 0))
      else .next (eff s)
  else .next (s.noteWait t k)

/-- A queue entry for word `w` of strand `k`, its scalar sources read (R113). -/
def Tile.mkOp (x : Tile) (k : Nat) (w : IWord) : QOp :=
  { strand := k, pc := (x.strand k).pc, word := w, sa := x.src k w (saOf w), sb := x.src k w (sbOf w)
    sc := x.src k w (scOf w), k0 := 0, datum := 0, scale := none, waited := false, serial := x.serial, inst := 0
    issued := 0, accNo := 0 }

/-- Count an issue of a site-bearing instruction and give it its INSTANCE (R230). -/
def Tile.siteIssue (x : Tile) (o : QOp) : Tile × QOp :=
  let key := 16384 * o.strand + siteOf o.word
  let n := mget 0 x.siteIssues key
  ({ x with siteIssues := mset 0 x.siteIssues key (n + 1) }, { o with inst := n })

end Sys2Proof.Machine
end

