-- ==== Sys2Proof/Machine/Scalar.lean ====
section
/-! DEFINITION. The scalar instructions ADD to FCMP (R89 to R92). -/

namespace Sys2Proof.Machine

/-- Fields every scalar encoding fixes: SC 0x80, XL 0x00, FLAGS[104] 0 (R89). -/
def scalarForm (w : IWord) : Bool := decide (scOf w = 0x80) && decide (xlOf w = 0) && !(fl104 w)

/-- Decode check of the integer instructions with SD, SA, SB (R88, R89): `fns` lists the FN values. -/
def aluOk (fns : List Nat) (w : IWord) : Bool :=
  scalarForm w && fns.contains (xtOf w) && dstOk (sdOf w) && srcOk (saOf w) && srcOk (sbOf w)

/-- Decode check of an instruction whose SETC and W32 must be 0. -/
def noFlags (w : IWord) : Bool := decide (flagsOf w = 0)

/-- The effect shared by the integer instructions: sources read, the result written, flags with SETC (R89 to R91). With SD = CW and SETC 1
the flags are written last, so they stand in Z, N, C, V and U (DESIGN CHOICE: R91 does not say which of the two does; log 137). -/
def aluEffect (t k : Nat) (w : IWord) (f : Nat → W64 → W64 → AluOut) (s : State) : State :=
  let x := s.tile t
  let o := f (opWidth (fl105 w)) (x.src k w (saOf w)) (x.src k w (sbOf w))
  let x := x.dst k (sdOf w) o.r
  let x := if fl106 w then x.putFlags k o.f else x
  (s.setTile t x).advance t k

/-- ADD (R90, R91). -/
def execAdd (t k : Nat) (b : IBody) (s : State) : Out :=
  let w := wordOf 0x01 b
  s.issue t k w (aluOk [0] w) (aluEffect t k w aluAdd)

/-- SUB (R90, R91). -/
def execSub (t k : Nat) (b : IBody) (s : State) : Out :=
  let w := wordOf 0x02 b
  s.issue t k w (aluOk [0] w) (aluEffect t k w aluSub)

/-- MUL (R90, R91). -/
def execMul (t k : Nat) (b : IBody) (s : State) : Out :=
  let w := wordOf 0x03 b
  s.issue t k w (aluOk [0, 1, 2] w) (aluEffect t k w fun n => aluMul n (xtOf w))

/-- AND (R89, R91). -/
def execAnd (t k : Nat) (b : IBody) (s : State) : Out :=
  let w := wordOf 0x04 b
  s.issue t k w (aluOk [0] w) (aluEffect t k w fun n a c => aluLogic n (a &&& c))

/-- OR (R89, R91). -/
def execOr (t k : Nat) (b : IBody) (s : State) : Out :=
  let w := wordOf 0x05 b
  s.issue t k w (aluOk [0] w) (aluEffect t k w fun n a c => aluLogic n (a ||| c))

/-- XOR (R89, R91). -/
def execXor (t k : Nat) (b : IBody) (s : State) : Out :=
  let w := wordOf 0x06 b
  s.issue t k w (aluOk [0] w) (aluEffect t k w fun n a c => aluLogic n (a ^^^ c))

/-- SHL (R90, R91). -/
def execShl (t k : Nat) (b : IBody) (s : State) : Out :=
  let w := wordOf 0x07 b
  s.issue t k w (aluOk [0] w) (aluEffect t k w aluShl)

/-- SHR (R90, R91). -/
def execShr (t k : Nat) (b : IBody) (s : State) : Out :=
  let w := wordOf 0x08 b
  s.issue t k w (aluOk [0, 1] w) (aluEffect t k w fun n => aluShr n (decide (xtOf w = 1)))

/-- Decode check of CMP (R88, R89). -/
def cmpOk (w : IWord) : Bool :=
  scalarForm w && decide (xtOf w = 0) && !(fl106 w) && decide (sdOf w = 0x80) && srcOk (saOf w)
    && srcOk (sbOf w)

/-- CMP: the flags of sa − sb, always written; no register (R89, R91). -/
def execCmp (t k : Nat) (b : IBody) (s : State) : Out :=
  let w := wordOf 0x09 b
  s.issue t k w (cmpOk w) fun s =>
    let x := s.tile t
    let o := aluSub (opWidth (fl105 w)) (x.src k w (saOf w)) (x.src k w (sbOf w))
    (s.setTile t (x.putFlags k o.f)).advance t k

/-- Decode check of SEL (R88, R89). -/
def selOk (w : IWord) : Bool :=
  scalarForm w && noFlags w && decide (xtOf w < 32) && dstOk (sdOf w) && srcOk (saOf w) && srcOk (sbOf w)

/-- SEL: sa if the condition holds, otherwise sb (R89). -/
def execSel (t k : Nat) (b : IBody) (s : State) : Out :=
  let w := wordOf 0x0A b
  s.issue t k w (selOk w) fun s =>
    let x := s.tile t
    let cw := (x.delivered.strand k).cw
    let c := xor (condHolds (xtOf w % 16) (flagsOfCw cw) cw) (decide (xtOf w / 16 = 1))
    (s.setTile t (x.dst k (sdOf w) (if c then x.src k w (saOf w) else x.src k w (sbOf w)))).advance t k

/-- Decode check of LI (R88, R89). -/
def liOk (w : IWord) : Bool :=
  scalarForm w && noFlags w && decide (xtOf w = 0) && dstOk (sdOf w) && decide (saOf w = 0x80)
    && decide (sbOf w = 0x80)

/-- LI: the 64-bit immediate (R89). -/
def execLi (t k : Nat) (b : IBody) (s : State) : Out :=
  let w := wordOf 0x0B b
  s.issue t k w (liOk w) fun s => (s.setTile t ((s.tile t).dst k (sdOf w) (immOf w))).advance t k

/-! ### LDS and STS -/

/-- What a tile address names (R56). -/
inductive TileRegion where
  | store | rows | control | outside
  deriving DecidableEq, Repr

/-- The range that `n` bytes at `a` lie in wholly (R56). -/
def regionOf (a n : Nat) : TileRegion :=
  if a + n ≤ 0x100000 then .store
  else if 0x100000 ≤ a ∧ a + n ≤ 0x102000 then .rows
  else if 0x110000 ≤ a ∧ a + n ≤ 0x111000 then .control
  else .outside

/-- The row-statistics word at byte offset `o` of that memory (R52). -/
def Tile.rsWord (x : Tile) (o : Nat) : W32 :=
  if o / 4 % 2 = 0 then x.rowMax (o / 256) (o / 8 % 32) else x.rowSum (o / 256) (o / 8 % 32)

/-- Write the row-statistics word at byte offset `o` (R52). -/
def Tile.setRsWord (x : Tile) (o : Nat) (v : W32) : Tile :=
  let i := 32 * (o / 256) + o / 8 % 32
  let x := x.clearEcc 3 (o / 4) 1
  if o / 4 % 2 = 0 then { x with rsMax := mset 0xFF800000 x.rsMax i v } else { x with rsSum := mset 0 x.rsSum i v }

/-- TIL_IDENT (R74). -/
def State.tilIdent (s : State) (t : Nat) : Nat :=
  match s.partOf t with
  | some p => bayOf t * 2 ^ 28 + p * 2 ^ 24 + (((s.part p).logicalOf t).getD 0) * 2 ^ 12 + t
  | none => bayOf t * 2 ^ 28 + t

/-- TIL_STATUS (R75). READY_COUNT counts the strands READY as the register is read (DESIGN CHOICE: R75 has those READY in the last cycle, and
cycles between the commands are not in the state; log 183). -/
def State.tilStatus (s : State) (t : Nat) : Nat :=
  let x := s.tile t
  let ready := ((List.range 512).filter fun k => s.strandReady t k).length
  let active := (x.strands.filter fun e => decide (e.2.sched ≠ .inactive)).length
  let spare := match s.partOf t with | some p => (s.part p).isSpare t | none => false
  let faulted := x.strands.any fun e => decide (e.2.sched = .faulted)
  (if x.frozen then 0 else ready) * 2 ^ 22 + active * 2 ^ 12 + x.mq.length * 2 ^ 9 + x.vq.length * 2 ^ 6
    + x.xq.length * 4 + (if spare then 2 else 0) + (if faulted then 1 else 0)

/-- TIL_DRAIN (R76). -/
def Tile.tilDrain (x : Tile) : Nat :=
  x.fullWaits * 2 ^ 16 + x.highWater * 2 ^ 12 + x.drain.length * 2 ^ 8
    + x.drain.foldl (fun a d => a + 2 ^ d.number) 0

/-- TIL_ECC (R77). -/
def Tile.tilEcc (x : Tile) : Nat := x.corrCount * 2 ^ 16 + x.uncorrCount * 2 ^ 8 + x.lastUnit

/-- TIL_SLOTn (R78). -/
def SlotDesc.reg (d : SlotDesc) : Nat :=
  (d.datum % 512).toNat * 2 ^ 32 + (if d.owned then 2 ^ 31 else 0) + d.inflight * 2 ^ 27 + d.owner * 2 ^ 18 + d.depth

/-- The 8 bytes of tile control space at offset `o`, a multiple of 8, as a number (R73, R97); unlisted offsets read 0. -/
def State.til64 (s : State) (t o : Nat) : Nat :=
  let x := s.tile t
  if o = 0x000 then s.tilIdent t + 2 ^ 32 * s.tilStatus t
  else if o = 0x008 then x.tilDrain + 2 ^ 32 * x.tilEcc
  else if 0x040 ≤ o ∧ o < 0x0C0 then (x.slot ((o - 0x040) / 8)).reg
  else if 0x100 ≤ o ∧ o < 0x150 then (mget 0 x.idle ((o - 0x100) / 8)).toNat
  else if o = 0x150 then x.busy.toNat
  else if o = 0x158 then x.kstep.toNat
  else if o = 0x160 then x.kstep4.toNat
  else if 0x400 ≤ o ∧ o < 0x500 then
    (x.counter ((o - 0x400) / 4)).toNat + 2 ^ 32 * (x.counter ((o - 0x400) / 4 + 1)).toNat
  else 0

/-- The `n` bytes an LDS at address `a` reads, as a number; `n` divides `a` (R52, R56, R73, R90). -/
def State.ldsValue (s : State) (t a n : Nat) : Nat :=
  let x := s.tile t
  match regionOf a n with
  | .store => leNat (x.tsRead a n)
  | .rows =>
    let o := a - 0x100000
    let y := x.delivered
    if n = 8 then (y.rsWord o).toNat + 2 ^ 32 * (y.rsWord (o + 4)).toNat else (y.rsWord o).toNat
  | .control => (s.til64 t ((a - 0x110000) / 8 * 8) >>> (8 * (a % 8))) % 2 ^ (8 * n)
  | .outside => 0

/-- Storage unit and first word of an access, for its error check (R59). -/
def eccUnitOf (a n : Nat) : Option (Nat × Nat) :=
  match regionOf a n with
  | .store => some (0, a / 4)
  | .rows => some (3, (a - 0x100000) / 4)
  | _ => none

/-- Is an LDS or STS access in bounds, aligned, and of an allowed size (R56, R90)? -/
def scalarAccessOk (a n : Nat) : Bool :=
  decide (a % n = 0) && (match regionOf a n with
    | .outside => false
    | .rows => decide (4 ≤ n)
    | _ => true)

/-- The address of LDS and STS (R90). -/
def Tile.scalarAddr (x : Tile) (k : Nat) (w : IWord) : Nat :=
  ((x.src k w (saOf w)).toNat + (immOf w).toNat) % 2 ^ 32

/-- Decode check of LDS (R88, R89). -/
def ldsOk (w : IWord) : Bool :=
  scalarForm w && noFlags w && decide (xtOf w < 8) && dstOk (sdOf w) && srcOk (saOf w)
    && decide (sbOf w = 0x80)

/-- LDS (R90). -/
def execLds (t k : Nat) (b : IBody) (s : State) : Out :=
  let w := wordOf 0x0C b
  s.issue t k w (ldsOk w) fun s =>
    let n := 2 ^ (xtOf w % 4)
    let a := (s.tile t).scalarAddr k w
    if !(scalarAccessOk a n) then s.precise t k w cBounds (faultAddr 1 a)
    else
      let (bad, s) := match eccUnitOf a n with
        | some (u, i) =>
          let words := (n + 3) / 4
          (((s.tile t).firstBad u i words).map fun j => (u, j), s.countEcc t u i words (some k))
        | none => (none, s)
      match bad with
      | some (u, i) => s.preciseEcc t k w u (faultAddr 1 (4 * (a / 4 + i)))
      | none =>
        let v := s.ldsValue t a n
        let r := if xtOf w / 4 = 1 then wrapTo 64 (sintOf (8 * n) v) else BitVec.ofNat 64 v
        (s.setTile t ((s.tile t).dst k (sdOf w) r)).advance t k

/-- Decode check of STS (R88, R89). -/
def stsOk (w : IWord) : Bool :=
  scalarForm w && noFlags w && decide (xtOf w < 4) && decide (sdOf w = 0x80) && srcOk (saOf w)
    && srcOk (sbOf w)

/-- STS (R90): a store into tile control space is ignored (R56); 1 or 2 bytes merge after a checked read (R59). -/
def execSts (t k : Nat) (b : IBody) (s : State) : Out :=
  let w := wordOf 0x0D b
  s.issue t k w (stsOk w) fun s =>
    let n := 2 ^ (xtOf w)
    let x := s.tile t
    let a := x.scalarAddr k w
    let v := x.src k w (sbOf w)
    if !(scalarAccessOk a n) then s.precise t k w cBounds (faultAddr 1 a)
    else match regionOf a n with
      | .control => s.advance t k
      | .rows =>
        let o := a - 0x100000
        let x := x.setRsWord o (BitVec.ofNat 32 v.toNat)
        let x := if n = 8 then x.setRsWord (o + 4) (BitVec.ofNat 32 (v.toNat >>> 32)) else x
        (s.setTile t x).advance t k
      | _ =>
        if n < 4 then
          let bad := (x.firstBad 0 (a / 4) 1).isSome
          let s := s.countEcc t 0 (a / 4) 1 (some k)
          if bad then s.preciseEcc t k w 0 (faultAddr 1 (4 * (a / 4)))
          else
            let y := s.tile t
            let x := { y with ts := msetList 0 y.ts (a / 4 * 4) (y.tsRead (a / 4 * 4) 4) }.clearEcc 0 (a / 4) 1
            (s.setTile t (x.tsWrite a (leBytes n v.toNat))).advance t k
        else (s.setTile t (x.tsWrite a (leBytes n v.toNat))).advance t k

/-! ### FP32 -/

/-- The effect of FADD and FMUL: an FP32 result in the low half (R92). -/
def fpEffect (t k : Nat) (w : IWord) (f : Val → Val → Val) (s : State) : State :=
  let x := s.tile t
  let a := f32 (BitVec.ofNat 32 (x.src k w (saOf w)).toNat)
  let c := f32 (BitVec.ofNat 32 (x.src k w (sbOf w)).toNat)
  (s.setTile t (x.dst k (sdOf w) (BitVec.ofNat 64 (toF32 false (f a c)).toNat))).advance t k

/-- FADD (R92). -/
def execFadd (t k : Nat) (b : IBody) (s : State) : Out :=
  let w := wordOf 0x0E b
  s.issue t k w (aluOk [0, 1] w && noFlags w)
    (fpEffect t k w fun a c => Val.add a (if xtOf w = 1 then c.neg else c))

/-- FMUL (R92). -/
def execFmul (t k : Nat) (b : IBody) (s : State) : Out :=
  let w := wordOf 0x0F b
  s.issue t k w (aluOk [0] w && noFlags w) (fpEffect t k w Val.mul)

/-- Decode check of FCMP (R88, R89). -/
def fcmpOk (w : IWord) : Bool :=
  scalarForm w && noFlags w && decide (xtOf w = 0) && decide (sdOf w = 0x80) && srcOk (saOf w)
    && srcOk (sbOf w)

/-- FCMP (R92). -/
def execFcmp (t k : Nat) (b : IBody) (s : State) : Out :=
  let w := wordOf 0x10 b
  s.issue t k w (fcmpOk w) fun s =>
    let x := s.tile t
    let f := fcmpFlags (BitVec.ofNat 32 (x.src k w (saOf w)).toNat) (BitVec.ofNat 32 (x.src k w (sbOf w)).toNat)
    (s.setTile t (x.putFlags k f)).advance t k

end Sys2Proof.Machine
end

