-- ==== Sys2Proof/Machine/Matrix.lean ====
section
/-! DEFINITION. The matrix instructions MMA, MMAS, ACCRD and ACCCLR, the matrix array, and accumulator port B
(R42 to R51, R114 to R119, R176 to R196). -/

namespace Sys2Proof.Machine

/-! ### Issue-time checks -/

/-- The datum of an MMA or MMAS (R114, R115). -/
def mmaDatum (w : IWord) (sc : W64) : Int := if fl106 w then sintOf 9 sc.toNat else sintOf 9 (immf w 24 16)

/-- K, the depth (R114). -/
def mmaK (w : IWord) : Nat := immf w 63 48

/-- Decode check of MMA and MMAS (R88, R114, R116). -/
def mmaOk (w : IWord) : Bool :=
  decide (xtOf w < 64) && decide (sdOf w < 16) && regOrZero (saOf w) && regOrZero (sbOf w)
    && (if fl106 w then srcOk (scOf w) && decide (immf w 24 16 = 0) else decide (scOf w = 0x80))
    && (decide (opcOf w = 0x41) || !(fl104 w))
    && decide (32 ≤ mmaK w) && decide (mmaK w ≤ 2048) && decide (mmaK w % 32 = 0)
    && decide (immf w 31 25 = 0) && decide (immf w 15 0 = 0)

/-- Is a pair of formats legal for MMA or MMAS, with ESC (R115, R116)? -/
def pairOk (block : Bool) (a b : Fmt) (esc : Bool) : Bool :=
  let mx8 (f : Fmt) : Bool := decide (f = .mx8e4) || decide (f = .mx8e5) || decide (f = .mxi8)
  if block then
    a.isBlock && b.isBlock
      && (decide (a = b) || (mx8 a && mx8 b) || (decide (a = .mx4) && decide (b = .pb4))
        || (decide (a = .pb4) && decide (b = .mx4)))
      && (!esc || decide (a = .pb4) || decide (b = .pb4))
  else decide (a = b) && !a.isBlock && decide (a ≠ .fp32)

/-- The bytes of an operand of depth K (R58, R164). -/
def operandBytes (f : Fmt) (esc : Bool) (k : Nat) : Nat :=
  if f.isBlock then (k / 32) * tileSize f (esc && decide (f = .pb4)) else 4 * k * f.bits

/-- Is an operand base 64-byte aligned with its extent in tile store (R115)? -/
def operandOk (base n : Nat) : Bool := decide (base % 64 = 0) && decide (base + n ≤ 0x100000)

/-- The ACC_COLLISION check (R193). -/
def SlotDesc.collides (d : SlotDesc) (k : Nat) : Bool := decide (d.owner ≠ k) && decide (d.inflight ≠ 0)

/-- The first issue-time check an MMA or MMAS fails, in the order of R196, with the address recorded. -/
def mmaCheck (x : Tile) (k : Nat) (w : IWord) : Option (Nat × W64) :=
  let block := decide (opcOf w = 0x41)
  let d := x.slot (sdOf w)
  let a := (x.src k w (saOf w)).toNat % 2 ^ 32
  let b := (x.src k w (sbOf w)).toNat % 2 ^ 32
  let dat := mmaDatum w (x.src k w (scOf w))
  match Fmt.ofCode (immf w 47 40), Fmt.ofCode (immf w 39 32) with
  | some fa, some fb =>
    if !(pairOk block fa fb (fl104 w)) then some (cFormat, 0)
    else if !(operandOk a (operandBytes fa (fl104 w) (mmaK w))) then some (cBounds, faultAddr 1 a)
    else if !(operandOk b (operandBytes fb (fl104 w) (mmaK w))) then some (cBounds, faultAddr 1 b)
    else if d.collides k then some (cAccCollision, 0)
    else if fl105 w && decide (dat ≠ d.datum) then some (cFormat, 0)
    else if 65536 < (if fl105 w then d.projected else 0) + mmaK w then some (cAccDepth, 0)
    else none
  | _, _ => some (cFormat, 0)

/-- A slot's descriptor as an accepted operation of strand `k` leaves it (R48). -/
def SlotDesc.accept (d : SlotDesc) (k : Nat) : SlotDesc :=
  { d with owned := true, owner := k, inflight := d.inflight + 1 }

/-- Put an operation at the end of the matrix issue queue. -/
def Tile.pushMatrix (x : Tile) (o : QOp) : Tile := { x with mq := x.mq ++ [o], serial := x.serial + 1 }

/-- The effect of issuing MMA and MMAS: the checks, then acceptance (R48, R114, R179, R180). -/
def mmaEffect (t k : Nat) (w : IWord) (s : State) : State :=
  let x := s.tile t
  match mmaCheck x k w with
  | some (code, addr) => s.precise t k w code addr
  | none =>
    let n := sdOf w
    let d := x.slot n
    let dat := mmaDatum w (x.src k w (scOf w))
    let before := if fl105 w then d.projected else 0
    let (x, o) := x.siteIssue { x.mkOp k w with k0 := before, datum := dat }
    let d := { d.accept k with projected := before + mmaK w, datum := if fl105 w then d.datum else dat }
    (s.setTile t ((x.setSlot n d).pushMatrix o)).advance t k

/-- MMA (R114 to R116). -/
def execMma (t k : Nat) (b : IBody) (s : State) : Out :=
  let w := wordOf 0x40 b
  s.issue t k w (mmaOk w) (mmaEffect t k w)

/-- MMAS (R114 to R116). -/
def execMmas (t k : Nat) (b : IBody) (s : State) : Out :=
  let w := wordOf 0x41 b
  s.issue t k w (mmaOk w) (mmaEffect t k w)

/-! ### The matrix array -/

/-- The value of operand element (row or column `i`, depth `kk`) at tile-store `base` (R58, R164). -/
def operandElem (x : Tile) (f : Fmt) (esc : Bool) (base i kk : Nat) : Val :=
  if f.isBlock then
    let e := esc && decide (f = .pb4)
    let tb := base + (kk / 32) * tileSize f e
    blockElem f e (fun o => x.tsByte (tb + o)) (32 * i + kk % 32)
  else f.decode (elemCode f (fun o => x.tsByte (base + o)) (32 * kk + i))

/-- Is that element a TERN code 0b10 (R157, R164)? -/
def operandInvalid (x : Tile) (f : Fmt) (base i kk : Nat) : Bool :=
  if f.elem ≠ .tern then false
  else if f.isBlock then
    ternInvalid f (fun o => x.tsByte (base + (kk / 32) * 320 + o)) (32 * i + kk % 32)
  else ternInvalid f (fun o => x.tsByte (base + o)) (32 * kk + i)

/-- Entry (i, j) after adding `n` products from k index 0 on, in k order (R115, R176, R182). -/
def accumulate (a b : Nat → Nat → Val) (d : Int) (k0 i j : Nat) (e : Entry) : Nat → Entry
  | 0 => e
  | n + 1 => addProduct d (accumulate a b d k0 i j e n) (a i n) (b j n) (k0 + n)

/-- The 1,024 entries of a buffer after an MMA's products are added to `start`. -/
def mmaProducts (a b : Nat → Nat → Val) (d : Int) (k0 kk : Nat) (start : Nat → Entry) : SMap Entry :=
  mlist Entry.zero 0 ((List.range 1024).map fun e => accumulate a b d k0 (e / 32) (e % 32) (start e) kk)

/-- The operands of an MMA, as functions of (row or column, depth). -/
structure MmaOperands where
  fa : Fmt
  fb : Fmt
  abase : Nat
  bbase : Nat
  abytes : Nat
  bbytes : Nat
  deriving DecidableEq, Repr

/-- The operands an accepted MMA or MMAS names. -/
def QOp.mmaOperands (o : QOp) : MmaOperands :=
  let fa := (Fmt.ofCode (immf o.word 47 40)).getD .bf16
  let fb := (Fmt.ofCode (immf o.word 39 32)).getD .bf16
  let esc := fl104 o.word
  { fa := fa, fb := fb, abase := o.sa.toNat % 2 ^ 32, bbase := o.sb.toNat % 2 ^ 32
    abytes := operandBytes fa esc (mmaK o.word), bbytes := operandBytes fb esc (mmaK o.word) }

/-- The operand signature's terms of one MMA or MMAS (R468): for each block of 32 k indices, the CRC of its first k index,
its A and B element bytes, then the scale, sub-scale and escape bytes of A's and B's block tiles, their padding left out (R160). -/
def mmaSignature (x : Tile) (m : MmaOperands) (esc : Bool) (k0 kk : Nat) : W32 :=
  let per (f : Fmt) : Nat := if f.isBlock then tileSize f esc else 32 * 32 * f.bits / 8
  let body (f : Fmt) : Nat := if f.isBlock then 1024 * f.bits / 8 else per f
  ((List.range ((kk + 31) / 32)).map fun b =>
    let n := min 32 (kk - 32 * b)
    let part (f : Fmt) (base : Nat) : List Byte :=
      x.tsRead (base + b * per f) (if f.isBlock then packedSize f (esc && decide (f = .pb4)) else 32 * n * f.bits / 8)
    let a := part m.fa m.abase
    let bb := part m.fb m.bbase
    crc32 (leBytes 4 (k0 + 32 * b) ++ a.take (body m.fa) ++ bb.take (body m.fb) ++ a.drop (body m.fa)
      ++ bb.drop (body m.fb))).foldl (· ^^^ ·) 0

/-- The slot a matrix-side operation names. -/
def QOp.slotOf (o : QOp) : Nat :=
  if opcOf o.word = 0x40 ∨ opcOf o.word = 0x41 then sdOf o.word else saOf o.word

/-- May the MMA `o` at the head of the queue chain on the running MMA `r` (R45)? -/
def chains (r : MmaRun) (o : QOp) : Bool :=
  decide (r.op.strand = o.strand) && fl105 o.word && decide (r.op.slotOf = o.slotOf) && decide (r.op.datum = o.datum)

/-- Slots that the slot-form collectives the capstans have taken from the tile hold (R142, R148). -/
def State.collSlots (s : State) (t : Nat) : List Nat :=
  match s.partOf t with
  | none => []
  | some p =>
    (((s.part p).colls.filter fun c =>
        decide (c.tile = t) && decide (wf c.op.word 115 115 = 1)).map fun c =>
      [saOf c.op.word, sbOf c.op.word]).flatten

/-- Is an operation under way on slot `n` in the array, port B or the capstans (R194)? -/
def State.slotBusy (s : State) (t n : Nat) : Bool :=
  let x := s.tile t
  (x.arr.any fun r => decide (r.op.slotOf = n))
    || (match x.portB with
      | some (.accrd o _ _ _ _) => decide (o.slotOf = n)
      | some (.accclr o) => decide (o.slotOf = n)
      | none => false)
    || (s.collSlots t).contains n

/-- A slot's operation completes: INFLIGHT falls (R48). -/
def Tile.slotDone (x : Tile) (n : Nat) : Tile :=
  let d := x.slot n
  x.setSlot n { d with inflight := d.inflight - 1 }

/-- Send counts to the site's record (R147, R229). -/
def State.sendSite (s : State) (t : Nat) (o : QOp) (c : SiteCounts) (high low : Option (Nat × Nat)) : State :=
  if c = ⟨0, 0, 0, 0, 0⟩ then s
  else match s.partOf t with
    | none => s
    | some p =>
      let m : StageMsg :=
        { part := p, tile := t, logical := ((s.part p).logicalOf t).getD 0, strand := o.strand
          stage := .site (siteOf o.word) c, siteInst := o.inst, high := high, low := low }
      { s with stageMsgs := s.stageMsgs ++ [m] }

/-- The flushed-invalid count an MMA leaves at its site when it is complete (R147, R230). -/
def State.mmaSite (s : State) (t : Nat) (r : MmaRun) : State :=
  s.sendSite t r.op ⟨0, 0, 0, 0, r.invalid⟩ none (some (4, 0))

/-- Start MMA `o` on the array with buffer `start` (R44, R45, R80): its operands are read, its products formed; an
uncorrectable operand word or loaded entry is an imprecise fault and the MMA writes nothing back (R116). TIL_KSTEP and TIL_KSTEP4 rise by all
its k-steps here (DESIGN CHOICE: no command marks a k-step, so a read while the MMA runs already shows them; log 186). -/
def State.startMma (s : State) (t : Nat) (o : QOp) (start : SMap Entry) (depth : Nat) (sig : W32) (loaded bad0 : Bool) :
    State × MmaRun :=
  let x := s.tile t
  let m := o.mmaOperands
  let kk := mmaK o.word
  let esc := fl104 o.word
  let badA := (x.firstBad 0 (m.abase / 4) (m.abytes / 4)).map (m.abase + 4 * ·)
  let badB := (x.firstBad 0 (m.bbase / 4) (m.bbytes / 4)).map (m.bbase + 4 * ·)
  let badL := loaded && x.slotBad o.slotOf
  let y := x.delivered
  let a := operandElem y m.fa esc m.abase
  let b := operandElem y m.fb esc m.bbase
  let buf := mmaProducts a b o.datum o.k0 kk (mget Entry.zero start)
  let pairs := ((List.range 32).map fun r => (List.range kk).map fun q => (r, q)).flatten
  let inv := (pairs.filter fun e => operandInvalid y m.fa m.abase e.1 e.2).length
    + (pairs.filter fun e => operandInvalid y m.fb m.bbase e.1 e.2).length
  let narrow := m.fa.isNarrow
  let s := s.modTile t fun x =>
    if narrow then { x with kstep4 := x.kstep4 + BitVec.ofNat 64 (kk / 4) }
    else { x with kstep := x.kstep + BitVec.ofNat 64 kk }
  let s := s.countEcc t 0 (m.abase / 4) (m.abytes / 4) (some o.strand)
  let s := s.countEcc t 0 (m.bbase / 4) (m.bbytes / 4) (some o.strand)
  let s := if loaded then s.countSlot t o.slotOf (some o.strand) else s
  let s := match badA, badB with
    | some q, _ => s.impreciseEcc t o 0 (faultAddr 1 q)
    | none, some q => s.impreciseEcc t o 0 (faultAddr 1 q)
    | none, none => if badL then s.impreciseEcc t o 1 (faultAddr 0 0) else s
  (s, { op := o, buf := buf, depth := depth + kk, invalid := inv
        sig := sig ^^^ mmaSignature y m esc o.k0 kk
        bad := bad0 || badA.isSome || badB.isSome || badL })

/-- MMA_ARRAY_START: the MMA or MMAS at the head of the matrix queue starts (R44): chained on the running MMA (R45),
or in a free buffer, loaded for ACCUMULATE and cleared for OVERWRITE, once nothing is under way on its slot (R194). -/
def execMmaArrayStart (t : Nat) (s : State) : Out :=
  let x := s.tile t
  match x.mq with
  | [] => .next s
  | o :: rest =>
    if opcOf o.word ≠ 0x40 ∧ opcOf o.word ≠ 0x41 then .next s
    else
      let n := o.slotOf
      match x.arr.getLast? with
      | some r =>
        if chains r o then
          let s := s.setTile t { x.slotDone n with mq := rest, arr := x.arr.dropLast }
          let s := s.mmaSite t r
          let (s, r') := s.startMma t o r.buf r.depth r.sig false r.bad
          .next (s.modTile t fun x => { x with arr := x.arr ++ [r'] })
        else if s.slotBusy t n || decide (2 ≤ x.arr.length) then .next s
        else
          let start := if fl105 o.word then mlist Entry.zero 0 ((List.range 1024).map (x.delivered.entry n)) else []
          let s := s.setTile t { x with mq := rest }
          let (s, r') := s.startMma t o start (if fl105 o.word then (x.slot n).depth else 0)
            (if fl105 o.word then mget 0 x.sigs n else 0) (fl105 o.word) false
          .next (s.modTile t fun x => { x with arr := x.arr ++ [r'] })
      | none =>
        if s.slotBusy t n then .next s
        else
          let start := if fl105 o.word then mlist Entry.zero 0 ((List.range 1024).map (x.delivered.entry n)) else []
          let s := s.setTile t { x with mq := rest }
          let (s, r') := s.startMma t o start (if fl105 o.word then (x.slot n).depth else 0)
            (if fl105 o.word then mget 0 x.sigs n else 0) (fl105 o.word) false
          .next (s.modTile t fun x => { x with arr := x.arr ++ [r'] })

/-- Write a buffer to slot `n` with its depth (R44, R48). -/
def Tile.writeSlot (x : Tile) (n : Nat) (buf : SMap Entry) (depth : Nat) : Tile :=
  let acc := msetList Entry.zero x.acc (1024 * n) ((List.range 1024).map (mget Entry.zero buf))
  let x := x.clearSlot n
  ({ x with acc := acc }).setSlot n { x.slot n with depth := depth }

/-- MMA_WRITEBACK_END: the oldest MMA in the array is written back and is complete; one that met a double-bit error
writes nothing (R44, R48, R116). -/
def execMmaWritebackEnd (t : Nat) (s : State) : Out :=
  let x := s.tile t
  match x.arr with
  | [] => .next s
  | r :: rest =>
    let n := r.op.slotOf
    let x := { x with arr := rest }
    let x := if r.bad then x else { x.writeSlot n r.buf r.depth with sigs := mset 0 x.sigs n r.sig }
    .next ((s.setTile t (x.slotDone n)).mmaSite t r)

/-! ### ACCRD and ACCCLR -/

/-- The mode an OMODE selects for a format: true is IEEE (R167). -/
def modeOf (f : Fmt) (omode : Nat) : Bool :=
  if omode = 0 then decide (f = .bf16) || decide (f = .fp16) || decide (f = .fp32) else decide (omode = 2)

/-- Decode check of ACCRD (R88, R117). -/
def accrdOk (w : IWord) : Bool :=
  decide (xtOf w < 64) && !(fl104 w) && decide (sdOf w = 0x80) && decide (saOf w < 16) && decide (sbOf w = 0x80)
    && decide (scOf w = 0x80) && decide (immf w 63 48 = 0) && decide (immf w 39 34 = 0) && decide (immf w 33 32 ≠ 3)
    && decide (immf w 31 0 = 0)

/-- Is an output format legal for ACCRD with an OMODE (R116, R117, R167)? -/
def outFormatOk (code omode : Nat) : Bool :=
  match Fmt.ofCode code with
  | some f => !f.isBlock && decide (f ≠ .fp32) && decide (f ≠ .tern) && (decide (omode ≠ 2) || f.hasInf)
  | none => false

/-- ACCRD (R117, R118): checked and accepted into the matrix queue with its slot's datum, which the operations ahead of it have
set (R187). -/
def execAccrd (t k : Nat) (b : IBody) (s : State) : Out :=
  let w := wordOf 0x42 b
  s.issue t k w (accrdOk w) fun s =>
    let x := s.tile t
    let d := x.slot (saOf w)
    if !(outFormatOk (immf w 47 40) (immf w 33 32)) then s.precise t k w cFormat 0
    else if d.collides k then s.precise t k w cAccCollision 0
    else
      let (x, o) := x.siteIssue { x.mkOp k w with accNo := mget 0 x.accIssues k, datum := d.datum }
      let x := { x with accIssues := mmod 0 x.accIssues k (· + 1) }
      (s.setTile t ((x.setSlot (saOf w) (d.accept k)).pushMatrix o)).advance t k

/-- Decode check of ACCCLR (R88, R112). -/
def accclrOk (w : IWord) : Bool :=
  decide (xtOf w = 0) && decide (xlOf w = 0) && decide (flagsOf w = 0) && decide (sdOf w = 0x80)
    && decide (saOf w < 16) && decide (sbOf w = 0x80) && decide (scOf w = 0x80) && decide (immOf w = 0)

/-- ACCCLR (R119): checked and accepted into the matrix queue; the projected depth becomes 0 (R179). -/
def execAccclr (t k : Nat) (b : IBody) (s : State) : Out :=
  let w := wordOf 0x43 b
  s.issue t k w (accclrOk w) fun s =>
    let x := s.tile t
    let d := x.slot (saOf w)
    if d.collides k then s.precise t k w cAccCollision 0
    else
      let d := { d.accept k with projected := 0 }
      (s.setTile t ((x.setSlot (saOf w) d).pushMatrix (x.mkOp k w))).advance t k

/-- The counts of a list of classes (R168). -/
def countClasses (cs : List Cls) : SiteCounts :=
  { sat := (cs.filter (· = .sat)).length, flush := (cs.filter (· = .flush)).length
    nan := (cs.filter (· = .nan)).length, inf := (cs.filter (· = .inf)).length, invalid := 0 }

/-- The first element of the classes NaN and Inf, as (CLASS, element) (R230, R241). -/
def firstHigh (cs : List Cls) : Option (Nat × Nat) :=
  (cs.zipIdx.find? fun e => decide (e.1 = .nan) || decide (e.1 = .inf)).map fun e =>
    (if e.1 = .nan then 2 else 3, e.2)

/-- The first element of the classes saturated and flushed. -/
def firstLow (cs : List Cls) : Option (Nat × Nat) :=
  (cs.zipIdx.find? fun e => decide (e.1 = .sat) || decide (e.1 = .flush)).map fun e =>
    (if e.1 = .sat then 0 else 1, e.2)

/-- The drain entry an ACCRD forms (R49, R118, R183 to R185), and the classes of its elements. -/
def accrdConvert (x : Tile) (o : QOp) (number : Nat) : Drain × List Cls :=
  let n := o.slotOf
  let f := (Fmt.ofCode (immf o.word 47 40)).getD .bf16
  let ieee := modeOf f (immf o.word 33 32)
  let d := o.datum
  let ents := (List.range 1024).map (x.entry n)
  let out := ents.map (convertEntry f ieee d)
  let codes := out.map (·.1)
  let cls := out.map (·.2)
  let vals := codes.map f.decode
  let row (i : Nat) : List Val := (vals.drop (32 * i)).take 32
  let hit := cls.zipIdx.find? fun e => setsNanInf e.1
  ({ number := number
     data := mlist 0 0 (packCodes f codes)
     rowMax := if fl106 o.word then mlist 0 0 ((List.range 32).map fun i => toF32 false (rmax (row i))) else []
     rowSum := if fl105 o.word then mlist 0 0 ((List.range 32).map fun i => toF32 false (rsum (row i))) else []
     format := f.code, strand := o.strand, slot := n
     nanInf := hit.isSome
     accSat := ents.any fun e => e.ovfPos || e.ovfNeg
     firstElem := match hit with | some e => e.2 | none => 0
     firstK := match hit with | some e => firstK (x.slot n).depth (x.entry n e.2) | none => 0
     rowMaxValid := fl106 o.word, rowSumValid := fl105 o.word }, cls)

/-- The lowest drain-entry number that is not valid (R49). -/
def freeDrain (l : List Drain) : Option Nat := (List.range 8).find? fun n => !(l.any fun d => decide (d.number = n))

/-- ACCRD_PORT_START: the ACCRD or ACCCLR at the head of the matrix queue starts in port B, once the port is free, its
strand's earlier operations on the slot are complete, and, for an ACCRD, a drain entry is free (R47, R51, R113, R118,
R194). -/
def execAccrdPortStart (t : Nat) (s : State) : Out :=
  let x := s.tile t
  match x.mq, x.portB with
  | o :: rest, none =>
    let n := o.slotOf
    if opcOf o.word ≠ 0x42 ∧ opcOf o.word ≠ 0x43 then .next s
    else if s.slotBusy t n then .next s
    else if opcOf o.word = 0x43 then .next (s.setTile t { x with mq := rest, portB := some (.accclr o) })
    else
      match freeDrain x.drain with
      | none =>
        if o.waited then .next s
        else .next (s.setTile t { x with
          mq := { o with waited := true } :: rest
          fullWaits := min 0xFFFF (x.fullWaits + 1) })
      | some e =>
        let (d, cls) := accrdConvert x.delivered o e
        let bad := x.slotBad n
        let s := s.setTile t { x with mq := rest, portB := some (.accrd o d (countClasses cls) (firstHigh cls) (firstLow cls)) }
        let s := s.countSlot t n (some o.strand)
        .next (if bad then s.impreciseEcc t o 1 0 else s)
  | _, _ => .next s

/-- A marked ACCRD copies its drain entry and its slot's signature to the comparator, with the cluster's clock, voltage and
temperature (R467, R469, R471). -/
def State.witnessArrive (s : State) (t : Nat) (o : QOp) (d : Drain) : State :=
  match s.partOf t with
  | none => s
  | some p =>
    let x := s.part p
    let me := (x.logicalOf t).getD 0xFFF
    let run := s.clusterRun (clusterOf t)
    let copy (i : Nat) (w : Bool) : WitCopy :=
      ⟨i, w, d, mget 0 (s.tile t).sigs o.slotOf, run.1, run.2, (s.cluster (clusterOf t)).temp, me, t⟩
    match x.cur with
    | none => s
    | some v =>
      let new := (x.wit.open'.map fun i => match v.wit[i]? with
        | none => []
        | some e =>
          (if decide (e.pTile = me) && decide (e.pStrand = o.strand) && decide (e.pInst = o.accNo) then [copy i false] else [])
            ++ (if decide (e.wTile = me) && decide (e.wStrand = o.strand) && decide (e.wInst = o.accNo) then [copy i true] else [])).flatten
      if new.isEmpty then s else s.modPart p fun x => { x with wit := { x.wit with arrived := x.wit.arrived ++ new } }

/-- DRAIN_ENTRY_VALID: the ACCRD in port B is complete; its entry is valid and its counts go to the site (R48, R49,
R118, R186). -/
def execDrainEntryValid (t : Nat) (s : State) : Out :=
  let x := s.tile t
  match x.portB with
  | some (.accrd o d c high low) =>
    let drain := x.drain ++ [d]
    let x := { x.clearEcc 5 (1024 * d.number) 1024 with portB := none, drain := drain, highWater := max x.highWater drain.length }
    .next (((s.setTile t (x.slotDone o.slotOf)).sendSite t o c high low).witnessArrive t o d)
  | _ => .next s

/-- ACCCLR_DONE: the ACCCLR in port B is complete: every entry is 0 and DEPTH is 0 (R48, R119, R181). -/
def execAccclrDone (t : Nat) (s : State) : Out :=
  let x := s.tile t
  match x.portB with
  | some (.accclr o) =>
    let n := o.slotOf
    let x := { x.clearSlot n with
      portB := none
      acc := mclear x.acc (1024 * n) (1024 * n + 1024)
      sigs := mset 0 x.sigs n 0 }
    .next (s.setTile t ((x.setSlot n { x.slot n with depth := 0 }).slotDone n))
  | _ => .next s

end Sys2Proof.Machine
end

