-- ==== Sys2Proof/Machine/Vector.lean ====
section
/-! DEFINITION. The vector instructions, LSCALE MUL and DIV among them (R120 to R133, R144): their checks at issue,
their results when the vector engine starts them, and their writes when they complete (R54, R113). -/

namespace Sys2Proof.Machine

/-! ### Checks of the word (R88, R111, R120) -/

/-- A VT register or a pair. -/
def vtOrPair (x : Nat) : Bool := (vkind x).isFull

/-- A VT register. -/
def isVt (x : Nat) : Bool := match vkind x with | .vt _ => true | _ => false

/-- A pair. -/
def isPair (x : Nat) : Bool := match vkind x with | .pair _ => true | _ => false

/-- The common form of a vector instruction that is not site-bearing: XL is 0. -/
def plainOk (w : IWord) : Bool := decide (xlOf w = 0)

/-- The formats of VLD and VST that allow a row stride, with their row bytes (R121). -/
def strideRow : Fmt → Option Nat
  | .bf16 | .fp16 => some 64
  | .fp32 => some 128
  | .e4m3 | .e5m2 | .int8 => some 32
  | _ => none

/-- Decode check of VLD and VST; a stride below the row bytes or not a multiple of 16 is a decode fault (R120, R121). -/
def vldOk (w : IWord) : Bool :=
  let st := immf w 63 48
  let row := match Fmt.ofCode (immf w 47 40) with | some f => strideRow f | none => none
  plainOk w && decide (xtOf w = 0) && !(fl106 w) && !(fl105 w) && srcOk (saOf w) && decide (scOf w = 0x80)
    && (if opcOf w = 0x50 then vtOrPair (sdOf w) && decide (sbOf w = 0x80)
      else decide (sdOf w = 0x80) && vtOrPair (sbOf w))
    && decide (immf w 39 32 = 0)
    && (decide (st = 0) || (decide (st % 16 = 0) && (match row with | some r => decide (r ≤ st) | none => true)))

/-- Decode check of VDRAIN (R120, R122). -/
def vdrainOk (w : IWord) : Bool :=
  plainOk w && decide (xtOf w = 0) && decide (flagsOf w = 0) && isVt (sdOf w)
    && (decide (saOf w = 0x80) || (match vkind (saOf w) with | .rsMax _ => true | _ => false))
    && decide (sbOf w = 0x80) && decide (scOf w = 0x80) && decide (immOf w = 0)

/-- How many sources VOP function `fn` reads; none for a reserved function (R123). -/
def vopArity (fn : Nat) : Option Nat :=
  if fn = 0x00 ∨ fn = 0x07 ∨ fn = 0x08 ∨ fn = 0x0D then some 1
  else if fn = 0x04 ∨ fn = 0x0C then some 3
  else if fn ≤ 0x0C then some 2
  else none

/-- The rule of R123 on RS destinations: every source is an RS column or a broadcast source. -/
def rsRule (d : Nat) (srcs : List Nat) : Bool :=
  !(vkind d).isRs || srcs.all fun x => (vkind x).isRs || (vkind x).isBroadcast

/-- Decode check of VOP (R120, R123). -/
def vopOk (w : IWord) : Bool :=
  match vopArity (xtOf w) with
  | none => false
  | some n =>
    let used := [saOf w, sbOf w, scOf w].take n
    let rest := [saOf w, sbOf w, scOf w].drop n
    plainOk w && !(fl104 w) && (vkind (sdOf w)).isDst && used.all (fun x => (vkind x).ok)
      && rest.all (fun x => decide (x = 0x80)) && rsRule (sdOf w) used && decide (immf w 63 32 = 0)
      && (decide (xtOf w ≠ 0x0D) || (isVt (saOf w) && isVt (sdOf w)) || (isPair (saOf w) && isPair (sdOf w)))

/-- Decode check of VRED (R120, R124). -/
def vredOk (w : IWord) : Bool :=
  plainOk w && decide (xtOf w < 8) && !(fl104 w) && (vkind (sdOf w)).isDst && vtOrPair (saOf w)
    && decide (sbOf w = 0x80) && decide (scOf w = 0x80) && decide (immOf w = 0)
    && (!(vkind (sdOf w)).isRs || decide (xtOf w < 4))

/-- Decode check of VSUM (R120, R125). -/
def vsumOk (w : IWord) : Bool :=
  let thr := decide (xtOf w % 4 = 3)
  plainOk w && decide (xtOf w < 32) && !(fl105 w) && !(fl104 w) && sregOrNone (sdOf w) && (vkind (saOf w)).ok
    && (if thr then (vkind (sbOf w)).ok && decide (xtOf w / 4 ≤ 5) else decide (sbOf w = 0x80) && decide (xtOf w < 4))
    && decide (scOf w = 0x80) && decide (immf w 63 32 = 0)

/-- Decode check of VBC (R120, R126). -/
def vbcOk (w : IWord) : Bool :=
  plainOk w && decide (xtOf w < 2) && !(fl104 w) && vtOrPair (sdOf w) && vtOrPair (saOf w) && decide (sbOf w = 0x80)
    && decide (scOf w = 0x80) && decide (immf w 63 5 = 0)

/-- Decode check of VTBL (R120, R127). -/
def vtblOk (w : IWord) : Bool :=
  let srcs := [saOf w, sbOf w, scOf w]
  plainOk w && decide (xtOf w ≤ 6) && !(fl104 w) && (vkind (sdOf w)).isDst && srcs.all (fun x => (vkind x).ok)
    && rsRule (sdOf w) srcs && decide (immf w 63 32 = 0)

/-- Decode check of VQNT (R120, R128). A VT register or pair of a wrong kind is FORMAT_MISMATCH, which `vqntCheck` finds (R129). -/
def vqntOk (w : IWord) : Bool :=
  decide (xtOf w < 64) && srcOk (sbOf w) && sregOrNone (scOf w)
    && decide (immf w 63 48 = 0) && decide (immf w 39 34 = 0) && decide (immf w 33 32 ≠ 3)
    && decide (immf w 31 16 = 0)

/-- Decode check of VDQ (R120, R129). -/
def vdqOk (w : IWord) : Bool :=
  plainOk w && decide (xtOf w = 0) && srcOk (sbOf w) && decide (scOf w = 0x80)
    && decide (immf w 63 48 = 0) && decide (immf w 39 16 = 0)

/-- Decode check of VRNG (R120, R130). -/
def vrngOk (w : IWord) : Bool :=
  plainOk w && decide (xtOf w = 0) && !(fl105 w) && !(fl104 w) && vtOrPair (sdOf w) && srcOk (saOf w)
    && srcOk (sbOf w) && decide (scOf w = 0x80)

/-- Decode check of VOPT (R120, R131). -/
def voptOk (w : IWord) : Bool :=
  decide (xtOf w < 64) && !(fl105 w) && !(fl104 w) && isPair (sdOf w) && isPair (saOf w) && vtOrPair (sbOf w)
    && srcOk (scOf w) && decide (immf w 63 60 ≤ 1) && decide (immf w 59 44 = 0) && decide (immf w 31 0 = 0)

/-- Decode check of VSCALE (R120, R133). -/
def vscaleOk (w : IWord) : Bool :=
  plainOk w && decide (xtOf w < 2) && !(fl105 w) && !(fl104 w) && decide (sdOf w = 0x80)
    && (if xtOf w = 0 then vtOrPair (saOf w) else decide (saOf w = 0x80)) && srcOk (sbOf w)
    && decide (scOf w = 0x80) && decide (immf w 63 16 = 0)

/-- Decode check of LSCALE MUL and DIV (R123, R144). -/
def lscaleVecOk (w : IWord) : Bool :=
  plainOk w && !(fl104 w) && (vkind (sdOf w)).isDst && (vkind (saOf w)).ok && decide (sbOf w = 0x80)
    && decide (scOf w = 0x80) && rsRule (sdOf w) [saOf w] && decide (immf w 63 32 = 0)
    && (decide (saOf w = 0xC0) || decide (immf w 31 0 = 0))

/-! ### Checks at issue, and acceptance (R113 rule 1) -/

/-- The tile-store extents a VLD or VST touches: (address, bytes), in register order (R121). -/
def vldExtents (f : Fmt) (esc : Bool) (addr stride : Nat) : List (Nat × Nat) :=
  match strideRow f with
  | some r =>
    if stride = 0 then [(addr, tileBytes f esc)]
    else (List.range 32).map fun i => (addr + i * stride, r)
  | none => [(addr, tileBytes f esc)]

/-- The first precise fault of a VLD or VST, if any: format and register kind, then bounds (R121). -/
def vldCheck (w : IWord) (sa : W64) : Option (Nat × W64) :=
  let reg := if opcOf w = 0x50 then sdOf w else sbOf w
  let st := immf w 63 48
  let addr := (sa.toNat + immf w 31 0) % 2 ^ 32
  match Fmt.ofCode (immf w 47 40) with
  | none => some (cFormat, 0)
  | some f =>
    if isPair reg ≠ decide (f = .fp32) then some (cFormat, 0)
    else if fl104 w && decide (f ≠ .pb4) then some (cFormat, 0)
    else if decide (st ≠ 0) && (strideRow f).isNone then some (cFormat, 0)
    else if addr % (if st = 0 then 64 else 16) ≠ 0 then some (cBounds, faultAddr 1 addr)
    else
      match (vldExtents f (fl104 w) addr st).find? fun e => decide (0x100000 < e.1 + e.2) with
      | some e => some (cBounds, faultAddr 1 e.1)
      | none => none

/-- Are SD and SA of the kinds that VQNT (a VT register from a VT register or a pair) and VDQ (the reverse) allow (R128, R129)? -/
def quantKinds (w : IWord) : Bool :=
  if opcOf w = 0x58 then isVt (sdOf w) && vtOrPair (saOf w) else vtOrPair (sdOf w) && isVt (saOf w)

/-- The precise fault of a VQNT or VDQ: an illegal register kind, format or mode (R128, R129, R167). That an SC of another kind than R120's
stays ILLEGAL_INSTR is DEDUCED: it is no operand that R129's words are about (log 138). -/
def vqntCheck (w : IWord) : Option (Nat × W64) :=
  if !(quantKinds w) then some (cFormat, 0)
  else match Fmt.ofCode (immf w 47 40) with
  | none => some (cFormat, 0)
  | some f =>
    if f = .fp32 then some (cFormat, 0)
    else if fl104 w && decide (f ≠ .pb4) then some (cFormat, 0)
    else if decide (opcOf w = 0x58) && decide (immf w 33 32 = 2) && !f.hasInf then some (cFormat, 0)
    else none

/-- The precise fault of a VOPT: the hyperparameter record outside tile store or misaligned (R131). -/
def voptCheck (sc : W64) : Option (Nat × W64) :=
  let a := sc.toNat % 2 ^ 32
  if a % 16 = 0 ∧ a + 32 ≤ 0x100000 then none else some (cBounds, faultAddr 1 a)

/-- The scale-table entry a vector instruction names (R120). -/
def entryOf (w : IWord) (sb : W64) : Nat := (sb.toNat + immf w 15 0) % 65536

/-- Accept a vector instruction: its scalar sources are read and it enters the vector queue (R113). -/
def vecAccept (t k : Nat) (w : IWord) (site : Bool) (s : State) : State :=
  let x := s.tile t
  let o := x.mkOp k w
  let (x, o) := if site then x.siteIssue o else (x, o)
  (s.setTile t { x with vq := x.vq ++ [o], serial := x.serial + 1 }).advance t k

/-- The effect of issuing a vector instruction whose precise check is `chk`. -/
def vecEffect (t k : Nat) (w : IWord) (site : Bool) (chk : Option (Nat × W64)) (s : State) : State :=
  match chk with
  | some (code, addr) => s.precise t k w code addr
  | none => vecAccept t k w site s

/-- VLD (R121). -/
def execVld (t k : Nat) (b : IBody) (s : State) : Out :=
  let w := wordOf 0x50 b
  s.issue t k w (vldOk w) fun s => vecEffect t k w false (vldCheck w ((s.tile t).src k w (saOf w))) s

/-- VST (R121). -/
def execVst (t k : Nat) (b : IBody) (s : State) : Out :=
  let w := wordOf 0x51 b
  s.issue t k w (vldOk w) fun s => vecEffect t k w false (vldCheck w ((s.tile t).src k w (saOf w))) s

/-- VDRAIN (R122). -/
def execVdrain (t k : Nat) (b : IBody) (s : State) : Out :=
  let w := wordOf 0x52 b
  s.issue t k w (vdrainOk w) (vecEffect t k w false none)

/-- VOP (R123). -/
def execVop (t k : Nat) (b : IBody) (s : State) : Out :=
  let w := wordOf 0x53 b
  s.issue t k w (vopOk w) (vecEffect t k w false none)

/-- VRED (R124). -/
def execVred (t k : Nat) (b : IBody) (s : State) : Out :=
  let w := wordOf 0x54 b
  s.issue t k w (vredOk w) (vecEffect t k w false none)

/-- VSUM (R125). -/
def execVsum (t k : Nat) (b : IBody) (s : State) : Out :=
  let w := wordOf 0x55 b
  s.issue t k w (vsumOk w) (vecEffect t k w false none)

/-- VBC (R126). -/
def execVbc (t k : Nat) (b : IBody) (s : State) : Out :=
  let w := wordOf 0x56 b
  s.issue t k w (vbcOk w) (vecEffect t k w false none)

/-- VTBL (R127). -/
def execVtbl (t k : Nat) (b : IBody) (s : State) : Out :=
  let w := wordOf 0x57 b
  s.issue t k w (vtblOk w) (vecEffect t k w false none)

/-- VQNT (R128). -/
def execVqnt (t k : Nat) (b : IBody) (s : State) : Out :=
  let w := wordOf 0x58 b
  s.issue t k w (vqntOk w) (vecEffect t k w true (vqntCheck w))

/-- VDQ (R129). -/
def execVdq (t k : Nat) (b : IBody) (s : State) : Out :=
  let w := wordOf 0x59 b
  s.issue t k w (vdqOk w) (vecEffect t k w false (vqntCheck w))

/-- VRNG (R130). -/
def execVrng (t k : Nat) (b : IBody) (s : State) : Out :=
  let w := wordOf 0x5A b
  s.issue t k w (vrngOk w) (vecEffect t k w false none)

/-- VOPT (R131). -/
def execVopt (t k : Nat) (b : IBody) (s : State) : Out :=
  let w := wordOf 0x5B b
  s.issue t k w (voptOk w) fun s => vecEffect t k w true (voptCheck ((s.tile t).src k w (scOf w))) s

/-- VSCALE, either function (R133). -/
def vscaleIssue (t k : Nat) (w : IWord) (s : State) : Out := s.issue t k w (vscaleOk w) (vecEffect t k w false none)

/-- VSCALE OBSERVE: a VSCALE word, which acts by its FN (R133). -/
def execVscaleObserve (t k : Nat) (b : IBody) (s : State) : Out := vscaleIssue t k (wordOf 0x5C b) s

/-- VSCALE FLAG: a VSCALE word, which acts by its FN (R133). -/
def execVscaleFlag (t k : Nat) (b : IBody) (s : State) : Out := vscaleIssue t k (wordOf 0x5C b) s

/-- LSCALE MUL and DIV are vector instructions (R111, R144). -/
def lscaleVecIssue (t k : Nat) (w : IWord) (s : State) : Out :=
  s.issue t k w (lscaleVecOk w) (vecEffect t k w false none)

/-! ### Reading sources and forming destinations (R112, R120, R123) -/

/-- The value of element `e` of a vector source: `sc` is the scalar value read at issue (R112, R123). -/
def Tile.vsrc (x : Tile) (w : IWord) (sp : Nat) (sc : W64) (e : Nat) : Val :=
  match vkind sp with
  | .scalar => f32 (BitVec.ofNat 32 sc.toNat)
  | .vt n => (if fl106 w then Fmt.fp16 else Fmt.bf16).decode (x.vtElem n e).toNat
  | .pair n => f32 (x.pairElem n e)
  | .rsMax n => f32 (x.rowMax n (e / 32))
  | .rsSum n => f32 (x.rowSum n (e / 32))
  | .imm => f32 (BitVec.ofNat 32 w.toNat)
  | .zero | .bad => .fin false 0 0

/-- The writes that put 1,024 results, element `e` being `f e`, into a destination: a VT register in ET16's format, a
pair or an RS column in FP32, in SAT or IEEE mode (R112, R120). -/
def vdst (w : IWord) (sat : Bool) (f : Nat → Val) : List VWrite :=
  let fmt := if fl106 w then Fmt.fp16 else Fmt.bf16
  let all := (List.range 1024).map f
  match vkind (sdOf w) with
  | .vt n => [.vt n (mlist 0 0 (all.map fun v => BitVec.ofNat 16 (convert fmt (!sat) v).1))]
  | .pair n =>
    let bits := all.map (toF32 sat)
    [.vt n (mlist 0 0 (bits.map fun b => BitVec.ofNat 16 b.toNat)),
      .vt (n + 1) (mlist 0 0 (bits.map fun b => BitVec.ofNat 16 (b.toNat / 65536)))]
  | .rsMax n => [.rsMax n ((List.range 32).map fun r => toF32 sat (f (32 * r)))]
  | .rsSum n => [.rsSum n ((List.range 32).map fun r => toF32 sat (f (32 * r)))]
  | _ => []

/-- A VT register that takes packed bytes from byte 0, the rest 0 (R121, R128). -/
def vtOfBytes (n : Nat) (bs : List Byte) : VWrite :=
  let at' (i : Nat) : Nat := (bs.getD i 0).toNat
  .vt n (mlist 0 0 ((List.range ((bs.length + 1) / 2)).map fun e => BitVec.ofNat 16 (at' (2 * e) + 256 * at' (2 * e + 1))))

/-- The summary fields of the condition word: VNAN, VINF, VTHR, VZERO at bits 8 to 11 (R55, R62). -/
def cwBit (i : Nat) (b : Bool) : W32 := if b then BitVec.ofNat 32 (2 ^ i) else 0

/-! ### What each vector instruction computes -/

/-- What a vector instruction writes and stages. -/
structure VOut where
  writes : List VWrite
  stages : List VStage
  high : Option (Nat × Nat)
  low : Option (Nat × Nat)
  deriving DecidableEq, Repr

/-- Writes alone. -/
def VOut.of (ws : List VWrite) : VOut := ⟨ws, [], none, none⟩

/-- VLD: bytes from tile store to a register; nothing is converted (R121). -/
def vldOut (x : Tile) (o : QOp) : VOut :=
  let w := o.word
  let f := (Fmt.ofCode (immf w 47 40)).getD .bf16
  let addr := (o.sa.toNat + immf w 31 0) % 2 ^ 32
  let bs := ((vldExtents f (fl104 w) addr (immf w 63 48)).map fun e => x.tsRead e.1 e.2).flatten
  match vkind (sdOf w) with
  | .vt n => .of [vtOfBytes n bs]
  | .pair n =>
    let e (i : Nat) : Nat := (bs.getD i 0).toNat
    let half (h : Nat) : List (BitVec 16) :=
      (List.range 1024).map fun i => BitVec.ofNat 16 (e (4 * i + 2 * h) + 256 * e (4 * i + 2 * h + 1))
    .of [.vt n (mlist 0 0 (half 0)), .vt (n + 1) (mlist 0 0 (half 1))]
  | _ => .of []

/-- Cut bytes into pieces of the given lengths. -/
def cutBytes : List (Nat × Nat) → List Byte → List VWrite
  | [], _ => []
  | (a, n) :: es, bs => .bytes a (bs.take n) :: cutBytes es (bs.drop n)

/-- VST: bytes of a register to tile store, block padding as 0 (R121, R160). -/
def vstOut (x : Tile) (o : QOp) : VOut :=
  let w := o.word
  let f := (Fmt.ofCode (immf w 47 40)).getD .bf16
  let addr := (o.sa.toNat + immf w 31 0) % 2 ^ 32
  let size := tileBytes f (fl104 w)
  let live := if f.isBlock then packedSize f (fl104 w) else size
  let bs : List Byte := match vkind (sbOf w) with
    | .vt n => (List.range size).map fun i => if i < live then x.vtByte n i else 0
    | .pair n => (List.range size).map fun i => x.vtByte (n + i / 2 % 2) (2 * (i / 4) + i % 2)
    | _ => []
  .of (cutBytes (vldExtents f (fl104 w) addr (immf w 63 48)) bs)

/-- 1.0 or 0.0. -/
def boolVal (b : Bool) : Val := if b then .fin false 1 0 else .fin false 0 0

/-- VOP's element operation before its rounding (R123). -/
def vopElem (fn : Nat) (a b c : Val) : Val :=
  match fn with
  | 0x00 => a
  | 0x01 => a.add b
  | 0x02 => a.add b.neg
  | 0x03 => a.mul b
  | 0x04 => (a.mul b).add c
  | 0x05 => Val.max a b
  | 0x06 => Val.min' a b
  | 0x07 => a.abs
  | 0x08 => a.neg
  | 0x09 => boolVal (b.lt a)
  | 0x0A => boolVal (b.lt a || b.eq a)
  | 0x0B => boolVal (a.eq b)
  | 0x0C => if c.isZero || c.isNan then b else a
  | _ => a

/-- VOP: one FP32 rounding, then the destination's conversion (R120, R123). -/
def vopOut (x : Tile) (o : QOp) : VOut :=
  let w := o.word
  let sat := fl105 w
  let at' (e : Nat) : Nat := if xtOf w = 0x0D then 32 * (e % 32) + e / 32 else e
  .of (vdst w sat fun e =>
    rnd32 sat (vopElem (xtOf w) (x.vsrc w (saOf w) o.sa (at' e)) (x.vsrc w (sbOf w) o.sb e) (x.vsrc w (scOf w) o.sc e)))

/-- The reduction of R124: 0 MAX, 1 MIN, 2 SUM, 3 ABSMAX, rounded once. -/
def reduce (op : Nat) (sat : Bool) (vs : List Val) : Val :=
  match op with
  | 0 => rmax vs
  | 1 => rmin vs
  | 2 => rnd32 sat (exactSum vs)
  | _ => rmax (vs.map Val.abs)

/-- VRED (R124). -/
def vredOut (x : Tile) (o : QOp) : VOut :=
  let w := o.word
  let sat := fl105 w
  let v (e : Nat) : Val := x.vsrc w (saOf w) 0 e
  let byCol := decide (4 ≤ xtOf w)
  let r := (List.range 32).map fun i =>
    reduce (xtOf w % 4) sat ((List.range 32).map fun j => if byCol then v (32 * j + i) else v (32 * i + j))
  .of (vdst w sat fun e => r.getD (if byCol then e % 32 else e / 32) .nan)

/-- The comparisons of VSUM THR (R125). -/
def thrHolds (c : Nat) (a b : Val) : Bool :=
  if a.isNan || b.isNan then false
  else match c with
    | 0 => b.lt a
    | 1 => !(a.lt b)
    | 2 => a.lt b
    | 3 => !(b.lt a)
    | 4 => a.eq b
    | _ => !(a.eq b)

/-- VSUM: the summary value and condition-word fields (R55, R125). -/
def vsumOut (x : Tile) (o : QOp) : VOut :=
  let w := o.word
  let kind := xtOf w % 4
  let srcs := if kind = 3 then [saOf w, sbOf w] else [saOf w]
  let full := srcs.any fun sp => (vkind sp).isFull
  let col := srcs.any fun sp => (vkind sp).isRs
  let idx := if full then List.range 1024 else if col then (List.range 32).map (32 * ·) else [0]
  let a := idx.map (x.vsrc w (saOf w) o.sa)
  let b := idx.map (x.vsrc w (sbOf w) o.sb)
  let nz := (a.filter fun v => !v.isZero).length
  let (value, mask, bits) : Nat × W32 × W32 :=
    match kind with
    | 0 => ((toF32 false (rmax a)).toNat, 0x0B00,
        cwBit 8 (a.any Val.isNan) ||| cwBit 9 (a.any Val.isInf) ||| cwBit 11 (decide (nz = 0)))
    | 1 => ((toF32 false (exactSum a)).toNat, 0x0B00,
        cwBit 8 (a.any Val.isNan) ||| cwBit 9 (a.any Val.isInf) ||| cwBit 11 (decide (nz = 0)))
    | 2 => (nz, 0x0800, cwBit 11 (decide (nz = 0)))
    | _ =>
      let n := ((a.zip b).filter fun p => thrHolds (xtOf w / 4) p.1 p.2).length
      (n, 0x0500, cwBit 10 (decide (n ≠ 0)) ||| cwBit 8 (a.any Val.isNan || b.any Val.isNan))
  .of ((if sdOf w ≤ 0x0F then [.sreg (sdOf w) (BitVec.ofNat 64 value)] else []) ++ [.cw mask bits])

/-- VBC (R126). -/
def vbcOut (x : Tile) (o : QOp) : VOut :=
  let w := o.word
  let i := immf w 4 0
  .of (vdst w (fl105 w) fun e =>
    x.vsrc w (saOf w) 0 (if xtOf w = 1 then 32 * (e / 32) + i else 32 * i + e % 32))

/-- VTBL (R127). -/
def vtblOut (x : Tile) (o : QOp) : VOut :=
  let w := o.word
  .of (vdst w (fl105 w) fun e =>
    vtbl (xtOf w) (fl105 w) (x.vsrc w (saOf w) o.sa e) (x.vsrc w (sbOf w) o.sb e) (x.vsrc w (scOf w) o.sc e))

/-- LSCALE MUL and DIV: exact, then converted (R144). -/
def lscaleOut (x : Tile) (l : Int) (o : QOp) : VOut :=
  let w := o.word
  .of (vdst w (fl105 w) fun e => (x.vsrc w (saOf w) o.sa e).scale (if xtOf w = 1 then l else -l))

/-- The exact sum of squares of finite values, as mantissa and power of two. -/
def sumSquares (vs : List Val) : Int × Int :=
  match exactSum ((vs.filter Val.isFin).map fun v => v.mul v) with
  | .fin _ m e => (m, e)
  | _ => (0, 0)

/-- The gauge sums of a VQNT: d = Σ(v4 − r)², n = Σr² over the tile's finite elements (R220). -/
def gaugeSums (scaled : List Val) (f : Fmt) (esc : Bool) (enc : List Byte) : (Int × Int) × (Int × Int) :=
  let ref := (encodeTile .mx8e4 false false scaled).bytes
  let fin := (List.range 1024).filter fun e => (scaled.getD e .nan).isFin
  let v4 (e : Nat) : Val := tileElem f esc (fun i => enc.getD i 0) e
  let r (e : Nat) : Val := tileElem .mx8e4 false (fun i => ref.getD i 0) e
  (sumSquares (fin.map fun e => (v4 e).add (r e).neg), sumSquares (fin.map r))

/-- VQNT: the encoded tile, the summary, the condition word, staged overflow, site counts and, at a gauged site on a
gauge step, the gauge sums (R128, R147, R220). -/
def vqntOut (x : Tile) (gauged : Bool) (o : QOp) : VOut :=
  let w := o.word
  let f := (Fmt.ofCode (immf w 47 40)).getD .bf16
  let ieee := if immf w 33 32 = 0 then modeOf f 0 else decide (immf w 33 32 = 2)
  let src := (List.range 1024).map (x.vsrc w (saOf w) 0)
  let scaled := src.map (Val.scale (-(o.scale.getD 0)))
  let enc := encodeTile f ieee (fl104 w) scaled
  let sats := enc.cls.zipIdx.filter fun e => decide (e.1 = .sat)
  let rows := (List.range 32).foldl (fun a r => if sats.any fun e => decide (e.2 / 32 = r) then a + 2 ^ r else a) 0
  let nan := src.any Val.isNan
  let n := match vkind (sdOf w) with | .vt n => n | _ => 0
  let counts : SiteCounts :=
    { sat := sats.length, flush := (enc.cls.filter (· = .flush)).length
      nan := (src.filter Val.isNan).length, inf := (src.filter Val.isInf).length, invalid := 0 }
  let special := src.zipIdx.find? fun e => e.1.isNan || e.1.isInf
  let g := gaugeSums scaled f (fl104 w) enc.bytes
  { writes := [vtOfBytes n enc.bytes]
      ++ (if scOf w ≤ 0x0F then [.sreg (scOf w) (BitVec.ofNat 64 (sats.length + 2 ^ 32 * rows))] else [])
      ++ [.cw 0x0500 (cwBit 10 (!sats.isEmpty) ||| cwBit 8 nan)]
    stages := (if fl105 w && !sats.isEmpty then [.observe (entryOf w o.sb) none false sats.length] else [])
      ++ [.site (siteOf w) counts] ++ (if gauged then [.gauge (siteOf w) g.1 g.2] else [])
    high := special.map fun e => (if e.1.isNan then 2 else 3, e.2)
    low := firstLow enc.cls }

/-- VDQ (R129). -/
def vdqOut (x : Tile) (o : QOp) : VOut :=
  let w := o.word
  let f := (Fmt.ofCode (immf w 47 40)).getD .bf16
  let n := match vkind (saOf w) with | .vt n => n | _ => 0
  .of (vdst w (fl105 w) fun e => (tileElem f (fl104 w) (x.vtByte n) e).scale (o.scale.getD 0))

/-- Rotate a 32-bit number left (R21). -/
def rotl32 (v : W32) (n : Nat) : W32 := v.rotateLeft n

/-- The rounds of the generator from round `r` on (R223). -/
def genRounds (a b : W32) (r : Nat) (x y : W32) : Nat → W32 × W32
  | 0 => (x, y)
  | n + 1 =>
    let k := (if r % 2 = 0 then a else b) + BitVec.ofNat 32 r
    let x' := (rotl32 x 24 + y) ^^^ k
    let y' := rotl32 y 4 ^^^ x'
    genRounds a b (r + 1) x' y' n

/-- The drop-out generator (R223). -/
def gen (seed : W64) (step : W32) (site mb : Nat) (idx : W64) : W32 :=
  let a : W32 := BitVec.ofNat 32 seed.toNat ^^^ step
  let b : W32 := BitVec.ofNat 32 (seed.toNat / 2 ^ 32) ^^^ BitVec.ofNat 32 (site * 65536 + mb)
  let r := genRounds a b 0 (BitVec.ofNat 32 idx.toNat) (BitVec.ofNat 32 (idx.toNat / 2 ^ 32)) 10
  r.1 + r.2

/-- VRNG (R130, R224). -/
def vrngOut (seed : W64) (step : W64) (o : QOp) : VOut :=
  let w := o.word
  .of (vdst w false fun e =>
    let idx := o.sa + BitVec.ofNat 64 (e / 32) * o.sb + BitVec.ofNat 64 (e % 32)
    let u := gen seed (BitVec.ofNat 32 step.toNat) (immf w 63 48) (immf w 47 32) idx
    boolVal (decide (u.toNat < immf w 31 0)))

/-- The value of a compensated pair (R200). -/
def pairValue (head tail : BitVec 16) : Val :=
  let h := Fmt.bf16.decode head.toNat
  match h with
  | .fin _ m e =>
    let eh : Int := max (-126) (if m = 0 then -126 else flog2 m e)
    h.add (Val.ofInt (sintOf 16 tail.toNat) (eh - 22))
  | _ => h

/-- The tail of an exact weight whose head is `head1`, and its class (R200). -/
def tailOf (head1 : Nat) (w1 : Val) : Nat × Cls :=
  let h := Fmt.bf16.decode head1
  match h with
  | .fin _ m e =>
    let eh : Int := max (-126) (if m = 0 then -126 else flog2 m e)
    match w1.add h.neg with
    | .fin s rm re =>
      let u := rneUnits rm re (eh - 22)
      (if s then (65536 - u % 65536) % 65536 else u % 65536, if decide (rm ≠ 0) && decide (u = 0) then .flush else .none)
    | _ => (0, .none)
  | _ => (0, .none)

/-- What VOPT computes for one element (R132). -/
structure OptElem where
  head : Nat
  tail : Nat
  m : Nat
  v : Nat
  /-- classes of g, head1, tail1, m1 and, under ADAMW, v1 -/
  cls : List Cls
  u : Val
  w32 : Val
  deriving DecidableEq, Repr

/-- VOPT on one element: hyperparameters lr, beta1, beta2, eps, wd, bc1, bc2, gscale (R131, R132). -/
def optElem (adam : Bool) (hp : List Val) (head tail mo vo : BitVec 16) (grad : Val) : OptElem :=
  let p (i : Nat) : Val := hp.getD i .nan
  let one : Val := .fin false 1 0
  let bf (v : Val) : Nat × Cls := convert .bf16 true v
  let w := pairValue head tail
  let g := fmul false grad (p 7)
  let m := Fmt.bf16.decode mo.toNat
  let v := Fmt.bf16.decode vo.toNat
  let m1 := bf (fadd false (fmul false (p 1) m) (fmul false (fsub false one (p 1)) g))
  let v1 := bf (fadd false (fmul false (p 2) v) (fmul false (fmul false (fsub false one (p 2)) g) g))
  let m1v := Fmt.bf16.decode m1.1
  let v1v := Fmt.bf16.decode v1.1
  let n := if adam then
      fmul false (fmul false m1v (p 5)) (vtblF 3 (fadd false (fmul false v1v (p 6)) (p 3)))
    else m1v
  let w32 := rnd32 false w
  let u := fmul false (p 0) (fadd false n (fmul false (p 4) w32))
  let w1 := w.add u.neg
  let h1 := bf w1
  let t1 := tailOf h1.1 w1
  let gc : Cls := match g with | .nan => .nan | .inf _ => .inf | _ => .none
  { head := h1.1, tail := t1.1, m := m1.1, v := if adam then v1.1 else vo.toNat
    cls := [gc, h1.2, t1.2, m1.2] ++ (if adam then [v1.2] else []), u := u, w32 := w32 }

/-- The first element with one of two classes, NaN ranking above Inf and saturated above flushed within an element
(R230), coded as CLASS. -/
def firstOf (els : List (List Cls)) (c1 c2 : Cls) (k1 k2 : Nat) : Option (Nat × Nat) :=
  (els.zipIdx.find? fun e => e.1.contains c1 || e.1.contains c2).map fun e =>
    (if e.1.contains c1 then k1 else k2, e.2)

/-- VOPT (R131, R132, R147, R213, R219). -/
def voptOut (x : Tile) (o : QOp) : VOut :=
  let w := o.word
  let adam := decide (immf w 63 60 = 0)
  let rec_ := x.tsRead (o.sc.toNat % 2 ^ 32) 32
  let hp := (List.range 8).map fun i => f32 (BitVec.ofNat 32 (leNat ((rec_.drop (4 * i)).take 4)))
  let hn := match vkind (sdOf w) with | .pair n => n | _ => 0
  let mn := match vkind (saOf w) with | .pair n => n | _ => 0
  let els := (List.range 1024).map fun e =>
    optElem adam hp (x.vtElem hn e) (x.vtElem (hn + 1) e) (x.vtElem mn e) (x.vtElem (mn + 1) e)
      (x.vsrc w (sbOf w) 0 e)
  let col (f : OptElem → Nat) : SMap (BitVec 16) := mlist 0 0 (els.map fun e => BitVec.ofNat 16 (f e))
  let cls := els.map (·.cls)
  let all := cls.flatten
  let outs := (cls.map (List.drop 1)).flatten
  let bad (e : OptElem) : Bool := !e.u.isFin || !e.w32.isFin
  { writes := [.vt mn (col (·.m)), .vt (mn + 1) (col (·.v)), .vt hn (col (·.head)), .vt (hn + 1) (col (·.tail))]
    stages := [.site (siteOf w) (countClasses all),
      .layer (immf w 43 32) (sumSquares (els.map (·.u))) (sumSquares (els.map (·.w32))) (els.any bad)]
      ++ (if outs.contains .nan || outs.contains .inf then [.cast (outs.contains .nan) (outs.contains .inf)] else [])
    high := firstOf cls .nan .inf 2 3
    low := firstOf cls .sat .flush 0 1 }

/-- VSCALE: an observation or a flag on its entry (R133). -/
def vscaleOut (x : Tile) (o : QOp) : VOut :=
  let w := o.word
  let e := entryOf w o.sb
  if xtOf w = 1 then ⟨[], [.observe e none false 1], none, none⟩
  else
    let vs := (List.range 1024).map (x.vsrc w (saOf w) 0)
    let a := toF32 false (maxMag vs)
    ⟨[], [.observe e (some a) (vs.any Val.isNan) (vs.filter Val.isInf).length], none, none⟩

/-- VDRAIN of a drain entry (R50, R122). -/
def vdrainOut (d : Drain) (o : QOp) : VOut :=
  let w := o.word
  let n := match vkind (sdOf w) with | .vt n => n | _ => 0
  let bytes := mgetList 0 d.data 0 2048
  let rs (f : Nat → VWrite) : List VWrite := match vkind (saOf w) with | .rsMax r => [f r] | _ => []
  .of ([vtOfBytes n bytes]
    ++ (if d.rowMaxValid then rs fun r => .rsMax r (mgetList 0 d.rowMax 0 32) else [])
    ++ (if d.rowSumValid then rs fun r => .rsSum r (mgetList 0 d.rowSum 0 32) else [])
    ++ [.cw 0x00030000 (cwBit 16 d.nanInf ||| cwBit 17 d.accSat)])

/-! ### Starting and completing -/

/-- A place a vector instruction reads or writes: a VT register, a half of an RS entry, or a tile-store word. -/
inductive VPlace where
  | vt (n : Nat)
  | rsMax (n : Nat)
  | rsSum (n : Nat)
  | word (a : Nat)
  deriving DecidableEq, Repr

/-- The places of a vector specifier. -/
def placesOf (sp : Nat) : List VPlace :=
  match vkind sp with
  | .vt n => [.vt n]
  | .pair n => [.vt n, .vt (n + 1)]
  | .rsMax n => [.rsMax n]
  | .rsSum n => [.rsSum n]
  | _ => []

/-- The tile-store words of an extent. -/
def wordsOf (a n : Nat) : List VPlace := (List.range ((n + 3) / 4)).map fun i => .word (a / 4 + i)

/-- The places a queued vector instruction reads (R113 rule 6). -/
def QOp.vreads (o : QOp) : List VPlace :=
  let w := o.word
  let f := (Fmt.ofCode (immf w 47 40)).getD .bf16
  match opcOf w with
  | 0x50 =>
    ((vldExtents f (fl104 w) ((o.sa.toNat + immf w 31 0) % 2 ^ 32) (immf w 63 48)).map fun e => wordsOf e.1 e.2).flatten
  | 0x51 => placesOf (sbOf w)
  | 0x52 => []
  | 0x53 | 0x57 => placesOf (saOf w) ++ placesOf (sbOf w) ++ placesOf (scOf w)
  | 0x55 => placesOf (saOf w) ++ placesOf (sbOf w)
  | 0x5A => []
  | 0x5B => placesOf (sdOf w) ++ placesOf (saOf w) ++ placesOf (sbOf w) ++ wordsOf (o.sc.toNat % 2 ^ 32) 32
  | _ => placesOf (saOf w)

/-- The places a write fills. -/
def VWrite.places : VWrite → List VPlace
  | .vt n _ => [.vt n]
  | .rsMax n _ => [.rsMax n]
  | .rsSum n _ => [.rsSum n]
  | .bytes a bs => wordsOf a bs.length
  | .sreg .. | .cw .. => []

/-- Is a write one of condition-word bits? -/
def VWrite.isCw : VWrite → Bool
  | .cw .. => true
  | _ => false

/-- The storage words of a place, as unit and word (R59). -/
def VPlace.stored : VPlace → List (Nat × Nat)
  | .vt n => (List.range 512).map fun i => (2, 512 * n + i)
  | .rsMax n => (List.range 32).map fun r => (3, 64 * n + 2 * r)
  | .rsSum n => (List.range 32).map fun r => (3, 64 * n + 2 * r + 1)
  | .word a => [(0, a)]

/-- The storage words a vector instruction reads (R59): of a packed or narrow tile in a VT register those that hold its bytes, for VBC those
of its row or column, else its places whole (R121, R126, R129, R160). -/
def QOp.vwords (o : QOp) : List (Nat × Nat) :=
  let w := o.word
  let f := (Fmt.ofCode (immf w 47 40)).getD .bf16
  let live := if f.isBlock then packedSize f (fl104 w) else tileBytes f (fl104 w)
  let packed (sp : Nat) : List (Nat × Nat) := match vkind sp with
    | .vt n => (List.range ((live + 3) / 4)).map fun i => (2, 512 * n + i)
    | _ => ((placesOf sp).map VPlace.stored).flatten
  let line (n : Nat) : List (Nat × Nat) := (List.range 32).map fun j =>
    (2, 512 * n + (if xtOf w = 1 then 32 * j + immf w 4 0 else 32 * immf w 4 0 + j) / 2)
  match opcOf w with
  | 0x51 => packed (sbOf w)
  | 0x59 => packed (saOf w)
  | 0x56 => match vkind (saOf w) with
    | .vt n => (line n).eraseDups
    | .pair n => (line n).eraseDups ++ (line (n + 1)).eraseDups
    | _ => []
  | _ => (o.vreads.map VPlace.stored).flatten

/-- Must instruction `o` wait for the writes of an instruction in flight (R54, R113 rule 6)? -/
def Tile.vhazard (x : Tile) (o : QOp) : Bool :=
  let busy := (x.vrun.map fun r => (r.writes.map VWrite.places).flatten).flatten
  o.vreads.any busy.contains

/-- Is VQNT `o` gauged: its site has an enabled gauge and this is a gauge step (R220)? -/
def Numerics.gauged (n : Numerics) (site : Nat) : Bool :=
  let i := n.ctrlStep.toNat % 256
  decide (i ≠ 0) && decide (n.step.toNat % i = 0) && n.gauges.any fun g => g.2.enable && decide (g.2.site = site)

/-- The result of a vector instruction other than VDRAIN on the tile as it stands. -/
def State.vecOut (s : State) (t : Nat) (o : QOp) : VOut :=
  let x := (s.tile t).delivered
  let num := match s.partOf t with | some p => (s.part p).num | none => .reset
  let seed := match s.partOf t with
    | some p => (match (s.part p).image with | some im => im.seed | none => 0)
    | none => 0
  match opcOf o.word with
  | 0x50 => vldOut x o
  | 0x51 => vstOut x o
  | 0x53 => vopOut x o
  | 0x54 => vredOut x o
  | 0x55 => vsumOut x o
  | 0x56 => vbcOut x o
  | 0x57 => vtblOut x o
  | 0x58 => vqntOut x (num.gauged (siteOf o.word)) o
  | 0x59 => vdqOut x o
  | 0x5A => vrngOut seed num.step o
  | 0x5B => voptOut x o
  | 0x5C => vscaleOut x o
  | _ => lscaleOut x num.lossL o

/-- Start a vector instruction with result `r` whose reads met the storage words `ws`: an uncorrectable one is an
imprecise fault on it, and it writes nothing (R59, R106). -/
def State.vecStart (s : State) (t : Nat) (rest : List QOp) (o : QOp) (r : VOut) (ws : List (Nat × Nat)) :
    State :=
  let x := s.tile t
  let hit := x.badWord ws
  let s' := (s.setTile t { x with vq := rest }).countWords t ws (some o.strand)
  let bad := hit.isSome
  let addr : W64 := match hit with | some (0, a) => faultAddr 1 (4 * a) | _ => 0
  let s' := match hit with | some e => s'.impreciseEcc t o e.1 addr | none => s'
  let run : VRun := if bad then ⟨o, [], [], none, none⟩ else ⟨o, r.writes, r.stages, r.high, r.low⟩
  s'.modTile t fun x => { x with vrun := x.vrun ++ [run] }

/-- VECTOR_ENGINE_START: the instruction at the head of the vector queue starts, once the instructions that write its
sources have written them (R54, R113 rule 6); a VDRAIN needs its entry (R51) and a VQNT or VDQ its scale (R129). -/
def execVectorEngineStart (t : Nat) (s : State) : Out :=
  let x := s.tile t
  match x.vq with
  | [] => .next s
  | o :: rest =>
    if x.vhazard o then .next s
    else if opcOf o.word = 0x52 then
      match x.delivered.drain.find? fun d => decide (d.strand = o.strand) with
      | none => .next s
      | some d =>
        let y := { x with drain := x.drain.filter fun e => decide (e.number ≠ d.number) }
        let ws := (List.range drainWords).map fun i => (5, 1024 * d.number + i)
        .next ((s.setTile t y).vecStart t rest o (vdrainOut d o) ws)
    else if (opcOf o.word = 0x58 ∨ opcOf o.word = 0x59) ∧ o.scale = none then .next s
    else .next (s.vecStart t rest o (s.vecOut t o) o.vwords)

/-- VDRAIN_TAKE: a VDRAIN at the head of the vector queue takes the oldest valid entry of its strand (R50, R51). -/
def execVdrainTake (t : Nat) (s : State) : Out :=
  match (s.tile t).vq with
  | [] => .next s
  | o :: _ => if opcOf o.word = 0x52 then execVectorEngineStart t s else .next s

/-- Make one write of a completing vector instruction of strand `k`. -/
def Tile.applyWrite (x : Tile) (k : Nat) : VWrite → Tile
  | .vt n els =>
    let y := x.clearEcc 2 (512 * n) 512
    { y with vt := msetList 0 x.vt (1024 * n) (mgetList 0 els 0 1024) }
  | .rsMax n vs =>
    let y := (List.range 32).foldl (fun y r => y.clearEcc 3 (64 * n + 2 * r) 1) x
    { y with rsMax := msetList 0xFF800000 x.rsMax (32 * n) vs }
  | .rsSum n vs =>
    let y := (List.range 32).foldl (fun y r => y.clearEcc 3 (64 * n + 2 * r + 1) 1) x
    { y with rsSum := msetList 0 x.rsSum (32 * n) vs }
  | .bytes a bs => x.tsWrite a bs
  | .sreg r v => (x.clearScalar k r).modStrand k fun st => { st with s := mset 0 st.s r v }
  | .cw mask bits => x.mergeCw k fun c => (c &&& ~~~mask) ||| (bits &&& mask)

/-- Add two exact numbers. -/
def Dyadic.add (a : Dyadic) (b : Int × Int) : Dyadic :=
  if a.m = 0 then ⟨b.1, b.2⟩ else if b.1 = 0 then a
  else
    let k := min a.e b.2
    ⟨a.m * 2 ^ (a.e - k).toNat + b.1 * 2 ^ (b.2 - k).toNat, k⟩

/-- Stage VOPT's layer sums (R219). -/
def Numerics.addLayer (n : Numerics) (l : Nat) (su sw : Int × Int) (inv : Bool) : Numerics :=
  { n with layers := mmod .reset n.layers l fun y =>
      { y with touched := true, su := y.su.add su, sw := y.sw.add sw, invalid := y.invalid || inv } }

/-- Stage a gauge's sums at every enabled gauge of a site (R220). -/
def Numerics.addGauge (n : Numerics) (site : Nat) (d r : Int × Int) : Numerics :=
  { n with gauges := mmap .reset (fun _ g =>
      if g.enable && decide (g.site = site) then { g with d := g.d.add d, n := g.n.add r } else g) n.gauges }

/-- Cast into a partition's local vote (R145, R213). -/
def Numerics.cast (n : Numerics) (nan inf sat late : Bool) : Numerics :=
  { n with vote := ⟨n.vote.nan || nan, n.vote.inf || inf, n.vote.sat || sat, n.vote.late || late⟩ }

/-- Stage one thing a completed vector instruction of tile `t` leaves outside the tile (R133, R147, R213, R219, R220). What a step that
has ended would stage is discarded, but for site counts, which its records keep (R204, R217, R229). -/
def State.applyStage (s : State) (t : Nat) (r : VRun) (g : VStage) : State :=
  match s.partOf t with
  | none => s
  | some p =>
    let counts := match g with | .site .. => true | _ => false
    if !counts && !(s.part p).stepOpen then s
    else match g with
    | .layer l su sw inv => s.modNum p fun n => n.addLayer l su sw inv
    | .gauge site d m => s.modNum p fun n => n.addGauge site d m
    | .cast a b => s.modNum p fun n => n.cast a b false false
    | .site _ c => s.sendSite t r.op c r.high r.low
    | .observe .. =>
      let m : StageMsg :=
        { part := p, tile := t, logical := ((s.part p).logicalOf t).getD 0, strand := r.op.strand, stage := g
          siteInst := 0, high := none, low := none }
      { s with stageMsgs := s.stageMsgs ++ [m] }

/-- VECTOR_COMPLETE: the oldest vector instruction in flight makes its writes and stages its observations (R54, R113). One that writes part
of the condition word reads the word first: an uncorrectable error there is an imprecise fault on it, and it writes nothing (R59, R106). -/
def execVectorComplete (t : Nat) (s : State) : Out :=
  let x := s.tile t
  match x.vrun with
  | [] => .next s
  | r :: rest =>
    let k := r.op.strand
    let ws := if r.writes.any VWrite.isCw then [(4, 64 * k + 33)] else []
    let s' := (s.setTile t { x with vrun := rest }).countWords t ws (some k)
    if (x.badWord ws).isSome then .next (s'.impreciseEcc t r.op 4 (faultAddr 0 0))
    else
      let s' := s'.modTile t fun y => r.writes.foldl (fun y a => y.applyWrite k a) y
      .next (r.stages.foldl (fun s g => s.applyStage t r g) s')

/-- floor(log2(x)) of a finite positive FP32 value; `none` for 0. -/
def log2Floor (v : Val) : Option Int :=
  match v with
  | .fin _ m e => if m = 0 then none else some (flog2 m e)
  | _ => none

/-! Fields of a scale entry (R203). -/

/-- SCALE. -/
def seScale (e : W64) : Int := sintOf 8 (bitsOf e.toNat 63 56)
/-- TARGET. -/
def seTarget (e : W64) : Int := sintOf 8 (bitsOf e.toNat 55 48)
/-- CLASS: true is DELAYED. -/
def seDelayed (e : W64) : Bool := decide (bitsOf e.toNat 47 47 = 1)
/-- HEADROOM. -/
def seHeadroom (e : W64) : Nat := bitsOf e.toNat 45 43
/-- CAL. -/
def seCal (e : W64) : Bool := decide (bitsOf e.toNat 42 42 = 1)
/-- WATCH. -/
def seWatch (e : W64) : Nat := bitsOf e.toNat 41 36
/-- HIST_COUNT. -/
def seHist (e : W64) : Nat := bitsOf e.toNat 35 31
/-- OVF_COUNT. -/
def seOvf (e : W64) : Nat := bitsOf e.toNat 30 16
/-- EST. -/
def seEst (e : W64) : Nat := bitsOf e.toNat 15 0
/-- h_eff (R206). -/
def seHeff (e : W64) : Int := if seCal e then 4 else (seHeadroom e : Int)

/-- A scale entry at reset: HEADROOM 2 (R203). -/
def scaleReset : W64 := 0x0000100000000000

/-- The exponent a VQNT or VDQ of entry `e` receives (R128, R208): in calibration a DELAYED entry with no history gives
VQNT the current-step exponent. -/
def Numerics.scaleFor (n : Numerics) (e : Nat) (quant : Bool) : Int :=
  let v := mget scaleReset n.scale e
  if quant && n.calActive && seDelayed v && decide (seHist v = 0) then
    match log2Floor (f32 (BitVec.ofNat 32 ((mget 0 n.staged e).toNat / 2 ^ 32))) with
    | some l => l + seHeff v - seTarget v
    | none => seScale v
  else seScale v

/-- SCALE_ENTRY_ARRIVAL: the committed exponent reaches the oldest VQNT or VDQ of the vector queue that still waits for
its own (R128, R129, R149, R208). One that a die crossing delivers poisoned is an imprecise fault on that instruction, which writes nothing
(R24, R68). -/
def execScaleEntryArrival (a : ScaleArrival) (s : State) : Out :=
  let t := a.tile
  let x := s.tile t
  let i := x.vq.findIdx fun o => (decide (opcOf o.word = 0x58) || decide (opcOf o.word = 0x59)) && o.scale.isNone
  match x.vq[i]?, s.partOf t with
  | some o, some p =>
    let s := s.countRetries a.arrived.crossings
    if a.arrived.lost then .next ((s.setTile t { x with vq := x.vq.eraseIdx i }).impreciseEcc t o 8 (faultAddr 0 0))
    else
      let v := (s.part p).num.scaleFor (entryOf o.word o.sb) (decide (opcOf o.word = 0x58))
      .next (s.setTile t { x with vq := x.vq.set i { o with scale := some v } })
  | _, _ => .next s

end Sys2Proof.Machine
end

