-- ==== Sys2Proof/Machine/Movement.lean ====
section
/-! DEFINITION. Movement: DMA, PFX, SPILL, the DMA engines' descriptor slots (R134 to R137, R256 to R258), and the stage
queues: SQPUT, SQGET and their credits (R138, R343 to R345). -/

namespace Sys2Proof.Machine

/-! ### Encodings and issue checks (R134 to R137) -/

/-- Decode check of DMA, PFX and SPILL (R134, R137). -/
def dmaOk (w : IWord) : Bool :=
  let rb := immf w 31 0
  (if opcOf w = 0x80 then
      decide (wf w 119 116 = 0) && !(decide (wf w 115 114 = 3) && decide (wf w 113 112 = 3))
        && (!(fl105 w) || decide (wf w 115 114 = 1))
    else decide (xtOf w < 2) && !(fl105 w))
    && !(fl104 w) && decide (sdOf w = 0x80) && srcOk (saOf w) && srcOk (sbOf w) && srcOk (scOf w)
    && decide (xlOf w = 0) && decide (immf w 57 56 = 0) && decide (immf w 39 32 = 0)
    && decide (rb ≠ 0) && decide (rb % 4 = 0)

/-- The spaces a transfer's end can lie in (R134, R137). -/
inductive Space where
  | local | remote | hbm | host | peer
  deriving DecidableEq, Repr

/-- The space of a 2-bit code (R134). -/
def Space.ofCode (c : Nat) : Space := if c = 0 then .local else if c = 1 then .remote else if c = 2 then .hbm else .host

/-- Source and destination spaces of a movement word (R134, R137). -/
def moveSpaces (w : IWord) : Space × Space :=
  let mine : Space := if xtOf w % 2 = 1 then .hbm else .local
  if opcOf w = 0x80 then (.ofCode (wf w 113 112), .ofCode (wf w 115 114))
  else if opcOf w = 0x81 then (.peer, mine) else (mine, .peer)

/-- Rows of a transfer and bytes of a row (R134). -/
def moveRows (w : IWord) : Nat × Nat := (immf w 55 40 + 1, immf w 31 0)

/-- Source and destination strides (R134). -/
def moveStrides (w : IWord) (sc : W64) : Nat × Nat :=
  if scOf w = 0x80 then (immf w 31 0, immf w 31 0) else (sc.toNat % 2 ^ 32, sc.toNat / 2 ^ 32)

/-- Are `n` bytes at `a` in a range of tile addresses that allows writing (R56, R135)? -/
def tileWritable (a n : Nat) : Bool := decide (a + n ≤ 0x100000) || (decide (0x100000 ≤ a) && decide (a + n ≤ 0x102000))

/-- The first row address of a list that is not writable tile space. -/
def badTileRow (base rows rb stride : Nat) : Option Nat :=
  ((List.range rows).map fun i => base + i * stride).find? fun a => !(tileWritable a rb)

/-- The precise fault of one end of a movement, if any, with the address recorded (R135, R136, R137). -/
def State.moveEndCheck (s : State) (p : Nat) (sp : Space) (a : W64) (rows rb stride : Nat) : Option W64 :=
  let n := a.toNat
  let x := s.part p
  match sp with
  | .local =>
    if n / 2 ^ 32 ≠ 0 ∨ n % 4 ≠ 0 then some (faultAddr 1 n)
    else (badTileRow n rows rb stride).map (faultAddr 1)
  | .remote =>
    if n / 2 ^ 44 ≠ 0 ∨ n % 4 ≠ 0 then some (faultAddr 1 n)
    else if (x.physOf (n / 2 ^ 32)).isNone then some (faultAddr 4 (n / 2 ^ 32))
    else none
  | .hbm =>
    if n / 2 ^ 40 ≠ 0 ∨ n % 4 ≠ 0 then some (faultAddr 2 n)
    else (((List.range rows).map fun i => n + i * stride).find? fun b => decide (x.hbmSize < b + rb)).map (faultAddr 2)
  | .host => if n / 2 ^ 52 ≠ 0 ∨ n % 4 ≠ 0 then some (faultAddr 3 n) else none
  | .peer =>
    let m := n / 2 ^ 56 % 8
    if !x.gang.formed ∨ m = s.member then some (faultAddr 0 n)
    else if n / 2 ^ 59 ≠ 0 ∨ n / 2 ^ 48 % 256 ≠ 0 ∨ n % 4 ≠ 0 then some (faultAddr 0 n)
    else none

/-- The first precise fault of a movement (R136). -/
def State.moveCheck (s : State) (t k : Nat) (w : IWord) : Option W64 :=
  match s.partOf t with
  | none => some 0
  | some p =>
    let x := s.tile t
    let (src, dst) := moveSpaces w
    let (rows, rb) := moveRows w
    let (ss, ds) := moveStrides w (x.src k w (scOf w))
    if ss % 4 ≠ 0 ∨ ds % 4 ≠ 0 then some 0
    else match s.moveEndCheck p src (x.src k w (saOf w)) rows rb ss with
      | some a => some a
      | none => s.moveEndCheck p dst (x.src k w (sbOf w)) rows rb ds

/-! ### Engines (R256, R257) -/

/-- The key in `engines` of the engine of a tile's movement instructions (R256). -/
def State.engineOf (s : State) (t : Nat) : Nat :=
  let l := match s.partOf t with | some p => ((s.part p).logicalOf t).getD 0 | none => 0
  4 * bayOf t + l % 4

/-- Descriptor slots held at an engine. -/
def State.engineHeld (s : State) (e : Nat) : Nat := mget 0 s.engines e

/-- Take a descriptor slot. -/
def State.engineTake (s : State) (e : Nat) : State := { s with engines := mmod 0 s.engines e (· + 1) }

/-- Free a descriptor slot (R257). -/
def State.engineGive (s : State) (e : Nat) : State := { s with engines := mmod 0 s.engines e (· - 1) }

/-- Does a movement-queue word hold a descriptor (R256)? -/
def needsEngine (w : IWord) : Bool := decide (opcOf w = 0x80) || decide (opcOf w = 0x81) || decide (opcOf w = 0x82)

/-- The bus address of host-window offset `a` for a direction, or the address recorded when it is refused (R258). -/
def Part.hostAddr (x : Part) (a n : Nat) (write : Bool) : Nat × Bool :=
  let win := mget HostWindow.zero x.hostWin (a / 2 ^ 48 % 16)
  let off := a % 2 ^ 48
  let ok := decide (off + n ≤ win.length) && (if write then win.write else win.read)
  (win.base.toNat + off, ok)

/-- The rows a movement reads from host memory, up to the first that its window refuses: bus address, offset, bytes (R258, R259). -/
def Part.hostRows (x : Part) (o : QOp) : List (Nat × Nat × Nat) :=
  let (rows, rb) := moveRows o.word
  let ss := (moveStrides o.word o.sc).1
  let at' (i : Nat) : Nat × Bool := x.hostAddr (o.sa.toNat + i * ss) rb false
  ((List.range rows).takeWhile fun i => (at' i).2).map fun i => ((at' i).1, i * rb, rb)

/-- A movement that has its descriptor reads what it takes from host memory (R259, R260). -/
def State.startHostRead (s : State) (t : Nat) (o : QOp) : State :=
  match s.partOf t with
  | some p => if (moveSpaces o.word).1 = .host ∧ !(s.tile t).timedOut.contains o.serial then s.startRead p (.tile t o.serial) false ((s.part p).hostRows o) else s
  | none => s

/-- A PFX that has its descriptor asks the lender for its rows over VC3 (R137, R264, R265). -/
def State.startPeerRead (s : State) (t : Nat) (o : QOp) : State :=
  match s.partOf t with
  | some p =>
    if (moveSpaces o.word).1 = .peer ∧ !(s.tile t).timedOut.contains o.serial then
      let m := o.sa.toNat / 2 ^ 56 % 8
      let e := mget 0 (s.part p).lendSeen m
      let (rows, rb) := moveRows o.word
      (List.range rows).foldl (fun (s : State) i =>
        s.transmit (s.gangLink m) 3 e 0
          (ownHeader 4 p e.toNat (o.sa.toNat % 2 ^ 48 + i * (moveStrides o.word o.sc).1) ++ leBytes 4 rb)) s
    else s
  | none => s

/-- Release the heads of a movement queue in order, as long as each finds the descriptor slot it needs (R113 rule 3,
R257). -/
def releaseMoves (s : State) (t : Nat) : List QOp → State
  | [] => s.modTile t fun x => { x with xq := [] }
  | o :: rest =>
    if needsEngine o.word then
      if s.engineHeld (s.engineOf t) < 64 then
        releaseMoves ((((s.engineTake (s.engineOf t)).modTile t fun x => { x with xrun := x.xrun ++ [o] }).startHostRead t o).startPeerRead t o) t rest
      else s.modTile t fun x => { x with xq := o :: rest }
    else releaseMoves (s.modTile t fun x => { x with xrun := x.xrun ++ [o] }) t rest

/-- Accept a movement-queue operation and release what can be released. -/
def State.acceptMove (s : State) (t k : Nat) (o : QOp) : State :=
  let x := s.tile t
  let s := (s.setTile t { x with xq := x.xq ++ [o], serial := x.serial + 1 }).advance t k
  releaseMoves s t (s.tile t).xq

/-- The effect of DMA, PFX and SPILL at issue. -/
def moveEffect (t k : Nat) (w : IWord) (s : State) : State :=
  match s.moveCheck t k w with
  | some a => s.precise t k w cBounds a
  | none => s.acceptMove t k ((s.tile t).mkOp k w)

/-- DMA (R134 to R136). -/
def execDma (t k : Nat) (b : IBody) (s : State) : Out :=
  let w := wordOf 0x80 b
  s.issue t k w (dmaOk w) (moveEffect t k w)

/-- PFX (R137). -/
def execPfx (t k : Nat) (b : IBody) (s : State) : Out :=
  let w := wordOf 0x81 b
  s.issue t k w (dmaOk w) (moveEffect t k w)

/-- SPILL (R137). -/
def execSpill (t k : Nat) (b : IBody) (s : State) : Out :=
  let w := wordOf 0x82 b
  s.issue t k w (dmaOk w) (moveEffect t k w)

/-! ### Performing a transfer -/

/-- One 32-bit word on its way: its bytes; a poisoned HBM beat's word is not moved (R253); one delivered poisoned is
treated as R59 states, with the cause R252 records. -/
structure WordIn where
  bytes : List Byte
  skip : Bool
  pois : Option Nat
  /-- the unit that delivered it poisoned, as DETAIL codes it (R443) -/
  unit : Nat
  /-- the address a fault on this word records -/
  addr : W64
  deriving DecidableEq, Repr

/-- Cut bytes into words. -/
def wordsIn : List Byte → List (List Byte)
  | a :: b :: c :: d :: r => [a, b, c, d] :: wordsIn r
  | [] => []
  | r => [r]

/-- The fault of an access by address at transfer time: code, address and FLT_CTX_DETAIL. -/
abbrev MoveFault := Nat × W64 × W64

/-- It is an imprecise fault of the operation (R106). -/
def State.moveFault (s : State) (t : Nat) (o : QOp) (f : MoveFault) : State := s.impreciseAs t o f.1 f.2.1 f.2.2

/-- STORE_BOUNDS at an address. -/
def boundsAt (kind a : Nat) : MoveFault := (cBounds, faultAddr kind a, 0)

/-- Bytes of tile memory for the mesh port. -/
def Tile.meshRead (x : Tile) (a n : Nat) : List Byte :=
  if a + n ≤ 0x100000 then x.tsRead a n
  else ((List.range (n / 4)).map fun i => leBytes 4 (x.delivered.rsWord (a + 4 * i - 0x100000)).toNat).flatten

/-- Unit and word of a tile address (R59). -/
def meshUnit (a : Nat) : Nat × Nat := if a < 0x100000 then (0, a / 4) else (3, (a - 0x100000) / 4)

/-- Write words of tile memory from the mesh port. -/
def Tile.meshWrite (x : Tile) (a : Nat) (bs : List Byte) : Tile :=
  if a + bs.length ≤ 0x100000 then x.tsWrite a bs
  else ((wordsIn bs).zipIdx).foldl (fun x e => x.setRsWord (a + 4 * e.2 - 0x100000) (BitVec.ofNat 32 (leNat e.1))) x

/-- What a source outside the device supplied for a row, and which of its words arrived poisoned: at the source (in a poisoned TLP, or
read from a poisoned beat of a lender's HBM) and from a die crossing that failed (R24, R68); the partition address of the lend region at
its lender. -/
structure RowIn where
  bytes : List Byte
  atSource : Nat → Bool
  crossing : Nat → Bool
  base : Nat

/-- A row that only a die crossing can poison. -/
def RowIn.within (crossing : Nat → Bool) : RowIn := ⟨[], fun _ => false, crossing, 0⟩

/-- Read one row of `n` bytes at address `a` of a space: the state after the read, and the words or the fault (R59, R136, R253, R258). A
word that a die crossing delivers poisoned has SOURCE 2 (R24, R252); one that the host delivers poisoned has SOURCE 3, and the strand
that moved it takes ECC_UNCORRECTABLE (DESIGN CHOICE: R253 names no fault for a tile's DMA from the host; log 56). -/
def State.readRow (s : State) (t p : Nat) (o : QOp) (sp : Space) (a n : Nat) (ext : RowIn) :
    State × Except MoveFault (List WordIn) :=
  let extBad := ext.crossing
  let fromTile (u b : Nat) : State × Except MoveFault (List WordIn) :=
    if !(tileWritable b n) then (s, .error (boundsAt 1 b))
    else
      let y := s.tile u
      let (unit, w0) := meshUnit b
      let bad (i : Nat) : Bool := decide (eccOut (mget 0 y.ecc (eccKey unit (w0 + i))) = .bad)
      let ws := (wordsIn (y.meshRead b n)).zipIdx.map fun e =>
        ({ bytes := e.1, skip := false, pois := if bad e.2 || extBad e.2 then some 2 else none
           unit := if bad e.2 then unit else 8
           addr := faultAddr 1 (b + 4 * e.2) } : WordIn)
      (s.countEcc u unit w0 (n / 4) (some o.strand), .ok ws)
  match sp with
  | .local => fromTile t a
  | .remote =>
    match (s.part p).physOf (a / 2 ^ 32 % 4096) with
    | some u => fromTile u (a % 2 ^ 32)
    | none => (s, .error (boundsAt 4 (a / 2 ^ 32)))
  | .hbm =>
    let s := s.readRange p a n
    let x := s.part p
    let ws := (wordsIn (s.hbmRead x a n)).zipIdx.map fun e =>
      let b := a + 4 * e.2
      ({ bytes := e.1, skip := s.beatPoisoned x (b / 32), pois := if extBad e.2 then some 2 else none, unit := 8
         addr := faultAddr 2 (b / 32 * 32) } : WordIn)
    (s, .ok ws)
  | .host =>
    let (bus, ok) := (s.part p).hostAddr a n false
    if !ok then (s, .error (boundsAt 3 bus))
    else (s, .ok ((wordsIn ext.bytes).zipIdx.map fun e =>
      { bytes := e.1, skip := false, pois := if ext.atSource e.2 then some 3 else if extBad e.2 then some 2 else none
        unit := if ext.atSource e.2 then Config.hostEccUnit % 256 else 8
        addr := faultAddr 3 (bus + 4 * e.2) }))
  | .peer => (s, .ok ((wordsIn ext.bytes).zipIdx.map fun e =>
      { bytes := e.1, skip := ext.atSource e.2, pois := if extBad e.2 then some 2 else none, unit := 8
        addr := faultAddr 2 ((ext.base + a % 2 ^ 48 + 4 * e.2) / 32 * 32) }))

/-- Consecutive words to be written, as (byte offset, bytes). -/
def runsOf (keep : WordIn → Bool) : Nat → List WordIn → List (Nat × List Byte)
  | _, [] => []
  | off, w :: ws =>
    let rest := runsOf keep (off + 4) ws
    if keep w then
      match rest with
      | (o, bs) :: r => if o = off + 4 then (off, w.bytes ++ bs) :: r else (off, w.bytes) :: rest
      | [] => [(off, w.bytes)]
    else rest

/-- Write one row of words at address `a` of a space (R59, R136, R252, R253, R258). -/
def State.writeRow (s : State) (t p : Nat) (sp : Space) (a : Nat) (ws : List WordIn) : State × Option MoveFault :=
  let n := 4 * ws.length
  let toTile (u b : Nat) : State × Option MoveFault :=
    if !(tileWritable b n) then (s, some (boundsAt 1 b))
    else
      let rs := runsOf (fun w => !w.skip && w.pois.isNone) 0 ws
      (s.modTile u fun x => rs.foldl (fun x r => x.meshWrite (b + r.1) r.2) x, none)
  match sp with
  | .local => toTile t a
  | .remote =>
    match (s.part p).physOf (a / 2 ^ 32 % 4096) with
    | some u => toTile u (a % 2 ^ 32)
    | none => (s, some (boundsAt 4 (a / 2 ^ 32)))
  | .hbm =>
    let s := (runsOf (fun w => !w.skip) 0 ws).foldl (fun s r => s.writeHbm p (a + r.1) r.2) s
    let s := ws.zipIdx.foldl (fun s e => match e.1.pois with
      | some src => s.poisonBeat p ((a + 4 * e.2) / 32) src
      | none => s) s
    (s, none)
  | .host =>
    let (bus, ok) := (s.part p).hostAddr a n true
    if !ok then (s, some (boundsAt 3 bus))
    else
      let bad (h n : Nat) : Bool := ws.zipIdx.any fun e => e.1.pois.isSome && decide (h < bus + 4 * e.2 + 4) && decide (bus + 4 * e.2 < h + n)
      ((runsOf (fun w => !w.skip) 0 ws).foldl (fun s r => s.hostSendBad ((s.part p).function p) (bus + r.1) r.2 bad) s, none)
  | .peer =>
    let m := a / 2 ^ 56 % 8
    ((runsOf (fun w => !w.skip) 0 ws).foldl (fun (s : State) r =>
      let bad := (((ws.drop (r.1 / 4)).take (r.2.length / 4)).zipIdx.filter fun e => e.1.pois.isSome).map (·.2)
      (s.send (.spill p m (a % 2 ^ 48 + r.1) r.2 bad)).sendLend p 3 m (mget 0 (s.part p).lendSeen m) (a % 2 ^ 48 + r.1) r.2 bad) s, none)

/-- The fault a row's words raise on the issuing strand: a poisoned HBM beat, or poisoned data (R136, R253). -/
def wordsFault (ws : List WordIn) : Option MoveFault :=
  match ws.find? (·.skip) with
  | some w => some (cPoison, w.addr, 0)
  | none => (ws.find? fun w => w.pois.isSome).map fun w => (cEcc, w.addr, detailOf w.unit 0 0 0)

/-- Free choice: which words of a row, after the one that faults, a transfer still moves: their requests were under way (R257). -/
def thinWords (seed row : Nat) (ws : List WordIn) : List WordIn :=
  let first := ws.findIdx fun w => w.skip || w.pois.isSome
  ws.zipIdx.map fun e => { e.1 with skip := e.1.skip || (decide (first < e.2) && !(Config.wordMoved seed (row * 2 ^ 32 + e.2))) }

/-- Move the rows of a transfer from row `i` on. `done` is the first fault met. With a fault no further row is requested, and which of the
words that follow in its row were moved is free (R257; that the rows are requested in order, one after the other, is a DESIGN CHOICE, log
198); but to a host destination the rest of the transfer goes on after an uncorrectable word (R59). The address of a row in a remote tile is
one 64-bit sum, whose carry out of bits [31:0] goes into the logical tile number (DESIGN CHOICE: R135 does not say; log 139). -/
def State.moveFrom (s : State) (t p : Nat) (o : QOp) (ext : RowIn) (i : Nat) (done : Option MoveFault) : Nat → State × Option MoveFault
  | 0 => (s, done)
  | n + 1 =>
    let (src, dst) := moveSpaces o.word
    let rb := (moveRows o.word).2
    let (ss, ds) := moveStrides o.word o.sc
    let at' (j : Nat) : Nat := i * (rb / 4) + j
    let (s, r) := s.readRow t p o src (o.sa.toNat + i * ss) rb
      ⟨(ext.bytes.drop (i * rb)).take rb, fun j => ext.atSource (at' j), fun j => ext.crossing (at' j), ext.base⟩
    match r with
    | .error f => (s, some (done.getD f))
    | .ok ws =>
      let hit := wordsFault ws
      let goesOn := decide (dst = .host) && decide (hit.map (·.1) ≠ some cPoison)
      let ws := if goesOn || hit.isNone then ws else thinWords s.free i ws
      let (s, f) := s.writeRow t p dst (o.sb.toNat + i * ds) ws
      let done := (done.orElse fun _ => hit).orElse fun _ => f
      if f.isSome || (hit.isSome && !goesOn) then (s, done) else s.moveFrom t p o ext (i + 1) done n

/-- Add 1 to the signal counter a completed movement names (R135, R138). -/
def State.signalDone (s : State) (t p : Nat) (o : QOp) : State :=
  if fl106 o.word then
    let dest := if opcOf o.word = 0x80 && fl105 o.word
      then ((s.part p).physOf (o.sb.toNat / 2 ^ 32 % 4096)).getD t else t
    s.modTile dest fun x => x.addCounter (immf o.word 63 58) 1
  else s

/-- The gang member at the other end of a PFX or SPILL, if it is one (R137). -/
def QOp.peer (o : QOp) : Option Nat :=
  let (src, dst) := moveSpaces o.word
  if src = .peer then some (o.sa.toNat / 2 ^ 56 % 8) else if dst = .peer then some (o.sb.toNat / 2 ^ 56 % 8) else none

/-- Is the gang peer of a PFX or SPILL behind a lost link (R277)? -/
def State.peerCut (s : State) (o : QOp) : Bool := o.peer.any fun m => (s.link (s.gangLink m)).lost

/-- The answer a PFX or SPILL gets: a peer over a lost gang link is lost, whatever it answered before (R277). -/
def State.peerAnswer (s : State) (o : QOp) (ans : PeerAnswer) : PeerAnswer := if s.peerCut o then .lost else ans

/-- DETAIL of its PEER_LOST: the lost gang link and its member, or for a lend region of another epoch 0xFF, the member and the epoch found
(R264, R443). -/
def State.peerDetail (s : State) (o : QOp) (found : W32) : W64 :=
  let m := o.peer.getD 0xFF
  if s.peerCut o then detailOf (s.gangLink m) m 0 0 else detailOf 0xFF m 0 found.toNat

/-- DMA_COMPLETE: the DMA, PFX or SPILL numbered `serial` of tile `t` finishes at both ends. `data` is what the gang peer supplied, `a` how
the words came over the die crossings, `ans` the peer's answer with the words it read poisoned (R24, R68, R135 to R137, R253, R257, R264);
a host source has been read by requests of its own (R259). A transfer that faults is imprecise and does not signal; what is left of one
that has outlived its command is discarded (R257). -/
def execDmaComplete (t serial : Nat) (data : List Byte) (a : Crossed (List Nat)) (ans : PeerReply) (s : State) : Out :=
  let x := s.tile t
  match x.xrun.find? fun o => decide (o.serial = serial), s.partOf t with
  | some o, some p =>
    let (src, _) := moveSpaces o.word
    let (rows, rb) := moveRows o.word
    let me : ReadOwner := .tile t serial
    let waits := (decide (src = .peer) && decide (ans.answer = .ok) && decide (data.length ≠ rows * rb))
      || (decide (src = .host) && !((s.part p).readDone me))
    if x.timedOut.contains serial then
      .next ((s.setTile t { x with xrun := x.xrun.filter fun q => decide (q.serial ≠ serial) }).engineGive (s.engineOf t))
    else if !(needsEngine o.word) || waits then .next s
    else
      let data := if src = .host then (s.part p).readBytes me else data
      let poison := if src = .host then (s.part p).readPoison me else if src = .peer then ans.poison else []
      let s := (s.setTile t { x with xrun := x.xrun.filter fun q => decide (q.serial ≠ serial) }).engineGive (s.engineOf t)
      let s := if src = .host then s.endRead p me else s
      let s := s.countRetries a.crossings
      match s.peerAnswer o ans.answer with
      | .lost => .next (s.impreciseAs t o cPeerLost 0 (s.peerDetail o ans.epoch))
      | .outside =>
        .next (s.imprecise t o cBounds (faultAddr 2 ((if src = .peer then o.sa else o.sb).toNat % 2 ^ 48)))
      | .ok =>
        let (s, f) := s.moveFrom t p o ⟨data, poison.contains, a.bad, ans.base⟩ 0 none rows
        match f with
        | some f => .next ({ s with free := s.free + 1 }.moveFault t o f)
        | none => .next (s.signalDone t p o)
  | _, _ => .next s

/-! ### Stage queues (R138, R344) -/

/-- Decode check of SQPUT and SQGET (R138). -/
def sqOk (w : IWord) : Bool :=
  decide (xtOf w = 0) && !(fl105 w) && !(fl104 w) && decide (sdOf w = 0x80) && srcOk (saOf w) && decide (sbOf w = 0x80)
    && decide (scOf w = 0x80) && decide (xlOf w = 0) && decide (immf w 57 38 = 0)

/-- The binding a stage-queue word of tile `t` names, with its index (R138, R343). -/
def State.bindingFor (s : State) (t : Nat) (w : IWord) : Option (Nat × QueueBinding) :=
  match s.partOf t with
  | none => none
  | some p =>
    let x := s.part p
    match s.bindingOf p ((x.logicalOf t).getD 0) (decide (opcOf w = 0x88)) (immf w 37 32), x.cur with
    | some i, some v => (v.queues[i]?).map fun b => (i, b)
    | _, _ => none

/-- The tile address of a stage-queue operation (R138). -/
def sqAddr (w : IWord) (sa : W64) : Nat := (sa.toNat + immf w 31 0) % 2 ^ 32

/-- The precise fault of a stage-queue word: unbound queue, misalignment, extent outside tile store (R138). -/
def State.sqCheck (s : State) (t k : Nat) (w : IWord) : Option W64 :=
  let a := sqAddr w ((s.tile t).src k w (saOf w))
  match s.bindingFor t w with
  | none => some (faultAddr 0 0)
  | some (_, b) => if a % 64 = 0 ∧ a + b.entryBytes ≤ 0x100000 then none else some (faultAddr 1 a)

/-- Change queue `i` of partition `p`. -/
def State.modQueue (s : State) (p i : Nat) (f : QueueState → QueueState) : State :=
  s.modPart p fun x => { x with queues := mmod QueueState.zero x.queues i f }

/-- The torus direction in which the other side of a queue lies: the consumer's for an SQPUT, the producer's for an SQGET (R343). -/
def queueSide (q : QueueBinding) (put : Bool) : Nat := if put then q.dir else 3 - q.dir

/-- A strand that waits at a stage queue needs the path to the other side: with that neighbour unreachable the partition takes PEER_LOST
(R277). -/
def State.queuePath (s : State) (t k : Nat) : State :=
  let lost (i : Nat) (put : Bool) : State :=
    match s.partOf t with
    | none => s
    | some p => match (s.part p).cur.bind (fun v => v.queues[i]?) with
      | some q => if q.dir ≠ 0 ∧ (s.part p).sound ∧ s.torusLost (queueSide q put) then s.pathLost p (bundle (queueSide q put)) else s
      | none => s
  match s.notReady t k with
  | some (.sqput i) => lost i true
  | some (.sqget i) => lost i false
  | _ => s

/-- SQPUT: takes a credit and the next ring slot (R138, R344 rule 2). -/
def execSqput (t k : Nat) (b : IBody) (s : State) : Out :=
  let w := wordOf 0x88 b
  let s := s.queuePath t k
  s.issue t k w (sqOk w) fun s =>
    match s.sqCheck t k w, s.bindingFor t w, s.partOf t with
    | some a, _, _ => s.precise t k w cBounds a
    | none, some (i, q), some p =>
      let slot := ((s.part p).queue i).puts % q.depth
      let s := s.modQueue p i fun v => { v with credits := v.credits - 1, puts := v.puts + 1 }
      let s := s.acceptMove t k { (s.tile t).mkOp k w with k0 := slot }
      if q.dir ≠ 0 ∧ s.torusLost (queueSide q true) then s.pathLost p (bundle (queueSide q true)) else s
    | none, _, _ => s.precise t k w cBounds (faultAddr 0 0)

/-- SQGET: takes the entry at the next ring slot (R138, R344 rule 3). -/
def execSqget (t k : Nat) (b : IBody) (s : State) : Out :=
  let w := wordOf 0x89 b
  let s := s.queuePath t k
  s.issue t k w (sqOk w) fun s =>
    match s.sqCheck t k w, s.bindingFor t w, s.partOf t with
    | some a, _, _ => s.precise t k w cBounds a
    | none, some (i, q), some p =>
      let slot := ((s.part p).queue i).gets % q.depth
      let s := s.modQueue p i fun v => { v with gets := v.gets + 1, full := mset false v.full slot false }
      let s := s.acceptMove t k { (s.tile t).mkOp k w with k0 := slot }
      if q.dir ≠ 0 ∧ s.torusLost (queueSide q false) then s.pathLost p (bundle (queueSide q false)) else s
    | none, _, _ => s.precise t k w cBounds (faultAddr 0 0)

/-- An entry stands in full in ring slot `slot` (R344 rule 3); the consumer's occupancy rises. -/
def QueueState.fill (q : QueueState) (slot : Nat) : QueueState :=
  let full := mset false q.full slot true
  { q with full := full, highWater := max q.highWater full.length }

/-- Is an outstanding stage-queue operation next to be performed: no earlier one of its strand is outstanding (R101 rule 1), nor an earlier
one of the tile on the same queue and in the same direction, so that entries go in SQPUT order (R138)? -/
def Tile.stageNext (x : Tile) (o : QOp) : Bool :=
  let sameQueue (q : QOp) : Bool := decide (opcOf q.word = opcOf o.word) && decide (immf q.word 37 32 = immf o.word 37 32)
  !((x.xrun ++ x.xq).any fun q =>
    decide (moveClass q.word = 32) && decide (q.serial < o.serial) && (decide (q.strand = o.strand) || sameQueue q))

/-- Does the step that issued a stage-queue operation still run? What a later one would put or return is stale (R296, R345). -/
def Part.stepLive (x : Part) : Bool := x.stepOpen && x.sound

/-- Does a stage-queue message of epoch `e` belong to the current step (R296)? -/
def Part.ofEpoch (x : Part) (e : W32) : Bool := decide (e = x.caps.epoch)

/-- Send an entry to the stage queue of a neighbouring stage: one link, in order (R292, R344). -/
def State.sendEntry (s : State) (p : Nat) (q : QueueBinding) (slot : Nat) (bytes : List Byte) (bad : List Nat) : State :=
  let e := (s.part p).caps.epoch
  (messagePieces bytes).foldl (fun (s : State) r =>
    s.sendTorus p q.dir 2 e (q.queueId % 6) (ownHeader 1 q.queueId slot r.1 ++ r.2)) (s.send (.stageEntry p q.queueId slot e bytes bad))

/-- Send a credit to the producer's stage (R344 rule 4). -/
def State.sendCredit (s : State) (p : Nat) (q : QueueBinding) : State :=
  let e := (s.part p).caps.epoch
  (s.send (.stageCredit p q.queueId 1 e)).sendTorus p (queueSide q false) 2 e (q.queueId % 6) (ownHeader 2 q.queueId 1 0)

/-- SQPUT_WRITTEN: an entry has been written into the consumer's ring slot (R344 rules 2 and 3). The ring of a LOCAL
queue is this partition's; another device's entry arrives as a message of a collective epoch. Words that a die crossing delivers
poisoned are written so (R24, R68). -/
def execSqputWritten (side : SqSide) (s : State) : Out :=
  match side with
  | .producer t serial a =>
    let x := s.tile t
    match x.xrun.find? fun o => decide (o.serial = serial), s.partOf t with
    | some o, some p =>
      if opcOf o.word ≠ 0x88 || !(x.stageNext o) then .next s
      else match s.bindingFor t o.word with
        | none => .next s
        | some (i, q) =>
          let s := (s.setTile t { x with xrun := x.xrun.filter fun r => decide (r.serial ≠ serial) }).countRetries a.crossings
          let (s, r) := s.readRow t p o .local (sqAddr o.word o.sa) q.entryBytes (.within a.bad)
          match r with
          | .error f => .next (s.moveFault t o f)
          | .ok ws =>
            let live := (s.part p).stepLive
            let s :=
              if q.dir = 0 then
                let s := (s.writeRow t p .hbm (q.ringAddr + o.k0 * q.entryBytes) ws).1
                if live then s.modQueue p i fun v => v.fill o.k0 else s
              else if live then s.sendEntry p q o.k0 ((ws.map (·.bytes)).flatten) ((ws.zipIdx.filter fun e => e.1.pois.isSome).map (·.2))
              else s
            match wordsFault ws with
            | some f => .next (s.moveFault t o f)
            | none => .next (s.signalDone t p o)
    | _, _ => .next s
  | .consumer p i epoch bytes a =>
    match (s.part p).cur with
    | none => .next s
    | some v =>
      match v.queues[i]? with
      | none => .next s
      | some q =>
        if bytes.length ≠ q.entryBytes || !((s.part p).ofEpoch epoch) then .next s
        else
          let s := s.countRetries a.crossings
          let slot := ((s.part p).queue i).puts % q.depth
          let ws := (wordsIn bytes).zipIdx.map fun e =>
            ({ bytes := e.1, skip := false, pois := if a.bad e.2 then some 2 else none, unit := 8, addr := 0 } : WordIn)
          let s := (s.writeRow 0 p .hbm (q.ringAddr + slot * q.entryBytes) ws).1
          .next (s.modQueue p i fun y => { y.fill slot with puts := y.puts + 1 })

/-- SQGET_DELIVERED: the entry of the SQGET numbered `serial` of tile `t` is in tile store; a credit goes back to the
producer (R138, R344 rules 3 and 4). A poisoned beat is HBM_POISON, imprecise (R253); words that a die crossing delivers poisoned are
not written and are ECC_UNCORRECTABLE (R24, R59, R68). -/
def execSqgetDelivered (t : Nat) (d : SqDelivery) (s : State) : Out :=
  let x := s.tile t
  match x.xrun.find? fun o => decide (o.serial = d.serial), s.partOf t with
  | some o, some p =>
    if opcOf o.word ≠ 0x89 || !(x.stageNext o) then .next s
    else match s.bindingFor t o.word with
      | none => .next s
      | some (i, q) =>
        let s := (s.setTile t { x with xrun := x.xrun.filter fun r => decide (r.serial ≠ d.serial) }).countRetries d.arrived.crossings
        let (s, r) := s.readRow t p o .hbm (q.ringAddr + o.k0 * q.entryBytes) q.entryBytes (.within d.arrived.bad)
        match r with
        | .error f => .next (s.moveFault t o f)
        | .ok ws =>
          let (s, _) := s.writeRow t p .local (sqAddr o.word o.sa) ws
          match wordsFault ws with
          | some f => .next (s.moveFault t o f)
          | none =>
            let s := if !(s.part p).stepLive then s
              else if q.dir = 0 then s.modQueue p i fun v => { v with owed := v.owed + 1 }
              else s.sendCredit p q
            .next (s.signalDone t p o)
  | _, _ => .next s

/-- STAGE_CREDIT_RETURN: `n` credits reach the producer side of queue `i`: of a LOCAL queue those the consumer owes, of
another one those of a VC2 credit message of the current collective epoch (R296, R344 rule 4). -/
def execStageCreditReturn (p i : Nat) (c : StageCredits) (s : State) : Out :=
  match (s.part p).cur with
  | none => .next s
  | some v =>
    match v.queues[i]? with
    | none => .next s
    | some q =>
      .next (s.modQueue p i fun y =>
        if q.dir = 0 then { y with credits := min q.depth (y.credits + min c.count y.owed), owed := y.owed - min c.count y.owed }
        else if (s.part p).ofEpoch c.epoch then { y with credits := min q.depth (y.credits + c.count) } else y)

/-- The state of every queue at the start of a step (R344 rule 1, R345): entries still held are discarded and counted. -/
def QueueState.boundary (q : QueueState) (depth : Nat) : QueueState :=
  { q with credits := depth, puts := 0, gets := 0, full := [], owed := 0, discarded := sat32 q.discarded q.full.length }

/-- Return every queue of a partition to the state of R344 rule 1. -/
def Part.queuesBoundary (x : Part) : Part :=
  match x.cur with
  | none => { x with queues := [] }
  | some v =>
    { x with queues := v.queues.zipIdx.foldl (fun m e =>
        mset QueueState.zero m e.2 ((mget QueueState.zero m e.2).boundary e.1.depth)) x.queues }

end Sys2Proof.Machine
end

