-- ==== Sys2Proof/Machine/Numerics.lean ====
section
/-! DEFINITION. Training numerics (chapter 7): staged observations, site records, LSCALE, LOSSCHK and VOTE (R144, R145),
COMMIT's issue (R146), and what the end of a step does to the numerics unit (R205 to R231). -/

namespace Sys2Proof.Machine

/-! ### Staged observations (R204) -/

/-- ABSMAX. -/
def stAbs (w : W64) : Nat := w.toNat / 2 ^ 32
/-- OBSERVED. -/
def stObs (w : W64) : Bool := w.getLsbD 31
/-- NANMARK. -/
def stNan (w : W64) : Bool := w.getLsbD 30
/-- OVF. -/
def stOvf (w : W64) : Nat := w.toNat % 2 ^ 24

/-- A staged observation from its fields; OVF saturates (R204). -/
def mkStaged (a : Nat) (obs nan : Bool) (ovf : Nat) : W64 :=
  BitVec.ofNat 64 (a * 2 ^ 32 + (if obs then 2 ^ 31 else 0) + (if nan then 2 ^ 30 else 0) + min 0xFFFFFF ovf)

/-- Merge two staged observations by maximum, OR and sum (R204). -/
def mergeStaged (x y : W64) : W64 :=
  mkStaged (max (stAbs x) (stAbs y)) (stObs x || stObs y) (stNan x || stNan y) (stOvf x + stOvf y)

/-- A staged observation merges at the numerics home of its partition, while its step is open; after that it is discarded (R133,
R204). -/
def State.mergeObserve (s : State) (m : StageMsg) (e : Nat) (a : Option W32) (nan : Bool) (ovf : Nat) : State :=
  let w := mkStaged (match a with | some v => v.toNat | none => 0) a.isSome nan ovf
  if (s.part m.part).stepOpen then s.modNum m.part fun n => { n with staged := mmod 0 n.staged e (mergeStaged w) } else s

/-- Message `i` on its way to a numerics home, if it is of a kind, is there no longer; one that a die crossing delivers poisoned does not
merge, and its partition reports ECC_UNCORRECTABLE, which names no tile (R24, R68; DESIGN CHOICE: R24 gives the report to the consumer,
here the numerics home, and no rule says what record it makes; log 184). -/
def State.takeStage (s : State) (a : MeshArrival) (kind : StageMsg → Bool) (f : State → StageMsg → State) : State :=
  match s.stageMsgs[a.index]? with
  | some m =>
    if kind m then
      let s := ({ s with stageMsgs := s.stageMsgs.eraseIdx a.index }).countRetries a.arrived.crossings
      if a.arrived.lost then s.partFault m.part cEcc true 0 (detailOf 8 0 0 0) else f s m
    else s
  | none => s

/-- STAGED_OBSERVATION_MERGE: a message reaches the numerics home and merges (R133, R204). -/
def execStagedObservationMerge (a : MeshArrival) (s : State) : Out :=
  .next (s.takeStage a (fun m => match m.stage with | .observe .. => true | _ => false) fun s m =>
    match m.stage with
    | .observe e v nan ovf => s.mergeObserve m e v nan ovf
    | _ => s)

/-! ### Site records (R229, R230, R241) -/

/-- The rank of a class within a key: NaN, Inf, saturated, flushed, flushed-invalid (R230). -/
def classRank (c : Nat) : Nat := if c = 2 then 0 else if c = 3 then 1 else if c = 0 then 2 else if c = 1 then 3 else 4

/-- A first position: (class, element, tile, step, instance, strand). -/
structure FirstPos where
  cls : Nat
  element : Nat
  tile : Nat
  step : Nat
  inst : Nat
  strand : Nat
  deriving DecidableEq, Repr

/-- The key (step counter, logical tile, strand, instance, element), then the class rank (R230). -/
def FirstPos.key (f : FirstPos) : List Nat := [f.step, f.tile, f.strand, f.inst, f.element, classRank f.cls]

/-- Lexicographic order of keys. -/
def keyLt : List Nat → List Nat → Bool
  | a :: as, b :: bs => if a < b then true else if b < a then false else keyLt as bs
  | _, _ => false

/-- Does an event replace the recorded first position (R230)? NaN and Inf stand above the lower classes whatever the
keys; within one of the two groups the least key stays. -/
def FirstPos.replaces (new old : FirstPos) : Bool :=
  let high (f : FirstPos) : Bool := decide (f.cls = 2) || decide (f.cls = 3)
  if high new && !(high old) then true
  else if high old && !(high new) then false
  else keyLt new.key old.key

/-- Offer a first position to a site record (R230). -/
def SiteRec.offer (r : SiteRec) (f : FirstPos) : SiteRec :=
  let old : FirstPos := ⟨r.cls, r.element, r.tile, r.step, r.siteInst, r.strand⟩
  if !r.valid || f.replaces old then
    { r with valid := true, cls := f.cls, element := f.element, tile := f.tile, step := f.step
             siteInst := f.inst, strand := f.strand }
  else r

/-- Add counts to a site record, each saturating (R229). -/
def SiteRec.count (r : SiteRec) (c : SiteCounts) : SiteRec :=
  let m := 2 ^ 32 - 1
  { r with sat := min m (r.sat + c.sat), flush := min m (r.flush + c.flush), nan := min m (r.nan + c.nan)
           inf := min m (r.inf + c.inf), invalid := min m (r.invalid + c.invalid) }

/-- Site counts reach the site record, their first positions are offered with the step that issued them, and the step's saturated and
flushed counts of the site grow (R229 to R231, R237). -/
def State.countSite (s : State) (m : StageMsg) (n : Nat) (c : SiteCounts) : State :=
  let step := (s.part m.part).stepNo
  let pos (e : Nat × Nat) : FirstPos := ⟨e.1, e.2, m.logical, step, m.siteInst, m.strand⟩
  s.modNum m.part fun u =>
    let r := (mget SiteRec.zero u.sites n).count c
    let r := match m.low with | some e => r.offer (pos e) | none => r
    let r := match m.high with | some e => r.offer (pos e) | none => r
    { u with
      sites := mset SiteRec.zero u.sites n r
      limits := mmod SiteLimit.zero u.limits n fun l =>
        { l with stepSat := l.stepSat + c.sat, stepFlush := l.stepFlush + c.flush }
      events := u.events ||| 1 }

/-- SITE_CONTRIBUTION: the counts of a message reach the site record (R229 to R231, R237). -/
def execSiteContribution (a : MeshArrival) (s : State) : Out :=
  .next (s.takeStage a (fun m => match m.stage with | .site .. => true | _ => false) fun s m =>
    match m.stage with
    | .site n c => s.countSite m n c
    | _ => s)

/-- What is on its way to the numerics home of partition `p` as a step ends arrives: site counts count, observations are discarded
(R204, R229, R231). -/
def State.settleStage (s : State) (p : Nat) : State :=
  let mine (m : StageMsg) : Bool := decide (m.part = p)
  (s.stageMsgs.filter mine).foldl (fun (s : State) m =>
    match m.stage with
    | .site n c => s.countSite m n c
    | _ => s) { s with stageMsgs := s.stageMsgs.filter fun m => !(mine m) }

/-! ### LSCALE, VOTE and COMMIT -/

/-- The common form of LSCALE READ and LOSSCHK and of VOTE (R144, R145). -/
def lscaleScalarOk (w : IWord) : Bool :=
  decide (flagsOf w = 0) && decide (sbOf w = 0x80) && decide (scOf w = 0x80) && decide (xlOf w = 0)
    && decide (immOf w = 0)

/-- LOSSCHK on the FP32 loss `v`: Z, the cast, and the early-abort notice where enabled (R144, R217). -/
def lossEffect (t k : Nat) (v : Val) (s : State) : State :=
  let s := s.modTile t fun x => x.putZ k v.isFin
  let s := match s.partOf t with
    | some p =>
      if v.isFin then s
      else
        let s := s.modNum p fun n => n.cast v.isNan v.isInf false ((s.tile t).committed)
        if (s.part p).num.ctrlStep.getLsbD 11 then s.modPart p fun x => { x with earlyAbort := true } else s
    | none => s
  s.advance t k

/-- An LSCALE word acts by its FN: READ, MUL, DIV, LOSSCHK; other values are a decode fault (R144). -/
def lscaleIssue (t k : Nat) (w : IWord) (s : State) : Out :=
  match xtOf w with
  | 0 =>
    s.issue t k w (lscaleScalarOk w && dstOk (sdOf w) && decide (saOf w = 0x80)) fun s =>
      let l := match s.partOf t with | some p => (s.part p).num.lossL | none => 0
      (s.setTile t ((s.tile t).dst k (sdOf w) (BitVec.ofInt 64 l))).advance t k
  | 1 => lscaleVecIssue t k w s
  | 2 => lscaleVecIssue t k w s
  | 3 =>
    s.issue t k w (lscaleScalarOk w && decide (sdOf w = 0x80) && srcOk (saOf w)) fun s =>
      lossEffect t k (f32 (BitVec.ofNat 32 ((s.tile t).src k w (saOf w)).toNat)) s
  | _ => s.issue t k w false id

/-- LSCALE READ: an LSCALE word (R144). -/
def execLscaleRead (t k : Nat) (b : IBody) (s : State) : Out := lscaleIssue t k (wordOf 0x98 b) s
/-- LSCALE MUL: an LSCALE word (R144). -/
def execLscaleMul (t k : Nat) (b : IBody) (s : State) : Out := lscaleIssue t k (wordOf 0x98 b) s
/-- LSCALE DIV: an LSCALE word (R144). -/
def execLscaleDiv (t k : Nat) (b : IBody) (s : State) : Out := lscaleIssue t k (wordOf 0x98 b) s
/-- LOSSCHK: an LSCALE word (R144). -/
def execLosschk (t k : Nat) (b : IBody) (s : State) : Out := lscaleIssue t k (wordOf 0x98 b) s

/-- The bits SAT, INF, NAN of a vote (R143). -/
def Vote.bits (v : Vote) : Nat := (if v.sat then 4 else 0) + (if v.inf then 2 else 0) + (if v.nan then 1 else 0)

/-- The status word of R143 from a vote, COMPLETE and COMMITTED. -/
def statusWord (v : Vote) (complete committed : Bool) : W64 :=
  BitVec.ofNat 64 (v.bits + (if complete then 8 else 0) + (if v.late then 16 else 0) + (if committed then 256 else 0))

/-- Is the vote clean (R213)? -/
def Vote.isClean (v : Vote) : Bool := !v.nan && !v.inf && !v.sat && !v.late

/-- A VOTE word acts by its FN: CAST or READ; other values are a decode fault (R145). READ's COMPLETE is 1 once the commit exchange has
given the global vote, also in a step whose partition runs no voting COLL (DESIGN CHOICE: R146 condition 2 could be read to set it when every
tile has committed; log 185). -/
def voteIssue (t k : Nat) (w : IWord) (s : State) : Out :=
  match xtOf w with
  | 0 =>
    s.issue t k w (lscaleScalarOk w && decide (sdOf w = 0x80) && srcOk (saOf w)) fun s =>
      let v := ((s.tile t).src k w (saOf w)).toNat
      let s := match s.partOf t with
        | some p => s.modNum p fun n =>
            n.cast (decide (v % 2 = 1)) (decide (v / 2 % 2 = 1)) (decide (v / 4 % 2 = 1)) ((s.tile t).committed)
        | none => s
      s.advance t k
  | 1 =>
    s.issue t k w (lscaleScalarOk w && decide (saOf w = 0x80) && dstOk (sdOf w)) fun s =>
      let r := match s.partOf t with
        | some p =>
          match (s.part p).num.global with
          | some g => statusWord g true false
          | none => statusWord (s.part p).num.vote false false
        | none => 0
      (s.setTile t ((s.tile t).dst k (sdOf w) r)).advance t k
  | _ => s.issue t k w false id

/-- VOTE CAST: a VOTE word (R145). -/
def execVoteCast (t k : Nat) (b : IBody) (s : State) : Out := voteIssue t k (wordOf 0x99 b) s
/-- VOTE READ: a VOTE word (R145). -/
def execVoteRead (t k : Nat) (b : IBody) (s : State) : Out := voteIssue t k (wordOf 0x99 b) s

/-- Decode check of COMMIT (R88, R146). -/
def commitOk (w : IWord) : Bool :=
  decide (xtOf w = 0) && lscaleScalarOk w && decide (sdOf w = 0x80) && decide (saOf w = 0x80)

/-- COMMIT (R146): the first of a tile in a step marks the tile committed and waits behind the tile's earlier COLLs in
the collective issue queue; a second has no further effect. -/
def execCommit (t k : Nat) (b : IBody) (s : State) : Out :=
  let w := wordOf 0x9A b
  s.issue t k w (commitOk w) fun s =>
    let x := s.tile t
    if x.committed then s.advance t k
    else
      let cq := if x.cq.isEmpty then [] else x.cq ++ [x.mkOp k w]
      (s.setTile t { x with committed := true, commitOp := some (x.mkOp k w), cq := cq, serial := x.serial + 1 }).advance t k

/-! ### The exchange record (R205, R310) -/

/-- A partition's own exchange record: its vote word and what it has staged (R205, R308, R310). -/
def Numerics.record (n : Numerics) (v : Vote) : ExchRec :=
  { vote := v, obs := n.staged
    layers := (n.layers.filter fun e => e.2.touched).map fun e => (e.1, e.2.su, e.2.sw, e.2.invalid)
    gauges := (n.gauges.filter fun e => decide (e.2.n.m ≠ 0) || decide (e.2.d.m ≠ 0)).map fun e => (e.1, e.2.d, e.2.n) }

/-- Stage what another record of the commit group brings: observations by maximum, OR and sum, the sums exactly. -/
def Numerics.mergeRecord (n : Numerics) (r : ExchRec) : Numerics :=
  let n := { n with
    staged := r.obs.foldl (fun (m : SMap W64) (e : Nat × W64) => mmod 0 m e.1 (mergeStaged e.2)) n.staged }
  let n := r.layers.foldl (fun (n : Numerics) (e : Nat × Dyadic × Dyadic × Bool) =>
    n.addLayer e.1 (e.2.1.m, e.2.1.e) (e.2.2.1.m, e.2.2.1.e) e.2.2.2) n
  { n with gauges := r.gauges.foldl (fun (m : SMap Gauge) (e : Nat × Dyadic × Dyadic) => mmod Gauge.reset m e.1 fun g =>
      { g with d := g.d.add (e.2.1.m, e.2.1.e), n := g.n.add (e.2.2.m, e.2.2.e) }) n.gauges }

/-! ### Exact division and square root, rounded once to FP32 -/

/-- A value that rounds to FP32 as a ÷ b does, for b not 0. -/
def quotient (a b : Dyadic) : Val :=
  let t := 64 + Nat.log2 b.m.natAbs
  let num := a.m.natAbs <<< t
  let q := num / b.m.natAbs
  .fin (decide (a.m < 0) != decide (b.m < 0)) (2 * q + (if num % b.m.natAbs = 0 then 0 else 1)) (a.e - b.e - t - 1)

/-- A value that rounds to FP32 as sqrt(a ÷ b) does, for a at least 0 and b positive. -/
def rootQuotient (a b : Dyadic) : Val :=
  let d := a.e - b.e
  let h := d / 2
  let r := (d - 2 * h).toNat
  let t := 64 + Nat.log2 b.m.natAbs
  let num := a.m.natAbs <<< (2 * t + r)
  let q := num / b.m.natAbs
  let n := isqrt q
  .fin false (2 * n + (if n * n * b.m.natAbs = num then 0 else 1)) (h - t - 1)

/-! ### The end of a step -/

/-- A soft event: NUM_EVENTS bit, layer, site or gauge, FP32 value (R461 type 0x07). -/
abbrev SoftEvent := Nat × Nat × W32

/-- Set a NUM_EVENTS bit. -/
def Numerics.event (n : Numerics) (i : Nat) : Numerics := { n with events := n.events ||| BitVec.ofNat 8 (2 ^ i) }

/-- Clamp a scale exponent (R206, R207). -/
def clampScale (s : Int) : Int := min 127 (max (-128) s)

/-- A scale entry with new SCALE, HIST_COUNT, OVF_COUNT and EST (R203). -/
def seWith (w : W64) (s : Int) (hist ovf est : Nat) : W64 :=
  BitVec.ofNat 64 ((s % 256).toNat * 2 ^ 56 + bitsOf w.toNat 55 36 * 2 ^ 36 + hist * 2 ^ 31 + ovf * 2 ^ 16 + est)

/-- The commit's update of scale entry `e` from its merged observation; a DELAYED entry with none is computed anew from its history, whose values
are not negative (R206, R207); one of −0 counts as 0. -/
def Numerics.commitScale (n : Numerics) (e : Nat) (o : W64) : Numerics :=
  let w := mget scaleReset n.scale e
  let s := seScale w
  let seen := stObs o && !(stNan o)
  let up (s1 : Int) : Int := if stOvf o = 0 then s1 else max s1 (s + 1)
  let ovf := min 0x7FFF (seOvf w + stOvf o)
  if seDelayed w then
    let j := n.step.toNat % 16
    let hist := if seen then mset 0 n.hist (16 * seWatch w + j) (BitVec.ofNat 32 (stAbs o)) else n.hist
    let count := if seen then min 16 (seHist w + 1) else seHist w
    let m := (mgetList 0 hist (16 * seWatch w) 16).foldl (fun a v => max a (v.toNat % 2 ^ 31)) 0
    let s1 := match log2Floor (f32 (BitVec.ofNat 32 m)) with
      | some l => l + seHeff w - seTarget w
      | none => s
    { n with hist := hist, scale := mset scaleReset n.scale e (seWith w (clampScale (up s1)) count ovf (seEst w)) }
  else
    let old := Fmt.bf16.decode (seEst w)
    let aged := Fmt.bf16.decode (convert .bf16 false (Val.mul old (.fin false 15 (-4)))).1
    let est := if seen then (convert .bf16 false (Val.max (f32 (BitVec.ofNat 32 (stAbs o))) aged)).1 else seEst w
    let s1 := if seen then
        (match log2Floor (Fmt.bf16.decode est) with | some l => l + seHeff w - seTarget w | none => s)
      else s
    { n with scale := mset scaleReset n.scale e (seWith w (clampScale (up s1)) (seHist w) ovf est) }

/-- Publish one layer's ratio (R219). -/
def Numerics.commitLayer (n : Numerics) (l : Nat) (y : Layer) : Numerics × List SoftEvent :=
  let clear (z : Layer) : Layer := { z with touched := false, su := ⟨0, 0⟩, sw := ⟨0, 0⟩, invalid := false }
  if !y.touched then (n, [])
  else if y.invalid then ({ n with layers := mset .reset n.layers l (clear y) }, [])
  else
    let ratio : W32 := if y.su.m = 0 then 0 else if y.sw.m = 0 then 0x7F800000 else toF32 false (rootQuotient y.su y.sw)
    let low := (f32 ratio).lt (f32 y.low)
    let high := (f32 y.high).lt (f32 ratio)
    let z := { clear y with
      ratio := ratio, valid := true, lowHit := y.lowHit || low, highHit := y.highHit || high
      step := BitVec.ofNat 28 n.step.toNat }
    let n := { n with layers := mset .reset n.layers l z }
    let n := if low then n.event 2 else n
    let n := if high then n.event 3 else n
    (n, (if low then [(2, l, ratio)] else []) ++ (if high then [(3, l, ratio)] else []))

/-- Take one gauge's sample (R220, R221). A baseline that the host has restored is in force and stays (R228), whatever SAMPLES says (DESIGN CHOICE:
the rules do not say how it meets the 64-sample rule of R220; log 143). STREAK stays at 255 (DESIGN CHOICE: R243 does not say; log 192). -/
def Numerics.commitGauge (n : Numerics) (i : Nat) (g : Gauge) : Numerics × List SoftEvent :=
  let g0 := { g with d := ⟨0, 0⟩, n := ⟨0, 0⟩ }
  if g.n.m ≤ 0 then ({ n with gauges := mset .reset n.gauges i g0 }, [])
  else
    let sample : W32 := toF32 false (quotient g.d g.n)
    let samples := min 0xFFFF (g.samples + 1)
    if g.samples < 64 ∧ !g.restored then
      let sum := match f32 sample with | .fin _ m e => g.sum.add (m, e) | _ => g.sum
      let base : W32 := if samples = 64 then toF32 false ((Val.ofInt sum.m sum.e).scale (-6)) else 0
      let g1 := { g0 with last := sample, samples := samples, sum := sum, baseline := base }
      ({ n with gauges := mset .reset n.gauges i g1 }, [])
    else
      let hit := (fmul false (f32 g.ratioLimit) (f32 g.baseline)).lt (f32 sample)
      let streak := if hit then min 255 (g.streak + 1) else 0
      let g1 := { g0 with last := sample, samples := samples, streak := streak }
      let n := { n with gauges := mset .reset n.gauges i g1 }
      if hit && decide (streak = g.streakLimit) then
        let n := n.event 5
        ({ n with promoteReq := n.promoteReq ++ [g.layer] }, [(5, i, sample)])
      else (n, [])

/-- Latch the step's site counts and raise SITE_LIMIT where one exceeds its limit (R231). -/
def Numerics.siteLimits (n : Numerics) : Numerics × List SoftEvent :=
  let past (l : SiteLimit) : Bool :=
    (decide (l.satLimit ≠ 0) && decide (l.satLimit.toNat < l.stepSat))
      || (decide (l.flushLimit ≠ 0) && decide (l.flushLimit.toNat < l.stepFlush))
  let hits := n.limits.filter fun e => past e.2
  let n := { n with limits := mmap SiteLimit.zero (fun _ l =>
    { l with lastSat := BitVec.ofNat 32 (min (2 ^ 32 - 1) l.stepSat)
             lastFlush := BitVec.ofNat 32 (min (2 ^ 32 - 1) l.stepFlush), stepSat := 0, stepFlush := 0 }) n.limits }
  (if hits.isEmpty then n else n.event 4,
    hits.map fun e => (4, e.1, toF32 false (Val.ofInt (max e.2.stepSat e.2.stepFlush : Nat) 0)))

/-- End calibration: CAL is cleared in every entry (R227, R228). -/
def Numerics.endCalibration (n : Numerics) : Numerics :=
  { n with calActive := false, stepsLeft := 0
           scale := mmap scaleReset (fun _ w => w &&& ~~~(BitVec.ofNat 64 (2 ^ 42))) n.scale }

/-- Discard everything staged; the local vote returns to clean (R204, R215). -/
def Numerics.clearStaged (n : Numerics) : Numerics :=
  { n with staged := [], vote := .clean, global := none
           layers := mmap .reset (fun _ y => { y with touched := false, su := ⟨0, 0⟩, sw := ⟨0, 0⟩, invalid := false }) n.layers
           gauges := mmap .reset (fun _ g => { g with d := ⟨0, 0⟩, n := ⟨0, 0⟩ }) n.gauges }

/-- GROWTH_INTERVAL of the control word in force (R234). -/
def growthInterval (c : W32) : Nat := c.toNat / 65536
/-- REPLAY_MAX. -/
def replayMax (c : W32) : Nat := c.toNat / 4096 % 16

/-- The loss scale after a clean commit (R212). A growth count at or above the interval has reached it (log 191). -/
def Numerics.grow (n : Numerics) : Numerics :=
  let i := growthInterval n.ctrlStep
  if i = 0 then n
  else if n.growth + 1 ≥ i then { n with growth := 0, lossL := min 24 (n.lossL + 1) }
  else { n with growth := n.growth + 1 }

/-- The loss scale after an unclean step (R212). -/
def Numerics.shrink (n : Numerics) : Numerics :=
  let n := if n.lossL = -8 then n.event 1 else n
  { n with growth := 0, lossL := max (-8) (n.lossL - 1) }

/-- A clean commit of the numerics unit: scales, histories, ratios, gauges, counters, calibration (R146, R206, R207,
R212, R219, R221, R227). The soft events it raises are listed. -/
def Numerics.commitStep (n : Numerics) : Numerics × List SoftEvent :=
  let quiet : List (Nat × W64) := n.scale.filter fun (e : Nat × W64) => seDelayed e.2 && n.staged.all fun (o : Nat × W64) => decide (o.1 ≠ e.1)
  let n := (n.staged ++ quiet.map fun (e : Nat × W64) => (e.1, 0)).foldl (fun (n : Numerics) (e : Nat × W64) => n.commitScale e.1 e.2) n
  let (n, e1) := n.layers.foldl (fun (a : Numerics × List SoftEvent) e =>
    let r := a.1.commitLayer e.1 e.2
    (r.1, a.2 ++ r.2)) (n, [])
  let (n, e2) := n.gauges.foldl (fun (a : Numerics × List SoftEvent) e =>
    let r := a.1.commitGauge e.1 e.2
    (r.1, a.2 ++ r.2)) (n, [])
  let n := n.grow
  let n := { n with step := n.step + 1, committed := true, lastVote := .clean, replays := 0, replayDue := false }
  let n := if n.stepsLeft = 1 then n.endCalibration else { n with stepsLeft := n.stepsLeft - 1 }
  (n.clearStaged, e1 ++ e2)

/-- An unclean step: everything staged is discarded; skip or REPLAY (R212, R215). `nonfinite` marks LOSS_NONFINITE, which
is never replayed. -/
def Numerics.discardStep (n : Numerics) (v : Vote) (nonfinite : Bool) : Numerics :=
  let n := n.shrink
  let again := n.ctrlStep.getLsbD 10 && !nonfinite && decide (n.replays < replayMax n.ctrlStep)
  { n.clearStaged with
    committed := false, lastVote := v, replayDue := again, replays := if again then n.replays + 1 else 0 }

/-- Write the soft events of partition `p` to the field book (R219, R461). -/
def State.softEvents (s : State) (p : Nat) (step : W64) (es : List SoftEvent) : State :=
  es.foldl (fun s e => s.bookEntry 0x07 p 0 0
    (leBytes 2 e.1 ++ leBytes 2 e.2.1 ++ leBytes 4 e.2.2.toNat ++ leBytes 8 step.toNat)) s

end Sys2Proof.Machine
end

