-- ==== Sys2Proof/Machine/Collective.lean ====
section
/-! DEFINITION. Collectives (R139 to R143, R192, R297 to R308, R603): COLL and CWAIT, the capstans' start, the messages
between members, and completion. -/

namespace Sys2Proof.Machine

/-! ### Units of data (R156, R603) -/

/-- Bits of one unit of a collective's format: an element, or a whole block tile (R603). -/
def unitBits (f : Fmt) (esc : Bool) : Nat := if f.isBlock then 8 * tileSize f esc else f.bits

/-- Bytes that hold `n` units of `w` bits. -/
def unitBytes (w n : Nat) : Nat := (w * n + 7) / 8

/-- Units as bytes, unit 0 lowest. -/
def packUnits (w : Nat) (us : List Nat) : List Byte :=
  if w % 8 = 0 then (us.map (leBytes (w / 8))).flatten
  else leBytes (unitBytes w us.length) (us.foldr (fun u a => u % 2 ^ w + a * 2 ^ w) 0)

/-- The `n` units that bytes hold. -/
def unpackUnits (w n : Nat) (bs : List Byte) : List Nat :=
  if w % 8 = 0 then (List.range n).map fun i => leNat ((bs.drop (i * (w / 8))).take (w / 8))
  else let v := leNat bs; (List.range n).map fun i => (v >>> (w * i)) % 2 ^ w

/-- Write units at unit index `off` of a buffer in partition HBM; bits of a byte shared with a neighbour keep their
value. -/
def State.writeUnits (s : State) (p base w off : Nat) (us : List Nat) : State :=
  if us.isEmpty then s
  else if w % 8 = 0 then s.writeHbm p (base + off * (w / 8)) (packUnits w us)
  else
    let x := s.part p
    let first := off * w / 8
    let last := ((off + us.length) * w + 7) / 8
    let old := leNat (s.hbmRead x (base + first) (last - first))
    let lead := off * w % 8
    let n := us.length * w
    let new := us.foldr (fun u a => u % 2 ^ w + a * 2 ^ w) 0
    s.writeHbm p (base + first) (leBytes (last - first) (old % 2 ^ lead + new * 2 ^ lead + (old >>> (lead + n)) <<< (lead + n)))

/-! ### The shape of a collective (R299, R340) -/

/-- A collective entry seen from one partition. -/
structure CollShape where
  e : CollEntry
  /-- this partition's rank and the group's size -/
  rank : Nat
  n : Nat
  /-- the entry's length words -/
  lens : List Nat
  ifmt : Fmt
  ofmt : Fmt
  deriving DecidableEq, Repr

/-- FLAGS[0] ESC. -/
def CollEntry.esc (e : CollEntry) : Bool := decide (e.flags % 2 = 1)

/-- Bits set in an 8-bit mask. -/
def popcount8 (m : Nat) : Nat := ((List.range 8).filter fun i => decide (m / 2 ^ i % 2 = 1)).length

/-- The rank of this device in an entry's group, when it is a member (R299, R340). -/
def State.groupRank (s : State) (v : Variant) (e : CollEntry) : Option Nat :=
  let off (o : Nat) : Option Nat :=
    let r := (o + 32 - e.first % 32) % 32
    if r < e.size then some r else none
  match e.group with
  | 0 => if e.xmask / 2 ^ s.member % 2 = 1 then some (popcount8 (e.xmask % 2 ^ s.member)) else none
  | 1 | 2 => off (s.stageOf v)
  | 3 | 4 => off (s.replicaOf v)
  | _ => some 0

/-- The rank of this device in an entry it may execute: a member of the group; SEND and RECV need their neighbour in the job (R340). -/
def State.collRank (s : State) (v : Variant) (e : CollEntry) : Option Nat :=
  let m := e.peer - 0x10
  let peer := if 0x10 ≤ e.peer then decide (m ≠ s.member) && decide (v.gangMask / 2 ^ m % 2 = 1) else dirInBox s.coord v e.peer
  if (e.op = 4 ∨ e.op = 5) ∧ !peer then none else s.groupRank v e

/-- The shape of entry `i` of the loaded variant for the device, if the partition is in its group (R340). -/
def State.collShape (s : State) (p i : Nat) : Option CollShape :=
  match (s.part p).cur with
  | none => none
  | some v =>
    match v.colls[i]? with
    | none => none
    | some e =>
      match s.collRank v e, Fmt.ofCode e.ifmt, Fmt.ofCode e.ofmt with
      | some r, some fi, some fo =>
        let words := if e.op = 3 then e.size * e.size else if e.op = 4 ∨ e.op = 5 then 1 else e.size
        some ⟨e, r, e.size, (v.lengths.drop e.lengthIndex).take words, fi, fo⟩
      | _, _, _ => none

/-- Length word `k`. -/
def CollShape.len (c : CollShape) (k : Nat) : Nat := c.lens.getD k 0

/-- The sum of the first `k` length words. -/
def CollShape.off (c : CollShape) (k : Nat) : Nat := (c.lens.take k).foldl (· + ·) 0

/-- The elements rank `k` owns: first and count (R335, R603). -/
def CollShape.chunk (c : CollShape) (k : Nat) : Nat × Nat :=
  if c.e.op = 0 then
    let t := c.len 0
    let q := t / c.n
    let m := t % c.n
    (k * q + min k m, q + if k < m then 1 else 0)
  else if c.e.op = 3 then (c.off (k * c.n) , 0)
  else (c.off k, c.len k)

/-- Source and destination elements of this member (R140). -/
def CollShape.extents (c : CollShape) : Nat × Nat :=
  let total := c.off c.lens.length
  match c.e.op with
  | 0 => (c.len 0, c.len 0)
  | 1 => (total, c.len c.rank)
  | 2 => (c.len c.rank, total)
  | 3 => (((c.lens.drop (c.rank * c.n)).take c.n).foldl (· + ·) 0,
      ((List.range c.n).map fun k => c.len (k * c.n + c.rank)).foldl (· + ·) 0)
  | 4 => (c.len 0, 0)
  | _ => (0, c.len 0)

/-- The rank of a SEND's or RECV's peer, in its own group: of a gang member its place in XMASK; a torus neighbour stands in the same place
of the group of its gang (R340). -/
def CollShape.peerRank (c : CollShape) : Nat := if 0x10 ≤ c.e.peer then popcount8 (c.e.xmask % 2 ^ (c.e.peer - 0x10)) else c.rank

/-- Does the collective run on a ring or line (R299)? SEND and RECV run to one neighbour. -/
def CollShape.isRing (c : CollShape) : Bool := decide (c.e.op < 4) && decide (1 ≤ c.e.group) && decide (c.e.group ≤ 4)

/-- Wire bits of an element; 0 for WIDE (R300). -/
def wireBits (wire : Nat) : Nat := if wire = 0 then 24 else if wire = 1 then 32 else if wire = 2 then 16 else 0

/-! ### Wire arithmetic (R300 to R303) -/

/-- The wire's bound as a power of two: M is 2^k − 1 and the unit 2^(B − k) (R300). -/
def wireShift (wire : Nat) : Nat := if wire = 0 then 18 else 26

/-- A contribution: its wire code, and whether it was clamped or flushed (R301). -/
def toWire (wire : Nat) (b : Int) (f : Fmt) (code : Nat) : Nat × Bool × Bool :=
  let w := wireBits wire
  if wire = 2 then ((if (f.decode code).isNan then 0x7FC0 else code), false, false)
  else match f.decode code with
    | .nan => (2 ^ (w - 1), false, false)
    | .inf false => (2 ^ (w - 1) - 1, false, false)
    | .inf true => (2 ^ (w - 1) + 1, false, false)
    | .fin sg m e =>
      let k := wireShift wire
      let c := rneUnits m e (b - k)
      let big := decide (2 ^ k - 1 < c)
      let c' := if big then 2 ^ k - 1 else c
      (if sg ∧ c' ≠ 0 then 2 ^ w - c' else c', big, !big && decide (c = 0) && decide (m ≠ 0))

/-- ⊕ on FIXED24 and FIXED32 codes (R301). -/
def wireAdd (w a b : Nat) : Nat :=
  let nan := 2 ^ (w - 1)
  let isInf (c : Nat) : Bool := decide (c = nan - 1) || decide (c = nan + 1)
  if a = nan ∨ b = nan then nan
  else if isInf a && isInf b then (if a = b then a else nan)
  else if isInf a then a
  else if isInf b then b
  else (a + b) % 2 ^ w

/-- One hop of the BF16 wire: add, and round once to BF16 in IEEE mode (R303). -/
def bf16Hop (a b : Nat) : Nat := (convert .bf16 true (Val.add (Fmt.bf16.decode a) (Fmt.bf16.decode b))).1

/-- Combine a received partial sum with this member's contribution (R301, R303). -/
def wireHop (wire a b : Nat) : Nat := if wire = 2 then bf16Hop a b else wireAdd (wireBits wire) a b

/-- The owner's conversion of a complete sum (R302). -/
def fromWire (wire : Nat) (b : Int) (f : Fmt) (code : Nat) : Nat × Cls :=
  if wire = 2 then convert .bf16 true (Fmt.bf16.decode code)
  else
    let w := wireBits wire
    let nan := 2 ^ (w - 1)
    if code = nan then (f.nanCode, .nan)
    else if code = nan - 1 then convert f (modeOf f 0) (.inf false)
    else if code = nan + 1 then convert f (modeOf f 0) (.inf true)
    else convert f (modeOf f 0) (Val.ofInt (sintOf w code) (b - wireShift wire))

/-- Vote bits as VOTEWORD: SAT, INF, NAN (R306, R307). -/
def voteBits (nan inf sat : Bool) : BitVec 3 := (if sat then 4#3 else 0#3) ||| (if inf then 2#3 else 0#3) ||| (if nan then 1#3 else 0#3)

/-! ### Issue (R139, R141, R193, R196) -/

/-- SLOT of a COLL word. -/
def collSlot (w : IWord) : Bool := decide (wf w 115 115 = 1)
/-- OP of a COLL word. -/
def collOp (w : IWord) : Nat := wf w 114 112
/-- ENTRY of a COLL word. -/
def collEntryNo (w : IWord) : Nat := immf w 15 0

/-- Decode check of COLL (R139, R141). -/
def collOk (w : IWord) : Bool :=
  decide (wf w 119 116 = 0) && decide (collOp w ≤ 5) && (!(fl104 w) || fl105 w) && decide (sdOf w = 0x80)
    && (if collSlot w then decide (collOp w = 0) && decide (saOf w < 16) && decide (sbOf w < 16)
      else (if collOp w = 5 then decide (saOf w = 0x80) else srcOk (saOf w))
        && (if collOp w = 4 then decide (sbOf w = 0x80) else srcOk (sbOf w)))
    && decide (scOf w = 0x80) && decide (xlOf w = 0) && decide (immf w 57 16 = 0) && decide (collEntryNo w ≠ 0xFFFF)

/-- Is `n` bytes at address `a` an aligned buffer of the partition (R139)? -/
def Part.bufferOk (x : Part) (a n : Nat) : Bool := decide (a % 64 = 0) && decide (a + n ≤ x.hbmSize)

/-- The first issue-time check a COLL fails, in the order of R196, with the address recorded (R141, R191, R193). A slot's DATUM and
projected depth are compared as they stand at issue, before an earlier COLL of the strand that is outstanding writes the slot (DESIGN
CHOICE: no rule says which values count, log 187). -/
def State.collCheck (s : State) (t k p : Nat) (w : IWord) : Option (Nat × W64) :=
  let x := s.tile t
  let y := s.part p
  match y.cur with
  | none => some (cBounds, 0)
  | some v =>
    match v.colls[collEntryNo w]? with
    | none => some (cBounds, 0)
    | some e =>
      if e.op ≠ collOp w ∨ decide (e.wire = 3) ≠ collSlot w then some (cFormat, 0)
      else match s.collShape p (collEntryNo w) with
        | none => some (cBounds, 0)
        | some c =>
          if y.logicalOf t ≠ some e.issueTile then some (cBounds, 0)
          else if collSlot w then
            let d := x.slot (saOf w)
            if d.collides k || (x.slot (sbOf w)).collides k then some (cAccCollision, 0)
            else if d.datum ≠ e.datum then some (cFormat, 0)
            else if e.depthBound < d.projected then some (cAccDepth, 0)
            else none
          else
            let a := (x.src k w (saOf w)).toNat
            let b := (x.src k w (sbOf w)).toNat
            let (se, de) := c.extents
            if collOp w ≠ 5 && !(y.bufferOk a (unitBytes (unitBits c.ifmt e.esc) se)) then some (cBounds, faultAddr 2 a)
            else if collOp w ≠ 4 && !(y.bufferOk b (unitBytes (unitBits c.ofmt e.esc) de)) then
              some (cBounds, faultAddr 2 b)
            else none

/-- Do two entries run on the same capstan pair (R297)? -/
def samePair (a b : Nat) : Bool := decide (a % 4 = b % 4)

/-- The collectives on the capstan pair of an entry, over every partition. -/
def State.onPair (s : State) (entry : Nat) : List CollRun :=
  ((s.parts.map fun e => e.2.colls).flatten).filter fun c => samePair c.entry entry

/-- Has every tile that started strands in the step committed, and is no other collective of the partition outstanding
(R140, R308)? -/
def State.lastReady (s : State) (p : Nat) : Bool :=
  let x := s.part p
  x.colls.isEmpty && x.enabled.all fun t =>
    let y := s.tile t
    (!y.worked || y.committed) && (y.cq.all fun o => decide (opcOf o.word ≠ 0x90) || fl104 o.word)

/-- May the COLL at the head of a tile's queue leave it: no other of its entry is outstanding from the tile, the strand's
earlier operations on its slots are complete, and the capstan pair queues fewer than 64 (R141, R142, R298)? -/
def State.collLeaves (s : State) (t p : Nat) (o : QOp) : Bool :=
  let x := s.part p
  let slots := if collSlot o.word then [saOf o.word, sbOf o.word] else []
  let y := s.tile t
  !(x.colls.any fun c => decide (c.tile = t) && decide (c.entry = collEntryNo o.word))
    && (slots.all fun n => !(s.slotBusy t n)
      && !(y.mq.any fun q => decide (q.strand = o.strand) && decide (q.slotOf = n) && decide (q.serial < o.serial)))
    && decide (((s.onPair (collEntryNo o.word)).filter fun c => !c.started).length < 64)

/-- The capstan pair takes the COLL at the head of a tile's queue. -/
def State.takeColl (s : State) (t p : Nat) (o : QOp) (rest : List QOp) : State :=
  (s.modTile t fun x => { x with cq := rest }).modPart p fun y => { y with
    colls := y.colls ++ [{ tile := t, op := o, entry := collEntryNo o.word, started := false, accepted := s.time
                           epoch := y.caps.epoch, vote := 0, own := [], inputs := [], got := [], converted := false
                           slots := [], done := false }] }

/-- Release a tile's collective issue queue in order: a COMMIT has nothing left to wait for there, a COLL goes to its
capstan pair, and a LAST bucket stays until LAST_BUCKET_START (R113 rule 3, R140, R146). -/
def State.releaseColls (s : State) (t p : Nat) : Nat → State
  | 0 => s
  | n + 1 =>
    match (s.tile t).cq with
    | [] => s
    | o :: rest =>
      if opcOf o.word ≠ 0x90 then (s.modTile t fun x => { x with cq := rest }).releaseColls t p n
      else if fl104 o.word then s
      else if s.collLeaves t p o then (s.takeColl t p o rest).releaseColls t p n
      else s

/-- Release every tile's collective issue queue of a partition. -/
def State.releaseAllColls (s : State) (p : Nat) : State :=
  (s.part p).enabled.foldl (fun s t => s.releaseColls t p 4) s

/-- COLL (R139 to R142). -/
def execColl (t k : Nat) (b : IBody) (s : State) : Out :=
  let w := wordOf 0x90 b
  s.issue t k w (collOk w) fun s =>
    match s.partOf t with
    | none => s.precise t k w cBounds 0
    | some p =>
      match s.collCheck t k p w with
      | some (code, addr) => s.precise t k w code addr
      | none =>
        let x := s.tile t
        let o := { x.mkOp k w with issued := s.time }
        let x := if collSlot w then
            let x := x.setSlot (saOf w) ((x.slot (saOf w)).accept k)
            if saOf w = sbOf w then x else x.setSlot (sbOf w) ((x.slot (sbOf w)).accept k)
          else x
        let s := (s.setTile t { x with cq := x.cq ++ [o], serial := x.serial + 1 }).advance t k
        s.releaseColls t p 4

/-- Decode check of CWAIT (R88, R140). -/
def cwaitOk (w : IWord) : Bool :=
  decide (xtOf w = 0) && decide (flagsOf w = 0) && dstOk (sdOf w) && decide (saOf w = 0x80)
    && decide (sbOf w = 0x80) && decide (scOf w = 0x80) && decide (xlOf w = 0) && decide (immf w 63 16 = 0)

/-- CWAIT (R143): issues once the collective, or the step's commit, is complete (see `State.syncWait`); writes the status
word and Z. -/
def execCwait (t k : Nat) (b : IBody) (s : State) : Out :=
  let w := wordOf 0x91 b
  s.issue t k w (cwaitOk w) fun s =>
    let e := immf w 15 0
    let st : W64 := match s.partOf t with
      | none => 0
      | some p =>
        let x := s.part p
        if e = 0xFFFF then x.commitStatus.getD 0
        else match x.collDone.find? fun d => decide (d.tile = t) && decide (d.strand = k) && decide (d.entry = e) with
          | some d => d.status
          | none => 0
    (s.setTile t (((s.tile t).dst k (sdOf w) st).putZ k (decide (st.toNat % 32 / 16 = 0) && decide (st.toNat % 8 = 0)))).advance t k

/-! ### Messages (R305, R306) -/

/-- Element bytes of the largest message: 256 flits of 240 bytes, less the header (R292, R306). -/
def maxCollBytes : Nat := maxMessage - 32

/-- Does a ring's or line's data go round both ways in a phase? In the BF16 wire format the reduce phase goes in ring order only, from the
rank after the owner (R299, R303). -/
def CollShape.twoWay (c : CollShape) (gather : Bool) : Bool := c.isRing && (gather || decide (c.e.wire ≠ 2))

/-- The runs of a chunk of `n` elements: capstan half, sense round the ring (0 towards the next rank, 1 towards the rank before), first
element and count. Each capstan's half is divided over the two senses of a bidirectional ring, the first ceil(m ÷ 2) of its elements upward
(R297, R299; that division is a DESIGN CHOICE, log 195). -/
def chunkRuns (both : Bool) (n : Nat) : List (Nat × Nat × Nat × Nat) :=
  let h := (n + 1) / 2
  let half (k off m : Nat) : List (Nat × Nat × Nat × Nat) :=
    if both then [(k, 0, off, (m + 1) / 2), (k, 1, off + (m + 1) / 2, m / 2)] else [(k, 0, off, m)]
  half 0 0 h ++ half 1 h (n - h)

/-- Capstan half and sense of element `i` of a chunk of `n`. -/
def chunkSense (both : Bool) (n i : Nat) : Nat × Nat :=
  match (chunkRuns both n).find? fun r => decide (r.2.2.1 ≤ i) && decide (i < r.2.2.1 + r.2.2.2) with
  | some r => (r.1, r.2.1)
  | none => (0, 0)

/-- Elements of a chunk of `n` that go in a sense. -/
def senseCount (both : Bool) (n d : Nat) : Nat :=
  ((chunkRuns both n).filter fun r => decide (r.2.1 = d)).foldl (fun a r => a + r.2.2.2) 0

/-- The messages of a chunk of `n` elements of `w` bits, run by run; an empty chunk still sends its header (R297, R305). Each is its
capstan half, sense, OFFSET and COUNT. -/
def chunkCuts (both : Bool) (n w : Nat) : List (Nat × Nat × Nat × Nat) :=
  let m := max 1 (maxCollBytes * 8 / max 1 w)
  if n = 0 then [(0, 0, 0, 0)]
  else ((chunkRuns both n).map fun r => (cutRange r.2.2.1 r.2.2.2 m r.2.2.2).map fun e => (r.1, r.2.1, e.1, e.2)).flatten

/-- The header of a message of a running collective (R306). -/
def CollShape.message (c : CollShape) (r : CollRun) (step : W64) (gather : Bool) (chunk off count : Nat)
    (bytes : List Byte) : CollMsg :=
  { entry := r.entry, gather := gather, last := fl104 r.op.word, vote := fl105 r.op.word, wire := c.e.wire, op := c.e.op
    voteword := if fl105 r.op.word then r.vote else 0, epoch := r.epoch, chunk := chunk, srcRank := c.rank
    step := BitVec.ofNat 32 step.toNat, offset := off, count := count, datum := c.e.datum, check := crc32 bytes
    bytes := bytes }

/-- Count wire bytes on the capstan of half `h` of an entry's pair: 0 on L0, 1 on L1 (R297, R329). -/
def State.countWire (s : State) (entry h n : Nat) : State :=
  { s with capstans := mmod ⟨0⟩ s.capstans (entry % 4 + 4 * h) fun c => ⟨BitVec.ofNat 64 (min (2 ^ 64 - 1) (c.wireBytes.toNat + n))⟩ }

/-- The rank after this one in ring order. -/
def CollShape.next (c : CollShape) : Nat := (c.rank + 1) % c.n
/-- The rank before this one. -/
def CollShape.prev (c : CollShape) : Nat := (c.rank + c.n - 1) % c.n

/-- The gang member of rank `d` of an X group (R340). -/
def memberOfRank (xmask d : Nat) : Nat := ((List.range 8).filter fun m => decide (xmask / 2 ^ m % 2 = 1)).getD d 0

/-- The torus direction of rank `d` of a ring or line, from this device: along a ring to the next rank upward, to any other downward;
along a line towards the rank (R299). -/
def CollShape.role (c : CollShape) (d : Nat) : Nat :=
  let up := if c.e.group = 1 ∨ c.e.group = 3 then decide (d = c.next) else decide (c.rank < d)
  (if c.e.group ≤ 2 then 1 else 3) + if up then 0 else 1

/-- Send a collective message to rank `dest`, or to neighbour PEER as 256 + PEER: gang traffic on VC0 over its gang link, torus traffic and
the commit exchange on VC1 (R277, R290, R299, R306, R310). -/
def State.sendMsg (s : State) (p : Nat) (c : CollShape) (dest : Nat) (m : CollMsg) : State :=
  let s := s.send (.coll p dest m)
  let gang (k : Nat) : State := s.sendOver p [s.gangLink k] (if m.entry = 0xFFFF then 1 else 0) m.epoch 0 m.toBytes
  let torus (role : Nat) : State := s.sendTorus p role 1 m.epoch 0 m.toBytes
  if 256 ≤ dest then (if 0x10 ≤ c.e.peer then gang (c.e.peer - 0x10) else torus c.e.peer)
  else if c.e.group = 0 then gang (memberOfRank c.e.xmask dest)
  else if c.e.group ≤ 4 then torus (c.role dest)
  else s

/-- Send one message through capstan half `h` of the entry's pair (R297, R329). -/
def State.sendColl (s : State) (p : Nat) (c : CollShape) (dest h : Nat) (m : CollMsg) : State :=
  (s.countWire m.entry h m.bytes.length).sendMsg p c dest m

/-- Send a chunk's units, each sense to the destinations it is given (R299). -/
def State.sendChunk (s : State) (p : Nat) (c : CollShape) (r : CollRun) (gather : Bool) (chunk w : Nat)
    (us : List Nat) (dests : Nat → List Nat) : State :=
  (chunkCuts (c.twoWay gather) us.length w).foldl (fun s e =>
    (dests e.2.1).foldl (fun s d =>
      s.sendColl p c d e.1 (c.message r (s.part p).num.step gather chunk e.2.2.1 e.2.2.2
        (packUnits w ((us.drop e.2.2.1).take e.2.2.2)))) s) s

/-- The other ranks of a group. -/
def CollShape.others (c : CollShape) : List Nat := (List.range c.n).filter fun k => decide (k ≠ c.rank)

/-- The neighbour in a sense round the ring or line: 0 the next rank, 1 the rank before. -/
def CollShape.toward (c : CollShape) (d : Nat) : Nat := if d = 0 then c.next else c.prev

/-- To whom this member sends a gathered chunk it holds, by sense: to every member of an X group, to the neighbour in that sense of a ring
or line unless that rank owns it. -/
def CollShape.gatherTo (c : CollShape) (chunk : Nat) (own : Bool) (d : Nat) : List Nat :=
  if c.isRing then (if decide (c.toward d = chunk) || decide (c.n = 1) then [] else [c.toward d])
  else if own then c.others else []

/-- To whom a ring's or line's partial sums start in a sense: those of chunk `k` at the rank after its owner upward, at the rank before
its owner downward (R299, R303). -/
def CollShape.reduceTo (c : CollShape) (k d : Nat) : List Nat :=
  if (d = 0 ∧ k = c.prev) ∨ (d = 1 ∧ k = c.next) then [c.toward d] else []

/-- The sense of a message, and the rank it is meant for: on a ring or line the neighbour of its sender in its sense, elsewhere the one it
reaches. A line is a folded ring, whose hop between its ends passes every device between them (R299). -/
def CollShape.meant (c : CollShape) (m : CollMsg) : Nat × Nat :=
  if c.isRing then
    let d := (chunkSense (c.twoWay m.gather) (c.chunk m.chunk).2 m.offset).2
    (d, (m.srcRank + if d = 0 then 1 else c.n - 1) % c.n)
  else (0, c.rank)

/-! ### The commit exchange's messages (R310) -/

/-- R of R310: the size of the image's exchange record, at most 4 MiB. -/
def Part.exchSize (x : Part) : Nat := match x.cur with | some v => min (2 ^ 22) (Config.exchangeSize v.exchange) | none => 0

/-- The bytes of an exchange record in the image's layout (R310, R420). -/
def Part.exchBytes (x : Part) (r : ExchRec) : List Nat :=
  match x.cur with
  | some v => (List.range x.exchSize).map fun i => (Config.exchangeByte v.exchange r i).toNat
  | none => []

/-- A phase of the commit exchange as an ALL_REDUCE of the record's bytes: 0 over X, 1 over Y, 2 over Z (R310, R332). OP 0 and WIRE 3 in its
headers are a DESIGN CHOICE (log 35). -/
def State.exchShape (s : State) (p axis : Nat) : Option CollShape :=
  let x := s.part p
  let shape (group first size xmask rank : Nat) : CollShape :=
    ⟨{ op := 0, wire := 3, group := group, size := size, first := first, xmask := xmask, ifmt := 0, ofmt := 0, datum := 0, datumHigh := 0
       issueTile := 0, peer := 0, flags := 0, depthBound := 0, lengthIndex := 0, shard := 0, reserved := 0 }, rank, size, [x.exchSize], .fp32, .fp32⟩
  x.cur.map fun v => match axis with
    | 0 => shape 0 0 (popcount8 v.gangMask) v.gangMask (popcount8 (v.gangMask % 2 ^ s.member))
    | 1 => shape (if v.yj = 32 then 1 else 2) v.y0 v.yj 0 (s.stageOf v)
    | _ => shape (if v.zj = 32 then 3 else 4) v.z0 v.zj 0 (s.replicaOf v)

/-- The commit exchange as a collective that runs: its messages have ENTRY 0xFFFF, the current epoch and vote word (R306, R310). -/
def Part.exchRun (x : Part) (v : Vote) : CollRun :=
  { tile := 0, op := { strand := 0, pc := 0, word := 0, sa := 0, sb := 0, sc := 0, k0 := 0, datum := 0, scale := none, waited := false
                       serial := 0, inst := 0, issued := 0, accNo := 0 }
    entry := 0xFFFF, started := true, accepted := 0, epoch := x.caps.epoch, vote := BitVec.ofNat 3 v.bits
    own := [], inputs := [], got := [], converted := false, slots := [], done := false }

/-- The messages of the X phase: the whole record to every other member of the gang (R309, R310). -/
def State.sendExchX (s : State) (p : Nat) (r : ExchRec) : State :=
  match s.exchShape p 0 with
  | some c => s.sendChunk p c ((s.part p).exchRun r.vote) false c.rank 8 ((s.part p).exchBytes r) fun _ => c.others
  | none => s

/-- The messages of a phase over Y or Z: the chunks of the record go round merged over the ranks they have passed, up and down, and then
whole; `merged` is the record merged over some ranks (R299, R310). -/
def State.sendExchAxis (s : State) (p axis : Nat) (merged : List Nat → ExchRec) : State :=
  match s.exchShape p axis with
  | none => s
  | some c =>
    let piece (k : Nat) (ks : List Nat) : List Nat := (((s.part p).exchBytes (merged ks)).drop (c.chunk k).1).take (c.chunk k).2
    let send (s : State) (gather : Bool) (k d : Nat) (ks : List Nat) : State :=
      s.sendChunk p c ((s.part p).exchRun (merged ks).vote) gather k 8 (piece k ks) fun e =>
        if e ≠ d then [] else if gather then c.gatherTo k (decide (k = c.rank)) d else [c.toward d]
    let up (k : Nat) : List Nat := (List.range ((c.rank + c.n - k) % c.n)).map fun i => (k + 1 + i) % c.n
    let down (k : Nat) : List Nat := (List.range ((k + c.n - c.rank) % c.n)).map fun i => (c.rank + i) % c.n
    if c.n ≤ 1 then s
    else
      let s := c.others.foldl (fun s k => send (send s false k 0 (up k)) false k 1 (down k)) s
      (List.range c.n).foldl (fun s k => [0, 1].foldl (fun s d => send s true k d (List.range c.n)) s) s

/-! ### Progress of a running collective -/

/-- Find a tile's running or queued collective by its serial number. -/
def Part.coll (x : Part) (t serial : Nat) : Option CollRun :=
  x.colls.find? fun c => decide (c.tile = t) && decide (c.op.serial = serial)

/-- Replace a collective. -/
def Part.putColl (x : Part) (r : CollRun) : Part :=
  { x with colls := x.colls.map fun c => if c.tile = r.tile ∧ c.op.serial = r.op.serial then r else c }

/-- Have all elements of a chunk arrived from a rank in a phase (R305)? -/
def CollRun.gotAll (r : CollRun) (gather : Bool) (chunk src len : Nat) : Bool :=
  let l := r.got.filter fun g => decide (g.1 = gather) && decide (g.2.1 = chunk) && decide (g.2.2.1 = src)
  !l.isEmpty && decide (l.foldl (fun a g => a + g.2.2.2) 0 = len)

/-- Has what a ring or line brings of chunk `k` in a phase arrived from both neighbours? `up` and `down` say in which sense this rank is
where the chunk's data starts, so that nothing comes (R299, R305). -/
def CollShape.ringGot (c : CollShape) (r : CollRun) (gather : Bool) (k : Nat) (up down : Bool) : Bool :=
  let count (d : Nat) : Nat := senseCount (c.twoWay gather) (c.chunk k).2 d
  let l (src : Nat) := r.got.filter fun g => decide (g.1 = gather) && decide (g.2.1 = k) && decide (g.2.2.1 = src)
  let want (src : Nat) : Nat := (if src = c.prev ∧ !up then count 0 else 0) + if src = c.next ∧ !down then count 1 else 0
  (up || !(l c.prev).isEmpty) && [c.prev, c.next].all fun src => decide ((l src).foldl (fun a g => a + g.2.2.2) 0 = want src)

/-- Cast data bits into the partition's local vote, never LATE (R307). -/
def State.castBits (s : State) (p : Nat) (b : BitVec 3) : State :=
  if b = 0 then s else s.modNum p fun n => n.cast (b.getLsbD 0) (b.getLsbD 1) (b.getLsbD 2) false

/-- The complete sum of owned element `i` (R301, R303). -/
def CollShape.sum (c : CollShape) (r : CollRun) (first i : Nat) : Nat :=
  let mine := mget 0 r.own (first + i)
  if c.n = 1 then mine
  else if c.isRing then
    let src := if (chunkSense (c.twoWay false) (c.chunk c.rank).2 i).2 = 0 then c.prev else c.next
    wireHop c.e.wire (mget 0 r.inputs (src * 2 ^ 40 + i)) mine
  else
    let from' (k : Nat) : Nat := if k = c.rank then mine else mget 0 r.inputs (k * 2 ^ 40 + i)
    (List.range (c.n - 1)).foldl (fun a k => wireHop c.e.wire a (from' (k + 1))) (from' 0)

/-- Have the contributions to the owned chunk all arrived? -/
def CollShape.reduceReady (c : CollShape) (r : CollRun) : Bool :=
  let len := (c.chunk c.rank).2
  if c.n = 1 then true
  else if c.isRing then c.ringGot r false c.rank false false
  else c.others.all fun k => r.gotAll false c.rank k len

/-- Count output classes in the partition's CAP_ registers (R302). -/
def CapRegs.count (x : CapRegs) (n : SiteCounts) : CapRegs :=
  { x with sat := sat32 x.sat n.sat, flush := sat32 x.flush n.flush, nan := sat32 x.nan n.nan, inf := sat32 x.inf n.inf }

/-- Convert the owned sums once they are complete, write them, count them, cast their bits, and send them on in ALL_REDUCE; in a voting
REDUCE_SCATTER only their vote bits go on, in a header with no elements (R302, R307). -/
def State.collConvert (s : State) (p : Nat) (c : CollShape) (r : CollRun) : State :=
  if c.e.op ≥ 2 || c.e.wire = 3 || r.converted || !(c.reduceReady r) then s.modPart p fun x => x.putColl r
  else
    let (first, len) := c.chunk c.rank
    let out := (List.range len).map fun i => fromWire c.e.wire c.e.datum c.ofmt (c.sum r first i)
    let cls := out.map (·.2)
    let bits := voteBits false (cls.any fun k => decide (k = .inf)) (cls.any fun k => decide (k = .sat))
    let r := { r with converted := true, vote := r.vote ||| bits }
    let w := c.ofmt.bits
    let s := (s.modPart p fun x => { x.putColl r with caps := x.caps.count (countClasses cls) }).castBits p bits
    let s := s.writeUnits p r.op.sb.toNat w (if c.e.op = 0 then first else 0) (out.map (·.1))
    if c.e.op = 0 then s.sendChunk p c r true c.rank w (out.map (·.1)) (c.gatherTo c.rank true)
    else if fl105 r.op.word then s.sendChunk p c r true c.rank w [] (c.gatherTo c.rank true)
    else s

/-- Is every piece of a running collective in place, so that it can complete (R140)? -/
def CollShape.complete (c : CollShape) (r : CollRun) : Bool :=
  let viaGather (k : Nat) : Bool := if c.isRing then c.ringGot r true k false false else r.gotAll true k k (c.chunk k).2
  if c.e.wire = 3 ∧ c.e.op = 0 then decide (r.slots.length = c.n)
  else match c.e.op with
    | 0 => r.converted && c.others.all viaGather
    | 1 => r.converted && (!c.isRing || c.others.all fun k =>
        c.ringGot r false k (decide (k = c.prev)) (decide (k = c.next)))
      && (!(fl105 r.op.word) || c.others.all fun k => r.gotAll true k (if c.isRing then c.prev else k) 0)
    | 2 => c.others.all viaGather
    | 3 => c.others.all fun k => r.gotAll true k k (c.len (k * c.n + c.rank))
    | 4 => true
    | _ => r.gotAll true c.peerRank c.peerRank (c.len 0)

/-! ### Start -/

/-- Does the start find a neighbour of the group unreachable (R277)? The link number and member index of R443. -/
def State.collLost (s : State) (c : CollShape) : Option (Nat × Nat) :=
  let gang (m : Nat) : Option (Nat × Nat) :=
    let l := s.gangLink m
    if (s.link l).lost then some (l, m) else none
  let dir (role : Nat) : Option (Nat × Nat) :=
    if s.torusLost role then some ((bundle role).headD 0, 0xFF) else none
  if c.e.op = 4 ∨ c.e.op = 5 then (if 0x10 ≤ c.e.peer then gang (c.e.peer - 0x10) else dir c.e.peer)
  else if c.n = 1 then none
  else match c.e.group with
    | 0 => ((List.range 8).filter fun m => decide (m ≠ s.member) && decide (c.e.xmask / 2 ^ m % 2 = 1)).findSome? gang
    | 1 => [1, 2].findSome? dir
    | 2 => ((if c.rank + 1 < c.n then [1] else []) ++ if 0 < c.rank then [2] else []).findSome? dir
    | 3 => [3, 4].findSome? dir
    | 4 => ((if c.rank + 1 < c.n then [3] else []) ++ if 0 < c.rank then [4] else []).findSome? dir
    | _ => none

/-- The element bytes of a slot message (R304): 1,024 entries, 1,024 first-special indices, DEPTH and DATUM. -/
def slotBytes (es : List Entry) (depth : Nat) (datum : Int) : List Byte :=
  (es.map fun e => leBytes 16 e.word.toNat).flatten
    ++ (es.map fun e => match e.first with | some i => leBytes 4 (2 ^ 31 + i % 65536) | none => leBytes 4 0).flatten
    ++ leBytes 4 depth ++ leBytes 2 (datum % 65536).toNat ++ leBytes 26 0

/-- Read one slot entry from the bytes of a slot message. -/
def slotEntry (bs : List Byte) (i : Nat) : Entry :=
  .ofWord (leNat ((bs.drop (16 * i)).take 16)) (indexOfWord (leNat ((bs.drop (16384 + 4 * i)).take 4)))

/-- Entry `i` of a slot whose contents are unspecified, by its number (R192). -/
def struckEntry (n i : Nat) : Entry :=
  .ofWord (Config.struckWord n i).toNat ((Config.struckFirst n i).map (·.toNat))

/-- The destination slot of slot-form COLL `w` of tile `t`, whose collective is struck, holds unspecified entries, first-special
indices and DEPTH (R192). -/
def State.struckSlot (s : State) (t : Nat) (w : IWord) : State :=
  if collSlot w then
    let n := sbOf w
    let s' := s.modTile t fun x =>
      let x := { x with acc := msetList Entry.zero x.acc (1024 * n) ((List.range 1024).map (struckEntry s.free)) }
      x.setSlot n { x.slot n with depth := (Config.struckDepth s.free).toNat }
    { s' with free := s.free + 1 }
  else s

/-- The collectives of partition `p` that are outstanding: tile, strand, entry. -/
def State.openColls (s : State) (p : Nat) : List (Nat × Nat × Nat) :=
  ((s.part p).colls.map fun c => (c.tile, c.op.strand, c.entry))
    ++ ((s.part p).enabled.map fun t => ((s.tile t).cq.filter fun o => decide (opcOf o.word = 0x90)).map fun o =>
      (t, o.strand, collEntryNo o.word)).flatten

/-- Every collective of partition `p` that is outstanding is struck (R192). -/
def State.struckSlots (s : State) (p : Nat) : State :=
  let s := (s.part p).colls.foldl (fun (s : State) r => s.struckSlot r.tile r.op.word) s
  (s.part p).enabled.foldl (fun (s : State) t =>
    (s.tile t).cq.foldl (fun (s : State) o => if opcOf o.word = 0x90 then s.struckSlot t o.word else s) s) s

/-- The first word of `n` that a failed die crossing has poisoned on its way to or from a capstan (R24, R68). -/
def crossedWord (a : Crossed (List Nat)) (n : Nat) : Option Nat := if a.failed then a.poison.find? fun j => decide (j < n) else none

/-- Start a slot-form collective: read the source slot through port B and send it to every other member (R142, R304). Of each message's
20,512 element bytes the L0 capstan counts its 512 entries with their indices and the trailer, the L1 capstan its 512 entries with
their indices; that the trailer counts on L0 is a DESIGN CHOICE (R297 splits the entries and R304 sends one message; log 147). -/
def State.startSlot (s : State) (p : Nat) (c : CollShape) (r : CollRun) (a : Crossed (List Nat)) : State :=
  let t := r.tile
  let n := saOf r.op.word
  let x := s.tile t
  let es := (List.range 1024).map (x.delivered.entry n)
  let depth := (x.slot n).depth
  let s := s.countSlot t n (some r.op.strand)
  if x.slotBad n || (crossedWord a 5120).isSome then s.impreciseEcc t r.op (if x.slotBad n then 1 else 8) 0
  else
    let r := { r with slots := [(c.rank, mlist Entry.zero 0 es, depth)] }
    let m := c.message r (s.part p).num.step false c.rank 0 1024 (slotBytes es depth c.e.datum)
    (c.others.foldl (fun (s : State) k => ((s.countWire r.entry 0 10272).countWire r.entry 1 10240).sendMsg p c k m) s).modPart p fun y => y.putColl r

/-- Start a collective that reads HBM: the source is read, a poisoned beat faults, and so does a word that a die crossing delivers poisoned
(R24, R68); a reduction forms its contributions and
sends those other ranks own; the others send their bytes unchanged (R140, R173, R301, R302, R307). -/
def State.startData (s : State) (p : Nat) (c : CollShape) (r : CollRun) (a : Crossed (List Nat)) : State :=
  let src := r.op.sa.toNat
  let w := unitBits c.ifmt c.e.esc
  let se := c.extents.1
  let n := unitBytes w se
  let bad := if c.e.op = 5 then none else s.firstPoison (s.part p) src n
  let s := if c.e.op = 5 then s else s.readRange p src n
  match bad, crossedWord a ((n + 3) / 4) with
  | some b, _ => s.imprecise r.tile r.op cPoison (faultAddr 2 b)
  | none, some j => s.impreciseEcc r.tile r.op 8 (faultAddr 2 (src + 4 * j))
  | none, none =>
    let us := if c.e.op = 5 then [] else unpackUnits w se (s.hbmRead (s.part p) src n)
    if c.e.op ≤ 1 then
      let vs := us.map c.ifmt.decode
      let ws := us.map (toWire c.e.wire c.e.datum c.ifmt)
      let bits := voteBits (vs.any (·.isNan)) (vs.any (·.isInf)) (ws.any (·.2.1))
      let r := { r with own := mlist 0 0 (ws.map (·.1)), vote := r.vote ||| bits }
      let s := (s.modPart p fun x => { x.putColl r with
        caps := x.caps.count ⟨(ws.filter (·.2.1)).length, (ws.filter (·.2.2)).length, 0, 0, 0⟩ }).castBits p bits
      let wb := wireBits c.e.wire
      let part (k : Nat) : List Nat := (mgetList 0 r.own (c.chunk k).1 (c.chunk k).2)
      let s :=
        if c.n = 1 then s
        else if c.isRing then
          [c.prev, c.next].eraseDups.foldl (fun s k => s.sendChunk p c r false k wb (part k) (c.reduceTo k)) s
        else c.others.foldl (fun s k => s.sendChunk p c r false k wb (part k) fun _ => [k]) s
      s.collConvert p c r
    else
      let s := s.modPart p fun x => x.putColl r
      match c.e.op with
      | 2 =>
        (s.writeUnits p r.op.sb.toNat w (c.off c.rank) us).sendChunk p c r true c.rank w us (c.gatherTo c.rank true)
      | 3 =>
        let piece (k : Nat) : List Nat :=
          (us.drop (c.off (c.rank * c.n + k) - c.off (c.rank * c.n))).take (c.len (c.rank * c.n + k))
        let at' := ((List.range c.rank).map fun k => c.len (k * c.n + c.rank)).foldl (· + ·) 0
        c.others.foldl (fun s k => s.sendChunk p c r true c.rank w (piece k) fun _ => [k])
          (s.writeUnits p r.op.sb.toNat w at' (piece c.rank))
      | 4 => s.sendChunk p c r true c.rank w us fun _ => [256 + c.e.peer]
      | _ => s

/-- Start a collective the capstans hold (R140, R277, R298, R307); `a` is how its source came over the die crossings (R24, R68). -/
def State.startColl (s : State) (p : Nat) (c : CollShape) (r : CollRun) (a : Crossed (List Nat)) : State :=
  match s.collLost c with
  | some (l, m) => s.partFault p cPeerLost true 0 (detailOf l m 0 0)
  | none =>
    let r := { r with
      started := true
      vote := if fl105 r.op.word then BitVec.ofNat 3 (s.part p).num.vote.bits else 0 }
    let s := (s.modPart p fun x => x.putColl r).countRetries a.crossings
    if collSlot r.op.word then s.startSlot p c r a else s.startData p c r a

/-- May the capstans of partition `p` work: no fault (R314, R445)? -/
def Part.capsWork (x : Part) : Bool := x.exist && !x.faulted && x.pend.isEmpty

/-- May a queued collective start: the pair runs fewer than 16 and no earlier accepted one waits (R298); the slot form
needs port B (R142). -/
def State.collStarts (s : State) (p : Nat) (r : CollRun) : Bool :=
  let same := s.onPair r.entry
  let before := ((s.part p).colls.takeWhile fun c => decide (c ≠ r)).filter fun c => samePair c.entry r.entry
  !r.started && decide ((same.filter (·.started)).length < 16) && before.all (·.started)
    && (same.all fun c => c.started || decide (r.accepted.toNat ≤ c.accepted.toNat))
    && (!(collSlot r.op.word) || (s.tile r.tile).portB.isNone)

/-! ### Receiving (R296, R305, R306) -/

/-- Place a reduce-phase message: contributions to the owned chunk are kept; a ring's partial sum for another chunk goes on
with this member's contribution added (R299, R301, R303). -/
def State.recvReduce (s : State) (p : Nat) (c : CollShape) (r : CollRun) (m : CollMsg) : State :=
  let wb := wireBits c.e.wire
  let us := unpackUnits wb m.count m.bytes
  let r := { r with got := r.got ++ [(false, m.chunk, m.srcRank, m.count)], vote := r.vote ||| m.voteword }
  if m.chunk = c.rank then
    let vs := us.map fun u => if c.e.wire = 2 then Fmt.bf16.decode u
      else if u = 2 ^ (wb - 1) then .nan
      else if u = 2 ^ (wb - 1) - 1 ∨ u = 2 ^ (wb - 1) + 1 then .inf false else .fin false 0 0
    let bits := if c.isRing then 0 else voteBits (vs.any (·.isNan)) (vs.any (·.isInf)) false
    let r := { r with
      inputs := msetList 0 r.inputs (m.srcRank * 2 ^ 40 + m.offset) us
      vote := r.vote ||| bits }
    ((s.castBits p bits).modPart p fun x => x.putColl r).collConvert p c r
  else
    let s := s.modPart p fun x => x.putColl r
    if c.isRing then
      let first := (c.chunk m.chunk).1 + m.offset
      let out := us.zipIdx.map fun e => wireHop c.e.wire e.1 (mget 0 r.own (first + e.2))
      let (h, d) := chunkSense (c.twoWay false) (c.chunk m.chunk).2 m.offset
      s.sendColl p c (c.toward d) h (c.message r (s.part p).num.step false m.chunk m.offset m.count (packUnits wb out))
    else s

/-- Place a gather-phase message, and pass it on round a ring or line (R140, R302, R305). -/
def State.recvGather (s : State) (p : Nat) (c : CollShape) (r : CollRun) (m : CollMsg) : State :=
  let w := unitBits c.ofmt c.e.esc
  let us := unpackUnits w m.count m.bytes
  let at' := match c.e.op with
    | 0 => (c.chunk m.chunk).1
    | 2 => c.off m.chunk
    | 3 => ((List.range m.chunk).map fun k => c.len (k * c.n + c.rank)).foldl (· + ·) 0
    | _ => 0
  let bits := if c.e.op = 0 then voteBits false (us.any fun u => (c.ofmt.decode u).isInf) false else 0
  let r := { r with
    got := r.got ++ [(true, m.chunk, m.srcRank, m.count)]
    vote := r.vote ||| m.voteword ||| bits }
  let s := ((s.castBits p bits).modPart p fun x => x.putColl r).writeUnits p r.op.sb.toNat w (at' + m.offset) us
  let (h, d) := chunkSense (c.twoWay true) (c.chunk m.chunk).2 m.offset
  (c.gatherTo m.chunk false d).foldl (fun s k =>
    s.sendColl p c k h (c.message r (s.part p).num.step true m.chunk m.offset m.count m.bytes)) s

/-- Keep a member's slot (R304). -/
def State.recvSlot (s : State) (p : Nat) (r : CollRun) (m : CollMsg) : State :=
  let es := (List.range 1024).map (slotEntry m.bytes)
  let depth := leNat ((m.bytes.drop 20480).take 4)
  let r := { r with
    slots := r.slots ++ [(m.srcRank, mlist Entry.zero 0 es, depth)]
    vote := r.vote ||| m.voteword }
  s.modPart p fun x => x.putColl r

/-- A strike message to the partition's neighbours (R312, R313). -/
def State.sendStrike (s : State) (p : Nat) (links : List Nat) (k : Strike) (hops : Nat) (time : W64) : State :=
  if links.isEmpty then s
  else s.sendVc4 links (leBytes 1 k.kind ++ leBytes 1 k.code ++ leBytes 1 hops ++ leBytes 1 k.x ++ leBytes 1 k.y
    ++ leBytes 1 k.z ++ leBytes 2 0 ++ leBytes 4 (s.part p).caps.job.toNat ++ leBytes 4 k.epoch.toNat ++ leBytes 8 time.toNat)

/-- Originate a strike or notice of an epoch, once for each pair (R311, R313). -/
def State.originate (s : State) (p kind code : Nat) (epoch : W32) (time : W64) : State :=
  let x := s.part p
  if x.caps.seen.contains (kind, epoch) then s
  else
    let k : Strike := ⟨kind, code, coordX s.coord, coordY s.coord, coordZ s.coord, epoch⟩
    let s := s.modPart p fun x => { x with caps := { x.caps with
      seen := (kind, epoch) :: x.caps.seen, sent := if kind = 1 then sat16 x.caps.sent 1 else x.caps.sent } }
    s.sendStrike p (s.jobLinks p) k 0 time

/-- Is epoch `f` newer than `e`? -/
def newerEpoch (f e : W32) : Bool := decide (f ≠ e) && decide ((f - e).toNat < 2 ^ 31)

/-- The PEER code of the neighbour on link `l`; 0 for none (R274, R340). -/
def State.peerOf (s : State) (l : Nat) : Nat :=
  if (linkRole l).1 = 0 then (match s.farMember l with | some m => 0x10 + m | none => 0) else (linkRole l).1

/-- The running collective a message belongs to: of its ENTRY, or for a SEND's message the oldest RECV from that neighbour
that has not received everything (R140, R306). -/
def State.collFor (s : State) (p l : Nat) (m : CollMsg) : Option CollRun :=
  (s.part p).colls.find? fun r =>
    r.started && (if m.op = 4 then
        match s.collShape p r.entry with
        | some c => decide (c.e.op = 5) && decide (c.e.peer = s.peerOf l) && !(c.complete r)
        | none => false
      else decide (r.entry = m.entry))

/-- The virtual channel a collective message came on: VC0 of a gang collective, VC1 of a torus collective and of the commit exchange
(R290). -/
def State.collVc (s : State) (p l : Nat) (m : CollMsg) : Nat :=
  let entry := match s.collFor p l m with | some r => r.entry | none => m.entry
  if m.entry = 0xFFFF then 1
  else match s.collShape p entry with
    | some c => if c.e.group = 0 ∧ c.e.op < 4 ∨ 4 ≤ c.e.op ∧ 0x10 ≤ c.e.peer then 0 else 1
    | none => if (linkRole l).1 = 0 then 0 else 1

/-- The receive buffers that a collective message from link `l` fills are freed (R289, R298). -/
def State.freeColl (s : State) (p l : Nat) (m : CollMsg) : State :=
  s.freeBuffers l (s.collVc p l m) (max 1 ((32 + m.bytes.length + 239) / 240))

/-- The collective and rank to which a message from link `l` is passed on: this device stands between the ends of a line, and the message is
meant for the other end (R299). -/
def State.passesOn (s : State) (p l : Nat) (m : CollMsg) : Option (CollShape × Nat) :=
  match if m.entry = 0xFFFF then s.exchShape p (((linkRole l).1 + 1) / 2) else s.collShape p m.entry with
  | some c => if m.op < 4 ∧ c.isRing ∧ (c.meant m).2 ≠ c.rank then some (c, (c.meant m).2) else none
  | none => none

/-- A partition that is FAULTED or quiesced answers a message of a newer epoch with a strike of it (R311, R435): of a step it takes no part
in, CAP_EPOCH's own among them, which the partition has advanced to and does not begin (R295). -/
def State.answerNewer (s : State) (p : Nat) (e : W32) : State :=
  let x := s.part p
  if e = x.caps.epoch || newerEpoch e x.caps.epoch then s.originate p 1 (if x.faulted then x.fault.code else 0x13) e s.time else s

/-- Does a partition take no message of a step any more: it is FAULTED, or quiesced (R311, R435)? -/
def Part.deaf (x : Part) : Bool := x.faulted || decide (x.hove.state = 2)

/-- A collective message that link `l` delivered reaches the capstans of partition `p` (R296, R305, R306). A message of the next epoch,
or of a collective not yet started, waits in its VC buffer (R298); the buffers of every other are freed. One that only crosses a line is
passed on whole. CHECK is verified of every message that is used; one with ENTRY 0xFFFF belongs to the commit exchange, whose records
PARTITION_COMMIT takes (R310). -/
def State.takeMessage (s : State) (p l : Nat) (m : CollMsg) : State :=
  let x := s.part p
  let wait (s : State) : State := s.modPart p fun x => { x with collWait := x.collWait ++ [(l, m)] }
  let bad (s : State) : State := s.partFault p cEcc true 0 (detailOf 9 0 0 0)
  let sound := decide (crc32 m.bytes = m.check)
  if !x.exist then s
  else if x.deaf then (s.answerNewer p m.epoch).freeColl p l m
  else if m.epoch = x.caps.epoch + 1 then wait s
  else if m.epoch ≠ x.caps.epoch then (s.staleOn l).freeColl p l m
  else match s.passesOn p l m, s.collFor p l m with
    | some (c, dest), _ => (s.freeColl p l m).sendColl p c dest (chunkSense (c.twoWay m.gather) (c.chunk m.chunk).2 m.offset).1 m
    | none, none =>
      if m.entry = 0xFFFF then (if sound then s.freeColl p l m else bad (s.freeColl p l m))
      else if m.op ≠ 4 && (s.collShape p m.entry).isNone then (s.staleOn l).freeColl p l m else wait s
    | none, some r =>
      let s' := s.freeColl p l m
      match s.collShape p r.entry with
      | none => s'
      | some c =>
        if !sound then bad s'
        else if c.e.wire = 3 ∧ c.e.op = 0 then s'.recvSlot p r m
        else if m.gather then s'.recvGather p c r m
        else s'.recvReduce p c r m

/-- The messages that wait are looked at again, in order (R296, R298). -/
def State.retakeMessages (s : State) (p : Nat) : State :=
  (s.part p).collWait.foldl (fun (s : State) e => s.takeMessage p e.1 e.2) (s.modPart p fun x => { x with collWait := [] })

/-- COLL_MESSAGE_RECEIVE: a collective message, header and elements, that link `l` delivered reaches the capstans of partition `p` (R296,
R305, R306). -/
def execCollMessageReceive (p l : Nat) (bytes : List Byte) (s : State) : Out :=
  match CollMsg.ofBytes bytes with
  | none => .next s
  | some m => .next ((if (s.part p).faulted then s.retakeMessages p else s).takeMessage p l m)

/-! ### Starting (R297, R298, R308) -/

/-- CAPSTAN_COLL_START: the collective that instruction `d.serial` of tile `t` issued starts on its capstan pair, in acceptance order
(R297, R298); `d.arrived` is how its source came over the die crossings (R24, R68). -/
def execCapstanCollStart (t : Nat) (d : SqDelivery) (s : State) : Out :=
  match s.partOf t with
  | none => .next s
  | some p =>
    let s1 := s.releaseColls t p 4
    match (s1.part p).coll t d.serial with
    | none => .next s
    | some r =>
      match s1.collShape p r.entry with
      | none => .next s
      | some c =>
        if (s1.part p).capsWork && s1.collStarts p r then .next ((s1.startColl p c r d.arrived).retakeMessages p) else .next s

/-- LAST_BUCKET_START: the LAST bucket at the head of a tile's collective issue queue starts, every tile having
committed and every earlier collective being complete (R140, R308); `b.arrived` is how its source came over the die crossings (R24, R68). -/
def execLastBucketStart (b : BucketStart) (s : State) : Out :=
  let t := b.tile
  match s.partOf t, (s.tile t).cq with
  | some p, o :: rest =>
    if opcOf o.word = 0x90 ∧ fl104 o.word ∧ (s.part p).capsWork ∧ s.lastReady p ∧ s.collLeaves t p o then
      let s1 := s.takeColl t p o rest
      match (s1.part p).coll t o.serial, s1.collShape p (collEntryNo o.word) with
      | some r, some c => if s1.collStarts p r then .next ((s1.startColl p c r b.arrived).retakeMessages p) else .next s
      | _, _ => .next s
    else .next s
  | _, _ => .next s

/-! ### Completion -/

/-- Merge slots in rank order (R192): entry `i` and the total depth. -/
def mergeSlots (ss : List (Nat × SMap Entry × Nat)) (n : Nat) : (Nat → Entry) × Nat :=
  let ranked := (List.range n).filterMap fun k => ss.find? fun e => decide (e.1 = k)
  let entry (i : Nat) : Entry :=
    (ranked.foldl (fun (a : Entry × Nat) e => (mergeEntry a.2 a.1 (mget Entry.zero e.2.1 i), a.2 + e.2.2))
      (Entry.zero, 0)).1
  (entry, ranked.foldl (fun a e => a + e.2.2) 0)

/-- Word `j` of slot `n`, its entries first and then its first-special indices, as `Tile.putWord` numbers the accumulator's words, with what
it holds. -/
def Tile.slotWord (x : Tile) (n j : Nat) : Nat × Nat :=
  if j < 4096 then (4096 * n + j, (x.entry n (j / 4)).word.toNat / 2 ^ (32 * (j % 4)) % 2 ^ 32)
  else (65536 + 1024 * n + (j - 4096), match (x.entry n (j - 4096)).first with | some i => 2 ^ 31 + i % 65536 | none => 0)

/-- Words of slot `n` of `x` stand as in `old`, with their errors: they have not been written (R59). -/
def Tile.keepSlotWords (x old : Tile) (n : Nat) (ws : List Nat) : Tile :=
  ws.foldl (fun x j =>
    let (w, v) := old.slotWord n j
    let x := x.putWord 1 w v
    { x with ecc := mset 0 x.ecc (eccKey 1 w) (mget 0 old.ecc (eccKey 1 w)) }) x

/-- Write the merged slot (R142, R192), but for the words that a die crossing delivers poisoned (R24, R59). -/
def State.finishSlot (s : State) (c : CollShape) (r : CollRun) (bad : List Nat) : State :=
  let n := sbOf r.op.word
  let (entry, depth) := mergeSlots r.slots c.n
  s.modTile r.tile fun x =>
    let acc := msetList Entry.zero x.acc (1024 * n) ((List.range 1024).map entry)
    let x := { x.clearSlot n with acc := acc, sigs := mset 0 x.sigs n 0 }.keepSlotWords x n bad
    x.setSlot n { x.slot n with datum := c.e.datum, depth := depth, projected := depth, owned := true, owner := r.op.strand }

/-- Retire a collective: its slots' operations end, the status is left for CWAIT, the counter is signalled, and waiting
collectives are released (R139, R142, R143). -/
def State.retireColl (s : State) (p : Nat) (r : CollRun) (status : W64) : State :=
  let w := r.op.word
  let s := s.modPart p fun x => { x with
    colls := x.colls.filter fun c => !(decide (c.tile = r.tile) && decide (c.op.serial = r.op.serial))
    collDone := ⟨r.tile, r.op.strand, r.entry, status⟩ :: x.collDone.filter fun d =>
      !(decide (d.tile = r.tile) && decide (d.strand = r.op.strand) && decide (d.entry = r.entry)) }
  let s := if collSlot w then
      s.modTile r.tile fun x => let x := x.slotDone (saOf w); if saOf w = sbOf w then x else x.slotDone (sbOf w)
    else s
  let s := if fl106 w then s.modTile r.tile fun x => x.addCounter (immf w 63 58) 1 else s
  s.releaseAllColls p

/-- Words of a collective's destination that a failed die crossing poisons on their way from the capstans: those of a slot are not
written, in HBM their beats are stored poisoned with SOURCE 2 (R24, R59, R68, R252). -/
def State.poisonDest (s : State) (p : Nat) (r : CollRun) (bad : List Nat) : State :=
  if collSlot r.op.word then s else bad.foldl (fun s j => s.poisonBeat p ((r.op.sb.toNat + 4 * j) / 32) 2) s

/-- Words of a collective's destination (R140, R142). -/
def CollShape.destWords (c : CollShape) (w : IWord) : Nat :=
  if collSlot w then 5120 else (unitBytes (unitBits c.ofmt c.e.esc) c.extents.2 + 3) / 4

/-- COLL_COMPLETE: the collective of instruction `d.serial` of tile `t` completes, every piece being in place. A LAST bucket
ends its phases here and completes with the commit exchange (R140, R142, R205, R308). Words of the destination that a die crossing has
delivered poisoned raise ECC_UNCORRECTABLE, imprecise, on the issuing strand, and no completion is signalled (R24, R59, R68, R253; that
they show when the last write is performed is a DESIGN CHOICE, log 150). -/
def execCollComplete (t : Nat) (d : SqDelivery) (s : State) : Out :=
  match s.partOf t with
  | none => .next s
  | some p =>
    match (s.part p).coll t d.serial with
    | none => .next s
    | some r =>
      match s.collShape p r.entry with
      | none => .next s
      | some c =>
        let slot := collSlot r.op.word
        if !(s.part p).capsWork || (s.tile t).frozen || !r.started || r.done || !(c.complete r)
            || (slot && (s.tile t).portB.isSome) then .next s
        else
          let bad := if d.arrived.failed then d.arrived.poison.filter fun j => decide (j < c.destWords r.op.word) else []
          let s := s.countRetries d.arrived.crossings
          let s := if slot then s.finishSlot c r bad else s
          match bad.head? with
          | some j => .next ((s.poisonDest p r bad).impreciseEcc t r.op 8 (if slot then 0 else faultAddr 2 (r.op.sb.toNat + 4 * j)))
          | none =>
            if fl104 r.op.word then .next (s.modPart p fun x => x.putColl { r with done := true })
            else .next (s.retireColl p r (if fl105 r.op.word then BitVec.ofNat 64 r.vote.toNat else 0))

/-- The collective timeout of the running RUN_STEPS in ticks (R305, R409). -/
def Part.collTicks (x : Part) : Nat :=
  match x.cmds.find? fun c => decide (c.op = 3) && c.started with
  | some c => c.collTicks
  | none => x.timeouts.toNat / 2 ^ 16 % 2 ^ 16 * 100000

/-- COLL_TIMEOUT: a collective has outlived the collective timeout: CMD_TIMEOUT, which strikes its epoch (R305, R443). -/
def execCollTimeout (t serial : Nat) (s : State) : Out :=
  match s.partOf t with
  | none => .next s
  | some p =>
    let x := s.part p
    let pending := (s.tile t).cq.filter (fun o => decide (opcOf o.word = 0x90))
      ++ (x.colls.filter fun c => decide (c.tile = t)).map (·.op)
    match pending.find? fun o => decide (o.serial = serial) with
    | none => .next s
    | some o =>
      if x.capsWork && decide (o.issued.toNat + x.collTicks ≤ s.time.toNat) then
        .next (s.partFault p cCmdTimeout true 0 (detailOf 1 3 (collEntryNo o.word) x.caps.epoch.toNat))
      else .next s

end Sys2Proof.Machine
end

