-- ==== Sys2Proof/Machine/Queue.lean ====
section
/-! DEFINITION. The unit status summary (R31, R32, R35), queues and doorbells (R411), completions and their merging in a
gang unit (R34, R414, R417), taking commands (R412, R413, R415, R416), and the tenancy declarations (R419, R557). -/

namespace Sys2Proof.Machine

/-! ### The unit (R29 to R35, R404) -/

/-- Is a command executing: started and not complete (R32)? -/
def Part.running (x : Part) : Bool := x.cmds.any (·.started)

/-- STATE (R32): RUNNING while any command executes, RESHAPING from the boundary of a reshape on. -/
def Part.stateCode (x : Part) : Nat :=
  if !x.exist then 0
  else if x.resetting.isSome then 6
  else if x.faulted then 7
  else if x.hove.state = 1 then 5
  else if x.hove.state = 2 then 4
  else if (match x.ela.run with | some r => r.pauseAt.isSome | none => false) then 3
  else if x.running then 2
  else if x.image.isNone then 0
  else 1

/-- The partition leads a formed gang unit. -/
def Part.isLead (x : Part) : Bool := x.gang.formed && decide (x.gang.role = 1)

/-- Does a code belong to the partition-fault class (R438)? -/
def isPartFault (c : Nat) : Bool :=
  [0x10, 0x11, 0x12, 0x20, 0x21, 0x22, 0x23, 0x24, 0x30, 0x31, 0x32, 0x40].contains c

/-- The fault of a list (member, code) that is reported: the originating fault of the lowest member, else the lowest member's
(R35). -/
def reportedFault (l : List (Nat × Nat)) : Option (Nat × Nat) :=
  let least (l : List (Nat × Nat)) : Option (Nat × Nat) :=
    l.foldl (fun (a : Option (Nat × Nat)) e => match a with
      | some b => if e.1 < b.1 then some e else some b
      | none => some e) none
  (least (l.filter fun e => decide (e.2 ≠ cCollAbort))).orElse fun _ => least l

/-- What member `m` has last told the lead; nothing yet, all 0 (R31, R36). -/
def GangReg.report (g : GangReg) (m : Nat) : MemberReport :=
  match g.members.find? fun e => decide (e.1 = m) with
  | some e => e.2
  | none => ⟨0, []⟩

/-- Keep what member `m` tells (R31). -/
def GangReg.hear (g : GangReg) (m : Nat) (r : MemberReport) : GangReg :=
  { g with members := (m, r) :: g.members.filter fun e => decide (e.1 ≠ m) }

/-- Is member `m` of the gang unit reachable: this device itself, or its gang link is not lost (R31, R277)? -/
def State.reaches (s : State) (p m : Nat) : Bool :=
  (s.part p).gang.present.getLsbD m && (decide (m = s.member) || !(s.link (s.gangLink m)).lost)

/-- The gang unit's other members, in ascending index. -/
def State.peers (s : State) (p : Nat) : List Nat :=
  (List.range 8).filter fun m => decide (m ≠ s.member) && (s.part p).gang.present.getLsbD m

/-- The faults a unit knows: this partition's own, and on a gang lead those in the members' fault records (R31, R35). -/
def State.unitFaults (s : State) (p : Nat) : List (Nat × Nat) :=
  let x := s.part p
  let own := if x.faulted then [(s.member, x.fault.code)] else []
  if x.isLead then
    own ++ ((s.peers p).map fun m => (m, (x.gang.report m).summary.toNat / 2 ^ 56)).filter fun e => decide (e.2 ≠ 0)
  else own

/-- A gang unit's STATE: the member state highest in precedence, which is the highest code (R32). -/
def State.unitState (s : State) (p : Nat) : Nat :=
  let x := s.part p
  if x.isLead then (s.peers p).foldl (fun (a : Nat) m => max a ((x.gang.report m).summary.toNat % 16)) x.stateCode else x.stateCode

/-- A site record of the unit: on a gang lead, counts summed over the members and the first position of the lowest-indexed member
that holds one (R36). -/
def State.unitSite (s : State) (p n : Nat) : SiteRec :=
  let x := s.part p
  let own := mget SiteRec.zero x.num.sites n
  if !x.isLead then own
  else
    let of (m : Nat) : SiteRec :=
      if m = s.member then own
      else match (x.gang.report m).sites.find? fun e => decide (e.1 = n) with
        | some e => e.2
        | none => .zero
    let all := ((List.range 8).filter fun m => decide (m = s.member) || x.gang.present.getLsbD m).map of
    let sum (f : SiteRec → Nat) : Nat := min (2 ^ 32 - 1) (all.foldl (fun (a : Nat) r => a + f r) 0)
    let first := (all.find? (·.valid)).getD .zero
    { first with sat := sum (·.sat), flush := sum (·.flush), nan := sum (·.nan), inf := sum (·.inf), invalid := sum (·.invalid) }

/-- Enabled submission queues. -/
def Part.queuesEnabled (x : Part) : Nat := (x.sqs.filter fun e => e.2.enable).length

/-- The sticky records of a partition that feed STICKY_PENDING (R31). -/
def Part.stickyPending (x : Part) : Bool :=
  decide (x.num.events ≠ 0) || !x.num.sites.isEmpty || decide (x.fltSticky ≠ 0) || x.wit.record.valid
    || x.caps.lastStrike.getLsbD 31 || decide (x.ela.events ≠ 0)

/-- The device's sticky records that feed STICKY_PENDING: THM_STICKY, LIF_EVENTS, TST_STICKY, TST_HBMFAIL (R31). -/
def State.deviceSticky (s : State) : Bool :=
  decide (s.clk.thmSticky ≠ 0) || decide (s.clk.lifEvents ≠ 0) || decide (s.pkg.sticky ≠ 0) || decide (s.pkg.hbmFail ≠ 0)

/-- A set of numbers as a mask. -/
def maskOf (l : List Nat) : Nat := (l.eraseDups.map (2 ^ ·)).foldl (· + ·) 0

/-- The unit status summary (R31), of the whole gang unit or of this device alone. -/
def State.summaryOf (s : State) (p : Nat) (gang : Bool) : W64 :=
  let x := s.part p
  let fs := if gang then s.unitFaults p else if x.faulted then [(s.member, x.fault.code)] else []
  let f := reportedFault fs
  let first := match f with | some e => e.2 | none => 0
  let who := match f with | some e => if gang then e.1 else 0xF | none => 0xF
  let kind := if gang then 2 else if x.isDevice then 1 else 0
  let present := if gang then maskOf ((List.range 8).filter (s.reaches p)) else 1
  let faulted := if gang then maskOf (fs.map (·.1)) else if x.faulted then 1 else 0
  let sticky := x.stickyPending || s.deviceSticky || (gang && (s.peers p).any fun m => (x.gang.report m).summary.getLsbD 4)
  if !x.exist then 0
  else BitVec.ofNat 64 (first * 2 ^ 56 + who * 2 ^ 52 + kind * 2 ^ 50 + present * 2 ^ 40 + faulted * 2 ^ 32
    + maskOf x.bays * 2 ^ 16 + x.queuesEnabled * 2 ^ 8 + (if sticky then 16 else 0) + if gang then s.unitState p else x.stateCode)

/-- The unit status summary of a partition: of its gang unit where it is the lead's (R31, R35). -/
def State.summary (s : State) (p : Nat) : W64 := s.summaryOf p (s.part p).isLead

/-! ### Completion queues (R411, R414) -/

/-- Submission queue `q`. -/
def Part.sq (x : Part) (q : Nat) : SubQ := mget SubQ.reset x.sqs q
/-- Write submission queue `q`. -/
def Part.setSq (x : Part) (q : Nat) (v : SubQ) : Part := { x with sqs := mset SubQ.reset x.sqs q v }
/-- Completion queue `q`. -/
def Part.cq (x : Part) (q : Nat) : CplQ := mget CplQ.reset x.cqs q
/-- Write completion queue `q`. -/
def Part.setCq (x : Part) (q : Nat) (v : CplQ) : Part := { x with cqs := mset CplQ.reset x.cqs q v }

/-- The 32 bytes of a completion entry (R414). -/
def completionBytes (c : Completion) (phase : Bool) (head : Nat) : List Byte :=
  leBytes 2 c.cid ++ leBytes 1 c.status
    ++ leBytes 1 ((if phase then 1 else 0) + (if c.merged then 2 else 0) + (if c.admission then 4 else 0))
    ++ leBytes 1 c.sq ++ leBytes 1 c.member ++ leBytes 2 head ++ leBytes 4 c.csn.toNat ++ leBytes 4 c.d0.toNat
    ++ leBytes 8 c.d1.toNat ++ leBytes 8 c.time.toNat

/-- Is a completion queue full: has the host consumed none of its entries (R411)? -/
def CplQ.full (c : CplQ) : Bool := decide (2 ^ c.log2 ≤ c.used)

/-- Write the completions a queue holds back, in order, as far as the queue and the link allow (R411, R434); at most `n`. -/
def State.flushCq (s : State) (p q : Nat) : Nat → State
  | 0 => s
  | n + 1 =>
    let x := s.part p
    let c := x.cq q
    match c.held with
    | [] => s
    | e :: rest =>
      if !(s.dlUp && c.enable && !c.full) then s
      else
        let wrap := decide (c.tail + 1 = 2 ^ c.log2)
        let s := s.modPart p fun x => x.setCq q { c with
          held := rest, tail := (c.tail + 1) % 2 ^ c.log2, used := c.used + 1, phase := if wrap then !c.phase else c.phase }
        let s := s.send (.hostWrite (c.base.toNat + 32 * c.tail) (completionBytes e c.phase (x.sq e.sq).head) false false)
        let s := if c.irqEn && !e.noIrq then s.send (.msix (x.function p) q) else s
        s.flushCq p q n

/-- Post a completion to queue `q`: behind those already held (R411). -/
def State.post (s : State) (p q : Nat) (e : Completion) : State :=
  let c := (s.part p).cq q
  (s.modPart p fun x => x.setCq q { c with held := c.held ++ [e] }).flushCq p q (c.held.length + 1)

/-- Write what every queue of a partition holds back. -/
def State.flushAll (s : State) (p : Nat) : State :=
  (List.range 16).foldl (fun (s : State) q => s.flushCq p q ((s.part p).cq q).held.length) s

/-! ### Commands in hand (R412 to R417) -/

/-- A command by its key. -/
def Part.cmd (x : Part) (key : Nat) : Option Cmd := x.cmds.find? fun c => decide (c.key = key)

/-- Change a command. -/
def Part.modCmd (x : Part) (key : Nat) (f : Cmd → Cmd) : Part :=
  { x with cmds := x.cmds.map fun c => if c.key = key then f c else c }

/-- `n` operand bytes at command offset 0x10 + `off`, as a number (R413). -/
def Cmd.arg (c : Cmd) (off n : Nat) : Nat := leNat ((c.args.drop off).take n)

/-- DEADLINE of a SET_VARIANT in seconds, 0 for none; above 600 it is 600 (R362). -/
def Cmd.deadlineSecs (c : Cmd) : Nat := min 600 (c.arg 4 2 % 1024)

/-- This device's own part of a forwarded command is done (R34). -/
def Cmd.localDone (c : Cmd) (me : Nat) : Bool := c.answers.any fun a => decide (a.1 = me)

/-- DETAIL0 and DETAIL1 of a RUN_STEPS, any status (R417). -/
def runDetails (x : Part) (c : Cmd) : W32 × W64 :=
  (BitVec.ofNat 32 c.stepsRun, BitVec.ofNat 64 (c.stepsBad * 2 ^ 32 + x.num.step.toNat % 2 ^ 32))

/-- The merged completion: the reported fault's among the members that have faulted on the command, each with the fault its record
holds (`known`), else the lowest member's whose status is not OK, else the lead's own (R34, R35). -/
def mergeAnswers (known : List (Nat × Nat)) (me : Nat) (c : Cmd) (time : W64) : Completion :=
  let blank : Completion := ⟨c.cid, 0, true, false, c.sq, 0xF, c.csn, 0, 0, time, c.noIrq⟩
  let own := match c.answers.find? fun a => decide (a.1 = me) with | some a => a.2 | none => blank
  let faults := known.filter fun f => c.answers.any fun a => decide (a.1 = f.1) && decide (a.2.status = f.2)
  match reportedFault faults with
  | some f =>
    match c.answers.find? fun a => decide (a.1 = f.1) with
    | some a => { a.2 with cid := c.cid, merged := true, member := f.1, sq := c.sq, csn := c.csn, time := time, noIrq := c.noIrq }
    | none => { own with merged := true, time := time }
  | none =>
    let bad := c.answers.filter fun a => decide (a.2.status ≠ 0)
    match (reportedFault (bad.map fun a => (a.1, a.2.status))).bind fun f => bad.find? fun a => decide (a.1 = f.1) with
    | some a => { a.2 with cid := c.cid, merged := true, member := 0xF, sq := c.sq, csn := c.csn, time := time, noIrq := c.noIrq }
    | none => { own with cid := c.cid, merged := true, member := 0xF, time := time }

/-- Remove a command, end what it reads, and free its descriptor slot. -/
def State.dropCmd (s : State) (p : Nat) (c : Cmd) : State :=
  let s := (s.modPart p fun x => { x with cmds := x.cmds.filter fun d => decide (d.key ≠ c.key) }).endRead p (.cmd c.key)
  match c.engine with | some e => s.engineGive e | none => s

/-- Post the merged completion once every reachable member has answered (R34 rule 1). -/
def State.tryMerge (s : State) (p key : Nat) : State :=
  let x := s.part p
  match x.cmd key with
  | none => s
  | some c =>
    let all := (List.range 8).all fun m => !(s.reaches p m) || c.answers.any fun a => decide (a.1 = m)
    if all && c.forwarded then (s.dropCmd p c).post p (x.sq c.sq).cq (mergeAnswers (s.unitFaults p) s.member c s.time) else s

/-- A command completes on this device (R34, R412 to R414, R426, R432). -/
def State.finish (s : State) (p key status : Nat) (d0 : W32) (d1 : W64) : State :=
  let x := s.part p
  match x.cmd key with
  | none => s
  | some c =>
    let e : Completion := ⟨c.cid, status, false, decide (c.origin = .admission), c.sq, 0xF, c.csn, d0, d1, s.time, c.noIrq⟩
    match c.origin with
    | .lead => (s.dropCmd p c).send (.memberCompletion p e)
    | .admission => (s.dropCmd p c).post p 0 e
    | .host =>
      if c.forwarded then
        if c.localDone s.member then s
        else (s.modPart p fun x => x.modCmd key fun c => { c with answers := c.answers ++ [(s.member, e)] }).tryMerge p key
      else (s.dropCmd p c).post p (x.sq c.sq).cq e

/-- A command completes without waiting for the members of a gang unit. -/
def State.finishNow (s : State) (p key status : Nat) (d0 : W32) (d1 : W64) : State :=
  (s.modPart p fun x => x.modCmd key fun c => { c with forwarded := false }).finish p key status d0 d1

/-- A RUN_STEPS completes with the details of R417. -/
def State.finishRun (s : State) (p key status : Nat) : State :=
  match (s.part p).cmd key with
  | none => s
  | some c => let d := runDetails (s.part p) c; s.finish p key status d.1 d.2

/-- A command completes whatever its kind: RUN_STEPS with its own details. -/
def State.finishAny (s : State) (p key status : Nat) (d0 : W32) (d1 : W64) : State :=
  match (s.part p).cmd key with
  | none => s
  | some c => if c.op = 3 then s.finishRun p key status else s.finish p key status d0 d1

/-- Post a lead's own completion of a forwarded command, naming a member (R34 rules 2 and 3). -/
def State.finishForwarded (s : State) (p : Nat) (c : Cmd) (status member : Nat) : State :=
  let d := if c.op = 3 then runDetails (s.part p) c else (0, 0)
  (s.dropCmd p c).post p ((s.part p).sq c.sq).cq ⟨c.cid, status, true, false, c.sq, member, c.csn, d.1, d.2, s.time, c.noIrq⟩

/-- The lowest member that passes a test and has not completed a forwarded command. -/
def State.openMember (s : State) (p : Nat) (c : Cmd) (f : Nat → Bool) : Option Nat :=
  (List.range 8).find? fun m => (s.part p).gang.present.getLsbD m && f m && !(c.answers.any fun a => decide (a.1 = m))

/-- Forwarded commands whose completion by a member that is unreachable will not come complete with PEER_LOST (R34 rule 3). -/
def State.mergeLost (s : State) (p : Nat) : State :=
  ((s.part p).cmds.filter (·.forwarded)).foldl (fun (s : State) c =>
    match s.openMember p c fun m => !(s.reaches p m) with
    | some m => s.finishForwarded p c cPeerLost m
    | none => s) s

/-- A control command (R412). -/
def isControl (op : Nat) : Bool := [1, 2, 3, 4, 5, 6, 0x30, 0x31].contains op

/-- The control command that runs, if any. -/
def State.runningControl (s : State) (p : Nat) : Option Cmd :=
  (s.part p).cmds.find? fun c => isControl c.op && c.started && !(c.localDone s.member)

/-- The states in which a command's row lists it (R415); SET_VARIANT is also taken while RESHAPING, since R399 answers a
second one with BUSY and lets a CANCEL through (DEDUCED, log 59). FAULTED admits five commands only (R415). -/
def cmdStates : Nat → List Nat
  | 0x01 => [0]
  | 0x02 => [1, 7, 4]
  | 0x03 => [1, 2]
  | 0x04 => [1, 2, 3]
  | 0x05 => [1, 2, 4]
  | 0x06 => [1]
  | 0x10 => [0, 1, 2, 3, 4, 5]
  | 0x11 => [0, 1, 2, 3, 4, 5, 7]
  | 0x20 => [0, 1, 2, 3, 4, 5, 6]
  | 0x21 => [0, 1, 2, 3, 4, 5, 6, 7]
  | 0x22 => [0, 1, 2, 3, 4, 5, 6, 7]
  | 0x30 => [0, 1, 2, 3, 4, 5]
  | 0x31 => [0, 1, 7, 4]
  | _ => []

/-- Does the command need an open tenancy (R415)? -/
def needsTenancy (op : Nat) : Bool := [1, 3, 4, 5, 6, 0x10, 0x11].contains op

/-- The operand bytes each command uses: offset from 0x10 and size (R415). -/
def operandBytesOf : Nat → List (Nat × Nat)
  | 0x01 | 0x05 | 0x06 => [(0, 16)]
  | 0x03 => [(0, 4)]
  | 0x04 => [(0, 3), (4, 2), (8, 8)]
  | 0x10 | 0x11 => [(0, 24)]
  | 0x21 => [(0, 12)]
  | 0x22 => [(0, 2), (4, 16)]
  | 0x30 => [(0, 8)]
  | _ => []

/-- OPFLAGS bits a command defines (R415). -/
def opflagBits : Nat → Nat
  | 0x01 => 3
  | 0x02 | 0x03 | 0x20 => 1
  | _ => 0

/-- Is a command well formed (R413, R415, R362)? -/
def cmdOk (b : List Byte) : Bool :=
  let op := leNat (b.take 1)
  let f (off n : Nat) : Nat := leNat ((b.drop off).take n)
  let used (i : Nat) : Bool := (operandBytesOf op).any fun e => decide (e.1 ≤ i) && decide (i < e.1 + e.2)
  decide (b.length = 64) && !(cmdStates op).isEmpty && decide (f 1 1 < 2) && decide (f 12 4 = 0)
    && decide (f 8 4 ≤ opflagBits op)
    && ((List.range 48).all fun i => used i || decide (f (16 + i) 1 = 0))
    && (match op with
      | 0x03 => decide (f 16 4 ≠ 0)
      | 0x04 => [0, 1, 2, 3, 15].contains (f 17 1) && decide (f 18 1 < 8) && decide (f 20 2 < 1024)
      | 0x10 | 0x11 => decide (f 32 8 % 4 = 0)
      | 0x22 => decide (f 16 1 < 8) && (decide (f 17 1 < 8) || decide (f 17 1 = 0xFF))
      | 0x30 => decide (f 16 8 ≠ 0)
      | _ => true)

/-- The default timeout of a command in ticks (R409, R416). -/
def Part.defaultTimeout (x : Part) (op : Nat) : Nat :=
  let f (i : Nat) : Nat := x.timeouts.toNat / 2 ^ (16 * i) % 2 ^ 16
  if op = 3 ∨ op = 0x20 then f 2 * 100000000
  else if isControl op ∧ op ≠ 0x30 ∧ op ≠ 0x31 then f 3 * 100000000
  else f 0 * 100000

/-- The command of 64 bytes, as it is kept: the timeout of a SET_VARIANT is its DEADLINE, where it gives one (R363); PART_TIMEOUT counts as it
stands now (R409). -/
def mkCmd (x : Part) (b : List Byte) (sq : Nat) (csn : W32) (origin : CmdOrigin) (time : W64) : Cmd :=
  let f (off n : Nat) : Nat := leNat ((b.drop off).take n)
  let op := f 0 1
  { key := x.nextKey, sq := sq, csn := csn, cid := f 2 2, op := op, noIrq := decide (f 1 1 % 2 = 1)
    timeout := if op = 4 ∧ f 20 2 % 1024 ≠ 0 then min 600 (f 20 2 % 1024) * 100000000 else if f 4 4 = 0 then x.defaultTimeout op else f 4 4 * 100
    collTicks := x.timeouts.toNat / 2 ^ 16 % 2 ^ 16 * 100000
    opflags := f 8 4, args := (b.drop 16).take 48, origin := origin, started := false, start := time, stepsRun := 0
    stepsBad := 0, lastBad := 0, engine := none, moved := 0, poison := none, received := time, crossed := [], ecc := false, answers := [], forwarded := false }

/-- Does the partition's state admit a command (R415)? A SET_VARIANT is also taken during recovery, to be answered BUSY (R399, R436), and one of
admission's while hove-to (R434). -/
def Part.admits (x : Part) (op : Nat) (origin : CmdOrigin) : Bool :=
  (cmdStates op).contains x.stateCode
    || (decide (op = 4) && (x.ela.run.isSome || (decide (origin = .admission) && decide (x.stateCode = 5))))

/-- The reason a well-formed command is refused when it is taken (R37, R415, R427), if any. -/
def takeRefusal (x : Part) (c : Cmd) : Option Nat :=
  if c.origin = .host ∧ x.gang.formed ∧ x.gang.role ≠ 1 then some 0x10
  else if x.leaseEnded ∧ c.origin = .host then some 0x14
  else if !(x.admits c.op c.origin) then some 0x12
  else none

/-- The data of a VC4 COMMAND message (R432). -/
def State.forwardBytes (s : State) (p : Nat) (c : Cmd) (b : List Byte) : List Byte :=
  leBytes 1 3 ++ leBytes 1 0 ++ leBytes 1 0 ++ leBytes 1 (coordX s.coord) ++ leBytes 1 (coordY s.coord)
    ++ leBytes 1 (coordZ s.coord) ++ leBytes 2 0 ++ leBytes 4 (s.part p).gang.unitId.toNat ++ leBytes 4 c.csn.toNat
    ++ leBytes 8 s.time.toNat ++ leBytes 1 c.sq ++ leBytes 7 0 ++ b

/-- The gang links to the other members, a hot spare in a member's place among them (R275, R381). -/
def State.memberLinks (s : State) (p : Nat) : List Nat := (s.peers p).map s.gangLink

/-- Take in a command: a gang lead forwards every one but host DMA; it is refused at once, or kept (R33, R412, R413, R415); one that a member
already unreachable cannot complete ends PEER_LOST (R34 rule 3). -/
def State.takeIn (s : State) (p : Nat) (b : List Byte) (sq : Nat) (csn : W32) (origin : CmdOrigin) : State :=
  let x := s.part p
  let forward := x.isLead && decide (origin = .host) && decide (leNat (b.take 1) ≠ 0x10) && decide (leNat (b.take 1) ≠ 0x11)
  let c := { mkCmd x b sq csn origin s.time with forwarded := forward }
  let s := s.modPart p fun x => { x with cmds := x.cmds ++ [c], nextKey := x.nextKey + 1 }
  let s := if forward then s.sendVc4 (s.memberLinks p) (s.forwardBytes p c b) else s
  let s :=
    if !(cmdOk b) then s.finish p c.key cIllegal 0 0
    else match x.destroy, takeRefusal x c with
      | some d, none => s.finish p c.key 0x44 d.2.1 (BitVec.ofNat 64 d.2.2.toNat)
      | some d, some r =>
        if r = 0x12 then s.finish p c.key 0x44 d.2.1 (BitVec.ofNat 64 d.2.2.toNat)
        else s.finish p c.key 0x45 (BitVec.ofNat 32 r) 0
      | none, some r => s.finish p c.key 0x45 (BitVec.ofNat 32 r) 0
      | none, none => s
  if forward then s.mergeLost p else s

/-- Can a command be taken from queue `q`: enabled, no error, not empty (R411)? -/
def Part.sqReady (x : Part) (q : Nat) : Bool :=
  let v := x.sq q
  v.enable && decide (v.error = 0) && decide (v.head ≠ v.tail)

/-- The queue dispatch takes from next: rounds in ascending number (R412). -/
def Part.nextQueue (x : Part) : Option Nat :=
  ((List.range 16).find? fun q => decide (x.nextSq ≤ q) && x.sqReady q).orElse fun _ => (List.range 16).find? x.sqReady

/-- The engine of a host DMA command on queue `q` (R256). -/
def Part.hostEngine (x : Part) (q : Nat) : Nat := 4 * x.bays.getD (q / 4 % x.bays.length) 0 + q % 4

/-- Must a command stay in its submission queue: a host DMA whose engine has no free slot (R257)? -/
def State.engineFull (s : State) (p q : Nat) (b : List Byte) : Bool :=
  (decide (leNat (b.take 1) = 0x10) || decide (leNat (b.take 1) = 0x11)) && decide (64 ≤ s.engineHeld ((s.part p).hostEngine q))

/-- COMMAND_TAKE: dispatch takes the 64 bytes `b` at the head of the next submission queue of partition `p` (R412, R413). It takes none in
D3hot (R401), during a Tack outage (R486), during a partition reset (R454), or while hove-to (R434), no host DMA whose engine is full
(R257), and no more than 1,024 are held; what is still queued on a partition that admission releases completes PREEMPTED_REEF (R426, R427).
-/
def execCommandTake (p : Nat) (b : List Byte) (s : State) : Out :=
  let x := s.part p
  match x.nextQueue with
  | none => .next s
  | some q =>
    if x.exist && s.tackUp && s.dlUp && !x.d3hot && (x.resetting.isNone || x.destroy.isSome) && decide (x.hove.state ≠ 1)
        && decide (x.cmds.length < 1024) && decide (b.length = 64) && !(s.engineFull p q b) then
      let v := x.sq q
      let s := s.modPart p fun x => { x.setSq q { v with head := (v.head + 1) % 2 ^ v.log2, csn := v.csn + 1 } with
        nextSq := (q + 1) % 16 }
      .next (s.takeIn p b q v.csn .host)
    else .next s

/-- Do two control commands run side by side: a SET_VARIANT or WARP_OUT beside a RUN_STEPS, whose steps go on or stop at the boundary for it
(R372, R423), and a second SET_VARIANT, which is answered BUSY (R399)? -/
def sideBySide (op running : Nat) : Bool :=
  (decide (running = 3) && (decide (op = 4) || decide (op = 5))) || (decide (running = 4) && decide (op = 4))

/-- May the command `key` of kind `op` start (R412, R415, R434)? Admission's commands enter the dispatch directly: no other queue holds them up
(R426). -/
def State.mayStart (s : State) (p key op : Nat) : Bool :=
  let x := s.part p
  match x.cmd key with
  | none => false
  | some c =>
    let before := x.cmds.takeWhile fun d => decide (d.key ≠ key)
    let mine := before.filter fun d => decide (d.sq = c.sq) && decide (d.origin = c.origin) && decide (c.origin ≠ .admission)
    x.exist && s.tackUp && !x.d3hot && x.resetting.isNone && !x.gang.leadLost && decide (c.op = op) && !c.started
      && (decide (x.hove.state ≠ 1) || decide (c.origin = .admission))
      && mine.all (·.started) && mine.all (fun d => decide (d.op ≠ 0x20))
      && (!(isControl op)
        || ((x.cmds.all fun d => !(isControl d.op && d.started && !(d.localDone s.member)) || sideBySide op d.op)
          && (decide (c.origin = .admission) || before.all (fun d => !(isControl d.op) || d.started))))

/-- A command starts: refused when its row does not list the state, or it needs a tenancy and none is open (R415), or the partition has been
bound into a gang unit that is not its own to lead (R37); its timeout runs from now on, for host DMA, and a DEADLINE, from when it was taken
(R257, R362, R416). -/
def State.startCmd (s : State) (p key op : Nat) (eff : Cmd → State → State) : Out :=
  let x := s.part p
  if !(s.mayStart p key op) then .next s
  else match x.cmd key with
    | none => .next s
    | some c =>
      let s := s.modPart p fun x => x.modCmd key fun c => { c with
        started := true, start := if op = 0x10 ∨ op = 0x11 ∨ (op = 4 ∧ c.deadlineSecs ≠ 0) then c.start else s.time }
      if c.origin = .host ∧ x.gang.formed ∧ x.gang.role ≠ 1 then .next (s.finish p key 0x45 0x10 0)
      else if !(x.admits op c.origin) then .next (s.finish p key 0x45 0x12 0)
      else if needsTenancy op && decide (x.tenancy = 0) then .next (s.finish p key 0x45 0x11 0)
      else .next (eff c s)

/-! ### Doorbells (R411) -/

/-- A tail doorbell reaches its queue: the ERROR checks and the new tail. -/
def SubQ.bell (v : SubQ) (d : W32) : SubQ :=
  if v.error ≠ 0 then v
  else if !v.enable then { v with error := 2 }
  else if 2 ^ v.log2 ≤ d.toNat % 65536 then { v with error := 1 }
  else { v with tail := d.toNat % 65536 }

/-- SQ_TAIL_DOORBELL: a host write of Q_SQ_TAILq (R411); held in D3hot (R401); during a Tack outage the ERROR checks are made
and the value is logged, the newest replaced beyond 1,024 (R486). -/
def execSqTailDoorbell (p q : Nat) (d : W32) (s : State) : Out :=
  let x := s.part p
  if !x.exist ∨ 16 ≤ q then .next s
  else if x.d3hot then .next (s.modPart p fun x => { x with heldBells := x.heldBells ++ [(q, false, d)] })
  else if s.tackUp then .next (s.modPart p fun x => x.setSq q ((x.sq q).bell d))
  else
    let v := (x.sq q).bell d
    let mine := x.bellLog.filter fun e => decide (e.1 = q)
    if v.error ≠ 0 then .next (s.modPart p fun x => x.setSq q { x.sq q with error := v.error })
    else .next (s.modPart p fun x => { x with
      bellLog := if mine.length < 1024 then x.bellLog ++ [(q, d)]
        else (x.bellLog.reverse.eraseP fun e => decide (e.1 = q)).reverse ++ [(q, d)] })

/-- A head doorbell reaches its queue: how far the host has read, counted forward from the last valid head; on a full queue a write of the
last head consumes every entry (R411; the last, DEDUCED, log 60). -/
def CplQ.bell (v : CplQ) (d : W32) : CplQ :=
  let h := d.toNat % 65536
  let size := 2 ^ v.log2
  if v.error ≠ 0 then v
  else if !v.enable then { v with error := 3 }
  else if size ≤ h then { v with error := 1 }
  else
    let n := (h + size - v.head % size) % size
    let n := if n = 0 && v.full then size else n
    if v.used < n then { v with error := 2 } else { v with head := h, used := v.used - n }

/-- CQ_HEAD_DOORBELL: a host write of Q_CQ_HEADq frees entries or sets ERROR, which raises vector 16 once (R411). -/
def execCqHeadDoorbell (p q : Nat) (d : W32) (s : State) : Out :=
  let x := s.part p
  if !x.exist ∨ 16 ≤ q then .next s
  else if x.d3hot then .next (s.modPart p fun x => { x with heldBells := x.heldBells ++ [(q, true, d)] })
  else
    let v := (x.cq q).bell d
    let s1 := s.modPart p fun x => x.setCq q v
    let s1 := if (x.cq q).error = 0 ∧ v.error ≠ 0 then s1.send (.msix (x.function p) 16) else s1
    .next (s1.flushCq p q v.held.length)

/-- LOG2_SIZE of a configuration word, brought into 4 to 12 (R411; outside the range, DESIGN CHOICE, log 61). -/
def log2Size (cfg : W32) : Nat := min 12 (max 4 (cfg.toNat % 16))

/-- QUEUE_ENABLE: a host write of Q_SQ_CFGq or Q_CQ_CFGq. Enabling resets the queue's pointers, and for a completion queue
its phase; re-enabling clears ERROR; held completions are then written (R411). -/
def execQueueEnable (p q : Nat) (completion : Bool) (cfg : W32) (s : State) : Out :=
  let x := s.part p
  let on := cfg.getLsbD 31
  if !x.exist ∨ 16 ≤ q then .next s
  else if completion then
    let v := x.cq q
    let v := { v with enable := on, irqEn := cfg.getLsbD 30, log2 := log2Size cfg }
    let v := if on && !(x.cq q).enable then { v with tail := 0, phase := true, head := 0, used := 0, error := 0 } else v
    .next ((s.modPart p fun x => x.setCq q v).flushCq p q v.held.length)
  else
    let v := x.sq q
    let v := { v with enable := on, cq := cfg.toNat / 65536 % 16, log2 := log2Size cfg }
    let v := if on && !(x.sq q).enable then { v with head := 0, tail := 0, csn := 0, error := 0 } else v
    .next (s.modPart p fun x => x.setSq q v)

/-! ### Tenancies (R419, R557) -/

/-- A declaration goes to the Cadastre's FIFO; at a full FIFO it is discarded and counted (R557). -/
def State.declare (s : State) (d : CadDecl) : State :=
  if s.decls.length < 32 then { s with decls := s.decls ++ [d] }
  else { s with cad := { s.cad with dropDecl := min 0xFFFF (s.cad.dropDecl + 1), declSec := s.cad.declSec + 1 } }

/-- Close the open tenancy of partition `p` with a reason of R419; a reset closes it over the ownership lines, without a
declaration (R557). -/
def State.closeTenancy (s : State) (p reason : Nat) : State :=
  if (s.part p).tenancy = 0 then s
  else
    let s := s.modPart p fun x => { x with tenancy := 0 }
    if reason = 3 then s else s.declare (.closing p reason)

/-- Complete every command of a partition that has been taken, with one status, without waiting for the members of a gang unit (R426,
R427). -/
def State.finishAll (s : State) (p status : Nat) (d0 : W32) (d1 : W64) : State :=
  (s.part p).cmds.foldl (fun (s : State) c => s.finishNow p c.key status d0 d1) s

end Sys2Proof.Machine
end

