-- ==== Sys2Proof/Machine/Variants.lean ====
section
/-! DEFINITION. Variants of the traverse family: their shapes, which of them a switch adopts, stay holders, and adopting
one (R351, R358 to R361, R372, R376). -/

namespace Sys2Proof.Machine

/-- Variant `i` of an image. -/
def Image.at' (im : Image) (i : Nat) : Option Variant := (im.variants.find? fun e => decide (e.1 = i)).map (·.2)

/-- Is variant `i` present and not marked unavailable (R267, R353)? -/
def Image.available (im : Image) (i : Nat) : Bool := (im.at' i).isSome && !im.unavailable.contains i

/-- Do two variants have one shape (R358)? -/
def sameShape (a b : Variant) : Bool :=
  decide (a.width = b.width) && decide (a.gangMask = b.gangMask) && decide (a.y0 = b.y0) && decide (a.yj = b.yj)
    && decide (a.z0 = b.z0) && decide (a.zj = b.zj)

/-- The variant of `v`'s shape with a KIND and, for a promotion variant, a LEVEL. -/
def Image.ofShape (im : Image) (v : Variant) (kind level : Nat) : Option Nat :=
  (im.variants.find? fun e => sameShape e.2 v && decide (e.2.kind = kind) && decide (e.2.level = level)).map (·.1)

/-- The variant a switch adopts in the shape of `v`, and whether PROMOTE_UNAVAILABLE is set (R361). -/
def Image.resolve (im : Image) (v : Variant) (calibrating : Bool) (level : Nat) : Option Nat × Bool :=
  let steady := im.ofShape v 1 0
  if calibrating then ((im.ofShape v 0 0).orElse fun _ => steady, false)
  else if level = 0 then (steady, false)
  else match im.ofShape v 2 level with
    | some i => (some i, false)
    | none => (steady, true)

/-- Write a variant's code blobs to the tile stores of their tiles (R422). -/
def State.installCode (s : State) (p : Nat) (v : Variant) : State :=
  v.code.foldl (fun (s : State) (e : Nat × Nat × List Byte) =>
    match (s.part p).physOf e.1 with
    | some t => s.modTile t fun x => x.tsWrite e.2.1 e.2.2
    | none => s) s

/-- The limits, thresholds and gauges that a variant's NUMERICS section gives; what the section does not list is at its reset value, and what has
been measured stays (R242, R243, R601). -/
def Numerics.withTables (n : Numerics) (t : NumTables) : Numerics :=
  { n with
    limits := t.limits.foldl (fun (m : SMap SiteLimit) e => mmod SiteLimit.zero m e.1 fun l => { l with satLimit := e.2.1, flushLimit := e.2.2 })
      (mmap SiteLimit.zero (fun _ l => { l with satLimit := 0, flushLimit := 0 }) n.limits)
    layers := t.layers.foldl (fun (m : SMap Layer) e => mmod Layer.reset m e.1 fun y => { y with low := e.2.1, high := e.2.2 })
      (mmap Layer.reset (fun _ y => { y with low := Layer.reset.low, high := Layer.reset.high }) n.layers)
    gauges := t.gauges.foldl (fun (m : SMap Gauge) e => mmod Gauge.reset m e.1 fun g => { g with
        enable := e.2.enable, layer := e.2.layer, site := e.2.site, ratioLimit := e.2.ratioLimit, streakLimit := e.2.streakLimit })
      (mmap Gauge.reset (fun _ g => { g with
        enable := false, layer := 0, site := 0, ratioLimit := Gauge.reset.ratioLimit, streakLimit := Gauge.reset.streakLimit }) n.gauges) }

/-- Partition `p` adopts variant `i`: its code where that differs, its queues empty (R345, R360, R372), and the tables of its NUMERICS section
where they differ (R420). That a variant's own sections are put in place when it is adopted is DEDUCED from the image's per-variant sections
(log 203). -/
def State.adopt (s : State) (p i : Nat) : State :=
  let x := s.part p
  match x.image.bind fun im => im.at' i with
  | none => s
  | some v =>
    let same := match x.cur with | some w => decide (w.code = v.code) | none => false
    let before := x.cur.orElse fun _ => x.image.bind fun im => im.at' im.initial
    let tables := match before with | some w => decide (w.tables = v.tables) | none => true
    let s := s.modPart p fun x =>
      let y := { x with variant := some i, level := max x.level v.level }
      let n := if tables then y.num else y.num.withTables v.tables
      { y.queuesBoundary with num := { n with firstUse := decide (v.kind = 0) } }
    if same then s else s.installCode p v

/-! ### Stay holders (R351) -/

/-- The offset that `k` pairs with along an axis of extent `n` (R351). -/
def pairOf (n k : Nat) : Nat :=
  if n % 2 = 1 ∧ k = n - 1 then n - 2 else if k % 2 = 0 then k + 1 else k - 1

/-- The shard identity of this device's position (R380). -/
def State.shardId (s : State) : Nat := s.member + coordY s.coord * 256 + coordZ s.coord * 65536

/-- The position of a stage and replica of a variant's box, at this device's member index, as a shard identity. -/
def State.positionAt (s : State) (v : Variant) (stage replica : Nat) : Nat :=
  s.member + (v.y0 + stage) % 32 * 256 + (v.z0 + replica) % 32 * 65536

/-- TRIPLE_STAY of a shard table. -/
def Variant.tripleStay (v : Variant) : Bool := decide (v.flags / 2 % 2 = 1)

/-- The stay holders of this device, first and second (R351). -/
def State.holders (s : State) (v : Variant) : List Nat :=
  let y := s.stageOf v
  let z := s.replicaOf v
  let onY := s.positionAt v (pairOf v.yj y) z
  if v.zj ≥ 2 then
    s.positionAt v y (pairOf v.zj z) :: (if v.tripleStay ∧ v.yj ≥ 2 then [onY] else [])
  else if v.yj ≥ 2 then [onY] else []

/-- Positions this device holds stays for (R352). -/
def State.primaries (s : State) (v : Variant) : List Nat :=
  let y := s.stageOf v
  let z := s.replicaOf v
  let alongZ := if v.zj ≥ 2 then
      ((List.range v.zj).filter fun k => decide (k ≠ z) && decide (pairOf v.zj k = z)).map fun k => s.positionAt v y k
    else []
  let alongY := if v.yj ≥ 2 ∧ (v.zj < 2 ∨ v.tripleStay) then
      ((List.range v.yj).filter fun k => decide (k ≠ y) && decide (pairOf v.yj k = y)).map fun k => s.positionAt v k z
    else []
  alongZ ++ alongY

/-- The variant a switch goes to, once it has reached the boundary; else the current one, or the one a joining partition will adopt. -/
def Part.newVariant (x : Part) : Option Variant :=
  match x.ela.run with
  | some r => if (r.pauseAt.isSome && decide (r.phase ≠ 8)) || x.cur.isNone then x.image.bind fun im => im.at' r.target else x.cur
  | none => x.cur

/-- The variant a switch in progress goes to. -/
def Part.goal (x : Part) : Option Variant :=
  match x.ela.run with
  | some r => if r.phase = 8 then none else x.image.bind fun im => im.at' r.target
  | none => none

/-- The PERSISTENT regions of a variant, in plan order. -/
def Variant.persist (v : Variant) : List Region := v.regions.filter fun r => decide (r.kind = 0)

/-- Does the switch in progress give this partition's first or second stay another holder or layout, so that it is filled anew (R372
step 7)? -/
def State.stayMoves (s : State) (p : Nat) (second : Bool) : Bool :=
  let x := s.part p
  let i := if second then 1 else 0
  match x.goal, x.cur with
  | some w, some v => decide ((s.holders v)[i]? ≠ (s.holders w)[i]?) || decide (v.persist ≠ w.persist)
  | some _, none => true
  | none, _ => false

/-- The same of the stay held for a position: another region or layout. -/
def Part.heldMoves (x : Part) (id : Nat) : Bool :=
  let at' (v : Variant) : Option Region := v.regions.find? fun r => decide (r.kind = 1) && decide (r.layer = id)
  match x.goal, x.cur with
  | some w, some v => decide (at' v ≠ at' w) || decide (v.persist ≠ w.persist)
  | some _, none => true
  | none, _ => false

/-- A switch that ends after its boundary leaves the old shape's stays as they were (R373). -/
def State.stayBack (s : State) (p : Nat) : State :=
  let x := s.part p
  match x.ela.run.bind fun r => r.stays with
  | none => s
  | some (a, b, h) =>
    let m1 := s.stayMoves p false
    let m2 := s.stayMoves p true
    let held := (h.map (·.1) ++ x.ela.held.map (·.1)).eraseDups
    s.modPart p fun x => { x with ela := { x.ela with
      stay1 := if m1 then a else x.ela.stay1, stay2 := if m2 then b else x.ela.stay2
      fill1 := x.ela.fill1 && !m1, fill2 := x.ela.fill2 && !m2, inStays := x.ela.inStays.filter fun e => !(x.heldMoves e.1)
      held := held.foldl (fun (m : SMap Stay) id => if x.heldMoves id then mset Stay.empty m id (mget Stay.empty h id) else m) x.ela.held } }

/-- After a commit a copy that was CURRENT is BEHIND until its delta completes (R376, R378). -/
def Stay.behind (y : Stay) : Stay := if y.state = 2 then { y with state := 4 } else y

/-! ### ELA_LAST and events (R395, R398) -/

/-- Set ELA_EVENTS bit `i`. -/
def Part.elaEvent (x : Part) (i : Nat) : Part :=
  { x with ela := { x.ela with events := x.ela.events ||| BitVec.ofNat 8 (2 ^ i) } }

/-- ELA_LAST (R395). -/
def elaLast (outcome abort kind frm dst pauseUs : Nat) : W64 :=
  BitVec.ofNat 64 (outcome * 2 ^ 56 + abort * 2 ^ 52 + kind * 2 ^ 48 + frm * 2 ^ 40 + dst * 2 ^ 32 + min pauseUs (2 ^ 32 - 1))

/-- Is adopting variant `i` in place of `v` a switch that R390 calls non-invariant? -/
def Image.noninv (im : Image) (v : Variant) (i : Nat) : Bool :=
  match im.at' i with
  | some w => decide (w.invGroup ≠ v.invGroup) || decide (w.descFlags % 2 = 1)
  | none => false

/-- The layers that have been promoted: the first ones of the promotion order, up to the level in force (R222). PROMOTED of a gauge reads whether
LAYER is among them (R243). -/
def Part.promotedLayers (x : Part) : List Nat := match x.image with | some im => im.promoOrder.take x.level | none => []

/-- The job has entered promotion level `k`: NUM_EVENTS.PROMOTED is set (R222, R237). -/
def Part.promoted (x : Part) (k : Nat) : Part := { x with level := k, num := x.num.event 7 }

/-- The epoch advances, collectives and exchange of the old one being gone (R295, R314). -/
def Part.advanceEpoch (x : Part) : Part := { x with caps := { x.caps with epoch := x.caps.epoch + 1 }, colls := [], exch := .none }

/-- A switch within the shape at a step boundary, to promotion level `level`, or to the steady variant or the level in force as calibration
ends (R222, R227, R360, R361, R390). The level rises only if the switch is made. Made, it has its warp epoch, one more than any held, and
CAP_EPOCH E + 1, the partitions of the job being alike in both (R370, R372). -/
def State.switchWithin (s : State) (p reason level : Nat) : State :=
  let x := s.part p
  match x.image, x.cur, x.variant with
  | some im, some v, some old =>
    let (i, miss) := im.resolve v x.num.calActive level
    let s := if miss then s.modNum p (·.event 6) else s
    let enter (x : Part) : Part := if x.level < level then x.promoted level else x
    let ends (s : State) (outcome abort i : Nat) : State := s.modPart p fun x => { x with
      ela := { x.ela with last := elaLast outcome abort reason old i 0, lastReason := reason, estimate := 0, ctrlNow := x.ela.ctrl } }
    match i with
    | none => s
    | some i =>
      if i = old then s.modPart p enter
      else if !(im.available i) then ends (s.modPart p (·.elaEvent 0)) 0x52 1 i
      else if im.noninv v i && x.ela.ctrl.getLsbD 27 then ends (s.modPart p (·.elaEvent 0)) 0x52 9 i
      else
        let s := ((s.vc5 p "muster").modPart p enter).adopt p i
        let s := s.modPart p fun x => { x.advanceEpoch with ela := { x.ela with warpEpoch := x.ela.warpEpoch + 1 } }
        let s := (s.afterEpoch p).vc5 p "switch"
        ends (if im.noninv v i then s.modPart p (·.elaEvent 7) else s) 0 0 i
  | _, _, _ => s

/-- The lowest level of the shape of `v` that includes a layer of the promotion order (R222). -/
def Image.levelFor (im : Image) (v : Variant) (layer : Nat) : Option Nat :=
  let i := im.promoOrder.findIdx fun l => decide (l = layer)
  if im.promoOrder.length ≤ i then none
  else (List.range 17).find? fun k => decide (i < k) && (im.ofShape v 2 k).isSome

/-- Does the Tack core serve promotion requests: PROMOTE_EN is in force, and calibration does not run (R222)? A request raised while PROMOTE_EN is
0 is kept, and served once it is 1 (DESIGN CHOICE: R222 does not say; log 141). -/
def Part.servesPromotion (x : Part) : Bool :=
  !x.num.calActive && x.num.ctrlStep.getLsbD 9 && !x.num.promoteReq.isEmpty

/-- The level that the requests being served need in the shape of `v`, not below the one in force, and whether a layer is in none (R222,
R244). -/
def Part.wantedLevel (x : Part) (im : Image) (v : Variant) : Nat × Bool :=
  let want := if x.servesPromotion then x.num.promoteReq.map (im.levelFor v) else []
  (want.foldl (fun (a : Nat) e => max a (e.getD 0)) x.level, want.any Option.isNone)

/-- The switches that the Tack core makes of its own accord at a step boundary: promotion (R222, R244), then the end of calibration (R227).
While a step is open, or another switch or recovery is in progress, they wait. A request whose switch is refused is spent (DESIGN CHOICE,
log 141). -/
def State.serveSwitch (s : State) (p : Nat) : State :=
  let x := s.part p
  match x.image, x.cur with
  | some im, some v =>
    if x.stepOpen || x.ela.run.isSome || x.faulted || !(x.servesPromotion || x.calDue) then s
    else
      let (top, lost) := x.wantedLevel im v
      let s := if lost then s.modNum p (·.event 6) else s
      let s := s.modPart p fun x => { x with
        calDue := false, num := { x.num with promoteReq := if x.servesPromotion then [] else x.num.promoteReq } }
      let s := if x.level < top then s.switchWithin p 4 top else s
      if x.calDue ∧ (s.part p).variant = x.variant then s.switchWithin p 5 x.level else s
  | _, _ => s

/-! ### A reshape that ends before its switch (R373) -/

/-- Duration from the boundary of a reshape to now, in µs; 0 before the boundary (R395). -/
def Reshape.pauseUs (r : Reshape) (now : W64) : Nat :=
  match r.pauseAt with | some t => (now - t).toNat / 100 | none => 0

/-- End the reshape in progress with RESHAPE_ABORTED and a reason of R373: what landed is discarded, a dirty session stops, the
old variant and its stays stay, SET_VARIANT completes; a switch of the Tack core's own that waited for it is made at the step boundary. -/
def State.endReshape (s : State) (p reason : Nat) : State :=
  let x := s.part p
  match x.ela.run with
  | none => s
  | some r =>
    let s := (s.stayBack p).modPart p fun x =>
      let x := x.elaEvent 0
      let x := if reason = 5 then x.elaEvent 6 else x
      { x with
        mem := { x.mem with dirtyActive := false, dirty := [] }
        ela := { x.ela with
          run := none, lastReason := r.reason
          last := elaLast 0x52 reason r.reason r.from' r.target (r.pauseUs s.time) } }
    let s := match r.cmd with
      | some key => s.finish p key 0x52 (BitVec.ofNat 32 reason) (BitVec.ofNat 64 r.id.toNat)
      | none => s
    s.serveSwitch p

end Sys2Proof.Machine
end

