-- ==== Sys2Proof/Machine/Training.lean ====
section
/-! DEFINITION. A training step: its start (R104, R467), a tile's end (R105), the commit exchange and the commit or discard
(R145, R146, R205 to R231, R308, R310), early abort and cut steps (R217, R374), strikes (R311 to R316), the step timeout (R446),
and the idle record (R354). -/

namespace Sys2Proof.Machine

/-! ### The start of a step -/

/-- The running RUN_STEPS, if any. -/
def State.runCmd (s : State) (p : Nat) : Option Cmd :=
  (s.part p).cmds.find? fun c => decide (c.op = 3) && c.started && !(c.localDone s.member)

/-- Tiles of a partition that have started strands and not yet reported (R105). -/
def State.tilesInStep (s : State) (p : Nat) : List Nat := (s.part p).enabled.filter fun t => (s.tile t).inStep

/-- A strand as the start list starts it (R104). -/
def startedStrand (logical strand station : Nat) (pc : W32) (arg step : W64) : Strand :=
  { Strand.reset with
    pc := pc
    s := msetList 0 [] 0 [BitVec.ofNat 64 logical, step, BitVec.ofNat 64 (station % 4096 + strand * 65536), arg]
    sched := .ready
    station := BitVec.ofNat 12 station }

/-- Start one strand on a logical tile (R104). -/
def State.startStrand (s : State) (p logical strand station : Nat) (pc : W32) (arg : W64) : State :=
  match (s.part p).physOf logical with
  | none => s
  | some t => s.modTile t fun x =>
      { (x.clearEcc 4 (64 * strand) 64).setStrand strand (startedStrand logical strand station pc arg (s.part p).num.step) with
        inStep := true, worked := true }

/-- T of the witness selection (R467). -/
def witnessThreshold (rate : Nat) : Nat :=
  if rate = 1 then 0x00400000 else if rate = 2 then 0x01000000 else if rate = 3 then 0x04000000 else 0

/-- The plan entries selected for a step (R467). -/
def witnessSelected (v : Variant) (wt : Witness) (step : W64) : List Nat :=
  ((v.wit.zipIdx).filter fun e => e.1.enabled
    && decide ((gen wt.seed (BitVec.ofNat 32 step.toNat) 0xFFFF 0 (BitVec.ofNat 64 e.2)).toNat
      < witnessThreshold wt.rate)).map (·.2)

/-- May the next step of RUN_STEPS start: no step open or ending, none of its tiles busy, no reshape at its boundary, no
checkpoint being written, the partition sound and not quiesced, Tack running (R372, R412, R423, R435, R486)? -/
def State.stepMayStart (s : State) (p : Nat) : Bool :=
  let x := s.part p
  x.sound && s.tackUp && !x.stepOpen && x.stepResult.isNone && (s.tilesInStep p).isEmpty
    && decide (x.hove.state ≠ 2) && !x.hove.quiescing
    && (match x.ela.run with | some r => decide (r.phase ≤ 2) | none => true)
    && !(x.cmds.any fun c => (decide (c.op = 5) || decide (c.op = 6)) && c.started)

/-! ### The idle record (R354) -/

/-- The sums of the TIL_ counters over the enabled tiles, latched now. -/
def State.latchIdle (s : State) (p : Nat) : State :=
  let x := s.part p
  let ts := x.enabled
  let sum (f : Tile → W64) : W64 := ts.foldl (fun (a : W64) t => a + f (s.tile t)) 0
  s.setPart p { x with idleRec :=
    { step := BitVec.ofNat 32 x.num.step.toNat, tiles := ts.length, time := s.time, busy := sum (·.busy)
      idle := mlist 0 0 ((List.range 10).map fun c => sum fun t => mget 0 t.idle c) } }

/-- IDLE_RECORD_LATCH: every 100 ms while no step runs (R354). -/
def execIdleRecordLatch (p : Nat) (s : State) : Out :=
  let x := s.part p
  if x.exist && !x.stepOpen && decide (x.idleRec.time.toNat + 10000000 ≤ s.time.toNat) then .next (s.latchIdle p)
  else .next s

/-! ### The end of a step -/

/-- The partition is quiesced: stopped, its tenancy closed with HOST_LOST (R435). -/
def State.quiesce (s : State) (p : Nat) : State :=
  let s := s.modPart p fun x => { x with hove := { x.hove with state := 2, quiescing := false } }
  s.closeTenancy p 1

/-- The numerics of a step whose tiles have all reported: what is still on its way arrives, and the site counts are latched (R204, R229 to
R231). -/
def State.closeSites (s : State) (p : Nat) : State :=
  let s := s.settleStage p
  let (n, es) := (s.part p).num.siteLimits
  (s.modPart p fun x => { x with num := n }).softEvents p (BitVec.ofNat 64 (s.part p).stepNo) es

/-- A step whose tiles have all reported has ended with a status: its site counts are latched, RUN_STEPS counts it unless it is to be
replayed, its timeout restarts, and it completes at its count, after an unclean step under STOP_UNCLEAN, or HOST_LOST when the hove-to lease
has ended (R215, R415 to R417, R435). -/
def State.stepEnd (s : State) (p : Nat) : State :=
  let x := s.part p
  match x.stepResult with
  | none => s
  | some st =>
    if !(s.tilesInStep p).isEmpty then s
    else
      let s := (s.setPart p { x with stepResult := none }).closeSites p
      let x := s.part p
      match s.runCmd p with
      | none => if x.hove.quiescing then s.quiesce p else s
      | some c =>
        let again := x.num.replayDue
        let c' := { c with
          start := s.time
          stepsRun := c.stepsRun + (if again then 0 else 1)
          stepsBad := c.stepsBad + (if again || decide (st = 0) then 0 else 1)
          lastBad := if again || decide (st = 0) then c.lastBad else st }
        let s := s.modPart p fun x => x.modCmd c.key fun _ => c'
        let ended := decide (c.arg 0 4 ≤ c'.stepsRun) || (decide (c.opflags % 2 = 1) && decide (st ≠ 0))
        if x.hove.quiescing then (s.finishRun p c.key 0x13).quiesce p
        else if ended && !again then s.finishRun p c.key c'.lastBad
        else s

/-- Is a tile's part of the step complete: its started strands INACTIVE, their operations complete (R105)? -/
def State.tileDone (s : State) (p t : Nat) : Bool :=
  let x := s.tile t
  (x.strands.all fun e => decide (e.2.sched = .inactive)) && x.mq.isEmpty && x.vq.isEmpty && x.xq.isEmpty
    && x.cq.isEmpty && x.commitOp.isNone && x.arr.isEmpty && x.portB.isNone && x.vrun.isEmpty && x.xrun.isEmpty
    && !((s.part p).colls.any fun c => decide (c.tile = t))

/-- TILE_STEP_DONE: tile `t` reports that its part of the step is complete (R105). -/
def execTileStepDone (t : Nat) (s : State) : Out :=
  match s.partOf t with
  | none => .next s
  | some p =>
    if (s.tile t).inStep && !(s.tile t).frozen && s.tileDone p t then
      .next ((s.modTile t fun x => { x with inStep := false }).stepEnd p)
    else .next s

/-! ### The commit (R146, R205, R308, R310) -/

/-- Can strand `k` cast no more: INACTIVE, or waiting in a CWAIT on 0xFFFF (R308)? -/
def State.strandSettled (s : State) (t k : Nat) : Bool :=
  !((s.tile t).strand k).started || decide (s.notReady t k = some (.cwait 0xFFFF))

/-- The LAST bucket's merged vote, for a step that has one. -/
def Part.lastVote (x : Part) : Vote :=
  let b := (x.colls.filter fun c => c.done).foldl (fun (a : BitVec 3) c => a ||| c.vote) 0
  ⟨b.getLsbD 0, b.getLsbD 1, b.getLsbD 2, false⟩

/-- Does a vector word stage something that the exchange record carries, or cast (R132, R133, R205, R213)? -/
def Numerics.stages (n : Numerics) (w : IWord) : Bool :=
  decide (opcOf w = 0x5B) || decide (opcOf w = 0x5C) || (decide (opcOf w = 0x58) && (fl105 w || n.gauged (siteOf w)))

/-- May partition `p` enter the commit exchange: every tile that started strands has committed, no strand can cast again, the collectives
are done, what the record carries has been staged, and every witness pair is resolved (R146, R204, R205, R308, R470)? -/
def State.exchangeReady (s : State) (p : Nat) : Bool :=
  let x := s.part p
  x.stepOpen && x.stepResult.isNone && !x.exch.entered && x.capsWork && x.colls.all (·.done) && x.wit.open'.isEmpty
    && !(s.stageMsgs.any fun m => decide (m.part = p) && (match m.stage with | .observe .. => true | _ => false))
    && ((x.enabled.filter fun t => (s.tile t).worked).all fun t => (s.tile t).committed)
    && (s.tilesInStep p).all fun t =>
      let y := s.tile t
      (y.cq.all fun o => decide (opcOf o.word = 0x9A))
        && !((y.vq ++ y.vrun.map (·.op)).any fun o => x.num.stages o.word)
        && y.strands.all fun e => s.strandSettled t e.1

/-- Has every write the step issued finished, so that the partition may commit (R146 condition 3)? -/
def State.writesDone (s : State) (p : Nat) : Bool :=
  (s.tilesInStep p).all fun t =>
    let y := s.tile t
    y.vq.isEmpty && y.vrun.isEmpty && y.xq.isEmpty && y.xrun.isEmpty

/-- The positions of the commit group, as shard identities ascending: every member of the gangs of the box (R205, R332). -/
def Variant.commitGroup (v : Variant) : List Nat :=
  let ms := (List.range 8).filter fun m => decide (v.gangMask / 2 ^ m % 2 = 1)
  sortBy (fun a b => decide (a ≤ b)) (((List.range v.zj).map fun z => ((List.range v.yj).map fun y =>
    ms.map fun m => positionId m ((v.y0 + y) % 32) ((v.z0 + z) % 32)).flatten).flatten)

/-- Do exchange records stand for every other position of the commit group, each once (R310)? -/
def State.allRecords (s : State) (p : Nat) (others : List (Nat × ExchRec)) : Bool :=
  match (s.part p).cur with
  | none => false
  | some v => decide (sortBy (fun a b => decide (a ≤ b)) (others.map (·.1)) = v.commitGroup.filter fun id => decide (id ≠ s.shardId))

/-- Does the commit exchange need a neighbour that is unreachable (R277)? -/
def State.exchLost (s : State) (p : Nat) : Option (Nat × Nat) := [0, 1, 2].findSome? fun a => (s.exchShape p a).bind s.collLost

/-- COMMIT_EXCHANGE: every strand is INACTIVE or waits on the commit, every witness pair is resolved, and the partition sends its
exchange record, whose vote is the LAST bucket's ORed with the local one, in the X phase (R308, R310, R470); it needs its neighbours of
every phase (R277). -/
def execCommitExchange (p : Nat) (s : State) : Out :=
  if s.exchangeReady p then
    match s.exchLost p with
    | some (l, m) => .next (s.partFault p cPeerLost true 0 (detailOf l m 0 0))
    | none =>
      let x := s.part p
      let v := x.lastVote.or x.num.vote
      .next (((s.setPart p { x with exch := ⟨true, s.time, v⟩ }).send (.exchange p x.caps.epoch (x.num.record v))).sendExchX p
        (x.num.record v))
  else .next s

/-- The exchange record of this partition merged with those of other positions (R310). -/
def Part.mergedRecord (x : Part) (others : List (Nat × ExchRec)) : ExchRec :=
  (others.foldl (fun n e => Numerics.mergeRecord n e.2) x.num).record (others.foldl (fun (v : Vote) e => v.or e.2.vote) x.exch.vote)

/-- The Y phase and then the Z phase of the commit exchange: each merges what the phases before it have merged (R310). -/
def State.sendExchYZ (s : State) (p : Nat) (others : List (Nat × ExchRec)) : State :=
  match (s.part p).cur with
  | none => s
  | some v =>
    let stage (id : Nat) : Nat := (id / 256 % 32 + 32 - v.y0 % 32) % 32
    let replica (id : Nat) : Nat := (id / 65536 % 32 + 32 - v.z0 % 32) % 32
    let s := s.sendExchAxis p 1 fun ks => (s.part p).mergedRecord (others.filter fun e =>
      decide (replica e.1 = s.replicaOf v) && ks.contains (stage e.1))
    s.sendExchAxis p 2 fun ks => (s.part p).mergedRecord (others.filter fun e => ks.contains (replica e.1))

/-- COMMITs and LAST buckets complete with the commit or discard (R146, R205). -/
def State.completeCommits (s : State) (p : Nat) (v : Vote) : State :=
  let x := s.part p
  let s := x.colls.foldl (fun (s : State) r => s.retireColl p r (statusWord v true false)) s
  x.enabled.foldl (fun (s : State) t => s.modTile t fun y => { y with
    commitOp := none, cq := y.cq.filter fun o => decide (opcOf o.word ≠ 0x9A) }) s

/-- A step boundary: the epoch advances and the stage queues return to their first state (R295, R345). -/
def Part.nextEpoch (x : Part) : Part := x.queuesBoundary.advanceEpoch

/-- The slots that collectives of the ended epoch hold are free again, a destination slot with unspecified contents, and what waits
in the collective queues is gone (R192, R217, R314). -/
def State.endColls (s : State) (p : Nat) : State :=
  let s := s.struckSlots p
  let free (s : State) (t : Nat) (w : IWord) : State :=
    if collSlot w then s.modTile t fun x => let x := x.slotDone (saOf w); if saOf w = sbOf w then x else x.slotDone (sbOf w)
    else s
  let s := (s.part p).colls.foldl (fun (s : State) r => free s r.tile r.op.word) s
  (s.part p).enabled.foldl (fun (s : State) t =>
    let s := (s.tile t).cq.foldl (fun (s : State) o => if opcOf o.word = 0x90 then free s t o.word else s) s
    s.modTile t fun x => { x with cq := [], commitOp := none }) s

/-! ### Strikes (R311 to R316) -/

/-- CAP_LAST_STRIKE (R329). -/
def strikeWord (k : Strike) (originated : Bool) : W64 :=
  BitVec.ofNat 64 (k.epoch.toNat * 2 ^ 32 + 2 ^ 31 + (if originated then 2 ^ 29 else 0) + k.code * 2 ^ 21 + k.z * 2 ^ 16
    + k.y * 2 ^ 8 + k.x)

/-- Write CAP_LAST_STRIKE, unless it is valid (R314). -/
def CapRegs.recordStrike (c : CapRegs) (k : Strike) (originated : Bool) : CapRegs :=
  if c.lastStrike.getLsbD 31 then c else { c with lastStrike := strikeWord k originated }

/-- Stop the strands of the step: those started become INACTIVE, barriers close (R217, R374). -/
def State.stopStrands (s : State) (p : Nat) : State :=
  (s.tilesInStep p).foldl (fun (s : State) t => s.modTile t fun x => { x with
    strands := mmap Strand.reset (fun _ v => if v.started then { v with sched := .inactive } else v) x.strands
    bars := [] }) s

/-- End the open step by discard, without a fault: LOSS_NONFINITE after an early abort (R217), PREEMPTED_REEF for a cut step,
which changes no persistent state, not even L (R374). -/
def State.discardNow (s : State) (p status : Nat) (v : Vote) : State :=
  let s := (s.stopStrands p).endColls p
  let x := s.part p
  let n := x.num
  let n := if status = 0x61 then n.discardStep v true
    else { n.clearStaged with committed := false, replayDue := false, replays := 0 }
  let s := s.setPart p { x.nextEpoch with
    num := { n with global := some v }, stepOpen := false, stepResult := some status, earlyAbort := false
    commitStatus := some (statusWord v true false)
    wit := { x.wit with unmatched := sat32 x.wit.unmatched x.wit.open'.length, open' := [], arrived := [] } }
  (((s.afterEpoch p).serveSwitch p).latchIdle p).stepEnd p

/-- Apply a strike of the partition's present or an earlier discarded epoch (R314, R315): collectives and exchange stop, the
epoch advances (R295), and COLL_ABORT, which is not originating, is raised. The stage queues stay until the step's boundary (R356). -/
def State.applyStrike (s : State) (p : Nat) (k : Strike) : State :=
  let ended := s.openColls p
  let s := s.struckSlots p
  let s := s.modPart p fun x =>
    let y := x.advanceEpoch
    { y with
      ela := { y.ela with stopped := if x.exch.entered then some x.exch else y.ela.stopped }
      aborted := ended ++ y.aborted, caps := { (y.caps.recordStrike k false) with received := sat16 y.caps.received 1 } }
  (s.afterEpoch p).partFault p cCollAbort false 0 (detailOf k.code k.x (k.y * 256 + k.z) k.epoch.toNat)

/-- The vote with which a step ends that another partition's LOSSCHK has ended: its NAN or INF is set, which of them the notice does not
say (R217, R312). -/
def State.abortVote (s : State) (v : Vote) : Vote :=
  if Config.abortNan s.free then { v with nan := true } else { v with inf := true }

/-- What a strike or notice does to partition `p`, by the epoch it names (R315, R316). A notice of the current epoch before its step is
open waits for the step. -/
def State.meetStrike (s : State) (p : Nat) (k : Strike) : State :=
  let x := s.part p
  let hold : State := s.setPart p { x with caps := { x.caps with held := x.caps.held ++ [k] } }
  if newerEpoch k.epoch x.caps.epoch then hold
  else if k.kind = 2 then
    if k.epoch ≠ x.caps.epoch || !x.sound then s
    else if x.stepOpen then { s with free := s.free + 1 }.discardNow p 0x61 (s.abortVote x.num.vote)
    else hold
  else if x.caps.committedEpochs.contains k.epoch then
    s.setPart p { x with caps := { x.caps with ignored := sat32 x.caps.ignored 1 } }
  else s.applyStrike p k

/-- Strikes held for the epoch now current, and notices once its step is open, are applied (R315, R316); at most `n`. -/
def State.heldStrikes (s : State) (p : Nat) : Nat → State
  | 0 => s
  | n + 1 =>
    let x := s.part p
    match x.caps.held.find? fun k => decide (k.epoch = x.caps.epoch) && (decide (k.kind ≠ 2) || x.stepOpen) with
    | none => s
    | some k =>
      let s := s.setPart p { x with caps := { x.caps with held := x.caps.held.erase k } }
      (s.meetStrike p k).heldStrikes p n

/-- The lower median of a list of durations (R374, R386). -/
def lowerMedian (l : List W64) : Nat := (sortBy (fun a b => decide (a ≤ b)) (l.map (·.toNat))).getD ((l.length - 1) / 2) 0

/-- Ticks to send `n` bytes at 562.5 GB/s: 5,625 bytes a tick (R374). -/
def bundleTicks (n : Nat) : Nat := (n + 5624) / 5625

/-- Device time of the running step's expected boundary (R374); now, when no step is open. -/
def State.expectedBoundary (s : State) (p : Nat) : Nat :=
  let x := s.part p
  if x.stepOpen then max s.time.toNat (x.stepStart.toNat + lowerMedian x.ela.durations) else s.time.toNat

/-- Ticks a reef needs after the step's boundary: PEAK_BYTES of its plan at 562.5 GB/s, and 1 s (R374). -/
def Part.reefTicks (x : Part) (plan : Option Nat) : Nat :=
  let peak := match x.image with
    | some im => (match plan.bind fun k => im.plans[k]? with | some pl => pl.peak | none => 0)
    | none => 0
  bundleTicks peak + 100000000

/-- When the running step is to be cut for a reef: CUT_STEP is in force and the expected boundary lies too late for the deadline (R374). -/
def State.cutTime (s : State) (p : Nat) (r : Reshape) : Option W64 :=
  let x := s.part p
  match r.deadline with
  | some d =>
    let after := x.reefTicks r.plan
    if r.reason = 1 ∧ x.stepOpen ∧ x.ela.ctrlNow.getLsbD 28 ∧ d.toNat < s.expectedBoundary p + after then
      some (BitVec.ofNat 64 (d.toNat - after))
    else none
  | none => none

/-- The stage queues of stage `y` at the start of a step: the producer holds D credits, and a LOCAL queue's ring is empty (R344 rule 1). Entries
that a Y queue's producer has sent in its own step, begun earlier, stay. -/
def Part.queuesStart (x : Part) (y : Nat) : Part :=
  match x.cur with
  | none => x
  | some v =>
    { x with queues := v.queues.zipIdx.foldl (fun m e =>
        if e.1.dir = 0 ∨ e.1.producerStage = y then mset QueueState.zero m e.2 ((mget QueueState.zero m e.2).boundary e.1.depth) else m) x.queues }

/-- STEP_START: a step of RUN_STEPS, or a replay, begins: NUM_CTRL in force is fixed (R233), every strand of the start list and
of a selected witness entry is started (R104, R467), the vote is clean, and the moment to cut it for a reef is computed (R374). -/
def execStepStart (p : Nat) (s : State) : Out :=
  let x := s.part p
  match s.runCmd p, x.cur with
  | some _, some v =>
    if s.stepMayStart p then
      let sel := witnessSelected v x.wit x.num.step
      let s := x.enabled.foldl (fun (s : State) t => s.modTile t fun y => { y with
        worked := false, committed := false, commitOp := none, siteIssues := [], accIssues := [], bars := [] }) s
      let s := v.starts.foldl (fun (s : State) e => s.startStrand p e.tile e.strand e.station.toNat e.pc e.arg) s
      let s := sel.foldl (fun (s : State) i =>
        match v.wit[i]? with
        | some w => s.startStrand p w.wTile w.wStrand w.station w.pc w.arg
        | none => s) s
      let s := s.modPart p fun x => { x.queuesStart (s.stageOf v) with
        stepOpen := true, stepStart := s.time, stepNo := x.num.step.toNat, commitStatus := none, exch := .none, earlyAbort := false, collDone := []
        image := x.image.map fun im => { im with ran := true }
        num := { x.num with ctrlStep := x.num.ctrl, replayDue := false, vote := .clean, global := none }
        wit := { x.wit with selected := sat32 x.wit.selected sel.length, open' := sel, arrived := [] }
        ela := { x.ela with
          ctrlNow := x.ela.ctrl, stopped := none
          units := mmap BackupRec.zero (fun _ u => { u with time := none, run := false, refused := false }) x.ela.units } }
      let s := s.modPart p fun x => { x with ela := { x.ela with run := x.ela.run.map fun r => { r with cutAt := s.cutTime p r } } }
      .next (s.heldStrikes p (s.part p).caps.held.length)
    else .next s
  | _, _ => .next s

/-- What a VC4 message of KIND 1 or 2 does on link `l` (R312, R313): a JOB the device does not hold is discarded and counted; a
copy already seen is dropped; the first is forwarded on the other links of the job, then met. -/
def State.strikeArrives (s : State) (l : Nat) (b : List Byte) : State :=
  let f (o n : Nat) : Nat := leNat ((b.drop o).take n)
  let k : Strike := ⟨f 0 1, f 1 1, f 3 1, f 4 1, f 5 1, BitVec.ofNat 32 (f 12 4)⟩
  match (List.range 12).find? fun p => (s.part p).exist && (s.part p).image.isSome && decide ((s.part p).caps.job.toNat = f 8 4) with
  | none => s.staleOn l
  | some p =>
    if (s.part p).caps.seen.contains (k.kind, k.epoch) then s
    else
      let s := s.modPart p fun x => { x with caps := { x.caps with seen := (k.kind, k.epoch) :: x.caps.seen } }
      let s := s.sendStrike p ((s.jobLinks p).filter fun m => decide (m ≠ l)) k (f 2 1 + 1) (BitVec.ofNat 64 (f 16 8))
      let s := s.meetStrike p k
      s.heldStrikes p (s.part p).caps.held.length

/-- STRIKE_RECEIVE: a strike message arrives on link `l` (R313 to R315). -/
def execStrikeReceive (l : Nat) (b : List Byte) (s : State) : Out :=
  if l < 32 ∧ leNat (b.take 1) = 1 then .next (s.strikeArrives l b) else .next s

/-- EARLY_ABORT_NOTICE: of this device's own LOSSCHK (no source), or received on a link; applied, it ends the step with
LOSS_NONFINITE (R217, R316). -/
def execEarlyAbortNotice (p : Nat) (source : Option (Nat × List Byte)) (s : State) : Out :=
  match source with
  | some (l, b) => if l < 32 ∧ leNat (b.take 1) = 2 then .next (s.strikeArrives l b) else .next s
  | none =>
    let x := s.part p
    if x.earlyAbort && x.stepOpen && x.sound then
      let s := (s.originate p 2 0 x.caps.epoch s.time).discardNow p 0x61 x.num.vote
      .next (s.heldStrikes p (s.part p).caps.held.length)
    else .next s

/-- The merge of the other partitions' exchange records into a partition's own (R310). -/
def Part.mergeOthers (x : Part) (others : List ExchRec) : Numerics × Vote :=
  (others.foldl Numerics.mergeRecord x.num, others.foldl (fun (v : Vote) r => v.or r.vote) x.exch.vote)

/-- A backup unit after a clean commit: the step's duration is kept (R386). -/
def BackupRec.commit (u : BackupRec) : BackupRec :=
  { u with durations := (u.time.toList ++ u.durations).take 32, time := none }

/-- After a clean commit: a CURRENT copy, own or held, is BEHIND until its delta completes (R376, R378); the backup units keep their
durations (R386). -/
def Ela.afterCommit (e : Ela) : Ela :=
  { e with
    stay1 := e.stay1.behind, stay2 := e.stay2.behind, held := mmap Stay.empty (fun _ h => h.behind) e.held
    units := mmap BackupRec.zero (fun _ u => u.commit) e.units }

/-- PARTITION_COMMIT: the commit exchange has completed with the records of the commit group's other partitions, by position, and every
write of the step has finished. On a clean vote
the partition switches its halves and applies what is staged, as one act; otherwise it discards. The messages of the exchange's Y and Z phases
leave with it (log 35) (R146, R205, R212 to R231, R295,
R345, R354, R360). -/
def execPartitionCommit (p : Nat) (others : List (Nat × ExchRec)) (s : State) : Out :=
  let x := s.part p
  if x.exch.entered && x.stepOpen && x.stepResult.isNone && x.capsWork && s.allRecords p others && s.writesDone p then
    let s := s.sendExchYZ p others
    let (n, v) := x.mergeOthers (others.map (·.2))
    let ok := v.isClean
    let step := n.step
    let (n, e1) := if ok then n.commitStep else (n.discardStep v false, [])
    let s := s.completeCommits p v
    let x := s.part p
    let ticks := s.time - x.exch.start
    let calEnded := decide (x.num.stepsLeft ≠ 0) && decide (n.stepsLeft = 0)
    let y := { x.nextEpoch with
      num := { n with global := some v }, stepOpen := false, stepResult := some (if ok then 0 else 0x60)
      commitStatus := some (statusWord v true ok), half := if ok then !x.half else x.half }
    let c := { y.caps with
      xchg := BitVec.ofNat 32 (min (2 ^ 32 - 1) ticks.toNat)
      committedEpochs := if ok then x.caps.epoch :: y.caps.committedEpochs else y.caps.committedEpochs }
    let el := if ok then { y.ela.afterCommit with
        durations := ((s.time - x.stepStart) :: y.ela.durations).take 32 } else y.ela
    let s := (s.setPart p { y with caps := c, ela := el }).afterEpoch p
    let s := s.softEvents p step e1
    let s := (if calEnded then s.modPart p fun x => { x with calDue := true } else s).serveSwitch p
    let s := s.latchIdle p
    let s := s.heldStrikes p (s.part p).caps.held.length
    .next (s.stepEnd p)
  else .next s

/-! ### The step timeout (R445, R446) -/

/-- The queue kind of an outstanding operation, as reason 8 codes it. -/
def queueKind (w : IWord) : Nat :=
  let o := opcOf w
  if 0x40 ≤ o ∧ o ≤ 0x43 then 0 else if 0x80 ≤ o ∧ o ≤ 0x89 then 2 else if 0x90 ≤ o ∧ o ≤ 0x9A then 3 else 1

/-- The operations of strand `k` that are not complete, oldest first. -/
def State.openOps (s : State) (t k : Nat) : List QOp :=
  let x := s.tile t
  let colls := match s.partOf t with
    | some p => ((s.part p).colls.filter fun c => decide (c.tile = t)).map (·.op)
    | none => []
  let all := x.matOps k ++ x.vecOps k ++ x.moveOps k ++ ((x.commitOp.toList ++ x.cq ++ colls).filter fun o => decide (o.strand = k))
  sortBy (fun a b => decide (a.serial ≤ b.serial)) all

/-- The wait reason, argument and value of a strand (R445). A slot held by the strand's own slot-form COLL is reported as CWAIT
on the slot (DESIGN CHOICE, log 87). -/
def State.waitReason (s : State) (t k : Nat) : Nat × Nat × Nat :=
  let v := (s.tile t).strand k
  match v.sched with
  | .inactive | .faulted =>
    match s.openOps t k with
    | o :: _ => (11, queueKind o.word, 0)
    | [] => (0, 0, 0)
  | _ =>
    match s.notReady t k with
    | none => (0, 0, 0)
    | some r =>
      match r with
      | .fetch => (12, 0, v.pc.toNat)
      | .source => (7, (match v.nextWord with
          | some w => ((scalarSources w).find? fun r => ((s.tile t).pendingRegs k).contains r).getD 0x80
          | none => 0x80), 0)
      | .matrixQueue => (8, 0, 0)
      | .vectorQueue => (8, 1, 0)
      | .moveQueue => (8, 2, 0)
      | .collQueue => (8, 3, 0)
      | .waitq n th _ => (1, n, th.toNat)
      | .bar g c _ => (2, g, c)
      | .fence m => (4, m, 0)
      | .yield c => (9, c % 65536, 0)
      | .cwait e => (3, e, 0)
      | .sqget q => (5, q, 0)
      | .sqput q => (6, q, 0)
      | .slotColl n => (3, n, 0)
      | .warp => (10, 0, 0)

/-- The least open strand of a partition: lowest logical tile, then lowest strand (R446). -/
def State.leastOpen (s : State) (p : Nat) : Option (Nat × Nat) :=
  let x := s.part p
  let open' (t k : Nat) : Bool := decide (((s.tile t).strand k).sched ≠ .inactive) || !(s.openOps t k).isEmpty
  ((List.range x.tiles).filterMap x.physOf).findSome? fun t =>
    if (s.tile t).inStep then ((List.range 512).find? (open' t)).map fun k => (t, k) else none

/-- The fault of the step's timeout: it names the least open strand (R446), and DETAIL gives what that strand waits for (R443). -/
def State.stepTimeoutFault (s : State) (p : Nat) : PendFault :=
  let x := s.part p
  let ep := if x.stepOpen then some x.caps.epoch else none
  match s.leastOpen p with
  | none => ⟨cCmdTimeout, true, none, 0, detailOf 0 0 0 0, s.time, none, ep⟩
  | some (t, k) =>
    let r := s.waitReason t k
    let v := (s.tile t).strand k
    let (pc, w) := match r.1, s.openOps t k with
      | 11, o :: _ => (o.pc, o.word)
      | _, _ => (v.pc, v.nextWord.getD 0)
    ⟨cCmdTimeout, true, some t, 0, detailOf 0 r.1 r.2.1 r.2.2, s.time, some (k, v.station.toNat, pc, w), ep⟩

/-- The DMA, PFX and SPILL instructions tile `t` has accepted and not completed, oldest first. -/
def Tile.transfers (x : Tile) : List QOp :=
  (x.xrun ++ x.xq).filter fun o => needsEngine o.word && !(x.timedOut.contains o.serial)

/-- A tile's transfer has outlived its command: an imprecise CMD_TIMEOUT with DETAIL `d`; it asks for nothing more of the host (R136,
R257, R443). -/
def State.transferTimeout (s : State) (p t : Nat) (d : W64) (o : QOp) : State :=
  ((s.holdSlots p (.tile t o.serial)).impreciseAs t o cCmdTimeout 0 d).modTile t fun x => { x with timedOut := x.timedOut ++ [o.serial] }

/-- STEP_TIMEOUT: the step's timeout expires: CMD_TIMEOUT, originating, naming the least open strand (R446), and CMD_TIMEOUT of every
transfer of the step that is not complete (R136). -/
def execStepTimeout (p : Nat) (s : State) : Out :=
  let x := s.part p
  match s.runCmd p with
  | none => .next s
  | some c =>
    if x.sound && (x.stepOpen || !(s.tilesInStep p).isEmpty) && decide (c.start.toNat + c.timeout ≤ s.time.toNat) then
      let f := s.stepTimeoutFault p
      let d := detailOf 2 (f.detail.toNat / 2 ^ 48 % 256) (f.detail.toNat / 2 ^ 32 % 65536) (f.detail.toNat % 2 ^ 32)
      let s := s.modPart p fun y => { y with pend := y.pend ++ [f] }
      .next ((s.tilesInStep p).foldl (fun (s : State) t =>
        (s.tile t).transfers.foldl (fun (s : State) o => s.transferTimeout p t d o) s) s)
    else .next s

end Sys2Proof.Machine
end

