-- ==== Sys2Proof/Machine/Reset.lean ====
section
/-! DEFINITION. Partition faults: the fault record, stopping a faulted partition, clearing the record; the partition reset, remap
and retirement (R27, R69 to R72, R269, R405, R439 to R445, R453 to R456, R475, R476). -/

namespace Sys2Proof.Machine

/-! ### The fault record (R440 to R443) -/

/-- Is some tile of the partition frozen (R442 FROZEN)? -/
def State.anyFrozen (s : State) (p : Nat) : Bool := (s.part p).bays.any fun b => (bayTiles b).any fun t => (s.tile t).frozen

/-- The tiles of some bays are frozen: none issues any more (R108, R445, R454). -/
def State.freezeBays (s : State) (bays : List Nat) : State :=
  bays.foldl (fun (s : State) b => (bayTiles b).foldl (fun (s : State) t => s.modTile t fun y => { y with halted := true }) s) s

/-- The 80 bytes of the fault record (R440, R442). -/
def FaultRec.bytes (f : FaultRec) (frozen : Bool) : List Byte :=
  if !f.valid then List.replicate 80 0
  else
    let b (c : Bool) (i : Nat) : Nat := if c then 2 ^ i else 0
    leBytes 4 (f.code * 2 ^ 24 + b f.valid 23 + b f.originating 22 + b f.precise 21 + b f.fetch 20 + b f.noStrand 19
        + b f.noTile 18 + b f.noCmd 17 + b frozen 16 + f.unreachable * 256 + f.later)
      ++ leBytes 4 (f.partition * 2 ^ 28 + f.function * 2 ^ 24 + f.queue * 2 ^ 20 + f.member * 2 ^ 16 + f.opcode * 256)
      ++ leBytes 4 f.csn.toNat ++ leBytes 4 0
      ++ leBytes 8 (f.job.toNat * 2 ^ 32 + f.variant * 2 ^ 24 + f.step)
      ++ leBytes 8 (f.station * 2 ^ 33 + f.strand * 2 ^ 24 + f.logical * 4096 + f.physId)
      ++ leBytes 8 (f.trapNo * 2 ^ 48 + f.tileLater * 2 ^ 40 + f.pc.toNat)
      ++ leBytes 8 f.addr.toNat ++ leBytes 8 f.time.toNat ++ leBytes 16 f.instr.toNat ++ leBytes 8 f.detail.toNat

/-- The record of partition `p`. -/
def State.faultBytes (s : State) (p : Nat) : List Byte := (s.part p).fault.bytes (s.anyFrozen p)

/-- Write an entry that carries the record, and its FAULT_CONT (R461). -/
def State.bookRecord (s : State) (p type : Nat) : State :=
  let b := s.faultBytes p
  let c := (s.part p).fault.code
  (s.bookEntry type p c 0 (b.take 48)).bookEntry 0x02 p c 1 (b.drop 48)

/-- Which of two faults of one cycle enters the record: originating first, then the lower logical tile, strand and code (R441). -/
def State.faultBefore (s : State) (p : Nat) (a b : PendFault) : Bool :=
  let key (f : PendFault) : List Nat :=
    let cap := f.tile.bind fun t => (s.tile t).capture
    [f.time.toNat, if f.originating then 0 else 1,
      match f.tile with | some t => ((s.part p).logicalOf t).getD 4096 | none => 4097,
      match f.strand, cap with | some e, _ => e.1 | none, some c => c.strand | none, none => 512, f.code]
  decide (key a < key b)

/-- The record a fault fills, from its tile's capture where it has one (R441, R442, R443). -/
def State.recordOf (s : State) (p : Nat) (f : PendFault) : FaultRec :=
  let x := s.part p
  let cap := if f.strand.isSome then none else f.tile.bind fun t => (s.tile t).capture
  let cmd := s.runningControl p
  let base : FaultRec := { FaultRec.zero with
    code := f.code, valid := true, originating := f.originating, noTile := f.tile.isNone, noCmd := cmd.isNone
    partition := p, function := x.function p
    queue := (cmd.map (·.sq)).getD 0, opcode := (cmd.map (·.op)).getD 0, csn := (cmd.map (·.csn)).getD 0
    member := if x.gang.formed then s.member else 0
    job := (x.image.map (·.job)).getD 0, variant := x.variant.getD 0, step := x.num.step.toNat % 2 ^ 24
    noStrand := f.strand.isNone && cap.isNone
    addr := f.addr, detail := f.detail, time := f.time }
  match f.tile, f.strand, cap with
  | some t, some (k, st, pc, w), _ =>
    { base with strand := k, station := st, pc := pc, instr := w, physId := t, logical := (x.logicalOf t).getD 0 }
  | some _, none, some c =>
    { base with
      precise := c.precise, fetch := c.fetch, noStrand := c.noStrand, station := c.station.toNat, strand := c.strand
      logical := c.logical, physId := c.physId, trapNo := c.trapNo, tileLater := c.later, pc := c.pc, addr := c.addr
      time := c.time, instr := c.instr }
  | some t, none, none => { base with physId := t, logical := (x.logicalOf t).getD 0 }
  | none, _, _ => base

/-- The faults for which a partition stops: those pending, and that of a lost lead, which stops it alone only once no control command
runs (R38). -/
def State.dueFaults (s : State) (p : Nat) : List PendFault :=
  let x := s.part p
  match x.lostFault with
  | some f => if x.pend.isEmpty && (s.runningControl p).isSome then [] else x.pend ++ [f]
  | none => x.pend

/-- A step ends with its partition's fault: its boundary, at which the stage queues are emptied and the idle record is latched (R345, R354,
R356). -/
def State.endStep (s : State) (p : Nat) : State :=
  if (s.part p).stepOpen then (s.modPart p fun x => { x.queuesBoundary with stepOpen := false }).latchIdle p else s

/-- PARTITION_FAULT_STOP: the first partition fault of `p` fills the record, is written to the field book, strikes its step,
freezes the tiles and completes the running control command; every later one only increments LATER (R441, R445). A gang lead whose
step has timed out posts the merged completion at once, naming the lowest member that has not completed (R34 rule 2). -/
def execPartitionFaultStop (p : Nat) (s : State) : Out :=
  let x := s.part p
  match s.dueFaults p with
  | [] => .next s
  | f0 :: rest =>
    if x.fault.valid then
      .next (s.setPart p { x with
        pend := [], lostFault := none, fault := { x.fault with later := min 255 (x.fault.later + (rest.length + 1)) } })
    else
      let f := rest.foldl (fun (a : PendFault) b => if s.faultBefore p b a then b else a) f0
      let r := s.recordOf p f
      let s := s.setPart p { x with
        pend := [], lostFault := none, fault := { r with later := min 255 rest.length }, frozenAt := s.time }
      let s := s.freezeBays x.bays
      let s := (s.bookRecord p 0x01).sticky p 0
      let s := if f.code = cCmdTimeout then s.sticky p 4 else s
      let s := match f.epoch with
        | none => s
        | some e =>
          if x.caps.seen.contains (1, e) then s
          else
            let k : Strike := ⟨1, f.code, coordX s.coord, coordY s.coord, coordZ s.coord, e⟩
            ((s.struckSlots p).originate p 1 f.code e f.time).modPart p fun x => { x with caps := x.caps.recordStrike k true }
      let s := (s.endStep p).endReshape p (if f.code = cPeerLost then 8 else 0xB) |>.mergeLost p
      match s.runningControl p with
      | some c =>
        if c.forwarded ∧ f.code = cCmdTimeout ∧ f.detail.toNat / 2 ^ 56 = 0 then
          .next (s.finishForwarded p c cCmdTimeout ((s.openMember p c fun _ => true).getD 0xF))
        else .next (s.finishAny p c.key f.code 0 0)
      | none => .next s

/-- Unit `u` of partition `p` is found unreachable, during 0 a freeze or 2 a reset: an UNREACHABLE entry (R445, R454, R461). -/
def State.unitGone (s : State) (u : LateUnit) (during : Nat) : State :=
  (s.bookEntry 0x0B u.part 0 0 (leBytes 1 u.kind ++ leBytes 1 during ++ leBytes 2 u.unit)).sticky u.part 6

/-- Does a unit belong to the partition: a tile, DMA engine or HBM controller of its bays; a capstan is shared by all? -/
def Part.hasUnit (x : Part) (u : LateUnit) : Bool :=
  match u.kind with
  | 0 => x.bays.contains (bayOf u.unit)
  | 1 => x.bays.contains (u.unit / 4)
  | 2 => x.bays.contains u.unit
  | _ => true

/-- FREEZE_ACK_TIMEOUT: a tile has not acknowledged the freeze within 20 µs, or a unit has not answered within 1 ms of the start of a
reset: it is unreachable (R445, R454 step 2). -/
def execFreezeAckTimeout (u : LateUnit) (s : State) : Out :=
  let x := s.part u.part
  let dead := decide (u.kind = 0) && (s.tile u.unit).dead
  let die (s : State) : State := if u.kind = 0 then s.modTile u.unit fun y => { y with dead := true } else s
  if !x.exist || !(x.hasUnit u) || dead then .next s
  else if x.faulted && decide (u.kind = 0) && decide (x.frozenAt.toNat + 2000 ≤ s.time.toNat) then
    .next (((die s).modPart u.part fun x =>
      { x with fault := { x.fault with unreachable := min 255 (x.fault.unreachable + 1) } }).unitGone u 0)
  else if x.resetting.isSome && !(x.resetGone.contains (u.kind, u.unit)) && decide (x.resetStart.toNat + 100000 ≤ s.time.toNat) then
    .next (((die s).modPart u.part fun x => { x with resetGone := x.resetGone ++ [(u.kind, u.unit)] }).unitGone u 2)
  else .next s

/-- FLT_CLEAR: FLT_CTRL.CLEAR clears a record whose partition has no frozen tile (R444). -/
def execFltClear (p : Nat) (s : State) : Out :=
  let x := s.part p
  if x.exist && x.fault.valid && !(s.anyFrozen p) then
    .next ((s.bookRecord p 0x09).modPart p fun x => { x with fault := .zero })
  else .next s

/-! ### Remap and retirement (R27, R69 to R71, R475, R476) -/

/-- The spares of a bay: column 24 (R26). -/
def bayspares (b : Nat) : List Nat := (bayTiles b).filter fun t => decide (t % 32 = 24)

/-- The tile that stands at the place of `t`: itself, or the spare that took its place; at most `n` replacements. -/
def DevCheck.occupant (c : DevCheck) (t : Nat) : Nat → Option Nat
  | 0 => none
  | n + 1 =>
    if c.retired.contains t then
      match c.spareFor.find? fun e => decide (e.1 = t) with
      | some e => c.occupant e.2 n
      | none => none
    else some t

/-- The enabled tiles of a bay in logical order (R69). -/
def DevCheck.bayEnabled (c : DevCheck) (b : Nat) : List Nat :=
  ((bayTiles b).filter fun t => decide (t % 32 ≠ 24)).filterMap fun t => c.occupant t 10

/-- The remap table of a set of bays (R69, R71). -/
def DevCheck.remapOf (c : DevCheck) (bays : List Nat) : List W32 :=
  (bays.map c.bayEnabled).flatten.map fun t => BitVec.ofNat 32 (2 ^ 31 + (if t % 32 = 24 then 2 ^ 30 else 0) + t)

/-- Does a bay report its tiles: no factory test mode, no fuse failure, its stack trained, its PLLs and domains sound (R510, R519, R578,
R584, R585)? -/
def State.bayUp (s : State) (b : Nat) : Bool :=
  decide (s.pkg.mode = 0) && !s.pkg.fusesBad && !s.pkg.untrained.contains b && !s.clk.baysLost.contains b

/-- Enabled tiles of bay `b`: DEV_BAYTILES (R407). -/
def State.bayCount (s : State) (b : Nat) : Nat := if s.bayUp b then (s.check.bayEnabled b).length else 0

/-- Reload a partition's remap table (R71). -/
def State.reloadRemap (s : State) (p : Nat) : State :=
  s.modPart p fun x =>
    let m := s.check.remapOf (x.bays.filter s.bayUp)
    { x with remap := mlist 0 0 m, tiles := m.length }

/-- Retire a tile: its bay's lowest unused spare takes its place, if there is one (R70). -/
def DevCheck.retire (c : DevCheck) (t : Nat) : DevCheck :=
  if c.retired.contains t then c
  else
    let free := (bayspares (bayOf t)).find? fun u => decide (u ≠ t) && !c.retired.contains u && !c.spareFor.any fun e => decide (e.2 = u)
    let used := decide (t % 32 ≠ 24) || c.spareFor.any fun e => decide (e.2 = t)
    { c with
      retired := c.retired ++ [t]
      spareFor := match free with | some u => if used then c.spareFor ++ [(t, u)] else c.spareFor | none => c.spareFor }

/-- The tiles an entry of the pending list names (R475). -/
def Retire.tiles (r : Retire) : List Nat :=
  if r.cluster then (bayTiles (bayOf r.phys)).filter fun t => decide (clusterOf t = clusterOf r.phys) else [r.phys]

/-- Fill the pending list from the backlog (R476). -/
def DevCheck.refill (c : DevCheck) : DevCheck :=
  let n := 16 - c.pending.length
  { c with pending := c.pending ++ c.backlog.take n, backlog := c.backlog.drop n }

/-- A RETIRE entry (R461): action 0 scheduled, 1 done, 2 held. -/
def State.bookRetire (s : State) (t cause action : Nat) : State :=
  s.bookEntry 0x0D ((s.partOf t).getD 0xF) 0 0 (leBytes 2 t ++ leBytes 1 cause ++ leBytes 1 action)

/-- Apply the scheduled retirements of tiles that pass a test; RETIRE_HOLD holds them (R475, R476). The tiles retired are
returned, with what replaced the first. -/
def State.applyRetirements (s : State) (mine : Nat → Bool) : State × List Nat :=
  let due := (s.check.pending ++ s.check.backlog).filter fun r => mine r.phys
  if s.check.hold then (due.foldl (fun (s : State) r => s.bookRetire r.phys r.cause 2) s, [])
  else
    let tiles := (due.map fun r => r.tiles.filter fun t => !s.check.retired.contains t).flatten.eraseDups
    let c := tiles.foldl DevCheck.retire s.check
    let c := { c with
      pending := c.pending.filter fun r => !(mine r.phys)
      backlog := c.backlog.filter fun r => !(mine r.phys) }
    let s := tiles.foldl (fun (s : State) t => s.lifeAdd (0x8A8 + clusterOf t) 1) { s with check := c.refill }
    let s := tiles.foldl (fun (s : State) t => (s.historyAdd 0 t).writeStatus) s
    (due.foldl (fun (s : State) r => s.bookRetire r.phys r.cause 1) s, tiles)

/-- Retirements of tiles that belong to no partition apply at once (R475). -/
def State.retireFree (s : State) : State := (s.applyRetirements fun t => (s.partOf t).isNone).1

/-- Schedule a tile for retirement, once; three tiles of one cluster within 720 operating hours schedule the cluster; a tile of no
partition is retired at once (R475, R476). -/
def State.schedule (s : State) (t cause : Nat) : State :=
  let c := s.check
  if c.retired.contains t || (c.pending ++ c.backlog).any (fun r => r.tiles.contains t) then s
  else
    let recent := (c.scheduled.filter fun e => decide (clusterOf e.1 = clusterOf t)
      && decide (s.time.toNat ≤ e.2.toNat + 720 * 3600 * 100000000)).map (·.1)
    let whole := decide (2 ≤ (recent.filter fun u => decide (u ≠ t)).eraseDups.length)
    let drop (l : List Retire) : List Retire :=
      if whole then l.filter fun r => decide (clusterOf r.phys ≠ clusterOf t) else l
    let c := { c with
      scheduled := c.scheduled ++ [(t, s.time)], pending := drop c.pending
      backlog := drop c.backlog ++ [Retire.mk whole cause t] }
    (({ s with check := c.refill }).bookRetire t cause 0).retireFree

/-! ### The partition reset (R405, R454) -/

/-- A dump ends: its state, sticky bit and DUMP entry; it leaves the queue (R448, R452). -/
def State.closeDump (s : State) (p state : Nat) : State :=
  let s := s.modPart p fun x => { x with dump := { x.dump with state := state } }
  let s := if state = 4 ∨ state = 5 then s.sticky p 5 else s
  let d := (s.part p).dump
  let s := s.bookEntry 0x0A p 0 0 (leBytes 1 1 ++ leBytes 1 state ++ leBytes 2 0 ++ leBytes 4 d.holes.toNat
    ++ leBytes 8 d.bytes.toNat ++ leBytes 2 d.unreachable)
  { s with dumps := s.dumps.filter fun q => decide (q ≠ p) }

/-- The first queued dump of a list runs; each with LEN 0 ends at once as NO_BUFFER (R448). -/
def State.nextDump (s : State) : List Nat → State
  | [] => s
  | q :: rest =>
    let d := (s.part q).dump
    if d.state ≠ 1 then s
    else
      let s := (s.modPart q fun x => { x with dump := { x.dump with state := 2, start := s.time } }).bookEntry 0x0A q 0 0
        (leBytes 1 0 ++ leBytes 1 2)
      if d.len = 0 then (s.closeDump q 6).nextDump rest else s

/-- End a dump as ABORTED or otherwise; the next queued one runs (R448, R452). -/
def State.endDump (s : State) (p state : Nat) : State :=
  let s := s.closeDump p state
  s.nextDump s.dumps

/-- A partition reset begins, with its cause (R405, R452, R454 steps 1 to 3): commands complete, the tenancy closes, the tiles freeze, a
valid record is written to the field book; a dump ends unless the reset is the automatic one; CLOSE_TENANCY meets no tenancy (R436). An FLR
during a reset makes it the reset of an FLR. -/
def State.beginReset (s : State) (p cause : Nat) : State :=
  let x := s.part p
  if !x.exist then s
  else if x.resetting.isSome then (if cause = 1 then s.modPart p fun x => { x with resetting := some 1 } else s)
  else
    let st := if x.faulted then x.fault.code else cCmdTimeout
    let s := x.cmds.foldl (fun (s : State) c =>
      if c.op = 0x31 then s.finishNow p c.key 0x45 0x11 0 else s.finishNow p c.key st 0xFFFFFFFF 0) s
    let s := s.closeTenancy p 3
    let s := if x.faulted then s.bookRecord p 0x09 else s
    let s := if cause ≠ 5 ∧ (x.dump.state = 1 ∨ x.dump.state = 2) then s.endDump p 5 else s
    (s.freezeBays x.bays).modPart p fun x => { x with
      resetting := some cause, resetStart := s.time, resetGone := []
      ela := { x.ela with run := if cause = 4 then x.ela.run else none } }

/-- What a partition's registers are after its reset (R233, R269, R328, R405, R455, R471). -/
def Part.afterReset (x : Part) (flr : Bool) : Part :=
  { Part.reset with
    exist := x.exist, bays := x.bays, remap := x.remap, tiles := x.tiles
    num := { Numerics.reset with
      sites := x.num.sites, events := x.num.events, limits := x.num.limits, window := x.num.window }
    mem := { MemRec.reset with lentEpoch := x.mem.lentEpoch + 1 }
    hostWin := if flr then [] else x.hostWin
    slots := mmap ReqSlot.zero (fun _ r => { ReqSlot.zero with epoch := r.epoch, used := r.used + bitNat (r.waiting || decide (r.used ≠ 0)), held := r.held || r.waiting }) x.slots
    slotBase := x.slotBase + 1
    caps := { CapRegs.reset with lastStrike := x.caps.lastStrike }
    fltSticky := x.fltSticky, gang := if flr then .reset else { x.gang with leadLost := false }
    cls := x.cls, timeouts := x.timeouts, bar2Base := x.bar2Base
    sqs := if flr then [] else x.sqs
    cqs := if flr then [] else x.cqs
    nextKey := x.nextKey, nextSq := if flr then 0 else x.nextSq
    hove := { x.hove with state := 0, cause := 0, quiescing := false }
    leaseEnded := x.leaseEnded
    ela := { Ela.reset with
      ctrl := x.ela.ctrl, ctrlNow := x.ela.ctrlNow, run := if x.resetting = some 4 then x.ela.run else none, lastReason := x.ela.lastReason, warpEpoch := x.ela.warpEpoch, last := x.ela.last
      lost := x.ela.lost, backup := x.ela.backup, events := x.ela.events, wave := x.ela.wave
      lostPositions := x.ela.lostPositions, spares := x.ela.spares, staleStep := x.ela.staleStep }
    d3hot := x.d3hot, heldBells := if flr then [] else x.heldBells, bellLog := if flr then [] else x.bellLog
    autoReset := x.autoReset, dump := x.dump
    wit := { Witness.reset with action := x.wit.action, rate := x.wit.rate, seed := x.wit.seed, record := x.wit.record }
    destroy := x.destroy }

/-- The stacks and tiles of bay `b` are zeroed, its engines' descriptors abandoned (R72, R269). -/
def State.zeroBay (s : State) (b : Nat) : State :=
  { s with
    hbm := mclear s.hbm (b * 2 ^ 36) ((b + 1) * 2 ^ 36)
    hbmErr := mclear s.hbmErr (b * 2 ^ 31) ((b + 1) * 2 ^ 31)
    hbmPoison := mclear s.hbmPoison (b * 2 ^ 31) ((b + 1) * 2 ^ 31)
    engines := mclear s.engines (4 * b) (4 * b + 4)
    tiles := s.tiles.filter fun e => decide (bayOf e.1 ≠ b) }

/-- The rest of a partition reset (R454 steps 4 to 6): memory and tiles zeroed, scheduled retirements and those of tiles that did not
complete their zeroing applied (R456), the remap reloaded, registers set, the RESET entry written; a partition left with fewer
tiles than its traverse needed holds LOAD_REFUSED_CAPACITY (R27). -/
def State.endReset (s : State) (p : Nat) (failed : List Nat) : State :=
  let x := s.part p
  match x.resetting with
  | none => s
  | some cause =>
    let need := match x.image with | some im => im.tilesNeeded | none => 0
    let bays := x.bays
    let s := bays.foldl State.zeroBay s
    let s := { s with
      sigs := s.sigs.filter fun m => !(bays.contains (bayOf m.destTile)) && !(bays.contains (bayOf m.srcTile))
      stageMsgs := s.stageMsgs.filter fun m => decide (m.part ≠ p) }
    let mine (t : Nat) : Bool := bays.contains (bayOf t)
    let s := (failed.filter mine).foldl (fun (s : State) t => s.schedule t 3) s
    let (s, gone) := s.applyRetirements mine
    let s := ((s.setPart p (x.afterReset (decide (cause = 1)))).reloadRemap p)
    let first := gone.head?.getD 0
    let repl := match s.check.spareFor.find? fun e => decide (e.1 = first) with
      | some e => if gone.isEmpty then 0 else e.2
      | none => 0
    let s := s.bookEntry 0x08 p 0 0 (leBytes 1 cause ++ leBytes 3 0 ++ leBytes 4 (s.time - x.resetStart).toNat
      ++ leBytes 2 gone.length ++ leBytes 2 first ++ leBytes 2 repl)
    let have' := (s.part p).tiles
    if have' < need then
      let s := s.modPart p fun x => { x with fault := { FaultRec.zero with
        code := 0x40, valid := true, originating := true, noStrand := true, noTile := true, noCmd := true, partition := p
        member := if x.gang.formed then s.member else 0, function := x.function p, time := s.time, detail := BitVec.ofNat 64 (need - have') } }
      (s.bookRecord p 0x01).sticky p 0
    else s

/-- What a destroyed partition's slot keeps: the sticky records of its window (R18). -/
def Part.remains (x : Part) : Part :=
  { Part.reset with
    fltSticky := x.fltSticky
    num := { Numerics.reset with sites := x.num.sites, events := x.num.events }
    caps := { CapRegs.reset with lastStrike := x.caps.lastStrike }
    ela := { Ela.reset with lost := x.ela.lost, events := x.ela.events }
    wit := { Witness.reset with record := x.wit.record } }

/-- PART_CTRL_RESET: a write of 1 to PART_CTRL.RESET starts a partition reset (R405). -/
def execPartCtrlReset (p : Nat) (s : State) : Out := .next (s.beginReset p 0)

/-- Does the armed dump of the partition's fault still wait to be asked for (R448)? -/
def Part.dumpDue (x : Part) : Bool :=
  x.dump.arm && (decide (x.dump.state = 0) || decide (x.dump.start.toNat < x.frozenAt.toNat))

/-- AUTO_RESET: a FAULTED partition with AUTO_RESET set and a frozen tile is reset once its dump, which ARM starts, has ended, unless
recovery owns its resets, as the coordinator's AUTO_RECOVER says (R448, R453). -/
def execAutoReset (a : CoordinatorView) (s : State) : Out :=
  let p := a.part
  let x := s.part p
  let recovery := x.image.isSome && (s.jobCtrl p a.ctrl).getLsbD 31
  if x.exist && x.faulted && x.autoReset && s.anyFrozen p && decide (x.dump.state ≠ 1) && decide (x.dump.state ≠ 2)
      && !x.dumpDue && !recovery && (match x.ela.run with | some r => decide (r.phase ≠ 8) | none => true) then
    .next (s.beginReset p 5)
  else .next s

end Sys2Proof.Machine
end

