-- ==== Sys2Proof/Machine/Image.lean ====
section
/-! DEFINITION. The traverse image as bytes: its header and directory (R420), and the reading of each kind of section into the
tables the device keeps (R104, R203, R338 to R343, R358, R364, R365, R466, R601). -/

namespace Sys2Proof.Machine

/-! ### Bytes -/

/-- `n` bytes at offset `o`, as a number (R10). -/
def rd (b : List Byte) (o n : Nat) : Nat := leNat ((b.drop o).take n)

/-- Cut a byte list into pieces of `n` bytes; at most `k` of them. -/
def chunks (n : Nat) : Nat → List Byte → List (List Byte)
  | 0, _ => []
  | k + 1, b => if b.isEmpty then [] else b.take n :: chunks n k (b.drop n)

/-- The entries of `n` bytes that a section holds in full. -/
def entriesOf (n : Nat) (b : List Byte) : List (List Byte) := chunks n (b.length / n) b

/-! ### Header and directory (R420) -/

/-- A directory entry (R420) with its index. -/
structure Sect where
  type : Nat
  variant : Nat
  crc : W32
  offset : Nat
  bytes : Nat
  index : Nat
  deriving DecidableEq, Repr

/-- The directory of an image. -/
def dirOf (img : List Byte) : List Sect :=
  ((chunks 32 (rd img 0x10 4) (img.drop (rd img 0x14 4))).zipIdx).map fun e =>
    ⟨rd e.1 0 2, rd e.1 2 1, BitVec.ofNat 32 (rd e.1 4 4), rd e.1 8 8, rd e.1 16 8, e.2⟩

/-- The bytes of a section. -/
def Sect.data (c : Sect) (img : List Byte) : List Byte := (img.drop c.offset).take c.bytes

/-- The section of a type that serves variant `v`: its own, or else the one for every variant (R420). -/
def sectFor (dir : List Sect) (type v : Nat) : Option Sect :=
  (dir.find? fun c => decide (c.type = type) && decide (c.variant = v)).orElse fun _ =>
    dir.find? fun c => decide (c.type = type) && decide (c.variant = 0xFF)

/-- The bytes of that section; none present gives no bytes. -/
def sectBytes (img : List Byte) (dir : List Sect) (type v : Nat) : List Byte :=
  match sectFor dir type v with | some c => c.data img | none => []

/-- The directory index of that section. -/
def sectIndex (dir : List Sect) (type v : Nat) : Nat :=
  match sectFor dir type v with | some c => c.index | none => 0

/-! ### Variants -/

/-- A variant descriptor (R358). -/
structure VDesc where
  index : Nat
  kind : Nat
  level : Nat
  flags : Nat
  invGroup : Nat
  /-- WIDTH, GANG_MASK, Y0, YJ, Z0, ZJ -/
  shape : List Nat
  reserved : Nat
  deriving DecidableEq, Repr

/-- The descriptors of a VARIANTS section. -/
def descsOf (b : List Byte) : List VDesc :=
  (entriesOf 16 b).map fun e =>
    ⟨rd e 0 1, rd e 1 1, rd e 2 1, rd e 3 1, rd e 4 1, (List.range 6).map fun i => rd e (5 + i) 1, rd e 11 5⟩

/-- The descriptors of an image: those of the VARIANTS section that serves every variant, of which a variant's own section overrides its own
(R358, R420). -/
def variantDescs (img : List Byte) (dir : List Sect) : List VDesc :=
  (dir.filter fun c => decide (c.type = 5) && decide (c.variant ≠ 0xFF)).foldl (fun l c =>
    let own := (descsOf (c.data img)).filter fun d => decide (d.index = c.variant)
    if own.isEmpty then l else (l.filter fun d => decide (d.index ≠ c.variant)) ++ own) (descsOf (sectBytes img dir 5 0xFF))

/-- A shard descriptor (R339). -/
def parseShard (e : List Byte) : ShardDesc :=
  ⟨rd e 0 4, rd e 4 1, rd e 5 1, rd e 6 2, rd e 8 8, rd e 16 4, rd e 20 4, rd e 24 4, rd e 28 4⟩

/-- A collective entry (R340). -/
def parseColl (e : List Byte) : CollEntry :=
  { op := rd e 0 1, wire := rd e 1 1, group := rd e 2 1, size := rd e 3 1, first := rd e 4 1, xmask := rd e 5 1
    ifmt := rd e 6 1, ofmt := rd e 7 1, datum := sintOf 9 (rd e 8 2 % 512), datumHigh := rd e 8 2 / 512
    issueTile := rd e 10 2, peer := rd e 12 1, flags := rd e 13 1, depthBound := rd e 16 4, lengthIndex := rd e 20 4
    shard := rd e 24 4, reserved := rd e 14 2 + rd e 28 36 }

/-- A queue binding (R343). -/
def parseBinding (e : List Byte) : QueueBinding :=
  { queueId := rd e 0 2, dir := rd e 2 1, producerStage := rd e 3 1, producerTile := rd e 4 2, outQueue := rd e 6 1
    inQueue := rd e 7 1, consumerTile := rd e 8 2, depth := rd e 10 2, entryBytes := rd e 12 4, ringAddr := rd e 16 8
    putsPerStep := rd e 24 4, reserved := rd e 28 4 }

/-- A stage descriptor (R341). -/
def parseStage (e : List Byte) : StageDesc :=
  ⟨rd e 0 1, rd e 1 1, rd e 2 2, rd e 4 2, rd e 6 2, rd e 8 2, rd e 10 1, rd e 11 5⟩

/-- A memory-plan region (R420): `peer` is the LEND borrower, `layer` the GATHERED layer or the STAY primary's identity. -/
def parseRegion (e : List Byte) : Region :=
  ⟨rd e 0 1, rd e 2 1, rd e 3 1, rd e 1 1, rd e 8 8, rd e 16 8, rd e 24 4⟩

/-- A start-list entry (R420). -/
def parseStart (e : List Byte) : StartEntry :=
  ⟨rd e 0 2, rd e 2 2, BitVec.ofNat 12 (rd e 4 2), BitVec.ofNat 32 (rd e 8 4), BitVec.ofNat 64 (rd e 16 8)⟩

/-- A witness entry (R466), enabled until its checks are made. -/
def parseWit (e : List Byte) : WitEntry :=
  { pTile := rd e 0 2, pStrand := rd e 2 2, pInst := rd e 4 4, wTile := rd e 8 2, wStrand := rd e 10 2, wInst := rd e 12 4
    station := rd e 16 2, pc := BitVec.ofNat 32 (rd e 20 4), arg := BitVec.ofNat 64 (rd e 24 8), enabled := decide (rd e 18 2 = 0) }

/-- The blobs of a CODE section, one for each tile it names (R420): logical tile, tile-store address, bytes. -/
def parseCode (b : List Byte) : List (Nat × Nat × List Byte) :=
  ((chunks 16 (rd b 0 4) (b.drop 4)).map fun e =>
    (List.range (rd e 2 2)).map fun i => (rd e 0 2 + i, rd e 4 4, (b.drop (rd e 12 4)).take (rd e 8 4))).flatten

/-- Does every blob of a CODE section lie in the section, on an enabled tile, and in tile store? -/
def codeOk (b : List Byte) (tiles : Nat) : Bool :=
  decide (4 ≤ b.length) && decide (4 + 16 * rd b 0 4 ≤ b.length) && (chunks 16 (rd b 0 4) (b.drop 4)).all fun e =>
    decide (rd e 12 4 + rd e 8 4 ≤ b.length) && decide (rd e 0 2 + rd e 2 2 ≤ tiles) && decide (rd e 4 4 + rd e 8 4 ≤ 0x100000)

/-- The entries of a WITNESS_PLAN section (R466). -/
def parseWitPlan (b : List Byte) : List WitEntry :=
  if rd b 0 4 = 1 then (chunks 32 (rd b 4 4) (b.drop 16)).map parseWit else []

/-- Does a section of a shard table, given by offset, entry size and count, start on 8 bytes and lie in the table? -/
def tablePart (b : List Byte) (off size count : Nat) : Bool := decide (off % 8 = 0) && decide (off + size * count ≤ b.length)

/-- Are the header, counts and sections of a shard table sound, and every reserved field 0 (R338; R353 check 1)? A stage descriptor's
MICRO_BATCHES and BRANCH beyond their limits are refused here (DESIGN CHOICE: R353 names no reason for them; log 148). -/
def tableSound (b : List Byte) : Bool :=
  decide (64 ≤ b.length) && decide (rd b 0 4 = 2) && decide (rd b 0xA 1 < 4) && decide (rd b 0xB 1 = 0)
    && decide (rd b 0xC 4 ≤ 65536) && decide (rd b 0x10 4 ≤ 65535) && decide (rd b 0x14 4 ≤ 65536) && decide (rd b 0x1C 4 ≤ 4096)
    && decide (rd b 0x34 12 = 0) && tablePart b (rd b 0x20 4) 32 (rd b 0xC 4) && tablePart b (rd b 0x24 4) 64 (rd b 0x10 4)
    && tablePart b (rd b 0x28 4) 32 (rd b 0x14 4) && tablePart b (rd b 0x2C 4) 16 (rd b 7 1)
    && tablePart b (rd b 0x30 4) 4 (rd b 0x18 4)
    && ((chunks 16 (rd b 7 1) (b.drop (rd b 0x2C 4))).map parseStage).all fun d =>
      decide (1 ≤ d.microBatches) && decide (d.microBatches ≤ 4096) && decide (d.branch < 16)

/-- A sub-table: `count` entries of `size` bytes at an offset. -/
def subTable (b : List Byte) (at' size : Nat) : List (List Byte) := chunks size (rd b at' 4) (b.drop (rd b (at' + 4) 4))

/-- The gauge of a NUMERICS entry. -/
def parseGauge (e : List Byte) : Gauge :=
  { Gauge.reset with
    enable := decide (rd e 4 4 / 2 ^ 31 = 1), layer := rd e 4 4 / 2 ^ 16 % 4096, site := rd e 4 4 % 2 ^ 14
    ratioLimit := BitVec.ofNat 32 (rd e 8 4), streakLimit := max 1 (rd e 20 4 / 2 ^ 28) }

/-- The limit, layer and gauge tables of a NUMERICS section (R601). -/
def numTables (b : List Byte) : NumTables :=
  let words (e : List Byte) (o : Nat) : Nat × W32 × W32 := (rd e 0 4, BitVec.ofNat 32 (rd e o 4), BitVec.ofNat 32 (rd e (o + 4) 4))
  if b.isEmpty then ⟨[], [], []⟩
  else ⟨(subTable b 4 20).map fun e => words e 4, (subTable b 0xC 20).map fun e => words e 8,
    (subTable b 0x14 36).map fun e => (rd e 0 4, parseGauge e)⟩

/-- Parse a variant from its descriptor and sections. -/
def parseVariant (img : List Byte) (dir : List Sect) (d : VDesc) : Variant :=
  let b := sectBytes img dir 3 d.index
  let shards := (chunks 32 (rd b 0xC 4) (b.drop (rd b 0x20 4))).map parseShard
  let colls := (chunks 64 (rd b 0x10 4) (b.drop (rd b 0x24 4))).map parseColl
  let queues := (chunks 32 (rd b 0x14 4) (b.drop (rd b 0x28 4))).map parseBinding
  let stages := (chunks 16 (rd b 7 1) (b.drop (rd b 0x2C 4))).map parseStage
  { format := rd b 0 4, width := rd b 4 1, gangMask := rd b 5 1, y0 := rd b 6 1, yj := rd b 7 1, z0 := rd b 8 1, zj := rd b 9 1
    flags := rd b 0xA 1
    reservedZero := (shards.all fun e => decide (e.reserved = 0)) && (colls.all fun e => decide (e.reserved = 0) && decide (e.flags < 2))
      && (queues.all fun e => decide (e.reserved = 0)) && stages.all fun e => decide (e.reserved = 0)
    sectionsOk := tableSound b
    seqEntries := rd b 0x1C 4
    shards := shards, colls := colls, queues := queues, stages := stages
    lengths := (chunks 4 (rd b 0x18 4) (b.drop (rd b 0x30 4))).map leNat
    regions := (entriesOf 32 (sectBytes img dir 6 d.index)).map parseRegion
    starts := (entriesOf 24 (sectBytes img dir 2 d.index)).map parseStart
    code := parseCode (sectBytes img dir 1 d.index)
    kind := d.kind, level := d.level, descFlags := d.flags, invGroup := d.invGroup
    wit := parseWitPlan (sectBytes img dir 8 d.index)
    exchange := sectBytes img dir 0xA d.index, tables := numTables (sectBytes img dir 9 d.index) }

/-! ### Warp plans (R364, R365) -/

/-- The position, as a shard identity, at an offset (y, z) in the box of a variant, at member x (R365, R380). -/
def Variant.position (v : Variant) (x y z : Nat) : Nat := x % 8 + (v.y0 + y) % 32 * 256 + (v.z0 + z) % 32 * 65536

/-- Is a position inside the box of a variant (R332)? -/
def Variant.holds (v : Variant) (id : Nat) : Bool :=
  decide (v.gangMask / 2 ^ (id % 8) % 2 = 1) && decide ((id / 256 % 32 + 32 - v.y0 % 32) % 32 < v.yj)
    && decide ((id / 65536 % 32 + 32 - v.z0 % 32) % 32 < v.zj)

/-- The positions that a torus route of `n` hops passes between its ends, from (x, y, z) in a direction (R365, R367). -/
def routeVia (route n x y z : Nat) : List Nat :=
  (List.range (n - 1)).map fun i =>
    let k := i + 1
    match route with
    | 1 => positionId x ((y + k) % 32) z
    | 2 => positionId x ((y + 32 - k) % 32) z
    | 3 => positionId x y ((z + k) % 32)
    | _ => positionId x y ((z + 32 - k) % 32)

/-- Does a range lie in a region of a kind: the first half of a PERSISTENT region, a KEPT INPUT region (R365)? -/
def Variant.covers (v : Variant) (kind a n : Nat) : Bool :=
  v.regions.any fun r =>
    let size := if kind = 0 then r.size / 2 else r.size
    (if kind = 0 then decide (r.kind = 0) else decide (r.kind = 6) && decide (r.flags / 2 % 2 = 1))
      && decide (r.address ≤ a) && decide (a + n ≤ r.address + size)

/-- Are a move's own fields in range, its SHARD the source's, its ranges in regions of its kind, and its route along one axis inside the boxes
(R365, R368, R380)? -/
def moveOk (a b : Variant) (e : List Byte) : Bool :=
  let kind := rd e 0 1
  let route := rd e 2 1
  let x := rd e 4 1
  let x' := rd e 7 1
  let inBox (v : Variant) (o : Nat) : Bool :=
    decide (rd e o 1 < 8) && decide (v.gangMask / 2 ^ rd e o 1 % 2 = 1) && decide (rd e (o + 1) 1 < v.yj) && decide (rd e (o + 2) 1 < v.zj)
  let y := (a.y0 + rd e 5 1) % 32
  let z := (a.z0 + rd e 6 1) % 32
  let y' := (b.y0 + rd e 8 1) % 32
  let z' := (b.z0 + rd e 9 1) % 32
  let h := rd e 3 1
  let n := rd e 0x20 8
  decide (kind < 3) && decide (rd e 1 1 < 2) && decide (h ≤ 16) && decide (rd e 10 2 = 0) && decide (rd e 40 8 = 0)
    && inBox a 4 && inBox b 7 && decide (rd e 12 4 = positionId x y z)
    && (decide (kind = 1) || (decide (n % 2 ^ 21 = 0) && a.covers kind (rd e 16 8) n && b.covers kind (rd e 24 8) n))
    && (match route with
      | 0 => decide (h = 0) && decide (x = x') && decide (y = y') && decide (z = z')
      | 1 => decide (0 < h) && decide (x = x') && decide ((y + h) % 32 = y') && decide (z = z')
      | 2 => decide (0 < h) && decide (x = x') && decide ((y' + h) % 32 = y) && decide (z = z')
      | 3 => decide (0 < h) && decide (x = x') && decide (y = y') && decide ((z + h) % 32 = z')
      | 4 => decide (0 < h) && decide (x = x') && decide (y = y') && decide ((z' + h) % 32 = z)
      | r => decide (0x10 ≤ r) && decide (r < 0x18) && decide (h = 1) && decide (x' = r - 0x10) && decide (x ≠ x')
          && decide (y = y') && decide (z = z'))
    && (decide (route = 0) || decide (4 < route) || (routeVia route h x y z).all fun q => a.holds q || b.holds q)

/-- A move (R365). -/
def parseMove (a b : Variant) (e : List Byte) : Move :=
  { kind := rd e 0 1, precopy := decide (rd e 1 1 = 1), route := rd e 2 1, hops := rd e 3 1
    src := a.position (rd e 4 1) (rd e 5 1) (rd e 6 1), dst := b.position (rd e 7 1) (rd e 8 1) (rd e 9 1)
    shard := rd e 12 4, srcAddr := rd e 16 8, dstAddr := rd e 24 8, bytes := rd e 32 8 }

/-- Bytes of one half of a PERSISTENT region, whose size covers both halves, the second right after the first (R266, R352; DEDUCED, log 70). -/
def Region.halfBytes (r : Region) : Nat := r.size / 2

/-- Bytes of one half. -/
def Variant.halfSize (v : Variant) : Nat := (v.persist.map fun r => r.halfBytes).foldl (fun (a : Nat) b => a + b) 0

/-- Do two byte ranges meet? -/
def meets (a n b m : Nat) : Bool := decide (a < b + m) && decide (b < a + n) && decide (0 < n) && decide (0 < m)

/-- Where a PERSISTENT move's half-1 range lies: the same offset in the second half of its region (R365). -/
def otherHalf (v : Variant) (a : Nat) : Nat :=
  match v.regions.find? fun r => decide (r.kind = 0) && decide (r.address ≤ a) && decide (a < r.address + r.halfBytes) with
  | some r => a + r.halfBytes
  | none => a

/-- The destination ranges of a move in the new variant's plan. -/
def Move.landing (m : Move) (b : Variant) : List (Nat × Nat) :=
  if m.kind = 0 then [(m.dstAddr, m.bytes), (otherHalf b m.dstAddr, m.bytes)] else if m.kind = 2 then [(m.dstAddr, m.bytes)] else []

/-- No two ranges of a list meet. -/
def apart : List (Nat × Nat) → Bool
  | [] => true
  | e :: l => (l.all fun f => !(meets e.1 e.2 f.1 f.2)) && apart l

/-- Is a plan from `a` to `b` fit at position `me` of the new box, which the old box may hold, too (R368)? -/
def planFits (a b : Variant) (moves : List Move) (me : Nat) : Bool :=
  let mine := moves.filter fun m => decide (m.dst = me)
  let land := (mine.map fun m => m.landing b).flatten
  let persist := b.regions.filter fun r => decide (r.kind = 0)
  let total (l : List Nat) : Nat := l.foldl (· + ·) 0
  let covered := total ((mine.filter fun m => decide (m.kind = 0)).map fun m => m.bytes)
  let needed := a.regions.filter fun r => [0, 1, 7].contains r.kind || (decide (r.kind = 6) && decide (r.flags / 2 % 2 = 1))
  let pre := ((mine.filter (·.precopy)).map fun m => m.landing b).flatten
  apart land && decide (covered = total (persist.map fun r => r.halfBytes))
    && (!(a.holds me) || ((needed.all fun r => land.all fun e => !(meets r.address r.size e.1 e.2))
      && a.regions.all fun r => pre.all fun e => !(meets r.address r.size e.1 e.2)))

/-- Parse and check a warp plan, at every position of the new box (R364, R365, R368); the memory plans of the other positions are taken equal to
this device's (DEDUCED, log 68). -/
def parsePlan (vs : List (Nat × Variant)) (b : List Byte) : WarpPlan :=
  let frm := rd b 4 1
  let dst := rd b 5 1
  let es := chunks 48 (rd b 8 4) (b.drop 32)
  let get (i : Nat) : Option Variant := (vs.find? fun e => decide (e.1 = i)).map (·.2)
  match get frm, get dst with
  | some x, some y =>
    let moves := es.map (parseMove x y)
    { frm := frm, dst := dst, moves := moves, peak := rd b 16 8
      available := decide (rd b 0 4 = 1) && decide (rd b 6 2 = 0) && decide (rd b 12 4 = 0) && decide (rd b 24 8 = 0)
        && decide (es.length = rd b 8 4) && decide (x.kind = 1) && decide (y.kind = 1) && es.all (moveOk x y)
        && y.commitGroup.all (planFits x y moves) }
  | _, _ => ⟨frm, dst, [], rd b 16 8, false⟩

/-! ### NUMERICS (R601) -/

/-- Is a sub-table sound: count within its limit, on 8 bytes, inside the section, offset 0 when empty; indices ascending (R601)? -/
def subTableOk (b : List Byte) (at' size limit indexBytes : Nat) : Bool :=
  let n := rd b at' 4
  let off := rd b (at' + 4) 4
  let ix := (subTable b at' size).map fun e => rd e 0 indexBytes
  decide (n ≤ limit) && (if n = 0 then decide (off = 0) else decide (off % 8 = 0) && decide (off + size * n ≤ b.length))
    && (indexBytes = 2 || ((ix.zip (ix.drop 1)).all fun e => decide (e.1 < e.2)) && ix.all fun i => decide (i < limit))

/-- Is a 32-bit code a finite FP32 value of at least 0 (R203)? −0 is at least 0. -/
def finiteNonneg (c : Nat) : Bool :=
  let v := f32 (BitVec.ofNat 32 c)
  v.isFin && (!v.sign || v.isZero)

/-- Is a NUMERICS section sound (R203, R601)? -/
def numericsOk (b : List Byte) : Bool :=
  decide (64 ≤ b.length) && decide (rd b 0 4 = 1) && decide (rd b 0x2C 20 = 0)
    && subTableOk b 4 20 16384 4 && subTableOk b 0xC 20 4096 4 && subTableOk b 0x14 36 256 4 && subTableOk b 0x1C 2 4096 2
    && subTableOk b 0x24 68 64 4
    && ((subTable b 4 20).all fun e => decide (rd e 12 8 = 0))
    && ((subTable b 0xC 20).all fun e => decide (rd e 4 4 = 0) && decide (rd e 16 4 = 0))
    && ((subTable b 0x14 36).all fun e => decide (rd e 4 4 / 2 ^ 28 % 8 = 0) && decide (rd e 4 4 / 2 ^ 14 % 4 = 0)
      && decide (rd e 12 8 = 0) && decide (rd e 20 4 % 2 ^ 28 = 0) && decide (rd e 24 12 = 0))
    && ((subTable b 0x24 68).all fun e => (List.range 16).all fun j => finiteNonneg (rd e (4 + 4 * j) 4))
    && (let p := (subTable b 0x1C 2).map leNat
        decide (p.eraseDups.length = p.length) && p.all fun l => decide (l < 4096))

/-- Write a NUMERICS section into a numerics unit at its reset tables (R422, R601). -/
def Numerics.withSection (n : Numerics) (b : List Byte) : Numerics :=
  { { n with limits := [], layers := [], gauges := [] }.withTables (numTables b) with
    hist := if b.isEmpty then n.hist else (subTable b 0x24 68).foldl (fun (m : SMap W32) e =>
      msetList 0 m (16 * rd e 0 4) ((List.range 16).map fun j => BitVec.ofNat 32 (rd e (4 + 4 * j) 4))) [] }

/-- The promotion order of a NUMERICS section (R222). -/
def promoOrderOf (b : List Byte) : List Nat := (subTable b 0x1C 2).map leNat

/-- The scale table of a SCALE_INIT section, as it is installed: CAL on ESTIMATE entries, HIST_COUNT 0 on DELAYED ones (R226). -/
def scaleTable (b : List Byte) : SMap W64 :=
  mlist scaleReset 0 ((entriesOf 8 b).map fun e =>
    let w := BitVec.ofNat 64 (leNat e)
    if w.getLsbD 47 then w &&& ~~~(BitVec.ofNat 64 (2 ^ 42 + 31 * 2 ^ 31))
    else (w ||| BitVec.ofNat 64 (2 ^ 42)) &&& ~~~(BitVec.ofNat 64 (31 * 2 ^ 31)))

end Sys2Proof.Machine
end

