-- ==== Sys2Proof/Machine/Load.lean ====
section
/-! DEFINITION. LOAD_TRAVERSE: the checks of R421 in order (R267, R299, R300, R333, R342, R349, R352, R353, R358, R359, R203, R208,
R601), and the installation of R422. -/

namespace Sys2Proof.Machine

/-- Why a load is refused: status, DETAIL0, DETAIL1 (R417). -/
structure LoadErr where
  status : Nat
  d0 : W32
  d1 : W64
  deriving DecidableEq, Repr

/-- LOAD_REFUSED_SHAPE with reason, variant, directory index and entry (R417). -/
def shapeErr (reason variant dirIndex entry : Nat) : LoadErr :=
  ⟨0x41, BitVec.ofNat 32 (reason + variant * 2 ^ 8 + dirIndex * 2 ^ 16), BitVec.ofNat 64 entry⟩

/-! ### Check 1: the image (R420, R421) -/

/-- Are header, directory and CRCs sound, and the required sections present? -/
def imageCheck (img : List Byte) : Option LoadErr :=
  let dir := dirOf img
  let size := rd img 8 8
  let n := rd img 0x10 4
  let bad (i : Nat) : Option LoadErr := some (shapeErr 0x10 0xFF i 0)
  if img.length < 128 ∨ rd img 0 4 ≠ 0x56525450 ∨ rd img 4 2 ≠ 1 ∨ crc32 (img.take 0x7C) ≠ BitVec.ofNat 32 (rd img 0x7C 4) then bad 0
  else if img.length < size ∨ n < 1 ∨ 4096 < n ∨ size < rd img 0x14 4 + 32 * n then bad 0
  else match dir.find? fun c => decide (size < c.offset + c.bytes) || decide (c.offset % 8 ≠ 0) || decide (crc32 (c.data img) ≠ c.crc) with
    | some c => bad c.index
    | none =>
      let vs := variantDescs img dir
      let has (t v : Nat) : Bool := (sectFor dir t v).isSome
      if (has 1 0xFF || vs.all (fun d => has 1 d.index)) && (dir.any fun c => decide (c.type = 5))
          && (vs.all fun d => has 2 d.index && has 3 d.index && has 6 d.index && has 4 d.index
            && decide ((sectBytes img dir 4 d.index).length = 524288) && codeOk (sectBytes img dir 1 d.index) (rd img 0x18 4)) then none
      else bad 0

/-! ### The memory plan (R266, R267) -/

/-- The bytes a plan needs (R267). -/
def Variant.need (v : Variant) : Nat :=
  let total (l : List Nat) : Nat := l.foldl (· + ·) 0
  let free := total ((v.regions.filter fun r => decide (r.overlay = 0)).map fun r => r.size)
  let groups := (v.regions.map (·.overlay)).eraseDups.filter fun g => decide (g ≠ 0)
  free + total (groups.map fun g => (v.regions.filter fun r => decide (r.overlay = g)).foldl (fun (a : Nat) r => max a r.size) 0)

/-- Does a plan fit in `hbm` bytes (R267)? -/
def Variant.fits (v : Variant) (hbm : Nat) : Bool :=
  decide (v.need ≤ hbm) && v.regions.all fun r => decide (r.address + r.size ≤ hbm)

/-- Is a region list well formed: kinds, 2 MiB alignment, no overlap outside groups (R266)? Regions of two different overlay groups may overlap
(DESIGN CHOICE: R266 speaks of one group and of none; log 146). -/
def planSound : List Region → Bool
  | [] => true
  | r :: l =>
    decide (r.kind ≤ 8) && decide (r.address % 2 ^ 21 = 0) && decide (r.size % 2 ^ 21 = 0)
      && (l.all fun q => (decide (r.overlay ≠ 0) && decide (q.overlay ≠ 0)) || !(meets r.address r.size q.address q.size))
      && planSound l

/-! ### Check 4: the family (R358, R359) -/

/-- Is a descriptor sound, and of the shape its shard table gives? -/
def descOk (d : VDesc) (v : Variant) : Bool :=
  decide (d.index < 255) && decide (d.kind < 3) && decide (d.flags < 4) && decide (d.reserved = 0)
    && (if d.kind = 2 then decide (1 ≤ d.level) && decide (d.level ≤ 16) else decide (d.level = 0))
    && decide (d.shape = [v.width, v.gangMask, v.y0, v.yj, v.z0, v.zj])

/-- The first variant that breaks the family rules: its index and its place in VARIANTS. -/
def familyFault (ds : List VDesc) (vs : List (Nat × Variant)) (initial : Nat) : Option (Nat × Nat) :=
  let count (f : Variant → Bool) : Nat := (vs.filter fun e => f e.2).length
  let bad (e : VDesc × Nat) : Bool :=
    match (vs.find? fun w => decide (w.1 = e.1.index)).map (·.2) with
    | none => true
    | some v =>
      !(descOk e.1 v) || decide ((ds.filter fun d => decide (d.index = e.1.index)).length ≠ 1)
        || decide (count (fun w => sameShape w v && decide (w.kind = 1)) ≠ 1)
        || decide (1 < count (fun w => sameShape w v && decide (w.kind = v.kind) && decide (w.level = v.level)))
        || !(planSound v.regions)
  match ds.zipIdx.find? bad with
  | some e => some (e.1.index, e.2)
  | none => if vs.any fun e => decide (e.1 = initial) && decide (e.2.kind = 1) then none else some (initial, 0)

/-! ### Check 5: the shard table (R353) -/

/-- The position in a list of the first element that fails a test. -/
def firstBad {α : Type} (l : List α) (ok : α → Bool) : Option Nat :=
  let i := l.findIdx fun x => !(ok x)
  if i < l.length then some i else none

/-- Extent of the axis a descriptor cuts (R339). -/
def Variant.cutExtent (v : Variant) (cut : Nat) : Nat := if cut = 0 then v.width else if cut = 1 then v.yj else v.zj

/-- The lengths from an index of the length array, if all are there. -/
def Variant.lens (v : Variant) (i n : Nat) : Option (List Nat) :=
  if i + n ≤ v.lengths.length then some ((v.lengths.drop i).take n) else none

/-- Checks 3 and 4 of R353 on one descriptor. -/
def Variant.shardSum (v : Variant) (d : ShardDesc) : Bool :=
  match v.lens d.lengthIndex d.parts with
  | none => false
  | some l =>
    decide (l.foldl (fun (a : Nat) b => a + b) 0 = d.extent)
      && (decide (d.kind ≠ 3) || (decide (l.length = v.stages.length)
        && (l.zip v.stages).all fun e => decide (e.1 = if e.2.branch = d.branch then e.2.layerCount else 0)))

/-- Check 5 of R353 on one entry: its group, its operation, its peer and its tile (R299, R340). Rings and lines allow no more
than ALL_REDUCE, REDUCE_SCATTER and ALL_GATHER; SEND and RECV name an X group. -/
def Variant.collGroup (v : Variant) (tiles : Nat) (e : CollEntry) : Bool :=
  let axis := if e.group = 1 ∨ e.group = 2 then v.yj else v.zj
  let sends := decide (e.op = 4) || decide (e.op = 5)
  let peerOk :=
    if sends then
      (decide (1 ≤ e.peer) && decide (e.peer ≤ 2) && decide (2 ≤ v.yj)) || (decide (3 ≤ e.peer) && decide (e.peer ≤ 4) && decide (2 ≤ v.zj))
        || (decide (0x10 ≤ e.peer) && decide (e.peer < 0x18) && decide (v.gangMask / 2 ^ (e.peer - 0x10) % 2 = 1)
          && decide (e.xmask ≠ 2 ^ (e.peer - 0x10)))
    else decide (e.peer = 0)
  decide (e.op < 6) && peerOk && decide (e.issueTile < tiles) &&
    match e.group with
    | 0 => decide (e.size = popcount8 e.xmask) && decide (1 ≤ e.size) && decide (e.first = 0)
        && (List.range 8).all fun i => decide (e.xmask / 2 ^ i % 2 = 0) || decide (v.gangMask / 2 ^ i % 2 = 1)
    | 1 | 3 => decide (axis = 32) && decide (e.size = 32) && decide (e.first < 32) && decide (e.op < 3) && decide (e.xmask = 0)
    | 2 | 4 => decide (2 ≤ e.size) && decide (e.size ≤ 31) && decide (e.op < 3) && decide (e.xmask = 0)
        && (if axis = 32 then decide (e.first < 32) else decide (e.first + e.size ≤ axis))
    | 5 => decide (e.size = 1) && decide (e.op < 4) && decide (e.first = 0) && decide (e.xmask = 0)
    | _ => false

/-- The part of a descriptor that rank `k` of an entry's group holds (R339). -/
def Variant.partOfRank (v : Variant) (e : CollEntry) (k : Nat) : Nat :=
  if e.group = 0 then
    let m := ((List.range 8).filter fun i => decide (e.xmask / 2 ^ i % 2 = 1)).getD k 0
    popcount8 (v.gangMask % 2 ^ m)
  else (e.first + k) % 32

/-- Check 6 of R353 on one entry (R340, R342, R603). An entry that names no descriptor is checked for its own sums: what each rank
contributes, and the whole, are lengths (R342, R353). -/
def Variant.collLengths (v : Variant) (e : CollEntry) : Bool :=
  let n := if e.op = 3 then e.size * e.size else e.size
  match v.lens e.lengthIndex n with
  | none => false
  | some l =>
    let sum (l : List Nat) : Nat := l.foldl (fun (a : Nat) b => a + b) 0
    if e.shard = 0xFFFFFFFF then
      decide (sum l < 2 ^ 32) && (decide (e.op ≠ 3) || (List.range e.size).all fun k =>
        decide (sum ((l.drop (k * e.size)).take e.size) < 2 ^ 32)
          && decide (sum ((List.range e.size).map fun j => l.getD (j * e.size + k) 0) < 2 ^ 32))
    else match v.shards[e.shard]? with
      | none => false
      | some d =>
        let unit := match Fmt.ofCode e.ifmt with | some f => if f.isBlock then 1024 else 1 | none => 1
        let axis := if e.group = 0 then 0 else if e.group = 1 ∨ e.group = 2 then 1 else 2
        let rows := (List.range e.size).map fun k =>
          if e.op = 3 then ((l.drop (k * e.size)).take e.size).foldl (fun (a : Nat) b => a + b) 0 else l.getD k 0
        decide (e.group = 5 ∨ d.cut = axis) && match v.lens d.lengthIndex d.parts with
          | none => false
          | some dl => (rows.zipIdx).all fun r => decide (r.1 * unit = dl.getD (v.partOfRank e r.2) 0 * d.unitElements)

/-- Check 7 of R353 on one entry (R300, R603). -/
def collWire (e : CollEntry) : Bool :=
  let reduces := decide (e.op < 2)
  let block (c : Nat) : Bool := match Fmt.ofCode c with | some f => f.isBlock | none => false
  let known (c : Nat) : Bool := (Fmt.ofCode c).isSome
  let is (c : Nat) (l : List Fmt) : Bool := match Fmt.ofCode c with | some f => l.contains f | none => false
  decide (e.wire < 4) && decide (e.datumHigh = 0) && (decide (e.flags % 2 = 0) || is e.ifmt [.pb4])
    && (decide (e.wire ≠ 3) || (decide (e.op = 0) && decide (e.group = 0)))
    && (if reduces then
        !(block e.ifmt) && !(block e.ofmt) && (match e.wire with
          | 0 | 1 => is e.ifmt [.bf16, .fp16, .e4m3, .e5m2] && is e.ofmt [.bf16, .fp16, .e4m3, .e5m2]
          | 2 => is e.ifmt [.bf16] && is e.ofmt [.bf16]
          | _ => true)
      else known e.ifmt && decide (e.ifmt = e.ofmt))

/-- Check 8 of R353 on one entry (R191, R340). -/
def collDepth (e : CollEntry) : Bool :=
  if e.wire = 3 then decide (1 ≤ e.depthBound) && decide (e.size * e.depthBound ≤ 65536) else decide (e.depthBound = 0)

/-- The consumer's stage of a binding, if it lies in the box (R343). -/
def Variant.consumerStage (v : Variant) (q : QueueBinding) : Option Nat :=
  match q.dir with
  | 0 => some q.producerStage
  | 1 => if q.producerStage + 1 < v.yj then some (q.producerStage + 1) else if v.yj = 32 then some 0 else none
  | 2 => if 0 < q.producerStage then some (q.producerStage - 1) else if v.yj = 32 then some 31 else none
  | _ => none

/-- Check 9 of R353 on one binding, beside those that stand before it (R343). -/
def Variant.bindingOk (v : Variant) (i : Nat) (q : QueueBinding) : Bool :=
  let before := v.queues.take i
  let c := v.consumerStage q
  decide (q.producerStage < v.yj) && c.isSome && decide (q.outQueue < 64) && decide (q.inQueue < 64)
    && decide (2 ≤ q.depth) && decide (q.depth ≤ 1024) && decide (64 ≤ q.entryBytes) && decide (q.entryBytes ≤ 262144)
    && decide (q.entryBytes % 64 = 0)
    && before.all fun b => decide (b.queueId ≠ q.queueId)
      && !(decide (b.producerStage = q.producerStage) && decide (b.producerTile = q.producerTile) && decide (b.outQueue = q.outQueue))
      && !(decide (v.consumerStage b = c) && decide (b.consumerTile = q.consumerTile) && decide (b.inQueue = q.inQueue))

/-- Check 10 of R353 on one binding consumed at stage `y`: its ring lies in one RING region and meets no other. -/
def Variant.ringOk (v : Variant) (y i : Nat) (q : QueueBinding) : Bool :=
  let size (b : QueueBinding) : Nat := b.depth * b.entryBytes
  decide (v.consumerStage q ≠ some y) || (decide (q.ringAddr % 64 = 0)
    && (v.regions.any fun r => decide (r.kind = 5) && decide (r.address ≤ q.ringAddr) && decide (q.ringAddr + size q ≤ r.address + r.size))
    && (v.queues.take i).all fun b => decide (v.consumerStage b ≠ some y) || !(meets b.ringAddr (size b) q.ringAddr (size q)))

/-- The partition's share of the sequence table (R349). -/
def seqShare (bays : Nat) : Nat := 4096 * bays / 12 / 16 * 16

/-- The first check of R353 that a variant fails as this device holds it, and the failing entry. Y0 or Z0 above 31 and YJ or ZJ outside 1–32 are
refused with BOX (DESIGN CHOICE: the list of R353 names no reason for them; log 148). Check 11 compares a STAY region with one half of this
device's PERSISTENT regions: the primary's plan is taken equal to its own (DEDUCED, log 68). -/
def State.tableCheck (s : State) (p : Nat) (v : Variant) : Option (Nat × Nat) :=
  let x := s.part p
  let y := s.stageOf v
  let z := s.replicaOf v
  let on {α : Type} (reason : Nat) (l : List α) (ok : α → Bool) : Option (Nat × Nat) := (firstBad l ok).map fun i => (reason, i)
  let whole (reason : Nat) (ok : Bool) : Option (Nat × Nat) := if ok then none else some (reason, 0)
  let seq := v.regions.find? fun r => decide (r.kind = 6) && decide (r.flags / 4 % 2 = 1)
  (whole 1 (v.sectionsOk && v.reservedZero)).orElse fun _ =>
  (whole 2 ([4, 6, 7, 8].contains v.width && decide (v.width = popcount8 v.gangMask) && decide (v.y0 < 32) && decide (v.z0 < 32)
    && decide (1 ≤ v.yj) && decide (v.yj ≤ 32) && decide (1 ≤ v.zj) && decide (v.zj ≤ 32) && decide (2 ≤ v.yj * v.zj)
    && decide (v.gangMask / 2 ^ s.member % 2 = 1) && decide (y < v.yj) && decide (z < v.zj))).orElse fun _ =>
  (on 3 v.shards fun d => decide (d.cut < 3) && decide (d.parts = v.cutExtent d.cut)).orElse fun _ =>
  (on 4 v.shards v.shardSum).orElse fun _ =>
  (on 5 v.colls (v.collGroup x.tiles)).orElse fun _ =>
  (on 6 v.colls v.collLengths).orElse fun _ =>
  (on 7 v.colls collWire).orElse fun _ =>
  (on 8 v.colls collDepth).orElse fun _ =>
  (on 9 v.queues.zipIdx fun e => v.bindingOk e.2 e.1).orElse fun _ =>
  (on 0xA v.queues.zipIdx fun e => v.ringOk y e.2 e.1).orElse fun _ =>
  (whole 0xB (!(v.tripleStay && (decide (v.yj = 1) || decide (v.zj = 1)))
    && (s.primaries v).all fun id => v.regions.any fun r => decide (r.kind = 1) && decide (r.layer = id) && decide (r.size = v.halfSize))).orElse fun _ =>
  (whole 0xC (decide (v.seqEntries ≤ seqShare x.bays.length)
    && (decide (v.seqEntries = 0) || match seq with | some r => decide (64 * v.seqEntries ≤ r.size) | none => false))).orElse fun _ =>
  on 0xD v.stages fun d => decide (d.inflight ≠ 0) && decide (d.inflight ≤ d.microBatches) && decide (d.schedule < 2)

/-- The same for a load: with SPARE the table is taken at every member index of its gang mask (R421). -/
def State.tableFault (s : State) (p : Nat) (spare : Bool) (v : Variant) : Option (Nat × Nat) :=
  if spare then
    ((List.range 8).filter fun m => decide (v.gangMask / 2 ^ m % 2 = 1)).findSome? fun m =>
      ({ s with spareAs := some m }).tableCheck p v
  else s.tableCheck p v

/-! ### Check 6: start lists (R104, R421) -/

/-- The first bad entry of a start list. -/
def startFault (tiles : Nat) (l : List StartEntry) : Option Nat :=
  firstBad l.zipIdx fun e =>
    decide (e.1.tile < tiles) && decide (e.1.strand < 512) && decide (e.1.pc.toNat + 16 ≤ 0x100000)
      && !((l.take e.2).any fun b => decide (b.tile = e.1.tile) && decide (b.strand = e.1.strand))

/-! ### Check 7: numerics (R203, R208, R601) -/

/-- The first entry of SCALE_INIT that is refused: EST not finite and at least 0, or a WATCH given to an earlier DELAYED entry. -/
def scaleFault (b : List Byte) : Option Nat :=
  let es := entriesOf 8 b
  let ws := es.map leNat
  let watch (w : Nat) : Nat := w / 2 ^ 36 % 64
  let delayed (w : Nat) : Bool := decide (w / 2 ^ 47 % 2 = 1)
  let go := ws.foldl (fun (a : Nat × List Nat × Option Nat) w =>
    let bad := !(finiteNonneg (w % 65536 * 65536)) || (delayed w && a.2.1.contains (watch w))
    (a.1 + 1, if delayed w then watch w :: a.2.1 else a.2.1, a.2.2.orElse fun _ => if bad then some a.1 else none)) (0, [], none)
  go.2.2

/-- Does SCALE_INIT hold a DELAYED entry? -/
def anyDelayed (b : List Byte) : Bool := (entriesOf 8 b).any fun e => decide (leNat e / 2 ^ 47 % 2 = 1)

/-! ### The checks in order (R421) -/

/-- The variants of an image, by index. -/
def variantsOf (img : List Byte) : List (Nat × Variant) :=
  let dir := dirOf img
  (variantDescs img dir).map fun d => (d.index, parseVariant img dir d)

/-- The variants that a load must be able to hold: the first-use and steady variants of the loaded shape; with JOIN the steady
variants whose box holds this position, with SPARE every steady variant (R421). -/
def State.wanted (s : State) (vs : List (Nat × Variant)) (initial : Nat) (join spare : Bool) : List (Nat × Variant) :=
  let steady := vs.filter fun e => decide (e.2.kind = 1)
  if spare then steady
  else if join then steady.filter fun e => e.2.holds s.shardId
  else match (vs.find? fun e => decide (e.1 = initial)).map (·.2) with
    | some v0 => vs.filter fun e => sameShape e.2 v0 && decide (e.2.kind ≤ 1)
    | none => []

/-- The instruction words of a code blob that begins at tile-store address `a` (R83, R420). -/
def blobWords (a : Nat) (b : List Byte) : List IWord :=
  let skip := (16 - a % 16) % 16
  (chunks 16 ((b.length - skip) / 16) (b.drop skip)).map fun c => BitVec.ofNat 128 (leNat c)

/-- May a gauge watch what VQNT `w` writes: FP4 E2M1, MX4 or PB4 (R220)? -/
def gaugeable (w : IWord) : Bool :=
  match Fmt.ofCode (immf w 47 40) with
  | some f => [Fmt.e2m1, .mx4, .pb4].contains f
  | none => false

/-- Does every VQNT at a gauged site, in the variants that are not promotion levels, write a 4-bit format (R220)? A promotion level turns its
layers' sites to FP8 (R222). -/
def gaugesOk (num : List Byte) (vs : List (Nat × Variant)) : Bool :=
  let sites := ((subTable num 0x14 36).map parseGauge).filterMap fun g => if g.enable then some g.site else none
  sites.isEmpty || (vs.filter fun e => decide (e.2.kind ≠ 2)).all fun e => e.2.code.all fun c =>
    (blobWords c.2.1 c.2.2).all fun w => decide (opcOf w ≠ 0x58) || !(sites.contains (siteOf w)) || gaugeable w

/-- The refusal of a load by its variants' first failing checks, each with its variant: the one that stands first in R353's order. -/
def firstCheck (dir : List Sect) (l : List (Nat × Nat × Nat)) : Option LoadErr :=
  ((sortBy (fun a b => decide (a.2.1 ≤ b.2.1)) l).head?).map fun f => shapeErr f.2.1 f.1 (sectIndex dir 3 f.1) f.2.2

/-- The refusal of an image, if any (R421). -/
def State.loadFault (s : State) (p : Nat) (img : List Byte) (join spare : Bool) : Option LoadErr :=
  let x := s.part p
  let dir := dirOf img
  let vs := variantsOf img
  let initial := rd img 0x1E 1
  let want := s.wanted vs initial join spare
  let soft := join || spare
  let hbm := x.hbmSize
  let need := rd img 0x18 4
  let short (l : List (Nat × Variant)) : Nat := l.foldl (fun (a : Nat) e => max a (e.2.need - hbm)) 0
  let misfit := want.filter fun e => !(e.2.fits hbm)
  let left := if soft then want.filter fun e => e.2.fits hbm else want
  let faults := left.filterMap fun e => (s.tableFault p spare e.2).map fun f => (e.1, f)
  let scale (i : Nat) : List Byte := sectBytes img dir 4 i
  (imageCheck img).orElse fun _ =>
  (if rd img 0x1C 1 = x.bays.length then none else some (shapeErr 0x11 0xFF 0 0)).orElse fun _ =>
  (if x.tiles < need ∨ (!soft && !misfit.isEmpty) ∨ (soft && left.isEmpty && !want.isEmpty) then
    some ⟨0x40, BitVec.ofNat 32 (need - x.tiles), BitVec.ofNat 64 (short misfit)⟩ else none).orElse fun _ =>
  ((familyFault (variantDescs img dir) vs initial).map fun f => shapeErr 1 f.1 (sectIndex dir 5 f.1) f.2).orElse fun _ =>
  (if spare && !(coordSpare s.coord) then some (shapeErr 2 0xFF 0 0)
    else if soft then (if left.length ≤ faults.length then some ((firstCheck dir faults).getD (shapeErr 2 0xFF 0 0)) else none)
    else firstCheck dir faults).orElse fun _ =>
  (vs.findSome? fun e => (startFault x.tiles e.2.starts).map fun i => shapeErr 0x12 e.1 (sectIndex dir 2 e.1) i).orElse fun _ =>
  (vs.findSome? fun e => (scaleFault (scale e.1)).map fun i => shapeErr 0x13 e.1 (sectIndex dir 4 e.1) i).orElse fun _ =>
  (if (vs.any fun e => anyDelayed (scale e.1)) && !(vs.any fun e => decide (e.2.kind = 0)) then
    some (shapeErr 0x13 0xFF (sectIndex dir 4 initial) 0) else none).orElse fun _ =>
  vs.findSome? fun e =>
    let num := sectBytes img dir 9 e.1
    if num.isEmpty || (numericsOk num && gaugesOk num [e]) then none else some (shapeErr 0x13 e.1 (sectIndex dir 9 e.1) 0)

/-! ### Installation (R422) -/

/-- Is a witness entry usable (R466)? -/
def Part.witOk (x : Part) (v : Variant) (e : WitEntry) : Bool :=
  e.enabled && decide (e.pStrand < 512) && decide (e.wStrand < 512) && decide (e.station < 4096) && decide (e.pc.toNat + 16 ≤ 0x100000)
    && (match x.physOf e.pTile, x.physOf e.wTile with
      | some a, some b => decide (clusterOf a ≠ clusterOf b)
      | _, _ => false)
    && !(v.starts.any fun t => decide (t.tile = e.wTile) && decide (t.strand = e.wStrand))

/-- A variant with its unusable witness entries disabled (R466). -/
def Part.witChecked (x : Part) (v : Variant) : Variant := { v with wit := v.wit.map fun e => { e with enabled := x.witOk v e } }

/-- The image as the device keeps it, with the variants and plans that are unavailable (R267, R353, R368, R421). -/
def State.imageOf (s : State) (p : Nat) (img : List Byte) (join spare : Bool) : Image :=
  let x := s.part p
  let dir := dirOf img
  let vs := variantsOf img
  let initial := rd img 0x1E 1
  let keep := if join || spare then [] else (s.wanted vs initial join spare).map (·.1)
  { bays := rd img 0x1C 1, tilesNeeded := rd img 0x18 4, earlyAbort := decide (rd img 0x1D 1 % 2 = 1)
    replayOk := decide (rd img 0x1D 1 / 2 % 2 = 1), job := BitVec.ofNat 32 (rd img 0x20 4), seed := BitVec.ofNat 64 (rd img 0x28 8)
    initial := initial, variants := vs.map fun e => (e.1, x.witChecked e.2)
    unavailable := (vs.filter fun e => !(keep.contains e.1) && (!(e.2.fits x.hbmSize) || (s.tableFault p spare e.2).isSome)).map (·.1)
    plans := (dir.filter fun c => decide (c.type = 7)).map fun c => parsePlan vs (c.data img)
    promoOrder := promoOrderOf (sectBytes img dir 9 initial), ran := false, raw := img }

/-- NUM_CTRL as a load writes it (R215, R217, R234). -/
def loadCtrl (hdr : W32) (flags : Nat) : W32 :=
  let c := hdr &&& 0xFFFFF2FF#32
  let c := if flags % 2 = 1 then c ||| 0x800#32 else c
  if flags / 2 % 2 = 1 ∧ hdr.getLsbD 10 then c ||| 0x400#32 else c

/-- The lend epochs recorded for each lender (R264). -/
def lendMap (lends : List (Nat × W32)) : SMap W32 := lends.foldl (fun (m : SMap W32) e => mset 0 m (e.1 % 8) e.2) []

/-- Install a traverse (R422): tables, NUM_CTRL, L and calibration, CAP_JOB and CAP_EPOCH, lend epochs, code, the first-use variant
of the loaded shape; with JOIN or SPARE no variant is current. Site limits that the image does not give are cleared (DESIGN CHOICE: R422 does not
say; log 196). -/
def State.install (s : State) (p : Nat) (img : List Byte) (join spare : Bool) (lends : List (Nat × W32)) : State :=
  let x := s.part p
  let dir := dirOf img
  let im : Image := s.imageOf p img join spare
  let v0 : Option Variant := im.at' im.initial
  let soft := join || spare
  let first : Option Nat := match v0 with | some v => (im.ofShape v 0 0).orElse fun _ => some im.initial | none => none
  let cur := if soft then none else first
  let curV : Option Variant := first.bind im.at'
  let ctrl := loadCtrl (BitVec.ofNat 32 (rd img 0x24 4)) (rd img 0x1D 1)
  let n := ({ Numerics.reset with
    scale := scaleTable (sectBytes img dir 4 im.initial), sites := x.num.sites, events := x.num.events, window := x.num.window
    ctrl := ctrl, ctrlStep := ctrl, calActive := true, stepsLeft := 16
    firstUse := match curV with | some v => decide (v.kind = 0) && !soft | none => false }).withSection (sectBytes img dir 9 im.initial)
  let off := (im.variants.map fun e => (e.2.wit.filter fun w => !w.enabled).length).foldl (fun (a : Nat) b => a + b) 0
  let s := s.setPart p { x with
    image := some im, variant := cur, num := n, level := 0, calDue := false
    caps := { x.caps with job := im.job, epoch := 1, held := [], seen := [], committedEpochs := [] }, aborted := []
    lendSeen := lendMap lends
    wit := { x.wit with disabled := sat32 x.wit.disabled off }
    ela := { x.ela with joining := join && !spare, armed := spare, stopped := none, stay1 := .empty, stay2 := .empty, held := [], inStays := []
                        durations := [], units := [], shardLost := false } }
  match curV with
  | some v =>
    let s := s.installCode p v
    (s.modPart p Part.queuesBoundary).afterEpoch p
  | none => s

/-- What LOAD_TRAVERSE does once its image has been read (R415, R421, R422). -/
def loadEffect (p : Nat) (lends : List (Nat × W32)) (img : List Byte) (c : Cmd) (s : State) : State :=
  let join := decide (c.opflags % 2 = 1)
  let spare := decide (c.opflags / 2 % 2 = 1)
  match s.loadFault p img join spare with
  | some e => s.finish p c.key e.status e.d0 e.d1
  | none => (s.install p img join spare lends).finish p c.key 0 0 0

/-- A command `key` of kind `op` that reads the host range its operands name (bus address, bytes) and then has its effect on what it
read: at its start it begins to read (R259); at its finish all has arrived (R415). -/
def State.readingCmd (s : State) (p key op : Nat) (ph : ReadPhase) (eff : List Byte → Cmd → State → State) : Out :=
  match (s.part p).cmd key with
  | none => .next s
  | some c =>
    if c.op ≠ op then .next s
    else match ph with
      | .start => s.startCmd p key op fun c s => s.startRead p (.cmd key) false [(c.arg 0 8, 0, c.arg 8 8)]
      | .finish =>
        if c.started && (s.part p).readDone (.cmd key) then
          .next (eff ((s.part p).readBytes (.cmd key)) c (s.endRead p (.cmd key)))
        else .next s

/-- LOAD_TRAVERSE: command `key` of partition `p` starts and reads an image; once read, it is checked and installed, or refused. The lend epochs
of the gang members whose plans lend to this partition come with its end (R264, R422). -/
def execLoadTraverse (p key : Nat) (ph : LoadPhase) (s : State) : Out :=
  match ph with
  | .start => s.readingCmd p key 1 .start (loadEffect p [])
  | .finish lends => s.readingCmd p key 1 .finish (loadEffect p lends)

end Sys2Proof.Machine
end

