-- ==== Sys2Proof/Machine/Records.lean ====
section
/-! DEFINITION. The numerics tables and registers in the byte layouts of R235 to R243, and the numerics record that a NUMERICS move
and a checkpoint carry (R365, R423). -/

namespace Sys2Proof.Machine

/-- A bit as a number at place `i`. -/
def bitAt (b : Bool) (i : Nat) : Nat := if b then 2 ^ i else 0

/-! ### Table entries (R241 to R243) -/

/-- The 32 bytes of a site record (R241). -/
def SiteRec.bytes (r : SiteRec) : List Byte :=
  leBytes 4 r.sat ++ leBytes 4 r.flush ++ leBytes 4 r.nan ++ leBytes 4 r.inf ++ leBytes 4 r.invalid
    ++ leBytes 4 (bitAt r.valid 31 + r.cls * 2 ^ 28 + r.element * 4096 + r.tile) ++ leBytes 4 r.step
    ++ leBytes 4 (r.siteInst * 65536 + r.strand)

/-- The 16 bytes of a site-limit entry (R242). -/
def SiteLimit.bytes (l : SiteLimit) : List Byte :=
  leBytes 4 l.satLimit.toNat ++ leBytes 4 l.flushLimit.toNat ++ leBytes 4 l.lastSat.toNat ++ leBytes 4 l.lastFlush.toNat

/-- The 16 bytes of a layer-telemetry entry (R242). -/
def Layer.bytes (y : Layer) : List Byte :=
  leBytes 4 y.ratio.toNat ++ leBytes 4 y.low.toNat ++ leBytes 4 y.high.toNat
    ++ leBytes 4 (bitAt y.valid 31 + bitAt y.lowHit 30 + bitAt y.highHit 29 + y.step.toNat)

/-- A layer entry from its bytes. -/
def Layer.ofBytes (b : List Byte) : Layer :=
  let w := rd b 12 4
  { Layer.reset with
    ratio := BitVec.ofNat 32 (rd b 0 4), low := BitVec.ofNat 32 (rd b 4 4), high := BitVec.ofNat 32 (rd b 8 4)
    valid := decide (w / 2 ^ 31 % 2 = 1), lowHit := decide (w / 2 ^ 30 % 2 = 1), highHit := decide (w / 2 ^ 29 % 2 = 1)
    step := BitVec.ofNat 28 w }

/-- The 32 bytes of a gauge entry (R243); `promoted` lists the layers that have been promoted. -/
def Gauge.bytes (g : Gauge) (promoted : List Nat) : List Byte :=
  leBytes 4 (bitAt g.enable 31 + bitAt (promoted.contains g.layer) 30 + g.layer * 65536 + g.site) ++ leBytes 4 g.ratioLimit.toNat
    ++ leBytes 4 g.last.toNat ++ leBytes 4 g.baseline.toNat
    ++ leBytes 4 (g.streakLimit * 2 ^ 28 + g.streak * 65536 + g.samples) ++ leBytes 12 0

/-- A gauge from its bytes; the exact sum of its first samples stands apart. -/
def Gauge.ofBytes (b : List Byte) : Gauge :=
  let a := rd b 0 4
  let c := rd b 16 4
  { Gauge.reset with
    enable := decide (a / 2 ^ 31 % 2 = 1), layer := a / 65536 % 4096, site := a % 16384
    ratioLimit := BitVec.ofNat 32 (rd b 4 4), last := BitVec.ofNat 32 (rd b 8 4), baseline := BitVec.ofNat 32 (rd b 12 4)
    streakLimit := c / 2 ^ 28, streak := c / 65536 % 256, samples := c % 65536
    restored := decide (rd b 12 4 ≠ 0) && decide (c % 65536 < 64) }

/-! ### NUM_LOSS, NUM_CAL, NUM_STATUS (R235, R236) -/

/-- NUM_LOSS (R236). -/
def Numerics.lossWord (n : Numerics) : W32 := BitVec.ofNat 32 ((n.lossL % 256).toNat * 2 ^ 24 + n.growth % 65536)

/-- L of a NUM_LOSS value: clamped to −8 to 24 (R236). -/
def lossOf (w : W32) : Int := min 24 (max (-8) (sintOf 8 (w.toNat / 2 ^ 24)))

/-- NUM_CAL (R236). -/
def Numerics.calWord (n : Numerics) : W32 := BitVec.ofNat 32 (bitAt n.calActive 31 + n.stepsLeft)

/-- NUM_STATUS (R235). -/
def Numerics.statusBits (n : Numerics) : W32 :=
  BitVec.ofNat 32 (min 65535 n.replays * 65536 + bitAt n.firstUse 11 + bitAt n.writeIgnored 10 + bitAt n.committed 8
    + bitAt n.lastVote.late 7 + bitAt n.lastVote.sat 6 + bitAt n.lastVote.inf 5 + bitAt n.lastVote.nan 4)

/-! ### The numerics record (R365, R423) -/

/-- Units of 2^−149 in a sum of finite FP32 samples. -/
def sumUnits (d : Dyadic) : Nat := (d.m * 2 ^ (d.e + 149).toNat).toNat

/-- The numerics record: scale table, watched histories, layer telemetry, gauges with the exact sums of their first samples, NUM_LOSS,
NUM_CAL and NUM_STEP; `promoted` lists the promoted layers (R243). The manual names the contents and no layout; this one is the model's
(DESIGN CHOICE, log 43). -/
def Numerics.recordBytes (n : Numerics) (promoted : List Nat) : List Byte :=
  ((List.range 65536).map fun i => leBytes 8 (mget scaleReset n.scale i).toNat).flatten
    ++ ((List.range 1024).map fun i => leBytes 4 (mget 0 n.hist i).toNat).flatten
    ++ ((List.range 4096).map fun i => (mget Layer.reset n.layers i).bytes).flatten
    ++ ((List.range 256).map fun i => let g := mget Gauge.reset n.gauges i; g.bytes promoted ++ leBytes 40 (sumUnits g.sum)).flatten
    ++ leBytes 4 n.lossWord.toNat ++ leBytes 4 n.calWord.toNat ++ leBytes 8 n.step.toNat

/-- Bytes of the numerics record. -/
def numericsBytes : Nat := 524288 + 4096 + 65536 + 256 * 72 + 16

/-- Take over a numerics record. -/
def Numerics.withRecord (n : Numerics) (b : List Byte) : Numerics :=
  let hist := b.drop 524288
  let lay := hist.drop 4096
  let gau := lay.drop 65536
  let fin := gau.drop (256 * 72)
  { n with
    scale := mlist scaleReset 0 ((chunks 8 65536 b).map fun e => BitVec.ofNat 64 (leNat e))
    hist := mlist 0 0 ((chunks 4 1024 hist).map fun e => BitVec.ofNat 32 (leNat e))
    layers := mlist Layer.reset 0 ((chunks 16 4096 lay).map Layer.ofBytes)
    gauges := mlist Gauge.reset 0 ((chunks 72 256 gau).map fun e =>
      let u := rd e 32 40
      { Gauge.ofBytes e with sum := if u = 0 then ⟨0, 0⟩ else ⟨u, -149⟩ })
    lossL := lossOf (BitVec.ofNat 32 (rd fin 0 4)), growth := rd fin 0 2
    calActive := decide (rd fin 4 4 / 2 ^ 31 % 2 = 1), stepsLeft := rd fin 4 1 % 32
    step := BitVec.ofNat 64 (rd fin 8 8) }

end Sys2Proof.Machine
end

