-- ==== Sys2Proof/Machine/Elastic.lean ====
section
/-! DEFINITION. Elastic operation: SET_VARIANT and the course of a switch (R360 to R375), segments (R369 to R371), stays (R376 to
R379), the warp to the hot spare (R381), recovery (R382 to R384) and backup execution (R385 to R387). What other devices report is
an operand of the commands. -/

namespace Sys2Proof.Machine

/-! ### Moves and segments -/

/-- Bytes of a segment (R369). -/
def segSize : Nat := 2 ^ 26

/-- Segments of a stream of `n` bytes. -/
def segCount (n : Nat) : Nat := (n + segSize - 1) / segSize

/-- The ranges (address, bytes) of a half of the PERSISTENT regions, in plan order. -/
def Variant.halfRanges (v : Variant) (half : Bool) : List (Nat × Nat) :=
  v.persist.map fun r => (r.address + (if half then r.halfBytes else 0), r.halfBytes)

/-- The identity plan of a warp to the hot spare (R381): both halves of every PERSISTENT region, the STAY and KEPT regions, one
NUMERICS move. -/
def identityMoves (v : Variant) : List Move :=
  let go (kind : Nat) (r : Region) : Move :=
    ⟨kind, true, 0x10, 1, 0, 0, 0, r.address, r.address, if kind = 0 then r.halfBytes else r.size⟩
  v.persist.map (go 0)
    ++ (v.regions.filter fun r => decide (r.kind = 1) || (decide (r.kind = 6) && decide (r.flags / 2 % 2 = 1))).map (go 2)
    ++ [⟨1, false, 0x10, 1, 0, 0, 0, 0, 0, 0⟩]

/-- The moves of the reshape in progress. -/
def Part.movesOf (x : Part) (r : Reshape) : List Move :=
  match x.image with
  | none => []
  | some im =>
    if r.reason = 3 then
      match im.at' (if x.ela.armed then r.target else r.from') with | some v => identityMoves v | none => []
    else match r.plan.bind fun i => im.plans[i]? with
      | some pl => pl.moves
      | none => []

/-- The stay holders of position `id`, first and second (R351). -/
def Variant.holdersOf (v : Variant) (id : Nat) : List Nat :=
  let y := (id / 256 % 256 + 32 - v.y0) % 32
  let z := (id / 65536 + 32 - v.z0) % 32
  let at' (y z : Nat) : Nat := positionId (id % 256) ((v.y0 + y) % 32) ((v.z0 + z) % 32)
  if 2 ≤ v.zj then at' y (pairOf v.zj z) :: (if v.tripleStay ∧ 2 ≤ v.yj then [at' (pairOf v.yj y) z] else [])
  else if 2 ≤ v.yj then [at' (pairOf v.yj y) z] else []

/-- The STAY region this partition keeps for position `id` (R352). -/
def Variant.stayRegion (v : Variant) (id : Nat) : Option Region := v.regions.find? fun r => decide (r.kind = 1) && decide (r.layer = id)

/-- Does this device send the state of the lost position `id`: it is the first of its holders that is not lost, and its copy is CURRENT
(R382)? -/
def State.standsFor (s : State) (p id : Nat) : Bool :=
  let x := s.part p
  match x.cur with
  | some v => x.ela.lostPositions.contains id && decide ((mget Stay.empty x.ela.held id).state = 2)
      && decide (((v.holdersOf id).find? fun h => !(x.ela.lostPositions.contains h)) = some s.shardId)
  | none => false

/-- Is this device a source of a move? -/
def State.isSource (s : State) (p : Nat) (r : Reshape) (m : Move) : Bool :=
  let x := s.part p
  if r.reason = 3 then !x.ela.armed && decide (s.member = r.member)
  else !x.ela.joining && (decide (m.src = s.shardId) || (decide (r.reason = 6) && decide (m.kind ≠ 2) && s.standsFor p m.src))

/-- Is this device the destination of a move? A warp's destination is the armed spare. A KEPT region of a lost position is in no stay
(R382). -/
def State.isDest (s : State) (x : Part) (r : Reshape) (m : Move) : Bool :=
  if r.reason = 3 then x.ela.armed
  else decide (m.dst = s.shardId) && !(decide (r.reason = 6) && decide (m.kind = 2) && x.ela.lostPositions.contains m.src)

/-- The place in a stream over ranges of the byte at address `a`; `at'` is where the ranges begin in it. -/
def placeIn : List (Nat × Nat) → Nat → Nat → Option Nat
  | [], _, _ => none
  | (b, n) :: l, at', a => if b ≤ a ∧ a < b + n then some (at' + (a - b)) else placeIn l (at' + n) a

/-- Bytes of a NUMERICS move: the record, and zeros to a multiple of 2 MiB (R365, R369; the zeros are a DESIGN CHOICE, log 204). -/
def numericsStream : Nat := 2 ^ 21

/-- The ranges that a move sends from this partition (R365): a PERSISTENT range of half 0, then the same range of half 1; a KEPT range; for
a lost position, the range of its current half as the stay has it, for both (R382). -/
def State.sourceRanges (s : State) (v : Variant) (r : Reshape) (m : Move) : List (Nat × Nat) :=
  if m.kind = 1 then []
  else if r.reason = 6 ∧ m.src ≠ s.shardId then
    match v.stayRegion m.src, placeIn (v.halfRanges false) 0 m.srcAddr with
    | some q, some o => [(q.address + o, m.bytes), (q.address + o, m.bytes)]
    | _, _ => []
  else if m.kind = 0 then [(m.srcAddr, m.bytes), (otherHalf v m.srcAddr, m.bytes)]
  else [(m.srcAddr, m.bytes)]

/-- The length of a move's stream. -/
def Move.length (m : Move) : Nat := if m.kind = 0 then 2 * m.bytes else if m.kind = 1 then numericsStream else m.bytes

/-- Data bytes of a segment message: at most 256 flits of 240 bytes, the header among them (R292, R369). -/
def maxSegData : Nat := 256 * 240 - 32

/-- The 32-byte header of a segment message (R369). -/
def segHeader (move seg off count : Nat) (epoch check : W32) (last stay : Bool) : List Byte :=
  leBytes 4 move ++ leBytes 4 seg ++ leBytes 4 off ++ leBytes 4 count ++ leBytes 4 epoch.toNat ++ leBytes 4 check.toNat
    ++ leBytes 1 (bitNat last + 2 * bitNat stay) ++ leBytes 7 0

/-- Change the reshape in progress. -/
def State.modRun (s : State) (p : Nat) (f : Reshape → Reshape) : State :=
  s.modPart p fun x => { x with ela := { x.ela with run := x.ela.run.map f } }

/-- Send one segment of a move or stay on a route (R369); what is sent for the operation in progress counts in SENT_MIB (R395). -/
def State.sendSegment (s : State) (p dest route move seg : Nat) (epoch : W32) (cls : SegClass) (bytes : List Byte) : State :=
  let check := crc32 bytes
  let s := (cutRange 0 bytes.length maxSegData bytes.length).foldl (fun (s : State) c =>
    let last := decide (c.1 + c.2 = bytes.length)
    let d := (bytes.drop c.1).take c.2
    (s.send (.segment p dest move seg c.1 epoch cls last check d)).sendOn p route 3 epoch
      (segHeader move seg c.1 c.2 epoch check last (decide (cls ≠ .warp)) ++ d)) s
  if cls = .delta then s else s.modRun p fun r => { r with sentMib := r.sentMib + bytes.length / 2 ^ 20 }

/-- Ask the device at `dest` for a segment: again, or, of a holder, from its stay (R371). -/
def State.askSegment (s : State) (p dest move seg : Nat) (epoch : W32) (cls : SegClass) : State :=
  (s.send (.segment p dest move seg 0 epoch cls false 0 [])).vc5 p (if cls = .fromStay then "segment from stay" else "resend segment")

/-- Bytes over a list of ranges. -/
def rangeBytes (l : List (Nat × Nat)) : Nat := l.foldl (fun (a : Nat) e => a + e.2) 0

/-- The ranges that stream bytes `off` to `off` + `n` − 1 of a list of ranges lie in. -/
def cutRanges : List (Nat × Nat) → Nat → Nat → List (Nat × Nat)
  | [], _, _ => []
  | (a, m) :: l, off, n =>
    if n = 0 then []
    else if off < m then (a + off, min n (m - off)) :: cutRanges l 0 (n - min n (m - off))
    else cutRanges l (off - m) n

/-- Read `n` stream bytes at offset `off` over a list of ranges. -/
def State.gather (s : State) (x : Part) (l : List (Nat × Nat)) (off n : Nat) : List Byte :=
  ((cutRanges l off n).map fun e => s.hbmRead x e.1 e.2).flatten

/-- Read the source of a segment, at `off` in a stream over ranges: the address of a poisoned beat, if it meets one (R251, R253, R371). -/
def State.readSegment (s : State) (p : Nat) (ranges : List (Nat × Nat)) (off n : Nat) : State × Option Nat :=
  let rs := cutRanges ranges off n
  let s := rs.foldl (fun (s : State) e => s.readRange p e.1 e.2) s
  (s, rs.findSome? fun e => s.firstPoison (s.part p) e.1 e.2)

/-- The committed step counter: of a partition that joins or takes a place, as the numerics record that has landed gives it (R370, R376). -/
def Part.committedStep (x : Part) : W64 :=
  match x.ela.run with
  | some r => if r.numerics.isEmpty then x.num.step else (x.num.withRecord r.numerics).step
  | none => x.num.step

/-- Send those segments of a stay that `pick` takes, over ranges of partition memory; one that meets poison is not sent (R371, R377,
R378). -/
def State.sendStay (s : State) (p dest : Nat) (cls : SegClass) (epoch : W32) (ranges : List (Nat × Nat)) (pick : Nat → Bool) : State :=
  let bytes := s.gather (s.part p) ranges 0 (rangeBytes ranges)
  (((chunks segSize (segCount bytes.length) bytes).zipIdx).filter fun e => pick e.2).foldl (fun (s : State) e =>
    let (s, bad) := s.readSegment p ranges (e.2 * segSize) e.1.length
    if bad.isSome then s else s.sendSegment p dest (s.wayTo dest) 0xFFFFFFFF e.2 epoch cls e.1) s

/-- The position a move of the reshape goes to. -/
def State.moveDest (s : State) (r : Reshape) (m : Move) : Nat := if r.reason = 3 then s.shardId else m.dst

/-- Write stream bytes at offset `off` over a list of ranges. -/
def State.scatter (s : State) (p : Nat) : List (Nat × Nat) → Nat → List Byte → State
  | [], _, _ => s
  | (a, n) :: l, off, bs =>
    if bs.isEmpty then s
    else if off < n then (s.hbmWrite p (a + off) (bs.take (n - off))).scatter p l 0 (bs.drop (n - off))
    else s.scatter p l (off - n) bs

/-- The destination ranges of a move. -/
def Move.destRanges (m : Move) (v : Variant) : List (Nat × Nat) :=
  if m.kind = 0 then [(m.dstAddr, m.bytes), (otherHalf v m.dstAddr, m.bytes)] else if m.kind = 1 then [] else [(m.dstAddr, m.bytes)]

/-- The segment in arrival that a message belongs to. -/
def segOf (l : List SegRun) (move seg : Nat) : SegRun :=
  (l.find? fun g => decide (g.move = move) && decide (g.segment = seg)).getD ⟨move, seg, [], 0, none, 0, false⟩

/-- Put a segment back among those in arrival. -/
def putSeg (l : List SegRun) (g : SegRun) : List SegRun :=
  (l.filter fun h => !(decide (h.move = g.move) && decide (h.segment = g.segment))) ++ [g]

/-- A message of a segment has come; SEG_CHECK counts in the last one (R369, R371). -/
def SegRun.more (g : SegRun) (keep : Bool) (off : Nat) (last : Bool) (check : W32) (bytes : List Byte) : SegRun :=
  { g with
    done := false, data := if keep then msetList 0 g.data off bytes else g.data
    got := g.got + bytes.length, check := if last then some check else g.check }

/-- Has a segment of `len` bytes come whole? -/
def SegRun.whole (g : SegRun) (len : Nat) : Bool := decide (len ≤ g.got) && g.check.isSome

/-- A segment verified. -/
def SegRun.verified (g : SegRun) : SegRun := { g with got := 0, check := none, data := [], resends := 0, done := true }

/-- A segment that has failed its check and is sent again whole. -/
def SegRun.failed (g : SegRun) : SegRun := { g with got := 0, check := none, data := [], resends := g.resends + 1 }

/-- A warp segment message from position `src` at its destination (R370, R371): a segment sent again after it was verified is to be verified
again. -/
def State.warpSegment (s : State) (p l src move seg off : Nat) (epoch : W32) (last : Bool) (check : W32) (bytes : List Byte) : State :=
  let x := s.part p
  match x.ela.run, x.goal with
  | some r, some v =>
    match (x.movesOf r)[move]? with
    | none => s.staleOn l
    | some m =>
      if epoch ≠ x.ela.warpEpoch ∨ !(s.isDest x r m) then s.staleOn l
      else
        let old := segOf r.segments move seg
        let num := decide (m.kind = 1)
        let s := if num then s else s.scatter p (m.destRanges v) (seg * segSize + off) bytes
        let left := r.segmentsLeft + bitNat old.done
        let g := old.more num off last check bytes
        let len := min segSize (m.length - seg * segSize)
        if !(g.whole len) then s.modRun p fun r => { r with segments := putSeg r.segments g, segmentsLeft := left }
        else
          let data := if num then mgetList 0 g.data 0 len else s.gather (s.part p) (m.destRanges v) (seg * segSize) len
          if g.check = some (crc32 data) then
            let s := if num then s.modRun p fun r => { r with numerics := data.take numericsBytes } else s
            s.modRun p fun r => { r with
              segments := putSeg r.segments g.verified, segmentsLeft := left - 1, phase := if r.phase = 4 ∧ left ≤ 1 then 5 else r.phase }
          else if 3 ≤ g.resends then s.endReshape p 6
          else
            let s := (s.modPart p fun x => x.elaEvent 1).modRun p fun r => { r with segments := putSeg r.segments g.failed, segmentsLeft := left }
            s.askSegment p src move seg epoch .resendWarp
  | _, _ => s.staleOn l

/-- Carry a segment of move `i` to its destination: on its ROUTE, or, for a LOCAL move, within this device; a warp goes over the gang port
between the two (R365, R369, R381). -/
def State.carrySegment (s : State) (p i : Nat) (r : Reshape) (m : Move) (seg : Nat) (bytes : List Byte) : State :=
  let e := (s.part p).ela.warpEpoch
  let dest := s.moveDest r m
  if m.route = 0 then s.warpSegment p 0 s.shardId i seg 0 e true (crc32 bytes) bytes
  else s.sendSegment p dest (if r.reason = 3 ∨ m.src ≠ s.shardId then s.wayTo dest else m.route) i seg e .warp bytes

/-- The stays of the shape in force: those that the boundary found, while a switch has gone past it (R373). -/
def Part.oldStays (x : Part) : Stay × Stay × SMap Stay := (x.ela.run.bind fun r => r.stays).getD (x.ela.stay1, x.ela.stay2, x.ela.held)

/-- A segment of a move has met a poisoned beat. Where its range lies in the current half and a stay of the source is CURRENT, that holder
sends it instead; else the reshape ends with POISON (R371). -/
def State.failSegment (s : State) (p : Nat) (v : Variant) (ranges : List (Nat × Nat)) (move seg : Nat) : State :=
  let x := s.part p
  let inCurrent := ranges.all fun e => (v.halfRanges x.half).any fun h => decide (h.1 ≤ e.1) && decide (e.1 + e.2 ≤ h.1 + h.2)
  let holder := if x.oldStays.1.state = 2 then (s.holders v)[0]? else if x.oldStays.2.1.state = 2 then (s.holders v)[1]? else none
  match inCurrent, holder with
  | true, some h => s.askSegment p h move seg x.ela.warpEpoch .fromStay
  | _, _ => s.endReshape p 7

/-- The bytes that a move sends from this partition (R365). -/
def State.moveStream (s : State) (p : Nat) (v : Variant) (r : Reshape) (m : Move) : List Byte :=
  let x := s.part p
  if m.kind = 1 then padTo numericsStream (x.num.recordBytes x.promotedLayers)
  else s.gather x (s.sourceRanges v r m) 0 (rangeBytes (s.sourceRanges v r m))

/-- Send the segments of move `i` that `pick` takes, as long as the reshape goes on (R369, R371). -/
def State.sendSegments (s : State) (p i : Nat) (m : Move) (pick : Nat → List Byte → Bool) : State :=
  match (s.part p).ela.run, (s.part p).cur with
  | some r, some v =>
    let stream := s.moveStream p v r m
    let ranges := s.sourceRanges v r m
    (((chunks segSize (segCount stream.length) stream).zipIdx).filter fun e => pick e.2 e.1).foldl (fun (s : State) e =>
      match (s.part p).ela.run with
      | some r =>
        let (s, bad) := s.readSegment p ranges (e.2 * segSize) e.1.length
        if bad.isSome then s.failSegment p v (cutRanges ranges (e.2 * segSize) e.1.length) i e.2 else s.carrySegment p i r m e.2 e.1
      | none => s) s
  | _, _ => s

/-- Send move `i` of the reshape (R369). -/
def State.sendMove (s : State) (p i : Nat) (m : Move) : State := s.sendSegments p i m fun _ _ => true

/-- A holder sends a segment of a move from the stay it has of the move's source, if that is CURRENT (R371). -/
def State.sendFromStay (s : State) (p src move seg : Nat) (epoch : W32) : State :=
  let x := s.part p
  match x.ela.run, x.cur, x.cur.bind fun v => v.stayRegion src with
  | some r, some v, some q =>
    match (x.movesOf r)[move]? with
    | some m =>
      let ranges := [(m.srcAddr, m.bytes), (otherHalf v m.srcAddr, m.bytes)]
      let part := cutRanges ranges (seg * segSize) (min segSize (m.length - seg * segSize))
      let mine := part.filterMap fun e => (placeIn (v.halfRanges x.half) 0 e.1).map fun o => (q.address + o, e.2)
      if m.kind ≠ 0 ∨ epoch ≠ x.ela.warpEpoch ∨ (mget Stay.empty x.oldStays.2.2 src).state ≠ 2 ∨ mine.length ≠ part.length then s
      else
        let (s, bad) := s.readSegment p mine 0 (rangeBytes mine)
        let dest := if r.reason = 3 then src else m.dst
        if bad.isSome then s
        else s.sendSegment p dest (s.wayTo dest) move seg epoch .warp (s.gather (s.part p) mine 0 (rangeBytes mine))
    | none => s
  | _, _, _ => s

/-! ### SET_VARIANT (R362, R372 step 1, R374) -/

/-- What a SET_VARIANT is found to need: the refusal of R372 step 1, or the variant it adopts and the plan. -/
inductive SetCheck where
  | refuse (reason : Nat)
  | go (target : Nat) (plan : Option Nat) (leaving : Bool)
  deriving DecidableEq, Repr

/-- The checks of R372 step 1 (R360, R361, R368, R390), another switch or recovery first of all (R399). A partition that the target's box
does not hold leaves the job and adopts nothing, so that variant's mark does not refuse it (DEDUCED from R361, log 72). -/
def State.setCheck (s : State) (p target reason : Nat) : SetCheck :=
  let x := s.part p
  if x.ela.run.isSome then .refuse 3
  else match x.image with
  | none => .refuse 1
  | some im =>
    let old := x.cur
    let want := if reason = 3 then (match x.variant with | some i => some i | none => some target) else some target
    match want.bind im.at' with
    | none => .refuse 1
    | some t =>
      let res := if reason = 3 then want else (im.resolve t x.num.calActive x.level).1
      match res with
      | none => .refuse 1
      | some i =>
        let same := match old with | some v => sameShape v t | none => false
        let mine := decide (reason = 3) || t.holds s.shardId
        if mine && !(im.available i) then .refuse 1
        else
          let steady := im.ofShape t 1 0
          let from' := old.bind fun v => im.ofShape v 1 0
          let plan := (im.plans.zipIdx.find? fun e => decide (some e.1.dst = steady) && (x.ela.joining || decide (some e.1.frm = from'))).map fun e =>
            (e.2, e.1.available)
          let planOk := same || decide (reason = 3) || (match plan with | some e => e.2 | none => false)
          let w := (im.at' i).getD t
          let noninv := match old with
            | some v => decide (v.invGroup ≠ w.invGroup) || (decide (w.descFlags % 2 = 1) && decide (x.variant ≠ some i))
            | none => false
          if !planOk then .refuse 2
          else if noninv && x.ela.ctrl.getLsbD 27 then .refuse 9
          else .go i (if same ∨ reason = 3 then none else plan.map (·.1)) (!mine)

/-- A switch that musters: REASON, target, member, plan (R372). -/
def newRun (x : Part) (reason target member : Nat) (plan : Option Nat) (leaving : Bool) (time : W64) : Reshape :=
  { phase := 1, reason := reason, target := target, from' := x.variant.getD 0, member := member, id := 0, lease := 0, deadline := none, cmd := none
    plan := plan, pauseAt := none, cutAt := none, passes := 0, segments := [], segmentsLeft := 0, toSend := 0, sentMib := 0, verified := false
    numerics := [], stays := none, leaving := leaving, startedAt := time }

/-- Does partition `p` leave its place in a warp of `member` (R381)? -/
def State.warpLeaves (s : State) (p member : Nat) : Bool := !(s.part p).ela.armed && decide (s.member = member)

/-- A SET_VARIANT starts its switch, or completes RESHAPE_ABORTED; its DEADLINE counts from receipt (R362, R363, R372, R374, R399). -/
def setVariantEffect (p : Nat) (c : Cmd) (s : State) : State :=
  let x := s.part p
  let target := c.arg 0 1
  let reason := c.arg 1 1 % 16
  let member := c.arg 2 1 % 8
  let id := BitVec.ofNat 32 (c.arg 8 4)
  match s.setCheck p target reason with
  | .refuse r =>
    (s.modPart p fun x => { x.elaEvent 0 with ela := { (x.elaEvent 0).ela with
      last := elaLast 0x52 r reason (x.variant.getD 0) target 0, lastReason := reason } }).finish p c.key 0x52 (BitVec.ofNat 32 r)
      (BitVec.ofNat 64 id.toNat)
  | .go i plan leaving =>
    let dead := if c.deadlineSecs = 0 then none else some (c.received + BitVec.ofNat 64 (c.deadlineSecs * 100000000))
    let est := (s.expectedBoundary p - s.time.toNat + x.reefTicks plan + 9999999) / 10000000
    let r := { newRun x reason i member plan (leaving || (decide (reason = 3) && s.warpLeaves p member)) s.time with
      id := id, lease := BitVec.ofNat 32 (c.arg 12 4), deadline := dead, cmd := some c.key }
    let s := s.modPart p fun x => { x with ela := { x.ela with
      run := some r, ctrlNow := x.ela.ctrl, lastReason := reason, estimate := if reason = 1 then min 65535 est else 0 } }
    (s.modRun p fun r => { r with cutAt := s.cutTime p r }).vc5 p "muster"

/-- The Tack core starts a warp of `member`, of variant `target`, of its own accord: on a partition that holds the job, or on the armed spare,
while no other switch or recovery is in progress (R381, R399). -/
def State.tackWarp (s : State) (p member target : Nat) : State :=
  let x := s.part p
  if x.image.isNone || x.ela.run.isSome || !x.sound || (x.cur.isNone && !x.ela.armed) then s
  else
    let r := newRun x 3 target member none (s.warpLeaves p member) s.time
    (s.modPart p fun x => { x with ela := { x.ela with run := some r, ctrlNow := x.ela.ctrl, lastReason := 3, estimate := 0 } }).vc5 p "muster"

/-- SET_VARIANT: command `key`, whose REASON is not CANCEL, starts. -/
def execSetVariant (p key : Nat) (s : State) : Out :=
  match (s.part p).cmd key with
  | some c => if c.arg 1 1 % 16 = 15 then .next s else s.startCmd p key 4 (setVariantEffect p)
  | none => .next s

/-- A CANCEL ends the reshape of its RESHAPE_ID before the switch, and completes OK (R362). -/
def cancelEffect (p : Nat) (c : Cmd) (s : State) : State :=
  match (s.part p).ela.run with
  | some r =>
    let s := if r.id.toNat = c.arg 8 4 ∧ r.phase ≠ 8 then s.endReshape p 0xA else s
    s.finish p c.key 0 0 0
  | none => s.finish p c.key 0 0 0

/-- SET_VARIANT_CANCEL: command `key`, whose REASON is CANCEL. -/
def execSetVariantCancel (p key : Nat) (s : State) : Out :=
  match (s.part p).cmd key with
  | some c => if c.arg 1 1 % 16 = 15 then s.startCmd p key 4 (cancelEffect p) else .next s
  | none => .next s

/-- CUT_STEP: at the computed moment the running step ends by discard, PREEMPTED_REEF (R374). -/
def execCutStep (p : Nat) (s : State) : Out :=
  let x := s.part p
  match x.ela.run.bind fun r => r.cutAt with
  | some t =>
    if x.stepOpen && x.sound && decide (t.toNat ≤ s.time.toNat) then
      let s := (s.discardNow p 0x44 x.num.vote).modRun p fun r => { r with cutAt := none }
      .next (s.heldStrikes p (s.part p).caps.held.length)
    else .next s
  | none => .next s

/-! ### The course of a switch (R372) -/

/-- The moves of the reshape that this device sends, with their index. -/
def State.mySources (s : State) (p : Nat) : List (Move × Nat) :=
  let x := s.part p
  match x.ela.run with
  | some r => (x.movesOf r).zipIdx.filter fun e => s.isSource p r e.1
  | none => []

/-- Segments of some moves. -/
def segsOf (l : List Move) : Nat := (l.map fun m => segCount m.length).foldl (fun (a : Nat) b => a + b) 0

/-- MUSTER_COMPLETE: every unit has reported; the warp epoch is one more than the highest any partition holds (R370, R372). Sources of
PRECOPY moves start a dirty session and send every segment. With the muster of a warp that Tack has started, each unit learns of it
(R381). -/
def execMusterComplete (p : Nat) (m : Muster) (s : State) : Out :=
  let s := match m.warp with | some w => s.tackWarp p w.1 w.2 | none => s
  let x := s.part p
  match x.ela.run with
  | none => .next s
  | some r =>
    if r.phase ≠ 1 then .next s
    else
      let e := max m.highest.toNat x.ela.warpEpoch.toNat + 1
      let left := segsOf ((x.movesOf r).filter fun m => s.isDest x r m)
      let pre := (s.mySources p).filter fun m => m.1.precopy
      let later := segsOf (((s.mySources p).filter fun m => !m.1.precopy).map (·.1))
      let anyPre := (x.movesOf r).any (·.precopy)
      let s := s.modPart p fun x => { x with
        mem := if pre.isEmpty then x.mem else { x.mem with dirtyActive := true, dirty := [] }
        ela := { x.ela with
          warpEpoch := BitVec.ofNat 32 e
          run := some { r with phase := if anyPre then 2 else 3, segmentsLeft := left, toSend := later } } }
      .next (pre.foldl (fun (s : State) m => s.sendMove p m.2 m.1) s)

/-- MUSTER_TIMEOUT: a muster not complete in 2 s, or by an earlier deadline, ends the reshape (R372). -/
def execMusterTimeout (p : Nat) (s : State) : Out :=
  match (s.part p).ela.run with
  | none => .next s
  | some r =>
    let late := decide (r.startedAt.toNat + 200000000 ≤ s.time.toNat)
      || (match r.deadline with | some d => decide (d.toNat ≤ s.time.toNat) | none => false)
    if r.phase = 1 ∧ late then .next (s.endReshape p 4) else .next s

/-- The dirty granules of a range of partition memory (R262). -/
def dirtyIn (m : MemRec) (a n : Nat) : List Nat :=
  if n = 0 then [] else ((List.range ((a + n - 1) / 2 ^ 21 - a / 2 ^ 21 + 1)).map (a / 2 ^ 21 + ·)).filter fun g => mget false m.dirty g

/-- One TEST_AND_CLEAR pass over the PRECOPY moves this device sends: the segments that hold a dirty granule are sent again
(R263, R372). The count of dirty granules is returned. -/
def State.copyPass (s : State) (p : Nat) : State × Nat :=
  let x := s.part p
  match x.ela.run, x.cur with
  | some r, some v =>
    let pre := (s.mySources p).filter fun m => m.1.precopy
    let dirty := (pre.map fun m => ((s.sourceRanges v r m.1).map fun e => dirtyIn x.mem e.1 e.2).flatten).flatten.eraseDups
    let s := s.modPart p fun x => { x with mem := { x.mem with
      dirty := dirty.foldl (fun (m : SMap Bool) g => mset false m g false) x.mem.dirty } }
    let s := pre.foldl (fun (s : State) m =>
      s.sendSegments p m.2 m.1 fun seg bytes =>
        (cutRanges (s.sourceRanges v r m.1) (seg * segSize) bytes.length).any fun e => dirty.any fun g => meets (g * 2 ^ 21) (2 ^ 21) e.1 e.2) s
    (s, dirty.length)
  | _, _ => (s, 0)

/-- PRECOPY_PASS: a pass ends; precopy ends with it when it found at most 512 granules dirty, or was the eighth (R372). -/
def execPrecopyPass (p : Nat) (s : State) : Out :=
  match (s.part p).ela.run with
  | none => .next s
  | some r =>
    if r.phase ≠ 2 then .next s
    else
      let (s, n) := s.copyPass p
      .next (s.modRun p fun r => { r with passes := r.passes + 1, phase := if n ≤ 512 ∨ 8 ≤ r.passes + 1 then 3 else 2 })

/-- Withdraw the backup sets that still run (R387, R399). -/
def State.withdrawAll (s : State) (p : Nat) : State :=
  let live := (s.part p).ela.units.filter fun e => e.2.run && e.2.time.isNone
  let s := s.modPart p fun x => { x with ela := { x.ela with
    units := live.foldl (fun (m : SMap BackupRec) e => mset BackupRec.zero m e.1 { e.2 with run := false }) x.ela.units } }
  if live.isEmpty then s else s.vc6 p "withdraw"

/-- The boundary of a switch, or of recovery's move to a fallback shape: the stays are kept as they are found; those of which holder, region
or layout changes are empty from here on, as the new shape has them (R373, R376). -/
def State.emptyMoved (s : State) (p : Nat) : State :=
  let m1 := s.stayMoves p false
  let m2 := s.stayMoves p true
  s.modPart p fun x => { x with ela := { x.ela with
    run := x.ela.run.map fun r => { r with stays := some (x.ela.stay1, x.ela.stay2, x.ela.held) }
    stay1 := if m1 then .empty else x.ela.stay1, stay2 := if m2 then .empty else x.ela.stay2
    fill1 := x.ela.fill1 && !m1, fill2 := x.ela.fill2 && !m2
    held := x.ela.held.filter fun e => !((s.part p).heldMoves e.1), inStays := x.ela.inStays.filter fun e => !((s.part p).heldMoves e.1) } }

/-- RESHAPE_BOUNDARY: no step runs any more; the final precopy pass and STOP, then the boundary and NUMERICS moves (R372 steps 4
and 5). A backup set that still runs is withdrawn first (R399). A faulted partition ends the switch. -/
def execReshapeBoundary (p : Nat) (s : State) : Out :=
  let x := s.part p
  match x.ela.run with
  | none => .next s
  | some r =>
    if r.phase = 3 && !x.stepOpen && x.stepResult.isNone && (s.tilesInStep p).isEmpty && !x.ela.delta1 && !x.ela.delta2 then
      if x.faulted then .next (s.endReshape p 0xB)
      else
        let s := ((s.withdrawAll p).copyPass p).1
        let s := s.modPart p fun x => { x with
          mem := { x.mem with dirtyActive := false, dirty := [] }
          ela := { x.ela with run := x.ela.run.map fun r => { r with phase := 4, pauseAt := some s.time, toSend := 0 } } }
        let s := s.emptyMoved p
        .next (((s.mySources p).filter fun m => !m.1.precopy).foldl (fun (s : State) m => s.sendMove p m.2 m.1) s)
    else .next s

/-! ### Receiving segments (R369 to R371, R377, R378) -/

/-- The ranges of a STAY region that a fill (all) or a delta (without STATIC regions) covers, over the primary's plan, taken equal to
this variant's (R352, R378, R420). -/
def Variant.stayRanges (v : Variant) (base : Nat) (fill : Bool) : List (Nat × Nat) :=
  (v.persist.foldl (fun (a : List (Nat × Nat) × Nat) r =>
    ((if fill || decide (r.flags / 8 % 2 = 0) then a.1 ++ [(base + a.2, r.halfBytes)] else a.1), a.2 + r.halfBytes)) ([], 0)).1

/-- Change the stay held for position `id`, and the traffic for it in arrival: none once it is complete. -/
def Part.setHeld (x : Part) (id : Nat) (y : Stay) (t : Option InStay) : Part :=
  { x with ela := { x.ela with
      held := mset Stay.empty x.ela.held id y
      inStays := (x.ela.inStays.filter fun e => decide (e.1 ≠ id)) ++ (t.map fun t => (id, t)).toList } }

/-- The traffic that a stay message belongs to: the one in arrival, if it is the same fill or delta, else a new one. -/
def Ela.inStay (e : Ela) (id : Nat) (fill : Bool) (epoch : W32) : InStay :=
  match e.inStays.find? fun t => decide (t.1 = id) with
  | some t => if t.2.fill = fill ∧ t.2.epoch = epoch then t.2 else ⟨fill, epoch, []⟩
  | none => ⟨fill, epoch, []⟩

/-- A message of a stay fill or delta at the holder (R370, R371, R376 to R378): the copy is FILLING or UPDATING until every segment is
verified, and then CURRENT, or BEHIND if a commit has come first. A segment that fails a fourth time ends a switch in progress; else the holder
reports the stay not usable (DESIGN CHOICE, log 76: R371 speaks of the reshape only). A delta for a copy never filled is stale. -/
def State.staySegment (s : State) (p l src seg off : Nat) (epoch : W32) (fill last : Bool) (check : W32) (bytes : List Byte) : State :=
  let x := s.part p
  match x.newVariant, x.newVariant.bind fun v => v.stayRegion src with
  | some v, some region =>
    let st := mget Stay.empty x.ela.held src
    if !fill ∧ st.state = 0 then s.staleOn l
    else
      let t := x.ela.inStay src fill epoch
      let ranges := v.stayRanges region.address fill
      let total := rangeBytes ranges
      let len := min segSize (total - seg * segSize)
      let s := s.scatter p ranges (seg * segSize + off) bytes
      let busy : Stay := ⟨if fill then 1 else 3, st.step⟩
      let g := (segOf t.segments src seg).more false off last check bytes
      let put (s : State) (g : SegRun) : State := s.modPart p fun x => x.setHeld src busy (some { t with segments := putSeg t.segments g })
      if !(g.whole len) then put s g
      else if g.check = some (crc32 (s.gather (s.part p) ranges (seg * segSize) len)) then
        let done := ((putSeg t.segments g.verified).filter SegRun.done).length
        if done < segCount total then put s g.verified
        else
          let current := decide (BitVec.ofNat 32 x.committedStep.toNat = epoch)
          (s.modPart p fun x => x.setHeld src ⟨if current then 2 else 4, BitVec.ofNat 64 epoch.toNat⟩ none).vc5 p "stay verified"
      else if 3 ≤ g.resends then
        let s := s.modPart p fun x => x.setHeld src busy none
        match x.ela.run with
        | some r => if r.pauseAt.isSome ∧ r.phase ≠ 8 then s.endReshape p 6 else s.vc5 p "stay not usable"
        | none => s.vc5 p "stay not usable"
      else (put (s.modPart p (·.elaEvent 1)) g.failed).askSegment p src 0xFFFFFFFF seg epoch (if fill then .resendFill else .resendDelta)
  | _, _ => s.staleOn l

/-- The ranges of this partition's half at `epoch`, in which a fill, or a delta, is sent: the current half, or the other once a commit has
come first (R377, R378). -/
def Part.sentRanges (x : Part) (v : Variant) (fill : Bool) (epoch : W32) : List (Nat × Nat) :=
  let half := if BitVec.ofNat 32 x.committedStep.toNat = epoch then x.half else !x.half
  (v.persist.filter fun r => fill || decide (r.flags / 8 % 2 = 0)).map fun r => (r.address + (if half then r.halfBytes else 0), r.halfBytes)

/-- A holder asks for a segment of a fill or delta again (R371). -/
def State.resendStay (s : State) (p src seg : Nat) (epoch : W32) (fill : Bool) : State :=
  let x := s.part p
  match x.newVariant with
  | some v =>
    if (s.holders v).contains src then
      s.sendStay p src (if fill then .fill else .delta) epoch (x.sentRanges v fill epoch) fun i => decide (i = seg)
    else s
  | none => s

/-- A destination asks for a segment of a move again (R371). -/
def State.resendMove (s : State) (p move seg : Nat) (epoch : W32) : State :=
  match (s.mySources p).find? fun e => decide (e.2 = move) with
  | some e => if epoch = (s.part p).ela.warpEpoch then s.sendSegments p move e.1 fun i _ => decide (i = seg) else s
  | none => s

/-- SEGMENT_RECEIVE: a segment message for partition `p` arrives on link `l` from position `src`, or the request to send one (R369 to
R371). -/
def execSegmentReceive (p l src move seg off : Nat) (epoch : W32) (cls : SegClass) (last : Bool) (check : W32) (bytes : List Byte) (s : State) :
    Out :=
  if !(s.part p).exist || (s.part p).resetting.isSome then .next (s.staleOn l)
  else .next (match cls with
    | .warp => s.warpSegment p l src move seg off epoch last check bytes
    | .fill => s.staySegment p l src seg off epoch true last check bytes
    | .delta => s.staySegment p l src seg off epoch false last check bytes
    | .resendWarp => s.resendMove p move seg epoch
    | .resendFill => s.resendStay p src seg epoch true
    | .resendDelta => s.resendStay p src seg epoch false
    | .fromStay => s.sendFromStay p src move seg epoch)

/-- DESTINATION_VERIFIED: all segments of this destination are verified, and it reports so (R372 step 6). -/
def execDestinationVerified (p : Nat) (s : State) : Out :=
  match (s.part p).ela.run with
  | none => .next s
  | some r =>
    if (r.phase = 4 ∨ r.phase = 5) ∧ r.segmentsLeft = 0 ∧ !r.verified then
      .next ((s.modRun p fun r => { r with phase := 5, verified := true }).vc5 p "verified")
    else .next s

/-! ### Stays at the primary (R376 to R379) -/

/-- The holder of the first or second copy, as a position. -/
def State.holderOf (s : State) (v : Variant) (second : Bool) : Option Nat := (s.holders v)[if second then 1 else 0]?

/-- The stay's record on the primary. -/
def Ela.stay (e : Ela) (second : Bool) : Stay := if second then e.stay2 else e.stay1

/-- Write it. -/
def Ela.setStay (e : Ela) (second : Bool) (y : Stay) : Ela := if second then { e with stay2 := y } else { e with stay1 := y }

/-- Does a fill or delta to the first or second holder run? -/
def Ela.staySends (e : Ela) (second : Bool) : Bool := if second then e.fill2 || e.delta2 else e.fill1 || e.delta1

/-- Send a fill or delta to a holder. One that meets poison does not go whole: in a switch past its boundary the reshape ends with POISON,
else the copy stays unusable until it is filled anew (R371, R377, R378; the latter a DESIGN CHOICE, log 76). -/
def State.sendToHolder (s : State) (p h : Nat) (second fill : Bool) (v : Variant) : State :=
  let x := s.part p
  let e := BitVec.ofNat 32 x.committedStep.toNat
  let ranges := x.sentRanges v fill e
  let bad := ranges.any fun r => (s.firstPoison x r.1 r.2).isSome
  let s := s.sendStay p h (if fill then .fill else .delta) e ranges fun _ => true
  let s := s.modPart p fun x =>
    let e := x.ela.setStay second { x.ela.stay second with state := if fill then 1 else 3 }
    { x with ela :=
        if second then { e with fill2 := fill && !bad, delta2 := !fill && !bad } else { e with fill1 := fill && !bad, delta1 := !fill && !bad } }
  match x.ela.run with
  | some r => if bad ∧ r.pauseAt.isSome ∧ r.phase ≠ 8 then s.endReshape p 7 else s
  | none => s

/-- STAY_FILL: the whole current half goes to the first or second holder (R377): at the start of RUN_STEPS, at step 7 of a switch, or
when the holder reports its stay not usable. A switch does not send again a stay that it keeps, nor recovery one that is CURRENT. -/
def execStayFill (p : Nat) (second : Bool) (s : State) : Out :=
  let x := s.part p
  match x.newVariant with
  | none => .next s
  | some v =>
    match s.holderOf v second with
    | none => .next s
    | some h =>
      let mending := match x.ela.run with | some r => decide (r.phase = 8) | none => false
      let kept := decide ((x.ela.stay second).state = 2) && (match x.ela.run with
        | some r => r.pauseAt.isSome && !(s.stayMoves p second)
        | none => false)
      if x.ela.staySends second || (x.faulted && !mending) || kept then .next s
      else .next ((s.sendToHolder p h second true v).modRun p fun r => if r.phase = 5 then { r with phase := 6 } else r)

/-- STAY_DELTA_START: after a clean commit the update set of the new current half goes to a holder whose previous delta has
completed (R378). -/
def execStayDeltaStart (p : Nat) (second : Bool) (s : State) : Out :=
  let x := s.part p
  match x.cur with
  | none => .next s
  | some v =>
    match s.holderOf v second with
    | none => .next s
    | some h =>
      let gone := match x.ela.run with | some r => decide (3 ≤ r.phase) && s.stayMoves p second | none => false
      if x.ela.staySends second || gone || x.faulted || (x.ela.stay second).state ≠ 4 then .next s
      else .next (s.sendToHolder p h second false v)

/-- STAY_DELTA_COMPLETE: a holder has verified the last segment of a delta or fill that brings the stay to `step`: CURRENT, or BEHIND
when a commit has come first (R376 to R378). -/
def execStayDeltaComplete (p : Nat) (second : Bool) (step : W64) (s : State) : Out :=
  let x := s.part p
  if x.ela.staySends second then
    .next (s.modPart p fun x =>
      let e := x.ela.setStay second ⟨if step = x.committedStep then 2 else 4, step⟩
      { x with ela := if second then { e with fill2 := false, delta2 := false } else { e with fill1 := false, delta1 := false } })
  else .next s

/-! ### The switch (R360, R366, R372 step 8, R381) -/

/-- The loaded traverse and its numerics are gone (R415 UNLOAD). -/
def State.unload (s : State) (p : Nat) : State :=
  s.modPart p fun x => { x with
    image := none, variant := none, colls := [], collDone := [], aborted := [], queues := [], level := 0, calDue := false, stepOpen := false
    num := { Numerics.reset with sites := x.num.sites, events := x.num.events, limits := [], window := x.num.window }
    caps := { x.caps with job := 0 }
    ela := { x.ela with joining := false, armed := false, stopped := none, stay1 := .empty, stay2 := .empty, held := [], inStays := [], durations := [], units := [] } }

/-- End a running step by discard, as a cut step (R374, R426, R427). -/
def State.cutStep (s : State) (p : Nat) : State :=
  let x := s.part p
  if x.stepOpen && x.sound then s.discardNow p 0x44 x.num.vote else s

/-- Release a partition to admission (R426, R427): a running step is cut, its commands complete PREEMPTED_REEF, its tenancy closes, a
reset begins at whose end it is destroyed; `status` is what the creating request's record ends with. -/
def State.release (s : State) (p reason status : Nat) (lease id : W32) : State :=
  let s := (s.cutStep p).finishAll p 0x44 lease (BitVec.ofNat 64 id.toNat)
  let s := s.closeTenancy p reason
  let s := s.modPart p fun x => { x with destroy := some (status, lease, id) }
  s.beginReset p 3

/-- The pending admission request that waits for partition `p`, if any. -/
def State.victimOf (s : State) (p : Nat) : Option AdmReq :=
  (s.adm.slots.find? fun e => decide (e.2.slot = 1) && e.2.victims.contains p).map fun e => e.2.req

/-- The variant that a reshape adopts at its switch, the promotion level it enters, and whether PROMOTE_UNAVAILABLE is set: resolved anew, with
the promotion requests of the boundary; a warp resolves within its shape (R244, R361, R399). -/
def Part.switchTarget (x : Part) (im : Image) (r : Reshape) : Nat × Nat × Bool :=
  match im.at' r.target with
  | none => (r.target, x.level, false)
  | some t =>
    let (top, lost) := x.wantedLevel im t
    match im.resolve t x.num.calActive top with
    | (some i, miss) => (i, top, miss || lost)
    | (none, miss) => (r.target, x.level, miss || lost)

/-- A partition as its switch resolves the variant: with the numerics record that has landed, and, if it had no variant, the level of the job
it joins (R361, R365). -/
def Part.landed (x : Part) (r : Reshape) (m : SwitchEnd) : Part :=
  { x with
    num := if r.numerics.isEmpty then x.num else x.num.withRecord r.numerics
    level := if x.cur.isNone then m.level else x.level }

/-- The hot spare takes member `k`'s place: its index, its part in the gang unit, its stays (R30, R33, R381, R382). -/
def State.takePlace (s : State) (p k : Nat) (d : Place) : State :=
  { s with spareAs := some k }.modPart p fun x =>
    let x := x.elaEvent 3
    { x with
      gang := { x.gang with unitId := d.unit, role := d.role, formed := decide (d.role ≠ 0), present := d.present, index := k, lead := d.lead }
      ela := { x.ela with
        armed := false, stay1 := ⟨d.first.1, d.first.2⟩, stay2 := ⟨d.second.1, d.second.2⟩
        held := d.held.foldl (fun (m : SMap Stay) (e : Nat × Nat × W64) => mset Stay.empty m e.1 ⟨e.2.1, e.2.2⟩) [] } }

/-- Are the stays that a switch fills anew CURRENT at their holders (R372 step 7)? A spare's and those of a partition that leaves need no
fill. -/
def State.staysFilled (s : State) (p : Nat) (r : Reshape) : Bool :=
  let x := s.part p
  match x.newVariant with
  | some v => r.leaving || decide (r.reason = 3) || [false, true].all fun second =>
      (s.holderOf v second).isNone || !(s.stayMoves p second) || (decide ((x.ela.stay second).state = 2) && !(x.ela.staySends second))
  | none => true

/-- A switch is made: ELA_LAST, and its SET_VARIANT completes (R363, R395). -/
def State.switchDone (s : State) (p : Nat) (r : Reshape) (frm i : Nat) (noninv : Bool) : State :=
  let s := s.modPart p fun x =>
    let x := if noninv then x.elaEvent 7 else x
    let x := if r.reason = 6 then x.elaEvent 2 else x
    { x with ela := { x.ela with
        run := none, last := elaLast 0 0 r.reason frm i (r.pauseUs s.time), lastReason := r.reason, lostPositions := [], spares := [] } }
  match r.cmd with | some k => s.finish p k 0 0 0 | none => s

/-- Partition `p`, as it is at the switch, adopts variant `i` and promotion level `level` (R360, R366, R372 step 8, R381). -/
def State.switchIn (s : State) (p : Nat) (m : SwitchEnd) (r : Reshape) (i level : Nat) (miss noninv : Bool) : State :=
  let x := s.part p
  let joins := x.cur.isNone
  let s := if r.reason = 3 then
      { s with relayed := (s.relayed ++ [positionId r.member (coordY s.coord) (coordZ s.coord)]).eraseDups } else s
  let s := if miss then s.modNum p (·.event 6) else s
  let s := s.modPart p fun x => { (if x.level < level then x.promoted level else x) with calDue := false }
  let s := if x.servesPromotion then s.modNum p fun n => { n with promoteReq := [] } else s
  let s := s.adopt p i
  let s := s.modPart p fun x =>
    let y := x.queuesBoundary
    { y with
      caps := { y.caps with epoch := m.epoch + 1 }, colls := [], exch := .none
      half := if joins then m.half else y.half, lendSeen := lendMap m.lends
      ela := { y.ela with
        joining := false
        held := match y.cur with | some v => y.ela.held.filter (fun (e : Nat × Stay) => (s.primaries v).contains e.1) | none => [] } }
  let s := match m.place with
    | some d => if r.reason = 3 ∧ x.ela.armed then s.takePlace p r.member d else s
    | none => s
  let frm := if joins then m.frm else r.from'
  let s := ((s.afterEpoch p).switchDone p r frm i noninv).serveSwitch p
  s.heldStrikes p (s.part p).caps.held.length

/-- RESHAPE_SWITCH: the coordinator's SWITCH, once every segment is verified and every stay filled (R366, R372 step 8): the partition adopts
the variant and CAP_EPOCH E + 1, and one that joins the selector, or it leaves the job and is reset. -/
def execReshapeSwitch (p : Nat) (m : SwitchEnd) (s : State) : Out :=
  match (s.part p).ela.run, (s.part p).image with
  | some r, some im =>
    let x := (s.part p).landed r m
    let ready := r.pauseAt.isSome && decide (r.phase ≠ 8) && (r.verified || decide (r.segmentsLeft = 0)) && s.staysFilled p r
    let (i, level, miss) := x.switchTarget im r
    let frm := if x.cur.isNone then m.frm else r.from'
    let noninv := match im.at' frm with | some v => im.noninv v i && decide (frm ≠ i) | none => false
    if !ready || x.faulted then .next s
    else if r.leaving then
      let s := (s.switchDone p r r.from' i false).unload p
      match s.victimOf p with
      | some q => .next (s.release p 2 0x44 q.lease q.reshapeId)
      | none => .next (s.beginReset p 2)
    else if !(im.available i) then .next (s.endReshape p 1)
    else if noninv && x.ela.ctrlNow.getLsbD 27 then .next (s.endReshape p 9)
    else .next ((s.setPart p x).switchIn p m r i level miss noninv)
  | _, _ => .next s

/-- RESHAPE_DEADLINE: the deadline passes before the switch (R375). -/
def execReshapeDeadline (p : Nat) (s : State) : Out :=
  match (s.part p).ela.run.bind fun r => r.deadline with
  | some d => if d.toNat ≤ s.time.toNat then .next (s.endReshape p 5) else .next s
  | none => .next s

/-! ### Recovery (R382 to R384) -/

/-- A recovery in progress, as the reshape record keeps it (R393). -/
def recoveryRun (variant : Nat) (settled : Bool) (time : W64) : Reshape :=
  { phase := 8, reason := 6, target := variant, from' := variant, member := 0, id := 0, lease := 0, deadline := none, cmd := none
    plan := none, pauseAt := some time, cutAt := none, passes := 0, segments := [], segmentsLeft := 0, toSend := 0
    sentMib := 0, verified := settled, leaving := false, startedAt := time, numerics := [], stays := none }

/-- A partition whose commit exchange had completed when the strike came, but which had not switched, completes its switch (R382 step 2):
`others` are the records that completed it. -/
def State.finishCommit (s : State) (p : Nat) (others : List (Nat × ExchRec)) : State :=
  let x := s.part p
  match x.ela.stopped with
  | none => s
  | some e =>
    let (n, v) := { x with exch := e }.mergeOthers (others.map fun (e : Nat × ExchRec) => e.2)
    if s.allRecords p others && v.isClean then
      let (m, es) := n.commitStep
      let ended := decide (x.num.stepsLeft ≠ 0) && decide (m.stepsLeft = 0)
      (s.modPart p fun x => { x with
        num := { m with global := some v }, half := !x.half, calDue := x.calDue || ended
        ela := { x.ela.afterCommit with stopped := none } }).softEvents p n.step es
    else s

/-- RECOVERY_START: the job's partitions are FAULTED and AUTO_RECOVER is set on the coordinator, whose ELA_CTRL the recovery acts on
(R382, R392). -/
def execRecoveryStart (b : RecoveryBegin) (s : State) : Out :=
  let x := s.part b.part
  let ctrl := s.jobCtrl b.part b.ctrl
  if x.exist && x.faulted && x.image.isSome && ctrl.getLsbD 31 && x.ela.run.isNone then
    let r := recoveryRun (x.variant.getD 0) false s.time
    .next ((s.modPart b.part fun x => { x with ela := { x.ela with
      run := some r, ctrlNow := ctrl, lastReason := 6, estimate := 0, wave := 0, lostPositions := [], spares := []
      shardLost := false } }).finishCommit b.part b.others)
  else .next s

/-- Has the partition no accepted operation outstanding (R382 step 1)? -/
def State.quiet (s : State) (p : Nat) : Bool :=
  (s.part p).colls.isEmpty && (s.part p).enabled.all fun t =>
    let y := s.tile t
    y.mq.isEmpty && y.vq.isEmpty && y.xq.isEmpty && y.cq.isEmpty && y.arr.isEmpty && y.portB.isNone && y.vrun.isEmpty && y.xrun.isEmpty

/-- SETTLE_TIMEOUT: the settle bound of 50 ms has passed (R382 step 1). -/
def execSettleTimeout (p : Nat) (s : State) : Out :=
  match (s.part p).ela.run with
  | some r =>
    if r.phase = 8 ∧ !r.verified ∧ r.startedAt.toNat + 5000000 ≤ s.time.toNat then .next (s.modRun p fun r => { r with verified := true })
    else .next s
  | none => .next s

/-- ELA_LOST with one more affected shard (R383, R395). -/
def elaLost (old : W64) (stale : Bool) (shard : Nat) (step : W64) : W64 :=
  let valid := old.getLsbD 31
  let least := if valid then min (old.toNat % 2 ^ 21) shard else shard
  let st := if valid ∧ old.toNat % 2 ^ 21 < shard then old.getLsbD 29 else stale
  BitVec.ofNat 64 (step.toNat % 2 ^ 32 * 2 ^ 32 + 2 ^ 31 + bitAt valid 30 + bitAt st 29 + least)

/-- Recovery ends without restoring the job (R382, R383): the outcome is recorded and the partition stays FAULTED. -/
def State.recoveryEnds (s : State) (p outcome : Nat) : State :=
  s.modPart p fun x =>
    match x.ela.run with
    | some r => { x with ela := { x.ela with
        run := none, wave := 0, last := elaLast outcome 0 6 r.from' r.target (r.pauseUs s.time), shardLost := decide (outcome ≠ 0x12) } }
    | none => x

/-- A lost position has no source for its state: STAY_STALE when a reachable copy is BEHIND or UPDATING, else SHARD_LOST (R383). -/
def State.loseShard (s : State) (p id : Nat) (stays : List (Nat × Nat × W64)) : State :=
  let behind := stays.find? fun y => decide (y.2.1 = 3) || decide (y.2.1 = 4)
  let stale := behind.isSome
  let s := s.modPart p fun x =>
    let x := x.elaEvent (if stale then 4 else 5)
    { x with ela := { x.ela with
        lost := elaLost x.ela.lost stale id x.num.step, staleStep := match behind with | some y => y.2.2 | none => x.ela.staleStep } }
  s.recoveryEnds p (if stale then 0x51 else 0x50)

/-- The variant of a fallback shape and the warp plan to it: its box omits every lost position, variant and plan are available, and, where
REQUIRE_INVARIANT is in force, R390 does not refuse it (R361, R382 step 3). -/
def Part.fallback (x : Part) (im : Image) (v : Variant) (lost : List Nat) : Option (Nat × Nat) :=
  im.variants.findSome? fun e =>
    let plan := im.plans.findIdx? fun pl => decide (pl.dst = e.1) && decide (some pl.frm = im.ofShape v 1 0) && pl.available
    match (im.resolve e.2 x.num.calActive x.level).1, plan with
    | some i, some k =>
      if e.2.kind = 1 ∧ lost.all (fun q => !(e.2.holds q)) ∧ im.available i ∧ !(im.noninv v i && x.ela.ctrlNow.getLsbD 27) then some (i, k)
      else none
    | _, _ => none

/-- Send bytes to a position that recovery restores, as segments of move `move`: 0 the image, 1 the numerics record, zeros to a multiple of 2 MiB
(R369, R382; the numbers and the zeros are a DESIGN CHOICE, log 204). -/
def State.sendStream (s : State) (p dest move : Nat) (bytes : List Byte) : State :=
  let n := (bytes.length + 2 ^ 21 - 1) / 2 ^ 21 * 2 ^ 21
  ((chunks segSize (segCount n) (padTo n bytes)).zipIdx).foldl (fun (s : State) e =>
    s.sendSegment p dest (s.wayTo dest) move e.2 (s.part p).ela.warpEpoch .warp e.1) s

/-- What this partition sends for the restore of position `id`: as its source the image, the numerics record and the state, of the stay it
holds or, a replica, of its own current half; and its own current half to the copy that `id` holds of it (R382 steps 5, 7 and 8). -/
def State.bringIn (s : State) (p id : Nat) (source : Bool) : State :=
  let x := s.part p
  match x.image, x.cur with
  | some im, some v =>
    let e := BitVec.ofNat 32 x.num.step.toNat
    let s := if source then
        let s := (s.sendStream p id 0 im.raw).sendStream p id 1 (x.num.recordBytes x.promotedLayers)
        match v.stayRegion id with
        | some q => s.sendStay p id .fill e [(q.address, q.size)] fun _ => true
        | none => s.sendStay p id .fill e (v.halfRanges x.half) fun _ => true
      else s
    [false, true].foldl (fun (s : State) second =>
      if s.holderOf v second = some id then s.sendToHolder p id second true v else s) s
  | _, _ => s

/-- POSITION_LOST: position `id` has not answered on VC5 for 100 ms, or the only copy read for it has failed (R382 steps 3 and 4, R383,
R384). `spare`: its gang has an armed spare; `replica`: a reachable replica at its member index and stage. Its source is the first holder
with a usable stay, else the replica of a job that is not Z_SHARDED (R399). A spare assigned takes the place at once, and what it receives is
relayed (R381, and the example after R384). Once recovery has ended for a lost shard, further ones are still recorded. -/
def execPositionLost (p id : Nat) (spare : Bool) (replica : Option Nat) (loss : PositionLoss) (s : State) : Out :=
  let x := s.part p
  let early := match loss.silentSince with | some t => decide (s.time.toNat < t.toNat + 10000000) | none => false
  match x.image, x.cur with
  | some im, some v =>
    let stay := (loss.stays.find? fun y => decide (y.2.1 = 2)).map (·.1)
    let source := stay.orElse fun _ => if v.flags % 2 = 1 then none else replica
    match x.ela.run with
    | some r =>
      if r.phase ≠ 8 || early then .next s
      else
        let lost := if x.ela.lostPositions.contains id then x.ela.lostPositions else x.ela.lostPositions ++ [id]
        let s := s.modPart p fun x => { x with ela := { x.ela with lostPositions := lost } }
        let useSpare := x.ela.ctrlNow.getLsbD 30 && spare
        let shape := if useSpare ∨ !(x.ela.ctrlNow.getLsbD 29) then none else x.fallback im v lost
        match source with
        | none => .next (if !useSpare ∧ shape.isNone then s.recoveryEnds p 0x12 else s.loseShard p id loss.stays)
        | some h =>
          if useSpare then
            let s := { s with relayed := (s.relayed ++ [id]).eraseDups }.modPart p fun x => { x with ela := { x.ela with
              spares := (x.ela.spares ++ [id]).eraseDups } }
            .next (s.bringIn p id (decide (h = s.shardId)))
          else match shape with
            | some t => .next (s.modRun p fun r => { r with target := t.1, plan := some t.2 })
            | none => .next (s.recoveryEnds p 0x12)
    | none => if x.faulted && x.ela.shardLost && !early && source.isNone then .next (s.loseShard p id loss.stays) else .next s
  | _, _ => .next s

/-- Is a position in wave A: an even offset on the pairing axis (R382)? -/
def State.inWaveA (s : State) (v : Variant) : Bool :=
  decide ((if 2 ≤ v.zj then s.replicaOf v else s.stageOf v) % 2 = 0)

/-- Send what the partitions of the wave that is reset are restored from: to each primary, unless an earlier holder of it does, and to the
holder on the pairing axis (R382 steps 7 and 8). -/
def State.sendWave (s : State) (p : Nat) (v : Variant) : State :=
  let lost := (s.part p).ela.lostPositions
  let ids := (s.primaries v ++ s.holders v).eraseDups.filter fun id => !(lost.contains id)
  ids.foldl (fun (s : State) id =>
    s.bringIn p id ((s.primaries v).contains id && decide (((v.holdersOf id).find? fun h => !(lost.contains h)) = some s.shardId))) s

/-- A partition with no traverse takes over what it is restored from (R366, R382 steps 5 and 7): both halves receive its half. A spare takes
its place with it. -/
def State.restore (s : State) (p wave : Nat) (d : Restore) : State :=
  let keep := (s.part p).ela
  let s := s.install p d.image false false d.lends
  let s := (s.modNum p fun n => n.withRecord d.numerics).adopt p d.variant
  let s := s.modPart p fun y => { y with
    half := d.selector, level := d.level
    ela := { y.ela with
      run := keep.run, wave := wave, lastReason := 6, warpEpoch := keep.warpEpoch, lost := keep.lost, events := keep.events
      lostPositions := keep.lostPositions, spares := keep.spares, armed := false
      stay1 := ⟨d.own.1.1, d.own.1.2⟩, stay2 := ⟨d.own.2.1, d.own.2.2⟩ } }
  let s := match d.member with | some m => s.takePlace p m.1 m.2 | none => s
  match (s.part p).cur with
  | none => s
  | some v =>
    let s := s.scatter p (v.halfRanges true) 0 d.half
    let s := s.scatter p (v.halfRanges false) 0 d.half
    d.stays.foldl (fun (s : State) e =>
      match v.regions.find? fun q => decide (q.kind = 1) && decide (q.layer = e.1) with
      | some q => (s.hbmWrite p q.address (e.2.take q.size)).modPart p fun x => { x with ela := { x.ela with
          held := mset Stay.empty x.ela.held e.1 ⟨2, x.num.step⟩ } }
      | none => s) s

/-- RECOVERY_WAVE: the partitions of wave A (1) or B (2) are reset and restored from the other wave (R382 steps 7 and 8). A partition of
the wave is reset first; once that is done, what arrives restores it, with the checks of LOAD_TRAVERSE. A partition of the other wave
sends what it holds for them. An armed spare is brought in the same way and takes its member index (step 5). -/
def execRecoveryWave (p wave : Nat) (data : Option Restore) (s : State) : Out :=
  let x := s.part p
  match x.ela.run, data with
  | none, some d =>
    match d.member with
    | some m =>
      if x.exist && x.ela.armed && coordSpare s.coord && (s.loadFault p d.image false true).isNone then
        let s := { s with spareAs := some m.1 }
        let s := s.modPart p fun x => { x with ela := { x.ela with run := some (recoveryRun d.variant true s.time) } }
        .next (s.restore p wave d)
      else .next s
    | none => .next s
  | none, none => .next s
  | some r, _ =>
    if r.phase ≠ 8 || x.resetting.isSome || !(r.verified || s.quiet p) then .next s
    else match data, x.image, x.cur with
      | none, some _, some v =>
        let s := s.modPart p fun x => { x with ela := { x.ela with wave := wave } }
        if s.inWaveA v = decide (wave = 1) then .next (s.beginReset p 4) else .next (s.sendWave p v)
      | some d, none, _ => if (s.loadFault p d.image false false).isSome then .next s else .next (s.restore p wave d)
      | _, _, _ => .next s

/-- The restored job goes to a fallback shape: its warp plan's moves are sent, those of lost positions from their stays, and the switch follows
as any other (R382 steps 3 and 9; that it is made from the restored shape is DEDUCED, log 205). -/
def State.fallbackSwitch (s : State) (p : Nat) (r : Reshape) : State :=
  let x := s.part p
  let holds := match x.image.bind fun im => im.at' r.target with | some v => v.holds s.shardId | none => false
  let left := segsOf ((x.movesOf r).filter fun m => s.isDest x r m)
  let s := s.modPart p fun x => { x with ela := { x.ela with
    warpEpoch := x.ela.warpEpoch + 1, wave := 0, run := some { r with phase := 4, segmentsLeft := left, verified := false, leaving := !holds } } }
  let s := s.emptyMoved p
  (s.mySources p).foldl (fun (s : State) m => s.sendMove p m.2 m.1) s

/-- RECOVERY_REFORM: the job is re-formed at the committed step with CAP_EPOCH E + 1; relaying for each spare starts; the partition is
LOADED (R382 step 9). -/
def execRecoveryReform (p : Nat) (m : Reform) (s : State) : Out :=
  let x := s.part p
  match x.ela.run with
  | some r =>
    if r.phase = 8 && !x.faulted && x.image.isSome && x.resetting.isNone then
      if r.plan.isSome then .next (s.fallbackSwitch p r)
      else
        let s := { s with relayed := (s.relayed ++ x.ela.spares).eraseDups }
        let s := s.modPart p fun x =>
          let y := x.queuesBoundary.elaEvent 2
          let y := if x.ela.spares.isEmpty then y else y.elaEvent 3
          { y with
            caps := { y.caps with epoch := m.epoch + 1 }, colls := [], exch := .none, lendSeen := lendMap m.lends
            ela := { y.ela with
              run := none, wave := 0, lostPositions := [], spares := [], lastReason := 6
              last := elaLast 0 0 6 r.from' r.target (r.pauseUs s.time) } }
        let s := s.afterEpoch p
        .next (s.heldStrikes p (s.part p).caps.held.length)
    else .next s
  | none => .next s

/-! ### Backup execution (R385 to R387) -/

/-- The copy of this partition's half that the holder at `h` has. -/
def State.copyAt (s : State) (p : Nat) (v : Variant) (h : Nat) : Stay :=
  let e := (s.part p).ela
  if s.holderOf v false = some h then e.stay1 else if s.holderOf v true = some h then e.stay2 else .empty

/-- Change what is kept of backup unit `i`. -/
def State.modUnit (s : State) (p i : Nat) (f : BackupRec → BackupRec) : State :=
  s.modPart p fun x => { x with ela := { x.ela with units := mmod BackupRec.zero x.ela.units i f } }

/-- Add 1 to a signal counter of a logical tile. -/
def State.bump (s : State) (p : Nat) (c : Nat × Nat) : State :=
  match (s.part p).physOf c.1 with | some t => s.modTile t fun x => x.addCounter c.2 1 | none => s

/-- Is S complete: every strand of its stations INACTIVE, its operations complete (R386)? -/
def State.stationsDone (s : State) (p : Nat) (v : Variant) (u : BackupUnit) : Bool :=
  (v.starts.filter fun e => u.stations.contains e.station.toNat).all fun e =>
    match (s.part p).physOf e.tile with
    | some t => decide (((s.tile t).strand e.strand).sched = .inactive) && (s.openOps t e.strand).isEmpty
    | none => true

/-- Start S′ on the tiles reserved at the backup position; they owe the step no COMMIT of their own (R385, R386; the latter a DESIGN CHOICE,
log 201). -/
def State.startBackup (s : State) (p : Nat) (u : BackupUnit) : State :=
  let s := u.starts.foldl (fun (s : State) e => s.startStrand p e.1 e.2.1 e.2.2.1 e.2.2.2.1 e.2.2.2.2) s
  u.starts.foldl (fun (s : State) e => match (s.part p).physOf e.1 with
    | some t => s.modTile t fun x => { x with worked := false }
    | none => s) s

/-- BACKUP_TRIGGER: S of a backup unit runs past FACTOR ÷ 16 of its median duration: S′ is started once in the step, by a message on VC6, if the
backup position's copy is CURRENT; else the case is counted once. At the backup position the message starts S′ (R386, R397). -/
def execBackupTrigger (b : BackupEvent) (s : State) : Out :=
  let p := b.part
  let x := s.part p
  match x.cur, x.backupUnits[b.unit]? with
  | some v, some u =>
    let y := mget BackupRec.zero x.ela.units b.unit
    let late := decide (x.ela.backup.toNat / 256 % 256 * lowerMedian y.durations < 16 * (s.time - x.stepStart).toNat)
    if !x.stepOpen || !x.sound then .next s
    else if b.atBackup then .next (if u.position = s.shardId then s.startBackup p u else s)
    else if x.ela.ctrlNow.getLsbD 26 && decide (x.ela.backup.toNat % 256 ≤ y.durations.length) && !y.run && !y.refused && y.time.isNone && late then
      if (s.copyAt p v u.position).state = 2 then
        .next (((s.modUnit p b.unit fun y => { y with run := true }).modPart p fun x => { x with ela := { x.ela with
          started := sat16 x.ela.started 1 } }).vc6 p "start")
      else .next ((s.modUnit p b.unit fun y => { y with refused := true }).modPart p fun x => { x with ela := { x.ela with
          notStarted := BitVec.ofNat 8 (min 255 (x.ela.notStarted.toNat + 1)) } })
    else .next s
  | _, _ => .next s

/-- BACKUP_DONE: the first of S and S′ is complete: on the primary the done counter rises, the other set's withdraw counter does, here or, by a
message, at the backup position, and the duration is kept for the commit (R386, R387). -/
def execBackupDone (p : Nat) (b : BackupOutcome) (s : State) : Out :=
  let x := s.part p
  match x.cur, x.backupUnits[b.unit]? with
  | some v, some u =>
    let y := mget BackupRec.zero x.ela.units b.unit
    if b.atBackup then .next (if u.position = s.shardId then s.bump p u.withdrawBackup else s)
    else if x.stepOpen && y.time.isNone && (if b.byBackup then y.run else s.stationsDone p v u) then
      let s := (s.modUnit p b.unit fun y => { y with time := some (s.time - x.stepStart) }).bump p u.done
      if b.byBackup then
        .next ((s.bump p u.withdraw).modPart p fun x => { x with ela := { x.ela with
          backupWon := BitVec.ofNat 8 (min 255 (x.ela.backupWon.toNat + 1)) } })
      else .next (if y.run then s.vc6 p "withdraw" else s)
    else .next s
  | _, _ => .next s

end Sys2Proof.Machine
end

