-- ==== Sys2Proof/Machine/Host.lean ====
section
/-! DEFINITION. The host's side: scrubbing (R59, R60, R254), BAR2 (R250), host reads and DMA (R256 to R261), the commands a partition
runs for its host (R415 to R418, R423), gang units (R33 to R38, R431, R432), heartbeat and hove-to (R433 to R435). -/

namespace Sys2Proof.Machine

/-! ### Scrubbing -/

/-- TILE_SCRUB_READ: the scrubber of tile `t` reads its next line: single-bit errors are corrected and written back, the line after it
is next (R59, R60). -/
def execTileScrubRead (t : Nat) (s : State) : Out :=
  let x := s.tile t
  let (u, w) := if x.scrub < 65536 then (0, 4 * x.scrub) else (3, 4 * (x.scrub - 65536))
  let next := (x.scrub + 1) % 66048
  let s := s.countEcc t u w 4 none
  .next (s.modTile t fun y => { y with
    scrub := next
    ecc := if y.ecc.isEmpty then y.ecc else (List.range 4).foldl (fun (m : SMap Nat) j =>
      if mget 0 m (eccKey u (w + j)) = 1 then mset 0 m (eccKey u (w + j)) 0 else m) y.ecc })

/-- Beats of a stack (R248). -/
def stackBeats : Nat := 48 * 2 ^ 30 / 32

/-- The partition address of stack offset `o` of bay `b`, the inverse of the granule spread (R248). -/
def Part.addrOf (x : Part) (b o : Nat) : Nat :=
  let i := x.bays.findIdx fun c => decide (c = b)
  (o / 4096 * x.bays.length + i) * 4096 + o % 4096

/-- HBM_SCRUB_READ: the scrubber of bay `b` reads its next beat; a pass over the partition's lowest stack is counted (R251, R252,
R254). A stack in no partition is corrected and poisoned alike. -/
def execHbmScrubRead (b : Nat) (s : State) : Out :=
  let i := mget 0 s.hbmScrub b
  let last := decide (i + 1 = stackBeats)
  let s := { s with hbmScrub := mset 0 s.hbmScrub b (if last then 0 else i + 1) }
  let k := (b * 2 ^ 36 + 32 * i) / 32
  match s.ownerOfBay b with
  | some p =>
    let s := s.readBeat p 1 ((s.part p).addrOf b (32 * i) / 32)
    if last ∧ (s.part p).bays.head? = some b then
      .next (s.modPart p fun x => { x with mem := { x.mem with scrubPasses := sat16 x.mem.scrubPasses 1 } })
    else .next s
  | none =>
    match mget 0 s.hbmErr k with
    | 0 => .next s
    | 1 => .next { s with hbmErr := mset 0 s.hbmErr k 0 }
    | n => if eccOut n = .bad then .next (s.poisonFree k 1) else .next s

/-! ### BAR2 (R250, R402, R405) -/

/-- Count an access beyond the partition. -/
def State.barDropped (s : State) (p : Nat) : State :=
  s.modPart p fun x => { x with mem := { x.mem with bar2Dropped := sat32 x.mem.bar2Dropped 1 } }

/-- What R401 and R402 say that a function presents; offsets, sizes and counts. A virtual function's own header reads 0xFFFF as vendor, and its
IDs are those of the SR-IOV capability. -/
structure PciConfig where
  vendor : Nat
  device : Nat
  classCode : Nat
  subVendor : Nat
  subId : Nat
  msixVectors : Nat
  maxPayload : Nat
  tagBits : Nat
  totalVfs : Nat
  firstVfOffset : Nat
  vfStride : Nat
  serial : Option W64
  doe : Bool
  bar0Bytes : Nat
  bar4Bytes : Nat
  deriving DecidableEq, Repr

/-- The configuration of function `fn`: 0 is the physical function (R401, R402). -/
def pciConfig (fn : Nat) : PciConfig :=
  { vendor := if fn = 0 then 0x1F3C else 0xFFFF, device := if fn = 0 then 0x0909 else 0x090A, classCode := 0x120000, subVendor := 0x1F3C, subId := 1
    msixVectors := if fn = 0 then 32 else 17, maxPayload := 512, tagBits := 14, totalVfs := if fn = 0 then 12 else 0
    firstVfOffset := if fn = 0 then 1 else 0, vfStride := if fn = 0 then 1 else 0, serial := if fn = 0 then some Config.serial else none
    doe := decide (fn = 0), bar0Bytes := 2 ^ 26, bar4Bytes := if fn = 0 then 2 ^ 16 else 0 }

/-- The partition that a function's BAR2 shows: the physical function the device partition, another its own (R250, R402). -/
def State.barPart (s : State) (p : Nat) (physical : Bool) : Option Nat :=
  if physical then (List.range 12).find? fun q => (s.part q).exist && (s.part q).isDevice
  else if (s.part p).exist then some p else none

/-- The function through which an access to BAR2 comes. -/
def State.barFunction (s : State) (p : Nat) (physical : Bool) : Nat := if physical then 0 else (s.part p).function p

/-- BAR2_READ: a host read of `r.len` bytes at BAR2 offset `o` of the function of partition `p`, or of the physical function: at most 4,096 bytes,
inside the window (R250); all ones where it shows no partition (R402); with a poisoned beat, or poison from a die crossing, the completion is
poisoned (R24, R253). -/
def execBar2Read (p o : Nat) (r : BarRead) (s : State) : Out :=
  let n := r.len
  let fn := s.barFunction p r.physical
  let ones : Msg := .barData fn (List.replicate n (0xFF : Byte)) false
  if 4096 < n ∨ s.windowSize fn < o + n then .next s
  else match s.barPart p r.physical with
    | none => .next (s.send ones)
    | some p =>
      let x := s.part p
      let a := x.bar2Base * 2 ^ 21 + o
      if x.resetting.isSome then .next (s.send ones)
      else if x.hbmSize < a + n then .next ((s.barDropped p).send ones)
      else
        let poisoned := (s.firstPoison x a n).isSome || (crossedWord r.arrived ((n + 3) / 4)).isSome
        let s := (s.readRange p a n).countRetries r.arrived.crossings
        .next (s.send (.barData fn (s.hbmRead (s.part p) a n) poisoned))

/-- Words of the `n` bytes at partition address `a` that a failed die crossing has delivered poisoned leave their beats poisoned with SOURCE
2 (R24, R68, R252). -/
def State.crossedBeats (s : State) (p a n : Nat) (c : Crossed (List Nat)) : State :=
  (c.poison.filter fun j => c.failed && decide (4 * j < n)).foldl (fun s j => s.poisonBeat p ((a + 4 * j) / 32) 2) s

/-- BAR2_WRITE: a host write at BAR2 offset `o`, of at most 512 bytes, inside the window (R250); dropped where the function shows no partition
(R402); one that arrives poisoned leaves its beats poisoned with SOURCE 3, one that a die crossing poisons with SOURCE 2 (R24, R252). -/
def execBar2Write (p o : Nat) (bytes : List Byte) (r : BarWrite) (s : State) : Out :=
  if 512 < bytes.length ∨ s.windowSize (s.barFunction p r.physical) < o + bytes.length then .next s
  else match s.barPart p r.physical with
    | none => .next s
    | some p =>
      let x := s.part p
      let a := x.bar2Base * 2 ^ 21 + o
      if x.resetting.isSome then .next s
      else if x.hbmSize < a + bytes.length then .next (s.barDropped p)
      else
        let s := (s.writeHbm p a bytes).countRetries r.arrived.crossings
        .next ((if r.poisoned then (beatsOf a bytes.length).foldl (fun (s : State) b => s.poisonBeat p b 3) s else s).crossedBeats
          p a bytes.length r.arrived)

/-! ### Host DMA and reads (R256, R259 to R261) -/

/-- The effect of DMA_H2D and DMA_D2H: a descriptor slot is taken; a range beyond the partition's HBM completes STORE_BOUNDS. `a` is how the
data of a DMA_D2H comes over the die crossings to the PCIe controller: the words that they deliver poisoned (R24, R68). -/
def hostDmaEffect (p : Nat) (a : Crossed (List Nat)) (c : Cmd) (s : State) : State :=
  let x := s.part p
  if x.hbmSize < c.arg 8 8 + c.arg 16 8 then s.finish p c.key cBounds 0 0
  else
    let e := x.hostEngine c.sq
    let s := ((s.engineTake e).countRetries a.crossings).modPart p fun x => x.modCmd c.key fun c => { c with
      engine := some e, crossed := if a.failed then a.poison.filter fun j => decide (4 * j < c.arg 16 8) else [] }
    if c.op = 0x10 then s.startRead p (.cmd c.key) true [(c.arg 0 8, c.arg 8 8, c.arg 16 8)] else s

/-- Start host DMA command `key`: it waits while its engine has no free slot (R257). -/
def State.startHostDma (s : State) (p key op : Nat) (a : Crossed (List Nat)) : Out :=
  match (s.part p).cmd key with
  | some c => if s.engineHeld ((s.part p).hostEngine c.sq) < 64 then s.startCmd p key op (hostDmaEffect p a) else .next s
  | none => .next s

/-- DMA_H2D: command `key` of partition `p` starts (R259). -/
def execDmaH2d (p key : Nat) (s : State) : Out := s.startHostDma p key 0x10 ⟨[], []⟩

/-- DMA_D2H: command `d.key` of partition `p` starts (R259). -/
def execDmaD2h (p : Nat) (d : HostTransfer) (s : State) : Out := s.startHostDma p d.key 0x11 d.arrived

/-- DESCRIPTOR_SLOT_FREE: a waiting tile or host command takes a freed descriptor slot (R257). -/
def execDescriptorSlotFree (taker : SlotTaker) (s : State) : Out :=
  match taker with
  | .tile t => .next (releaseMoves s t (s.tile t).xq)
  | .command p key =>
    match (s.part p).cmd key with
    | some c => if c.op = 0x10 ∨ c.op = 0x11 then s.startHostDma p key c.op ⟨[], []⟩ else .next s
    | none => .next s

/-- Has the timeout of the command that owns a read expired: its own, or the running step's (R273, R416)? -/
def State.readLate (s : State) (p : Nat) : ReadOwner → Bool
  | .none => true
  | .cmd key => match (s.part p).cmd key with
    | some c => decide (c.start.toNat + c.timeout ≤ s.time.toNat)
    | none => false
  | .tile _ _ => match s.runCmd p with
    | some c => decide (c.start.toNat + c.timeout ≤ s.time.toNat)
    | none => false

/-- Bytes of a request reach the owner of slot `r`: HBM at once, where poisoned ones leave their beats poisoned, with SOURCE 3 when the TLP
was and with SOURCE 2 when a die crossing has done it (R24, R252, R253), or what the owner gathers once the request is whole. -/
def State.deliver (s : State) (p : Nat) (r : ReqSlot) (bytes : List Byte) (a : HostArrival) (whole : Bool) : State :=
  let poisoned := a.poisoned
  let crossed := (crossedWord a.arrived ((bytes.length + 3) / 4)).isSome
  let at' := r.dest + r.buf.length
  match (s.part p).hostRead r.owner with
  | none => s
  | some h =>
    if h.hbm then
      let s := s.writeHbm p at' bytes
      let s := if poisoned then (beatsOf at' bytes.length).foldl (fun (s : State) b => s.poisonBeat p b 3) s else s
      let s := s.crossedBeats p at' bytes.length a.arrived
      match r.owner with
      | .cmd key => s.modPart p fun x => x.modCmd key fun c => { c with
          moved := if whole then c.moved + r.len else c.moved
          poison := if poisoned then c.poison.orElse fun _ => some at' else c.poison
          ecc := c.ecc || crossed }
      | _ => s
    else if whole then
      s.modPart p fun x => x.modRead r.owner fun h => { h with data := h.data ++ [(r.dest, r.buf ++ bytes, r.bad || poisoned || crossed)] }
    else s

/-- HOST_READ_COMPLETION: a completion with tag `tag` arrives with all of its request or the next part of it: accepted when its slot waits
at that epoch, else late (R260); one in the cycle of its command's timeout is late (R273). -/
def execHostReadCompletion (p tag : Nat) (bytes : List Byte) (a : HostArrival) (s : State) : Out :=
  let x := s.part p
  let i := tag % 2048
  let r := x.reqSlot i
  if !x.exist then .next s
  else if r.waiting ∧ x.tag i = tag ∧ r.buf.length + bytes.length ≤ r.len ∧ !(s.readLate p r.owner) then
    let whole := decide (r.buf.length + bytes.length = r.len)
    let next : ReqSlot := if whole then { ReqSlot.zero with epoch := r.epoch } else
      { r with used := 0, buf := r.buf ++ bytes
               bad := r.bad || a.poisoned || (crossedWord a.arrived ((bytes.length + 3) / 4)).isSome }
    .next ((((s.countRetries a.arrived.crossings).deliver p r bytes a whole).modPart p fun x => x.setReq i next).issueReads p 2048)
  else .next (s.modPart p fun x => { x with mem := { x.mem with lateCpl := sat32 x.mem.lateCpl 1 } })

/-- HOST_COMPLETION_TIMEOUT: the request of slot `i` has met the completion timeout: an advisory error is recorded, and it is reissued at the
next epoch, until all eight are used (R261). -/
def execHostCompletionTimeout (p i : Nat) (s : State) : Out :=
  let x := s.part p
  let r := x.reqSlot i
  let fn := x.function p
  if x.exist && r.waiting then
    let s := { s with pci := mmod PciFn.reset s.pci fn fun c => { c with advisory := true } }
    if r.used < 7 then
      let y := x.setReq i { r with epoch := r.epoch + 1, used := r.used + 1, buf := [], bad := false }
      let y := { y with mem := { y.mem with cplRetries := sat32 y.mem.cplRetries 1 } }
      .next ((s.setPart p y).send (.hostRead fn (y.tag i) r.addr r.len))
    else .next s
  else .next s

/-- TAG_SLOT_HOLDOFF_END: slot `i` returns to use (R261 rule 5). -/
def execTagSlotHoldoffEnd (p i : Nat) (s : State) : Out :=
  let x := s.part p
  if (x.reqSlot i).held then .next ((s.setPart p (x.setReq i { x.reqSlot i with held := false })).issueReads p 2048) else .next s

/-- Send `n` bytes of partition memory at `a` to bus address `h`: poisoned beats in TLPs of their own, with `crossed` every TLP poisoned
(R24, R253, R259). The first poisoned address is returned. -/
def State.sendHost (s : State) (p a h n : Nat) (crossed : Bool) : State × Option Nat :=
  let x := s.part p
  let bad := s.firstPoison x a n
  let s := s.readRange p a n
  let x := s.part p
  let fn := x.function p
  if bad.isNone then (s.hostSend fn h (s.hbmRead x a n) crossed, none)
  else
    let go := (beatsOf a n).foldl (fun (s : State) b =>
      let lo := max a (32 * b)
      let hi := min (a + n) (32 * b + 32)
      s.hostSend fn (h + (lo - a)) (s.hbmRead x lo (hi - lo)) (s.beatPoisoned x b || crossed)) s
    (go, bad)

/-- Send up to `k` payloads of a DMA_D2H. -/
def State.sendPayloads (s : State) (p key : Nat) : Nat → State
  | 0 => s
  | k + 1 =>
    match (s.part p).cmd key with
    | none => s
    | some c =>
      let total := c.arg 16 8
      if total ≤ c.moved then s
      else
        let h := c.arg 0 8 + c.moved
        let most := max 1 (min 512 (s.pciOf ((s.part p).function p)).maxPayload)
        let n := min (min most (4096 - h % 4096)) (total - c.moved)
        let crossed := c.crossed.any fun j => decide (4 * j < c.moved + n) && decide (c.moved < 4 * j + 4)
        let (s, bad) := s.sendHost p (c.arg 8 8 + c.moved) h n crossed
        (s.modPart p fun x => x.modCmd key fun c => { c with
          moved := c.moved + n, poison := c.poison.orElse (fun _ => bad), ecc := c.ecc || crossed }).sendPayloads p key k

/-- HOST_POSTED_CREDIT: the host returns credits for `n` posted writes, and DMA_D2H `key` goes on (R261). -/
def execHostPostedCredit (p key n : Nat) (s : State) : Out :=
  match (s.part p).cmd key with
  | some c => if c.op = 0x11 ∧ c.engine.isSome then .next (s.sendPayloads p key n) else .next s
  | none => .next s

/-- HOST_DMA_COMPLETE: a DMA_H2D has written its last byte, or a DMA_D2H has sent its last write; a poisoned beat on the way makes the
status HBM_POISON, for a DMA_H2D with the first poisoned destination address in DETAIL1 (R253, R259); else a word that a die crossing has
poisoned makes it ECC_UNCORRECTABLE (R24; DEDUCED, log 150). -/
def execHostDmaComplete (p key : Nat) (s : State) : Out :=
  match (s.part p).cmd key with
  | none => .next s
  | some c =>
    if c.engine.isNone then .next s
    else if c.op = 0x10 then
      if c.moved = c.arg 16 8 then
        .next (match c.poison with
          | some a => s.finish p key cPoison 0 (BitVec.ofNat 64 a)
          | none => s.finish p key (if c.ecc then cEcc else 0) 0 0)
      else .next s
    else
      let s := s.sendPayloads p key (c.arg 16 8)
      let (bad, ecc) := match (s.part p).cmd key with | some c => (c.poison.isSome, c.ecc) | none => (false, false)
      .next (s.finish p key (if bad then cPoison else if ecc then cEcc else 0) 0 0)

/-! ### Commands that run at once -/

/-- UNLOAD: the traverse is discarded, and a reset follows with ZERO or in FAULTED (R405, R415). -/
def unloadEffect (p : Nat) (c : Cmd) (s : State) : State :=
  let zero := decide (c.opflags % 2 = 1) || (s.part p).faulted
  let s := s.finish p c.key 0 0 0
  let s := s.unload p
  let s := s.modPart p fun x => { x with hove := if x.hove.state = 2 then { x.hove with state := 0, cause := 0 } else x.hove }
  if zero then s.beginReset p 2 else s

/-- UNLOAD: command `key` of partition `p`. -/
def execUnload (p key : Nat) (s : State) : Out := s.startCmd p key 2 (unloadEffect p)

/-- RUN_STEPS: command `key` of partition `p` starts; its steps are started one by one (R415). -/
def execRunSteps (p key : Nat) (s : State) : Out := s.startCmd p key 3 fun _ s => s

/-- FENCE_COMMAND: command `key` starts, and completes once every command taken before it, from its queue or with ALL_QUEUES from every
queue, has completed (R415). -/
def execFenceCommand (p key : Nat) (s : State) : Out :=
  let x := s.part p
  match x.cmd key with
  | none => .next s
  | some c =>
    if c.op ≠ 0x20 then .next s
    else
      let before := x.cmds.takeWhile fun d => decide (d.key ≠ key)
      let open' := before.any fun d => decide (d.origin ≠ .admission) && (decide (c.opflags % 2 = 1) || decide (d.sq = c.sq))
      let done (_ : Cmd) (s : State) : State := if open' then s else s.finish p key 0 0 0
      if c.started then .next (done c s) else s.startCmd p key 0x20 done

/-- OPEN_TENANCY: the opening is declared to the Cadastre, on whose acceptance the command completes; refused while one is open
(R415, R557). -/
def openTenancyEffect (p : Nat) (c : Cmd) (s : State) : State :=
  if (s.part p).tenancy ≠ 0 then s.finish p c.key 0x45 0x13 0
  else s.declare (.opening p (BitVec.ofNat 64 (c.arg 0 8)) c.key)

/-- OPEN_TENANCY: command `key` of partition `p`. -/
def execOpenTenancy (p key : Nat) (s : State) : Out := s.startCmd p key 0x30 (openTenancyEffect p)

/-- CLOSE_TENANCY: the open tenancy closes with reason HOST; none open refuses it with NO_TENANCY (R415, R419, R436). -/
def closeTenancyEffect (p : Nat) (c : Cmd) (s : State) : State :=
  if (s.part p).tenancy = 0 then s.finish p c.key 0x45 0x11 0 else (s.closeTenancy p 0).finish p c.key 0 0 0

/-- CLOSE_TENANCY: command `key` of partition `p`. -/
def execCloseTenancy (p key : Nat) (s : State) : Out := s.startCmd p key 0x31 (closeTenancyEffect p)

/-! ### QUERY (R36, R346, R354, R418, R472) -/

/-- The idle record (R354). -/
def IdleRec.bytes (r : IdleRec) : List Byte :=
  leBytes 8 (r.step.toNat * 2 ^ 32 + r.tiles % 4096) ++ leBytes 8 r.time.toNat ++ leBytes 8 r.busy.toNat
    ++ ((List.range 10).map fun c => leBytes 8 (mget 0 r.idle c).toNat).flatten ++ leBytes 24 0

/-- The memory record (R272). -/
def MemRec.bytes (m : MemRec) : List Byte :=
  leBytes 4 m.corrSymbols.toNat ++ leBytes 4 m.uncorrBeats.toNat ++ leBytes 4 m.poisonReads.toNat ++ leBytes 4 m.cplRetries.toNat
    ++ leBytes 4 m.lateCpl.toNat ++ leBytes 4 m.bar2Dropped.toNat ++ leBytes 4 (m.scrubPasses.toNat * 65536)
    ++ leBytes 4 (bitAt m.dirtyActive 31 + (m.dirty.filter fun e => e.2).length)
    ++ leBytes 8 (match m.lastPoison with | some (src, a) => 2 ^ 63 + src * 2 ^ 40 + a | none => 0)
    ++ leBytes 4 m.lentEpoch.toNat ++ leBytes 20 0

/-- One queue record (R346). -/
def queueRecord (q : QueueBinding) (st : QueueState) (consumer : Bool) : List Byte :=
  let occ := (st.full.filter fun e => e.2).length
  leBytes 4 (q.queueId * 65536 + bitAt consumer 15 + q.depth % 2048)
    ++ leBytes 4 (if consumer then st.highWater * 2 ^ 21 + occ * 1024 else 0)
    ++ leBytes 4 (if consumer then 0 else st.credits)
    ++ leBytes 4 (if consumer then st.gets else st.puts)
    ++ leBytes 8 (if consumer then st.waitTicksIn else st.waitTicks).toNat ++ leBytes 4 st.discarded.toNat ++ leBytes 20 0

/-- The queue records of a partition from QUEUE_ID `first`, in QUEUE_ID order: a LOCAL queue's producer side, then its consumer side. -/
def State.queueRecords (s : State) (p first : Nat) : List Byte :=
  let x := s.part p
  match x.cur with
  | none => []
  | some v =>
    let y := s.stageOf v
    let mine := sortBy (fun a b => decide (a.1.queueId ≤ b.1.queueId)) (v.queues.zipIdx.filter fun e => decide (first ≤ e.1.queueId))
    (mine.map fun e =>
      (if e.1.producerStage = y then queueRecord e.1 (x.queue e.2) false else [])
        ++ (if v.consumerStage e.1 = some y then queueRecord e.1 (x.queue e.2) true else [])).flatten

/-- The remap table from logical tile `first` (R71). -/
def Part.remapBytes (x : Part) (first : Nat) : List Byte :=
  ((List.range (x.tiles - first)).map fun i => leBytes 4 (mget 0 x.remap (first + i)).toNat).flatten

/-- Tile control space and signal counters of a tile (R73, R97): 1,280 bytes. -/
def State.controlSpace (s : State) (t : Nat) : List Byte :=
  ((List.range 320).map fun i => leBytes 4 (s.ldsValue t (0x110000 + 4 * i) 4)).flatten

/-- The unit counters (R472). -/
def State.unitCounters (s : State) (p : Nat) : List Byte :=
  let x := s.part p
  let sum (f : SiteRec → Nat) : Nat := x.num.sites.foldl (fun (a : Nat) e => a + f e.2) 0
  leBytes 8 x.idleRec.step.toNat ++ leBytes 8 x.idleRec.busy.toNat
    ++ ((List.range 10).map fun c => leBytes 8 (mget 0 x.idleRec.idle c).toNat).flatten
    ++ leBytes 8 (sum (·.sat)) ++ leBytes 8 (sum (·.flush)) ++ leBytes 8 (sum (·.nan)) ++ leBytes 8 (sum (·.inf)) ++ leBytes 8 (sum (·.invalid))
    ++ ([x.wit.selected, x.wit.compared, x.wit.result, x.wit.operand, x.wit.unmatched].map fun v => leBytes 8 v.toNat).flatten

/-- Add the 64-bit words of records from word `first` to `last`; the rest is the first record's (R36). -/
def sumWords (a b : List Byte) (first last : Nat) : List Byte :=
  ((List.range (a.length / 8)).map fun i =>
    leBytes 8 (if first ≤ i ∧ i ≤ last then rd a (8 * i) 8 + rd b (8 * i) 8 else rd a (8 * i) 8)).flatten

/-- The record of this device that KIND and ARG name; none where ARG names no tile. -/
def State.ownRecord (s : State) (p kind arg : Nat) : Option (List Byte) :=
  let x := s.part p
  match kind with
  | 0 => some (leBytes 8 (s.summary p).toNat)
  | 1 => some (s.faultBytes p)
  | 2 => some x.idleRec.bytes
  | 3 => some x.mem.bytes
  | 4 => some (s.queueRecords p arg)
  | 5 => some (x.remapBytes arg)
  | 6 => (x.physOf arg).map s.controlSpace
  | _ => some (s.unitCounters p)

/-- The record a QUERY returns; `others` are the records of the gang's other members (R35, R36, R418). -/
def State.queryRecord (s : State) (p : Nat) (c : Cmd) (others : List (Nat × List Byte)) : Option (List Byte) :=
  let x := s.part p
  let kind := c.arg 0 1
  let member := c.arg 1 1
  let own := s.ownRecord p kind (c.arg 4 4)
  let of (m : Nat) : Option (List Byte) := (others.find? fun e => decide (e.1 = m)).map (·.2)
  if !x.isLead then own
  else if member ≠ 0xFF then
    (if member = s.member then (if kind = 0 then some (leBytes 8 (s.summaryOf p false).toNat) else own) else of member)
  else match kind with
    | 1 => match reportedFault (s.unitFaults p) with
      | some f => if f.1 = s.member then own else of f.1
      | none => own
    | 2 => own.map fun a => others.foldl (fun (a : List Byte) e => sumWords a e.2 2 12) a
    | 7 => own.map fun a => others.foldl (fun (a : List Byte) e => sumWords a e.2 1 21) a
    | _ => own

/-- The effect of QUERY. A member's own part writes nothing: the lead writes the record (R418). -/
def queryEffect (p : Nat) (others : List (Nat × List Byte)) (c : Cmd) (s : State) : State :=
  match s.queryRecord p c others with
  | none => s.finish p c.key cIllegal 0 0
  | some r =>
    if c.origin = .lead then s.finish p c.key 0 (BitVec.ofNat 32 r.length) (BitVec.ofNat 64 r.length)
    else if c.arg 16 4 < r.length then s.finish p c.key cBounds 0 (BitVec.ofNat 64 r.length)
    else (s.hostSend ((s.part p).function p) (c.arg 8 8) r false).finish p c.key 0 (BitVec.ofNat 32 r.length) (BitVec.ofNat 64 r.length)

/-- QUERY: command `key` of partition `p`; `others` are the records that the other members of a gang unit have returned. -/
def execQuery (p key : Nat) (others : List (Nat × List Byte)) (s : State) : Out := s.startCmd p key 0x22 (queryEffect p others)

/-! ### Checkpoints (R423) -/

/-- Bytes cut into segments, each followed by its SEG_CHECK. -/
def withChecks (b : List Byte) : List Byte :=
  ((chunks segSize (segCount b.length) b).map fun c => c ++ leBytes 4 (crc32 c).toNat).flatten

/-- Take bytes out of their segments; none when a SEG_CHECK fails. -/
def checkedOut : Nat → Nat → List Byte → Option (List Byte)
  | 0, _, _ => some []
  | f + 1, n, b =>
    if n = 0 then some []
    else
      let m := min segSize n
      let c := b.take m
      if c.length = m ∧ rd b m 4 = (crc32 c).toNat ∧ m + 4 ≤ b.length then (checkedOut f (n - m) (b.drop (m + 4))).map (c ++ ·) else none

/-- The checkpoint header (R423). -/
def State.checkpointHeader (s : State) (p numBytes halfBytes : Nat) : List Byte :=
  let x := s.part p
  let h := leBytes 4 0x504B4350 ++ leBytes 4 x.caps.job.toNat ++ leBytes 4 s.shardId ++ leBytes 1 (x.variant.getD 0) ++ leBytes 3 0
    ++ leBytes 8 x.num.step.toNat ++ leBytes 8 numBytes ++ leBytes 8 halfBytes
  h ++ leBytes 4 (crc32 h).toNat ++ leBytes 20 0

/-- WARP_OUT at a step boundary: the checkpoint goes to the host buffer. If a beat it reads is poisoned, the whole checkpoint goes as poisoned writes
and the command completes HBM_POISON (DESIGN CHOICE: R253 lists no outcome for WARP_OUT; log 144). -/
def warpOutEffect (p : Nat) (c : Cmd) (s : State) : State :=
  let x := s.part p
  if x.stepOpen || x.stepResult.isSome || !(s.tilesInStep p).isEmpty then s
  else match x.cur with
    | none => s.finish p c.key 0 0 0
    | some v =>
      let num := x.num.recordBytes x.promotedLayers
      let ranges := v.halfRanges x.half
      let bad := (ranges.findSome? fun e => s.firstPoison x e.1 e.2).isSome
      let s := ranges.foldl (fun (s : State) e => s.readRange p e.1 e.2) s
      let half := s.gather (s.part p) ranges 0 v.halfSize
      let b := s.checkpointHeader p num.length half.length ++ withChecks num ++ withChecks half
      if c.arg 8 8 < b.length then s.finish p c.key cBounds 0 (BitVec.ofNat 64 b.length)
      else (s.hostSend (x.function p) (c.arg 0 8) b bad).finish p c.key (if bad then cPoison else 0) (BitVec.ofNat 32 b.length)
        (BitVec.ofNat 64 b.length)

/-- WARP_OUT: command `key` starts, waits for the step boundary, and writes the checkpoint there (R423). -/
def execWarpOut (p key : Nat) (s : State) : Out :=
  match (s.part p).cmd key with
  | none => .next s
  | some c => if c.op ≠ 5 then .next s else if c.started then .next (warpOutEffect p c s) else s.startCmd p key 5 (warpOutEffect p)

/-- What WARP_IN does once its checkpoint has been read. -/
def warpInEffect (p : Nat) (data : List Byte) (c : Cmd) (s : State) : State :=
  let x := s.part p
  let fail := s.finish p c.key 0x52 6 0
  match x.cur with
  | none => fail
  | some v =>
    let n := rd data 0x18 8
    let m := rd data 0x20 8
    let body := data.drop 64
    let numRaw := body.take (n + 4 * segCount n)
    let halfRaw := body.drop (n + 4 * segCount n)
    if rd data 0 4 = 0x504B4350 ∧ rd data 4 4 = x.caps.job.toNat ∧ rd data 8 4 = s.shardId
        ∧ rd data 0x28 4 = (crc32 (data.take 0x28)).toNat ∧ n = numericsBytes ∧ m = v.halfSize then
      match checkedOut (segCount n) n numRaw, checkedOut (segCount m) m halfRaw with
      | some num, some half =>
        let s := s.scatter p (v.halfRanges (!x.half)) 0 half
        let s := s.modPart p fun x => { x with
          half := !x.half, num := (x.num.withRecord num).endCalibration, calDue := true
          ela := { x.ela with stay1 := .empty, stay2 := .empty, held := [], inStays := [] } }
        (s.serveSwitch p).finish p c.key 0 0 0
      | _, _ => fail
    else fail

/-- WARP_IN: command `key` starts and reads a checkpoint, and restores it once read (R423). -/
def execWarpIn (p key : Nat) (ph : ReadPhase) (s : State) : Out := s.readingCmd p key 6 ph (warpInEffect p)

/-! ### Command timeout (R34, R261, R416, R446, R487) -/

/-- Does a started command wait, in a Tack outage, for work that only Tack performs (R487)? -/
def State.tackOnly (s : State) (p : Nat) (c : Cmd) : Bool :=
  !s.tackUp && match c.op with
    | 3 => !(s.part p).stepOpen && (s.part p).stepResult.isNone && (s.tilesInStep p).isEmpty
    | 1 | 4 | 5 | 6 | 0x21 | 0x22 | 0x30 | 0x31 => true
    | _ => false

/-- COMMAND_TIMEOUT: the timeout of command `key` has expired; that of a step still under way is the step's own (R446). A gang lead
posts the merged completion without the members that have not completed, naming the lowest (R34 rule 2). A reshape that its SET_VARIANT
outlives ends with DEADLINE (R363). -/
def execCommandTimeout (p key : Nat) (s : State) : Out :=
  let x := s.part p
  match x.cmd key with
  | none => .next s
  | some c =>
    let dma := decide (c.op = 0x10) || decide (c.op = 0x11)
    let inStep := decide (c.op = 3) && !(c.localDone s.member) && (x.stepOpen || x.stepResult.isSome || !(s.tilesInStep p).isEmpty)
    if !(c.started || dma) || inStep || decide (s.time.toNat < c.start.toNat + c.timeout) then .next s
    else if s.tackOnly p c then
      .next ({ s with mast := { s.mast with lateDone := s.mast.lateDone + 1 } }.finishNow p key 0x14 0xFFFFFFFE 0)
    else
      let s := match x.ela.run with
        | some r => if r.cmd = some key then s.endReshape p 5 else s
        | none => s
      let s := s.holdSlots p (.cmd key)
      match (s.part p).cmd key with
      | none => .next s
      | some c =>
        if c.forwarded then .next (s.finishForwarded p c cCmdTimeout ((s.openMember p c fun _ => true).getD 0xF))
        else .next (s.finishAny p key cCmdTimeout 0 0)

/-! ### Gang units (R33, R34, R431, R432) -/

/-- Enter hove-to (R434). -/
def State.enterHove (s : State) (p cause lease : Nat) : State :=
  let x := s.part p
  if !x.exist ∨ x.hove.state ≠ 0 ∨ x.resetting.isSome then s
  else s.modPart p fun x => { x with hove := { x.hove with
    state := 1, cause := cause, leaseEnd := s.time + BitVec.ofNat 64 (lease * 100000000) } }

/-- Leave hove-to: completions are written, queued commands may start again (R435). -/
def State.leaveHove (s : State) (p : Nat) : State :=
  if (s.part p).hove.state = 1 then
    (s.modPart p fun x => { x with hove := { x.hove with state := 0, cause := 0 } }).flushAll p
  else s

/-- The hove-to lease has ended: DMA commands are abandoned, a running RUN_STEPS ends at its next boundary, and the partition is
quiesced (R435). -/
def State.endHove (s : State) (p : Nat) : State :=
  let dma := (s.part p).cmds.filter fun c => (decide (c.op = 0x10) || decide (c.op = 0x11)) && c.started
  let s := dma.foldl (fun (s : State) c => (s.holdSlots p (.cmd c.key)).finish p c.key 0x13 0 0) s
  let x := s.part p
  if x.stepOpen || x.stepResult.isSome || !(s.tilesInStep p).isEmpty then
    s.modPart p fun x => { x with hove := { x.hove with quiescing := true } }
  else
    let s := match s.runCmd p with | some c => s.finishRun p c.key 0x13 | none => s
    s.quiesce p

/-- The VC4 message of a hove-to action (R432). -/
def State.hoveMessage (s : State) (p action secs : Nat) : List Byte :=
  leBytes 1 4 ++ leBytes 2 0 ++ leBytes 1 (coordX s.coord) ++ leBytes 1 (coordY s.coord) ++ leBytes 1 (coordZ s.coord) ++ leBytes 2 0
    ++ leBytes 4 (s.part p).gang.unitId.toNat ++ leBytes 4 0 ++ leBytes 8 s.time.toNat ++ leBytes 1 action ++ leBytes 3 0 ++ leBytes 4 secs

/-- A gang lead forwards a hove-to action (R432, R434). -/
def State.forwardHove (s : State) (p action secs : Nat) : State :=
  if (s.part p).isLead then s.sendVc4 (s.memberLinks p) (s.hoveMessage p action secs) else s

/-- The partition that is a member of the unit with an identity. -/
def State.memberPart (s : State) (unit : Nat) : Option Nat :=
  (List.range 12).find? fun p => let x := s.part p; x.exist && x.gang.formed && decide (x.gang.role = 2) && decide (x.gang.unitId.toNat = unit)

/-- COMMAND_FORWARD_RECEIVE: a member receives a forwarded command and takes it in with the lead's queue and CSN (R33, R432). -/
def execCommandForwardReceive (data : List Byte) (s : State) : Out :=
  if rd data 0 1 ≠ 3 then .next s
  else match s.memberPart (rd data 8 4) with
    | none => .next s
    | some p =>
      if (s.part p).cmds.length < 1024 then
        .next (s.takeIn p ((data.drop 32).take 64) (rd data 24 1 % 16) (BitVec.ofNat 32 (rd data 12 4)) .lead)
      else .next s

/-- HOVE_TO_FORWARD_RECEIVE: a member applies a hove-to action as the lead does (R432). -/
def execHoveToForwardReceive (data : List Byte) (s : State) : Out :=
  if rd data 0 1 ≠ 4 then .next s
  else match s.memberPart (rd data 8 4) with
    | none => .next s
    | some p =>
      match rd data 24 1 with
      | 1 => .next (s.enterHove p 1 (rd data 28 4))
      | 2 => .next (s.leaveHove p)
      | 3 => .next (s.endHove p)
      | _ => .next s

/-- MEMBER_COMPLETION_RECEIVE: the lead receives member `m`'s completion of a forwarded command, with what the member tells of itself;
the merged one is posted once all reachable members have answered (R31, R34 to R36). A report without a command it answers only
tells. -/
def execMemberCompletionReceive (p m : Nat) (a : MemberAnswer) (s : State) : Out :=
  let x := s.part p
  if !x.isLead then .next s
  else
    let s := s.modPart p fun x => { x with gang := x.gang.hear m a.report }
    match (s.part p).cmds.find? fun c => c.forwarded && decide (c.csn = a.entry.csn) && decide (c.sq = a.entry.sq) with
    | none => .next s
    | some c =>
      if c.answers.any fun b => decide (b.1 = m) then .next s
      else .next ((s.modPart p fun x => x.modCmd c.key fun c => { c with answers := c.answers ++ [(m, a.entry)] }).tryMerge p c.key)

/-- GANG_FORM: FORM is written on the lead, which invites the partitions at its gang ports (R431). -/
def execGangForm (p : Nat) (s : State) : Out :=
  let x := s.part p
  if x.exist && decide (x.gang.role = 1) && !x.gang.formed && x.gang.forming.isNone then
    .next ((s.modPart p fun x => { x with gang := { x.gang with forming := some s.time } }).sendNamed p 5 ((List.range 8).map gangPortLink) "invite")
  else .next s

/-- GANG_FORMATION_END: 10 ms after FORM. On the lead, `joined` are the members that joined. On a member, `invite` is the lead's member
index, UNIT_ID and bay count: it has joined when they match, its ROLE is member and it is EMPTY (R431). The member index is LNK_COORD.X and
stays (R30). A host command of the member's own queues that has not started then does not start (R37). -/
def execGangFormationEnd (p : Nat) (joined : BitVec 8) (invite : Option (Nat × W32 × Nat)) (s : State) : Out :=
  let x := s.part p
  match invite with
  | none =>
    match x.gang.forming with
    | some t =>
      if t.toNat + 1000000 ≤ s.time.toNat then
        .next (s.modPart p fun x => { x with gang := { x.gang with
          formed := true, forming := none, index := coordX s.coord, lead := coordX s.coord, members := [], leadLost := false
          present := joined ||| BitVec.ofNat 8 (2 ^ coordX s.coord) } })
      else .next s
    | none => .next s
  | some (lead, unit, bays) =>
    if x.exist && decide (x.gang.role = 2) && !x.gang.formed && decide (x.gang.unitId = unit) && decide (x.stateCode = 0)
        && decide (x.bays.length = bays) then
      let s := s.modPart p fun x => { x with gang := { x.gang with
        formed := true, index := coordX s.coord, lead := lead, leadLost := false
        present := joined ||| BitVec.ofNat 8 (2 ^ coordX s.coord) } }
      .next (((s.part p).cmds.filter fun c => decide (c.origin = .host) && !c.started).foldl (fun (s : State) c => s.finish p c.key 0x45 0x10 0) s)
    else .next s

/-- GANG_DISSOLVE: DISSOLVE takes effect when this partition, and every other member (`others`), is EMPTY or FAULTED (R431). -/
def execGangDissolve (p : Nat) (others : Bool) (s : State) : Out :=
  let x := s.part p
  if x.gang.formed && others && (decide (x.stateCode = 0) || decide (x.stateCode = 7)) then
    .next (s.modPart p fun x => { x with gang := { x.gang with formed := false, present := 0, members := [], leadLost := false } })
  else .next s

/-! ### Heartbeat and hove-to (R433 to R435) -/

/-- The heartbeat register after a write: ENABLE cannot be cleared while a tenancy is open; INTERVAL 0 keeps the old value, above 600 is
600 (R433). -/
def Hove.write (h : Hove) (v : W32) (tenanted : Bool) (now : W64) : Hove :=
  let i := v.toNat / 65536 % 1024
  { h with
    enable := v.getLsbD 31 || (tenanted && h.enable), interval := if i = 0 then h.interval else min 600 i
    beat := BitVec.ofNat 16 v.toNat, lastBeat := now }

/-- HEARTBEAT_BEAT: a write of TCK_HEARTBEAT; a beat before the lease ends ends hove-to (R433, R435). -/
def execHeartbeatBeat (p : Nat) (v : W32) (s : State) : Out :=
  let x := s.part p
  if !x.exist then .next s
  else
    let s := s.modPart p fun x => { x with hove := x.hove.write v (decide (x.tenancy ≠ 0)) s.time }
    if x.hove.state = 1 ∧ !x.hove.quiescing ∧ s.time.toNat < x.hove.leaseEnd.toNat then .next ((s.leaveHove p).forwardHove p 2 0)
    else .next s

/-- HEARTBEAT_MISS: three intervals pass without a beat, monitoring on and a tenancy open (R434). -/
def execHeartbeatMiss (p : Nat) (s : State) : Out :=
  let x := s.part p
  if x.exist && x.hove.enable && decide (x.tenancy ≠ 0) && decide (x.hove.state = 0) && s.tackUp
      && decide (x.hove.lastBeat.toNat + 3 * x.hove.interval * 10000000 ≤ s.time.toNat) then
    .next ((s.enterHove p 1 x.hove.leaseS).forwardHove p 1 x.hove.leaseS)
  else .next s

/-- The numbers of the partitions that exist. -/
def State.existing (s : State) : List Nat := (List.range 12).filter fun p => (s.part p).exist

/-- PCIE_DL_DOWN: the PCIe link goes down without PERST#: partitions with a tenancy open and monitoring on enter hove-to (R434). -/
def execPcieDlDown (s : State) : Out :=
  let s := { s with dlUp := false }
  .next (s.existing.foldl (fun (s : State) p =>
    let x := s.part p
    if x.hove.enable && decide (x.tenancy ≠ 0) && decide (x.hove.state = 0) then
      (s.enterHove p 2 x.hove.leaseS).forwardHove p 1 x.hove.leaseS else s) s)

/-- PCIE_DL_UP: the link of a ready device is back, out of Loopback too, and held completions are written in order (R434, R593). -/
def execPcieDlUp (s : State) : Out :=
  if !s.pkg.ready ∨ s.pkg.mode ≠ 0 then .next s
  else
    let s := { s with dlUp := true, pkg := { s.pkg with hostLoop := false } }
    .next (s.existing.foldl State.flushAll s)

/-- HOVE_TO_LEASE_END: the lease of hove-to has ended; a switch in progress completes first (R435, R436). -/
def execHoveToLeaseEnd (p : Nat) (s : State) : Out :=
  let x := s.part p
  let switching := match x.ela.run with | some r => decide (r.phase ≠ 8) | none => false
  if x.exist && decide (x.hove.state = 1) && !x.hove.quiescing && !switching && decide (x.hove.leaseEnd.toNat ≤ s.time.toNat) then
    .next ((s.endHove p).forwardHove p 3 0)
  else .next s

/-! ### Function power states (R401) -/

/-- FUNCTION_POWER_STATE: the function of partition `p` enters D3hot or returns to D0, when its held doorbells reach their queues. -/
def execFunctionPowerState (p : Nat) (d3hot : Bool) (s : State) : Out :=
  let x := s.part p
  if !x.exist ∨ x.d3hot = d3hot then .next s
  else if d3hot then .next (s.setPart p { x with d3hot := true })
  else
    let s := s.setPart p { x with d3hot := false, heldBells := [] }
    .next (x.heldBells.foldl (fun (s : State) b =>
      match (if b.2.1 then execCqHeadDoorbell p b.1 b.2.2 s else execSqTailDoorbell p b.1 b.2.2 s) with
      | .next s' => s'
      | _ => s) s)

end Sys2Proof.Machine
end

