-- ==== Sys2Proof/Machine/Admission.lean ====
section
/-! DEFINITION. Admission: deciding requests, victims, the deferred queue, leases, and the end of a partition reset, with the
creation, change and destruction of partitions (R404, R405, R424 to R430, R454, R594). -/

namespace Sys2Proof.Machine

/-! ### Slots and bays (R425, R429, R430) -/

/-- Request slot `n`. -/
def Admission.slot (a : Admission) (n : Nat) : AdmSlot := mget AdmSlot.free a.slots n

/-- Write request slot `n`. -/
def State.setAdm (s : State) (n : Nat) (v : AdmSlot) : State :=
  { s with adm := { s.adm with slots := mset AdmSlot.free s.adm.slots n v } }

/-- The bays of a mask, ascending. -/
def maskBays (m : Nat) : List Nat := (List.range 12).filter fun b => m.testBit b

/-- Bays that belong to no partition. -/
def State.freeBays (s : State) : List Nat := (List.range 12).filter fun b => (s.ownerOfBay b).isNone

/-- The bays a request takes from a list, if they suffice: BAYMASK when EXACT is set, else the lowest-numbered (R425). -/
def AdmReq.choose (r : AdmReq) (avail : List Nat) : Option (List Nat) :=
  if r.exact then
    let want := maskBays r.bayMask
    if want.all avail.contains then some want else none
  else if r.bayCount ≤ avail.length then some (avail.take r.bayCount) else none

/-- Slots that are PENDING, lowest first. -/
def State.pendingSlots (s : State) : List Nat :=
  (List.range 64).filter fun n => decide ((s.adm.slot n).slot = 1)

/-- The bays a PENDING request holds for itself out of the free ones. -/
def AdmReq.reserve (r : AdmReq) (avail : List Nat) : List Nat :=
  if r.exact then (maskBays r.bayMask).filter avail.contains else avail.take r.bayCount

/-- Free bays that no PENDING request in a list of slots waits for (DESIGN CHOICE, log 78). -/
def State.unreserved (s : State) (slots : List Nat) : List Nat :=
  slots.foldl (fun (avail : List Nat) n =>
    let take := (s.adm.slot n).req.reserve avail
    avail.filter fun b => !take.contains b) s.freeBays

/-- Free bays for a request: those of its own partition too when it resizes one (R427). -/
def State.availFor (s : State) (r : AdmReq) (slots : List Nat) : List Nat :=
  let own := if r.kind = 1 then (s.part r.partition).bays else []
  let free := s.unreserved slots
  if r.exact then (List.range 12).filter fun b => own.contains b || free.contains b
  else own ++ free.filter fun b => !own.contains b

/-- The bays of a request, its own kept where it resizes a partition, in ascending order. -/
def sortBays (l : List Nat) : List Nat := (List.range 12).filter l.contains

/-! ### Checks (R428) -/

/-- Classes a class may preempt, in the order victims are taken: the lowest class first (R424, R425). -/
def preemptible (c : Nat) : List Nat := if c = 0 then [3, 2] else if c = 1 then [3] else []

/-- The reason a request is refused at its check, if any (R425 step 1, R427, R428). -/
def State.admCheck (s : State) (r : AdmReq) : Option Nat :=
  let x := s.part r.partition
  let target := decide (r.partition < 12) && x.exist && x.destroy.isNone
  let bad :=
    decide (2 < r.kind)
      || (decide (r.kind ≠ 2) && (decide (3 < r.cls)
          || (if r.exact then decide (r.bayMask = 0) else decide (r.bayCount = 0) || decide (12 < r.bayCount))
          || (decide (r.cls < 2) && decide (r.target ≠ 0xFF) && (decide (r.deadline = 0) || decide (600 < r.deadline)))))
      || (decide (r.kind ≠ 0) && !target)
  let own := if r.kind = 1 then x.bays else []
  let bayBad (b : Nat) : Bool :=
    decide (s.bayCount b = 0)
      || (!own.contains b && match s.ownerOfBay b with
          | some p => !(preemptible r.cls).contains (s.part p).cls
          | none => false)
  if bad then some 1
  else if r.kind ≠ 2 ∧ r.exact ∧ (maskBays r.bayMask).any bayBad then some 2
  else if r.kind ≠ 2 ∧ s.adm.ctrl.getLsbD r.cls = false then some 3
  else if r.kind = 1 ∧ (x.stateCode ≠ 0 ∨ x.tenancy ≠ 0) then some 8
  else none

/-! ### Outcomes (R430) -/

/-- A request ends REFUSED. -/
def State.admRefuse (s : State) (n reason : Nat) : State :=
  s.setAdm n { s.adm.slot n with slot := 3, status := 0x45, reason := reason, position := 0, estWait := 0, time := s.time, victims := [] }

/-- A request is SERVED with a partition and bays; a CREATE stays DECIDED. -/
def State.admServed (s : State) (n p : Nat) (bays : List Nat) : State :=
  let v := s.adm.slot n
  s.setAdm n { v with
    slot := if v.req.kind = 0 then 2 else 3, status := 0, reason := 0, partition := p, bays := maskOf bays, position := 0, estWait := 0
    time := s.time, victims := [] }

/-- Where a request stands in the deferred queue: by class, then by arrival (R425). -/
def State.admBefore (s : State) (a b : Nat) : Bool :=
  let x := s.adm.slot a
  let y := s.adm.slot b
  decide (x.req.cls < y.req.cls)
    || (decide (x.req.cls = y.req.cls)
      && (decide (x.submitted.toNat < y.submitted.toNat) || (decide (x.submitted = y.submitted) && decide (a < b))))

/-- Enter a request into the deferred queue. -/
def State.enqueue (s : State) (n : Nat) : State :=
  let q := s.adm.queue
  { s with adm := { s.adm with
    queue := q.filter (fun m => s.admBefore m n) ++ [n] ++ q.filter (fun m => !(s.admBefore m n)) } }

/-- Device time at which a LEASE with a DURATION ends (R427). -/
def AdmSlot.leaseEnd (v : AdmSlot) : Option Nat :=
  if v.req.cls = 0 ∧ v.req.duration ≠ 0 then some (v.submitted.toNat + v.req.duration * 100000000) else none

/-- The slot of the request that created partition `p`. -/
def Admission.creator (a : Admission) (p : Nat) : Option Nat := (a.served.find? fun e => decide (e.1 = p)).map (·.2)

/-- When each bay comes free, as far as it is known: now, at the end of the lease that holds it, or at the end of the lease that is
PENDING for it (R430). -/
def State.bayTimes (s : State) : List (Option Nat) :=
  let held : List (Option Nat) := (List.range 12).map fun b => match s.ownerOfBay b with
    | none => some s.time.toNat
    | some p => (s.adm.creator p).bind fun n => (s.adm.slot n).leaseEnd
  s.pendingSlots.foldl (fun (ts : List (Option Nat)) n =>
    let v := s.adm.slot n
    let theirs := v.victims.map fun p => (s.part p).bays
    let take := v.req.reserve (sortBays (s.freeBays ++ theirs.flatten))
    ts.mapIdx fun b t => if take.contains b then v.leaseEnd else t) held

/-- The latest of some times, if all are known. -/
def latest (l : List (Option Nat)) : Option Nat :=
  l.foldl (fun (a : Option Nat) t => match a, t with | some x, some y => some (max x y) | _, _ => none) (some 0)

/-- The bays whose known times come first, `n` of them, if so many are known. -/
def soonest (ts : List (Option Nat)) (n : Nat) : Option (List Nat) :=
  let known := sortBy (fun a b => decide (a.1 ≤ b.1)) ((ts.zipIdx).filterMap fun e => e.1.map fun t => (t, e.2))
  if n ≤ known.length then some ((known.take n).map (·.2)) else none

/-- Set POSITION and EST_WAIT of every deferred request, in queue order (R430). -/
def State.requeue (s : State) : State :=
  (s.adm.queue.zipIdx.foldl (fun (a : State × List (Option Nat) × Option Nat) e =>
    let (s, ts, prev) := a
    let v := s.adm.slot e.1
    let bays := if v.req.exact then some (maskBays v.req.bayMask) else soonest ts v.req.bayCount
    let at' := (bays.bind fun l => latest (l.map fun b => (ts.getD b none))).bind fun t => prev.map fun u => max t u
    let est : W32 := match at' with
      | some t => BitVec.ofNat 32 (min 0xFFFFFFFE ((t - s.time.toNat + 9999999) / 10000000))
      | none => 0xFFFFFFFF
    let ts := match at', bays with
      | some _, some l => ts.mapIdx fun b t => if l.contains b then v.leaseEnd else t
      | _, _ => ts
    (s.setAdm e.1 { v with position := e.2 + 1, estWait := est }, ts, at')) (s, s.bayTimes, some s.time.toNat)).1

/-! ### Creating and changing partitions (R404, R425, R427, R594) -/

/-- An H test on a bay that admission names ends at once, ABORTED (R594). -/
def State.abortBayTest (s : State) (bays : List Nat) : State :=
  let l := s.pkg.hbmLb
  if l.running.isSome && bays.contains l.stack then
    { s with pkg := { s.pkg with hbmLb := { l with running := none, done := true, pass := false, aborted := true } } }
  else s

/-- A partition whose window keeps the sticky records of the slot it comes to (R18, R404). -/
def Part.inWindow (x old : Part) : Part :=
  { x with
    fltSticky := old.fltSticky
    num := { x.num with sites := old.num.sites, events := old.num.events }
    caps := { x.caps with lastStrike := old.caps.lastStrike }
    ela := { x.ela with lost := old.ela.lost, events := old.ela.events }
    wit := { x.wit with record := old.wit.record } }

/-- Create partition `p` on some bays for the request in slot `n`: a partition reset creates it (R404, R425, R429, R518, R541). -/
def State.createPart (s : State) (n p : Nat) (bays : List Nat) : State :=
  let cls := (s.adm.slot n).req.cls
  let s := s.abortBayTest bays
  let s := bays.foldl (fun (s : State) b => (s.zeroBay b).powerBay b) s
  let s := s.modPart p fun old => { (Part.reset.inWindow old) with exist := true, bays := bays, cls := cls }
  let s := s.reloadRemap p
  let s := { s with
    adm := { s.adm with share := mset 0x80008422 s.adm.share p 0x80008422, served := s.adm.served ++ [(p, n)] }
    clk := { s.clk with partCap := mset 0 s.clk.partCap p 0 }
    pkg := { s.pkg with unlock := false } }
  (s.admServed n p bays).beginReset p 3

/-- Move partition `p` to number 0, presented through the physical function (R404, R427). -/
def State.renumber (s : State) (p : Nat) : State :=
  if p = 0 then s
  else
    let x := s.part p
    let s := (s.setPart 0 (x.inWindow (s.part 0))).setPart p x.remains
    { s with adm := { s.adm with
      served := s.adm.served.map fun e => if e.1 = p then (0, e.2) else e
      share := mset 0x80008422 (mset 0x80008422 s.adm.share 0 (mget 0x80008422 s.adm.share p)) p 0x80008422 } }

/-- Resize partition `p` to some bays for the request in slot `n`: the bays given up are zeroed and free, the partition is reset
(R427). -/
def State.resizePart (s : State) (n p : Nat) (bays : List Nat) : State :=
  let old := (s.part p).bays
  let gone := old.filter fun b => !bays.contains b
  let s := s.abortBayTest bays
  let s := gone.foldl State.zeroBay s
  let s := { s with clk := { s.clk with freeSince := gone.foldl (fun m b => mset 0 m b s.time) s.clk.freeSince } }
  let s := bays.foldl State.powerBay s
  let s := (s.modPart p fun x => { x with bays := bays }).reloadRemap p
  let s := if bays.length = 12 then s.renumber p else s
  let p := if bays.length = 12 then 0 else p
  (s.admServed n p bays).beginReset p 3

/-- Serve the request in slot `n` with some bays: a CREATE takes the lowest free partition number (R404, R425). -/
def State.serve (s : State) (n : Nat) (bays : List Nat) : State :=
  let r := (s.adm.slot n).req
  let bays := sortBays bays
  if r.kind = 1 then
    let x := s.part r.partition
    if x.exist && x.destroy.isNone && decide (x.stateCode = 0) && decide (x.tenancy = 0) then s.resizePart n r.partition bays
    else s.admRefuse n 8
  else
    match (List.range 12).find? fun p => !(s.part p).exist with
    | some p => s.createPart n p bays
    | none => s.admRefuse n 4

/-! ### The queue and victims (R425, R426) -/

/-- Serve the deferred queue from its head while the head can be served; at most `k` requests. -/
def State.serveQueue (s : State) : Nat → State
  | 0 => s
  | k + 1 =>
    match s.adm.queue with
    | [] => s
    | n :: rest =>
      match (s.adm.slot n).req.choose (s.availFor (s.adm.slot n).req s.pendingSlots) with
      | some bays => (({ s with adm := { s.adm with queue := rest } }).serve n bays).serveQueue k
      | none => s

/-- Bays have been freed: PENDING requests all of whose victims are released are served, then the queue (R425). -/
def State.baysFreed (s : State) : State :=
  let s := s.pendingSlots.foldl (fun (s : State) n =>
    let v := s.adm.slot n
    if !v.victims.isEmpty then s
    else match v.req.choose (s.availFor v.req (s.pendingSlots.filter fun m => decide (m < n))) with
      | some bays => s.serve n bays
      | none => s) s
  (s.serveQueue s.adm.queue.length).requeue

/-- Victims for a request among the partitions served, the most recently served first in each class, until the bays suffice
(R425 step 3). -/
def State.victims (s : State) (r : AdmReq) : Option (List Nat) :=
  let busy := (s.pendingSlots.map fun n => (s.adm.slot n).victims).flatten
  let able (p c : Nat) : Bool :=
    let x := s.part p
    x.exist && x.destroy.isNone && decide (x.cls = c) && !busy.contains p && (decide (r.kind ≠ 1) || decide (p ≠ r.partition))
      && (!r.exact || x.bays.any fun b => r.bayMask.testBit b)
  let line := ((preemptible r.cls).map fun c => (s.adm.served.reverse.map (·.1)).filter fun p => able p c).flatten
  let avail := s.availFor r s.pendingSlots
  let pick := line.foldl (fun (a : List Nat × List Nat) p =>
    if (r.choose a.2).isSome then a else (a.1 ++ [p], sortBays (a.2 ++ (s.part p).bays))) ([], avail)
  if (r.choose pick.2).isSome then some pick.1 else none

/-- The SET_VARIANT REEF admission submits to a victim (R362, R415, R426). -/
def reefCommand (r : AdmReq) : List Byte :=
  leBytes 1 4 ++ leBytes 1 0 ++ leBytes 2 0xFFFF ++ leBytes 4 0 ++ leBytes 4 0 ++ leBytes 4 0
    ++ leBytes 1 r.target ++ leBytes 1 1 ++ leBytes 1 0 ++ leBytes 1 0 ++ leBytes 2 r.deadline ++ leBytes 2 0
    ++ leBytes 4 r.reshapeId.toNat ++ leBytes 4 r.lease.toNat ++ List.replicate 32 0

/-- Start the release of a victim: by reef, or at once (R426 steps 1 and 2). -/
def State.releaseVictim (s : State) (p : Nat) (r : AdmReq) : State :=
  if (s.part p).image.isSome && decide (r.target ≠ 0xFF) then s.takeIn p (reefCommand r) 0 0 .admission
  else s.release p 2 0x44 r.lease r.reshapeId

/-- Decide the request in slot `n`, which has just been submitted (R424, R425, R427). -/
def State.decideReq (s : State) (n : Nat) : State :=
  let r := (s.adm.slot n).req
  match s.admCheck r with
  | some reason => s.admRefuse n reason
  | none =>
    if r.kind = 2 then (s.admServed n r.partition []).release r.partition 4 0 0 0
    else match r.choose (s.availFor r (s.pendingSlots.filter fun m => decide (m ≠ n))) with
      | some bays => (s.serve n bays).baysFreed
      | none =>
        match if r.cls < 2 then s.victims r else none with
        | some vs =>
          let s := s.setAdm n { s.adm.slot n with slot := 1, victims := vs, time := s.time }
          (vs.foldl (fun (s : State) p => s.releaseVictim p r) s).requeue
        | none =>
          if r.queue && decide (r.cls ≠ 3) then
            ((s.setAdm n { s.adm.slot n with slot := 2, status := 0x43, time := s.time }).enqueue n).requeue
          else s.admRefuse n 4

/-- Submit ADM_REQ to the lowest free slot; with every slot in use none is taken (R429). -/
def State.submit (s : State) : State :=
  match (List.range 64).find? fun n => decide ((s.adm.slot n).slot = 0) with
  | none => { s with adm := { s.adm with lastValid := false } }
  | some n =>
    let s := { s with adm := { s.adm with lastValid := true, lastSlot := n } }
    (s.setAdm n { AdmSlot.free with req := s.adm.req, submitted := s.time, time := s.time, slot := 3 }).decideReq n

/-! ### The rows -/

/-- ADM_CREATE: a write of ADM_SUBMIT with a request that is neither RESIZE nor DESTROY staged (R425, R429); not decided while Tack is
down (R486). -/
def execAdmCreate (s : State) : Out :=
  if s.tackUp && decide (s.adm.req.kind ≠ 1) && decide (s.adm.req.kind ≠ 2) then .next s.submit else .next s

/-- ADM_RESIZE: a write of ADM_SUBMIT with a RESIZE staged (R427). -/
def execAdmResize (s : State) : Out := if s.tackUp && decide (s.adm.req.kind = 1) then .next s.submit else .next s

/-- ADM_DESTROY: a write of ADM_SUBMIT with a DESTROY staged (R427). -/
def execAdmDestroy (s : State) : Out := if s.tackUp && decide (s.adm.req.kind = 2) then .next s.submit else .next s

/-- Take a request out of the deferred queue, REFUSED. -/
def State.dequeue (s : State) (n reason : Nat) : State :=
  (({ s with adm := { s.adm with queue := s.adm.queue.filter fun m => decide (m ≠ n) } }).admRefuse n reason).requeue

/-- ADM_CANCEL: a write of ADM_CANCEL cancels a DEFERRED request (R425, R429). -/
def execAdmCancel (n : Nat) (s : State) : Out :=
  if s.adm.queue.contains n then .next (s.dequeue n 7) else .next s

/-- ADM_RELEASE: a write of 1 to RELEASE frees a slot that reads ENDED; SLOT has then changed (R429, R430). -/
def execAdmRelease (n : Nat) (s : State) : Out :=
  if (s.adm.slot n).slot = 3 then .next (s.setAdm n { AdmSlot.free with time := s.time }) else .next s

/-- DEFERRED_SERVE: freed bays serve the PENDING requests and the deferred queue (R425). -/
def execDeferredServe (s : State) : Out := if s.tackUp then .next s.baysFreed else .next s

/-- WAIT_LIMIT_EXPIRY: a deferred request's WAIT_LIMIT has passed since it became DEFERRED (R425, R430). -/
def execWaitLimitExpiry (n : Nat) (s : State) : Out :=
  let v := s.adm.slot n
  if s.adm.queue.contains n && decide (v.req.waitLimit ≠ 0)
      && decide (v.time.toNat + v.req.waitLimit * 100000000 ≤ s.time.toNat) then .next (s.dequeue n 6)
  else .next s

/-- VICTIM_DEADLINE: the reef of victim `p` has not switched it out: at the deadline a LEASE takes the victim, its running step
discarded; a GUARANTEED request, also when the reshape has ended without a switch, takes nothing and is DEFERRED (R426 step 3). -/
def execVictimDeadline (p : Nat) (s : State) : Out :=
  match s.pendingSlots.find? fun n => (s.adm.slot n).victims.contains p && (s.part p).destroy.isNone with
  | none => .next s
  | some n =>
    let v := s.adm.slot n
    let x := s.part p
    let late := decide (v.submitted.toNat + v.req.deadline * 100000000 ≤ s.time.toNat)
    let ended := x.ela.run.isNone && !x.cmds.any fun c => decide (c.origin = .admission)
    if v.req.cls = 0 then
      if late then .next (s.release p 2 0x44 v.req.lease v.req.reshapeId) else .next s
    else if late || ended then
      let s := s.setAdm n { v with slot := 2, status := 0x43, time := s.time, victims := [] }
      .next (s.enqueue n).requeue
    else .next s

/-- LEASE_DURATION_END: the DURATION of the lease that holds `p` has ended: commands newly taken are refused, started ones finish,
the tenancy closes with LEASE_END and the partition is reset and destroyed (R427). -/
def execLeaseDurationEnd (p : Nat) (s : State) : Out :=
  match (s.adm.creator p).bind fun n => (s.adm.slot n).leaseEnd with
  | none => .next s
  | some t =>
    if !((s.part p).exist && decide (t ≤ s.time.toNat)) then .next s
    else
      let s := s.modPart p fun x => { x with leaseEnded := true }
      if (s.part p).cmds.any (·.started) then .next s
      else
        let s := s.closeTenancy p 5
        .next ((s.modPart p fun x => { x with destroy := x.destroy.orElse fun _ => some (0, 0, 0) }).beginReset p 3)

/-! ### The end of a partition reset (R404, R454, R519) -/

/-- Domains of `ds` that regulators turned off are retried once: those in `back` run again, the rest stay in FAULT (R519). -/
def State.retryDomains (s : State) (ds back : List Nat) : State :=
  ds.foldl (fun (s : State) d =>
    let c := 30 * (d / 41) + d % 41
    let fresh := if d < 164 then (s.cluster c).retry else decide (s.clk.baysLost.length < 12)
    if s.domainState d = 3 ∧ fresh then
      let ok := back.contains d
      let s := if ok then s.setDomain d 1 else s
      let s := if d < 164 then s.modCluster c fun x => { x with retry := false } else s
      let s := if !ok ∧ 180 ≤ d ∧ d < 188 then { s with clk := { s.clk with baysLost := List.range 12 } } else s
      s.bookEntry 0x36 0xF 0 0 (leBytes 2 d ++ leBytes 1 0 ++ leBytes 1 (if ok then 1 else 2))
    else s) s

/-- The destroyed partition's slot keeps its window's sticky records; its bays are free; the record of the request that created it
ends, and the requests it was a victim of go on (R426, R427, R430). -/
def State.destroyPart (s : State) (p : Nat) : State :=
  let x := s.part p
  match x.destroy with
  | none => s
  | some (status, lease, id) =>
    let s := s.setPart p x.remains
    let s := match s.adm.creator p with
      | none => s
      | some n =>
        let v := s.adm.slot n
        s.setAdm n { v with
          slot := 3, status := if status = 0x44 then 0x44 else v.status, byLease := lease, byReshape := id, time := s.time }
    let s := { s with
      adm := { s.adm with
        served := s.adm.served.filter fun e => decide (e.1 ≠ p)
        slots := mmap AdmSlot.free (fun _ v => { v with victims := v.victims.filter fun q => decide (q ≠ p) }) s.adm.slots }
      dumps := s.dumps.filter fun q => decide (q ≠ p)
      clk := { s.clk with freeSince := x.bays.foldl (fun m b => mset 0 m b s.time) s.clk.freeSince } }
    s.baysFreed

/-- Lock is tried again for the compute PLLs of some bays that have failed to lock (R510). -/
def State.retryPlls (s : State) (bays : List Nat) : State :=
  { s with clk := { s.clk with attempts := s.clk.attempts.filter fun e => !((bays.map bayClusters).flatten.contains e.1) } }

/-- PARTITION_RESET: the reset of `p` completes; `failed` are tiles that did not complete their zeroing, those of a cluster that stays
off among them, `back` domains whose retry succeeds (R454, R456, R510, R519). -/
def execPartitionReset (p : Nat) (failed back : List Nat) (s : State) : Out :=
  let x := s.part p
  if x.exist && x.resetting.isSome then
    let s := s.retryDomains ((x.bays.map fun b => (bayClusters b).map clusterDomain).flatten ++ (List.range 8).map (180 + ·)) back
    let off := (x.bays.map s.offTiles).flatten
    .next (((s.retryPlls x.bays).endReset p (failed ++ off)).destroyPart p)
  else .next s

end Sys2Proof.Machine
end

