-- ==== Sys2Proof/Machine/Faults.lean ====
section
/-! DEFINITION. The dump engine, the field book, witness comparison and check traverses (R447 to R452, R459 to R476). -/

namespace Sys2Proof.Machine

/-! ### The dump (R447 to R452) -/

/-- Ask for a dump: it runs, or waits while another runs; its registers of the last dump are cleared (R448). -/
def State.askDump (s : State) (p : Nat) : State :=
  let first := s.dumps.isEmpty
  let s := s.modPart p fun x => { x with dump := { x.dump with
    state := if first then 2 else 1, unreachable := 0, bytes := 0, holes := 0, start := s.time, timeouts := [], gone := [] } }
  let s := { s with dumps := s.dumps ++ [p] }
  if first then s.bookEntry 0x0A p 0 0 (leBytes 1 0 ++ leBytes 1 2) else s

/-- Is a dump of the partition queued or running? -/
def Dump.busy (d : Dump) : Bool := decide (d.state = 1) || decide (d.state = 2)

/-- DUMP_START: a write of 1 to FLT_DUMP_CTRL.START (R448). -/
def execDumpStart (p : Nat) (s : State) : Out :=
  let x := s.part p
  if x.exist && !x.dump.busy then
    let s := s.askDump p
    .next (if (s.part p).dump.state = 2 ∧ x.dump.len = 0 then s.endDump p 6 else s)
  else .next s

/-- DUMP_ARMED_START: with ARM set, the dump of the first partition fault starts once the freeze is complete (R448, R452). -/
def execDumpArmedStart (p : Nat) (s : State) : Out :=
  let x := s.part p
  if x.exist && x.faulted && !x.dump.busy && x.dumpDue then
    let s := s.askDump p
    .next (if (s.part p).dump.state = 2 ∧ x.dump.len = 0 then s.endDump p 6 else s)
  else .next s

/-- A unit is declared unreachable in a dump (R449, R461): kind 0 tile, 1 DMA engine, 2 HBM controller, 3 capstan. -/
def State.dumpGone (s : State) (p kind unit access : Nat) : State :=
  let s := s.modPart p fun x => { x with dump := { x.dump with
    gone := x.dump.gone ++ [(kind, unit, access)], unreachable := min 0xFFFF (x.dump.unreachable + 1) } }
  (s.bookEntry 0x0B p 0 0 (leBytes 1 kind ++ leBytes 1 1 ++ leBytes 2 unit)).sticky p 6

/-- DUMP_ACCESS_TIMEOUT: access `i` of the running dump to a unit has timed out; after four in a row the unit is unreachable
(R449). -/
def execDumpAccessTimeout (p kind unit i : Nat) (s : State) : Out :=
  let d := (s.part p).dump
  let gone := d.gone.any fun e => decide (e.1 = kind) && decide (e.2.1 = unit)
  if d.state = 2 ∧ !gone ∧ kind < 4 ∧ !d.timeouts.contains (kind, unit, i) then
    let s := s.modPart p fun x => { x with dump := { x.dump with timeouts := x.dump.timeouts ++ [(kind, unit, i)] } }
    let l := (s.part p).dump.timeouts
    .next (if 3 ≤ i ∧ [i - 1, i - 2, i - 3].all fun j => l.contains (kind, unit, j) then s.dumpGone p kind unit (i + 1) else s)
  else .next s

/-- The hole map of a section, one bit per access (R449, R450). -/
def holeMap (accesses : Nat) (hole : Nat → Bool) : List Byte :=
  ((List.range ((accesses + 63) / 64)).map fun w =>
    leBytes 8 (maskOf ((List.range 64).filter fun j => decide (64 * w + j < accesses) && hole (64 * w + j)))).flatten

/-- A section: header, data with holes, hole map; and its hole words (R449, R450). -/
def dumpSection (type unit : Nat) (unreachable : Bool) (data : List Byte) (hole : Nat → Bool) : List Byte × Nat :=
  let n := (data.length + 63) / 64
  let words := ((List.range n).map fun i =>
    if hole i then (min 64 (data.length - 64 * i)) / 4 else 0).foldl (fun (a : Nat) b => a + b) 0
  let marker : List Byte := [0xB0, 0xD0, 0xE1, 0xF1]
  let body := data.mapIdx fun i b => if hole (i / 64) then marker.getD (i % 4) 0 else b
  (leBytes 1 type ++ leBytes 1 (bitAt unreachable 0) ++ leBytes 2 0 ++ leBytes 4 unit ++ leBytes 8 data.length ++ leBytes 4 words
    ++ leBytes 12 0 ++ body ++ holeMap n hole, words)

/-- The 64 bytes of a field-book entry (R460). -/
def BookEntry.bytes (e : BookEntry) : List Byte :=
  (leBytes 4 e.seq.toNat ++ leBytes 1 e.type ++ leBytes 1 e.part ++ leBytes 1 e.code ++ leBytes 1 e.flags ++ leBytes 8 e.time.toNat
    ++ e.payload ++ List.replicate 48 0).take 64

/-- The last 256 entries of a partition in the field book, oldest first (R450). -/
def FieldBook.ofPart (b : FieldBook) (p : Nat) : List BookEntry :=
  let l := (b.ring.map (·.2)).filter fun e => decide (e.part = p)
  let l := sortBy (fun x y => decide ((x.seq - b.nextSeq).toNat ≤ (y.seq - b.nextSeq).toNat)) l
  l.drop (l.length - 256)

/-- The CAP_ registers of a partition from CAP_EPOCH, 64 bytes (R328, R329). -/
def CapRegs.bytes (c : CapRegs) : List Byte :=
  ([c.epoch, c.job, c.sat, c.flush, c.nan, c.inf].map fun v => leBytes 4 v.toNat).flatten
    ++ leBytes 4 (c.sent.toNat * 65536 + c.received.toNat) ++ leBytes 4 c.ignored.toNat ++ leBytes 4 c.xchg.toNat ++ leBytes 4 0
    ++ leBytes 8 c.lastStrike.toNat ++ leBytes 16 0

/-- Drain-entry header `n` of a tile section (R451). -/
def drainHeader (x : Tile) (n : Nat) : List Byte :=
  match x.drain.find? fun d => decide (d.number = n) with
  | none => leBytes 32 0
  | some d =>
    leBytes 1 d.format
      ++ leBytes 1 (1 + bitAt d.nanInf 1 + bitAt d.accSat 2 + bitAt d.rowMaxValid 3 + bitAt d.rowSumValid 4)
      ++ leBytes 2 d.strand ++ leBytes 2 d.slot ++ leBytes 2 d.firstElem ++ leBytes 2 d.firstK ++ leBytes 22 0

/-- State of a strand in R61's order: 0 INACTIVE, 1 READY, 2 WAITING, 3 FAULTED. -/
def Sched.code : Sched → Nat
  | .inactive => 0
  | .ready => 1
  | .waiting _ => 2
  | .faulted => 3

/-- A strand record (R451). -/
def State.strandRecord (s : State) (t k : Nat) : List Byte :=
  let v := (s.tile t).strand k
  let r := s.waitReason t k
  leBytes 2 k ++ leBytes 1 v.sched.code ++ leBytes 1 r.1 ++ leBytes 4 v.pc.toNat ++ leBytes 4 v.cw.toNat ++ leBytes 4 v.station.toNat
    ++ leBytes 4 r.2.1 ++ leBytes 4 r.2.2 ++ leBytes 8 0
    ++ ((List.range 16).map fun i => leBytes 8 (mget 0 v.s i).toNat).flatten

/-- The fixed data of a TILE section (R451). -/
def State.tileFixed (s : State) (t : Nat) : List Byte :=
  s.controlSpace t ++ ((List.range 16).map fun i => leBytes 8 (mget 0 (s.tile t).g i).toNat).flatten
    ++ ((List.range 8).map fun n => drainHeader (s.tile t) n).flatten

/-- Is access `i` to tile `t` a hole of the dump (R449)? -/
def State.tileHole (s : State) (p t i : Nat) : Bool :=
  let d := (s.part p).dump
  (s.tile t).dead || d.timeouts.contains (0, t, i) || d.gone.any fun e => decide (e.1 = 0) && decide (e.2.1 = t) && decide (e.2.2 ≤ i)

/-- The accesses of tile `t`'s TILE section while it answers: its fixed data and its strand records (R449, R451). -/
def State.tileAccesses (s : State) (t : Nat) : Nat :=
  (1664 + 160 * ((List.range 512).filter fun k => decide (((s.tile t).strand k).sched ≠ .inactive)).length + 63) / 64

/-- Was tile `t` declared unreachable by the end of its TILE section, or of its TILE_STORE section? -/
def State.tileGone (s : State) (p t : Nat) (store : Bool) : Bool :=
  (s.tile t).dead || (s.part p).dump.gone.any fun e =>
    decide (e.1 = 0) && decide (e.2.1 = t) && (store || decide (e.2.2 ≤ s.tileAccesses t))

/-- Is access `i` to the units of some kinds a hole of the dump (R449)? The spec names no section for them: the memory record is read
from the DMA engines and HBM controllers, the CAP_ registers from the capstans (DEDUCED, log 178). -/
def Dump.unitHole (d : Dump) (kinds : List Nat) (i : Nat) : Bool :=
  d.timeouts.any (fun e => kinds.contains e.1 && decide (e.2.2 = i))
    || d.gone.any fun e => kinds.contains e.1 && decide (e.2.2 ≤ i)

/-- Was a unit of some kinds declared unreachable in the dump? -/
def Dump.unitGone (d : Dump) (kinds : List Nat) : Bool := d.gone.any fun e => kinds.contains e.1

/-- The sections of a dump, in the order of R450. -/
def State.dumpSections (s : State) (p : Nat) : List (List Byte × Nat) :=
  let x := s.part p
  let none' : Nat → Bool := fun _ => false
  let small (type : Nat) (b : List Byte) : List Byte × Nat := dumpSection type 0 false b none'
  let book := ((s.book.ofPart p).map BookEntry.bytes).flatten
  let tiles := (List.range x.tiles).filterMap fun n => (x.physOf n).map fun t => (n, t)
  [small 1 (s.faultBytes p), small 2 (leBytes 8 (s.summary p).toNat)
   , dumpSection 3 0 (x.dump.unitGone [1, 2]) x.mem.bytes (x.dump.unitHole [1, 2]), small 4 x.idleRec.bytes
   , small 5 (s.queueRecords p 0), dumpSection 6 0 (x.dump.unitGone [3]) x.caps.bytes (x.dump.unitHole [3]), small 7 ((book ++ List.replicate 16384 0).take 16384)]
    ++ tiles.map (fun e =>
      let gone := s.tileGone p e.2 false
      let strands := if gone then [] else
        ((List.range 512).filter fun k => decide (((s.tile e.2).strand k).sched ≠ .inactive)).map fun k => s.strandRecord e.2 k
      dumpSection 0x10 e.1 gone (s.tileFixed e.2 ++ strands.flatten) (s.tileHole p e.2))
    ++ (if x.dump.tileStore then tiles.map fun e =>
        let first := if s.tileGone p e.2 false then 26 else s.tileAccesses e.2
        dumpSection 0x11 e.1 (s.tileGone p e.2 true) (mgetList 0 (s.tile e.2).ts 0 0x100000) (fun i => s.tileHole p e.2 (first + i))
      else [])

/-- DUMP_END: the running dump ends: COMPLETE, TRUNCATED when the buffer is too small or the host has stopped accepting writes after
`accepted` bytes, or NO_BUFFER; the next queued dump starts (R448 to R452). -/
def execDumpEnd (p : Nat) (accepted : Option Nat) (s : State) : Out :=
  let x := s.part p
  if x.dump.state ≠ 2 then .next s
  else if x.dump.len = 0 then .next (s.endDump p 6)
  else
    let dead := ((List.range x.tiles).filterMap x.physOf).filter fun t => (s.tile t).dead
      && !x.dump.gone.any fun e => decide (e.1 = 0) && decide (e.2.1 = t)
    let s := dead.foldl (fun (s : State) t => s.dumpGone p 0 t 0) s
    let parts := s.dumpSections p
    let holes := (parts.map (·.2)).foldl (fun (a : Nat) b => a + b) 0
    let body := (parts.map (·.1)).flatten
    let d := (s.part p).dump
    let total := 256 + body.length
    let head := leBytes 4 0x504D5544 ++ leBytes 1 p ++ leBytes 1 x.fault.code ++ leBytes 2 parts.length ++ leBytes 8 d.start.toNat
      ++ leBytes 8 s.time.toNat ++ leBytes 8 total ++ leBytes 4 holes ++ leBytes 2 d.unreachable ++ leBytes 218 0
    let fit := min total d.len.toNat
    let n := match accepted with | some m => min m fit | none => fit
    let s := s.hostSend (x.function p) (64 * d.addr) ((head ++ body).take n) false
    let s := s.modPart p fun x => { x with dump := { x.dump with bytes := BitVec.ofNat 64 total, holes := BitVec.ofNat 32 holes } }
    .next (s.endDump p (if n < total then 4 else 3))

/-- DUMP_ABORT: a write of 1 to FLT_DUMP_CTRL.ABORT ends a queued or running dump (R447, R452). -/
def execDumpAbort (p : Nat) (s : State) : Out := if (s.part p).dump.busy then .next (s.endDump p 5) else .next s

/-! ### The field book (R459 to R464) -/

/-- Is ring place `n` protected while the book is frozen (R463)? -/
def FieldBook.protected (b : FieldBook) (n : Nat) : Bool :=
  b.frozen && decide ((b.freezeIndex + 65536 - n) % 65536 ≤ b.keepBefore) && decide (mget BookEntry.zero b.ring n ≠ .zero)

/-- Write one entry to the ring: it takes the next SEQ; the first FAULT entry freezes the book (R462, R463). -/
def FieldBook.write (b : FieldBook) (e : BookEntry) : FieldBook :=
  let i := b.nextIndex
  if b.protected i then { b with dropped := sat32 b.dropped 1 }
  else
    let freeze := b.freezeEn && !b.frozen && decide (e.type = 1)
    let e := { e with seq := b.nextSeq, flags := e.flags + (if freeze then 2 else 0) }
    { b with
      ring := mset BookEntry.zero b.ring i e, nextSeq := b.nextSeq + 1, nextIndex := (i + 1) % 65536
      wrapped := b.wrapped || decide (i = 65535), frozen := b.frozen || freeze
      freezeSeq := if freeze then b.nextSeq else b.freezeSeq, freezeIndex := if freeze then i else b.freezeIndex }

/-- FIELD_BOOK_ENTRY: the oldest waiting entry is written, dropped, or freezes the book (R462, R463). -/
def execFieldBookEntry (s : State) : Out :=
  match s.book.waiting with
  | [] => .next s
  | e :: rest => .next { s with book := ({ s.book with waiting := rest }).write e }

/-- FBK_UNFREEZE: W1C of FBK_STATUS.FROZEN (R463). -/
def execFbkUnfreeze (s : State) : Out := .next { s with book := { s.book with frozen := false } }

/-- SITES: W1C of NUM_EVENTS.SITES clears every site record of the partition (R237). -/
def execSites (p : Nat) (s : State) : Out :=
  .next (s.modNum p fun n => { n with sites := [], events := n.events &&& 0xFE })

/-! ### Witness comparison (R469 to R471, R475) -/

/-- FLT_WIT_PRIMARY or FLT_WIT_WITNESS of a copy (R471). -/
def WitCopy.word (c : WitCopy) : W64 :=
  BitVec.ofNat 64 (c.clock % 4096 * 2 ^ 46 + c.volt % 4096 * 2 ^ 34 + c.temp % 1024 * 2 ^ 24 + c.logical * 4096 + c.phys)

/-- The lowest element whose DATA bytes differ, if any (R469). -/
def firstDiff (a b : Drain) : Option Nat :=
  match Fmt.ofCode a.format with
  | some f => (List.range 1024).find? fun n => decide (elemCode f (mget 0 a.data) n ≠ elemCode f (mget 0 b.data) n)
  | none => none

/-- Do the compared fields other than DATA differ (R469)? -/
def otherDiff (a b : Drain) : Bool :=
  decide (a.format ≠ b.format) || decide (a.rowMax ≠ b.rowMax) || decide (a.rowSum ≠ b.rowSum)
    || decide (a.rowMaxValid ≠ b.rowMaxValid) || decide (a.rowSumValid ≠ b.rowSumValid) || decide (a.nanInf ≠ b.nanInf)
    || decide (a.accSat ≠ b.accSat) || decide (a.firstElem ≠ b.firstElem)

/-- The witness record's bytes 0xC0 to 0xEB (R461, R471). -/
def WitRec.bytes (r : WitRec) : List Byte :=
  leBytes 8 (r.step.toNat * 2 ^ 32 + bitAt r.valid 31 + bitAt r.operand 30 + bitAt r.flagsDiff 29 + r.firstDiff)
    ++ leBytes 8 r.primary.toNat ++ leBytes 8 r.witness.toNat ++ leBytes 8 (r.sigP.toNat * 2 ^ 32 + r.sigW.toNat)
    ++ leBytes 8 r.time.toNat ++ leBytes 4 r.entry.toNat

/-- Note a RESULT mismatch of tile `t` with a partner: three different partners within 720 hours schedule it (R475). -/
def State.noteMismatch (s : State) (t partner : Nat) : State :=
  let s := { s with
    check := { s.check with history := s.check.history ++ [(t, partner, s.time)] }
    clk := { s.clk with history := (1, s.time, t) :: s.clk.history } }
  let s := s.lifeAdd (0x740 + 2 * clusterOf t) 1
  let mine : List Nat := (s.check.history.filter fun e => decide (e.1 = t) && decide (s.time.toNat ≤ e.2.2.toNat + 720 * 3600 * 100000000)).map (·.2.1)
  if 3 ≤ mine.eraseDups.length then s.schedule t 0 else s

/-- WITNESS_COMPARE: the pair of plan entry `i` has arrived; the comparator matches it or records a mismatch (R469, R470). -/
def execWitnessCompare (p i : Nat) (s : State) : Out :=
  let x := s.part p
  let find (w : Bool) : Option WitCopy := x.wit.arrived.find? fun c => decide (c.entry = i) && decide (c.witness = w)
  if !(x.wit.open'.contains i) then .next s
  else match find false, find true with
  | some a, some b =>
    let s := s.modPart p fun x => { x with wit := { x.wit with
      compared := sat32 x.wit.compared 1, open' := x.wit.open'.filter fun j => decide (j ≠ i)
      arrived := x.wit.arrived.filter fun c => decide (c.entry ≠ i) } }
    let operand := decide (a.sig ≠ b.sig)
    let diff := firstDiff a.drain b.drain
    let data := decide (a.drain.data ≠ b.drain.data)
    if !operand && !data && !(otherDiff a.drain b.drain) then .next s
    else
      let r : WitRec :=
        { step := BitVec.ofNat 32 x.num.step.toNat, valid := true, operand := operand
          flagsDiff := !data && otherDiff a.drain b.drain, firstDiff := diff.getD 0, primary := a.word, witness := b.word
          sigP := a.sig, sigW := b.sig, time := s.time, entry := BitVec.ofNat 32 i }
      let s := s.modPart p fun x => { x with wit := { x.wit with
        result := if operand then x.wit.result else sat32 x.wit.result 1
        operand := if operand then sat32 x.wit.operand 1 else x.wit.operand
        record := if x.wit.record.valid then x.wit.record else r } }
      let s := (s.bookEntry 0x06 p 0x31 0 r.bytes).sticky p 3
      let s := if operand then s else (s.noteMismatch a.phys b.phys).noteMismatch b.phys a.phys
      if x.wit.action then
        .next (s.modPart p fun x => { x with
          pend := x.pend ++ [⟨0x31, true, none, 0, detailOf 0 0 0 i, s.time, none, if x.stepOpen then some x.caps.epoch else none⟩] })
      else .next s
  | _, _ => .next s

/-- Has a tile finished issuing for the step: every strand started in it INACTIVE or waiting in the final CWAIT, its MATRIX
operations complete, its COMMIT issued (R469)? -/
def State.doneIssuing (s : State) (t : Nat) : Bool :=
  let x := s.tile t
  x.committed && (List.range 512).all fun k =>
    (x.matOps k).isEmpty && (match (x.strand k).sched with
      | .inactive => true
      | .waiting (.cwait e) => decide (e = 0xFFFF)
      | _ => false)

/-- WITNESS_UNMATCHED: the pair of plan entry `i` can no longer complete and is counted (R469). -/
def execWitnessUnmatched (p i : Nat) (s : State) : Out :=
  let x := s.part p
  let have' (w : Bool) : Bool := x.wit.arrived.any fun c => decide (c.entry = i) && decide (c.witness = w)
  match (x.cur.bind fun v => v.wit[i]?) with
  | none => .next s
  | some e =>
    let done (n : Nat) : Bool := match x.physOf n with | some t => s.doneIssuing t | none => true
    if x.wit.open'.contains i && !(have' false && have' true) && done e.pTile && done e.wTile then
      .next (s.modPart p fun x => { x with wit := { x.wit with
        unmatched := sat32 x.wit.unmatched 1, open' := x.wit.open'.filter fun j => decide (j ≠ i)
        arrived := x.wit.arrived.filter fun c => decide (c.entry ≠ i) } })
    else .next s

/-! ### Check traverses (R473, R474) -/

/-- Is a cluster eligible: its bay in no partition, or in an EMPTY one with no open tenancy (R473)? -/
def State.checkable (s : State) (c : Nat) : Bool :=
  decide (s.domainState (clusterDomain c) ≠ 3)
    && match s.ownerOfBay (3 * (c / 30) + c % 30 / 10) with
      | none => true
      | some p => decide ((s.part p).stateCode = 0) && decide ((s.part p).tenancy = 0) && (s.part p).destroy.isNone

/-- One completed cluster of a round: its CHECK entry, and what a confirmed failure does (R473 to R475). -/
def State.checkOne (s : State) (r : CheckResult) : State :=
  let on := (List.range 4).any fun i => decide (r.point ≠ 0) && decide (s.check.points.toNat / 2 ^ (8 * i) % 256 = r.point)
  if !(s.checkable r.cluster && on && decide (r.result < 3)) then s
  else
    let s := s.bookEntry 0x0C 0xF 0 0 (leBytes 1 r.cluster ++ leBytes 1 r.point ++ leBytes 1 r.result ++ leBytes 1 0 ++ leBytes 2 r.tile
      ++ leBytes 2 0 ++ leBytes 4 r.expected.toNat ++ leBytes 4 r.observed.toNat)
    let s := { s with check := { s.check with cluster := r.cluster, point := r.point } }
    if r.result < 2 then s
    else
      let c := s.check
      let c := { c with
        fails := sat16 c.fails 1, resValid := true, resPoint := if c.resValid then c.resPoint else r.point
        resPhys := if c.resValid then c.resPhys else r.tile }
      let s := { s with check := c, clk := { s.clk with history := (2, s.time, r.tile) :: s.clk.history } }
      (s.lifeAdd (0x830 + r.cluster) 1).schedule r.tile 1

/-- CHECK_ROUND: Trim runs a round; the clusters completed, in order (R473). -/
def execCheckRound (results : List CheckResult) (s : State) : Out :=
  let due := s.check.lastRound.toNat + max 1 s.check.intervalH * 3600 * 100000000
  if s.check.enable && s.mast.trimUp && decide (due ≤ s.time.toNat) then
    let s := results.foldl State.checkOne s
    .next { s with check := { s.check with lastRound := s.time } }
  else .next s

end Sys2Proof.Machine
end

