-- ==== Sys2Proof/Machine/Links.lean ====
section
/-! DEFINITION. The Balca links: training, loss, retraining and loop-back, the flit layer with replay, credits and epochs, slack, and
relaying (R276 to R296, R318 to R327). -/

namespace Sys2Proof.Machine

/-! ### Training (R276, R282 to R284) -/

/-- Does the peer that an identity frame names stand where R274 and R275 require it? -/
def State.wiredRight (s : State) (n : Nat) (peer : W32) (peerLink : Nat) : Bool :=
  let (c, spare, l) := linkPeer s.coord n
  decide (peerLink = l) && decide (coordSpare peer = spare) && decide (coordY peer = coordY c) && decide (coordZ peer = coordZ c)
    && (spare || decide (coordX peer = coordX c))

/-- The identity frame of this end (R276, R282). -/
def State.identity (s : State) (n : Nat) : Msg := .identity n Config.serial s.coord (linkRole n).1 (linkRole n).2

/-- May the lanes of a link exchange identity frames: it is DOWN and not barred, or trains without having exchanged them (R276, R282)? -/
def Link.mayIdentify (l : Link) : Bool :=
  match l.state with
  | .down => !l.barred && l.failedAt.isNone
  | .trainFull | .retrain => !l.identified
  | _ => false

/-- LINK_SIGNAL_DETECT: the lanes of link `n` have locked and the identity frames are exchanged, with LNK_COORD as it now stands: the
wiring is checked, and cached or full training is chosen; every training begins so, also the one of RETRAIN, of FULL_TRAIN and of the
10 s timer (R276, R282, R283, R325; for RETRAIN that is DEDUCED, log 188). Not while the transmit PLL or the domains of its group are off
(R510, R518, R519). -/
def execLinkSignalDetect (n : Nat) (serial : W64) (peerLink : Nat) (coord : W32) (lanes : Nat) (s : State) : Out :=
  let l := s.link n
  if n < 32 ∧ l.enable ∧ l.mayIdentify ∧ s.clk.refclk ∧ !s.pkg.perst ∧ s.linkOn n then
    let changed := match l.cache with | some e => decide (e.1 ≠ serial) | none => false
    let l := { l with
      peerSerial := serial, peerLink := peerLink % 32, lanes := lanes % 16, found := true, pos := s.coord, identified := true }
    let l := if changed then l.stick 0 else l
    let t := s.send (s.identity n)
    if !(s.wiredRight n coord peerLink) then .next (t.setLink n { l.stick 4 with barred := true, state := .down, attempts := 0, retraining := false })
    else
      let cached := decide (l.cache = some (serial, peerLink % 32)) && !l.wantFull
      .next (t.setLink n (match l.state with
        | .retrain => if cached then l else { l with state := .trainFull, attempts := 0 }
        | .trainFull => l
        | _ => { l with state := if cached then .trainCached else .trainFull, attempts := 0, retraining := false }))
  else .next s

/-- A training attempt has failed: a cached one is followed by a full one, in RETRAIN after three; a full one is made three times, then
the link is DOWN with TRAIN_FAIL (R282 step 6, R284). The cached attempt of a link that trains after the choice of R282 is one. -/
def Link.trainFailed (l : Link) (full : Bool) (now : W64) : Link :=
  if full then
    if l.attempts + 1 < 3 then { l with state := .trainFull, attempts := l.attempts + 1 }
    else { (l.stick 2) with state := .down, attempts := 0, failedAt := some now, found := false, identified := false, lanes := 0, retraining := false }
  else if l.retraining ∧ l.attempts + 1 < 3 then { l with state := .retrain, attempts := l.attempts + 1 }
  else { l with state := .trainFull, attempts := 0 }

/-- LINK_TRAINING_DONE: full or cached training of link `n`, whose peer is known, ends after `ms` milliseconds: qualification begins, or a
retry follows (R276, R282 steps 4 and 6, R284). -/
def execLinkTrainingDone (n : Nat) (pass : Bool) (ms : Nat) (s : State) : Out :=
  let l := s.link n
  let full := decide (l.state = .trainFull)
  if l.identified ∧ (full ∨ l.state = .trainCached ∨ l.state = .retrain) then
    let l := { l with trainMs := min 2047 ms, lastFull := full }
    .next (s.setLink n (if pass then { l with state := .qualify } else l.trainFailed full s.time))
  else .next s

/-- Receive buffers of the virtual channels, in flits (R290). -/
def vcBuffer (vc : Nat) : Nat := [256, 512, 256, 256, 32, 16, 128, 0].getD vc 0

/-- A LINKCTL flit of this end (R286). -/
def Link.ctl (l : Link) (data : List Byte) : Flit :=
  { epoch := 0, seq := l.nextSeq, ack := l.expectSeq - 1, ccount := 0, cvc := 0, len := data.length, last := true, first := true, vc := 0
    type := 2, data := data }

/-- The CREDIT_INIT and RESUME this end sends when a link comes UP (R282 step 7, R286). -/
def Link.upFlits (l : Link) : List Flit :=
  let counts := ((List.range 8).map fun v => leBytes 2 (vcBuffer v - (l.vcOf v).held.length - (l.vcOf v).busy)).flatten
  [l.ctl (leBytes 1 2 ++ leBytes 3 0 ++ counts), l.ctl (leBytes 1 3 ++ leBytes 2 l.expectSeq.toNat)]

/-- QUALIFICATION_DONE: the PRBS qualification of link `n` ends: the link is UP on all four lanes, and a full training's coefficients are
cached; or training goes on (R282 steps 5 to 7, R284, R322). -/
def execQualificationDone (n : Nat) (pass : Bool) (s : State) : Out :=
  let l := s.link n
  if l.state ≠ .qualify then .next s
  else if !pass then .next (s.setLink n (l.trainFailed l.lastFull s.time))
  else
    let l := if l.lost then l.abandon else l
    let l := { l with
      state := .up, attempts := 0, leftUp := none, lost := false, wantFull := false, failedAt := none, lanes := 15, retraining := false
      cache := if l.lastFull then some (l.peerSerial, l.peerLink) else l.cache }
    .next ((s.setLink n l).sendFlits n l.upFlits)

/-- TRAINING_RETRY_TIMER: a link DOWN with TRAIN_FAIL attempts full training again, every 10 s, from its identity frames on (R276, R282
step 6). -/
def execTrainingRetryTimer (n : Nat) (s : State) : Out :=
  let l := s.link n
  match l.failedAt with
  | some t =>
    if l.enable ∧ l.state = .down ∧ t.toNat + 1000000000 ≤ s.time.toNat then
      .next (s.setLink n { l with failedAt := none, wantFull := true, state := .trainFull, attempts := 0, identified := false })
    else .next s
  | none => .next s

/-- An UP link enters RETRAIN: replay buffer, sequence numbers and receive buffers are kept (R284). -/
def State.enterRetrain (s : State) (n : Nat) : State :=
  let l := s.link n
  if l.state = .up then
    ((s.setLink n { l with
      state := .retrain, attempts := 0, leftUp := some s.time, lost := false, nakCount := 0, identified := false, retraining := true, retrains := sat32 l.retrains 1 }).lifeAdd (0x6C0 + 4 * n) 1).takeSsc (n / 4)
  else s

/-- LINK_RETRAIN_TRIGGER: a lane of link `n` has lost signal or block lock; `lanes` are locked (R284). -/
def execLinkRetrainTrigger (n lanes : Nat) (s : State) : Out :=
  if (s.link n).state = .up then .next ((s.modLink n fun l => { l with lanes := lanes % 16 }).enterRetrain n) else .next s

/-- Does partition `p`, whose lost peer is `m`, first finish a control command it had started: `m` is its lead (R38)? -/
def State.finishesFirst (s : State) (p m : Nat) : Bool :=
  let x := s.part p
  !x.isLead && decide (x.gang.lead = m) && !x.faulted && (s.runningControl p).isSome

/-- A gang peer has become unreachable over link `n` (R34 rule 3, R38, R277). A member whose lead it is keeps the fault until the control
command it had started has finished (R38). The lead posts what it can no longer complete when the
fault stops the partition, so that the record still names the running command (R442). -/
def State.peerLost (s : State) (n : Nat) : State :=
  match s.farMember n with
  | none => s
  | some m =>
    (List.range 12).foldl (fun (s : State) p =>
      let x := s.part p
      if x.exist && x.gang.formed && x.gang.present.getLsbD m then
        if s.finishesFirst p m then
          s.modPart p fun x => { x with
            gang := { x.gang with leadLost := true }
            lostFault := some (x.lostFault.getD ⟨cPeerLost, true, none, 0, detailOf n m 0 0, s.time, none, none⟩) }
        else
          let s := if !x.isLead && decide (x.gang.lead = m) then
              s.modPart p fun x => { x with gang := { x.gang with leadLost := true } }
            else s
          (if x.faulted then s.mergeLost p else s).partFault p cPeerLost true 0 (detailOf n m 0 0)
      else s) s

/-- LINK_LOSS_TIMEOUT: a link has not been UP for LOSS_MS since it left UP: it is lost; what it carried is resent on other links or
abandoned (R284, R294). A responder is not lost during its peer's loop-back (R319). -/
def execLinkLossTimeout (e : LossEvent) (s : State) : Out :=
  let n := e.link
  let l := s.link n
  match l.leftUp with
  | some t =>
    if l.state ≠ .up ∧ !l.lost ∧ !(l.responder && e.peerLoops) ∧ t.toNat + s.lossMs * 100000 ≤ s.time.toNat then
      .next ((s.dropLink n id).peerLost n)
    else .next s
  | none => .next s

/-- RETRAIN: a write of 1 to LNK_CTRLn.RETRAIN (R276, R284, R321). -/
def execRetrain (n : Nat) (s : State) : Out :=
  if n < 32 then .next ((s.modLink n fun l => { l with barred := false }).enterRetrain n) else .next s

/-- FULL_TRAIN: a write of 1 to LNK_CTRLn.FULL_TRAIN discards the cache entry; the next training is full, and a link that has found its
peer trains now (R282, R321). -/
def execFullTrain (n : Nat) (s : State) : Out :=
  if 32 ≤ n then .next s
  else
    let l := s.link n
    let l := { l with cache := none, wantFull := true, barred := false }
    let now := l.enable && l.found && decide (l.state ≠ .down) && decide (l.state ≠ .disabled) && decide (l.state ≠ .loopback)
    .next ((s.setLink n (if now then
      { l with
        state := .trainFull, attempts := 0, identified := false, retraining := false
        leftUp := if l.state = .up then some s.time else l.leftUp } else l)).takeSsc (n / 4))

/-- Is a depth far-end: its peer must answer (R318)? -/
def farEnd (depth : Nat) : Bool := decide (depth = 4) || decide (depth = 5)

/-- LOOPBACK: a loop-back of link `n` at the depth of LNK_CTRLn, with its PATTERN, has checked `bits` bits (or flits) and found the errors of `r`;
at L4 and L5 only where the peer is a responder (R318, R319). -/
def execLoopback (n : Nat) (bits : Nat) (r : LoopResult) (s : State) : Out :=
  let l := s.link n
  if n < 32 ∧ !l.enable ∧ l.loopback ≠ 0 ∧ (!(farEnd l.loopback) || r.answers) then
    let l := { l with
      state := .loopback, lbErr := sat32 l.lbErr r.errors, lbBits := BitVec.ofNat 64 (min (2 ^ 64 - 1) (l.lbBits.toNat + bits)) }
    .next (s.setLink n (if r.errors ≠ 0 then l.stick 3 else l))
  else .next s

/-! ### The flit layer (R285 to R296) -/

/-- Is `a` at or before `b` in the order of sequence numbers? -/
def seqLe (a b : BitVec 16) : Bool := decide ((b - a).toNat < 32768)

/-- What a good header brings back: an ACK frees flits of the replay buffer and messages sent in full, credits may be used again (R286 to
R289). -/
def Link.header (l : Link) (ack : BitVec 16) (ccount cvc : Nat) : Link :=
  { l with
    replay := l.replay.filter fun f => !(seqLe f.1.seq ack)
    outMsgs := l.outMsgs.filter fun m => !(decide (m.sent = m.flits) && seqLe m.lastSeq ack)
    vcs := if ccount = 0 then l.vcs else mmod VcState.zero l.vcs cvc fun v => { v with credits := v.credits + ccount } }

/-- A good header reaches link `n`, which then sends what it may (R286 to R291). -/
def State.headerIn (s : State) (n : Nat) (ack : BitVec 16) (ccount cvc : Nat) : State :=
  (s.modLink n fun l => l.header ack ccount cvc).pump n

/-- What the receiver does with a DATA flit (R290, R296). -/
inductive FlitFate where
  | accept | hold | stale
  deriving DecidableEq, Repr

/-- What the receiver does with a flit of a virtual channel by its epoch (R290, R296). -/
def State.flitFate (s : State) (n : Nat) (f : Flit) : FlitFate :=
  if !(epochVcs.contains f.vc) then .accept
  else match s.linkPart n with
    | none => .stale
    | some p =>
      let e := (s.part p).caps.epoch
      if f.epoch = e then .accept else if f.epoch = e + 1 then .hold else .stale

/-- Resend the replay buffer from a sequence number (R288). -/
def State.resendFrom (s : State) (n : Nat) (seq : BitVec 16) : State :=
  let l := s.link n
  let fs := (l.replay.filter fun f => seqLe seq f.1.seq).map (·.1)
  if fs.isEmpty then s
  else (s.setLink n { l with
    replays := sat32 l.replays 1, txFlits := BitVec.ofNat 64 (min (2 ^ 64 - 1) (l.txFlits.toNat + fs.length))
    replay := l.replay.map fun f => if seqLe seq f.1.seq then (f.1, s.time) else f }).sendFlits n fs

/-- A NAK names the SEQ expected: the sender resends from it; eight for one SEQ send the link into RETRAIN (R284, R288 rule 4). -/
def State.nakIn (s : State) (n : Nat) (seq : BitVec 16) : State :=
  let l := s.link n
  let c := if l.nakCount ≠ 0 ∧ seq = l.nakSeq then l.nakCount + 1 else 1
  let s := s.setLink n { (l.header (seq - 1) 0 0) with nakSeq := seq, nakCount := c }
  if 8 ≤ c then s.enterRetrain n else s.resendFrom n seq

/-- Initial credits of the virtual channels (R282 step 7, R286), less the flits this end must send again, which fill buffers of their
own (R288 rule 5, R289). -/
def State.creditsIn (s : State) (n : Nat) (counts : List Nat) : State :=
  (s.modLink n fun l => { l with
    vcs := (List.range 8).foldl (fun m v => mmod VcState.zero m v fun c =>
      { c with credits := counts.getD v 0 % 65536 - (l.replay.filter fun f => decide (f.1.vc = v)).length }) l.vcs }).pump n

/-- After a training the peer names the SEQ it expects, and the sender resends from it (R288 rule 5). -/
def State.resumeIn (s : State) (n : Nat) (seq : BitVec 16) : State :=
  ((s.modLink n fun l =>
    let l := l.header (seq - 1) 0 0
    { l with nakCount := 0, nextSeq := if l.replay.isEmpty then seq else l.nextSeq }).resendFrom n seq).pump n

/-- A LINKCTL flit acts by its subtype: NAK, CREDIT_INIT, RESUME (R286). -/
def State.linkCtlIn (s : State) (n : Nat) (d : List Byte) : State :=
  let seq := BitVec.ofNat 16 (leNat ((d.drop 1).take 2))
  match (d.headD 0).toNat with
  | 1 => s.nakIn n seq
  | 2 => s.creditsIn n ((List.range 8).map fun v => leNat ((d.drop (4 + 2 * v)).take 2))
  | _ => s.resumeIn n seq

/-- What a gang member's PFX or SPILL does in this partition's HBM (R137, R262, R264, R265): it reads or writes the lend region kept for
that member; outside it, or with another lend epoch than the partition's, it does neither and the borrower learns which. The answers
travel on VC3. -/
def State.serveLend (s : State) (p m : Nat) (a : LendAsk) : State :=
  let x := s.part p
  let e := x.mem.lentEpoch
  let n := if a.write then a.bytes.length else a.len
  let refuse (lost : Bool) : State := (s.send (.lendRefused p m lost)).sendLend p 7 m e a.offset (leBytes 1 (bitNat lost)) []
  let region : Option Region := match x.cur with
    | some v => v.regions.find? fun (r : Region) => decide (r.kind = 7) && decide (r.peer = m)
    | none => none
  if a.epoch ≠ e then refuse true
  else match region with
    | none => refuse false
    | some r =>
      if r.size < a.offset + n then refuse false
      else
        let base := r.address + a.offset
        if a.write then
          let s := s.hbmWrite p base a.bytes
          a.poison.foldl (fun (s : State) w => s.poisonBeat p ((base + 4 * w) / 32) 2) s
        else
          let s := s.readRange p base n
          let y := s.part p
          let bad := (List.range ((n + 3) / 4)).filter fun w => s.beatPoisoned y ((base + 4 * w) / 32)
          (s.send (.lendData p m (s.hbmRead y base n) bad)).sendLend p 5 m e a.offset (s.hbmRead y base n) bad

/-- Is a message open at the receiver: its FIRST flit has come, accepted or held, and its LAST has not (R293)? -/
def VcState.opened (v : VcState) : Bool :=
  v.isOpen || (match v.held.getLast? with | some f => !f.last | none => false)

/-- A DATA flit in order on link `n` (R289, R290, R293, R296): accepted into its message; held for the next epoch, its credit not returned;
or stale. A FAULTED or quiesced partition answers a newer epoch with a strike (R311). The buffers of a collective's flits are freed when a
capstan takes the message, the others' at acceptance. -/
def State.placeFlit (s : State) (n : Nat) (f : Flit) : State :=
  let put (g : VcState → VcState) (s : State) : State := s.modLink n fun l => { l with vcs := mmod VcState.zero l.vcs f.vc g }
  let idle (s : State) (c : Nat) : State := s.sendFlits n [(s.link n).idleFlit c f.vc]
  let s := match s.linkPart n with
    | some p => if epochVcs.contains f.vc && (s.part p).deaf then s.answerNewer p f.epoch else s
    | none => s
  match s.flitFate n f with
  | .accept =>
    if vcKeeps f.vc then idle (put (fun v => { v.take f s.time with busy := v.busy + 1 }) s) 0
    else idle (put (fun v => v.take f s.time) s) 1
  | .hold => idle (put (fun v => { v with held := v.held ++ [f], lastFlit := s.time, slack := false }) s) 0
  | .stale => idle (s.staleOn n) 1

/-- DATA_FLIT_RECEIVE: 256 bytes arrive on link `n`, after the link's FEC has corrected `fixed` codewords and failed on `bad` since the last
(R324). A flit that an uncorrectable codeword touched, or that is no good flit, is a CRC failure: it is dropped, and one NAK for it names
the expected SEQ (R288 rule 3, which R284's eight NAKs for one SEQ show to hold of each failure: DEDUCED, log 189). A good one's ACK and
credits apply; a LINKCTL flit acts; a DATA flit in order is accepted, held or stale, and a duplicate is dropped (R285 to R289, R293, R296).
On a responder's link that is not UP, a peer's L5 loop-back, the flit goes back (R318). A flit for which no receive buffer is free is not
accepted. `ask` is what a message that this flit ends has the device do: on VC3 in a lend region (R137, R264), on VC6 in the partition's HBM
(R385). -/
def execDataFlitReceive (n : Nat) (bytes : List Byte) (fixed bad : Nat) (ask : Option MsgAsk) (s : State) : Out :=
  let l := s.link n
  let l := { l with fecCorr := sat32 l.fecCorr fixed, fecUncorr := sat32 l.fecUncorr bad }
  if l.state ≠ .up then
    match if bad = 0 then Flit.ofBytes bytes else none with
    | some f =>
      let s := s.setLink n l
      .next (if l.responder ∧ l.enable then s.send (.flit n f) else s)
    | none => .next (s.setLink n { l with crcErr := sat32 l.crcErr 1 })
  else match if bad = 0 then Flit.ofBytes bytes else none with
  | none =>
    let m := { l with crcErr := sat32 l.crcErr 1, nakSent := true }
    let s := s.setLink n m
    .next (s.sendFlits n [m.ctl (leBytes 1 1 ++ leBytes 2 l.expectSeq.toNat)])
  | some f =>
    let s := s.setLink n (l.header f.ack f.ccount f.cvc)
    let l := s.link n
    let v := l.vcOf f.vc
    if f.type = 0 then .next (s.pump n)
    else if f.type = 2 then .next (s.linkCtlIn n f.data)
    else if f.seq ≠ l.expectSeq ∧ l.nakSent then .next (s.pump n)
    else if f.seq ≠ l.expectSeq ∨ vcBuffer f.vc ≤ v.busy + v.held.length then .next ((s.sendFlits n [l.idleFlit 0 0]).pump n)
    else
      let taken := decide (s.flitFate n f = .accept)
      let s := (s.setLink n { l with
        expectSeq := l.expectSeq + 1, nakSent := false, rxFlits := BitVec.ofNat 64 (min (2 ^ 64 - 1) (l.rxFlits.toNat + 1)) }).placeFlit n f
      let s := match ask, s.farMember n, s.linkPart n with
        | some (.lend a), some m, some p => if f.vc = 3 ∧ f.last then s.serveLend p m a else s
        | some (.write a bs), _, some p => if f.vc = 6 ∧ f.last ∧ taken ∧ a + bs.length ≤ (s.part p).hbmSize then s.hbmWrite p a bs else s
        | _, _, _ => s
      .next (s.pump n)

/-- NAK: a NAK flit arrives on link `n`, with its header's ACK and credits (R284, R286, R288 rule 4). -/
def execNak (n : Nat) (f : LinkCtl) (s : State) : Out :=
  if (s.link n).state = .up then .next ((s.modLink n fun l => l.header f.ack (f.ccount % 256) (f.cvc % 8)).nakIn n f.seq) else .next s

/-- CREDIT_INIT: initial credits of the virtual channels, with the header's ACK (R282 step 7, R286). -/
def execCreditInit (n : Nat) (f : CreditFlit) (s : State) : Out :=
  if (s.link n).state = .up then .next ((s.modLink n fun l => l.header f.ack 0 0).creditsIn n f.counts) else .next s

/-- RESUME: after a training the peer names the SEQ it expects (R286, R288 rule 5). -/
def execResume (n : Nat) (f : LinkCtl) (s : State) : Out :=
  if (s.link n).state = .up then .next ((s.modLink n fun l => l.header f.ack (f.ccount % 256) (f.cvc % 8)).resumeIn n f.seq) else .next s

/-- REPLAY_TIMEOUT: the oldest unacknowledged flit has waited 20 µs with no ACK: the sender resends from it (R288 rule 4). -/
def execReplayTimeout (n : Nat) (s : State) : Out :=
  match (s.link n).state, (s.link n).replay with
  | .up, f :: _ => if f.2.toNat + 2000 ≤ s.time.toNat then .next (s.resendFrom n f.1.seq) else .next s
  | _, _ => .next s

/-- SLACK: the open message of a virtual channel has had no flit for 2 µs (R293). -/
def execSlack (n vc : Nat) (s : State) : Out :=
  let v := mget VcState.zero (s.link n).vcs vc
  if v.opened && !v.slack && decide (v.lastFlit.toNat + 200 ≤ s.time.toNat) then
    .next (s.modLink n fun l => { l with
      slackCnt := sat32 l.slackCnt 1, vcs := mset VcState.zero l.vcs vc { v with slack := true } })
  else .next s

/-- IDLE_FLIT_RECEIVE: an IDLE flit's ACK and returned credits are applied (R287, R289). -/
def execIdleFlitReceive (n : Nat) (ack : BitVec 16) (ccount cvc : Nat) (s : State) : Out :=
  if (s.link n).state = .up then .next (s.headerIn n ack (ccount % 256) (cvc % 8)) else .next s

/-! ### Relaying (R278, R367) -/

/-- The torus direction in which position `dest` stands next to this device, if it does (R274, R278). -/
def State.nextTo (s : State) (dest : Nat) : Option Nat :=
  let (y, z) := (dest / 256 % 256, dest / 65536)
  let (my, mz) := (coordY s.coord, coordZ s.coord)
  if z = mz ∧ y = (my + 1) % 32 then some 1
  else if z = mz ∧ (y + 1) % 32 = my then some 2
  else if y = my ∧ z = (mz + 1) % 32 then some 3
  else if y = my ∧ (z + 1) % 32 = mz then some 4
  else none

/-- RELAY_FORWARD: a message on link `n` for the position `dest` is passed on, on its virtual channel, and its receive buffers are freed
(R289). Torus traffic for a member whose place the spare has taken crosses this member's own bundle, and is then delivered on gang port 0
(R278). A VC3 message of a warp goes on along its axis (R367); where the next position on it is one whose place the spare has taken, by way
of the gang's relaying members. -/
def execRelayForward (n vc dest : Nat) (m : RelayData) (s : State) : Out :=
  let s := if vcKeeps vc then s.freeBuffers n vc (max 1 ((m.data.length + 239) / 240)) else s
  let pass (ls : List Nat) : Out := match s.routeOver ls 0 with
    | some l => .next ((s.send (.relay [l] vc dest m.data)).transmit l vc m.epoch 0 m.data)
    | none => .next s
  let onward (role : Nat) : Out :=
    if s.relayed.contains (s.neighbour role) then
      match s.linkPart n with
      | some p => .next (s.sendTorus p role vc m.epoch 0 m.data)
      | none => pass s.relayLinks
    else pass (bundle role)
  if s.relayed.contains dest ∧ (linkRole n).1 = 0 then
    match s.nextTo dest with | some role => pass (bundle role) | none => .next s
  else if s.relayed.contains dest ∧ s.spareHolds = some (dest % 256) then pass [0]
  else if vc = 3 ∧ dest ≠ s.shardId then
    match (linkRole n).1 with
    | 1 => onward 2
    | 2 => onward 1
    | 3 => onward 4
    | 4 => onward 3
    | _ => .next s
  else .next s

end Sys2Proof.Machine
end

