-- ==== Sys2Proof/Machine/Emulated.lean ====
section
/-! DEFINITION. The registers of the emulated window: what the PART_, ADM_, TCK_ and ELA_ registers read, and what writing them does
(R15 to R17, R391 to R398, R403, R408 to R410, R429 to R433). -/

namespace Sys2Proof.Machine

/-- `n` bits of a number from bit `lo`. -/
def fld (w lo n : Nat) : Nat := w / 2 ^ lo % 2 ^ n

/-- The state an outcome goes on with. -/
def outState (o : Out) (s : State) : State := match o with | .next t => t | _ => s

/-- The partition whose own registers a function shows: the device partition in the physical function, p in function p + 1 (R403,
R404). -/
def State.viewOf (s : State) (fn : Nat) : Option Nat :=
  if fn = 0 then if (s.part 0).exist && (s.part 0).isDevice then some 0 else none
  else if fn ≤ 12 ∧ (s.part (fn - 1)).exist ∧ !(s.part (fn - 1)).isDevice then some (fn - 1) else none

/-- The low or the high word of a 64-bit value. -/
def half (v : W64) (high : Bool) : Nat := if high then v.toNat / 2 ^ 32 else v.toNat % 2 ^ 32

/-! ### Reading -/

/-- PART_INFO (R409). -/
def Part.info (x : Part) (p : Nat) : Nat := p * 2 ^ 28 + maskOf x.bays * 2 ^ 16 + x.tiles * 16 + x.cls * 4

/-- PART_GANG (R431). -/
def GangReg.word (g : GangReg) : W64 := BitVec.ofNat 64 (g.unitId.toNat * 2 ^ 32 + g.role * 2 ^ 30 + bitAt g.formed 27)

/-- A word of the PART_ registers of partition `p` (R408 to R410). -/
def State.partWord (s : State) (p off : Nat) : Nat :=
  let x := s.part p
  let hi := decide (off % 8 = 4)
  if off < 8 then half (s.summary p) hi
  else if off = 8 then x.info p
  else if off = 0x10 ∨ off = 0x14 then half x.timeouts hi
  else if off = 0x18 then x.bar2Base
  else if off = 0x20 ∨ off = 0x24 then half x.gang.word hi
  else if off = 0x28 ∨ off = 0x2C then half x.tenancy hi
  else if 0x100 ≤ off ∧ off < 0x200 then
    let w := mget HostWindow.zero x.hostWin ((off - 0x100) / 16)
    if off % 16 < 8 then half w.base hi
    else half (BitVec.ofNat 64 (bitAt w.read 63 + bitAt w.write 62 + w.length)) hi
  else 0

/-- Word `i` of ADM_REQ (R430). -/
def AdmReq.word (r : AdmReq) (i : Nat) : Nat :=
  match i with
  | 0 => r.kind + r.cls * 256 + r.bayCount * 65536 + bitAt r.queue 24 + bitAt r.exact 25
  | 1 => r.bayMask + r.partition * 65536
  | 2 => half r.tag false
  | 3 => half r.tag true
  | 4 => r.lease.toNat
  | 5 => r.reshapeId.toNat
  | 6 => r.target + r.deadline * 65536
  | 7 => r.duration
  | 8 => r.waitLimit
  | _ => 0

/-- Word `i` of ADM_RESULTs (R430). -/
def AdmSlot.word (v : AdmSlot) (i : Nat) : Nat :=
  match i with
  | 0 => (if v.slot < 2 then 0 else v.status) + v.reason * 256 + v.partition * 65536 + v.bays * 2 ^ 20
  | 1 => v.slot * 2 ^ 30 + v.position
  | 2 => v.estWait.toNat
  | 3 => v.byLease.toNat
  | 4 => v.byReshape.toNat
  | 6 => half v.time false
  | 7 => half v.time true
  | _ => 0

/-- A word of the ADM_ registers (R429). -/
def State.admWord (s : State) (off : Nat) : Nat :=
  if off = 0 then s.adm.ctrl.toNat
  else if 0x40 ≤ off ∧ off < 0x80 then s.adm.req.word ((off - 0x40) / 4)
  else if off = 0x84 then bitAt s.adm.lastValid 31 + s.adm.lastSlot
  else if 0x400 ≤ off ∧ off < 0xC00 then (s.adm.slot ((off - 0x400) / 32)).word (off % 32 / 4)
  else if 0xC00 ≤ off ∧ off < 0xC30 then (mget 0x80008422 s.adm.share ((off - 0xC00) / 4)).toNat
  else 0

/-- A word of the TCK_ registers (R433). -/
def State.tckWord (s : State) (p off : Nat) : Nat :=
  let h := (s.part p).hove
  if off = 0 then bitAt h.enable 31 + h.interval * 65536 + h.beat.toNat
  else if off = 4 then
    h.state * 2 ^ 30 + h.cause * 2 ^ 28 + (if h.state = 1 then (h.leaseEnd.toNat - s.time.toNat + 99999999) / 100000000 else 0)
  else if off = 8 then h.leaseS
  else 0

/-- A stay's STATE and the committed step counter (R396): the older own copy of the two. -/
def Part.olderStay (x : Part) (triple : Bool) : W64 :=
  if triple ∧ x.ela.stay2.step.toNat < x.ela.stay1.step.toNat then x.ela.stay2.step else x.ela.stay1.step

/-- A word of the ELA_ registers (R391 to R398). -/
def State.elaWord (s : State) (p off : Nat) : Nat :=
  let x := s.part p
  let e := x.ela
  let hi := decide (off % 8 = 4)
  let triple := match x.cur with | some v => v.tripleStay | none => false
  let word (v : Nat) : Nat := half (BitVec.ofNat 64 v) hi
  let phase := match e.run with
    | some r => r.phase * 2 ^ 28 + r.reason * 2 ^ 24 + bitAt r.leaving 22 + r.passes % 256 * 256
    | none => e.lastReason * 2 ^ 24
  match off / 8 with
  | 0 =>
    if hi then
      phase + bitAt e.joining 23 + bitAt e.armed 21
    else e.ctrl.toNat
  | 1 =>
    if hi then e.warpEpoch.toNat
    else x.variant.getD 0 * 2 ^ 24 + (match e.run with | some r => r.target | none => 0xFF) * 65536 + x.level * 256
      + (match x.cur with | some v => v.invGroup | none => 0)
  | 2 => match e.run with
    | some r => word (r.lease.toNat * 2 ^ 32 + min e.estimate 0xFFFF * 65536
        + (match r.deadline with | some d => min 0xFFFF ((d.toNat - s.time.toNat + 9999999) / 10000000) | none => 0))
    | none => 0
  | 3 => match e.run with | some r => word ((r.segmentsLeft + r.toSend) * 2 ^ 32 + r.sentMib) | none => 0
  | 4 => half e.last hi
  | 5 => half e.lost hi
  | 6 =>
    let older := x.olderStay triple
    let lag := x.num.step.toNat - older.toNat
    word (e.stay1.state * 2 ^ 60 + (if triple then e.stay2.state else 0) * 2 ^ 56 + e.held.length * 2 ^ 48 + min lag 0xFFFF * 2 ^ 32
      + older.toNat % 2 ^ 32)
  | 7 => if hi then e.started.toNat * 65536 + e.backupWon.toNat * 256 + e.notStarted.toNat else e.backup.toNat
  | 8 => if hi then 0 else e.events.toNat
  | _ => 0

/-- A word of the emulated window as function `fn` sees it, by its offset from 0x020_0000 (R15, R391, R403). -/
def State.emuWord (s : State) (fn off : Nat) : W32 :=
  BitVec.ofNat 32 (
    if off / 0x1000 = 1 then if fn = 0 then s.admWord (off % 0x1000) else 0
    else match s.viewOf fn with
      | none => 0
      | some p => match off / 0x1000 with
        | 0 => s.partWord p off
        | 2 => s.tckWord p (off % 0x1000)
        | 4 => s.elaWord p (off % 0x1000)
        | _ => 0)

/-- Is the word at an offset of the emulated window half of a 64-bit register (R16, R391, R408, R430)? -/
def emuWide (off : Nat) : Bool :=
  let o := off % 0x1000
  match off / 0x1000 with
  | 0 => decide (o < 8) || (decide (0x10 ≤ o) && decide (o < 0x18)) || (decide (0x20 ≤ o) && decide (o < 0x30))
      || (decide (0x100 ≤ o) && decide (o < 0x200))
  | 1 => (decide (0x48 ≤ o) && decide (o < 0x50)) || (decide (0x400 ≤ o) && decide (o < 0xC00) && decide (0x18 ≤ o % 32))
  | 4 => decide (0x10 ≤ o) && decide (o < 0x38)
  | _ => false

/-! ### Writing -/

/-- Word `i` of ADM_REQ takes a value (R430). -/
def AdmReq.write (r : AdmReq) (i : Nat) (w : W32) : AdmReq :=
  let v := w.toNat
  match i with
  | 0 => { r with kind := v % 256, cls := fld v 8 8, bayCount := fld v 16 8, queue := w.getLsbD 24, exact := w.getLsbD 25 }
  | 1 => { r with bayMask := v % 4096, partition := fld v 16 4 }
  | 2 => { r with tag := BitVec.ofNat 64 (half r.tag true * 2 ^ 32 + v) }
  | 3 => { r with tag := BitVec.ofNat 64 (v * 2 ^ 32 + half r.tag false) }
  | 4 => { r with lease := w }
  | 5 => { r with reshapeId := w }
  | 6 => { r with target := v % 256, deadline := fld v 16 10 }
  | 7 => { r with duration := v }
  | 8 => { r with waitLimit := v }
  | _ => r

/-- A 32-bit write to the ADM_ registers (R429). -/
def State.admWrite (s : State) (off : Nat) (w : W32) : State :=
  if off = 0 then { s with adm := { s.adm with ctrl := BitVec.ofNat 4 (w.toNat % 16) } }
  else if 0x40 ≤ off ∧ off < 0x80 then { s with adm := { s.adm with req := s.adm.req.write ((off - 0x40) / 4) w } }
  else if off = 0x80 then s.submit
  else if off = 0x88 then outState (execAdmCancel (w.toNat % 64) s) s
  else if 0x400 ≤ off ∧ off < 0xC00 ∧ off % 32 = 4 ∧ w.getLsbD 29 then outState (execAdmRelease ((off - 0x400) / 32) s) s
  else if 0xC00 ≤ off ∧ off < 0xC30 then
    { s with adm := { s.adm with share := mset 0x80008422 s.adm.share ((off - 0xC00) / 4) (w &&& 0xF000FFFF) } }
  else s

/-- A 64-bit write to the PART_ registers of partition `p` (R409, R410, R431). DISSOLVE has a row of its own. -/
def State.partWrite64 (s : State) (p off : Nat) (v : W64) : State :=
  if off = 0x10 then
    let f (i : Nat) : Nat := max 1 (fld v.toNat (16 * i) 16) * 2 ^ (16 * i)
    s.modPart p fun x => { x with timeouts := BitVec.ofNat 64 (f 0 + f 1 + f 2 + f 3) }
  else if off = 0x20 then
    let role := fld v.toNat 30 2
    let s := s.modPart p fun x =>
      if x.gang.formed then x
      else { x with gang := { x.gang with unitId := BitVec.ofNat 32 (v.toNat / 2 ^ 32), role := if role = 3 then 0 else role } }
    if v.getLsbD 29 then outState (execGangForm p s) s else s
  else if 0x100 ≤ off ∧ off < 0x200 then
    s.modPart p fun x =>
      let n := (off - 0x100) / 16
      let w := mget HostWindow.zero x.hostWin n
      let w := if off % 16 = 0 then { w with base := v &&& 0xFFFFFFFFFFFFF000 }
        else { w with read := v.getLsbD 63, write := v.getLsbD 62, length := fld v.toNat 12 36 * 4096 }
      { x with hostWin := mset HostWindow.zero x.hostWin n w }
  else s

/-- A 32-bit write to the ELA_ registers; ignored while RESETTING (R391, R392, R395, R397, R398). -/
def State.elaWrite (s : State) (p off : Nat) (w : W32) : State :=
  if (s.part p).resetting.isSome then s
  else
    s.modPart p fun x =>
      let e := x.ela
      match off with
      | 0x00 => { x with ela := { e with ctrl := w &&& 0xFC000000 } }
      | 0x38 =>
        let h := w.toNat % 256
        { x with ela := { e with
          backup := BitVec.ofNat 32 (max 17 (fld w.toNat 8 8) * 256 + (if h = 0 ∨ 32 < h then 8 else h)) } }
      | 0x40 => { x with ela := { e with events := e.events &&& ~~~(BitVec.ofNat 8 w.toNat) } }
      | _ => x

/-- A 32-bit write to the emulated window by function `fn`, at an offset from 0x020_0000. -/
def State.emuWrite32 (s : State) (fn off : Nat) (w : W32) : State :=
  if off / 0x1000 = 1 then if fn = 0 then s.admWrite (off % 0x1000) w else s
  else match s.viewOf fn with
    | none => s
    | some p => match off / 0x1000 with
      | 0 =>
        if off = 0x0C then if w.getLsbD 31 then s.beginReset p 0 else s
        else if off = 0x18 then s.modPart p fun x => { x with bar2Base := w.toNat % 2 ^ 19 }
        else s
      | 2 =>
        if off % 0x1000 = 0 then outState (execHeartbeatBeat p w s) s
        else if off % 0x1000 = 8 then
          s.modPart p fun x => { x with hove := { x.hove with leaseS := min 3600 (max 10 (w.toNat % 65536)) } }
        else s
      | 4 => s.elaWrite p (off % 0x1000) w
      | _ => s

/-- A 64-bit write to the emulated window: of the ADM_ block's 64-bit registers, TAG takes one, and TIME is read-only (R430). -/
def State.emuWrite64 (s : State) (fn off : Nat) (v : W64) : State :=
  if off / 0x1000 = 1 then
    if fn = 0 ∧ off % 0x1000 = 0x48 then { s with adm := { s.adm with req := { s.adm.req with tag := v } } } else s
  else match s.viewOf fn with
  | none => s
  | some p =>
    if off / 0x1000 = 0 then s.partWrite64 p off v
    else if off = 0x4028 ∧ v.getLsbD 31 ∧ (s.part p).resetting.isNone then
      s.modPart p fun x => { x with ela := { x.ela with lost := 0 } }
    else s

/-- The key of a 64-bit register in the half latches (R16). -/
def latchKey (fn off : Nat) : Nat := fn * 2 ^ 32 + off / 8 * 8

/-- A write of 4 or 8 bytes to registers that are 64 bits wide where `wide` says so: a 32-bit write of a low half waits for the high half
(R16). `key` names the register; `cur` is what the low half holds when no write of it waits. -/
def State.writeHalves (s : State) (key off : Nat) (bs : List Byte) (wide : Bool) (cur : Nat) (w32 : State → Nat → W32 → State)
    (w64 : State → Nat → W64 → State) : State :=
  let v := leNat bs
  if bs.length = 8 then
    if wide then w64 s off (BitVec.ofNat 64 v)
    else w32 (w32 s off (BitVec.ofNat 32 v)) (off + 4) (BitVec.ofNat 32 (v / 2 ^ 32))
  else if bs.length ≠ 4 then s
  else if !wide then w32 s off (BitVec.ofNat 32 v)
  else if off % 8 = 0 then { s with latchWrite := mset none s.latchWrite key (some (BitVec.ofNat 32 v)) }
  else
    let low := match mget none s.latchWrite key with | some l => l.toNat | none => cur
    let s := { s with latchWrite := mset none s.latchWrite key none }
    w64 s (off - 4) (BitVec.ofNat 64 (v * 2 ^ 32 + low))

/-- A posted write to the emulated window is applied (R16, R483). `off` is its BAR0 offset. -/
def State.applyEmulated (s : State) (h : HostWrite) : State :=
  let o := h.offset - 0x200000
  s.writeHalves (latchKey h.function h.offset) h.offset h.bytes (emuWide o) (s.emuWord h.function (o / 8 * 8)).toNat
    (fun s a w => s.emuWrite32 h.function (a - 0x200000) w) (fun s a v => s.emuWrite64 h.function (a - 0x200000) v)

/-- A read of 4 or 8 bytes of the emulated window (R16): reading a low half latches the high one. -/
def State.readEmulated (s : State) (fn off n : Nat) : State × List Byte :=
  let o := off - 0x200000
  let key := latchKey fn off
  if n = 8 then (s, leBytes 4 (s.emuWord fn o).toNat ++ leBytes 4 (s.emuWord fn (o + 4)).toNat)
  else if emuWide o ∧ o % 8 = 0 then
    ({ s with latchRead := mset none s.latchRead key (some (s.emuWord fn (o + 4))) }, leBytes 4 (s.emuWord fn o).toNat)
  else if emuWide o then
    let v := match mget none s.latchRead key with | some w => w | none => s.emuWord fn o
    ({ s with latchRead := mset none s.latchRead key none }, leBytes 4 v.toNat)
  else (s, leBytes 4 (s.emuWord fn o).toNat)

end Sys2Proof.Machine
end

