-- ==== Sys2Proof/Machine/Masthead.lean ====
section
/-! DEFINITION. The Masthead: component and core restarts, the shim, the fallback governor's engagement, firmware slots, update and
activation, and SPDM (R477 to R502). -/

namespace Sys2Proof.Machine

/-! ### Slots and images (R492 to R494, R497) -/

/-- Firmware slot 0 (A) or 1 (B). -/
def Mast.slot (m : Mast) (b : Bool) : FwSlot := mget FwSlot.empty m.slotsAB (if b then 1 else 0)

/-- Change the Masthead by `f`. -/
def State.modMast (s : State) (f : Mast → Mast) : State := { s with mast := f s.mast }

/-- Write a firmware slot. -/
def State.setSlot (s : State) (b : Bool) (v : FwSlot) : State :=
  s.modMast fun m => { m with slotsAB := mset FwSlot.empty m.slotsAB (if b then 1 else 0) v }

/-- Bytes of a slot's image. -/
def FwSlot.bytes (v : FwSlot) (off n : Nat) : List Byte := mgetList 0 v.img off n

/-- A field of a slot's header (R493). -/
def FwSlot.field (v : FwSlot) (off n : Nat) : Nat := leNat (v.bytes off n)

/-- VERSION, SVN and DIGEST of a slot's image (R493). -/
def FwSlot.version (v : FwSlot) : W32 := if v.factory then Config.fwVersion else BitVec.ofNat 32 (v.field 8 4)
/-- SVN. -/
def FwSlot.svn (v : FwSlot) : Nat := if v.factory then Config.fwSvn else v.field 0x0C 4
/-- DIGEST. -/
def FwSlot.digest (v : FwSlot) : List Byte := if v.factory then Config.fwDigest else v.bytes 0x40 48

/-- Does the boot ROM accept the image of a slot (R494)? -/
def Mast.accepts (m : Mast) (v : FwSlot) : Bool :=
  let size := v.field 0x30 4
  let inside (o : Nat) : Bool := decide (v.field o 4 + v.field (o + 4) 4 ≤ size)
  decide (m.svnFloor ≤ v.svn) && (v.factory
    || (!v.invalid && decide (v.field 0 4 = 0x4D485346) && decide (v.field 4 4 = 1) && decide (512 ≤ size) && decide (size ≤ 24 * 2 ^ 20)
        && inside 0x18 && inside 0x20 && inside 0x28 && decide (v.svn < 64)
        && decide (Config.sha384 (v.bytes 0 0x40 ++ v.bytes 0x200 (size - 0x200)) = v.bytes 0x40 48)
        && (List.range 4).any fun k => !(m.revoked.getLsbD k) && Config.fwVerify k (v.bytes 0x40 48) (v.bytes 0x70 96)))

/-- A PLDM event becomes pending (R498, R499). -/
def State.pldmPush (s : State) (sensor state : Nat) : State :=
  (s.modMast fun m => { m with events := m.events ++ [(sensor, state)] }).send (.pldmEvent sensor state)

/-- The firmware state of sensor 34: 1 normal, 2 fallback, 3 Tack restarting, 4 update pending, 5 recovery (R499). -/
def State.fwState (s : State) : Nat :=
  if s.mast.recovery then 5 else if !s.tackUp then 3 else if s.mast.fallback then 2 else if s.mast.actPending then 4 else 1

/-- Sensor 34 reports every change of the firmware state (R499). -/
def State.fwEvent (s before : State) : State := if s.fwState = before.fwState then s else s.pldmPush 34 s.fwState

/-- Enter recovery mode (R497 rules 2 and 3). -/
def State.enterRecovery (s : State) : State :=
  { (s.modMast fun m => { m with recovery := true, fallback := true, fallbackSince := s.time, trimUp := false }) with tackUp := false }

/-- Start from slot `b`: a start without a success mark counts; a refused slot is rolled back to the other one, if that has a success mark
and is accepted, and else the Masthead enters recovery mode (R494, R497). -/
def State.startFrom (s : State) (b : Bool) : State :=
  let v := s.mast.slot b
  let ok := s.mast.accepts v && (v.mark || decide (v.boots < 3))
  if ok then
    (s.setSlot b { v with boots := if v.mark then v.boots else v.boots + 1 }).modMast fun m => { m with slotB := b, recovery := false }
  else
    let w := s.mast.slot (!b)
    let back := w.mark && s.mast.accepts w
    let s := s.bookEntry 0x25 0xF 0 0 (leBytes 1 (bitAt b 0) ++ leBytes 1 v.boots ++ leBytes 2 0 ++ leBytes 4 v.version.toNat
      ++ leBytes 1 (if back then 0 else 1))
    if back then s.modMast fun m => { m with slotB := !b, recovery := false } else s.enterRecovery

/-! ### The memory-protection units (R480) -/

/-- The regions of a core. -/
def Mast.mpu (m : Mast) (core : Nat) : List MpuRegion := if core = 0 then m.mpuTrim else m.mpuTack

/-- A core's kernel switches to a component: it reloads regions 4–15, and regions 0–3 stay (R480). -/
def Mast.switchTo (m : Mast) (core comp : Nat) : Mast :=
  if core = 0 then { m with mpuTrim := m.mpuTrim.take 4 ++ mpuLoaded 0 comp }
  else { m with mpuTack := m.mpuTack.take 4 ++ mpuLoaded 1 comp }

/-! ### Restarts (R481, R482, R485 to R488) -/

/-- HOST_SHIM_STATUS, the busy value (R484, R485). -/
def State.shimStatus (s : State) : W32 :=
  let m := s.mast
  BitVec.ofNat 32 (0xC7 * 2 ^ 24 + bitAt (!s.tackUp) 23 + bitAt m.fallback 22 + bitAt m.recovery 21 + bitAt m.actPending 20
    + bitAt m.drop 19 + bitAt m.slotB 18 + min 255 m.tackRestarts * 256 + min 255 m.trimRestarts)

/-- A core restarts: the Tack core stops serving, or the Trim core stops its loops; its kernel is rerun (R482). -/
def State.coreRestart (s : State) (core cause : Nat) : State :=
  let t := s.time
  let s := s.modMast fun m => m.switchTo core 0
  if core = 1 then
    { (s.modMast fun m => { m with
        tackRestarts := min 255 (m.tackRestarts + 1), tackSince := if s.tackUp then t else m.tackSince, tackCause := cause
        comps := m.comps.filter fun e => decide (e.1 ≠ 1), lateDone := if s.tackUp then 0 else m.lateDone, bootAt := t }) with
      tackUp := false }
  else
    s.modMast fun m => { m with
      trimRestarts := min 255 (m.trimRestarts + 1), trimUp := false, trimSince := if m.trimUp then t else m.trimSince, trimCause := cause
      powerLoops := 0, thermLoops := 0, bootAt := t }

/-- A component of core 0 (Trim) or 1 (Tack) faults: it is restarted; the third fault of one component within 60 s, or a fault of the
kernel, restarts the core (R481). SHIM and DISPATCH stop serving until Tack returns (R486). The kernel, which takes the fault, switches to the
restarted component (R480). -/
def State.compFault (s : State) (core comp cause pc addr : Nat) : State :=
  let recent := s.mast.faults.filter fun e => decide (s.time.toNat ≤ e.2.2.toNat + 60 * 100000000)
  let n := (recent.filter fun e => decide (e.1 = core) && decide (e.2.1 = comp)).length + 1
  let s := s.modMast fun m => { m with faults := recent ++ [(core, comp, s.time)] }.switchTo core comp
  if comp = 0 then s.coreRestart core 0
  else if 3 ≤ n then s.coreRestart core 1
  else
    let s := s.bookEntry 0x20 0xF 0 0 (leBytes 1 core ++ leBytes 1 comp ++ leBytes 1 cause ++ leBytes 1 0 ++ leBytes 4 pc ++ leBytes 4 addr
      ++ leBytes 1 n)
    if core = 1 ∧ (comp = 1 ∨ comp = 2) then
      { (s.modMast fun m => { m with
          comps := m.comps ++ [(1, comp)], tackSince := if s.tackUp then s.time else m.tackSince
          lateDone := if s.tackUp then 0 else m.lateDone }) with tackUp := false }
    else s

/-- Does the number name a component: Trim has 6, Tack 7 (R478)? -/
def isComp (core comp : Nat) : Bool := decide (core < 2) && decide (comp < 6 + core)

/-- COMPONENT_FAULT: an MPU violation (0) or a failed assertion (1) of a component (R481, R501). -/
def execComponentFault (core comp cause pc addr : Nat) (s : State) : Out :=
  if isComp core comp && decide (cause < 2) && !s.mast.recovery then .next ((s.compFault core comp cause pc addr).fwEvent s) else .next s

/-- COMPONENT_WATCHDOG_EXPIRY: a component misses its kernel watchdog's deadline (R481). -/
def execComponentWatchdogExpiry (core comp : Nat) (s : State) : Out :=
  if isComp core comp && decide (comp ≠ 0) && !s.mast.recovery then .next ((s.compFault core comp 2 0 0).fwEvent s) else .next s

/-- HARDWARE_WATCHDOG: the kernel of a core has not kicked for 10 ms (R482). -/
def execHardwareWatchdog (core : Nat) (s : State) : Out :=
  if core < 2 ∧ !s.mast.recovery then .next ((s.coreRestart core 2).fwEvent s) else .next s

/-- CORE_RESTART: a core resets and reruns its kernel (R482); `cause` as R501 codes it. -/
def execCoreRestart (core cause : Nat) (s : State) : Out :=
  if core < 2 ∧ cause < 4 ∧ !s.mast.recovery then .next ((s.coreRestart core cause).fwEvent s) else .next s

/-- A core is back: the CORE_RESTART entry of its outage (R501). -/
def State.bookRestart (s : State) (core cause : Nat) (since : W64) : State :=
  s.bookEntry 0x21 0xF 0 0 (leBytes 1 core ++ leBytes 1 0 ++ leBytes 1 cause ++ leBytes 1 0
    ++ leBytes 4 ((s.time - since).toNat / 100) ++ leBytes 4 (if core = 1 then s.mast.lateDone else 0))

/-- The Trim core runs its loops again (R482). -/
def State.trimBack (s : State) : State :=
  if s.mast.trimUp then s
  else (s.bookRestart 0 s.mast.trimCause s.mast.trimSince).modMast fun m => { m with trimUp := true }

/-- The held doorbells are taken in order (R486, R488 step 5). -/
def State.takeBells (s : State) (p : Nat) : State :=
  s.modPart p fun x =>
    { (x.bellLog.foldl (fun (y : Part) e => y.setSq e.1 ((y.sq e.1).bell e.2)) x) with bellLog := [] }

/-- TACK_RESTORE: Tack serves again: its outage does not count towards missed beats, held doorbells and held writes are taken in order,
and vector 16 is raised (R483, R485, R486, R488). -/
def execTackRestore (s : State) : Out :=
  if s.tackUp ∨ s.mast.recovery ∨ !s.pkg.ready then .next s
  else
    let gone := s.time - s.mast.tackSince
    let core := s.mast.comps.isEmpty
    let b := s
    let s := if core then s.bookRestart 1 s.mast.tackCause s.mast.tackSince else s
    let s := if s.mast.fifoDropped = 0 then s
      else s.bookEntry 0x26 0xF 0 0 (leBytes 1 0 ++ leBytes 3 0 ++ leBytes 4 s.mast.fifoDropped)
    let s := { s with tackUp := true }
    let s := s.existing.foldl (fun (s : State) p =>
      ((s.takeBells p).modPart p fun x => { x with hove := { x.hove with lastBeat := x.hove.lastBeat + gone } }).send
        (.msix ((s.part p).function p) 16)) s
    let s := if s.existing.any fun p => (s.part p).isDevice then s else s.send (.msix 0 16)
    let held := s.mast.fifo
    let s := s.modMast fun m => { m with fifo := [], comps := [], fifoDropped := 0, lateDone := 0 }
    .next ((held.foldl State.applyEmulated s).fwEvent b)

/-! ### The shim (R483 to R485) -/

/-- Is an offset of BAR0 in the emulated window? -/
def inEmulated (off : Nat) : Bool := decide (0x200000 ≤ off) && decide (off < 0x300000)

/-- SHIM_READ: a host read of `n` bytes of an emulated register, answered by SHIM (R483). -/
def execShimRead (fn off n : Nat) (s : State) : Out :=
  if inEmulated off && (decide (n = 4) || decide (n = 8)) && decide (off % n = 0) && s.tackUp then
    let (s, b) := s.readEmulated fn off n
    .next (s.send (.barData fn b false))
  else .next s

/-- SHIM_READ_TIMEOUT: SHIM has not answered within 40 µs: the busy value, in both halves of a 64-bit read (R485). -/
def execShimReadTimeout (fn off n : Nat) (s : State) : Out :=
  if inEmulated off && (decide (n = 4) || decide (n = 8)) && !s.tackUp then
    let w := leBytes 4 s.shimStatus.toNat
    .next (s.send (.barData fn (if n = 8 then w ++ w else w) false))
  else .next s

/-- SHIM_WRITE: a host write of an emulated register enters the FIFO and is applied in order; at a full FIFO it is dropped (R483). -/
def execShimWrite (fn off : Nat) (bytes : List Byte) (s : State) : Out :=
  if !(inEmulated off) then .next s
  else if s.tackUp then .next (s.applyEmulated ⟨fn, off, bytes⟩)
  else if s.mast.fifo.length < 256 then .next (s.modMast fun m => { m with fifo := m.fifo ++ [⟨fn, off, bytes⟩] })
  else .next (s.modMast fun m => { m with drop := true, fifoDropped := m.fifoDropped + 1 })

/-! ### The fallback governor (R490) -/

/-- The governor takes the clusters to the safe point (R490 rule 1). -/
def State.engage (s : State) : State :=
  if s.mast.fallback then s
  else
    let s := s.modMast fun m => { m with fallback := true, fallbackSince := s.time, powerLoops := 0, thermLoops := 0 }
    let s := { s with clk := { s.clk with clusters := mmap Cluster.reset (fun _ c => { c with stops := c.stops &&& 0x3C }) s.clk.clusters } }
    s.bookEntry 0x22 0xF 0 0 (leBytes 1 0)

/-- FALLBACK_ENGAGE: Trim's kernel has not kicked for 3 ms, or the Trim core has faulted (R490). -/
def execFallbackEngage (s : State) : Out := .next (s.engage.fwEvent s)

/-- FALLBACK_RELEASE: POWER and THERMAL have each run two loops in a row: the governor releases the clusters (R490). -/
def execFallbackRelease (s : State) : Out :=
  let m := s.mast
  if m.fallback && m.trimUp && !m.recovery && decide (2 ≤ m.powerLoops) && decide (2 ≤ m.thermLoops) then
    let t := s
    let s := s.bookEntry 0x22 0xF 0 0 (leBytes 1 1 ++ leBytes 3 0 ++ leBytes 4 ((s.time - m.fallbackSince).toNat / 100))
    let s := s.modMast fun m => { m with fallback := false }
    let s := { s with clk := { s.clk with clusters := mmap Cluster.reset (fun _ c => { c with stops := c.stops &&& 0x0F }) s.clk.clusters } }
    .next (s.fwEvent t)
  else .next s

/-! ### Boot and activation (R496, R497) -/

/-- BOOT_SUCCESS: both cores have run for 60 s since they started: the running slot earns its success mark; RAISE_FLOOR raises the SVN
floor (R494, R497). -/
def execBootSuccess (s : State) : Out :=
  let m := s.mast
  let v := m.slot m.slotB
  if s.tackUp && m.trimUp && !m.recovery && !v.mark && decide (m.bootAt.toNat + 60 * 100000000 ≤ s.time.toNat) then
    let raise' := !v.factory && decide (v.field 0x34 4 % 2 = 1)
    .next ((s.setSlot m.slotB { v with mark := true, boots := 0 }).modMast fun m => { m with
      svnFloor := if raise' then max m.svnFloor v.svn else m.svnFloor })
  else .next s

/-- May a pending image be activated now (R496)? -/
def State.idleForActivation (s : State) : Bool :=
  s.dumps.isEmpty && s.existing.all fun p => [0, 1, 4, 7].contains (s.part p).stateCode

/-- Activate the pending slot: the active slot switches, its boot counter is cleared, and both cores restart into it (R496). -/
def State.activate (s : State) : State :=
  let m := s.mast
  let b := !m.slotB
  let new := m.slot b
  let s := s.bookEntry 0x24 0xF 0 0 (leBytes 1 (bitAt m.slotB 0) ++ leBytes 1 (bitAt b 0) ++ leBytes 2 0
    ++ leBytes 4 (m.slot m.slotB).version.toNat ++ leBytes 4 new.version.toNat)
  let s := (s.setSlot b { new with boots := 0 }).modMast fun m => { m with actPending := false, recovery := false }
  (((s.coreRestart 1 3).coreRestart 0 3).engage).startFrom b

/-- FIRMWARE_ACTIVATION: a pending image is activated at an idle moment (R496). -/
def execFirmwareActivation (s : State) : Out :=
  if s.mast.actPending && (s.idleForActivation || s.mast.recovery) then .next (s.activate.fwEvent s) else .next s

/-! ### PLDM Type 5 (R495, R496). Message and completion codes are those of DSP0267 (PRESUMED, log 101). -/

/-- An answer: the completion code, then what the standard lays out. -/
def State.pldm5 (s : State) (code cc : Nat) (args : List Nat) : State :=
  s.send (.mctp code (leBytes 1 cc ++ Config.standardReply code args))

/-- An FW_UPDATE entry (R501): 0 started, 1 verified, 2 failed, 3 cancelled. -/
def State.bookUpdate (s : State) (phase : Nat) : State :=
  let b := !s.mast.slotB
  let v := s.mast.slot b
  s.bookEntry 0x23 0xF 0 0 (leBytes 1 phase ++ leBytes 1 (bitAt b 0) ++ leBytes 2 0 ++ leBytes 4 v.version.toNat ++ leBytes 4 v.svn)

/-- Change the update in progress. -/
def State.setUpdate (s : State) (u : FwUpdate) : State := s.modMast fun m => { m with update := u }

/-- An update that breaks off leaves the inactive slot invalid once it has been written to (R495). -/
def State.breakUpdate (s : State) : State :=
  let u := s.mast.update
  let s := if 3 ≤ u.phase ∧ u.phase < 6 then
      let b := !s.mast.slotB
      s.setSlot b { s.mast.slot b with invalid := true }
    else s
  s.setUpdate ⟨0, 0, 0⟩

/-- QUERY_DEVICE_IDENTIFIERS: PCI vendor and device ID and Avhild's IANA identifier. -/
def execQueryDeviceIdentifiers (s : State) : Out := .next (s.pldm5 0x01 0 [0x1F3C, 0x0909])

/-- GET_FIRMWARE_PARAMETERS: one component, MASTHEAD, with the active and the pending VERSION. -/
def execGetFirmwareParameters (s : State) : Out :=
  let m := s.mast
  .next (s.pldm5 0x02 0 [0x000A, 0x0001, (m.slot m.slotB).version.toNat, if m.actPending then (m.slot (!m.slotB)).version.toNat else 0])

/-- REQUEST_UPDATE: one update at a time; ALREADY_IN_UPDATE_MODE otherwise. -/
def execRequestUpdate (s : State) : Out :=
  if s.mast.update.phase = 0 then .next ((s.setUpdate ⟨1, 0, 0⟩).pldm5 0x10 0 []) else .next (s.pldm5 0x10 0x81 [])

/-- PASS_COMPONENT_TABLE. -/
def execPassComponentTable (s : State) : Out :=
  if s.mast.update.phase = 1 then .next ((s.setUpdate ⟨2, 0, 0⟩).pldm5 0x13 0 []) else .next (s.pldm5 0x13 0x80 [])

/-- UPDATE_COMPONENT: the MASTHEAD image of `size` bytes is to be written to the inactive slot, which is invalid meanwhile; a pending
activation of it is cancelled (R495, R496). -/
def execUpdateComponent (size : Nat) (s : State) : Out :=
  if s.mast.update.phase = 2 ∧ size ≤ 24 * 2 ^ 20 then
    let b := !s.mast.slotB
    let t := s
    let s := (s.setSlot b { FwSlot.empty with invalid := true }).modMast fun m => { m with actPending := false, update := ⟨3, size, 0⟩ }
    .next (((s.bookUpdate 0).pldm5 0x14 0 [size]).fwEvent t)
  else .next (s.pldm5 0x14 0x80 [])

/-- REQUEST_FIRMWARE_DATA: the next bytes of the image, at most 4,096, are written to the inactive slot. -/
def execRequestFirmwareData (off : Nat) (data : List Byte) (s : State) : Out :=
  let u := s.mast.update
  if u.phase = 3 ∧ off = u.got ∧ data.length ≤ 4096 ∧ off + data.length ≤ u.size then
    let b := !s.mast.slotB
    let v := s.mast.slot b
    .next ((s.setSlot b { v with img := msetList 0 v.img off data }).setUpdate { u with got := off + data.length })
  else .next s

/-- TRANSFER_COMPLETE: every byte has been written. -/
def execTransferComplete (s : State) : Out :=
  let u := s.mast.update
  if u.phase = 3 ∧ u.got = u.size then .next ((s.setUpdate { u with phase := 4 }).pldm5 0x16 0 []) else .next (s.pldm5 0x16 0x80 [])

/-- VERIFY_COMPLETE: success only when every check of R494 passes on the written slot (R495). -/
def execVerifyComplete (s : State) : Out :=
  let u := s.mast.update
  let b := !s.mast.slotB
  let v := { s.mast.slot b with invalid := false }
  if u.phase ≠ 4 then .next (s.pldm5 0x17 0x80 [])
  else if s.mast.accepts v then .next ((((s.setSlot b v).setUpdate { u with phase := 5 }).bookUpdate 1).pldm5 0x17 0 [])
  else .next (((s.setUpdate ⟨2, 0, 0⟩).bookUpdate 2).pldm5 0x17 1 [])

/-- APPLY_COMPLETE. -/
def execApplyComplete (s : State) : Out :=
  let u := s.mast.update
  if u.phase = 5 then .next ((s.setUpdate { u with phase := 6 }).pldm5 0x18 0 []) else .next (s.pldm5 0x18 0x80 [])

/-- ACTIVATE_FIRMWARE: the written slot becomes pending (R496). -/
def execActivateFirmware (s : State) : Out :=
  if s.mast.update.phase = 6 then
    .next ((((s.setUpdate ⟨0, 0, 0⟩).modMast fun m => { m with actPending := true }).pldm5 0x1A 0 []).fwEvent s)
  else .next (s.pldm5 0x1A 0x80 [])

/-- GET_STATUS. -/
def execGetStatus (s : State) : Out := .next (s.pldm5 0x1B 0 [s.mast.update.phase, s.mast.update.got])

/-- CANCEL_UPDATE_COMPONENT: the component update ends; the written slot is invalid. -/
def execCancelUpdateComponent (s : State) : Out :=
  if 3 ≤ s.mast.update.phase then
    .next (((s.bookUpdate 3).breakUpdate.setUpdate ⟨2, 0, 0⟩).pldm5 0x1C 0 [])
  else .next (s.pldm5 0x1C 0x80 [])

/-- CANCEL_UPDATE: the update ends, and a pending activation is cancelled (R496). -/
def execCancelUpdate (s : State) : Out :=
  if s.mast.update.phase = 0 ∧ !s.mast.actPending then .next (s.pldm5 0x1D 0x80 [])
  else
    let t := s
    let s := ((s.bookUpdate 3).breakUpdate).modMast fun m => { m with actPending := false }
    .next ((s.pldm5 0x1D 0 []).fwEvent t)

/-! ### SPDM (R500). Request codes and the order of requests are those of SPDM 1.3 (PRESUMED, log 101). -/

/-- An SPDM answer. -/
def State.spdm (s : State) (code : Nat) (b : List Byte) : State := s.send (.mctp code b)

/-- An SPDM ERROR answer to a request that is out of order or out of range. -/
def State.spdmError (s : State) (code : Nat) : State := s.send (.mctp 0x7F (leBytes 1 code))

/-- GET_VERSION: SPDM 1.3; negotiation starts over. -/
def execGetVersion (s : State) : Out :=
  .next ((s.modMast fun m => { m with spdmVersion := true, spdmAlgo := false }).spdm 0x04 (leBytes 2 0x1300))

/-- GET_CAPABILITIES. -/
def execGetCapabilities (s : State) : Out :=
  if s.mast.spdmVersion then .next (s.spdm 0x61 (Config.standardReply 0x61 [])) else .next (s.spdmError 4)

/-- NEGOTIATE_ALGORITHMS: ECDSA P-384 with SHA-384. -/
def execNegotiateAlgorithms (s : State) : Out :=
  if s.mast.spdmVersion then .next ((s.modMast fun m => { m with spdmAlgo := true }).spdm 0x63 (Config.standardReply 0x63 []))
  else .next (s.spdmError 4)

/-- GET_DIGESTS: the digest of the certificate chain in slot 0. -/
def execGetDigests (s : State) : Out :=
  if s.mast.spdmAlgo then .next (s.spdm 0x01 (Config.sha384 Config.spdmCert)) else .next (s.spdmError 4)

/-- GET_CERTIFICATE: bytes of the certificate chain; only slot 0 holds one. -/
def execGetCertificate (slot off n : Nat) (s : State) : Out :=
  if s.mast.spdmAlgo && decide (slot = 0) then .next (s.spdm 0x02 ((Config.spdmCert.drop off).take n)) else .next (s.spdmError 4)

/-- CHALLENGE: a signature by the device key over the nonce and what the standard adds. -/
def execChallenge (slot : Nat) (nonce : List Byte) (s : State) : Out :=
  if s.mast.spdmAlgo && decide (slot = 0) then
    .next (s.spdm 0x03 (Config.signMast (Config.standardReply 0x03 (nonce.map (·.toNat)) ++ Config.sha384 Config.spdmCert)))
  else .next (s.spdmError 4)

/-- Measurement block `i` (R500). -/
def State.measurement (s : State) (i : Nat) : List Byte :=
  match i with
  | 1 => Config.romDigest
  | 2 => (s.mast.slot s.mast.slotB).digest
  | 3 => leBytes 4 s.mast.svnFloor ++ leBytes 1 s.mast.revoked.toNat
  | 4 => leBytes 4 Config.cadVersion.toNat ++ leBytes 4 Config.cadRomCrc.toNat ++ leBytes 4 s.cad.events.toNat
  | _ => []

/-- GET_MEASUREMENTS: block `i`, or all of them for 0xFF, signed by the device key when asked. -/
def execGetMeasurements (i : Nat) (sign : Bool) (nonce : List Byte) (s : State) : Out :=
  if s.mast.spdmAlgo && (decide (i = 0xFF) || (decide (0 < i) && decide (i < 5))) then
    let b := if i = 0xFF then ((List.range 4).map fun j => s.measurement (j + 1)).flatten else s.measurement i
    .next (s.spdm 0x60 (if sign then b ++ Config.signMast (Config.standardReply 0x60 (nonce.map (·.toNat)) ++ b) else b))
  else .next (s.spdmError 4)

end Sys2Proof.Machine
end

