-- ==== Sys2Proof/Machine/Power.lean ====
section
/-! DEFINITION. The device reset: what it ends, what it clears, and what survives it (R18, R406, R492 to R497, R586). -/

namespace Sys2Proof.Machine

/-- A link after a device reset: its sticky events and its coefficient cache survive (R18, R283, R324). -/
def Link.onReset (l : Link) : Link := { Link.reset with sticky := l.sticky, cache := l.cache }

/-- A cluster after a device reset: its margin table and what levelling knows survive (R531, R534). -/
def Cluster.onReset (c : Cluster) : Cluster := { Cluster.reset with temp := c.temp, table := c.table, driftLevel := c.driftLevel }

/-- The clock, power and thermal registers after a device reset; sticky fields, UTC, benchmarks and the lifetime store survive (R18, R537,
R540 to R544). -/
def Clk.onReset (c : Clk) : Clk :=
  { c with
    ssc := 0, sscAcc := 0, mon := 4, measPll := 0, measLog2 := 14, measDone := false, measCount := 0, measRun := none
    unlocked := [], attempts := [], devCap := 0x898, partCap := [], devCapped := false, partCapped := 0, power := []
    domains := [], freeSince := [], clusters := mmap Cluster.reset (fun _ x => x.onReset) c.clusters, vinStop := none, baysLost := [], lastTrigger := 0 }

/-- The check registers after a device reset; the retirement lists are loaded from the lifetime store (R474, R476). -/
def DevCheck.onReset (c : DevCheck) : DevCheck :=
  { DevCheck.reset with
    resValid := c.resValid, resPoint := c.resPoint, resPhys := c.resPhys, pending := c.pending, backlog := c.backlog
    retired := c.retired, spareFor := c.spareFor, history := c.history, scheduled := c.scheduled, lastRound := c.lastRound }

/-- The TST_ registers and the power-up state after a device reset (R597): the main phase has not begun. -/
def Pkg.onReset (k : Pkg) : Pkg :=
  { k with
    mainStart := none, ready := false, untrained := [], fusesBad := false, jtagRefused := false, refused := false, unlock := false
    pcieLb := Pkg.reset.pcieLb, hbmLb := Pkg.reset.hbmLb, hostLoop := false }

/-- A device reset: every partition is destroyed, every admission request ends, memories and registers are cleared but for what is
sticky, and Tack serves again when the device is ready (R406, R484, R583, R586). -/
def State.deviceReset (s : State) : State :=
  let s := { s with
    tiles := [], hbm := [], hbmErr := [], hbmPoison := [], hbmScrub := [], engines := []
    parts := mmap Part.reset (fun _ x => x.remains) s.parts
    sigs := [], stageMsgs := [], links := mmap Link.reset (fun _ l => l.onReset) s.links, capstans := [], coord := 0
    adm := .reset, dumps := [], check := s.check.onReset, spareAs := none, relayed := [], stripe := 0
    clk := s.clk.onReset, pkg := s.pkg.onReset, vcWeight := 0x00212488, lossMs := 20, lnkSsc := [], sscForce := [], latchRead := [], latchWrite := []
    pfWindow := 0, pci := [], tackUp := false }
  (s.modMast fun m => { m with
    tackSince := s.time, comps := m.comps.filter fun e => decide (e.1 ≠ 1), lateDone := 0, fifo := [], mailbox := []
    fifoDropped := 0, boxDropped := 0, drop := false }).retireFree

/-- PERST# at the Masthead: an update in progress breaks off, a pending image is activated, and the counts since PERST# restart (R484,
R495, R496). -/
def State.perstMast (s : State) : State :=
  let s := s.breakUpdate
  let s := if s.mast.actPending then s.activate else s
  s.modMast fun m => { m with tackRestarts := 0, trimRestarts := 0, drop := false }

/-- May the main phase run: rails and REFCLK present, PERST# deasserted, no trip latched, no sequence fault, and the Masthead ready
(R525, R580 to R583)? -/
def State.mainMayRun (s : State) : Bool :=
  s.pkg.auxUp && s.pkg.pwrGood && s.clk.refclk && !s.pkg.perst && !s.clk.tripped && !s.pkg.seqHold && s.pkg.mastReady && !s.mast.recovery

/-- The main phase begins, if nothing holds it: every PLL is to be locked (R509, R583 step 1). -/
def State.startMain (s : State) : State :=
  if s.mainMayRun ∧ s.pkg.mainStart.isNone then
    { s with
      pkg := { s.pkg with mainStart := some s.time }
      clk := { s.clk with unlocked := mfill false s.clk.unlocked 0 150 true, attempts := [], domains := [] } }
  else s

end Sys2Proof.Machine
end

