-- ==== Sys2Proof/Machine/Cadastre.lean ====
section
/-! DEFINITION. The Cadastre: attribution, tenancies, the ledger with its chain and seals, and the CAD pins (R547 to R573). Energies are in
µJ; meter time is in ticks. -/

namespace Sys2Proof.Machine

/-- Change the Cadastre by `f`. -/
def State.modCad (s : State) (f : Cad → Cad) : State := { s with cad := f s.cad }

/-- Slots of the ledger (R558). -/
def ledgerSlots : Nat := 131072

/-- One hour of meter time. -/
def hourTicks : Nat := 3600 * 100000000

/-! ### The ledger (R558, R561, R564) -/

/-- The record in slot INDEX mod 131,072. -/
def Cad.slot (c : Cad) (index : Nat) : List Byte := mget [] c.ledger (index % ledgerSlots)

/-- May the next slot be written: it holds no unacknowledged record, or RETAIN is 0 (R564)? -/
def Cad.room (c : Cad) : Bool := !c.retain || decide (c.next < c.mark + ledgerSlots)

/-- The chain value H of the last data record (R561). -/
def Cad.chainValue (c : Cad) : List Byte := if c.chain.isEmpty then Config.sha384 (leBytes 8 Config.serial.toNat) else c.chain

/-- Write 64 bytes to the next slot. -/
def Cad.put (c : Cad) (b : List Byte) : Cad := { c with ledger := mset [] c.ledger (c.next % ledgerSlots) b, next := c.next + 1 }

/-- A data record's INDEX and CHAIN are made as it is written; `e` is bytes 0x04 to 0x2F (R561). -/
def Cad.putData (c : Cad) (e : List Byte) : Cad :=
  let b := leBytes 4 c.next ++ e
  let h := Config.sha384 (c.chainValue ++ b)
  { c.put (b ++ h.take 16) with chain := h }

/-- A record of a seal: ANCHOR 0x10, SIG_R 0x11, SIG_S 0x12 (R561). -/
def Cad.putSeal (c : Cad) (type : Nat) : Cad :=
  let head := leBytes 4 c.next ++ leBytes 1 type ++ leBytes 1 0xF ++ leBytes 2 0 ++ leBytes 8 c.meter.toNat
  let sig (back : Nat) : List Byte := Config.signCad (c.slot (c.next - back) ++ leBytes 8 Config.serial.toNat)
  c.put (head ++ (if type = 0x10 then c.chainValue else if type = 0x11 then (sig 1).take 48 else (sig 2).drop 48))

/-- Write one waiting record. -/
def Cad.putOne (c : Cad) (e : List Byte) : Cad :=
  match e with
  | [t] => c.putSeal t.toNat
  | _ => c.putData e

/-- A record goes to its slot, waits in the buffer, or is dropped (R564). -/
def Cad.offer (c : Cad) (e : List Byte) : Cad :=
  if c.hold.isEmpty && c.room then c.putOne e
  else if c.hold.length < 256 then { c with hold := c.hold ++ [e] }
  else if e.length = 1 then c
  else { c with
    dropRecords := min 0xFFFF (c.dropRecords + 1), droppedNow := c.droppedNow + 1
    droppedFirst := if c.droppedNow = 0 then c.next + c.hold.length else c.droppedFirst }

/-- A seal: three consecutive records (R561 rule 3). -/
def Cad.seal (c : Cad) : Cad :=
  { (([0x10, 0x11, 0x12].map fun t => leBytes 1 t).foldl Cad.offer c) with sinceSeal := 0 }

/-- Accuracy flags that hold now (R559): `timed` says that REFCLK is present. -/
def Cad.accNow (c : Cad) (timed : Bool) : BitVec 8 :=
  BitVec.ofNat 8 (bitAt (!timed) 0 + bitAt c.ssc 1 + bitAt c.attrFault 2 + bitAt (!c.calLock) 4)

/-- A data record, with the seal that follows every CLOSE and DEVICE record and every 64th (R560, R561 rule 4). -/
def Cad.record (c : Cad) (type part : Nat) (acc : BitVec 8) (body : List Byte) : Cad :=
  let b := leBytes 1 type ++ leBytes 1 part ++ leBytes 1 acc.toNat ++ leBytes 1 0 ++ leBytes 8 c.meter.toNat ++ (body ++ leBytes 32 0).take 32
  let d := c.offer b
  let d := if d.dropRecords = c.dropRecords ∧ d.droppedNow = c.droppedNow then { d with sinceSeal := d.sinceSeal + 1 } else d
  if type = 3 ∨ type = 4 ∨ 64 ≤ d.sinceSeal then d.seal else d

/-- An EVENT record (R562). -/
def Cad.event (c : Cad) (timed : Bool) (code a b : Nat) : Cad :=
  c.record 6 0xF (c.accNow timed) (leBytes 2 code ++ leBytes 2 0 ++ leBytes 4 c.events.toNat ++ leBytes 8 a ++ leBytes 8 b)

/-- Waiting records take the slots that are free, at most `n`. -/
def Cad.drain (c : Cad) : Nat → Cad
  | 0 => c
  | n + 1 =>
    match c.hold with
    | [] => c
    | e :: rest => if c.room then Cad.drain (Cad.putOne { c with hold := rest } e) n else c

/-- Space has returned: waiting records are written, then what was dropped is told (R564). -/
def Cad.refill (c : Cad) (timed : Bool) : Cad :=
  let c := c.drain 256
  if c.droppedNow ≠ 0 ∧ c.hold.length < 256 then { c with droppedNow := 0 }.event timed 0x14 c.droppedNow c.droppedFirst else c

/-- An EVENT record of the device. -/
def State.cadEvent (s : State) (code a b : Nat) : State :=
  if s.pkg.auxUp then s.modCad fun c => c.event s.clk.refclk code a b else s

/-! ### Tenancies (R556, R557, R560) -/

/-- The tenancy of partition `p`, if one is open. -/
def Cad.ten (c : Cad) (p : Nat) : Option CadTen := mget none c.tens p

/-- Change the tenancy of partition `p`. -/
def Cad.setTen (c : Cad) (p : Nat) (v : Option CadTen) : Cad := { c with tens := mset none c.tens p v }

/-- Last declared UTC plus the meter time since, in ns; 0 when none is declared (R560). -/
def Cad.utcEst (c : Cad) : W64 := match c.utc with | some (u, t) => u + (c.meter - t) * 10 | none => 0

/-- Partitions with an open tenancy. -/
def Cad.open' (c : Cad) : List Nat := (List.range 12).filter fun p => (c.ten p).isSome

/-- Close the tenancy of partition `p` with a reason; `lost` closes it at its last checkpoint (R557, R560). -/
def Cad.close (c : Cad) (p reason : Nat) (timed lost : Bool) : Cad :=
  match c.ten p with
  | none => c
  | some v =>
    let acc := v.acc ||| c.accNow timed ||| (if lost then 8 else 0)
    let dur := if lost then v.ckTime else c.meter - v.start
    let e := if lost then v.ckEnergy else v.energy
    (c.setTen p none).record 3 p acc (leBytes 8 v.tag.toNat ++ leBytes 8 dur.toNat ++ leBytes 8 (e / 1000) ++ leBytes 2 v.bays
      ++ leBytes 1 reason ++ leBytes 1 0 ++ leBytes 4 v.openIndex)

/-- A declaration is discarded and counted (R557). -/
def Cad.dropOne (c : Cad) : Cad := { c with dropDecl := min 0xFFFF (c.dropDecl + 1), declSec := c.declSec + 1 }

/-- CAD_DECLARE_OPEN: the opening declaration at the front of the FIFO is accepted, with an OPEN record, and OPEN_TENANCY completes; or it is
refused, after a ROM mismatch or with a tenancy open; for a partition without bays it is malformed (R557, R560, R565). -/
def execCadDeclareOpen (s : State) : Out :=
  match s.decls with
  | .opening p tag key :: rest =>
    if !s.pkg.auxUp then .next s
    else
      let s := { s with decls := rest }
      let bays := if (s.part p).exist then maskOf (s.part p).bays else 0
      if bays = 0 then .next (s.modCad Cad.dropOne)
      else if !s.cad.meterOk then .next (s.finish p key 0x45 0x12 0)
      else if (s.cad.ten p).isSome then .next (s.finish p key 0x45 0x13 0)
      else
        let c := s.cad
        let v : CadTen := { tag := tag, bays := bays, openIndex := c.next + c.hold.length, start := c.meter, energy := 0
                            acc := c.accNow s.clk.refclk, lastInterim := 0, ckTime := 0, ckEnergy := 0 }
        let s := s.modCad fun c => (c.setTen p (some v)).record 1 p (c.accNow s.clk.refclk)
          (leBytes 8 tag.toNat ++ leBytes 8 c.utcEst.toNat ++ leBytes 2 bays)
        let s := if (s.part p).resetting.isSome then s
          else s.modPart p fun x => { x with tenancy := tag, hove := { x.hove with lastBeat := s.time } }
        .next (s.finish p key 0 0 0)
  | _ => .next s

/-- CAD_DECLARE_CLOSE: the closing declaration at the front of the FIFO: a CLOSE record and a seal; without an open tenancy it is discarded
and counted (R557, R573). -/
def execCadDeclareClose (s : State) : Out :=
  match s.decls with
  | .closing p reason :: rest =>
    if !s.pkg.auxUp then .next s
    else
      let s := { s with decls := rest }
      .next (s.modCad fun c => if (c.ten p).isSome then c.close p reason s.clk.refclk false else c.dropOne)
  | _ => .next s

/-- CAD_DECLARE_UTC: the UTC declaration at the front of the FIFO: a TIME record (R560). -/
def execCadDeclareUtc (s : State) : Out :=
  match s.decls with
  | .utc u _ :: rest =>
    if !s.pkg.auxUp then .next s
    else
      let s := { s with decls := rest }
      .next (s.modCad fun c =>
        let step := match c.utc with | some _ => u - c.utcEst | none => Config.firstStep
        { c.record 5 0xF (c.accNow s.clk.refclk) (leBytes 8 u.toNat ++ leBytes 8 step.toNat) with utc := some (u, c.meter) })
  | _ => .next s

/-- CAD_RESET_PULSE: the ownership lines pulse at the start of a reset of partition `p`: its tenancy closes with reason RESET (R557). -/
def execCadResetPulse (p : Nat) (s : State) : Out :=
  if (s.part p).resetting.isSome ∧ s.pkg.auxUp then .next (s.modCad fun c => c.close p 3 s.clk.refclk false) else .next s

/-- CAD_DEVICE_RESET_CLOSE: PERST# or a device reset, which has destroyed every partition, closes every open tenancy with reason
DEVICE_RESET (R557). -/
def execCadDeviceResetClose (s : State) : Out :=
  if s.existing.isEmpty ∧ s.pkg.auxUp then
    .next (s.modCad fun c => c.open'.foldl (fun (c : Cad) p => c.close p 6 s.clk.refclk false) c)
  else .next s

/-! ### Metering (R550 to R555) -/

/-- Energy of partition `p`'s bays in one millisecond, floored to a whole µJ (R552): `reg` by domain, `hbm` by stack. -/
def powerShare (bays : List Nat) (reg hbm : List (Nat × Nat)) (vin vddq : Nat) : Nat :=
  let sum (l : List (Nat × Nat)) (mine : Nat → Bool) : Nat := ((l.filter fun e => mine e.1).map (·.2)).foldl (· + ·) 0
  let all := sum reg fun d => decide (d < 192)
  let r := sum reg fun d => (bays.map bayDomains).flatten.contains d
  let h := sum hbm bays.contains
  if all = 0 then (12 * h + vddq * bays.length) / 12 else (12 * vin * r + 12 * all * h + all * vddq * bays.length) / (12 * all)

/-- The bays of a mask, ascending. -/
def baysOf (m : Nat) : List Nat := (List.range 12).filter fun b => decide (m / 2 ^ b % 2 = 1)

/-- CAD_ATTRIBUTION: one millisecond's energies, by regulator and by rail, are attributed to the open tenancies, the rest is common; without
REFCLK meter time runs on from the internal oscillator; with SSC it is corrected for the mean offset (R551 to R555). -/
def execCadAttribution (reg hbm : List (Nat × Nat)) (vin vddq link io aux : Nat) (s : State) : Out :=
  if !s.pkg.auxUp then .next s
  else
    let total := vin + (((hbm.filter fun e => decide (e.1 < 12)).map (·.2)).foldl (· + ·) 0) + vddq + link + io + aux
    .next (s.modCad fun c =>
      let low : BitVec 8 := if total ≤ 100000 then 0x20 else 0
      let acc := low ||| c.accNow s.clk.refclk
      let shares := c.open'.map fun p => (p, match c.ten p with | some v => powerShare (baysOf v.bays) reg hbm vin vddq | none => 0)
      let common := total - (shares.map (·.2)).foldl (· + ·) 0
      let c := shares.foldl (fun (c : Cad) (e : Nat × Nat) =>
        c.setTen e.1 ((c.ten e.1).map fun v => { v with energy := v.energy + e.2, acc := v.acc ||| acc })) c
      { c with
        meter := (if s.clk.refclk then c.meter else c.meter + 100000) + (if c.ssc then BitVec.ofNat 64 (c.sscPpm / 20) else 0)
        total := c.total + total, common := c.common + common, hourTotal := c.hourTotal + total, hourCommon := c.hourCommon + common
        hourAcc := c.hourAcc ||| acc, secTotal := c.secTotal + total, secCommon := c.secCommon + common, secMs := c.secMs + 1
        secReg := c.secReg + (((reg.filter fun e => decide (e.1 < 192)).map (·.2)).foldl (· + ·) 0), secVin := c.secVin + vin })

/-- ATTR_FAULT is set or cleared, with its EVENT (R551, R562). -/
def Cad.setAttr (c : Cad) (on timed : Bool) (ratio : Nat) : Cad :=
  if c.attrFault = on then c else { c with attrFault := on }.event timed 0x12 (bitAt on 0) ratio

/-- CAD_RAIL_COMPARE: a second ends: the regulators' sum is compared with VIN_MAIN, the powers of the second are shown, and declarations
dropped in it are told (R551, R562, R572). -/
def execCadRailCompare (s : State) : Out :=
  if !s.pkg.auxUp then .next s
  else
    .next (s.modCad fun c =>
      let bad := decide (6 * c.secVin < 100 * (if c.secReg ≤ c.secVin then c.secVin - c.secReg else c.secReg - c.secVin))
      let ratio := if c.secVin = 0 then 0 else c.secReg * 1000000 / c.secVin
      let n := if bad then c.badSecs + 1 else 0
      let g := if bad then 0 else c.goodSecs + 1
      let d := c.declSec
      let c := { c with
        badSecs := n, goodSecs := g, powerTotal := min 0xFFFF (c.secTotal / 100000), powerCommon := min 0xFFFF (c.secCommon / 100000)
        peak := max c.peak (c.secTotal / 100000), secTotal := 0, secCommon := 0, secMs := 0, secReg := 0, secVin := 0, declSec := 0 }
      let c := if 60 ≤ n then c.setAttr true s.clk.refclk ratio else if 60 ≤ g then c.setAttr false s.clk.refclk ratio else c
      if d = 0 then c else c.event s.clk.refclk 0x15 d 0)

/-- CAD_SENSOR_SILENT: the sensor bus has delivered no reading for 1 ms (R551). -/
def execCadSensorSilent (s : State) : Out :=
  if s.pkg.auxUp then .next (s.modCad fun c => { c.setAttr true s.clk.refclk 0 with goodSecs := 0 }) else .next s

/-- CAD_CHECKPOINT: every 10 s meter time, totals and the running figures of the open tenancies are written to the store (R553, R557). -/
def execCadCheckpoint (s : State) : Out :=
  if s.pkg.auxUp then
    .next (s.modCad fun c => { c with
      checkpoint := c.meter, ckTotal := c.total, ckCommon := c.common
      tens := mmap none (fun _ v => v.map fun v => { v with ckTime := c.meter - v.start, ckEnergy := v.energy }) c.tens })
  else .next s

/-- CAD_INTERIM: INTERIM_H hours of partition `p`'s tenancy have passed since it opened or since its last INTERIM record (R560). -/
def execCadInterim (p : Nat) (s : State) : Out :=
  match s.cad.ten p with
  | none => .next s
  | some v =>
    let c := s.cad
    let dur := c.meter - v.start
    if s.pkg.auxUp ∧ v.lastInterim.toNat + c.interimH * hourTicks ≤ dur.toNat then
      .next (s.modCad fun c => (c.setTen p (some { v with lastInterim := dur })).record 2 p (v.acc ||| c.accNow s.clk.refclk)
        (leBytes 8 v.tag.toNat ++ leBytes 8 dur.toNat ++ leBytes 8 (v.energy / 1000) ++ leBytes 2 v.bays ++ leBytes 2 0 ++ leBytes 4 v.openIndex))
    else .next s

/-- CAD_DEVICE_RECORD: a whole hour of meter time since power-up: a DEVICE record and a seal (R560). -/
def execCadDeviceRecord (s : State) : Out :=
  let c := s.cad
  if s.pkg.auxUp ∧ c.upAt.toNat + (c.devRecords + 1) * hourTicks ≤ c.meter.toNat then
    .next (s.modCad fun c =>
      { c.record 4 0xF (c.hourAcc ||| c.accNow s.clk.refclk) (leBytes 8 (c.total / 1000) ++ leBytes 8 (c.hourTotal / 1000)
          ++ leBytes 8 (c.hourCommon / 1000) ++ leBytes 4 c.peak) with
        hourTotal := 0, hourCommon := 0, peak := 0, hourAcc := 0, devRecords := c.devRecords + 1 })
  else .next s

/-- CAD_SSC_DETECT: the Cadastre measures a spread of REFCLK of `ppm` peak to peak: deeper than 600 ppm sets SSC (R555, R562). -/
def execCadSscDetect (ppm : Nat) (s : State) : Out :=
  if !s.pkg.auxUp then .next s
  else
    let on := decide (600 < ppm)
    .next (s.modCad fun c =>
      let d := { c with ssc := on, sscPpm := if on then ppm else 0 }
      if c.ssc = on then d else d.event s.clk.refclk 0x13 (bitAt on 0) ppm)

/-! ### The CAD pins (R569, R570, R572) -/

/-- CAD_STATUS (R572). -/
def State.cadStatus (s : State) : Nat :=
  let c := s.cad
  bitAt c.calLock 31 + bitAt c.meterOk 30 + bitAt s.clk.refclk 29 + bitAt c.ssc 28 + bitAt c.attrFault 27
    + bitAt (c.retain && decide (c.mark + 114688 ≤ c.next)) 26 + bitAt (!c.hold.isEmpty) 25 + bitAt c.retain 24 + maskOf c.open'

/-- The 32 bytes of CAD_PARTp (R572). -/
def Cad.partBytes (c : Cad) (p : Nat) : List Byte :=
  match c.ten p with
  | none => leBytes 32 0
  | some v =>
    leBytes 8 v.tag.toNat ++ leBytes 8 (c.meter - v.start).toNat ++ leBytes 8 (v.energy / 1000) ++ leBytes 8 (v.bays * 2 ^ 20 + v.acc.toNat)

/-- The four bytes at an aligned offset of the Cadastre's register window, as BAR4 shows them (R571, R572). -/
def State.cadWindow (s : State) (off : Nat) : List Byte :=
  let c := s.cad
  let half (v : Nat) : List Byte := leBytes 4 (v / 2 ^ (8 * (off % 8)))
  if 0x1000 ≤ off then
    let b := c.slot (if c.next ≤ (off - 0x1000) / 64 then (off - 0x1000) / 64
      else c.next - 1 - (c.next - 1 - (off - 0x1000) / 64) % 960)
    if b.isEmpty then leBytes 4 0 else (b.drop (off % 64)).take 4
  else if 0x400 ≤ off ∧ off < 0x460 then (Config.cadKey.drop (off - 0x400)).take 4
  else if 0x100 ≤ off ∧ off < 0x280 then ((c.partBytes ((off - 0x100) / 32)).drop (off % 32)).take 4
  else match off / 4 * 4 with
    | 0x00 => leBytes 4 Config.cadVersion.toNat
    | 0x04 => leBytes 4 Config.cadRomCrc.toNat
    | 0x08 => leBytes 4 c.events.toNat
    | 0x0C => leBytes 4 s.cadStatus
    | 0x10 | 0x14 => half c.meter.toNat
    | 0x18 | 0x1C => half (c.total / 1000)
    | 0x20 | 0x24 => half (c.common / 1000)
    | 0x28 => leBytes 4 (c.powerTotal * 65536 + c.powerCommon)
    | 0x30 => leBytes 4 c.mark
    | 0x34 => leBytes 4 c.next
    | 0x38 => leBytes 4 (c.dropRecords * 65536 + c.dropDecl)
    | _ => leBytes 4 0

/-- A reply on the CAD pins: status 0 OK, 1 malformed, 2 out of range, 3 refused (R570). -/
def State.cadReply (s : State) (status : Nat) (b : List Byte) : State := s.send (.cadReply (leBytes 1 status ++ b))

/-- A command on the CAD pins, which work whenever AUX is up (R570). -/
def State.cadPins (s : State) (f : State → State) : Out := if s.pkg.auxUp then .next (f s) else .next s

/-- IDENT. -/
def execIdent (s : State) : Out :=
  s.cadPins fun s => s.cadReply 0 (leBytes 8 Config.serial.toNat ++ leBytes 4 Config.cadVersion.toNat ++ leBytes 4 Config.cadRomCrc.toNat
    ++ leBytes 4 s.cad.events.toNat ++ leBytes 4 s.cadStatus)

/-- READ: the record with an INDEX, out of range when the slot holds another. -/
def execRead (index : W32) (s : State) : Out :=
  s.cadPins fun s =>
    let b := s.cad.slot index.toNat
    if b.isEmpty ∨ leNat (b.take 4) ≠ index.toNat then s.cadReply 2 [] else s.cadReply 0 b

/-- MARKS: the next INDEX to write, the read mark, and the drops. -/
def execMarks (s : State) : Out :=
  s.cadPins fun s => s.cadReply 0 (leBytes 4 s.cad.next ++ leBytes 4 s.cad.mark ++ leBytes 4 (s.cad.dropRecords * 65536 + s.cad.dropDecl))

/-- ACK: the read mark moves to an INDEX, and waiting records take the slots it frees (R564, R573). -/
def execAck (index : W32) (s : State) : Out :=
  s.cadPins fun s =>
    let n := index.toNat
    if s.cad.next < n then s.cadReply 2 []
    else if n < s.cad.mark then s.cadReply 3 []
    else (s.modCad fun c => Cad.refill { c with mark := n } s.clk.refclk).cadReply 0 (leBytes 4 n)

/-- CERT: up to 32 bytes of the certificate chain from an offset. -/
def execCert (off : Nat) (s : State) : Out :=
  s.cadPins fun s => if Config.cadCert.length ≤ off then s.cadReply 2 [] else s.cadReply 0 ((Config.cadCert.drop off).take 32)

/-- TOTALS: meter time, total and common energy in mJ. -/
def execTotals (s : State) : Out :=
  s.cadPins fun s => s.cadReply 0 (leBytes 8 s.cad.meter.toNat ++ leBytes 8 (s.cad.total / 1000) ++ leBytes 8 (s.cad.common / 1000))

/-- PART: the running figures of partition `p`. -/
def execPart (p : Nat) (s : State) : Out := s.cadPins fun s => if p < 12 then s.cadReply 0 (s.cad.partBytes p) else s.cadReply 2 []

/-- The value a field parameter has, and whether a new one is in its range (R569). -/
def Cad.param (c : Cad) (code : Nat) : Nat := match code with | 1 => c.address | 2 => c.interimH | _ => bitAt c.retain 0
@[inherit_doc Cad.param] def paramFits (code v : Nat) : Bool :=
  match code with
  | 1 => decide (0x08 ≤ v) && decide (v ≤ 0x77)
  | 2 => decide (1 ≤ v) && decide (v ≤ 24)
  | 3 => decide (v ≤ 1)
  | _ => false

/-- SET_PARAM: a guarded change of a field parameter: the event counter steps, and EVENT 0x0003 is written (R566, R569, R573). -/
def execSetParam (code : Nat) (value guard : W32) (s : State) : Out :=
  s.cadPins fun s =>
    let v := value.toNat
    if !(paramFits code v) then s.cadReply 2 []
    else if guard ≠ s.cad.events then s.cadReply 3 []
    else
      let s := s.modCad fun c =>
        let old := c.param code
        let c := { c with
          events := c.events + 1, address := if code = 1 then v else c.address, interimH := if code = 2 then v else c.interimH
          retain := if code = 3 then decide (v = 1) else c.retain }
        (c.event s.clk.refclk 0x03 code (v * 2 ^ 32 + old)).refill s.clk.refclk
      s.cadReply 0 (leBytes 4 s.cad.events.toNat)

end Sys2Proof.Machine
end

