-- ==== Sys2Proof/Machine/Clocks.lean ====
section
/-! DEFINITION. Clocks, power, thermal control, ageing and the calendar (R489 to R491, R504 to R545), and the platform sensors of R499.
Temperatures are in 0.25 °C, powers in 0.1 W. -/

namespace Sys2Proof.Machine

/-- The bay of cluster `c` (R25). -/
def clusterBay (c : Nat) : Nat := 3 * (c / 30) + c % 30 / 10

/-- A signed 32-bit field. -/
def leInt (v : Int) : List Byte := leBytes 4 (BitVec.ofInt 32 v).toNat

/-- Cap of partition `p` in W, 0 for none (R541). -/
def State.capOf (s : State) (p : Nat) : Nat := (mget 0 s.clk.partCap p).toNat / 2 ^ 20

/-- MAXPOINT of partition `p` (R541). -/
def State.maxPointOf (s : State) (p : Nat) : Nat := (mget 0 s.clk.partCap p).toNat / 2 ^ 16 % 8

/-! ### Operating points (R516) -/

/-- The point cluster `c` runs at: the slowest that its table, MAXPOINT, the loops and THROTTLE# ask for (R516). -/
def State.targetPoint (s : State) (c : Nat) : Nat :=
  let x := s.cluster c
  let m := match s.ownerOfBay (clusterBay c) with | some p => s.maxPointOf p | none => 0
  max (max (tableMax (s.marginTable c)) m) (max (max x.powerReq x.thermReq) (if s.clk.throttleIn then 7 else 0))

/-- Every cluster takes its point (R516). -/
def State.takePoints (s : State) : State :=
  (List.range 120).foldl (fun (s : State) c => s.modCluster c fun x => { x with point := s.targetPoint c }) s

/-- A THROTTLE entry for a clock stop, at most one per cluster per second (R524, R538). -/
def State.noteThrottle (s : State) (c cause power : Nat) : State :=
  let x := s.cluster c
  let late := match x.throttled with | some t => decide (t.toNat + 100000000 ≤ s.time.toNat) | none => true
  if late then
    (s.bookEntry 0x33 ((s.ownerOfBay (clusterBay c)).getD 0xF) 0 0 (leBytes 1 c ++ leBytes 1 cause ++ leBytes 2 x.temp ++ leBytes 4 power)).modCluster
      c fun x => { x with throttled := some s.time }
  else s

/-- Stop cluster `c`'s clock for reason bit `i`, with its THROTTLE entry; or release it. -/
def State.stopCluster (s : State) (c i cause power : Nat) : State :=
  (s.modCluster c fun x => { x with stops := x.stops ||| BitVec.ofNat 6 (2 ^ i) }).noteThrottle c cause power

@[inherit_doc State.stopCluster] def State.releaseCluster (s : State) (c i : Nat) : State :=
  s.modCluster c fun x => { x with stops := x.stops &&& ~~~(BitVec.ofNat 6 (2 ^ i)) }

/-! ### Writes that Trim applies (R489, R539 to R544) -/

/-- A levelling is asked for by a trigger: 1 interval, 2 drift, 3 host (R529, R544). -/
def State.wantLevel (s : State) (trigger : Nat) : State :=
  if s.clk.levelWant.contains trigger then s else s.modClk fun k => { k with levelWant := k.levelWant ++ [trigger] }

/-- Clear the bits of a 150-bit PLL mask that a W1C write of word `i` names (R540). -/
def clearWord (m : BitVec 150) (i : Nat) (w : W32) : BitVec 150 := m &&& ~~~(BitVec.ofNat 150 (w.toNat * 2 ^ (32 * i)))

/-- Trim applies a 32-bit write to CLK_, PWR_, THM_ or LIF_ (R529, R539 to R544); `off` is its BAR0 offset. -/
def State.trimWrite (s : State) (off : Nat) (w : W32) : State :=
  let v := w.toNat
  if off = 0x600004 then s.modClk fun k => { k with ssc := min 20 (v % 32) }
  else if off = 0x60001C then s.modClk fun k => { k with mon := w &&& 0x8000FF0F }
  else if off = 0x600020 then
    s.modClk fun k => { k with
      measPll := v % 256, measLog2 := min 24 (max 10 (fld v 8 5))
      measDone := if w.getLsbD 31 then false else k.measDone
      measRun := if w.getLsbD 31 then some s.time else k.measRun }
  else if 0x600040 ≤ off ∧ off < 0x600054 then s.modClk fun k => { k with lockFail := clearWord k.lockFail ((off - 0x600040) / 4) w }
  else if 0x600060 ≤ off ∧ off < 0x600074 then s.modClk fun k => { k with excur := clearWord k.excur ((off - 0x600060) / 4) w }
  else if off = 0x600100 then s.modClk fun k => { k with devCap := min 2200 (max 200 (v % 4096)) }
  else if 0x600140 ≤ off ∧ off < 0x600170 then
    let cap := fld v 20 12
    let cap := if cap = 0 then 0 else min 2200 (max 25 cap)
    s.modClk fun k => { k with
      partCap := mset 0 k.partCap ((off - 0x600140) / 4) (BitVec.ofNat 32 (cap * 2 ^ 20 + fld v 16 3 * 2 ^ 16)) }
  else if off = 0x600C04 then
    s.modClk fun k => { k with
      thmSticky := k.thmSticky &&& ~~~(BitVec.ofNat 4 v), tripSource := if w.getLsbD 3 then 0 else k.tripSource }
  else if off = 0x900000 then if w.getLsbD 31 then s.wantLevel 3 else s
  else if off = 0x900018 then s.modClk fun k => { k with lifEvents := k.lifEvents &&& ~~~(BitVec.ofNat 5 v) }
  else s

/-- Trim applies a held write of 4 or 8 bytes; none of these blocks' 64-bit registers is writable (R16, R489). -/
def State.trimApply (s : State) (h : HostWrite) : State :=
  if h.bytes.length = 8 then
    (s.trimWrite h.offset (BitVec.ofNat 32 (leNat h.bytes))).trimWrite (h.offset + 4) (BitVec.ofNat 32 (leNat h.bytes / 2 ^ 32))
  else if h.bytes.length = 4 then s.trimWrite h.offset (BitVec.ofNat 32 (leNat h.bytes))
  else s

/-- Is an offset of BAR0 in a block that Trim serves (R15)? -/
def inShadow (off : Nat) : Bool := decide (off / 0x100000 = 6) || decide (off / 0x100000 = 9)

/-- SHADOW_WRITE: a host write to CLK_, PWR_, THM_ or LIF_, from the physical function only, enters Trim's mailbox, and Trim applies it; at
64 held writes it is dropped (R489, R539). -/
def execShadowWrite (fn off : Nat) (bytes : List Byte) (s : State) : Out :=
  if !(inShadow off) ∨ fn ≠ 0 then .next s
  else if s.mast.trimUp then .next (s.trimApply ⟨fn, off, bytes⟩)
  else if s.mast.mailbox.length < 64 then .next (s.modMast fun m => { m with mailbox := m.mailbox ++ [⟨fn, off, bytes⟩] })
  else .next (s.modMast fun m => { m with drop := true, boxDropped := m.boxDropped + 1 })

/-- LEVEL_NOW: a write of 1 to LIF_CTRL.LEVEL_NOW (R529). -/
def execLevelNow (s : State) : Out := execShadowWrite 0 0x900000 (leBytes 4 0x80000000) s

/-- CLK_MEAS_START: a write of CLK_MEAS_CTRL with START (R513). -/
def execClkMeasStart (pll log2 : Nat) (s : State) : Out :=
  execShadowWrite 0 0x600020 (leBytes 4 (0x80000000 + log2 % 32 * 256 + pll % 256)) s

/-- CLK_MEAS_DONE: the window of the measurement has passed: COUNT holds the cycles counted, 0 for an index that selects nothing (R513,
R540). -/
def execClkMeasDone (count : W32) (s : State) : Out :=
  match s.clk.measRun with
  | some t =>
    if t.toNat + 2 ^ s.clk.measLog2 ≤ s.time.toNat then
      .next (s.modClk fun k => { k with
        measRun := none, measDone := true, measCount := if k.measPll < 150 then count else 0 })
    else .next s
  | none => .next s

/-- Trim is back: it applies the writes that waited, and reports those dropped (R482, R489, R501). -/
def State.trimReturns (s : State) : State :=
  if s.mast.trimUp then s
  else
    let s := s.trimBack
    let s := if s.mast.boxDropped = 0 then s
      else s.bookEntry 0x26 0xF 0 0 (leBytes 1 1 ++ leBytes 3 0 ++ leBytes 4 s.mast.boxDropped)
    let held := s.mast.mailbox
    held.foldl State.trimApply (s.modMast fun m => { m with mailbox := [], boxDropped := 0 })

/-- Can Trim's components run: AUX and REFCLK up, the Masthead booted (R505, R582)? -/
def State.trimCanRun (s : State) : Bool := s.pkg.auxUp && s.clk.refclk && s.pkg.mastReady && !s.mast.recovery

/-! ### The power loop (R520, R521) -/

/-- Power of partition `p` (R520). -/
def State.partPower (s : State) (p : Nat) : Nat :=
  (((s.part p).bays.map bayDomains).flatten.map fun d => mget 0 s.clk.power d).foldl (· + ·) 0

/-- Device power (R520). -/
def State.devPower (s : State) : Nat := s.clk.power.foldl (fun n e => n + e.2) 0

/-- Does a power exceed a cap in W, where there is one? Has it stayed at or below 97 % of it (R521)? -/
def overCap (power cap : Nat) : Bool := decide (cap ≠ 0) && decide (10 * cap < power)
@[inherit_doc overCap] def slackCap (power cap : Nat) : Bool := decide (cap = 0) || decide (100 * power ≤ 970 * cap)

/-- What the power loop asks of cluster `c` (R521): `over` a cap, with the power that exceeds it; `good` below 97 %. -/
def State.powerStep (s : State) (c : Nat) (high good : Bool) (power : Nat) : State :=
  let x := s.cluster c
  let s := s.releaseCluster c 0
  if high then
    let s := s.modCluster c fun x => { x with powerReq := min 7 (x.point + 1), powerGood := 0 }
    if x.point = 7 ∧ !s.mast.fallback then s.stopCluster c 0 0 power else s
  else if good then
    s.modCluster c fun x =>
      if 9 ≤ x.powerGood then { x with powerGood := 0, powerReq := x.powerReq - 1 } else { x with powerGood := x.powerGood + 1 }
  else s.modCluster c fun x => { x with powerGood := 0 }

/-- The operating time of one loop: AUX, the main rails, and each cluster whose domain is on and whose clock runs (R535). -/
def State.countHours (s : State) : State :=
  let on := (List.range 120).filter fun c => decide (s.domainState (clusterDomain c) = 1) && decide ((s.cluster c).stops = 0)
  let s := on.foldl (fun (s : State) c => s.lifeAdd (0x20 + 4 * c) 1) s
  s.modClk fun k => { k with auxMs := k.auxMs + 1, opMs := if s.pkg.pwrGood then k.opMs + 1 else k.opMs }

/-- POWER_LOOP: one run of POWER over the regulators' mean powers of the loop (R490, R516, R520, R521); 500 operating hours after the last
levelling ask for another (R529). -/
def execPowerLoop (power : List (Nat × Nat)) (s : State) : Out :=
  if !s.trimCanRun then .next s
  else
    let s := s.trimReturns
    let s := s.modMast fun m => { m with powerLoops := m.powerLoops + 1 }
    let s := s.modClk fun k => { k with power := (power.filter fun e => decide (e.1 < 192)).foldl (fun m e => mset 0 m e.1 e.2) [] }
    let dev := s.devPower
    let devOver := overCap dev s.clk.devCap
    let devGood := slackCap dev s.clk.devCap
    let s := (List.range 120).foldl (fun (s : State) c =>
      match s.ownerOfBay (clusterBay c) with
      | some p =>
        let w := s.partPower p
        let high := overCap w (s.capOf p)
        s.powerStep c (devOver || high) (devGood && slackCap w (s.capOf p)) (if high then w else dev)
      | none => s.powerStep c devOver devGood dev) s
    let capped := (List.range 12).filter fun p =>
      let w := s.partPower p
      overCap w (s.capOf p) || (s.clk.partCapped.getLsbD p && !(slackCap w (s.capOf p)))
    let s := s.modClk fun k => { k with
      devCapped := devOver || (k.devCapped && !devGood), partCapped := BitVec.ofNat 12 (maskOf capped) }
    let s := s.takePoints.countHours
    .next (if s.clk.levelAt + 500 * 3600000 ≤ s.clk.opMs then s.wantLevel 1 else s)

/-! ### The thermal loop (R523 to R526, R535) -/

/-- Greatest junction temperature of die `d`: Q0–Q3, L0, L1. -/
def State.dieTemp (s : State) (d : Nat) : Nat :=
  if d < 4 then ((List.range 30).map fun l => (s.cluster (30 * d + l)).temp).foldl max 0 else mget 0 s.clk.linkTemp (d - 4)

/-- Histogram bin of a temperature (R535). -/
def tempBin (t : Nat) : Nat := if t < 60 then 0 else min 23 ((t - 40) / 20)

/-- One reading of a die's temperature towards its thermal cycles (R535): the extreme, whether a rise of 40 °C has been seen, and whether
a cycle ends. -/
def cycleStep (e : Nat × Bool) (t : Nat) : (Nat × Bool) × Bool :=
  if e = (0, false) then ((t, false), false)
  else if e.2 then if t + 160 ≤ e.1 then ((t, false), true) else ((max e.1 t, true), false)
  else if e.1 + 160 ≤ t then ((t, true), false) else ((min e.1 t, false), false)

/-- Histograms, thermal cycles and the day's maxima take one loop's temperatures (R534, R535). -/
def State.countTemps (s : State) : State :=
  (List.range 6).foldl (fun (s : State) d =>
    let t := s.dieTemp d
    let (e, done) := cycleStep (mget (0, false) s.clk.cycle d) t
    let s := (s.lifeAdd (0x200 + 96 * d + 4 * tempBin t) 1).lifeAdd (0x440 + 4 * d) (if done then 1 else 0)
    s.modClk fun k => { k with cycle := mset (0, false) k.cycle d e, dayMax := mset 0 k.dayMax d (max t (mget 0 k.dayMax d)) }) s

/-- What the thermal loop asks of cluster `c`, predicted to reach 100 °C or not (R524). -/
def State.thermStep (s : State) (c : Nat) (predicted : Bool) : State :=
  let x := s.cluster c
  let limit := if s.clk.modelReady then 400 else 392
  let hot := decide (limit ≤ x.temp) || (s.clk.modelReady && predicted)
  let stack := s.clk.hbmHot.getLsbD (clusterBay c)
  let s := s.releaseCluster c 1
  if hot || stack then
    let s := s.modCluster c fun x => { x with thermReq := min 7 (x.point + 1), thermGood := 0 }
    if x.point = 7 ∧ 400 ≤ x.temp ∧ !s.mast.fallback then s.stopCluster c 1 1 0 else s
  else if x.temp < 388 then
    s.modCluster c fun x =>
      if 99 ≤ x.thermGood then { x with thermGood := 0, thermReq := x.thermReq - 1 } else { x with thermGood := x.thermGood + 1 }
  else s.modCluster c fun x => { x with thermGood := 0 }

/-- A stack at or above 95 °C (R524, R542). -/
def State.stackHot (s : State) (n : Nat) : State :=
  let t := mget 0 s.clk.hbmTemp n
  let hot := decide (380 ≤ t)
  let s := if hot ∧ !(s.clk.hbmHot.getLsbD n) then
      s.bookEntry 0x35 ((s.ownerOfBay n).getD 0xF) 0 0 (leBytes 1 n ++ leBytes 1 1 ++ leBytes 2 t) else s
  s.modClk fun k => { k with
    thmSticky := if hot then k.thmSticky ||| 2 else k.thmSticky
    hbmHot := if hot then k.hbmHot ||| BitVec.ofNat 12 (2 ^ n) else k.hbmHot &&& ~~~(BitVec.ofNat 12 (2 ^ n)) }

/-- THERMAL_LOOP: one run of THERMAL over the last samples of clusters, link dies and stacks; `predicted` are clusters that the model
expects to reach 100 °C within 10 ms; `model` says, in a loop above 70 °C, whether its error stayed within 2 °C (R490, R516, R523, R524,
R526). -/
def execThermalLoop (clusters links hbms : List (Nat × Nat)) (predicted : List Nat) (model : Option Bool) (s : State) : Out :=
  if !s.trimCanRun then .next s
  else
    let s := s.trimReturns
    let s := s.modMast fun m => { m with thermLoops := m.thermLoops + 1 }
    let s := (clusters.filter fun e => decide (e.1 < 120)).foldl (fun (s : State) e =>
      s.modCluster e.1 fun x => { x with temp := e.2 % 1024 }) s
    let s := s.modClk fun k =>
      let n := match model with | some true => k.modelLoops + 1 | some false => 0 | none => k.modelLoops
      { k with
        linkTemp := (links.filter fun e => decide (e.1 < 2)).foldl (fun m e => mset 0 m e.1 (e.2 % 1024)) k.linkTemp
        hbmTemp := (hbms.filter fun e => decide (e.1 < 12)).foldl (fun m e => mset 0 m e.1 (e.2 % 1024)) k.hbmTemp
        modelLoops := n, modelReady := k.modelReady || decide (1000 ≤ n) }
    let s := (List.range 12).foldl State.stackHot s
    let s := if (List.range 2).any fun m => decide (420 ≤ mget 0 s.clk.linkTemp m) then
        s.modClk fun k => { k with thmSticky := k.thmSticky ||| 4 } else s
    let s := (List.range 120).foldl (fun (s : State) c => s.thermStep c (predicted.contains c)) s
    .next s.takePoints.countTemps

/-! ### What hardware does without Trim (R490, R522, R524, R525) -/

/-- VIN_OVERCURRENT: the VIN_MAIN current exceeds 1,150 A: every cluster's clock stops for 10 µs (R522). -/
def execVinOvercurrent (s : State) : Out :=
  let w := s.devPower
  .next (((List.range 120).foldl (fun (s : State) c => s.stopCluster c 3 3 w) s).modClk fun k =>
    { k with vinStop := some (s.time + 1000) })

/-- THROTTLE_ASSERT: THROTTLE# is asserted: every cluster is at P7; ignored while PERST# is asserted (R522, R577). -/
def execThrottleAssert (s : State) : Out :=
  if s.pkg.perst then .next s else .next (s.modClk fun k => { k with throttleIn := true }).takePoints

/-- THROTTLE_RELEASE: 1 ms has passed since THROTTLE# was released (R522). -/
def execThrottleRelease (s : State) : Out := .next (s.modClk fun k => { k with throttleIn := false }).takePoints

/-- HW_THERMAL_STOP: cluster `c` has reached 105 °C: its clock stops (R524). -/
def execHwThermalStop (c temp : Nat) (s : State) : Out :=
  if c < 120 ∧ 420 ≤ temp then
    let s := s.modCluster c fun x => { x with temp := temp % 1024 }
    .next ((s.stopCluster c 2 2 0).modClk fun k => { k with thmSticky := k.thmSticky ||| 1 })
  else .next s

/-- HW_THERMAL_RESTART: a cluster stopped at 105 °C has cooled to 102 °C: this stop ends (R524, R545). -/
def execHwThermalRestart (c temp : Nat) (s : State) : Out :=
  if c < 120 ∧ temp ≤ 408 ∧ (s.cluster c).stops.getLsbD 2 then
    .next ((s.modCluster c fun x => { x with temp := temp % 1024 }).releaseCluster c 2)
  else .next s

/-- GOVERNOR_CLOCK_STOP: one pass of the fallback governor over junction temperatures and regulator powers: it stops clusters at 100 °C
until 98 °C, and those of partitions over a cap for 1 ms at a time (R490 rules 2 and 3). -/
def execGovernorClockStop (temps power : List (Nat × Nat)) (s : State) : Out :=
  if !s.mast.fallback then .next s
  else
    let s := (temps.filter fun e => decide (e.1 < 120)).foldl (fun (s : State) e =>
      let s := s.modCluster e.1 fun x => { x with temp := e.2 % 1024 }
      if 400 ≤ e.2 then if (s.cluster e.1).stops.getLsbD 4 then s else s.stopCluster e.1 4 1 0
      else if e.2 ≤ 392 then s.releaseCluster e.1 4 else s) s
    let s := s.modClk fun k => { k with power := (power.filter fun e => decide (e.1 < 192)).foldl (fun m e => mset 0 m e.1 e.2) [] }
    let dev := s.devPower
    .next ((List.range 120).foldl (fun (s : State) c =>
      match s.ownerOfBay (clusterBay c) with
      | some p =>
        let w := s.partPower p
        let high := overCap w (s.capOf p)
        if high || overCap dev s.clk.devCap then s.stopCluster c 5 0 (if high then w else dev) else s.releaseCluster c 5
      | none => s.releaseCluster c 5) s)

/-- HBM_HOT_REFRESH: the controller of stack `n` samples its temperature: at 85 °C the refresh rate doubles, below it returns (R524). -/
def execHbmHotRefresh (n temp : Nat) (s : State) : Out :=
  if 12 ≤ n then .next s
  else
    let hot := decide (340 ≤ temp)
    let s := if hot ∧ !(s.clk.refresh2x.getLsbD n) then
        s.bookEntry 0x35 ((s.ownerOfBay n).getD 0xF) 0 0 (leBytes 1 n ++ leBytes 1 0 ++ leBytes 2 temp) else s
    .next (s.modClk fun k => { k with
      hbmTemp := mset 0 k.hbmTemp n (temp % 1024)
      refresh2x := if hot then k.refresh2x ||| BitVec.ofNat 12 (2 ^ n) else k.refresh2x &&& ~~~(BitVec.ofNat 12 (2 ^ n)) })

/-- THERMTRIP: a sensor of source 0–3 (Q0–Q3), 4, 5 (L0, L1) or 6 (HBM) has reached its trip temperature: the trip is latched, every
switched domain is off, and the device is reset (R524, R525). -/
def execThermtrip (source temp : Nat) (s : State) : Out :=
  if source < 7 ∧ (if source = 6 then 420 else 460) ≤ temp ∧ !s.clk.tripped then
    let s := ((s.bookEntry 0x34 0xF 0 0 (leBytes 1 source ++ leBytes 1 0 ++ leBytes 2 temp)).lifeAdd 0x458 1).historyAdd 3 source
    let s := { s.deviceReset with dlUp := false }
    let s := s.modClk fun k => { k with
      tripped := true, thmSticky := k.thmSticky ||| 8, tripSource := source, unlocked := mfill false k.unlocked 0 150 true }
    .next ((List.range 192).foldl (fun (s : State) d => s.setDomain d 0) s)
  else .next s

/-! ### REFCLK and the PLLs (R504 to R512) -/

/-- REFCLK_ABSENT: no edge for 1 µs: PLLs off, the Masthead falls back to its ROM agent; while the main domains run, the effects of a device
reset, and a REFCLK_LOSS entry (R505). -/
def execRefclkAbsent (s : State) : Out :=
  if !s.clk.refclk then .next s
  else
    let s := if s.pkg.mainStart.isSome then
        (((s.bookEntry 0x32 0xF 0 0 (leBytes 1 0)).lifeAdd 0x45C 1).historyAdd 6 0).deviceReset
      else s
    let s := { s with dlUp := false }
    .next (({ s with
      clk := { s.clk with refclk := false, unlocked := mfill false s.clk.unlocked 0 150 true }
      pkg := { s.pkg with mastReady := false } }.modMast fun m => { m with trimUp := false, trimSince := s.time }).cadEvent 0x11 0 0)

/-- REFCLK_PRESENT: 100 µs of edges, after an absence that the standby oscillator puts at `us` µs; power-up goes on as PERST# allows
(R505, R598). -/
def execRefclkPresent (us : Nat) (s : State) : Out :=
  if s.clk.refclk ∨ !s.pkg.auxUp then .next s
  else .next (((s.bookEntry 0x32 0xF 0 0 (leBytes 1 1 ++ leBytes 3 0 ++ leBytes 4 us)).modClk fun k => { k with refclk := true }).cadEvent 0x11 1 0).startMain

/-- The bays that are lost with PLL `i` (R510). -/
def pllBays (i : Nat) : List Nat :=
  if 120 ≤ i ∧ i < 124 then [0, 1, 2].map fun k => 3 * (i - 120) + k
  else if 126 ≤ i ∧ i < 138 then [i - 126]
  else if i = 124 ∨ i = 125 ∨ i = 138 ∨ i = 139 ∨ i = 140 then List.range 12
  else []

/-- Bays report no tiles until PERST# (R510, R519). -/
def State.loseBays (s : State) (bs : List Nat) : State := s.modClk fun k => { k with baysLost := (k.baysLost ++ bs).eraseDups }

/-- PLL `i` has failed to lock (R510). -/
def State.lockFailed (s : State) (i : Nat) : State :=
  let s := s.loseBays (pllBays i)
  if i < 120 then s.modCluster i fun x => { x with bypass := true }
  else if 141 ≤ i ∧ i < 149 then
    (List.range 4).foldl (fun (s : State) j => s.modLink (4 * (i - 141) + j) fun l => { (l.stick 2) with state := .down }) s
  else if i = 149 then { s with dlUp := false }
  else s

/-- PLL_LOCK_ATTEMPT: an attempt to lock PLL `i` passes or fails, with its last ratio error in ppm; the fifth failure has the consequences of
R510, and lock is tried again only after a partition reset of its bay or PERST# (R509, R510). -/
def execPllLockAttempt (i : Nat) (pass : Bool) (ppm : Int) (s : State) : Out :=
  let n := mget 0 s.clk.attempts i
  if i < 150 ∧ mget false s.clk.unlocked i ∧ n < 5 ∧ s.clk.refclk ∧ !s.clk.tripped then
    if pass then
      let s := s.modClk fun k => { k with unlocked := mset false k.unlocked i false, attempts := mset 0 k.attempts i 0 }
      .next (if i < 120 then s.modCluster i fun x => { x with bypass := false } else s)
    else
      let s := s.modClk fun k => { k with attempts := mset 0 k.attempts i (n + 1) }
      if n + 1 < 5 then .next s
      else
        let s := s.modClk fun k => { k with lockFail := k.lockFail ||| BitVec.ofNat 150 (2 ^ i) }
        let s := (s.bookEntry 0x30 0xF 0 0 (leBytes 1 i ++ leBytes 1 5 ++ leBytes 2 0 ++ leInt ppm)).historyAdd 4 i
        .next (s.lockFailed i)
  else .next s

/-- PLL_MONITOR_WINDOW: PLL `i` was `ppm` off over a monitor window: outside ±0.5 % it is an excursion, and a compute PLL's cluster goes to
fabric bypass (R511, R512). -/
def execPllMonitorWindow (i : Nat) (ppm : Int) (s : State) : Out :=
  if i < 150 ∧ !(mget false s.clk.unlocked i) ∧ s.clk.refclk ∧ (5000 < ppm ∨ ppm < -5000) then
    let comp := decide (i < 120)
    let s := s.modClk fun k => { k with excur := k.excur ||| BitVec.ofNat 150 (2 ^ i) }
    let s := s.bookEntry 0x31 0xF 0 0 (leBytes 1 i ++ leBytes 1 (bitAt comp 0) ++ leBytes 2 0 ++ leInt ppm)
    .next (if comp then
        (s.modCluster i fun x => { x with bypass := true }).modClk fun k => { k with
          unlocked := mset false k.unlocked i true, attempts := mset 0 k.attempts i 5 }
      else s)
  else .next s

/-! ### Power domains (R517 to R519) -/

/-- The tiles of some bays answer no access (R519). -/
def State.killBays (s : State) (bs : List Nat) : State :=
  bs.foldl (fun (s : State) b => (bayTiles b).foldl (fun (s : State) t => s.modTile t fun x => { x with dead := true }) s) s

/-- The codes with which a partition may fault: class P of R438. -/
def partitionCodes : List Nat := [0x10, 0x11, 0x12, 0x20, 0x21, 0x22, 0x23, 0x24, 0x30, 0x31, 0x32, 0x40]

/-- The code of a shared resource's fault: one of R438's, which one is free (R457). -/
def sharedCode (resource : Nat) : Nat := partitionCodes.getD (Config.sharedFaultCode resource % 12) 0x30

/-- A fault of a shared resource: 0 capstan, 1 link-die crossing, 2 PCIe controller: a partition fault to each partition with work in flight
on it, FLT_STICKY.SHARED, and one SHARED_FAULT entry (R457). -/
def State.sharedFault (s : State) (resource index : Nat) (busy : Nat → Bool) : State :=
  let ps := s.existing.filter busy
  let s := ps.foldl (fun (s : State) p => (s.partFault p (sharedCode resource) true 0 0).sticky p 7) s
  s.bookEntry 0x0F 0xF 0 0 (leBytes 1 resource ++ leBytes 1 index ++ leBytes 2 (maskOf ps))

/-- Link `n` is lost at once: its other links take over what it carried, and with its group down the written spread-spectrum setting takes
effect (R281, R284, R294, R519). -/
def State.loseLink (s : State) (n : Nat) : State :=
  let l := s.link n
  let was := decide (l.state ≠ .down) && decide (l.state ≠ .disabled)
  let s := (s.dropLink n fun x => { x with
    state := .down, found := false, identified := false, leftUp := some (l.leftUp.getD s.time) }).takeSsc (n / 4)
  if was then s.peerLost n else s

/-- What follows when the regulator of domain `d` turns it off (R519). -/
def State.domainLost (s : State) (d : Nat) : State :=
  let die := d / 41
  let l := d % 41
  if d < 164 then
    if l < 30 then
      (((bayTiles (clusterBay (30 * die + l))).filter fun t => decide (clusterOf t = 30 * die + l)).foldl
        (fun (s : State) t => s.modTile t fun x => { x with dead := true }) s).modCluster (30 * die + l) fun x => { x with retry := true }
    else
      let bs := if l < 39 then [3 * die + l % 3] else [3 * die, 3 * die + 1, 3 * die + 2]
      (s.killBays bs).loseBays bs
  else if d < 180 then (List.range 4).foldl (fun (s : State) j => s.loseLink (4 * ((d - 164) % 8) + j)) s
  else if d < 188 then
    s.sharedFault 0 (d - 180) fun p => (s.part p).colls.any fun c => decide (c.entry % 4 = (d - 180) % 4)
  else
    let s := if d < 190 then s.sharedFault 1 (d - 188) fun _ => true else { (s.sharedFault 2 (d - 190) fun _ => true) with dlUp := false }
    s.loseBays (List.range 12)

/-- REGULATOR_FAULT: overcurrent (0), undervoltage (1) or overvoltage (2) on domain `d`: its regulator turns it off (R519). -/
def execRegulatorFault (d kind : Nat) (s : State) : Out :=
  if d < 192 ∧ kind < 3 ∧ s.domainState d ≠ 0 ∧ s.domainState d ≠ 3 then
    let s := (s.setDomain d 3).bookEntry 0x36 0xF 0 0 (leBytes 2 d ++ leBytes 1 kind ++ leBytes 1 0)
    .next ((s.historyAdd 5 d).domainLost d)
  else .next s

/-- The bay of a gated domain (R517). -/
def domainBay (d : Nat) : Nat := if d % 41 < 30 then clusterBay (30 * (d / 41) + d % 41) else 3 * (d / 41) + d % 41 - 30

/-- DOMAIN_GATE: a cluster or bay-fabric domain whose bay has belonged to no partition for 10 s is gated, and loses its contents (R518). -/
def execDomainGate (d : Nat) (s : State) : Out :=
  let b := domainBay d
  if isGated d && decide (s.domainState d = 1) && (s.ownerOfBay b).isNone
      && decide ((mget 0 s.clk.freeSince b).toNat + 10 * 100000000 ≤ s.time.toNat) && !s.check.running then
    let c := 30 * (d / 41) + d % 41
    let s := s.setDomain d 0
    .next (if d % 41 < 30 then { s with tiles := s.tiles.filter fun e => decide (clusterOf e.1 ≠ c) }
      else { s with engines := mclear s.engines (4 * b) (4 * b + 4) })
  else .next s

/-! ### Benchmarks and levelling (R527 to R532) -/

/-- Benchmark `b`. -/
def State.benchOf (s : State) (b : Nat) : Bench := mget Bench.zero s.clk.bench b

/-- The median of six numbers: the mean of the two in the middle (R528). -/
def medianOf (l : List Int) : Int :=
  let m := sortBy (fun a b => decide (a ≤ b)) l
  (m.getD 2 0 + m.getD 3 0) / 2

/-- A benchmark's drift in 0.01 %: 0 until it has six valid samples (R528). -/
def Bench.drift (x : Bench) : Int := if x.drifts.length < 6 then 0 else medianOf (x.drifts.take 6)

/-- The first benchmark of cluster `c` (R527). -/
def clusterBench (c : Nat) : Nat := 64 * (c / 30) + 2 * (c % 30)

/-- D_c in 0.01 % (R528). -/
def State.driftOf (s : State) (c : Nat) : Nat :=
  (max (s.benchOf (clusterBench c)).drift (s.benchOf (clusterBench c + 1)).drift).toNat

/-- One sample of benchmark `b`: valid within 40–90 °C and 650–850 mV; its drift against the factory baseline (R527, R528). -/
def Bench.sample (x : Bench) (b raw mv temp : Nat) : Bench :=
  let x := { x with samples := min 0xFFFF (x.samples + 1) }
  if 160 ≤ temp ∧ temp ≤ 360 ∧ 650 ≤ mv ∧ mv ≤ 850 then
    let s0 : Int := Config.baseline b
    let d := (s0 - Config.speed b raw mv temp) * 10000 / s0
    { x with drifts := (d :: x.drifts).take 6 }
  else { x with invalid := x.invalid + 1 }

/-- BENCHMARK_SAMPLE: BENCH measures benchmarks: number, raw count, mV and temperature; none while Trim is down. A rise of more than 0.8
points since the last levelling asks for one; a worn link die is reported (R491, R527 to R529, R532). -/
def execBenchmarkSample (l : List (Nat × Nat × Nat × Nat)) (s : State) : Out :=
  if !s.trimCanRun ∨ !s.mast.trimUp then .next s
  else
    let s := (l.filter fun e => decide (e.1 < 264)).foldl (fun (s : State) (e : Nat × Nat × Nat × Nat) =>
      s.modClk fun k => { k with bench := mmod Bench.zero k.bench e.1 fun x => x.sample e.1 e.2.1 e.2.2.1 e.2.2.2 }) s
    let s := if (List.range 120).any fun c => decide ((s.cluster c).driftLevel + 80 < s.driftOf c) then s.wantLevel 2 else s
    .next (if (List.range 8).any fun j => decide (600 < (s.benchOf (256 + j)).drift) then
      s.modClk fun k => { k with lifEvents := k.lifEvents ||| 16 } else s)

/-- The daily record: every benchmark's drift and the day's maxima per die (R534). -/
def State.dailyRecord (s : State) : List Byte :=
  let b := ((List.range 264).map fun b => leBytes 2 (BitVec.ofInt 16 (s.benchOf b).drift).toNat).flatten
    ++ ((List.range 6).map fun d => leBytes 2 (mget 0 s.clk.dayMax d)).flatten ++ leBytes 480 0
  b ++ leBytes 4 (crc32 b).toNat

/-- LIFETIME_STATUS_RECORD: an operating hour ends: a status record is written, and a daily record with every 24th; while Trim is down the
counts wait in its journal (R491, R534). -/
def execLifetimeStatusRecord (s : State) : Out :=
  if !s.trimCanRun ∨ !s.mast.trimUp then .next s
  else
    let s := s.writeStatus.lifeAdd 0x1000 1
    .next (if mget 0 s.clk.life 0x1000 % 24 = 0 then
      let r := s.dailyRecord
      s.modClk fun k => { k with daily := (r :: k.daily).take 2560, dayMax := [] }
    else s)

/-- A point of a margin table in the levelling log: MHz ÷ 25 and mV − 550. -/
def pointBytes (e : Nat × Nat) : List Byte := leBytes 2 (e.1 / 25 * 512 + (e.2 - 550) % 512)

/-- Cluster `c` takes its new table: a LEVEL entry and a record of the levelling log where it changed (R530, R531). -/
def State.levelCluster (s : State) (c trigger : Nat) : State :=
  let d := s.driftOf c
  let old := s.marginTable c
  let new := marginPlan c d
  let mask := maskOf ((List.range 8).filter fun k => decide (old.getD k (0, 0) ≠ new.getD k (0, 0)))
  let s := s.modCluster c fun x => { x with table := new, driftLevel := d }
  if mask = 0 then s
  else
    let p := leBytes 1 c ++ leBytes 1 mask ++ leBytes 2 (old.getD 0 (0, 0)).2 ++ leBytes 2 (new.getD 0 (0, 0)).2 ++ leBytes 2 (old.getD 0 (0, 0)).1
      ++ leBytes 2 (new.getD 0 (0, 0)).1 ++ leBytes 2 d ++ leBytes 1 trigger
    let r := p ++ (old.map pointBytes).flatten ++ (new.map pointBytes).flatten ++ leBytes 15 0
    (s.bookEntry 0x37 0xF 0 0 p).modClk fun k => { k with
      levelLog := ((r ++ leBytes 4 (crc32 r).toNat) :: k.levelLog).take 8192, levelChanged := k.levelChanged + 1 }

/-- A cluster's P0 is capped or merged: it no longer runs at 1,800 MHz (R530). -/
def State.cappedP0 (s : State) (c : Nat) : Bool := decide (((s.marginTable c).getD 0 (0, 0)).1 ≠ pointMhz 0)

/-- Levelling has scheduled retirements: of a partition that would be left below TILES_NEEDED, Tack warps the member to the gang's armed hot
spare first (R381, R532). -/
def State.askSpare (s : State) (p : Nat) : State :=
  let x := s.part p
  match x.image with
  | none => s
  | some im =>
    let due := (s.check.pending ++ s.check.backlog).filter fun r => x.bays.contains (bayOf r.phys)
    let c := ((due.map Retire.tiles).flatten).foldl DevCheck.retire s.check
    if due.isEmpty ∨ im.tilesNeeded ≤ (c.remapOf (x.bays.filter s.bayUp)).length then s
    else s.tackWarp p s.member (x.variant.getD 0)

/-- LEVELLING_START: the first trigger is served: every cluster's table is planned anew, written and adopted; clusters beyond 6 % are scheduled
for retirement; a status record is written (R529 to R532, R534). -/
def execLevellingStart (s : State) : Out :=
  match s.clk.levelWant with
  | [] => .next s
  | trigger :: rest =>
    if !s.trimCanRun ∨ !s.mast.trimUp then .next s
    else
      let s := s.modClk fun k => { k with levelWant := rest, lastTrigger := trigger, levelChanged := 0, levelAt := k.opMs }
      let s := (List.range 120).foldl (fun (s : State) c => s.levelCluster c trigger) s
      let worn := (List.range 120).filter fun c => decide (600 < s.driftOf c)
      let tiles := (worn.map fun c => (s.check.bayEnabled (clusterBay c)).filter fun t => decide (clusterOf t = c)).flatten
      let ev := (if s.clk.levelChanged = 0 then 0 else 1) + (if (List.range 120).any s.cappedP0 then 4 else 0) + (if worn.isEmpty then 0 else 8)
      let s := (s.modClk fun k => { k with lifEvents := k.lifEvents ||| BitVec.ofNat 5 ev }).lifeAdd 0x920 1
      let s := tiles.foldl (fun (s : State) t => s.schedule t 2) s
      .next (s.existing.foldl State.askSpare s).takePoints.writeStatus

/-! ### The calendar (R536, R537) -/

/-- (Δdevice − ΔUTC) ÷ ΔUTC in 0.1 ppm, to the nearest (R537 rule 4, R540). -/
def refPpmOf (dDev dUtc : Int) : W32 :=
  let n := (dDev - dUtc) * 10000000
  BitVec.ofInt 32 ((2 * n + dUtc) / (2 * dUtc))

/-- The SET_TIMEs that later ones are compared with: the newest at least 1 hour of UTC before, and those after it. -/
def keepTimes (utc : W64) : List (W64 × W64) → List (W64 × W64)
  | [] => []
  | e :: r => if (3600000000000 : Int) ≤ (utc.toNat : Int) - e.1.toNat then [e] else e :: keepTimes utc r

/-- The device takes UTC with an uncertainty (R537): step, REFPPM, TIME_SET entry, time log, and a declaration to the Cadastre (R560). -/
def State.setTime (s : State) (utc : W64) (unc : W32) : State :=
  let k := s.clk
  let step := if k.utcValid then utc - k.estimate s.time else Config.firstStep
  let hist := keepTimes utc k.utcHist
  let ppm := match hist.getLast? with
    | some e =>
      if (3600000000000 : Int) ≤ (utc.toNat : Int) - e.1.toNat then
        refPpmOf (10 * ((s.time.toNat : Int) - e.2.toNat)) ((utc.toNat : Int) - e.1.toNat)
      else k.refPpm
    | none => k.refPpm
  let p := leBytes 8 utc.toNat ++ leBytes 8 step.toNat ++ leBytes 4 unc.toNat ++ leBytes 4 ppm.toNat
  let r := p ++ leBytes 4 0
  let s := s.modClk fun k => { k with
    utcValid := true, utcStale := false, utc := utc, utcAt := s.time, utcHist := (utc, s.time) :: hist, refPpm := ppm
    timeLog := ((r ++ leBytes 4 (crc32 r).toNat) :: k.timeLog).take 8192 }
  (s.bookEntry 0x38 0xF 0 0 p).declare (.utc utc unc)

/-- SET_TIME: UTC in ns and its uncertainty in µs (R415, R537). -/
def setTimeEffect (p : Nat) (c : Cmd) (s : State) : State :=
  (s.setTime (BitVec.ofNat 64 (c.arg 0 8)) (BitVec.ofNat 32 (c.arg 8 4))).finish p c.key 0 0 0

/-- SET_TIME: command `key` of partition `p`. -/
def execSetTime (p key : Nat) (s : State) : Out := s.startCmd p key 0x21 (setTimeEffect p)

/-- UTC_STALE: 2 hours have passed without a SET_TIME (R537). -/
def execUtcStale (s : State) : Out :=
  if s.clk.utcValid ∧ s.clk.utcAt.toNat + 7200 * 100000000 ≤ s.time.toNat then .next (s.modClk fun k => { k with utcStale := true })
  else .next s

/-! ### The shadow and the sensors (R489, R499, R539 to R544) -/

/-- The PLL bits set in a mask. -/
def pllCount (m : BitVec 150) : Nat := ((List.range 150).filter fun i => m.getLsbD i).length

/-- PWR_CLUSTERc (R541). -/
def State.clusterWord (s : State) (c : Nat) : Nat :=
  let x := s.cluster c
  let (f, v) := s.clusterRun c
  s.pointOf c * 2 ^ 61 + bitAt x.bypass 60 + bitAt (decide (x.stops ≠ 0)) 59 + tableMax (s.marginTable c) * 2 ^ 56 + f % 4096 * 2 ^ 44
    + v % 4096 * 2 ^ 32 + x.temp % 1024 * 2 ^ 22

/-- The hottest cluster, the lowest number of several. -/
def State.hottest (s : State) : Nat :=
  (List.range 120).foldl (fun b c => if (s.cluster b).temp < (s.cluster c).temp then c else b) 0

/-- A word of CLK_, PWR_ or THM_ as Trim would write it to the shadow now, by its offset in the block (R539 to R542). -/
def State.clkWord (s : State) (off : Nat) : Nat :=
  let k := s.clk
  let hi := decide (off % 8 = 4)
  if off = 0 then
    bitAt k.refclk 31 + bitAt k.utcValid 30 + bitAt k.utcStale 29 + pllCount k.lockFail % 256 * 256
      + (k.clusters.filter fun e => e.2.bypass).length % 256
  else if off = 4 then k.ssc
  else if off = 8 ∨ off = 0xC then half s.time hi
  else if off = 0x10 ∨ off = 0x14 then half (k.estimate s.time) hi
  else if off = 0x18 then k.refPpm.toNat
  else if off = 0x1C then k.mon.toNat
  else if off = 0x20 then bitAt k.measDone 30 + k.measLog2 * 256 + k.measPll
  else if off = 0x24 then k.measCount.toNat
  else if 0x40 ≤ off ∧ off < 0x54 then k.lockFail.toNat / 2 ^ (8 * (off - 0x40)) % 2 ^ 32
  else if 0x60 ≤ off ∧ off < 0x74 then k.excur.toNat / 2 ^ (8 * (off - 0x60)) % 2 ^ 32
  else if off = 0x100 then k.devCap
  else if off = 0x104 then min 0xFFFF s.devPower
  else if off = 0x108 then bitAt k.throttleIn 31 + bitAt k.devCapped 30 + k.partCapped.toNat
  else if 0x140 ≤ off ∧ off < 0x170 then
    let p := (off - 0x140) / 4
    (mget 0 k.partCap p).toNat + min 0xFFFF (s.partPower p)
  else if 0x200 ≤ off ∧ off < 0x500 then
    let d := (off - 0x200) / 4
    s.domainState d * 2 ^ 30 + min 0xFFFF (mget 0 k.power d)
  else if 0x800 ≤ off ∧ off < 0xBC0 then half (BitVec.ofNat 64 (s.clusterWord ((off - 0x800) / 8))) hi
  else if off = 0xC00 then bitAt k.modelReady 31 + s.hottest * 2 ^ 24 + (s.cluster s.hottest).temp % 1024 * 2 ^ 14
  else if off = 0xC04 then k.tripSource * 16 + k.thmSticky.toNat
  else if off = 0xC08 then mget 0 k.linkTemp 1 * 2 ^ 16 + mget 0 k.linkTemp 0
  else if 0xC40 ≤ off ∧ off < 0xC70 then
    let n := (off - 0xC40) / 4
    bitAt (k.refresh2x.getLsbD n) 10 + mget 0 k.hbmTemp n
  else 0

/-- LIF_CLUSTERc (R544). -/
def State.lifCluster (s : State) (c : Nat) : Nat :=
  let p0 := (s.marginTable c).getD 0 (0, 0)
  let n := max (s.benchOf (clusterBench c)).drifts.length (s.benchOf (clusterBench c + 1)).drifts.length
  s.driftOf c % 4096 * 2 ^ 52 + (s.cluster c).driftLevel % 4096 * 2 ^ 40 + p0.1 % 2048 * 2 ^ 29 + p0.2 % 1024 * 2 ^ 19
    + mget 0 s.clk.life (0x8A8 + c) % 32 * 2 ^ 14 + n % 8 * 2 ^ 11

/-- A word of LIF_ as Trim would write it to the shadow now, by its offset in the block (R543, R544). -/
def State.lifWord (s : State) (off : Nat) : Nat :=
  let k := s.clk
  let hi := decide (off % 8 = 4)
  if off = 4 then k.lastTrigger * 2 ^ 28
  else if off = 8 then k.auxMs / 3600000
  else if off = 0xC then k.opMs / 3600000
  else if off = 0x10 then
    mget 0 k.life 0x920 % 65536 * 2 ^ 16 + k.levelChanged % 256 * 256 + ((List.range 120).filter s.cappedP0).length
  else if off = 0x14 then k.levelAt / 3600000
  else if off = 0x18 then k.lifEvents.toNat
  else if off = 0x1C then ((List.range 6).map fun d => mget 0 k.life (0x440 + 4 * d)).foldl (· + ·) 0
  else if 0x400 ≤ off ∧ off < 0x7C0 then half (BitVec.ofNat 64 (s.lifCluster ((off - 0x400) / 8))) hi
  else if 0x800 ≤ off ∧ off < 0xC20 then
    let x := s.benchOf ((off - 0x800) / 4)
    (BitVec.ofInt 12 x.drift).toNat * 2 ^ 20 + x.samples
  else if 0x10000 ≤ off ∧ off < 0x11000 then
    match k.status with | r :: _ => leNat ((r.drop (off - 0x10000)).take 4) | [] => 0
  else 0

/-- A word of the blocks that Trim serves, by its BAR0 offset. -/
def State.trimWord (s : State) (off : Nat) : W32 :=
  BitVec.ofNat 32 (if off / 0x100000 = 6 then s.clkWord (off % 0x100000) else s.lifWord (off % 0x100000))

/-- The BAR0 offsets of the shadow's words (R539, R543). -/
def shadowOffsets : List Nat :=
  (List.range 800).map (fun i => 0x600000 + 4 * i) ++ (List.range 800).map (fun i => 0x900000 + 4 * i)
    ++ (List.range 1024).map fun i => 0x910000 + 4 * i

/-- What a read of the shadow finds: Trim's last words, and those of now before Trim has written any (R489). -/
def State.shadowWord (s : State) (off : Nat) : W32 :=
  if s.mast.shadow.isEmpty then s.trimWord off else mget 0 s.mast.shadow off

/-- The value of a platform sensor (R499). -/
def State.sensorValue (s : State) (id : Nat) : Nat :=
  if id = 1 then s.devPower / 10
  else if 2 ≤ id ∧ id < 8 then s.dieTemp (id - 2) / 4
  else if 8 ≤ id ∧ id < 20 then mget 0 s.clk.hbmTemp (id - 8) / 4
  else if 20 ≤ id ∧ id < 32 then s.partPower (id - 20) / 10
  else if id = 32 then ((List.range 32).filter fun n => decide ((s.link n).state = .up)).length
  else if id = 33 then s.check.retired.length
  else if id = 34 then s.fwState
  else 0

/-- The threshold state of a sensor: 0 normal, 1 warning, 2 critical, 3 fatal (R499, R524). -/
def State.sensorLevel (s : State) (id : Nat) : Nat :=
  if id = 1 then if 22000 < s.devPower then 2 else if overCap s.devPower s.clk.devCap then 1 else 0
  else if 2 ≤ id ∧ id < 8 then
    let t := s.dieTemp (id - 2)
    if 460 ≤ t then 3 else if 420 ≤ t then 2 else if 400 ≤ t then 1 else 0
  else if 8 ≤ id ∧ id < 20 then
    let t := mget 0 s.clk.hbmTemp (id - 8)
    if 420 ≤ t then 3 else if 380 ≤ t then 2 else if 360 ≤ t then 1 else 0
  else if 20 ≤ id ∧ id < 32 then if overCap (s.partPower (id - 20)) (s.capOf (id - 20)) then 1 else 0
  else 0

/-- A sensor that has crossed a threshold reports it (R499). -/
def State.sensorStep (s : State) (id : Nat) : State :=
  let l := s.sensorLevel id
  if l = mget 0 s.mast.sensors id then s
  else (s.modMast fun m => { m with sensors := mset 0 m.sensors id l }).pldmPush id l

/-- SENSOR_SHADOW_UPDATE: SENSORS writes the shadow and the sensor values (R489, R499). -/
def execSensorShadowUpdate (s : State) : Out :=
  if !s.trimCanRun ∨ !s.mast.trimUp then .next s
  else
    let m : SMap W32 := (shadowOffsets.map fun o => (o, s.trimWord o)).filter fun e => decide (e.2 ≠ 0)
    .next ((List.range 31).foldl (fun (s : State) i => s.sensorStep (i + 1)) (s.modMast fun x => { x with shadow := m }))

/-- PLDM_PLATFORM_REQUEST: a sensor is read, a PDR is read, or the oldest pending event is read, which releases MGMT_ALERT# when no other
is pending (R498, R499). Message codes are those of DSP0248 (PRESUMED, log 101). -/
def execPldmPlatformRequest (q : PlatformReq) (s : State) : Out :=
  match q with
  | .sensor id =>
    .next (s.send (.mctp 0x11 (if 1 ≤ id ∧ id ≤ 34 then
      leBytes 1 0 ++ Config.standardReply 0x11 [id, s.sensorValue id, s.sensorLevel id] else leBytes 1 0x80)))
  | .pdr r => .next (s.send (.mctp 0x51 (leBytes 1 0 ++ Config.standardReply 0x51 [r])))
  | .event =>
    match s.mast.events with
    | [] => .next (s.send (.mctp 0x0B (leBytes 1 0 ++ Config.standardReply 0x0B [])))
    | e :: rest => .next ((s.modMast fun m => { m with events := rest }).send (.mctp 0x0B (leBytes 1 0 ++ Config.standardReply 0x0B [e.1, e.2])))

end Sys2Proof.Machine
end

