-- ==== Sys2Proof/Machine/Control.lean ====
section
/-! DEFINITION. The control instructions BR to TRAP and instruction fetch (R65, R93 to R96). -/

namespace Sys2Proof.Machine

/-- Fields every control encoding fixes (R93). -/
def controlForm (w : IWord) : Bool := decide (scOf w = 0x80) && decide (xlOf w = 0) && decide (flagsOf w = 0)

/-- A taken branch (R65, R94): the target must be aligned; the fetch buffer empties. -/
def State.branchTo (s : State) (t k : Nat) (w : IWord) (target : Nat) : State :=
  if target % 16 ≠ 0 then s.precise t k w cBounds (faultAddr 1 target)
  else s.modTile t fun x => (x.clearEcc 4 (64 * k + 32) 1).modStrand k fun v =>
    { v with pc := BitVec.ofNat 32 target, fbuf := [], sched := .ready }

/-- The target of BR and CALL: base plus IMM modulo 2^32, base SA or PC (R93). -/
def Tile.branchTarget (x : Tile) (k : Nat) (w : IWord) : Nat :=
  let base := if xtOf w = 1 then (x.strand k).pc.toNat else (x.src k w (saOf w)).toNat
  (base + (immOf w).toNat) % 2 ^ 32

/-- SA of BR and CALL: the base register, unused and so 0x80 when the base is PC (R84, R93). -/
def branchBase (w : IWord) : Bool := srcOk (saOf w) && (decide (xtOf w = 0) || decide (saOf w = 0x80))

/-- Decode check of BR (R88, R93). -/
def brOk (w : IWord) : Bool :=
  controlForm w && decide (xtOf w ≤ 1) && branchBase w && decide (sdOf w = 0x80) && decide (sbOf w = 0x80)

/-- BR (R93, R94). -/
def execBr (t k : Nat) (b : IBody) (s : State) : Out :=
  let w := wordOf 0x20 b
  s.issue t k w (brOk w) fun s => s.branchTo t k w ((s.tile t).branchTarget k w)

/-- Decode check of BRC (R88, R93). -/
def brcOk (w : IWord) : Bool :=
  let fp := decide (xtOf w / 32 = 1)
  decide (scOf w = 0x80) && decide (xlOf w = 0) && !(fl106 w) && !(fl104 w) && (!(fl105 w) || !fp)
    && decide (xtOf w < 64) && decide (sdOf w = 0x80) && srcOk (saOf w) && srcOk (sbOf w)

/-- BRC (R93, R94): the condition on the comparison of sa with sb, or on a field of the condition word. -/
def execBrc (t k : Nat) (b : IBody) (s : State) : Out :=
  let w := wordOf 0x21 b
  let fp := decide (xtOf w / 32 = 1)
  s.issue t k w (brcOk w) fun s =>
    let x := s.tile t
    let a := x.src k w (saOf w)
    let c := x.src k w (sbOf w)
    let f := if fp then fcmpFlags (BitVec.ofNat 32 a.toNat) (BitVec.ofNat 32 c.toNat)
      else (aluSub (opWidth (fl105 w)) a c).f
    if xor (condHolds (xtOf w % 16) f (x.delivered.strand k).cw) (decide (xtOf w / 16 % 2 = 1)) then
      s.branchTo t k w (((x.strand k).pc.toNat + (immOf w).toNat) % 2 ^ 32)
    else s.advance t k

/-- Decode check of CALL (R88, R93). -/
def callOk (w : IWord) : Bool :=
  controlForm w && decide (xtOf w ≤ 1) && branchBase w && dstOk (sdOf w) && decide (sbOf w = 0x80)

/-- CALL: the link is written and the branch taken; a misaligned target faults and writes nothing (R93, R94, R106). -/
def execCall (t k : Nat) (b : IBody) (s : State) : Out :=
  let w := wordOf 0x22 b
  s.issue t k w (callOk w) fun s =>
    let x := s.tile t
    let target := x.branchTarget k w
    if target % 16 ≠ 0 then s.branchTo t k w target
    else
      let link := BitVec.ofNat 64 ((x.strand k).pc + 16).toNat
      (s.setTile t (x.dst k (sdOf w) link)).branchTo t k w target

/-- Decode check of RET (R88, R93). -/
def retOk (w : IWord) : Bool :=
  controlForm w && decide (xtOf w = 0) && regOk (saOf w) && decide (sdOf w = 0x80) && decide (sbOf w = 0x80)
    && decide (immOf w = 0)

/-- RET (R93, R94). -/
def execRet (t k : Nat) (b : IBody) (s : State) : Out :=
  let w := wordOf 0x23 b
  s.issue t k w (retOk w) fun s => s.branchTo t k w (((s.tile t).src k w (saOf w)).toNat % 2 ^ 32)

/-- Decode check of YIELD (R88, R93). -/
def yieldOk (w : IWord) : Bool :=
  controlForm w && decide (xtOf w = 0) && decide (sdOf w = 0x80) && decide (saOf w = 0x80)
    && decide (sbOf w = 0x80) && decide (immf w 63 16 = 0)

/-- YIELD: WAITING for max(1, imm[15:0]) cycles (R95). -/
def execYield (t k : Nat) (b : IBody) (s : State) : Out :=
  let w := wordOf 0x24 b
  s.issue t k w (yieldOk w) fun s =>
    (s.advance t k).modStrand t k fun v => { v with sched := .waiting (.yield (max 1 (immf w 15 0))) }

/-- YIELD_EXPIRY: the cycles of a YIELD have passed and the strand may be READY again (R95). -/
def execYieldExpiry (t k : Nat) (s : State) : Out :=
  match ((s.tile t).strand k).sched with
  | .waiting (.yield _) =>
    if (s.tile t).frozen then .next s else .next (s.modStrand t k fun v => { v with sched := .ready })
  | _ => .next s

/-- Decode check of HALT (R88, R93). -/
def haltOk (w : IWord) : Bool :=
  controlForm w && decide (xtOf w = 0) && decide (sdOf w = 0x80) && decide (saOf w = 0x80)
    && decide (sbOf w = 0x80) && decide (immOf w = 0)

/-- HALT: the strand is INACTIVE for the rest of the step (R95). -/
def execHalt (t k : Nat) (b : IBody) (s : State) : Out :=
  let w := wordOf 0x25 b
  s.issue t k w (haltOk w) fun s => (s.advance t k).modStrand t k fun v => { v with sched := .inactive }

/-- The TRAP_NOTIFY payload (R461). -/
def trapPayload (s : State) (t k : Nat) (w : IWord) : List Byte :=
  let x := s.tile t
  let v := x.strand k
  let logical := match s.partOf t with | some p => ((s.part p).logicalOf t).getD 0 | none => 0
  leBytes 2 (immf w 15 0) ++ leBytes 2 logical ++ leBytes 2 t ++ leBytes 2 k ++ leBytes 4 v.pc.toNat
    ++ leBytes 2 v.station.toNat ++ leBytes 2 0 ++ ((List.range 4).map fun r => leBytes 8 (mget 0 v.s r).toNat).flatten

/-- Decode check of TRAP (R88, R93). -/
def trapOk (w : IWord) : Bool :=
  controlForm w && decide (xtOf w ≤ 1) && decide (sdOf w = 0x80) && decide (saOf w = 0x80)
    && decide (sbOf w = 0x80) && decide (immf w 63 16 = 0) && decide (immf w 15 0 ≠ 0)

/-- TRAP (R96): FN[0] 0 writes a field-book entry and continues; FN[0] 1 raises ILLEGAL_INSTR with the trap number. -/
def State.trap (s : State) (t k : Nat) (b : IBody) : Out :=
  let w := wordOf 0x26 b
  s.issue t k w (trapOk w) fun s =>
    if xtOf w = 0 then (s.bookEntry 0x03 ((s.partOf t).getD 0xF) 0 0 (trapPayload s t k w)).advance t k
    else s.tileFault t ⟨cIllegal, true, false, some k, ((s.tile t).strand k).pc, w, faultAddr 0 0, immf w 15 0, 0⟩

/-- TRAP NOTIFY (R96). -/
def execTrapNotify (t k : Nat) (b : IBody) (s : State) : Out := s.trap t k b

/-- TRAP FAULT (R96). -/
def execTrapFault (t k : Nat) (b : IBody) (s : State) : Out := s.trap t k b

/-- The four instruction words of the 64-byte line that holds address `a`, from `a` on (R65). -/
def Tile.fetchWords (x : Tile) (a : Nat) : List IWord :=
  (List.range (4 - a % 64 / 16)).map fun j => BitVec.ofNat 128 (leNat (x.tsRead (a + 16 * j) 16))

/-- A word whose opcode is reserved or illegal raises ILLEGAL_INSTR when its strand would issue it (R85, R88). -/
def State.reservedWord (s : State) (t k : Nat) (w : IWord) : State :=
  if opcReserved (opcOf w) && s.canIssue t k w then s.precise t k w cIllegal (faultAddr 0 0) else s

/-- INSTRUCTION_FETCH: the control core refills the strand's fetch buffer with the 64-byte line of its PC (R57, R61,
R65); a PC outside tile store faults on fetch (R56, R94); a word the strand is to run next whose opcode is reserved or
illegal is a decode fault (R85, R88). -/
def execInstructionFetch (t k : Nat) (s : State) : Out :=
  let x := s.tile t
  let v := x.strand k
  if x.frozen || !v.started || (match v.sched with | .waiting r => r.blocks | _ => false) then .next s
  else
    let v := x.delivered.strand k
    let a := v.pc.toNat
    let fetchFault (s : State) (code : Nat) (at' detail : W64) : State :=
      s.tileFault t ⟨code, true, true, some k, v.pc, 0, at', 0, detail⟩
    match v.nextWord with
    | some w => .next (s.reservedWord t k w)
    | none =>
      if (x.badWord [(4, 64 * k + 32)]).isSome then .next (fetchFault (s.countEcc t 4 (64 * k + 32) 1 (some k)) cEcc (faultAddr 0 0) (detailOf 4 0 0 0))
      else if 0x100000 ≤ a then .next (fetchFault s cBounds (faultAddr 1 a) 0)
      else
        let n := 16 - a % 64 / 4
        let bad := x.firstBad 0 (a / 4) n
        let s := (s.countEcc t 4 (64 * k + 32) 1 (some k)).countEcc t 0 (a / 4) n (some k)
        match bad with
        | some i => .next (fetchFault s cEcc (faultAddr 1 (4 * (a / 4 + i))) (detailOf 0 0 0 0))
        | none =>
          let ws := x.fetchWords a
          let s := s.modTile t fun y => (y.clearEcc 4 (64 * k + 34) 16).modStrand k fun c =>
            { c with fbase := v.pc, fbuf := ws, sched := .ready }
          match ws.head? with
          | some w => .next (s.reservedWord t k w)
          | none => .next s

end Sys2Proof.Machine
end

