-- ==== Sys2Proof/Machine/Package.lean ====
section
/-! DEFINITION. Power-up in two phases, resets from outside, JTAG and the loop-backs (R405, R406, R577 to R598). -/

namespace Sys2Proof.Machine

/-- Change the package state by `f`. -/
def State.modPkg (s : State) (f : Pkg → Pkg) : State := { s with pkg := f s.pkg }

/-! ### Resets (R405, R406) -/

/-- FLR: of function 0 a device reset, after which the main phase runs again; of function p + 1 a reset of the partition it presents (R405,
R406, R586). -/
def execFlr (fn : Nat) (s : State) : Out :=
  if fn = 0 then .next s.deviceReset.startMain
  else if fn ≤ 12 ∧ !(s.part (fn - 1)).isDevice then .next (s.beginReset (fn - 1) 1)
  else .next s

/-- PERST_ASSERT: a device reset; the PCIe link is down, an update breaks off, a pending image is activated (R406, R495, R496). -/
def execPerstAssert (s : State) : Out :=
  if s.pkg.perst ∨ !s.pkg.auxUp then .next s
  else
    let s := { s.deviceReset with dlUp := false }
    .next (s.modPkg fun k => { k with perst := true, scanStop := false }).perstMast

/-- PERST_DEASSERT: the rails are up; TEST_MODE is sampled, and the main phase begins once the Masthead is ready (R578, R580, R583). -/
def execPerstDeassert (mode : Nat) (s : State) : Out :=
  if !s.pkg.perst ∨ !s.pkg.auxUp then .next s
  else .next (s.modPkg fun k => { k with perst := false, mode := mode % 4, pwrGood := !k.seqHold && !s.clk.tripped }).startMain

/-- PWR_GOOD_FALL: PWR_GOOD falls: with PERST# deasserted a device reset (R581). -/
def execPwrGoodFall (s : State) : Out :=
  if !s.pkg.pwrGood then .next s
  else
    let s := if s.pkg.perst then s else { s.deviceReset with dlUp := false }
    .next (s.modPkg fun k => { k with pwrGood := false })

/-- SEQUENCE_FAULT: a main rail rises out of order: every main domain is held in reset (R581). -/
def execSequenceFault (s : State) : Out :=
  if !s.pkg.auxUp then .next s
  else
    let s := { s.deviceReset with dlUp := false }
    .next (s.modPkg fun k => { k with sticky := k.sticky ||| 1, seqHold := true, pwrGood := false })

/-- VIN_MAIN_CYCLE: VIN_MAIN falls below 0.3 V and the rails rise again in order: a trip and a sequence-fault hold are released, and power-up
goes on as PERST# allows (R525, R581, R586). -/
def execVinMainCycle (s : State) : Out :=
  if !s.pkg.auxUp then .next s
  else
    let s := { s.deviceReset with dlUp := false }
    let s := s.modClk fun k => { k with tripped := false }
    .next (s.modPkg fun k => { k with seqHold := false, pwrGood := true }).startMain

/-! ### AUX power (R18, R459, R534, R547, R557, R582) -/

/-- AUX_POWER_LOSS: what is kept in flash, in fuses and in the Cadastre's store survives; the field book, sticky fields, the Cadastre's
buffer and the journals are lost (R18, R283, R459, R492, R534, R553, R564). -/
def execAuxPowerLoss (s : State) : Out :=
  if !s.pkg.auxUp then .next s
  else
    let s := s.breakUpdate.deviceReset
    let k := s.clk
    let m := s.mast
    let c := s.cad
    .next { State.reset with
      pending := s.pending, out := s.out, free := s.free, time := s.time, dlUp := false, tackUp := false
      links := mmap Link.reset (fun _ l => { Link.reset with cache := l.cache }) s.links
      check := { DevCheck.reset with
        pending := s.check.pending, backlog := s.check.backlog, retired := s.check.retired, spareFor := s.check.spareFor
        history := s.check.history, scheduled := s.check.scheduled }
      mast := { Mast.reset with
        trimUp := false, actPending := m.actPending, slotB := m.slotB, slotsAB := m.slotsAB, svnFloor := m.svnFloor, revoked := m.revoked }
      clk := { Clk.reset with
        refclk := false, clusters := mmap Cluster.reset (fun _ x => { Cluster.reset with table := x.table, driftLevel := x.driftLevel }) k.clusters
        modelReady := k.modelReady, modelLoops := k.modelLoops, levelChanged := k.levelChanged
        levelAt := k.levelAt, auxMs := mget 0 k.saved 0x10, opMs := mget 0 k.saved 0x14
        life := mset 0 (mset 0 k.saved 0x10 0) 0x14 0, saved := k.saved, status := k.status, daily := k.daily, levelLog := k.levelLog
        history := k.history, timeLog := k.timeLog }
      cad := { c with
        hold := [], droppedNow := 0, declSec := 0, sealDue := c.hold.any fun e => decide (e.length = 1), total := c.ckTotal, common := c.ckCommon
        hourTotal := 0, hourCommon := 0, hourAcc := 0, peak := 0, secTotal := 0, secCommon := 0, secMs := 0, secReg := 0, secVin := 0
        powerTotal := 0, powerCommon := 0, attrFault := false, badSecs := 0, goodSecs := 0, ssc := false, sscPpm := 0
        dropRecords := 0, dropDecl := 0, utc := none, devRecords := 0 }
      pkg := { Pkg.reset with
        auxUp := false, pwrGood := false, perst := true, mastReady := false, mainStart := none, ready := false, cadValid := false
        cadPass := false } }

/-- AUX_POWER_UP: the AUX phase: device time starts at 0; the Cadastre resumes meter time, checks its ROM, whose CRC reads `crc`, closes the
tenancies that loss of AUX left open at their checkpoints, and checks its converters, of which `rail` is worst by `ppm` (R536, R553, R557,
R562, R565, R582, R592). -/
def execAuxPowerUp (crc : W32) (rail ppm : Nat) (s : State) : Out :=
  if s.pkg.auxUp then .next s
  else
    let rom := decide (crc = Config.cadRomCrc)
    let pass := decide (ppm ≤ 1000)
    let s := { s with time := 0 }
    let s := s.modPkg fun k => { k with
      auxUp := true, cadValid := true, cadPass := pass, cadRail := rail % 17, cadPpm := min 0xFFFF ppm
      sticky := if pass then k.sticky else k.sticky ||| 8 }
    .next (s.modCad fun c =>
      let c := { c with meter := c.checkpoint, upAt := c.checkpoint, devRecords := 0, meterOk := rom, events := if rom then c.events else c.events + 1 }
      let c := if c.sealDue then { c.seal with sealDue := false } else c
      let c := c.event false 0x10 c.checkpoint.toNat 0
      let c := if rom then c else c.event false 0x04 crc.toNat Config.cadRomCrc.toNat
      c.open'.foldl (fun (c : Cad) p => c.close p 7 false true) c)

/-- MASTHEAD_READY: the boot ROM has verified an image and both cores run: the main phase may begin; in recovery mode it does not (R494,
R496, R497, R582). -/
def execMastheadReady (s : State) : Out :=
  if !s.pkg.auxUp ∨ s.pkg.mastReady ∨ !s.clk.refclk then .next s
  else
    let t := s
    let s := s.modMast fun m => { m with bootAt := s.time }
    let s := if s.mast.actPending then s.activate else s.startFrom s.mast.slotB
    if s.mast.recovery then .next (s.fwEvent t)
    else .next (((s.modMast fun m => { m with trimUp := true }).modPkg fun k => { k with mastReady := true }).fwEvent t).startMain

/-! ### The main phase (R583 to R585) -/

/-- HBM_TRAINING_TIMEOUT: stack `n` has not trained within 900 ms: its bay reports no tiles until PERST# (R585). -/
def execHbmTrainingTimeout (n : Nat) (s : State) : Out :=
  match s.pkg.mainStart with
  | none => .next s
  | some t =>
    if n < 12 ∧ !s.pkg.ready ∧ t.toNat + 900 * 100000 ≤ s.time.toNat then
      .next (s.modPkg fun k => { k with
        untrained := (k.untrained ++ [n]).eraseDups, hbmFail := k.hbmFail ||| BitVec.ofNat 12 (2 ^ n) })
    else .next s

/-- DEVICE_READY: the stacks are trained, the slowest in `hbmMs`, and zeroed, the fuses were read and checked; Tack serves the emulated
window, and configuration requests complete, unless in factory test mode (R484, R578, R583, R584). -/
def execDeviceReady (hbmMs : Nat) (fusesOk : Bool) (s : State) : Out :=
  match s.pkg.mainStart with
  | none => .next s
  | some t =>
    if s.pkg.ready ∨ !s.mainMayRun then .next s
    else
      let ms := min 0xFFFF ((s.time - t).toNat / 100000)
      let s := s.modPkg fun k => { k with
        ready := true, readyMs := ms, hbmMs := min 0xFFFF hbmMs, fusesBad := !fusesOk, sticky := if fusesOk then k.sticky else k.sticky ||| 2 }
      .next { s with
        tackUp := true
        dlUp := decide (s.pkg.mode = 0) && !(mget false s.clk.unlocked 149) && decide (s.domainState 190 = 1) && decide (s.domainState 191 = 1) }

/-- SCAN_EN_HIGH: SCAN_EN high outside factory test mode stops every compute and fabric clock until PERST# (R578). -/
def execScanEnHigh (s : State) : Out :=
  if s.pkg.mode = 0 then .next (s.modPkg fun k => { k with scanStop := true }) else .next s

/-! ### The test access port (R587 to R590) -/

/-- Is the test port powered? Its instruction register takes `f` of the package state. -/
def State.tap (s : State) (f : State → State) : Out := if s.pkg.auxUp then .next (f s) else .next s

/-- Load instruction `code`. -/
def State.loadIr (s : State) (code : Nat) : State := s.modPkg fun k => { k with ir := code }

/-- A guarded instruction that is not allowed acts as BYPASS (R589, R590). -/
def State.refuseIr (s : State) : State := s.modPkg fun k => { k with ir := 0xFF, jtagRefused := true }

/-- A guarded instruction takes the pins only while PERST# is asserted or in factory test mode; the device then stays in reset until PERST# is
deasserted again (R589). -/
def State.guardedIr (s : State) (code : Nat) : Out :=
  s.tap fun s =>
    if s.pkg.perst then s.loadIr code
    else if s.pkg.mode ≠ 0 then ({ s.deviceReset with dlUp := false }).loadIr code
    else s.refuseIr

/-- TRST: TRST# low or five TCK cycles with TMS high: the port is reset and IDCODE is loaded. -/
def execTrst (s : State) : Out := s.tap fun s => s.loadIr 0x01
/-- EXTEST. -/
def execExtest (s : State) : Out := s.guardedIr 0x00
/-- IDCODE: the 32-bit register is shifted out. -/
def execIdcode (s : State) : Out := s.tap fun s => (s.loadIr 0x01).send (.tdo 32 0x109099EB)
/-- SAMPLE/PRELOAD: always allowed; the pins keep working. -/
def execSamplePreload (s : State) : Out := s.tap fun s => s.loadIr 0x02
/-- CLAMP. -/
def execClamp (s : State) : Out := s.guardedIr 0x03
/-- HIGHZ. -/
def execHighz (s : State) : Out := s.guardedIr 0x04
/-- EXTEST_PULSE. -/
def execExtestPulse (s : State) : Out := s.guardedIr 0x05
/-- EXTEST_TRAIN. -/
def execExtestTrain (s : State) : Out := s.guardedIr 0x06
/-- IJTAG_ACCESS: in factory test mode, or while TST_JTAG.UNLOCK is 1 (R590). -/
def execIjtagAccess (s : State) : Out :=
  s.tap fun s => if (s.pkg.mode ≠ 0 ∧ !s.pkg.perst) ∨ s.pkg.unlock then s.loadIr 0x10 else s.refuseIr
/-- BYPASS: the one-bit register captures 0. -/
def execBypass (s : State) : Out := s.tap fun s => (s.loadIr 0xFF).send (.tdo 1 0)

/-- UNLOCK: a write of TST_JTAG.UNLOCK by the physical function; a 1 is ignored while a partition exists (R590, R597). -/
def execUnlock (value : Bool) (s : State) : Out :=
  if value && !s.existing.isEmpty then .next s else .next (s.modPkg fun k => { k with unlock := value })

/-! ### Loop-backs (R591 to R594, R597) -/

/-- Is a tenancy open? -/
def State.tenancyOpen (s : State) : Bool := s.existing.any fun p => decide ((s.part p).tenancy ≠ 0)

/-- PCIE_LOOPBACK: a write of TST_PCIELB with START: the loop runs, and the host's path is broken; with a tenancy open, or while one runs, the
write is ignored and REFUSED is set (R593, R597). -/
def execPcieLoopback (depth : Nat) (pattern : Bool) (duration : Nat) (s : State) : Out :=
  if s.tenancyOpen ∨ s.pkg.pcieLb.running.isSome then .next (s.modPkg fun k => { k with refused := true })
  else
    .next { (s.modPkg fun k => { k with pcieLb := { k.pcieLb with
      done := false, pass := false, errors := 0, depth := if 2 < depth then 0 else depth, pattern := pattern
      duration := min 60000 (max 1 duration), running := some s.time } }) with dlUp := false }

/-- PCIE_LOOPBACK_END: DURATION_MS have passed: the result waits in TST_PCIELB while the link retrains (R593). -/
def execPcieLoopbackEnd (errors : W32) (s : State) : Out :=
  let l := s.pkg.pcieLb
  match l.running with
  | none => .next s
  | some t =>
    if t.toNat + l.duration * 100000 ≤ s.time.toNat then
      .next (s.modPkg fun k => { k with
        pcieLb := { k.pcieLb with running := none, done := true, pass := decide (errors = 0), errors := errors }
        sticky := if errors = 0 then k.sticky else k.sticky ||| 4 })
    else .next s

/-- HOST_DIRECTED_LOOPBACK: the host directs the device into Loopback as follower: the link is down, and partitions with an open tenancy
enter hove-to (R434, R593). -/
def execHostDirectedLoopback (s : State) : Out := execPcieDlDown (s.modPkg fun k => { k with hostLoop := true })

/-- HBM_LOOPBACK: a write of TST_HBMLB with START: an H test runs on a stack whose bay belongs to no partition; otherwise the start is
ignored and REFUSED is set (R594, R597). -/
def execHbmLoopback (depth stack : Nat) (s : State) : Out :=
  let n := if 11 < stack then 0 else stack
  if (s.ownerOfBay n).isSome ∨ s.pkg.hbmLb.running.isSome then .next (s.modPkg fun k => { k with refused := true })
  else
    .next (s.modPkg fun k => { k with hbmLb := { k.hbmLb with
      done := false, pass := false, aborted := false, errors := 0, depth := if 2 < depth then 0 else depth, stack := n
      running := some s.time } })

/-- HBM_LOOPBACK_END: the H test ends with a number of beats in error, and the stack is zeroed (R594). -/
def execHbmLoopbackEnd (errors : W32) (s : State) : Out :=
  let l := s.pkg.hbmLb
  if l.running.isNone then .next s
  else
    let s := s.modPkg fun k => { k with
      hbmLb := { k.hbmLb with running := none, done := true, pass := decide (errors = 0), errors := errors }
      sticky := if errors = 0 then k.sticky else k.sticky ||| 4 }
    let b := l.stack
    .next { s with
      hbm := mclear s.hbm (b * 2 ^ 36) ((b + 1) * 2 ^ 36)
      hbmErr := mclear s.hbmErr (b * 2 ^ 31) ((b + 1) * 2 ^ 31)
      hbmPoison := mclear s.hbmPoison (b * 2 ^ 31) ((b + 1) * 2 ^ 31) }

/-! ### Output signals (R498, R513, R525, R564, R577) -/

/-- THERMTRIP# is asserted: a trip is latched (R525, R577). -/
def State.thermtripOut (s : State) : Bool := s.pkg.auxUp && s.clk.tripped

/-- MGMT_ALERT# is asserted: a PLDM event is pending for the event receiver (R498). -/
def State.mgmtAlertOut (s : State) : Bool := s.pkg.auxUp && !s.mast.events.isEmpty

/-- CAD_ALERT# is asserted: a fault of the Cadastre, or, with RETAIN at 1, 114,688 or more unacknowledged records (R564). Its faults are an
attribution fault and a ROM mismatch (DEDUCED, log 179: the spec lists none). -/
def State.cadAlertOut (s : State) : Bool :=
  s.pkg.auxUp && (s.cad.attrFault || !s.cad.meterOk || (s.cad.retain && decide (s.cad.mark + 114688 ≤ s.cad.next)))

/-- CLKREQ# is driven low: the main rails are up (R577). -/
def State.clkreqLow (s : State) : Bool := s.pkg.pwrGood

/-- Frequency of PLL `i` in MHz; of a link group's and of PCIe's the 1/64 reference output (R280, R507, R513, R514). -/
def State.pllMhz (s : State) (i : Nat) : Nat :=
  if i < 120 then pointMhz (s.cluster i).point else if i < 126 then 1200 else if i < 138 then 1000 else if i < 140 then 1200
  else if i = 140 then 500 else if i < 149 then 3320 else 1000

/-- CLKMON±: the PLL it outputs and its divider, or none while it is held low (R513, R577). -/
def State.clkmonOut (s : State) : Option (Nat × Nat) :=
  let v := s.clk.mon.toNat
  let i := v / 256 % 256
  let d := 2 ^ (v % 16)
  if s.pkg.ready && !s.pkg.perst && s.clk.mon.getLsbD 31 && decide (i < 150) && !(mget false s.clk.unlocked i)
      && decide (s.pllMhz i ≤ 200 * d) then some (i, d) else none

end Sys2Proof.Machine
end

