-- ==== Sys2Proof/Machine/Registers.lean ====
section
/-! DEFINITION. The registers that hardware serves: what every word of BAR0 outside the emulated window reads, and what writing it does
(R15 to R18, R232 to R243, R320 to R329, R403, R407, R411, R440 to R447, R463, R464, R471, R474, R476, R596, R597). -/

namespace Sys2Proof.Machine

/-- Word `off / 4` of some bytes. -/
def wordAt (b : List Byte) (off : Nat) : Nat := leNat ((b.drop off).take 4)

/-! ### Reading -/

/-- A word of DEV_ (R407). -/
def State.devWord (s : State) (off : Nat) : Nat :=
  let hi := decide (off % 8 = 4)
  if off = 0 then 0x09091F3C
  else if off = 8 ∨ off = 0xC then half Config.serial hi
  else if 0x10 ≤ off ∧ off < 0x1C then
    leNat ((List.range 4).map fun k => BitVec.ofNat 8 (s.bayCount (off - 0x10 + k)))
  else if off = 0x20 ∨ off = 0x24 then
    let own := (List.range 12).map fun b => (s.ownerOfBay b).getD 0xF * 16 ^ b
    half (BitVec.ofNat 64 (own.foldl (· + ·) 0)) hi
  else 0

/-- A word of Q_ of partition `p` (R411); doorbells read 0. -/
def State.queueWord (s : State) (p off : Nat) : Nat :=
  if 0x1000 ≤ off then 0
  else
    let q := (s.part p).sq (off / 0x100)
    let c := (s.part p).cq (off / 0x100)
    match off % 0x100 with
    | 0x00 => half q.base false
    | 0x04 => half q.base true
    | 0x08 => bitAt q.enable 31 + q.cq * 65536 + q.log2
    | 0x0C => q.head * 65536 + q.error
    | 0x10 => half c.base false
    | 0x14 => half c.base true
    | 0x18 => bitAt c.enable 31 + bitAt c.irqEn 30 + c.log2
    | 0x1C => c.tail * 65536 + bitAt c.phase 15 + c.error
    | _ => 0

/-- A word of partition `p`'s window of FLT_ (R440 to R447, R471). -/
def State.fltWord (s : State) (p off : Nat) : Nat :=
  let x := s.part p
  let hi := decide (off % 8 = 4)
  if off < 0x50 then wordAt (s.faultBytes p) off
  else if 0xC0 ≤ off then wordAt x.wit.record.bytes (off - 0xC0)
  else match off with
    | 0x50 => bitAt x.autoReset 30
    | 0x54 => x.fltSticky.toNat
    | 0x58 => bitAt x.dump.arm 31 + bitAt x.dump.tileStore 29
    | 0x5C => x.dump.state * 2 ^ 29 + x.dump.unreachable
    | 0x60 | 0x64 => half (BitVec.ofNat 64 (64 * x.dump.addr)) hi
    | 0x68 | 0x6C => half x.dump.len hi
    | 0x70 | 0x74 => half x.dump.bytes hi
    | 0x78 => x.dump.holes.toNat
    | 0x80 => bitAt x.wit.action 31 + x.wit.rate
    | 0x88 | 0x8C => half x.wit.seed hi
    | 0x90 => x.wit.selected.toNat
    | 0x94 => x.wit.compared.toNat
    | 0x98 => x.wit.result.toNat
    | 0x9C => x.wit.operand.toNat
    | 0xA0 => x.wit.unmatched.toNat
    | 0xA4 => x.wit.disabled.toNat
    | _ => 0

/-- A word of the device registers of FLT_, of FBK_ and of the field-book window (R464, R474, R476). -/
def State.fbkWord (s : State) (off : Nat) : Nat :=
  let c := s.check
  let b := s.book
  let hi := decide (off % 8 = 4)
  if off = 0x1000 then bitAt c.hold 31 + c.pending.length
  else if off = 0x1004 then bitAt c.enable 31 + c.intervalH
  else if off = 0x1008 then c.points.toNat
  else if off = 0x100C then bitAt c.running 31 + c.cluster * 2 ^ 24 + c.point * 65536 + c.fails.toNat
  else if off = 0x1010 ∨ off = 0x1014 then
    half (BitVec.ofNat 64 (bitAt c.resValid 63 + c.resPoint * 2 ^ 32 + c.resPhys)) hi
  else if 0x1100 ≤ off ∧ off < 0x1140 then
    match c.pending[(off - 0x1100) / 4]? with
    | some r => 2 ^ 31 + bitAt r.cluster 30 + r.cause * 2 ^ 28 + r.phys
    | none => 0
  else if off = 0x8000 then bitAt b.freezeEn 31 + b.keepBefore
  else if off = 0x8004 then bitAt b.frozen 31 + bitAt b.wrapped 30 + bitAt b.overrun 29
  else if off = 0x8008 then b.nextIndex
  else if off = 0x800C then b.nextSeq.toNat
  else if off = 0x8010 then b.freezeIndex
  else if off = 0x8014 then b.freezeSeq.toNat
  else if off = 0x8018 then b.dropped.toNat
  else if off = 0x801C then b.page
  else if 0x10000 ≤ off ∧ off < 0x20000 then
    let e := mget BookEntry.zero b.ring (1024 * b.page + (off - 0x10000) / 64)
    if e = BookEntry.zero then 0 else wordAt e.bytes (off % 64)
  else 0

/-- NUM_WINDOW as function `fn` sees it (R238). -/
def State.windowWord (s : State) (fn : Nat) : W32 :=
  if fn = 0 then s.pfWindow else BitVec.ofNat 32 ((fn - 1) * 2 ^ 24) ||| ((s.part (fn - 1)).num.window &&& 7)

/-- The partition and the table that function `fn`'s window shows (R238). -/
def State.windowAt (s : State) (fn : Nat) : Nat × Nat :=
  let w := (s.windowWord fn).toNat
  (fld w 24 4, w % 8)

/-- A word of a numerics table (R239, R240). -/
def Part.tableWord (x : Part) (table off : Nat) : Nat :=
  let n := x.num
  let hi := decide (off % 8 = 4)
  match table with
  | 0 => if off < 524288 then Machine.half (mget scaleReset n.scale (off / 8)) hi else 0
  | 1 => if off < 524288 then Machine.half (mget 0 n.staged (off / 8)) hi else 0
  | 2 => if off < 524288 then wordAt (mget SiteRec.zero n.sites (off / 32)).bytes (off % 32) else 0
  | 3 => if off < 262144 then wordAt (mget SiteLimit.zero n.limits (off / 16)).bytes (off % 16) else 0
  | 4 => if off < 65536 then wordAt (mget Layer.reset n.layers (off / 16)).bytes (off % 16) else 0
  | 5 => if off < 8192 then wordAt ((mget Gauge.reset n.gauges (off / 32)).bytes x.promotedLayers) (off % 32) else 0
  | 6 => if off < 4096 then (mget 0 n.hist (off / 4)).toNat else 0
  | _ => 0

/-- A word of NUM_ as function `fn` sees it (R232 to R240). -/
def State.numWord (s : State) (fn off : Nat) : Nat :=
  if off = 0x1C then (if fn = 0 ∨ (s.viewOf fn).isSome then (s.windowWord fn).toNat else 0)
  else if 0x80000 ≤ off then
    let (p, t) := s.windowAt fn
    let o := off - 0x80000
    if (s.part p).exist ∧ (fn = 0 ∨ (s.viewOf fn).isSome) then
      if t = 2 ∧ o < 524288 then wordAt (s.unitSite p (o / 32)).bytes (o % 32) else (s.part p).tableWord t o
    else 0
  else match s.viewOf fn with
    | none => 0
    | some p =>
      let n := (s.part p).num
      match off with
      | 0x00 => n.ctrl.toNat
      | 0x04 => n.statusBits.toNat
      | 0x08 => n.lossWord.toNat
      | 0x0C => n.calWord.toNat
      | 0x10 => half n.step false
      | 0x14 => half n.step true
      | 0x18 => n.events.toNat
      | _ => 0

/-- Number of a link state (R322). -/
def LinkState.code : LinkState → Nat
  | .down => 0 | .trainFull => 1 | .trainCached => 2 | .qualify => 3 | .up => 4 | .retrain => 5 | .loopback => 6 | .disabled => 7

/-- A word of link `n` (R321 to R324). -/
def State.linkWord (s : State) (n off : Nat) : Nat :=
  let l := s.link n
  let hi := decide (off % 8 = 4)
  match off with
  | 0x00 => bitAt l.enable 31 + bitAt l.responder 28 + l.loopback * 2 ^ 22 + l.pattern * 2 ^ 20
  | 0x04 =>
    let (role, port) := linkRole n
    l.state.code * 2 ^ 28 + role * 2 ^ 25 + port * 2 ^ 22 + l.peerLink * 2 ^ 17 + l.lanes * 2 ^ 13
      + bitAt (decide (l.cache = some (l.peerSerial, l.peerLink))) 12 + bitAt l.lastFull 11 + l.trainMs
  | 0x08 | 0x0C => half l.peerSerial hi
  | 0x10 => l.fecCorr.toNat
  | 0x14 => l.fecUncorr.toNat
  | 0x18 => l.crcErr.toNat
  | 0x1C => l.replays.toNat
  | 0x20 => l.retrains.toNat
  | 0x24 => l.slackCnt.toNat
  | 0x28 => l.stale.toNat
  | 0x2C => l.sticky.toNat
  | 0x30 => l.lbErr.toNat
  | 0x38 | 0x3C => half l.lbBits hi
  | 0x40 | 0x44 => half l.txFlits hi
  | 0x48 | 0x4C => half l.rxFlits hi
  | _ => 0

/-- A word of LNK_ (R320, R325 to R327). -/
def State.lnkWord (s : State) (off : Nat) : Nat :=
  if off < 0x2000 then s.linkWord (off / 0x100) (off % 0x100)
  else if off = 0x4000 then s.coord.toNat
  else if off = 0x4004 then s.vcWeight.toNat
  else if off = 0x4008 then s.lossMs
  else if 0x4020 ≤ off ∧ off < 0x4040 then (mget 0 s.lnkSsc ((off - 0x4020) / 4)).toNat
  else 0

/-- A word of CAP_ as function `fn` sees it (R328, R329, R403). -/
def State.capWord (s : State) (fn off : Nat) : Nat :=
  if off < 0x800 then
    if fn ≠ 0 then 0
    else
      let c := off / 0x100
      let l := s.onPair c
      match off % 0x100 with
      | 0x00 => (l.filter fun r => !r.started).length * 65536 + (l.filter fun r => r.started).length * 256
      | 0x08 => half (mget ⟨0⟩ s.capstans c).wireBytes false
      | 0x0C => half (mget ⟨0⟩ s.capstans c).wireBytes true
      | _ => 0
  else if 0x1000 ≤ off ∧ off < 0x1C00 then
    if fn = 0 then wordAt (s.part ((off - 0x1000) / 0x100)).caps.bytes (off % 0x100)
    else match s.viewOf fn with
      | some p => if off < 0x1100 then wordAt (s.part p).caps.bytes (off % 0x100) else 0
      | none => 0
  else 0

/-- A word of TST_ (R596, R597). -/
def State.tstWord (s : State) (off : Nat) : Nat :=
  let k := s.pkg
  match off with
  | 0x00 => k.mode * 2 ^ 30 + bitAt k.jtagRefused 29 + bitAt k.refused 28
  | 0x04 => k.sticky.toNat
  | 0x08 => k.readyMs * 65536 + k.hbmMs
  | 0x0C => k.hbmFail.toNat
  | 0x10 => bitAt k.unlock 31
  | 0x20 => bitAt k.pcieLb.done 30 + bitAt k.pcieLb.pass 29 + k.pcieLb.depth * 2 ^ 27 + bitAt k.pcieLb.pattern 26 + k.pcieLb.duration
  | 0x24 => k.pcieLb.errors.toNat
  | 0x30 => bitAt k.hbmLb.done 30 + bitAt k.hbmLb.pass 29 + bitAt k.hbmLb.aborted 28 + k.hbmLb.depth * 2 ^ 26 + k.hbmLb.stack
  | 0x34 => k.hbmLb.errors.toNat
  | 0x40 => bitAt k.cadValid 31 + bitAt k.cadPass 30 + k.cadRail * 65536 + k.cadPpm
  | _ => 0

/-- A word of the blocks that Trim serves as function `fn` sees it (R539). -/
def State.trimView (s : State) (fn off : Nat) : Nat :=
  if fn = 0 then (s.shadowWord off).toNat
  else match s.viewOf fn with
    | none => 0
    | some p =>
      if off = 0x600000 ∨ (0x600008 ≤ off ∧ off < 0x600018) then (s.shadowWord off).toNat
      else if off = 0x600140 then (s.shadowWord (off + 4 * p)).toNat
      else if 0x600800 ≤ off ∧ off < 0x600BC0 ∧ (s.part p).bays.contains (clusterBay ((off - 0x600800) / 8)) then (s.shadowWord off).toNat
      else 0

/-- A word of BAR0 outside the emulated window, as function `fn` sees it (R15, R403, R404, R440, R484). -/
def State.hwWord (s : State) (fn off : Nat) : W32 :=
  let o := off % 0x100000
  BitVec.ofNat 32 (
    if off = 0x3FF000 then s.shimStatus.toNat
    else match off / 0x100000 with
      | 0 => s.devWord o
      | 1 => (s.viewOf fn).elim 0 fun p => s.queueWord p o
      | 4 =>
        if fn = 0 then if o < 0xC00 then s.fltWord (o / 0x100) (o % 0x100) else s.fbkWord o
        else if o < 0x100 then (s.viewOf fn).elim 0 fun p => s.fltWord p o else 0
      | 5 => s.numWord fn o
      | 6 | 9 => s.trimView fn off
      | 7 => if fn = 0 then s.lnkWord o else 0
      | 8 => s.capWord fn o
      | 10 => if fn = 0 then s.tstWord o else 0
      | _ => 0)

/-- Is a word half of a 64-bit register (R16 and the register tables)? -/
def State.hwWide (s : State) (fn off : Nat) : Bool :=
  let o := off % 0x100000
  let w (a b x : Nat) : Bool := decide (a ≤ x) && decide (x < b)
  match off / 0x100000 with
  | 0 => w 8 0x10 o || w 0x20 0x28 o
  | 1 => decide (o < 0x1000) && (w 0 8 (o % 0x100) || w 0x10 0x18 (o % 0x100))
  | 4 =>
    if o < 0xC00 then
      let x := o % 0x100
      w 0x10 0x50 x || w 0x60 0x78 x || w 0x88 0x90 x || w 0xC0 0xE8 x
    else w 0x1010 0x1018 o || w 0x8008 0x8018 o
  | 5 => w 0x10 0x18 o || (decide (0x80000 ≤ o) && decide ((s.windowAt fn).2 < 2))
  | 6 => w 8 0x18 o || w 0x800 0xBC0 o
  | 7 => decide (o < 0x2000) && (w 8 0x10 (o % 0x100) || w 0x38 0x50 (o % 0x100))
  | 8 => if o < 0x800 then w 8 0x10 (o % 0x100) else w 0x28 0x30 (o % 0x100)
  | 9 => w 8 0x18 o || w 0x400 0x7C0 o
  | _ => false

/-- The effect of reading a word with RC fields: they are cleared (R17, R235, R484, R597). -/
def State.afterRead (s : State) (fn off : Nat) : State :=
  if off = 0x3FF000 then s.modMast fun m => { m with drop := false }
  else if off = 0x500004 then
    match s.viewOf fn with
    | some p => s.modNum p fun n => { n with writeIgnored := false }
    | none => s
  else if off = 0xA00000 ∧ fn = 0 then s.modPkg fun k => { k with jtagRefused := false, refused := false }
  else s

/-- The key of a 64-bit register in the half latches: a word of the numerics window belongs to the partition and table that the window shows
(R16, R239). -/
def State.latchOf (s : State) (fn off : Nat) : Nat :=
  let (p, t) := s.windowAt fn
  latchKey fn off + if off / 0x80000 = 11 then (8 * p + t + 1) * 2 ^ 40 else 0

/-- REGISTER_READ_CLEAR: a host read of 4 or 8 bytes of BAR0 outside the emulated window: the value is returned, RC fields are then cleared,
and the low half of a 64-bit register latches the high one (R16, R17). -/
def execRegisterReadClear (fn off n : Nat) (s : State) : Out :=
  if !s.dlUp ∨ inEmulated off ∨ off % n ≠ 0 ∨ (n ≠ 4 ∧ n ≠ 8) ∨ 12 < fn then .next s
  else
    let key := s.latchOf fn off
    let lo := s.hwWord fn off
    let wide := s.hwWide fn off
    let v := if wide && decide (off % 8 = 4) then (mget none s.latchRead key).getD lo else lo
    let s' := if n = 8 ∨ !wide then s
      else { s with latchRead := mset none s.latchRead key (if off % 8 = 0 then some (s.hwWord fn (off + 4)) else none) }
    let b := if n = 8 then leBytes 4 lo.toNat ++ leBytes 4 (s.hwWord fn (off + 4)).toNat else leBytes 4 v.toNat
    let s' := s'.afterRead fn off
    .next ((if n = 8 then s'.afterRead fn (off + 4) else s').send (.barData fn b false))

/-! ### Writing -/

/-- A 32-bit write to Q_ of partition `p` (R411). -/
def State.queueWrite (s : State) (p off : Nat) (w : W32) : State :=
  if 0x1000 ≤ off ∧ off < 0x1080 then
    let q := (off - 0x1000) / 8
    outState (if off % 8 = 0 then execSqTailDoorbell p q w s else execCqHeadDoorbell p q w s) s
  else if off < 0x1000 ∧ off % 0x100 = 0x08 then outState (execQueueEnable p (off / 0x100) false w s) s
  else if off < 0x1000 ∧ off % 0x100 = 0x18 then outState (execQueueEnable p (off / 0x100) true w s) s
  else s

/-- A 64-bit write to Q_ of partition `p` (R411). -/
def State.queueWrite64 (s : State) (p off : Nat) (v : W64) : State :=
  let b := v &&& 0xFFFFFFFFFFFFF000
  if off < 0x1000 ∧ off % 0x100 = 0 then s.modPart p fun x => x.setSq (off / 0x100) { x.sq (off / 0x100) with base := b }
  else if off < 0x1000 ∧ off % 0x100 = 0x10 then s.modPart p fun x => x.setCq (off / 0x100) { x.cq (off / 0x100) with base := b }
  else s

/-- A 32-bit write to partition `p`'s window of FLT_ (R444, R447, R471). -/
def State.fltWrite (s : State) (p off : Nat) (w : W32) : State :=
  match off with
  | 0x50 =>
    let s := s.modPart p fun x => { x with autoReset := w.getLsbD 30 }
    if w.getLsbD 31 then outState (execFltClear p s) s else s
  | 0x54 => s.modPart p fun x => { x with fltSticky := x.fltSticky &&& ~~~(BitVec.ofNat 8 w.toNat) }
  | 0x58 =>
    let s := s.modPart p fun x => { x with dump := { x.dump with arm := w.getLsbD 31, tileStore := w.getLsbD 29 } }
    let s := if w.getLsbD 30 then outState (execDumpStart p s) s else s
    if w.getLsbD 28 then outState (execDumpAbort p s) s else s
  | 0x80 => s.modPart p fun x => { x with wit := { x.wit with action := w.getLsbD 31, rate := w.toNat % 4 } }
  | _ => s

/-- A 64-bit write to partition `p`'s window of FLT_. -/
def State.fltWrite64 (s : State) (p off : Nat) (v : W64) : State :=
  match off with
  | 0x60 => s.modPart p fun x => { x with dump := { x.dump with addr := v.toNat / 64 } }
  | 0x68 => s.modPart p fun x => { x with dump := { x.dump with len := v } }
  | 0x88 => s.modPart p fun x => { x with wit := { x.wit with seed := v } }
  | 0xC0 => if v.getLsbD 31 then s.modPart p fun x => { x with wit := { x.wit with record := .zero } } else s
  | _ => s

/-- A check target in °C, at most 100 (R474). -/
def checkTarget (w i : Nat) : Nat := min 100 (fld w (8 * i) 8) * 256 ^ i

/-- A 32-bit write to the device registers of FLT_ and to FBK_ (R463, R464, R474, R476). -/
def State.fbkWrite (s : State) (off : Nat) (w : W32) : State :=
  let v := w.toNat
  match off with
  | 0x1000 => { s with check := { s.check with hold := w.getLsbD 31 } }
  | 0x1004 => { s with check := { s.check with enable := w.getLsbD 31, intervalH := v % 65536 } }
  | 0x1008 =>
    { s with check := { s.check with points := BitVec.ofNat 32 (checkTarget v 0 + checkTarget v 1 + checkTarget v 2 + checkTarget v 3) } }
  | 0x8000 => { s with book := { s.book with freezeEn := w.getLsbD 31, keepBefore := v % 65536 } }
  | 0x8004 =>
    let s := if w.getLsbD 29 then { s with book := { s.book with overrun := false } } else s
    if w.getLsbD 31 then outState (execFbkUnfreeze s) s else s
  | 0x801C => { s with book := { s.book with page := v % 64 } }
  | _ => s

/-- A 64-bit write to them: FLT_CHECK_RESULT.VALID (R474). -/
def State.fbkWrite64 (s : State) (off : Nat) (v : W64) : State :=
  if off = 0x1010 ∧ v.getLsbD 63 then { s with check := { s.check with resValid := false, resPoint := 0, resPhys := 0 } } else s

/-- Are writes to NUM_LOSS, NUM_CAL, NUM_STEP and tables 0 and 6 ignored: RUNNING, RESHAPING or RESETTING, or a step that a partition in
HOVE_TO still runs (R233, R244)? -/
def Part.numLocked (x : Part) : Bool := [2, 3, 6].contains x.stateCode || x.stepOpen

/-- May a checkpoint be restored: LOADED, and no step run since the load (R228)? -/
def Part.restorable (x : Part) : Bool :=
  decide (x.stateCode = 1) && (match x.image with | some im => !im.ran | none => false)

/-- A write that R233 ignores, or `f`. -/
def State.numGuard (s : State) (p : Nat) (f : State → State) : State :=
  if (s.part p).numLocked then s.modNum p fun n => { n with writeIgnored := true } else f s

/-- A 32-bit write to the NUM_ registers of partition `p` (R228, R233 to R237); UNCLEAN_MODE stays 0 unless the image is REPLAY_OK (R215).
A GROWTH above GROWTH_INTERVAL is stored as written (DESIGN CHOICE: R236's range does not say what such a write does; log 191). -/
def State.numWrite (s : State) (p off : Nat) (w : W32) : State :=
  match off with
  | 0x00 =>
    let rw : W32 := if ((s.part p).image.map fun im => im.replayOk).getD false then 0xFFFFF6FF else 0xFFFFF2FF
    s.modNum p fun n => { n with ctrl := (w &&& rw) ||| (n.ctrl &&& 0x800) }
  | 0x08 => s.numGuard p fun s => s.modNum p fun n => { n with lossL := lossOf w, growth := w.toNat % 65536 }
  | 0x0C =>
    s.numGuard p fun s =>
      let v := min 16 (w.toNat % 32)
      if v = 0 ∧ (s.part p).num.calActive then
        ((s.modNum p Numerics.endCalibration).modPart p fun x => { x with calDue := true }).serveSwitch p
      else s.modNum p fun n => { n with stepsLeft := v }
  | 0x18 =>
    let s := s.modNum p fun n => { n with events := n.events &&& ~~~(BitVec.ofNat 8 (w.toNat - w.toNat % 2)) }
    if w.getLsbD 0 then outState (execSites p s) s else s
  | _ => s

/-- The RW fields of a scale entry: SCALE, TARGET, CLASS, TREAT, HEADROOM and WATCH (R203). -/
def scaleMask : W64 := 0xFFFFFBF000000000

/-- A write to a word of a numerics table of partition `p` (R228, R233, R239 to R243). A STREAK_LIMIT of 0 is stored as 1 (DESIGN CHOICE: R243 gives
1 to 15 and does not say; log 142). A −0 written to a history is no negative value and is stored (DESIGN CHOICE, log 193); writing 1 to VALID of a
site record clears this device's own record, also on a gang lead, whose window shows the merged one (DESIGN CHOICE, log 194). -/
def State.tableWrite (s : State) (p table off : Nat) (w : W32) : State :=
  match table with
  | 2 =>
    if off < 524288 ∧ off % 32 = 0x14 ∧ w.getLsbD 31 then
      s.modNum p fun n => { n with sites := mset SiteRec.zero n.sites (off / 32) .zero } else s
  | 3 =>
    if 262144 ≤ off then s
    else s.modNum p fun n => { n with limits := mmod SiteLimit.zero n.limits (off / 16) fun l =>
      match off % 16 with
      | 0 => { l with satLimit := w }
      | 4 => { l with flushLimit := w }
      | _ => l }
  | 4 =>
    if 65536 ≤ off then s
    else s.modNum p fun n => { n with layers := mmod Layer.reset n.layers (off / 16) fun y =>
      match off % 16 with
      | 4 => { y with low := w }
      | 8 => { y with high := w }
      | 12 => { y with lowHit := y.lowHit && !(w.getLsbD 30), highHit := y.highHit && !(w.getLsbD 29) }
      | _ => y }
  | 5 =>
    if 8192 ≤ off then s
    else
      let free := (s.part p).restorable
      s.modNum p fun n => { n with gauges := mmod Gauge.reset n.gauges (off / 32) fun g =>
        match off % 32 with
        | 0 => { g with enable := w.getLsbD 31, layer := fld w.toNat 16 12, site := w.toNat % 16384 }
        | 4 => { g with ratioLimit := w }
        | 12 => if free then { g with baseline := w, restored := true } else g
        | 16 => { g with streakLimit := max 1 (fld w.toNat 28 4) }
        | _ => g }
  | 6 =>
    if 4096 ≤ off then s
    else s.numGuard p fun s =>
      if fld w.toNat 23 8 = 255 ∨ (w.getLsbD 31 ∧ w ≠ 0x80000000) then s.modNum p fun n => { n with writeIgnored := true }
      else if (s.part p).restorable then s.modNum p fun n => { n with hist := mset 0 n.hist (off / 4) w }
      else s
  | _ => s

/-- A 64-bit write to a numerics table: the scale table (R203, R233). EST, HIST_COUNT, OVF_COUNT and CAL are RO in a restore, too (DESIGN CHOICE: R228
lets the host restore the table, R203 makes these fields RO; log 190). -/
def State.tableWrite64 (s : State) (p table off : Nat) (v : W64) : State :=
  if table = 0 ∧ off < 524288 then
    s.numGuard p fun s => s.modNum p fun n => { n with
      scale := mmod scaleReset n.scale (off / 8) fun e => (v &&& scaleMask) ||| (e &&& ~~~scaleMask) }
  else s

/-- The power of link group `g` follows its links: off while every link has ENABLE 0 and no loop-back (R518). -/
def State.linkPower (s : State) (g : Nat) : State :=
  let used := (List.range 4).any fun j => let l := s.link (4 * g + j); l.enable || decide (l.loopback ≠ 0)
  [164 + g, 172 + g].foldl (fun (s : State) d =>
    if used then (if s.domainState d = 0 then s.setDomain d 1 else s)
    else if s.domainState d = 1 then s.setDomain d 0 else s) s

/-- A write of LNK_CTRLn (R276, R284, R319, R321). -/
def State.linkCtrl (s : State) (n : Nat) (w : W32) : State :=
  let l := s.link n
  let lb := fld w.toNat 22 3
  let lb := if 5 < lb then 0 else lb
  let pat := fld w.toNat 20 2
  let on := w.getLsbD 31
  let st : LinkState := if !on then (if lb = 0 then .disabled else .loopback)
    else if l.state = .disabled ∨ l.state = .loopback then .down else l.state
  let s := s.setLink n { l with
    enable := on, responder := w.getLsbD 28, loopback := lb, pattern := suitPattern lb (if pat = 3 then 0 else pat), state := st
    found := l.found && on, failedAt := if on then l.failedAt else none
    leftUp := if !on ∧ l.state = .up then some s.time else l.leftUp }
  let s := (s.linkPower (n / 4)).takeSsc (n / 4)
  let s := if w.getLsbD 29 then outState (execFullTrain n s) s else s
  if w.getLsbD 30 then outState (execRetrain n s) s else s

/-- A 32-bit write to LNK_ (R320 to R327). -/
def State.lnkWrite (s : State) (off : Nat) (w : W32) : State :=
  let v := w.toNat
  if off < 0x2000 then
    match off % 0x100 with
    | 0x00 => s.linkCtrl (off / 0x100) w
    | 0x2C => s.modLink (off / 0x100) fun l => { l with sticky := l.sticky &&& ~~~(BitVec.ofNat 5 v) }
    | _ => s
  else if off = 0x4000 then
    { s with coord := w &&& 0x801F1F07, links := mmap Link.reset (fun _ l => { l with barred := false }) s.links }
  else if off = 0x4004 then { s with vcWeight := w &&& 0x00FFFFFF }
  else if off = 0x4008 then { s with lossMs := min 1000 (max 1 (v % 1024)) }
  else if 0x4020 ≤ off ∧ off < 0x4040 then
    let e := BitVec.ofNat 32 (bitAt (w.getLsbD 31) 31 + min 20 (fld v 5 5) * 32 + min 30 (v % 32))
    { s with lnkSsc := mset 0 s.lnkSsc ((off - 0x4020) / 4) e }.takeSsc ((off - 0x4020) / 4)
  else s

/-- A 32-bit write to TST_ (R590, R593, R594, R597). -/
def State.tstWrite (s : State) (off : Nat) (w : W32) : State :=
  let v := w.toNat
  match off with
  | 0x04 => s.modPkg fun k => { k with sticky := k.sticky &&& ~~~(BitVec.ofNat 4 v) }
  | 0x0C => s.modPkg fun k => { k with hbmFail := k.hbmFail &&& ~~~(BitVec.ofNat 12 v) }
  | 0x10 => outState (execUnlock (w.getLsbD 31) s) s
  | 0x20 =>
    let d := fld v 27 2
    if w.getLsbD 31 then outState (execPcieLoopback d (w.getLsbD 26) (v % 65536) s) s
    else s.modPkg fun k => { k with pcieLb := { k.pcieLb with
      depth := if d = 3 then 0 else d, pattern := w.getLsbD 26, duration := min 60000 (max 1 (v % 65536)) } }
  | 0x30 =>
    let d := fld v 26 2
    let n := v % 16
    if w.getLsbD 31 then outState (execHbmLoopback d n s) s
    else s.modPkg fun k => { k with hbmLb := { k.hbmLb with depth := if d = 3 then 0 else d, stack := if 11 < n then 0 else n } }
  | _ => s

/-- The partition whose CAP_ or FLT_ set function `fn` addresses by window `i` (R403, R440). -/
def State.setOf (s : State) (fn i : Nat) : Option Nat :=
  if fn = 0 then if i < 12 then some i else none else if i = 0 then s.viewOf fn else none

/-- A 32-bit write to BAR0 outside the emulated window and Trim's blocks. -/
def State.hwWrite (s : State) (fn off : Nat) (w : W32) : State :=
  let o := off % 0x100000
  match off / 0x100000 with
  | 1 => (s.viewOf fn).elim s fun p => s.queueWrite p o w
  | 4 =>
    if o < 0xC00 then (s.setOf fn (o / 0x100)).elim s fun p => s.fltWrite p (o % 0x100) w
    else if fn = 0 then s.fbkWrite o w else s
  | 5 =>
    if o = 0x1C then
      if fn = 0 then { s with pfWindow := w &&& 0x0F000007 }
      else (s.viewOf fn).elim s fun p => s.modNum p fun n => { n with window := w &&& 7 }
    else if 0x80000 ≤ o then
      let (p, t) := s.windowAt fn
      if (s.part p).exist ∧ (fn = 0 ∨ (s.viewOf fn).isSome) then s.tableWrite p t (o - 0x80000) w else s
    else (s.viewOf fn).elim s fun p => s.numWrite p o w
  | 7 => if fn = 0 then s.lnkWrite o w else s
  | 10 => if fn = 0 then s.tstWrite o w else s
  | _ => s

/-- A 64-bit write to BAR0 outside the emulated window and Trim's blocks. -/
def State.hwWrite64 (s : State) (fn off : Nat) (v : W64) : State :=
  let o := off % 0x100000
  match off / 0x100000 with
  | 1 => (s.viewOf fn).elim s fun p => s.queueWrite64 p o v
  | 4 =>
    if o < 0xC00 then (s.setOf fn (o / 0x100)).elim s fun p => s.fltWrite64 p (o % 0x100) v
    else if fn = 0 then s.fbkWrite64 o v else s
  | 5 =>
    if 0x80000 ≤ o then
      let (p, t) := s.windowAt fn
      if (s.part p).exist ∧ (fn = 0 ∨ (s.viewOf fn).isSome) then s.tableWrite64 p t (o - 0x80000) v else s
    else if o = 0x10 then (s.viewOf fn).elim s fun p => s.numGuard p fun s => s.modNum p fun n => { n with step := v }
    else s
  | 8 =>
    if 0x1000 ≤ o ∧ o < 0x1C00 ∧ o % 0x100 = 0x28 ∧ v.getLsbD 31 then
      (s.setOf fn ((o - 0x1000) / 0x100)).elim s fun p => s.modPart p fun x => { x with caps := { x.caps with lastStrike := 0 } }
    else s
  | _ => s

/-- REGISTER_WRITE: a host write of 4 or 8 bytes to BAR0, applied per the access codes of what it names; emulated registers go through the
shim, those of Trim through its mailbox (R15 to R18, R403, R483, R489). -/
def execRegisterWrite (fn off : Nat) (bytes : List Byte) (s : State) : Out :=
  let n := bytes.length
  if !s.dlUp ∨ 12 < fn ∨ (n ≠ 4 ∧ n ≠ 8) ∨ off % n ≠ 0 then .next s
  else if inEmulated off then execShimWrite fn off bytes s
  else if inShadow off then execShadowWrite fn off bytes s
  else
    .next (s.writeHalves (s.latchOf fn off) off bytes (s.hwWide fn off) (s.hwWord fn (off / 8 * 8)).toNat
      (fun s a w => s.hwWrite fn a w) (fun s a v => s.hwWrite64 fn a v))

end Sys2Proof.Machine
end

