-- ==== Sys2Proof/Machine/Sync.lean ====
section
/-! DEFINITION. Signals, WAITQ, barriers and FENCE (R97 to R100). -/

namespace Sys2Proof.Machine

/-- Decode check of SIG (R88, R97). -/
def sigOk (w : IWord) : Bool :=
  decide (xtOf w < 4) && decide (flagsOf w = 0) && decide (sdOf w = 0x80)
    && (if xtOf w % 2 = 1 then srcOk (saOf w) else decide (saOf w = 0x80)) && decide (sbOf w = 0x80) && decide (scOf w = 0x80)
    && decide (xlOf w = 0) && decide (immf w 63 32 ≠ 0) && decide (immf w 31 6 = 0)

/-- SIG (R98). A strand whose RELEASE fence is open does not issue (see `State.syncWait`). A local SIG adds its increment;
a remote one enters the mesh; a destination at or above the enabled count is STORE_BOUNDS. -/
def execSig (t k : Nat) (b : IBody) (s : State) : Out :=
  let w := wordOf 0x30 b
  let remote := decide (xtOf w % 2 = 1)
  s.issue t k w (sigOk w) fun s =>
    let inc := BitVec.ofNat 32 (immf w 63 32)
    let n := immf w 5 0
    if remote then
      let d := ((s.tile t).src k w (saOf w)).toNat
      let dest := match s.partOf t with | some p => (s.part p).physOf d | none => none
      match dest with
      | none => s.precise t k w cBounds (faultAddr 4 d)
      | some u => ({ s with sigs := s.sigs ++ [(⟨t, k, u, n, inc⟩ : SigMsg)] }).advance t k
    else (s.setTile t ((s.tile t).addCounter n inc)).advance t k

/-- Is message `i` the oldest of its strand to its destination (R98)? -/
def firstOfPair (l : List SigMsg) (i : Nat) : Bool :=
  match l[i]? with
  | none => false
  | some m => !((l.take i).any fun n =>
      decide (n.srcTile = m.srcTile) && decide (n.strand = m.strand) && decide (n.destTile = m.destTile))

/-- SIG_ARRIVAL: signal `i` in flight reaches its tile and is added; one that a die crossing delivers poisoned is
discarded and raises ECC_UNCORRECTABLE, imprecise, naming no strand (R98). Only a crossing whose three retries failed does so; the
retries are counted (R68, R82). -/
def execSigArrival (i : Nat) (a : Crossed Bool) (s : State) : Out :=
  if firstOfPair s.sigs i then
    match s.sigs[i]? with
    | none => .next s
    | some m =>
      let s := ({ s with sigs := s.sigs.eraseIdx i }).countRetries a.crossings
      if a.lost then
        let s := match s.partOf m.destTile with
          | some p => (s.bookEntry 0x04 p cEcc 0
              (tileEccPayload 8 (((s.part p).logicalOf m.destTile).getD 0) m.destTile none 0)).sticky p 1
          | none => s
        .next (s.tileFault m.destTile ⟨cEcc, false, false, none, 0, 0, faultAddr 0 0, 0, detailOf 8 0 0 0⟩)
      else .next (s.modTile m.destTile fun x => x.addCounter m.counter m.inc)
  else .next s

/-- Has counter `n` reached threshold `th`, wrap-safe (R99)? -/
def Tile.reached (x : Tile) (n : Nat) (th : W32) : Bool := decide ((x.counter n - th).toNat < 2 ^ 31)

/-- Consume from a counter (R99). -/
def Tile.consume (x : Tile) (n : Nat) (th : W32) : Tile := { x with sc := mmod 0 x.sc n (· - th) }

/-- Decode check of WAITQ (R88, R97). -/
def waitqOk (w : IWord) : Bool :=
  decide (xtOf w < 2) && decide (flagsOf w = 0) && decide (sdOf w = 0x80) && (regOk (saOf w) || decide (saOf w = 0x80))
    && decide (sbOf w = 0x80) && decide (scOf w = 0x80) && decide (xlOf w = 0) && decide (immf w 31 6 = 0)

/-- WAITQ (R99): goes on when the counter has reached the threshold, else waits. -/
def execWaitq (t k : Nat) (b : IBody) (s : State) : Out :=
  let w := wordOf 0x31 b
  s.issue t k w (waitqOk w) fun s =>
    let x := s.tile t
    let n := immf w 5 0
    let th := BitVec.ofNat 32 (immf w 63 32 + (x.src k w (saOf w)).toNat)
    let consume := decide (xtOf w = 1)
    if x.reached n th then
      (s.setTile t (if consume then x.consume n th else x)).advance t k
    else s.modStrand t k fun v => { v with sched := .waiting (.waitq n th consume) }

/-- Is strand `k` waiting in a WAITQ whose counter has reached its threshold? -/
def Tile.waitqMet (x : Tile) (k : Nat) : Bool :=
  match (x.strand k).sched with
  | .waiting (.waitq n th _) => x.reached n th
  | _ => false

/-- WAITQ_RELEASE: the lowest-numbered satisfiable waiter is released first, and consumes before the others test
(R99). -/
def execWaitqRelease (t k : Nat) (s : State) : Out :=
  let x := s.tile t
  match (x.strand k).sched with
  | .waiting (.waitq n th consume) =>
    if !x.frozen && x.waitqMet k && (List.range k).all (fun j => !(x.waitqMet j)) then
      .next ((s.setTile t (if consume then x.consume n th else x)).advance t k)
    else .next s
  | _ => .next s

/-- Decode check of BAR (R88, R97). -/
def barOk (w : IWord) : Bool :=
  decide (xtOf w = 0) && decide (flagsOf w = 0) && decide (sdOf w = 0x80) && decide (saOf w = 0x80)
    && decide (sbOf w = 0x80) && decide (scOf w = 0x80) && decide (xlOf w = 0) && decide (immf w 63 26 = 0)
    && decide (immf w 15 5 = 0) && decide (1 ≤ immf w 25 16) && decide (immf w 25 16 ≤ 512)

/-- BAR (R99): the strand waits, first in its fence of the SCALAR and VECTOR classes. -/
def execBar (t k : Nat) (b : IBody) (s : State) : Out :=
  let w := wordOf 0x32 b
  s.issue t k w (barOk w) fun s =>
    s.modStrand t k fun v => { v with sched := .waiting (.bar (immf w 4 0) (immf w 25 16) false) }

/-- Release every strand of a barrier generation: each goes on past its BAR (R99). -/
def releaseAll (s : State) (t : Nat) : List Nat → State
  | [] => s
  | k :: ks => releaseAll (s.advance t k) t ks

/-- BAR_ARRIVE: its fence done, the strand arrives; a count that differs from the generation's is ILLEGAL_INSTR; the
c-th arrival releases the generation and opens a new one (R99). -/
def execBarArrive (t k : Nat) (s : State) : Out :=
  let x := s.tile t
  match (x.strand k).sched with
  | .waiting (.bar g c false) =>
    if x.frozen || decide (s.fenceOpen t k 3 ≠ 0) then .next s
    else
      let gr := (x.barGroup g).getD ⟨c, []⟩
      if gr.count ≠ c then
        .next (s.precise t k (((x.strand k).nextWord).getD 0) cIllegal (faultAddr 0 0))
      else
        let arrived := gr.arrived ++ [k]
        if arrived.length < c then
          .next ((s.setTile t { x with bars := mset none x.bars g (some ⟨c, arrived⟩) }).modStrand t k fun v =>
            { v with sched := .waiting (.bar g c true) })
        else .next (releaseAll (s.setTile t { x with bars := mset none x.bars g none }) t arrived)
  | _ => .next s

/-- Decode check of FENCE (R88, R97). -/
def fenceOk (w : IWord) : Bool :=
  decide (xtOf w ≠ 0) && decide (xtOf w < 64) && decide (flagsOf w = 0) && decide (sdOf w = 0x80)
    && decide (saOf w = 0x80) && decide (sbOf w = 0x80) && decide (scOf w = 0x80) && decide (xlOf w = 0)
    && decide (immOf w = 0)

/-- FENCE (R100): issues once the strand's earlier operations of the named classes are complete (see
`State.syncWait`). -/
def execFence (t k : Nat) (b : IBody) (s : State) : Out :=
  let w := wordOf 0x33 b
  s.issue t k w (fenceOk w) fun s => s.advance t k

end Sys2Proof.Machine
end

