-- ==== Sys2Proof/Machine/Tick.lean ====
section
/-! DEFINITION. One tick of device time: the clock, meter time, and the busy and idle counters (R79, R346, R506, R522, R536, R553). -/

namespace Sys2Proof.Machine

/-- Does the tile's vector queue wait at its head for a drain entry: a VDRAIN none of whose strand's entries is there (R51)? -/
def Tile.drainAwaited (x : Tile) : Bool :=
  match x.vq.head? with
  | some o => decide (opcOf o.word = 0x52) && !(x.drain.any fun d => decide (d.strand = o.strand))
  | none => false

/-- The idle cause of a wait reason (R79, R100). A register that is pending in an idle tick has its writer in the vector queue: behind a
VDRAIN with no entry for its strand that is cause 5, and with every unit idle otherwise cause 9 (DEDUCED, log 127). -/
def State.idleCause (s : State) (t k : Nat) (r : Wait) : Nat :=
  let ofMask (m : Nat) : Nat :=
    if m / 16 % 2 = 1 then 4 else if m / 8 % 2 = 1 ∨ m / 32 % 2 = 1 then 3 else if m / 2 % 2 = 1 ∨ m / 4 % 2 = 1 then 5 else 9
  match r with
  | .cwait _ | .collQueue => 0
  | .sqget _ => 1
  | .sqput _ => 2
  | .fence m => ofMask m
  | .source => if (s.tile t).drainAwaited then 5 else 9
  | .moveQueue => 3
  | .matrixQueue | .vectorQueue | .slotColl _ => 5
  | .warp => 8
  | .bar _ _ arrived => if arrived then 9 else ofMask (s.fenceOpen t k 3)
  | .fetch | .waitq .. | .yield _ => 9

/-- The waits of a tile's strands, lowest strand first. -/
def State.waits (s : State) (t : Nat) : List (Nat × Wait) :=
  if (s.tile t).frozen then []
  else (s.tile t).strands.filterMap fun e => if e.2.started then (s.notReady t e.1).map fun r => (e.1, r) else none

/-- What a tick counts in tile `t`: none when busy, else the idle cause (R79); of a frozen tile (R108); of one that a switch pauses
(R372 step 4). -/
def State.tickCause (s : State) (t : Nat) (issued : Bool) : Option Nat :=
  let x := s.tile t
  let stops := (s.cluster (clusterOf t)).stops
  if x.frozen then (if !x.arr.isEmpty || !x.vrun.isEmpty || x.portB.isSome then none else some 9)
  else if issued || !x.arr.isEmpty || !x.vrun.isEmpty then none
  else if stops &&& 0x16 ≠ 0 then some 7
  else if stops ≠ 0 then some 6
  else if s.tilePaused t then some 8
  else match s.waits t with
    | [] => some 9
    | (k, r) :: _ => some (s.idleCause t k r)

/-- `n` ticks of tile `t`: TIL_BUSY or one of TIL_IDLE0–9 (R79). -/
def State.tickTile (s : State) (t : Nat) (issued : Bool) (n : W64) : State :=
  match s.tickCause t issued with
  | none => s.modTile t fun x => { x with busy := x.busy + n }
  | some c => s.modTile t fun x => { x with idle := mmod 0 x.idle c (· + n) }

/-- `n` ticks of partition `p`'s stage queues: WAIT_TICKS of each side a strand waits on (R346). -/
def State.tickQueues (s : State) (p : Nat) (n : W64) : State :=
  let ws := ((s.part p).enabled.map fun t => (s.waits t).map (·.2)).flatten
  let outs := (ws.filterMap fun r => match r with | .sqput i => some i | _ => none).eraseDups
  let ins := (ws.filterMap fun r => match r with | .sqget i => some i | _ => none).eraseDups
  s.modPart p fun x =>
    let q := outs.foldl (fun (m : SMap QueueState) i => mmod QueueState.zero m i fun v => { v with waitTicks := v.waitTicks + n }) x.queues
    { x with queues := ins.foldl (fun (m : SMap QueueState) i =>
        mmod QueueState.zero m i fun v => { v with waitTicksIn := v.waitTicksIn + n }) q }

/-- Ticks of device time that the next REFCLK cycle brings: 2 where the declared spread has added up to one (R536). -/
def State.ticksNow (s : State) : W64 := if 2000000 ≤ s.clk.sscAcc + 250 * s.clk.ssc then 2 else 1

/-- Device time advances by one REFCLK cycle, corrected for the declared spread (R506, R536); meter time advances with it (R553). -/
def State.tickTime (s : State) : State :=
  let acc := s.clk.sscAcc + 250 * s.clk.ssc
  { s with
    time := s.time + s.ticksNow, clk := { s.clk with sscAcc := if 2000000 ≤ acc then acc - 2000000 else acc }
    cad := { s.cad with meter := s.cad.meter + 1 } }

/-- DEVICE_TICK: a 10 ns edge of REFCLK; `issued` are the tiles in whose cycle an instruction issued. Every tile of a partition is sampled
once, for each tick of device time that the edge brings; a stop for VIN_MAIN current ends when its 10 µs have passed (R79, R522, R536). -/
def execDeviceTick (issued : List Nat) (s : State) : Out :=
  if !s.clk.refclk ∨ !s.pkg.auxUp then .next s
  else
    let n := s.ticksNow
    let s := s.existing.foldl (fun (s : State) p =>
      ((s.part p).bays.foldl (fun (s : State) b => (bayTiles b).foldl (fun (s : State) t =>
        s.tickTile t (issued.contains t) n) s) s).tickQueues p n) s
    let s := s.tickTime
    .next (match s.clk.vinStop with
      | some t =>
        if t.toNat ≤ s.time.toNat then
          ((List.range 120).foldl (fun (s : State) c => s.releaseCluster c 3) s).modClk fun k => { k with vinStop := none }
        else s
      | none => s)

end Sys2Proof.Machine
end

