-- ==== Sys2Proof/Machine/Dispatch.lean ====
section
/-! DEFINITION. One arm per command: which meaning each has. -/

namespace Sys2Proof.Machine

/-- The effect of a command on everything but the queue. -/
def exec (i : Instr) (s : State) : Host.Outcome State Fault Refusal :=
  match i with
  | .add t k b => Sys2Proof.Machine.execAdd t k b s
  | .sub t k b => Sys2Proof.Machine.execSub t k b s
  | .mul t k b => Sys2Proof.Machine.execMul t k b s
  | .and t k b => Sys2Proof.Machine.execAnd t k b s
  | .or t k b => Sys2Proof.Machine.execOr t k b s
  | .xor t k b => Sys2Proof.Machine.execXor t k b s
  | .shl t k b => Sys2Proof.Machine.execShl t k b s
  | .shr t k b => Sys2Proof.Machine.execShr t k b s
  | .cmp t k b => Sys2Proof.Machine.execCmp t k b s
  | .sel t k b => Sys2Proof.Machine.execSel t k b s
  | .li t k b => Sys2Proof.Machine.execLi t k b s
  | .lds t k b => Sys2Proof.Machine.execLds t k b s
  | .sts t k b => Sys2Proof.Machine.execSts t k b s
  | .fadd t k b => Sys2Proof.Machine.execFadd t k b s
  | .fmul t k b => Sys2Proof.Machine.execFmul t k b s
  | .fcmp t k b => Sys2Proof.Machine.execFcmp t k b s
  | .br t k b => Sys2Proof.Machine.execBr t k b s
  | .brc t k b => Sys2Proof.Machine.execBrc t k b s
  | .call t k b => Sys2Proof.Machine.execCall t k b s
  | .ret t k b => Sys2Proof.Machine.execRet t k b s
  | .yield t k b => Sys2Proof.Machine.execYield t k b s
  | .yieldExpiry t k => Sys2Proof.Machine.execYieldExpiry t k s
  | .halt t k b => Sys2Proof.Machine.execHalt t k b s
  | .trapNotify t k b => Sys2Proof.Machine.execTrapNotify t k b s
  | .trapFault t k b => Sys2Proof.Machine.execTrapFault t k b s
  | .instructionFetch t k => Sys2Proof.Machine.execInstructionFetch t k s
  | .sig t k b => Sys2Proof.Machine.execSig t k b s
  | .sigArrival j a => Sys2Proof.Machine.execSigArrival j a s
  | .waitq t k b => Sys2Proof.Machine.execWaitq t k b s
  | .waitqRelease t k => Sys2Proof.Machine.execWaitqRelease t k s
  | .bar t k b => Sys2Proof.Machine.execBar t k b s
  | .barArrive t k => Sys2Proof.Machine.execBarArrive t k s
  | .fence t k b => Sys2Proof.Machine.execFence t k b s
  | .mma t k b => Sys2Proof.Machine.execMma t k b s
  | .mmas t k b => Sys2Proof.Machine.execMmas t k b s
  | .mmaArrayStart t => Sys2Proof.Machine.execMmaArrayStart t s
  | .mmaWritebackEnd t => Sys2Proof.Machine.execMmaWritebackEnd t s
  | .accrd t k b => Sys2Proof.Machine.execAccrd t k b s
  | .accrdPortStart t => Sys2Proof.Machine.execAccrdPortStart t s
  | .drainEntryValid t => Sys2Proof.Machine.execDrainEntryValid t s
  | .accclr t k b => Sys2Proof.Machine.execAccclr t k b s
  | .accclrDone t => Sys2Proof.Machine.execAccclrDone t s
  | .vectorEngineStart t => Sys2Proof.Machine.execVectorEngineStart t s
  | .vld t k b => Sys2Proof.Machine.execVld t k b s
  | .vst t k b => Sys2Proof.Machine.execVst t k b s
  | .vdrain t k b => Sys2Proof.Machine.execVdrain t k b s
  | .vdrainTake t => Sys2Proof.Machine.execVdrainTake t s
  | .vop t k b => Sys2Proof.Machine.execVop t k b s
  | .vred t k b => Sys2Proof.Machine.execVred t k b s
  | .vsum t k b => Sys2Proof.Machine.execVsum t k b s
  | .vbc t k b => Sys2Proof.Machine.execVbc t k b s
  | .vtbl t k b => Sys2Proof.Machine.execVtbl t k b s
  | .vqnt t k b => Sys2Proof.Machine.execVqnt t k b s
  | .vdq t k b => Sys2Proof.Machine.execVdq t k b s
  | .scaleEntryArrival a => Sys2Proof.Machine.execScaleEntryArrival a s
  | .vrng t k b => Sys2Proof.Machine.execVrng t k b s
  | .vopt t k b => Sys2Proof.Machine.execVopt t k b s
  | .vscaleObserve t k b => Sys2Proof.Machine.execVscaleObserve t k b s
  | .vscaleFlag t k b => Sys2Proof.Machine.execVscaleFlag t k b s
  | .stagedObservationMerge a => Sys2Proof.Machine.execStagedObservationMerge a s
  | .dma t k b => Sys2Proof.Machine.execDma t k b s
  | .dmaComplete t serial data a ans => Sys2Proof.Machine.execDmaComplete t serial data a ans s
  | .descriptorSlotFree taker => Sys2Proof.Machine.execDescriptorSlotFree taker s
  | .pfx t k b => Sys2Proof.Machine.execPfx t k b s
  | .spill t k b => Sys2Proof.Machine.execSpill t k b s
  | .sqput t k b => Sys2Proof.Machine.execSqput t k b s
  | .sqputWritten side => Sys2Proof.Machine.execSqputWritten side s
  | .sqget t k b => Sys2Proof.Machine.execSqget t k b s
  | .sqgetDelivered t d => Sys2Proof.Machine.execSqgetDelivered t d s
  | .stageCreditReturn p j c => Sys2Proof.Machine.execStageCreditReturn p j c s
  | .coll t k b => Sys2Proof.Machine.execColl t k b s
  | .capstanCollStart t d => Sys2Proof.Machine.execCapstanCollStart t d s
  | .collMessageReceive p l bytes => Sys2Proof.Machine.execCollMessageReceive p l bytes s
  | .collComplete t d => Sys2Proof.Machine.execCollComplete t d s
  | .cwait t k b => Sys2Proof.Machine.execCwait t k b s
  | .lscaleRead t k b => Sys2Proof.Machine.execLscaleRead t k b s
  | .lscaleMul t k b => Sys2Proof.Machine.execLscaleMul t k b s
  | .lscaleDiv t k b => Sys2Proof.Machine.execLscaleDiv t k b s
  | .losschk t k b => Sys2Proof.Machine.execLosschk t k b s
  | .voteCast t k b => Sys2Proof.Machine.execVoteCast t k b s
  | .voteRead t k b => Sys2Proof.Machine.execVoteRead t k b s
  | .commit t k b => Sys2Proof.Machine.execCommit t k b s
  | .lastBucketStart b => Sys2Proof.Machine.execLastBucketStart b s
  | .commitExchange p => Sys2Proof.Machine.execCommitExchange p s
  | .partitionCommit p others => Sys2Proof.Machine.execPartitionCommit p others s
  | .stepStart p => Sys2Proof.Machine.execStepStart p s
  | .tileStepDone t => Sys2Proof.Machine.execTileStepDone t s
  | .siteContribution a => Sys2Proof.Machine.execSiteContribution a s
  | .earlyAbortNotice p source => Sys2Proof.Machine.execEarlyAbortNotice p source s
  | .stepTimeout p => Sys2Proof.Machine.execStepTimeout p s
  | .collTimeout t serial => Sys2Proof.Machine.execCollTimeout t serial s
  | .partitionFaultStop p => Sys2Proof.Machine.execPartitionFaultStop p s
  | .freezeAckTimeout t => Sys2Proof.Machine.execFreezeAckTimeout t s
  | .strikeReceive l b => Sys2Proof.Machine.execStrikeReceive l b s
  | .tileScrubRead t => Sys2Proof.Machine.execTileScrubRead t s
  | .hbmScrubRead b => Sys2Proof.Machine.execHbmScrubRead b s
  | .bar2Read p o r => Sys2Proof.Machine.execBar2Read p o r s
  | .bar2Write p o bytes a => Sys2Proof.Machine.execBar2Write p o bytes a s
  | .hostReadCompletion p tag bytes a => Sys2Proof.Machine.execHostReadCompletion p tag bytes a s
  | .hostCompletionTimeout p j => Sys2Proof.Machine.execHostCompletionTimeout p j s
  | .linkSignalDetect n serial peerLink coord lanes => Sys2Proof.Machine.execLinkSignalDetect n serial peerLink coord lanes s
  | .linkTrainingDone n pass ms => Sys2Proof.Machine.execLinkTrainingDone n pass ms s
  | .qualificationDone n pass => Sys2Proof.Machine.execQualificationDone n pass s
  | .trainingRetryTimer n => Sys2Proof.Machine.execTrainingRetryTimer n s
  | .linkRetrainTrigger n lanes => Sys2Proof.Machine.execLinkRetrainTrigger n lanes s
  | .linkLossTimeout e => Sys2Proof.Machine.execLinkLossTimeout e s
  | .retrain n => Sys2Proof.Machine.execRetrain n s
  | .fullTrain n => Sys2Proof.Machine.execFullTrain n s
  | .loopback n bits r => Sys2Proof.Machine.execLoopback n bits r s
  | .dataFlitReceive n bytes fixed bad ask => Sys2Proof.Machine.execDataFlitReceive n bytes fixed bad ask s
  | .nak n f => Sys2Proof.Machine.execNak n f s
  | .creditInit n f => Sys2Proof.Machine.execCreditInit n f s
  | .resume n f => Sys2Proof.Machine.execResume n f s
  | .replayTimeout n => Sys2Proof.Machine.execReplayTimeout n s
  | .slack n vc => Sys2Proof.Machine.execSlack n vc s
  | .commandForwardReceive data => Sys2Proof.Machine.execCommandForwardReceive data s
  | .hoveToForwardReceive data => Sys2Proof.Machine.execHoveToForwardReceive data s
  | .memberCompletionReceive p m a => Sys2Proof.Machine.execMemberCompletionReceive p m a s
  | .idleRecordLatch p => Sys2Proof.Machine.execIdleRecordLatch p s
  | .setVariant p key => Sys2Proof.Machine.execSetVariant p key s
  | .setVariantCancel p key => Sys2Proof.Machine.execSetVariantCancel p key s
  | .cutStep p => Sys2Proof.Machine.execCutStep p s
  | .musterComplete p m => Sys2Proof.Machine.execMusterComplete p m s
  | .musterTimeout p => Sys2Proof.Machine.execMusterTimeout p s
  | .precopyPass p => Sys2Proof.Machine.execPrecopyPass p s
  | .reshapeBoundary p => Sys2Proof.Machine.execReshapeBoundary p s
  | .segmentReceive p l src move seg off epoch cls last check bytes => Sys2Proof.Machine.execSegmentReceive p l src move seg off epoch cls last check bytes s
  | .destinationVerified p => Sys2Proof.Machine.execDestinationVerified p s
  | .stayFill p second => Sys2Proof.Machine.execStayFill p second s
  | .reshapeSwitch p m => Sys2Proof.Machine.execReshapeSwitch p m s
  | .reshapeDeadline p => Sys2Proof.Machine.execReshapeDeadline p s
  | .stayDeltaStart p second => Sys2Proof.Machine.execStayDeltaStart p second s
  | .stayDeltaComplete p second step => Sys2Proof.Machine.execStayDeltaComplete p second step s
  | .recoveryStart r => Sys2Proof.Machine.execRecoveryStart r s
  | .settleTimeout p => Sys2Proof.Machine.execSettleTimeout p s
  | .positionLost p id spare replica loss => Sys2Proof.Machine.execPositionLost p id spare replica loss s
  | .recoveryWave p wave data => Sys2Proof.Machine.execRecoveryWave p wave data s
  | .recoveryReform p m => Sys2Proof.Machine.execRecoveryReform p m s
  | .backupTrigger b => Sys2Proof.Machine.execBackupTrigger b s
  | .backupDone p b => Sys2Proof.Machine.execBackupDone p b s
  | .sqTailDoorbell p q d => Sys2Proof.Machine.execSqTailDoorbell p q d s
  | .cqHeadDoorbell p q d => Sys2Proof.Machine.execCqHeadDoorbell p q d s
  | .queueEnable p q completion cfg => Sys2Proof.Machine.execQueueEnable p q completion cfg s
  | .commandTake p b => Sys2Proof.Machine.execCommandTake p b s
  | .loadTraverse p key ph => Sys2Proof.Machine.execLoadTraverse p key ph s
  | .unload p key => Sys2Proof.Machine.execUnload p key s
  | .runSteps p key => Sys2Proof.Machine.execRunSteps p key s
  | .warpOut p key => Sys2Proof.Machine.execWarpOut p key s
  | .warpIn p key ph => Sys2Proof.Machine.execWarpIn p key ph s
  | .dmaH2d p key => Sys2Proof.Machine.execDmaH2d p key s
  | .dmaD2h p x => Sys2Proof.Machine.execDmaD2h p x s
  | .fenceCommand p key => Sys2Proof.Machine.execFenceCommand p key s
  | .setTime p key => Sys2Proof.Machine.execSetTime p key s
  | .query p key others => Sys2Proof.Machine.execQuery p key others s
  | .openTenancy p key => Sys2Proof.Machine.execOpenTenancy p key s
  | .closeTenancy p key => Sys2Proof.Machine.execCloseTenancy p key s
  | .commandTimeout p key => Sys2Proof.Machine.execCommandTimeout p key s
  | .partitionReset p failed back => Sys2Proof.Machine.execPartitionReset p failed back s
  | .partCtrlReset p => Sys2Proof.Machine.execPartCtrlReset p s
  | .flr fn => Sys2Proof.Machine.execFlr fn s
  | .functionPowerState p d3hot => Sys2Proof.Machine.execFunctionPowerState p d3hot s
  | .gangForm p => Sys2Proof.Machine.execGangForm p s
  | .gangFormationEnd p joined invite => Sys2Proof.Machine.execGangFormationEnd p joined invite s
  | .gangDissolve p others => Sys2Proof.Machine.execGangDissolve p others s
  | .heartbeatBeat p v => Sys2Proof.Machine.execHeartbeatBeat p v s
  | .heartbeatMiss p => Sys2Proof.Machine.execHeartbeatMiss p s
  | .pcieDlDown => Sys2Proof.Machine.execPcieDlDown s
  | .hoveToLeaseEnd p => Sys2Proof.Machine.execHoveToLeaseEnd p s
  | .admCreate => Sys2Proof.Machine.execAdmCreate s
  | .admResize => Sys2Proof.Machine.execAdmResize s
  | .admDestroy => Sys2Proof.Machine.execAdmDestroy s
  | .admCancel n => Sys2Proof.Machine.execAdmCancel n s
  | .admRelease n => Sys2Proof.Machine.execAdmRelease n s
  | .deferredServe => Sys2Proof.Machine.execDeferredServe s
  | .waitLimitExpiry n => Sys2Proof.Machine.execWaitLimitExpiry n s
  | .victimDeadline p => Sys2Proof.Machine.execVictimDeadline p s
  | .leaseDurationEnd p => Sys2Proof.Machine.execLeaseDurationEnd p s
  | .fltClear p => Sys2Proof.Machine.execFltClear p s
  | .autoReset p => Sys2Proof.Machine.execAutoReset p s
  | .dumpStart p => Sys2Proof.Machine.execDumpStart p s
  | .dumpArmedStart p => Sys2Proof.Machine.execDumpArmedStart p s
  | .dumpAccessTimeout p kind unit j => Sys2Proof.Machine.execDumpAccessTimeout p kind unit j s
  | .dumpEnd p accepted => Sys2Proof.Machine.execDumpEnd p accepted s
  | .dumpAbort p => Sys2Proof.Machine.execDumpAbort p s
  | .witnessCompare p j => Sys2Proof.Machine.execWitnessCompare p j s
  | .witnessUnmatched p j => Sys2Proof.Machine.execWitnessUnmatched p j s
  | .fieldBookEntry => Sys2Proof.Machine.execFieldBookEntry s
  | .fbkUnfreeze => Sys2Proof.Machine.execFbkUnfreeze s
  | .sites p => Sys2Proof.Machine.execSites p s
  | .checkRound results => Sys2Proof.Machine.execCheckRound results s
  | .componentFault core comp cause pc addr => Sys2Proof.Machine.execComponentFault core comp cause pc addr s
  | .componentWatchdogExpiry core comp => Sys2Proof.Machine.execComponentWatchdogExpiry core comp s
  | .hardwareWatchdog core => Sys2Proof.Machine.execHardwareWatchdog core s
  | .coreRestart core cause => Sys2Proof.Machine.execCoreRestart core cause s
  | .tackRestore => Sys2Proof.Machine.execTackRestore s
  | .shimRead fn off n => Sys2Proof.Machine.execShimRead fn off n s
  | .shimReadTimeout fn off n => Sys2Proof.Machine.execShimReadTimeout fn off n s
  | .shimWrite fn off bytes => Sys2Proof.Machine.execShimWrite fn off bytes s
  | .shadowWrite fn off bytes => Sys2Proof.Machine.execShadowWrite fn off bytes s
  | .fallbackEngage => Sys2Proof.Machine.execFallbackEngage s
  | .fallbackRelease => Sys2Proof.Machine.execFallbackRelease s
  | .bootSuccess => Sys2Proof.Machine.execBootSuccess s
  | .firmwareActivation => Sys2Proof.Machine.execFirmwareActivation s
  | .queryDeviceIdentifiers => Sys2Proof.Machine.execQueryDeviceIdentifiers s
  | .getFirmwareParameters => Sys2Proof.Machine.execGetFirmwareParameters s
  | .requestUpdate => Sys2Proof.Machine.execRequestUpdate s
  | .passComponentTable => Sys2Proof.Machine.execPassComponentTable s
  | .updateComponent size => Sys2Proof.Machine.execUpdateComponent size s
  | .requestFirmwareData off data => Sys2Proof.Machine.execRequestFirmwareData off data s
  | .transferComplete => Sys2Proof.Machine.execTransferComplete s
  | .verifyComplete => Sys2Proof.Machine.execVerifyComplete s
  | .applyComplete => Sys2Proof.Machine.execApplyComplete s
  | .activateFirmware => Sys2Proof.Machine.execActivateFirmware s
  | .getStatus => Sys2Proof.Machine.execGetStatus s
  | .cancelUpdateComponent => Sys2Proof.Machine.execCancelUpdateComponent s
  | .cancelUpdate => Sys2Proof.Machine.execCancelUpdate s
  | .getVersion => Sys2Proof.Machine.execGetVersion s
  | .getCapabilities => Sys2Proof.Machine.execGetCapabilities s
  | .negotiateAlgorithms => Sys2Proof.Machine.execNegotiateAlgorithms s
  | .getDigests => Sys2Proof.Machine.execGetDigests s
  | .getCertificate slot off n => Sys2Proof.Machine.execGetCertificate slot off n s
  | .challenge slot nonce => Sys2Proof.Machine.execChallenge slot nonce s
  | .getMeasurements j sign nonce => Sys2Proof.Machine.execGetMeasurements j sign nonce s
  | .refclkPresent us => Sys2Proof.Machine.execRefclkPresent us s
  | .refclkAbsent => Sys2Proof.Machine.execRefclkAbsent s
  | .pllLockAttempt j pass ppm => Sys2Proof.Machine.execPllLockAttempt j pass ppm s
  | .pllMonitorWindow j ppm => Sys2Proof.Machine.execPllMonitorWindow j ppm s
  | .powerLoop power => Sys2Proof.Machine.execPowerLoop power s
  | .thermalLoop clusters links hbms predicted model => Sys2Proof.Machine.execThermalLoop clusters links hbms predicted model s
  | .vinOvercurrent => Sys2Proof.Machine.execVinOvercurrent s
  | .throttleAssert => Sys2Proof.Machine.execThrottleAssert s
  | .throttleRelease => Sys2Proof.Machine.execThrottleRelease s
  | .hwThermalStop c temp => Sys2Proof.Machine.execHwThermalStop c temp s
  | .hbmHotRefresh n temp => Sys2Proof.Machine.execHbmHotRefresh n temp s
  | .thermtrip source temp => Sys2Proof.Machine.execThermtrip source temp s
  | .regulatorFault d kind => Sys2Proof.Machine.execRegulatorFault d kind s
  | .domainGate d => Sys2Proof.Machine.execDomainGate d s
  | .benchmarkSample l => Sys2Proof.Machine.execBenchmarkSample l s
  | .levellingStart => Sys2Proof.Machine.execLevellingStart s
  | .levelNow => Sys2Proof.Machine.execLevelNow s
  | .clkMeasStart pll log2 => Sys2Proof.Machine.execClkMeasStart pll log2 s
  | .clkMeasDone count => Sys2Proof.Machine.execClkMeasDone count s
  | .utcStale => Sys2Proof.Machine.execUtcStale s
  | .lifetimeStatusRecord => Sys2Proof.Machine.execLifetimeStatusRecord s
  | .cadAttribution reg hbm vin vddq link io aux => Sys2Proof.Machine.execCadAttribution reg hbm vin vddq link io aux s
  | .cadRailCompare => Sys2Proof.Machine.execCadRailCompare s
  | .cadSensorSilent => Sys2Proof.Machine.execCadSensorSilent s
  | .cadDeclareOpen => Sys2Proof.Machine.execCadDeclareOpen s
  | .cadDeclareClose => Sys2Proof.Machine.execCadDeclareClose s
  | .cadDeclareUtc => Sys2Proof.Machine.execCadDeclareUtc s
  | .cadResetPulse p => Sys2Proof.Machine.execCadResetPulse p s
  | .cadDeviceResetClose => Sys2Proof.Machine.execCadDeviceResetClose s
  | .cadCheckpoint => Sys2Proof.Machine.execCadCheckpoint s
  | .cadInterim p => Sys2Proof.Machine.execCadInterim p s
  | .cadDeviceRecord => Sys2Proof.Machine.execCadDeviceRecord s
  | .cadSscDetect ppm => Sys2Proof.Machine.execCadSscDetect ppm s
  | .ident => Sys2Proof.Machine.execIdent s
  | .read index => Sys2Proof.Machine.execRead index s
  | .marks => Sys2Proof.Machine.execMarks s
  | .ack index => Sys2Proof.Machine.execAck index s
  | .cert off => Sys2Proof.Machine.execCert off s
  | .totals => Sys2Proof.Machine.execTotals s
  | .part p => Sys2Proof.Machine.execPart p s
  | .setParam code value guard => Sys2Proof.Machine.execSetParam code value guard s
  | .auxPowerUp crc rail ppm => Sys2Proof.Machine.execAuxPowerUp crc rail ppm s
  | .mastheadReady => Sys2Proof.Machine.execMastheadReady s
  | .perstDeassert mode => Sys2Proof.Machine.execPerstDeassert mode s
  | .perstAssert => Sys2Proof.Machine.execPerstAssert s
  | .hbmTrainingTimeout n => Sys2Proof.Machine.execHbmTrainingTimeout n s
  | .deviceReady hbmMs fusesOk => Sys2Proof.Machine.execDeviceReady hbmMs fusesOk s
  | .sequenceFault => Sys2Proof.Machine.execSequenceFault s
  | .pwrGoodFall => Sys2Proof.Machine.execPwrGoodFall s
  | .scanEnHigh => Sys2Proof.Machine.execScanEnHigh s
  | .trst => Sys2Proof.Machine.execTrst s
  | .extest => Sys2Proof.Machine.execExtest s
  | .idcode => Sys2Proof.Machine.execIdcode s
  | .samplePreload => Sys2Proof.Machine.execSamplePreload s
  | .clamp => Sys2Proof.Machine.execClamp s
  | .highz => Sys2Proof.Machine.execHighz s
  | .extestPulse => Sys2Proof.Machine.execExtestPulse s
  | .extestTrain => Sys2Proof.Machine.execExtestTrain s
  | .ijtagAccess => Sys2Proof.Machine.execIjtagAccess s
  | .bypass => Sys2Proof.Machine.execBypass s
  | .unlock value => Sys2Proof.Machine.execUnlock value s
  | .pcieLoopback depth pattern duration => Sys2Proof.Machine.execPcieLoopback depth pattern duration s
  | .pcieLoopbackEnd errors => Sys2Proof.Machine.execPcieLoopbackEnd errors s
  | .hostDirectedLoopback => Sys2Proof.Machine.execHostDirectedLoopback s
  | .hbmLoopback depth stack => Sys2Proof.Machine.execHbmLoopback depth stack s
  | .hbmLoopbackEnd errors => Sys2Proof.Machine.execHbmLoopbackEnd errors s
  | .registerWrite fn off bytes => Sys2Proof.Machine.execRegisterWrite fn off bytes s
  | .registerReadClear fn off n => Sys2Proof.Machine.execRegisterReadClear fn off n s
  | .auxPowerLoss => Sys2Proof.Machine.execAuxPowerLoss s
  | .vinMainCycle => Sys2Proof.Machine.execVinMainCycle s
  | .deviceTick issued => Sys2Proof.Machine.execDeviceTick issued s
  | .vectorComplete t => Sys2Proof.Machine.execVectorComplete t s
  | .hostDmaComplete p key => Sys2Proof.Machine.execHostDmaComplete p key s
  | .hostPostedCredit p key n => Sys2Proof.Machine.execHostPostedCredit p key n s
  | .tagSlotHoldoffEnd p j => Sys2Proof.Machine.execTagSlotHoldoffEnd p j s
  | .pcieDlUp => Sys2Proof.Machine.execPcieDlUp s
  | .idleFlitReceive n ack ccount cvc => Sys2Proof.Machine.execIdleFlitReceive n ack ccount cvc s
  | .relayForward n vc dest m => Sys2Proof.Machine.execRelayForward n vc dest m s
  | .hwThermalRestart c temp => Sys2Proof.Machine.execHwThermalRestart c temp s
  | .governorClockStop temps power => Sys2Proof.Machine.execGovernorClockStop temps power s
  | .sensorShadowUpdate => Sys2Proof.Machine.execSensorShadowUpdate s
  | .pldmPlatformRequest q => Sys2Proof.Machine.execPldmPlatformRequest q s

end Sys2Proof.Machine
end

