-- ==== Sys2Proof/WellFormed.lean ====
section
/-! DEFINITION. Which commands name things the device has: the ranges of the numbers and the lengths of the data that a command
carries. The device answers an ill-formed command too (a number that names nothing finds nothing); statements about a
command's own effect suppose it well formed. -/

namespace Sys2Proof

/-- What is wrong with a command. -/
inductive IllFormed where
  /-- no tile has this PHYS_ID (R13) -/
  | noTile
  /-- a tile has strands 0 to 511 (R61) -/
  | noStrand
  /-- a device has partitions 0 to 11 (R408) -/
  | noPartition
  /-- a device has functions 0 to 12 (R401) -/
  | noFunction
  /-- a device has links 0 to 31 (R320) -/
  | noLink
  /-- a link has virtual channels VC0 to VC7 (R286) -/
  | noChannel
  /-- the units that can be unreachable are tiles, DMA engines, HBM controllers and capstans, of which a device has 2,880, 48, 12 and 4
  (R461) -/
  | noUnit
  /-- there are result slots 0 to 63 (R430) -/
  | noSlot
  /-- a partition has queues 0 to 15 (R411) -/
  | noQueue
  /-- a device has bays, and HBM stacks, 0 to 11 (R25) -/
  | noBay
  /-- a device has PLLs 0 to 149 (R507) -/
  | noPll
  /-- a device has power domains 0 to 191 (R517) -/
  | noDomain
  /-- a device has clusters 0 to 119 (R25) -/
  | noCluster
  /-- the Masthead has cores 0 and 1 (R477) -/
  | noCore
  /-- a register access is of 4 or 8 bytes (R16) -/
  | badWidth
  /-- the lanes of a link are a mask of four (R322) -/
  | badLanes
  /-- TEST_MODE is two pins (R578) -/
  | badMode
  /-- a strike message is one flit, of at most 240 data bytes (R312) -/
  | tooLong
  /-- a submission entry has 64 bytes (R413), a nonce 32 (R500), a flit 256 (R285), a CREDIT_INIT eight counts (R286) -/
  | badLength
  /-- a device has dies 0 to 5; a die crossing is retried at most 3 times, and only one that has been delivers poison (R68, R82) -/
  | badCrossing
  deriving DecidableEq, Repr

/-- Is `t` the PHYS_ID of a tile: die 0 to 3, row 0 to 23, column 0 to 24 (R13)? -/
def tileOk (t : Nat) : Bool := decide (t < 4096) && decide (t / 32 % 32 < 24) && decide (t % 32 < 25)

/-- Do crossings name receiving dies (R68: six crossings) with at most 3 retries each? -/
def crossingsOk (l : List (Nat × Nat)) : Bool := l.all fun c => decide (c.1 < 6) && decide (c.2 ≤ 3)

/-- Is what arrives over die crossings well formed: poison comes only of a crossing that has been retried 3 times (R68, R82)? -/
def arrivalOk (a : Machine.Crossed (List Nat)) : Bool := crossingsOk a.crossings && (a.poison.isEmpty || a.failed)
@[inherit_doc arrivalOk] def messageOk (a : Machine.Crossed Bool) : Bool := crossingsOk a.crossings && (!a.poison || a.failed)

/-- The reason of the first check that fails. -/
def firstBad : List (Bool × IllFormed) → Option IllFormed
  | [] => none
  | (ok, r) :: l => if ok then firstBad l else some r

/-- What is wrong with a command, if anything. -/
def Instr.ill (i : Instr) : Option IllFormed :=
  match i with
  | .add t k _ => firstBad [(tileOk t, .noTile), (decide (k < 512), .noStrand)]
  | .sub t k _ => firstBad [(tileOk t, .noTile), (decide (k < 512), .noStrand)]
  | .mul t k _ => firstBad [(tileOk t, .noTile), (decide (k < 512), .noStrand)]
  | .and t k _ => firstBad [(tileOk t, .noTile), (decide (k < 512), .noStrand)]
  | .or t k _ => firstBad [(tileOk t, .noTile), (decide (k < 512), .noStrand)]
  | .xor t k _ => firstBad [(tileOk t, .noTile), (decide (k < 512), .noStrand)]
  | .shl t k _ => firstBad [(tileOk t, .noTile), (decide (k < 512), .noStrand)]
  | .shr t k _ => firstBad [(tileOk t, .noTile), (decide (k < 512), .noStrand)]
  | .cmp t k _ => firstBad [(tileOk t, .noTile), (decide (k < 512), .noStrand)]
  | .sel t k _ => firstBad [(tileOk t, .noTile), (decide (k < 512), .noStrand)]
  | .li t k _ => firstBad [(tileOk t, .noTile), (decide (k < 512), .noStrand)]
  | .lds t k _ => firstBad [(tileOk t, .noTile), (decide (k < 512), .noStrand)]
  | .sts t k _ => firstBad [(tileOk t, .noTile), (decide (k < 512), .noStrand)]
  | .fadd t k _ => firstBad [(tileOk t, .noTile), (decide (k < 512), .noStrand)]
  | .fmul t k _ => firstBad [(tileOk t, .noTile), (decide (k < 512), .noStrand)]
  | .fcmp t k _ => firstBad [(tileOk t, .noTile), (decide (k < 512), .noStrand)]
  | .br t k _ => firstBad [(tileOk t, .noTile), (decide (k < 512), .noStrand)]
  | .brc t k _ => firstBad [(tileOk t, .noTile), (decide (k < 512), .noStrand)]
  | .call t k _ => firstBad [(tileOk t, .noTile), (decide (k < 512), .noStrand)]
  | .ret t k _ => firstBad [(tileOk t, .noTile), (decide (k < 512), .noStrand)]
  | .yield t k _ => firstBad [(tileOk t, .noTile), (decide (k < 512), .noStrand)]
  | .yieldExpiry t k => firstBad [(tileOk t, .noTile), (decide (k < 512), .noStrand)]
  | .halt t k _ => firstBad [(tileOk t, .noTile), (decide (k < 512), .noStrand)]
  | .trapNotify t k _ => firstBad [(tileOk t, .noTile), (decide (k < 512), .noStrand)]
  | .trapFault t k _ => firstBad [(tileOk t, .noTile), (decide (k < 512), .noStrand)]
  | .instructionFetch t k => firstBad [(tileOk t, .noTile), (decide (k < 512), .noStrand)]
  | .sig t k _ => firstBad [(tileOk t, .noTile), (decide (k < 512), .noStrand)]
  | .sigArrival _ a => firstBad [(messageOk a, .badCrossing)]
  | .waitq t k _ => firstBad [(tileOk t, .noTile), (decide (k < 512), .noStrand)]
  | .waitqRelease t k => firstBad [(tileOk t, .noTile), (decide (k < 512), .noStrand)]
  | .bar t k _ => firstBad [(tileOk t, .noTile), (decide (k < 512), .noStrand)]
  | .barArrive t k => firstBad [(tileOk t, .noTile), (decide (k < 512), .noStrand)]
  | .fence t k _ => firstBad [(tileOk t, .noTile), (decide (k < 512), .noStrand)]
  | .mma t k _ => firstBad [(tileOk t, .noTile), (decide (k < 512), .noStrand)]
  | .mmas t k _ => firstBad [(tileOk t, .noTile), (decide (k < 512), .noStrand)]
  | .mmaArrayStart t => firstBad [(tileOk t, .noTile)]
  | .mmaWritebackEnd t => firstBad [(tileOk t, .noTile)]
  | .accrd t k _ => firstBad [(tileOk t, .noTile), (decide (k < 512), .noStrand)]
  | .accrdPortStart t => firstBad [(tileOk t, .noTile)]
  | .drainEntryValid t => firstBad [(tileOk t, .noTile)]
  | .accclr t k _ => firstBad [(tileOk t, .noTile), (decide (k < 512), .noStrand)]
  | .accclrDone t => firstBad [(tileOk t, .noTile)]
  | .vectorEngineStart t => firstBad [(tileOk t, .noTile)]
  | .vld t k _ => firstBad [(tileOk t, .noTile), (decide (k < 512), .noStrand)]
  | .vst t k _ => firstBad [(tileOk t, .noTile), (decide (k < 512), .noStrand)]
  | .vdrain t k _ => firstBad [(tileOk t, .noTile), (decide (k < 512), .noStrand)]
  | .vdrainTake t => firstBad [(tileOk t, .noTile)]
  | .vop t k _ => firstBad [(tileOk t, .noTile), (decide (k < 512), .noStrand)]
  | .vred t k _ => firstBad [(tileOk t, .noTile), (decide (k < 512), .noStrand)]
  | .vsum t k _ => firstBad [(tileOk t, .noTile), (decide (k < 512), .noStrand)]
  | .vbc t k _ => firstBad [(tileOk t, .noTile), (decide (k < 512), .noStrand)]
  | .vtbl t k _ => firstBad [(tileOk t, .noTile), (decide (k < 512), .noStrand)]
  | .vqnt t k _ => firstBad [(tileOk t, .noTile), (decide (k < 512), .noStrand)]
  | .vdq t k _ => firstBad [(tileOk t, .noTile), (decide (k < 512), .noStrand)]
  | .scaleEntryArrival a => firstBad [(tileOk a.tile, .noTile), (messageOk a.arrived, .badCrossing)]
  | .vrng t k _ => firstBad [(tileOk t, .noTile), (decide (k < 512), .noStrand)]
  | .vopt t k _ => firstBad [(tileOk t, .noTile), (decide (k < 512), .noStrand)]
  | .vscaleObserve t k _ => firstBad [(tileOk t, .noTile), (decide (k < 512), .noStrand)]
  | .vscaleFlag t k _ => firstBad [(tileOk t, .noTile), (decide (k < 512), .noStrand)]
  | .stagedObservationMerge a => firstBad [(messageOk a.arrived, .badCrossing)]
  | .dma t k _ => firstBad [(tileOk t, .noTile), (decide (k < 512), .noStrand)]
  | .dmaComplete t _ _ a _ => firstBad [(tileOk t, .noTile), (arrivalOk a, .badCrossing)]
  | .descriptorSlotFree _ => none
  | .pfx t k _ => firstBad [(tileOk t, .noTile), (decide (k < 512), .noStrand)]
  | .spill t k _ => firstBad [(tileOk t, .noTile), (decide (k < 512), .noStrand)]
  | .sqput t k _ => firstBad [(tileOk t, .noTile), (decide (k < 512), .noStrand)]
  | .sqputWritten e => firstBad [(arrivalOk e.arrived, .badCrossing)]
  | .sqget t k _ => firstBad [(tileOk t, .noTile), (decide (k < 512), .noStrand)]
  | .sqgetDelivered t d => firstBad [(tileOk t, .noTile), (arrivalOk d.arrived, .badCrossing)]
  | .stageCreditReturn p _ _ => firstBad [(decide (p < 12), .noPartition)]
  | .coll t k _ => firstBad [(tileOk t, .noTile), (decide (k < 512), .noStrand)]
  | .capstanCollStart t d => firstBad [(tileOk t, .noTile), (arrivalOk d.arrived, .badCrossing)]
  | .collMessageReceive p l _ => firstBad [(decide (p < 12), .noPartition), (decide (l < 32), .noLink)]
  | .collComplete t d => firstBad [(tileOk t, .noTile), (arrivalOk d.arrived, .badCrossing)]
  | .cwait t k _ => firstBad [(tileOk t, .noTile), (decide (k < 512), .noStrand)]
  | .lscaleRead t k _ => firstBad [(tileOk t, .noTile), (decide (k < 512), .noStrand)]
  | .lscaleMul t k _ => firstBad [(tileOk t, .noTile), (decide (k < 512), .noStrand)]
  | .lscaleDiv t k _ => firstBad [(tileOk t, .noTile), (decide (k < 512), .noStrand)]
  | .losschk t k _ => firstBad [(tileOk t, .noTile), (decide (k < 512), .noStrand)]
  | .voteCast t k _ => firstBad [(tileOk t, .noTile), (decide (k < 512), .noStrand)]
  | .voteRead t k _ => firstBad [(tileOk t, .noTile), (decide (k < 512), .noStrand)]
  | .commit t k _ => firstBad [(tileOk t, .noTile), (decide (k < 512), .noStrand)]
  | .lastBucketStart b => firstBad [(tileOk b.tile, .noTile), (arrivalOk b.arrived, .badCrossing)]
  | .commitExchange p => firstBad [(decide (p < 12), .noPartition)]
  | .partitionCommit p _ => firstBad [(decide (p < 12), .noPartition)]
  | .stepStart p => firstBad [(decide (p < 12), .noPartition)]
  | .tileStepDone t => firstBad [(tileOk t, .noTile)]
  | .siteContribution a => firstBad [(messageOk a.arrived, .badCrossing)]
  | .earlyAbortNotice p _ => firstBad [(decide (p < 12), .noPartition)]
  | .stepTimeout p => firstBad [(decide (p < 12), .noPartition)]
  | .collTimeout t _ => firstBad [(tileOk t, .noTile)]
  | .partitionFaultStop p => firstBad [(decide (p < 12), .noPartition)]
  | .freezeAckTimeout u => firstBad [(decide (u.part < 12), .noPartition),
    (match u.kind with | 0 => tileOk u.unit | 1 => decide (u.unit < 48) | 2 => decide (u.unit < 12) | 3 => decide (u.unit < 4) | _ => false, .noUnit)]
  | .strikeReceive l b => firstBad [(decide (l < 32), .noLink), (decide (b.length ≤ 240), .tooLong)]
  | .tileScrubRead t => firstBad [(tileOk t, .noTile)]
  | .hbmScrubRead b => firstBad [(decide (b < 12), .noBay)]
  | .bar2Read p _ r => firstBad [(decide (p < 12), .noPartition), (arrivalOk r.arrived, .badCrossing)]
  | .bar2Write p _ _ a => firstBad [(decide (p < 12), .noPartition), (arrivalOk a.arrived, .badCrossing)]
  | .hostReadCompletion p _ _ a => firstBad [(decide (p < 12), .noPartition), (arrivalOk a.arrived, .badCrossing)]
  | .hostCompletionTimeout p _ => firstBad [(decide (p < 12), .noPartition)]
  | .linkSignalDetect n _ _ _ lanes => firstBad [(decide (n < 32), .noLink), (decide (lanes < 16), .badLanes)]
  | .linkTrainingDone n _ _ => firstBad [(decide (n < 32), .noLink)]
  | .qualificationDone n _ => firstBad [(decide (n < 32), .noLink)]
  | .trainingRetryTimer n => firstBad [(decide (n < 32), .noLink)]
  | .linkRetrainTrigger n lanes => firstBad [(decide (n < 32), .noLink), (decide (lanes < 16), .badLanes)]
  | .linkLossTimeout e => firstBad [(decide (e.link < 32), .noLink)]
  | .retrain n => firstBad [(decide (n < 32), .noLink)]
  | .fullTrain n => firstBad [(decide (n < 32), .noLink)]
  | .loopback n _ _ => firstBad [(decide (n < 32), .noLink)]
  | .dataFlitReceive n bytes _ _ _ => firstBad [(decide (n < 32), .noLink), (decide (bytes.length = 256), .badLength)]
  | .nak n _ => firstBad [(decide (n < 32), .noLink)]
  | .creditInit n f => firstBad [(decide (n < 32), .noLink), (decide (f.counts.length = 8), .badLength)]
  | .resume n _ => firstBad [(decide (n < 32), .noLink)]
  | .replayTimeout n => firstBad [(decide (n < 32), .noLink)]
  | .slack n vc => firstBad [(decide (n < 32), .noLink), (decide (vc < 8), .noChannel)]
  | .commandForwardReceive _ => none
  | .hoveToForwardReceive _ => none
  | .memberCompletionReceive p _ _ => firstBad [(decide (p < 12), .noPartition)]
  | .idleRecordLatch p => firstBad [(decide (p < 12), .noPartition)]
  | .setVariant p _ => firstBad [(decide (p < 12), .noPartition)]
  | .setVariantCancel p _ => firstBad [(decide (p < 12), .noPartition)]
  | .cutStep p => firstBad [(decide (p < 12), .noPartition)]
  | .musterComplete p _ => firstBad [(decide (p < 12), .noPartition)]
  | .musterTimeout p => firstBad [(decide (p < 12), .noPartition)]
  | .precopyPass p => firstBad [(decide (p < 12), .noPartition)]
  | .reshapeBoundary p => firstBad [(decide (p < 12), .noPartition)]
  | .segmentReceive p l _ _ _ _ _ _ _ _ _ => firstBad [(decide (p < 12), .noPartition), (decide (l < 32), .noLink)]
  | .destinationVerified p => firstBad [(decide (p < 12), .noPartition)]
  | .stayFill p _ => firstBad [(decide (p < 12), .noPartition)]
  | .reshapeSwitch p _ => firstBad [(decide (p < 12), .noPartition)]
  | .reshapeDeadline p => firstBad [(decide (p < 12), .noPartition)]
  | .stayDeltaStart p _ => firstBad [(decide (p < 12), .noPartition)]
  | .stayDeltaComplete p _ _ => firstBad [(decide (p < 12), .noPartition)]
  | .recoveryStart r => firstBad [(decide (r.part < 12), .noPartition)]
  | .settleTimeout p => firstBad [(decide (p < 12), .noPartition)]
  | .positionLost p _ _ _ _ => firstBad [(decide (p < 12), .noPartition)]
  | .recoveryWave p _ _ => firstBad [(decide (p < 12), .noPartition)]
  | .recoveryReform p _ => firstBad [(decide (p < 12), .noPartition)]
  | .backupTrigger b => firstBad [(decide (b.part < 12), .noPartition)]
  | .backupDone p _ => firstBad [(decide (p < 12), .noPartition)]
  | .sqTailDoorbell p q _ => firstBad [(decide (p < 12), .noPartition), (decide (q < 16), .noQueue)]
  | .cqHeadDoorbell p q _ => firstBad [(decide (p < 12), .noPartition), (decide (q < 16), .noQueue)]
  | .queueEnable p q _ _ => firstBad [(decide (p < 12), .noPartition), (decide (q < 16), .noQueue)]
  | .commandTake p b => firstBad [(decide (p < 12), .noPartition), (decide (b.length = 64), .badLength)]
  | .loadTraverse p _ _ => firstBad [(decide (p < 12), .noPartition)]
  | .unload p _ => firstBad [(decide (p < 12), .noPartition)]
  | .runSteps p _ => firstBad [(decide (p < 12), .noPartition)]
  | .warpOut p _ => firstBad [(decide (p < 12), .noPartition)]
  | .warpIn p _ _ => firstBad [(decide (p < 12), .noPartition)]
  | .dmaH2d p _ => firstBad [(decide (p < 12), .noPartition)]
  | .dmaD2h p x => firstBad [(decide (p < 12), .noPartition), (arrivalOk x.arrived, .badCrossing)]
  | .fenceCommand p _ => firstBad [(decide (p < 12), .noPartition)]
  | .setTime p _ => firstBad [(decide (p < 12), .noPartition)]
  | .query p _ _ => firstBad [(decide (p < 12), .noPartition)]
  | .openTenancy p _ => firstBad [(decide (p < 12), .noPartition)]
  | .closeTenancy p _ => firstBad [(decide (p < 12), .noPartition)]
  | .commandTimeout p _ => firstBad [(decide (p < 12), .noPartition)]
  | .partitionReset p _ _ => firstBad [(decide (p < 12), .noPartition)]
  | .partCtrlReset p => firstBad [(decide (p < 12), .noPartition)]
  | .flr fn => firstBad [(decide (fn < 13), .noFunction)]
  | .functionPowerState p _ => firstBad [(decide (p < 12), .noPartition)]
  | .gangForm p => firstBad [(decide (p < 12), .noPartition)]
  | .gangFormationEnd p _ _ => firstBad [(decide (p < 12), .noPartition)]
  | .gangDissolve p _ => firstBad [(decide (p < 12), .noPartition)]
  | .heartbeatBeat p _ => firstBad [(decide (p < 12), .noPartition)]
  | .heartbeatMiss p => firstBad [(decide (p < 12), .noPartition)]
  | .pcieDlDown => none
  | .hoveToLeaseEnd p => firstBad [(decide (p < 12), .noPartition)]
  | .admCreate => none
  | .admResize => none
  | .admDestroy => none
  | .admCancel n => firstBad [(decide (n < 64), .noSlot)]
  | .admRelease n => firstBad [(decide (n < 64), .noSlot)]
  | .deferredServe => none
  | .waitLimitExpiry n => firstBad [(decide (n < 64), .noSlot)]
  | .victimDeadline p => firstBad [(decide (p < 12), .noPartition)]
  | .leaseDurationEnd p => firstBad [(decide (p < 12), .noPartition)]
  | .fltClear p => firstBad [(decide (p < 12), .noPartition)]
  | .autoReset a => firstBad [(decide (a.part < 12), .noPartition)]
  | .dumpStart p => firstBad [(decide (p < 12), .noPartition)]
  | .dumpArmedStart p => firstBad [(decide (p < 12), .noPartition)]
  | .dumpAccessTimeout p _ _ _ => firstBad [(decide (p < 12), .noPartition)]
  | .dumpEnd p _ => firstBad [(decide (p < 12), .noPartition)]
  | .dumpAbort p => firstBad [(decide (p < 12), .noPartition)]
  | .witnessCompare p _ => firstBad [(decide (p < 12), .noPartition)]
  | .witnessUnmatched p _ => firstBad [(decide (p < 12), .noPartition)]
  | .fieldBookEntry => none
  | .fbkUnfreeze => none
  | .sites p => firstBad [(decide (p < 12), .noPartition)]
  | .checkRound _ => none
  | .componentFault core _ _ _ _ => firstBad [(decide (core < 2), .noCore)]
  | .componentWatchdogExpiry core _ => firstBad [(decide (core < 2), .noCore)]
  | .hardwareWatchdog core => firstBad [(decide (core < 2), .noCore)]
  | .coreRestart core _ => firstBad [(decide (core < 2), .noCore)]
  | .tackRestore => none
  | .shimRead fn _ n => firstBad [(decide (fn < 13), .noFunction), ((decide (n = 4) || decide (n = 8)), .badWidth)]
  | .shimReadTimeout fn _ n => firstBad [(decide (fn < 13), .noFunction), ((decide (n = 4) || decide (n = 8)), .badWidth)]
  | .shimWrite fn _ bytes => firstBad [(decide (fn < 13), .noFunction), ((decide (bytes.length = 4) || decide (bytes.length = 8)), .badWidth)]
  | .shadowWrite fn _ bytes => firstBad [(decide (fn < 13), .noFunction), ((decide (bytes.length = 4) || decide (bytes.length = 8)), .badWidth)]
  | .fallbackEngage => none
  | .fallbackRelease => none
  | .bootSuccess => none
  | .firmwareActivation => none
  | .queryDeviceIdentifiers => none
  | .getFirmwareParameters => none
  | .requestUpdate => none
  | .passComponentTable => none
  | .updateComponent _ => none
  | .requestFirmwareData _ _ => none
  | .transferComplete => none
  | .verifyComplete => none
  | .applyComplete => none
  | .activateFirmware => none
  | .getStatus => none
  | .cancelUpdateComponent => none
  | .cancelUpdate => none
  | .getVersion => none
  | .getCapabilities => none
  | .negotiateAlgorithms => none
  | .getDigests => none
  | .getCertificate _ _ _ => none
  | .challenge _ nonce => firstBad [(decide (nonce.length = 32), .badLength)]
  | .getMeasurements _ _ nonce => firstBad [(decide (nonce.length = 32), .badLength)]
  | .refclkPresent _ => none
  | .refclkAbsent => none
  | .pllLockAttempt i _ _ => firstBad [(decide (i < 150), .noPll)]
  | .pllMonitorWindow i _ => firstBad [(decide (i < 150), .noPll)]
  | .powerLoop _ => none
  | .thermalLoop _ _ _ _ _ => none
  | .vinOvercurrent => none
  | .throttleAssert => none
  | .throttleRelease => none
  | .hwThermalStop c _ => firstBad [(decide (c < 120), .noCluster)]
  | .hbmHotRefresh n _ => firstBad [(decide (n < 12), .noBay)]
  | .thermtrip _ _ => none
  | .regulatorFault d _ => firstBad [(decide (d < 192), .noDomain)]
  | .domainGate d => firstBad [(decide (d < 192), .noDomain)]
  | .benchmarkSample _ => none
  | .levellingStart => none
  | .levelNow => none
  | .clkMeasStart _ _ => none
  | .clkMeasDone _ => none
  | .utcStale => none
  | .lifetimeStatusRecord => none
  | .cadAttribution _ _ _ _ _ _ _ => none
  | .cadRailCompare => none
  | .cadSensorSilent => none
  | .cadDeclareOpen => none
  | .cadDeclareClose => none
  | .cadDeclareUtc => none
  | .cadResetPulse p => firstBad [(decide (p < 12), .noPartition)]
  | .cadDeviceResetClose => none
  | .cadCheckpoint => none
  | .cadInterim p => firstBad [(decide (p < 12), .noPartition)]
  | .cadDeviceRecord => none
  | .cadSscDetect _ => none
  | .ident => none
  | .read _ => none
  | .marks => none
  | .ack _ => none
  | .cert _ => none
  | .totals => none
  | .part p => firstBad [(decide (p < 12), .noPartition)]
  | .setParam _ _ _ => none
  | .auxPowerUp _ _ _ => none
  | .mastheadReady => none
  | .perstDeassert mode => firstBad [(decide (mode < 4), .badMode)]
  | .perstAssert => none
  | .hbmTrainingTimeout n => firstBad [(decide (n < 12), .noBay)]
  | .deviceReady _ _ => none
  | .sequenceFault => none
  | .pwrGoodFall => none
  | .scanEnHigh => none
  | .trst => none
  | .extest => none
  | .idcode => none
  | .samplePreload => none
  | .clamp => none
  | .highz => none
  | .extestPulse => none
  | .extestTrain => none
  | .ijtagAccess => none
  | .bypass => none
  | .unlock _ => none
  | .pcieLoopback _ _ _ => none
  | .pcieLoopbackEnd _ => none
  | .hostDirectedLoopback => none
  | .hbmLoopback _ _ => none
  | .hbmLoopbackEnd _ => none
  | .registerWrite fn _ bytes => firstBad [(decide (fn < 13), .noFunction), ((decide (bytes.length = 4) || decide (bytes.length = 8)), .badWidth)]
  | .registerReadClear fn _ n => firstBad [(decide (fn < 13), .noFunction), ((decide (n = 4) || decide (n = 8)), .badWidth)]
  | .auxPowerLoss => none
  | .vinMainCycle => none
  | .deviceTick _ => none
  | .vectorComplete t => firstBad [(tileOk t, .noTile)]
  | .hostDmaComplete p _ => firstBad [(decide (p < 12), .noPartition)]
  | .hostPostedCredit p _ _ => firstBad [(decide (p < 12), .noPartition)]
  | .tagSlotHoldoffEnd p _ => firstBad [(decide (p < 12), .noPartition)]
  | .pcieDlUp => none
  | .idleFlitReceive n _ _ _ => firstBad [(decide (n < 32), .noLink)]
  | .relayForward n vc _ _ => firstBad [(decide (n < 32), .noLink), (decide (vc < 8), .noChannel)]
  | .hwThermalRestart c _ => firstBad [(decide (c < 120), .noCluster)]
  | .governorClockStop _ _ => none
  | .sensorShadowUpdate => none
  | .pldmPlatformRequest _ => none

/-- Is a command well formed? -/
def Instr.wf (i : Instr) : Bool := i.ill.isNone

end Sys2Proof
end

