-- ==== Sys2Proof/Safety.lean ====
section
/-! DEFINITION. What counts as a sound state: the device's tables are in their one canonical form, and the registers whose fields
the manual bounds hold values inside the bounds. -/

namespace Sys2Proof.Machine

/-- Every table of the device is canonical: equal contents are equal data. -/
structure State.Canonical (s : State) : Prop where
  tiles : mwf Tile.reset s.tiles = true
  hbm : mwf 0 s.hbm = true
  hbmErr : mwf 0 s.hbmErr = true
  hbmPoison : mwf false s.hbmPoison = true
  hbmScrub : mwf 0 s.hbmScrub = true
  engines : mwf 0 s.engines = true
  parts : mwf Part.reset s.parts = true
  links : mwf Link.reset s.links = true
  capstans : mwf ⟨0⟩ s.capstans = true
  lnkSsc : mwf 0 s.lnkSsc = true
  sscForce : mwf 0 s.sscForce = true
  pci : mwf PciFn.reset s.pci = true
  latchRead : mwf none s.latchRead = true
  latchWrite : mwf none s.latchWrite = true

/-- The bounded registers and FIFOs of the device lie inside their bounds: LNK_COORD's reserved bits read 0 (R325), LNK_VCWEIGHT
has three bytes and LNK_LOSS is 1 to 1,000 (R326), and the Cadastre's declaration FIFO holds at most 32 (R557). -/
structure State.Bounded (s : State) : Prop where
  coord : s.coord &&& 0x7FE0E0F8 = 0
  vcWeight : s.vcWeight &&& 0xFF000000 = 0
  lossLow : 1 ≤ s.lossMs
  lossHigh : s.lossMs ≤ 1000
  decls : s.decls.length ≤ 32

/-- The invariant that every step keeps. -/
structure State.Inv (s : State) : Prop where
  canonical : s.Canonical
  bounded : s.Bounded

/-! ### Words of the statements -/

/-- Strand `k` of tile `t` can issue `w` now, reads it from storage without an error, and does not annul it (R59, R64, R86, R87). -/
structure State.issuable (s : State) (t k : Nat) (w : IWord) : Prop where
  can : s.canIssue t k w = true
  clean : (s.tile t).ecc = []
  holds : predHolds w ((s.tile t).strand k).cw = true

/-- Nothing but tile `t` differs between two states. -/
structure State.onlyTile (s s' : State) (t : Nat) : Prop where
  rest : s' = { s with tiles := s'.tiles }
  others : ∀ u, u ≠ t → s'.tile u = s.tile u

/-- Nothing but partition `p` differs between two states. -/
structure State.onlyPart (s s' : State) (p : Nat) : Prop where
  rest : s' = { s with parts := s'.parts }
  others : ∀ q, q ≠ p → s'.part q = s.part q

/-- The operand width of a scalar instruction: 32 with W32, else 64 (R89). -/
def widthOf (w : IWord) : Nat := if fl105 w then 32 else 64

/-- The low `n` bits of the source that specifier `sp` names (R84, R90). -/
def State.operand (s : State) (t k : Nat) (w : IWord) (n sp : Nat) : BitVec n := ((s.tile t).src k w sp).setWidth n

/-- The flags of a sum or difference `r` of `n`-bit numbers with carry or borrow `c` and exact signed value `x` (R91). -/
def sumFlags {n : Nat} (r : BitVec n) (c : Bool) (x : Int) : Flags :=
  ⟨decide (r = 0), r.msb, c, decide (x < -(2 ^ (n - 1) : Nat)) || decide ((2 ^ (n - 1) : Nat) ≤ x), false⟩

/-- The flags of a result `r` whose C is `c` and V `v` (R91). -/
def resultFlags {n : Nat} (r : BitVec n) (c v : Bool) : Flags := ⟨decide (r = 0), r.msb, c, v, false⟩

/-- Strand `k` of tile `t` after a scalar instruction `w` whose result is `r`: the result zero-extended into SD, with SETC the
flags in the condition word, and the strand at its next instruction (R87, R89, R91). -/
def State.scalarDone (s : State) (t k : Nat) (w : IWord) {n : Nat} (r : BitVec n) (f : Flags) : State :=
  let x := (s.tile t).dst k (sdOf w) (r.setWidth 64)
  (s.setTile t (if fl106 w then x.putFlags k f else x)).advance t k

/-- Command `key` of partition `p`, which is `c`, can start as kind `op`, and its row lists the partition's state and tenancy (R412, R415); it
came from this device's host, which may command the partition (R37), and is not forwarded. -/
structure State.startable (s : State) (p key op : Nat) (c : Cmd) : Prop where
  may : s.mayStart p key op = true
  cmd : (s.part p).cmd key = some c
  listed : (s.part p).admits op .host = true
  unbound : (s.part p).gang.formed = true → (s.part p).gang.role = 1
  tenancy : needsTenancy op = true → (s.part p).tenancy ≠ 0
  host : c.origin = .host
  alone : c.forwarded = false

/-- Command `c` marked as started, and its timeout running from now on, or for host DMA and a DEADLINE from when it was taken (R363, R416). -/
def Cmd.begun (c : Cmd) (op : Nat) (now : W64) : Cmd :=
  { c with started := true, start := if op = 0x10 ∨ op = 0x11 ∨ (op = 4 ∧ c.deadlineSecs ≠ 0) then c.start else now }

/-- Partition `p` once command `key` has started. -/
def State.begun (s : State) (p key op : Nat) : State := s.modPart p fun x => x.modCmd key fun c => c.begun op s.time

/-- Command `c` of the host completes: it is gone, and its completion is posted to its queue's completion queue (R414). -/
def State.completed (s : State) (p : Nat) (c : Cmd) (status : Nat) (d0 : W32) (d1 : W64) : State :=
  (s.dropCmd p c).post p ((s.part p).sq c.sq).cq ⟨c.cid, status, false, false, c.sq, 0xF, c.csn, d0, d1, s.time, c.noIrq⟩

end Sys2Proof.Machine
end

