-- ==== Sys2Proof/Certificates/Slice0/Obligations.lean ====
section
/-! DEFINITION. The statements for the provers: what each family of commands does by the rules of the manual, and what every step keeps. Each
names the rules it rests on. -/

open Sys2Proof Sys2Proof.Machine

/-! ### Scalar instructions (R84 to R92) -/

/-- ADD, SUB and CMP (R90, R91): the sum or difference modulo 2^w; C the carry out of a sum and 1 when a < b in a difference; V signed
overflow; CMP writes the flags of the difference and no register. -/
def Obligations.AddSubCompare : Prop :=
  ∀ (t k n : Nat) (b : IBody) (s : State) (w : IWord), n = widthOf w → s.issuable t k w →
  let a := s.operand t k w n (saOf w)
  let c := s.operand t k w n (sbOf w)
  (w = wordOf 0x01 b → aluOk [0] w = true → exec (.add t k b) s
    = .next (s.scalarDone t k w (a + c) (sumFlags (a + c) (decide (2 ^ n ≤ a.toNat + c.toNat)) (a.toInt + c.toInt))))
  ∧ (w = wordOf 0x02 b → aluOk [0] w = true → exec (.sub t k b) s
    = .next (s.scalarDone t k w (a - c) (sumFlags (a - c) (decide (a.toNat < c.toNat)) (a.toInt - c.toInt))))
  ∧ (w = wordOf 0x09 b → cmpOk w = true → exec (.cmp t k b) s
    = .next ((s.setTile t ((s.tile t).putFlags k
        (sumFlags (a - c) (decide (a.toNat < c.toNat)) (a.toInt - c.toInt)))).advance t k))

/-- MUL (R90, R91): FN 0 the low half, with V when the signed product does not fit in w bits; FN 1 and 2 the high half of the
unsigned and of the signed product, with V 0; C is 0 in all. -/
def Obligations.Multiply : Prop :=
  ∀ (t k n : Nat) (b : IBody) (s : State) (w : IWord), w = wordOf 0x03 b → n = widthOf w → s.issuable t k w →
  aluOk [0, 1, 2] w = true →
  let a := s.operand t k w n (saOf w)
  let c := s.operand t k w n (sbOf w)
  let hu : BitVec n := (a.setWidth (2 * n) * c.setWidth (2 * n)).extractLsb' n n
  let hs : BitVec n := (a.signExtend (2 * n) * c.signExtend (2 * n)).extractLsb' n n
  (xtOf w = 0 → exec (.mul t k b) s = .next (s.scalarDone t k w (a * c) (sumFlags (a * c) false (a.toInt * c.toInt))))
  ∧ (xtOf w = 1 → exec (.mul t k b) s = .next (s.scalarDone t k w hu (resultFlags hu false false)))
  ∧ (xtOf w = 2 → exec (.mul t k b) s = .next (s.scalarDone t k w hs (resultFlags hs false false)))

/-- AND, OR, XOR, SEL and LI (R89, R91): the logical results with C and V 0; SEL's choice by its condition on the condition word,
negated with FN[4]; LI's immediate. SEL and LI write no flag. -/
def LogicSelectImmediateRule : Prop :=
  ∀ (t k n : Nat) (b : IBody) (s : State) (w : IWord), n = widthOf w → s.issuable t k w →
  let a := s.operand t k w n (saOf w)
  let c := s.operand t k w n (sbOf w)
  let x := s.tile t
  (w = wordOf 0x04 b → aluOk [0] w = true →
    exec (.and t k b) s = .next (s.scalarDone t k w (a &&& c) (resultFlags (a &&& c) false false)))
  ∧ (w = wordOf 0x05 b → aluOk [0] w = true →
    exec (.or t k b) s = .next (s.scalarDone t k w (a ||| c) (resultFlags (a ||| c) false false)))
  ∧ (w = wordOf 0x06 b → aluOk [0] w = true →
    exec (.xor t k b) s = .next (s.scalarDone t k w (a ^^^ c) (resultFlags (a ^^^ c) false false)))
  ∧ (w = wordOf 0x0A b → selOk w = true →
    let cw := (x.strand k).cw
    let pick := if condHolds (xtOf w % 16) (flagsOfCw cw) cw = decide (xtOf w < 16) then saOf w else sbOf w
    exec (.sel t k b) s = .next ((s.setTile t (x.dst k (sdOf w) (x.src k w pick))).advance t k))
  ∧ (w = wordOf 0x0B b → liOk w = true →
    exec (.li t k b) s = .next ((s.setTile t (x.dst k (sdOf w) (immOf w))).advance t k))

/-- SHL and SHR (R90, R91): the amount is b[5:0], or b[4:0] with W32; SHR with FN 1 shifts in the sign; C is the last bit shifted out,
0 when the amount is 0. -/
def ShiftsRule : Prop :=
  ∀ (t k n : Nat) (b : IBody) (s : State) (w : IWord), n = widthOf w → s.issuable t k w →
  let a := s.operand t k w n (saOf w)
  let m := ((s.tile t).src k w (sbOf w)).toNat % n
  (w = wordOf 0x07 b → aluOk [0] w = true → exec (.shl t k b) s
    = .next (s.scalarDone t k w (a <<< m) (resultFlags (a <<< m) (decide (m ≠ 0) && a.getLsbD (n - m)) false)))
  ∧ (w = wordOf 0x08 b → aluOk [0, 1] w = true →
    let r := if xtOf w = 1 then a.sshiftRight m else a >>> m
    exec (.shr t k b) s
      = .next (s.scalarDone t k w r (resultFlags r (decide (m ≠ 0) && a.getLsbD (m - 1)) false)))

/-- FADD, FMUL and FCMP (R92): the FP32 sum, difference or product, rounded to nearest with ties to even, in sd[31:0] with
sd[63:32] 0 and no flag; FCMP's four outcomes. -/
def Obligations.FloatScalars : Prop :=
  ∀ (t k : Nat) (b : IBody) (s : State) (w : IWord), s.issuable t k w →
  let x := s.tile t
  let a := s.operand t k w 32 (saOf w)
  let c := s.operand t k w 32 (sbOf w)
  (w = wordOf 0x0E b → aluOk [0, 1] w = true → noFlags w = true →
    let v := toF32 false (Val.add (f32 a) (if xtOf w = 1 then (f32 c).neg else f32 c))
    exec (.fadd t k b) s = .next ((s.setTile t (x.dst k (sdOf w) (v.setWidth 64))).advance t k))
  ∧ (w = wordOf 0x0F b → aluOk [0] w = true → noFlags w = true →
    let v := toF32 false (Val.mul (f32 a) (f32 c))
    exec (.fmul t k b) s = .next ((s.setTile t (x.dst k (sdOf w) (v.setWidth 64))).advance t k))
  ∧ (w = wordOf 0x10 b → fcmpOk w = true →
    ∃ f : Flags, exec (.fcmp t k b) s = .next ((s.setTile t (x.putFlags k f)).advance t k)
      ∧ (((f32 a).isNan = true ∨ (f32 c).isNan = true) → f = ⟨false, false, false, false, true⟩)
      ∧ ((f32 a).isNan = false → (f32 c).isNan = false → Val.eq (f32 a) (f32 c) = true →
          f = ⟨true, false, false, false, false⟩)
      ∧ ((f32 a).isNan = false → (f32 c).isNan = false → Val.eq (f32 a) (f32 c) = false →
          f = ⟨false, Val.lt (f32 a) (f32 c), Val.lt (f32 a) (f32 c), false, false⟩))

/-- LDS (R56, R90): at an address (sa + imm) mod 2^32 that lies in tile store or row-statistics memory and is a multiple of the size, no
smaller than 4 in row-statistics memory, the bytes there, zero- or sign-extended, go to SD and nothing else changes but the PC; at any
other address but tile control space the load is STORE_BOUNDS, precise, and SD is not written. -/
def ScalarLoadRule : Prop :=
  ∀ (t k n a : Nat) (b : IBody) (s : State) (w : IWord), w = wordOf 0x0C b → s.issuable t k w → ldsOk w = true →
  n = 2 ^ (xtOf w % 4) → a = (((s.tile t).src k w (saOf w)).toNat + (immOf w).toNat) % 2 ^ 32 →
  let x := s.tile t
  let put (v : BitVec (8 * n)) : W64 := if xtOf w / 4 = 1 then v.signExtend 64 else v.setWidth 64
  (a % n = 0 → a + n ≤ 0x100000 → exec (.lds t k b) s = .next ((s.setTile t (x.dst k (sdOf w)
      (put (BitVec.ofNat _ (leNat (mgetList 0 x.ts a n)))))).advance t k))
  ∧ (a % n = 0 → 0x100000 ≤ a → a + n ≤ 0x102000 → 4 ≤ n →
    let word (o : Nat) : Nat :=
      (if o / 4 % 2 = 0 then x.rowMax (o / 256) (o / 8 % 32) else x.rowSum (o / 256) (o / 8 % 32)).toNat
    let v := if n = 8 then word (a - 0x100000) + 2 ^ 32 * word (a - 0x100000 + 4) else word (a - 0x100000)
    exec (.lds t k b) s = .next ((s.setTile t (x.dst k (sdOf w) (put (BitVec.ofNat _ v)))).advance t k))
  ∧ (a % n = 0 → 0x110000 ≤ a → a + n ≤ 0x111000 →
    let v := (s.til64 t ((a - 0x110000) / 8 * 8) >>> (8 * (a % 8))) % 2 ^ (8 * n)
    exec (.lds t k b) s = .next ((s.setTile t (x.dst k (sdOf w) (put (BitVec.ofNat _ v)))).advance t k))
  ∧ ((a % n ≠ 0 ∨ (0x100000 < a + n ∧ a < 0x100000) ∨ (0x100000 ≤ a ∧ a < 0x102000 ∧ (n < 4 ∨ 0x102000 < a + n))
      ∨ (0x102000 ≤ a ∧ a < 0x110000) ∨ 0x111000 < a + n) →
    exec (.lds t k b) s = .next (s.precise t k w 0x23 (faultAddr 1 a)))

/-- STS (R56, R90): at an aligned address of tile store the low bytes of sb are stored and every other byte of tile store, and
everything else but the strand's PC and state, reads as before; in row-statistics memory the words are stored; a store into tile control
space is ignored; a misaligned address and one outside these ranges are STORE_BOUNDS, precise, and store nothing. -/
def ScalarStoreRule : Prop :=
  ∀ (t k n a : Nat) (b : IBody) (s : State) (w : IWord), w = wordOf 0x0D b → s.issuable t k w → stsOk w = true →
  n = 2 ^ xtOf w → a = (((s.tile t).src k w (saOf w)).toNat + (immOf w).toNat) % 2 ^ 32 →
  let x := s.tile t
  let v := x.src k w (sbOf w)
  (a % n = 0 → a + n ≤ 0x100000 → mwf 0 x.ts = true → mwf Tile.reset s.tiles = true →
    ∃ m, exec (.sts t k b) s = .next ((s.setTile t { x with ts := m }).advance t k)
      ∧ (∀ i, i < n → mget 0 m (a + i) = v.extractLsb' (8 * i) 8)
      ∧ (∀ j, (j < a ∨ a + n ≤ j) → mget 0 m j = mget 0 x.ts j) ∧ mwf 0 m = true)
  ∧ (a % n = 0 → 0x100000 ≤ a → a + n ≤ 0x102000 → 4 ≤ n → mwf 0xFF800000 x.rsMax = true → mwf 0 x.rsSum = true →
    mwf Tile.reset s.tiles = true →
    ∃ y, exec (.sts t k b) s = .next ((s.setTile t y).advance t k)
      ∧ y = { x with rsMax := y.rsMax, rsSum := y.rsSum }
      ∧ (∀ o, o % 4 = 0 → o < 0x2000 → y.rsWord o
          = if a = 0x100000 + o then v.setWidth 32 else if a + 4 = 0x100000 + o ∧ n = 8 then v.extractLsb' 32 32 else x.rsWord o))
  ∧ (a % n = 0 → 0x110000 ≤ a → a + n ≤ 0x111000 → exec (.sts t k b) s = .next (s.advance t k))
  ∧ ((a % n ≠ 0 ∨ (0x100000 < a + n ∧ a < 0x100000) ∨ (0x100000 ≤ a ∧ a < 0x102000 ∧ (n < 4 ∨ 0x102000 < a + n))
      ∨ (0x102000 ≤ a ∧ a < 0x110000) ∨ 0x111000 < a + n) →
    exec (.sts t k b) s = .next (s.precise t k w 0x23 (faultAddr 1 a)))

/-- The scalar operands (R84) of a tile without storage errors: what each source specifier reads; ZERO discards; a written S or G register
reads back, and every other register of the strand, of the tile's other strands and of the tile keeps its value; CW takes the RW fields
only. -/
def Obligations.ScalarOperands : Prop :=
  ∀ (x : Tile) (k : Nat) (w : IWord) (r : W64), mwf 0 (x.strand k).s = true → mwf 0 x.g = true →
  mwf Strand.reset x.strands = true → x.ecc = [] →
  (∀ n, n < 16 → x.src k w n = mget 0 (x.strand k).s n ∧ x.src k w (0x40 + n) = mget 0 x.g n)
  ∧ x.src k w 0x80 = 0 ∧ x.src k w 0x81 = (x.strand k).cw.setWidth 64 ∧ x.src k w 0x82 = (x.strand k).pc.setWidth 64
  ∧ x.src k w 0xC0 = w.extractLsb' 0 64
  ∧ x.dst k 0x80 r = x
  ∧ (∀ d, d < 16 → (x.dst k d r).src k w d = r ∧ (x.dst k (0x40 + d) r).src k w (0x40 + d) = r
      ∧ (∀ e, e ≠ d → (x.dst k d r).src k w e = x.src k w e)
      ∧ (∀ e, e ≠ 0x40 + d → (x.dst k (0x40 + d) r).src k w e = x.src k w e)
      ∧ (∀ j, j ≠ k → (x.dst k d r).strand j = x.strand j) ∧ (∀ j, (x.dst k (0x40 + d) r).strand j = x.strand j)
      ∧ x.dst k d r = { x with strands := (x.dst k d r).strands }
      ∧ x.dst k (0x40 + d) r = { x with g := (x.dst k (0x40 + d) r).g })
  ∧ ((x.dst k 0x81 r).strand k = { x.strand k with cw := ((x.dst k 0x81 r).strand k).cw }
      ∧ ∀ i, i < 32 → ((x.dst k 0x81 r).strand k).cw.getLsbD i
        = if cwMask.getLsbD i then r.getLsbD i else (x.strand k).cw.getLsbD i)

/-- LogicSelectImmediateRule and ShiftsRule together. -/
def Obligations.LogicAndShifts : Prop := LogicSelectImmediateRule ∧ ShiftsRule

/-- ScalarLoadRule and ScalarStoreRule together. -/
def Obligations.ScalarMemory : Prop := ScalarLoadRule ∧ ScalarStoreRule

/-! ### Predicates and control (R64 to R66, R86 to R88, R93 to R96) -/

/-- The sixteen condition codes and the predicate of a word (R86): PCOND's condition on the condition word, inverted by PNEG. -/
def Obligations.Predicates : Prop :=
  (∀ (f : Flags) (cw : W32),
    condHolds 0x0 f cw = true ∧ condHolds 0x1 f cw = f.z ∧ condHolds 0x2 f cw = !f.z
    ∧ condHolds 0x3 f cw = (f.n != f.v) ∧ condHolds 0x4 f cw = (f.n == f.v)
    ∧ condHolds 0x5 f cw = f.c ∧ condHolds 0x6 f cw = !f.c
    ∧ condHolds 0x7 f cw = (f.z || (f.n != f.v)) ∧ condHolds 0x8 f cw = (!f.z && (f.n == f.v)) ∧ condHolds 0x9 f cw = f.u
    ∧ condHolds 0xA f cw = cw.getLsbD 8 ∧ condHolds 0xB f cw = cw.getLsbD 9 ∧ condHolds 0xC f cw = cw.getLsbD 11
    ∧ condHolds 0xD f cw = cw.getLsbD 10 ∧ condHolds 0xE f cw = cw.getLsbD 16 ∧ condHolds 0xF f cw = cw.getLsbD 17)
  ∧ (∀ cw : W32, flagsOfCw cw = ⟨cw.getLsbD 0, cw.getLsbD 1, cw.getLsbD 2, cw.getLsbD 3, cw.getLsbD 4⟩)
  ∧ (∀ (w : IWord) (cw : W32), predHolds w cw = (condHolds (pcondOf w) (flagsOfCw cw) cw != decide (pnegOf w = 1)))
  ∧ (∀ (w : IWord) (cw : W32), pcondOf w = 0 → pnegOf w = 1 → predHolds w cw = false)

/-- Every strand instruction begins the same way (R64, R87, R88). Its strand, when it is not the one that issues, is WAITING for the first
condition it fails; a decode fault is ILLEGAL_INSTR, precise, whatever the predicate; a false predicate changes only the PC; and a
storage error apart, one that issues has its effect. -/
def IssueRule : Prop :=
  ∀ (s : State) (t k : Nat) (w : IWord) (ok : Bool) (eff : State → State),
  (s.canIssue t k w = false → s.issue t k w ok eff = .next (s.noteWait t k))
  ∧ (s.canIssue t k w = true → (s.tile t).ecc = [] →
    (ok = false → s.issue t k w ok eff = .next (s.precise t k w 0x22 0))
    ∧ (ok = true → predHolds w ((s.tile t).strand k).cw = false →
      s.issue t k w ok eff = .next (s.modStrand t k fun v => { v with pc := v.pc + 16, sched := .ready }))
    ∧ (ok = true → predHolds w ((s.tile t).strand k).cw = true → s.issue t k w ok eff = .next (eff s)))

/-- The lowest-numbered READY strand issues (R64): a strand that can issue is READY and no lower one is; and in a tile whose clock runs and
that is not frozen, the lowest READY strand can issue its next instruction. -/
def LowestStrandIssuesRule : Prop :=
  ∀ (s : State) (t k : Nat) (w : IWord),
  (s.canIssue t k w = true → s.strandReady t k = true ∧ ∀ j, j < k → s.strandReady t j = false)
  ∧ (k < 512 → s.strandReady t k = true → (∀ j, j < k → s.strandReady t j = false) → (s.tile t).frozen = false →
    s.clockStopped t = false → ∃ w, s.canIssue t k w = true)

/-- BR, BRC, CALL and RET (R65, R93, R94): a taken branch to a target that is a multiple of 16 sets the PC and empties the fetch buffer,
CALL's link being pc + 16; a target that is not raises STORE_BOUNDS, precise, with the PC at the branch and no link written; BRC's
condition holds on the comparison of sa with sb, or on the field of the condition word, and a BRC whose condition fails goes on. -/
def BranchesRule : Prop :=
  ∀ (t k a : Nat) (b : IBody) (s : State) (w : IWord), s.issuable t k w →
  let x := s.tile t
  let v := x.strand k
  let go (s : State) : State := s.modStrand t k fun v => { v with pc := BitVec.ofNat 32 a, fbuf := [], sched := .ready }
  let bad := s.precise t k w 0x23 (faultAddr 1 a)
  let base := if xtOf w % 2 = 1 then v.pc.toNat else (x.src k w (saOf w)).toNat
  (w = wordOf 0x20 b → brOk w = true → a = (base + (immOf w).toNat) % 2 ^ 32 →
    exec (.br t k b) s = .next (if a % 16 = 0 then go s else bad))
  ∧ (w = wordOf 0x22 b → callOk w = true → a = (base + (immOf w).toNat) % 2 ^ 32 →
    exec (.call t k b) s
      = .next (if a % 16 = 0 then go (s.setTile t (x.dst k (sdOf w) ((v.pc + 16).setWidth 64))) else bad))
  ∧ (w = wordOf 0x23 b → retOk w = true → a = (x.src k w (saOf w)).toNat % 2 ^ 32 →
    exec (.ret t k b) s = .next (if a % 16 = 0 then go s else bad))
  ∧ (w = wordOf 0x21 b → brcOk w = true → a = (v.pc.toNat + (immOf w).toNat) % 2 ^ 32 →
    ∀ f : Flags,
    (xtOf w < 32 → ∀ n, n = widthOf w → let p := s.operand t k w n (saOf w); let q := s.operand t k w n (sbOf w)
      f = sumFlags (p - q) (decide (p.toNat < q.toNat)) (p.toInt - q.toInt)) →
    (32 ≤ xtOf w → f = fcmpFlags (s.operand t k w 32 (saOf w)) (s.operand t k w 32 (sbOf w))) →
    exec (.brc t k b) s = .next (if condHolds (xtOf w % 16) f v.cw = decide (xtOf w / 16 % 2 = 0) then (if a % 16 = 0 then go s else bad)
      else s.modStrand t k fun v => { v with pc := v.pc + 16, sched := .ready }))

/-- YIELD, its expiry, and HALT (R95): the strand waits max(1, imm[15:0]) cycles and is READY at their end; a halted strand is
INACTIVE. Both leave the PC at the next instruction and nothing else of the device changes. -/
def YieldAndHaltRule : Prop :=
  ∀ (t k : Nat) (b : IBody) (s : State) (w : IWord), s.Canonical →
  (s.issuable t k w → w = wordOf 0x24 b → yieldOk w = true → ∃ s', exec (.yield t k b) s = .next s' ∧ s.onlyTile s' t ∧
    s'.tile t = (s.tile t).setStrand k { (s.tile t).strand k with
      pc := ((s.tile t).strand k).pc + 16, sched := .waiting (.yield (max 1 (immf w 15 0))) })
  ∧ (∀ n, ((s.tile t).strand k).sched = .waiting (.yield n) → (s.tile t).frozen = false →
    exec (.yieldExpiry t k) s = .next (s.modStrand t k fun v => { v with sched := .ready }))
  ∧ (s.issuable t k w → w = wordOf 0x25 b → haltOk w = true → ∃ s', exec (.halt t k b) s = .next s' ∧ s.onlyTile s' t ∧
    s'.tile t = (s.tile t).setStrand k { (s.tile t).strand k with pc := ((s.tile t).strand k).pc + 16, sched := .inactive })

/-- TRAP (R96): NOTIFY writes one field-book entry of TYPE 0x03 with the trap number, tile, strand, PC and S0 to S3, and the strand goes
on; FAULT takes ILLEGAL_INSTR, precise, and its capture records the trap number, where a decode fault's records 0. -/
def Obligations.Traps : Prop :=
  ∀ (t k p : Nat) (b : IBody) (s : State) (w : IWord), w = wordOf 0x26 b → s.issuable t k w → trapOk w = true →
  s.partOf t = some p →
  let v := (s.tile t).strand k
  (xtOf w = 0 → exec (.trapNotify t k b) s = .next ((s.bookEntry 0x03 p 0 0
      (leBytes 2 (immf w 15 0) ++ leBytes 2 (((s.part p).logicalOf t).getD 0) ++ leBytes 2 t ++ leBytes 2 k
        ++ leBytes 4 v.pc.toNat ++ leBytes 2 v.station.toNat ++ leBytes 2 0 ++ leBytes 8 (mget 0 v.s 0).toNat
        ++ leBytes 8 (mget 0 v.s 1).toNat ++ leBytes 8 (mget 0 v.s 2).toNat ++ leBytes 8 (mget 0 v.s 3).toNat)).advance t k))
  ∧ (xtOf w = 1 → ∃ s' c, exec (.trapFault t k b) s = .next s' ∧ (s'.tile t).capture = some c ∧ c.code = 0x22
    ∧ c.precise = true ∧ c.trapNo = immf w 15 0 ∧ c.pc = v.pc ∧ c.instr = w ∧ c.strand = k)
  ∧ (∃ c, ((s.precise t k w 0x22 0).tile t).capture = some c ∧ c.code = 0x22 ∧ c.trapNo = 0)

/-- Taking a tile fault (R106 to R108): the first fault of a tile makes the capture, with the code, the strand and its station, the PC, the
word (zero for a fetch fault), the address and the time; the strand is FAULTED, the tile frozen, and its partition gets one
pending fault with its DETAIL (R443); a later fault only counts in LATER, up to 255. -/
def TileFaultCaptureRule : Prop :=
  ∀ (s : State) (t k p : Nat) (f : FaultInfo), f.strand = some k → s.partOf t = some p →
  ((s.tile t).capture = none → ∃ c, ((s.tileFault t f).tile t).capture = some c
    ∧ c.code = f.code ∧ c.precise = f.precise ∧ c.fetch = f.fetch ∧ c.noStrand = false ∧ c.strand = k
    ∧ c.station = ((s.tile t).strand k).station ∧ c.physId = t ∧ c.pc = f.pc ∧ c.addr = f.addr ∧ c.trapNo = f.trapNo
    ∧ c.time = s.time ∧ c.later = 0 ∧ c.instr = (if f.fetch then 0 else f.instr)
    ∧ (((s.tileFault t f).tile t).strand k).sched = .faulted ∧ ((s.tileFault t f).tile t).frozen = true
    ∧ ∃ e, ((s.tileFault t f).part p).pend = (s.part p).pend ++ [e] ∧ e.code = f.code ∧ e.tile = some t
      ∧ e.detail = f.detail)
  ∧ (∀ c, (s.tile t).capture = some c →
    s.tileFault t f = s.setTile t { s.tile t with capture := some { c with later := min 255 (c.later + 1) } })

/-- INSTRUCTION_FETCH (R56, R57, R61, R65, R94): a started strand whose buffer does not hold its next instruction gets the rest of the
64-byte line of its PC and is READY; a PC outside tile store raises STORE_BOUNDS on fetch, precise, with the PC recorded. -/
def InstructionFetchRule : Prop :=
  ∀ (t k : Nat) (s : State), let x := s.tile t; let v := x.strand k
  x.frozen = false → v.started = true → (∀ r, v.sched = .waiting r → r.blocks = false) → v.nextWord = none → x.ecc = [] →
  (v.pc.toNat < 0x100000 → v.pc.toNat % 16 = 0 →
    ∀ ws : List IWord, ws = (List.range (4 - v.pc.toNat % 64 / 16)).map (fun j =>
      BitVec.ofNat 128 (leNat (mgetList 0 x.ts (v.pc.toNat + 16 * j) 16))) →
    (∀ w, ws.head? = some w → opcReserved (opcOf w) = false) →
    exec (.instructionFetch t k) s = .next (s.modStrand t k fun v => { v with fbase := v.pc, fbuf := ws, sched := .ready }))
  ∧ (0x100000 ≤ v.pc.toNat → exec (.instructionFetch t k) s
    = .next (s.tileFault t ⟨0x23, true, true, some k, v.pc, 0, faultAddr 1 v.pc.toNat, 0, 0⟩))
  ∧ (∀ w, v.pc.toNat < 0x100000 → v.pc.toNat % 16 = 0 → w = BitVec.ofNat 128 (leNat (mgetList 0 x.ts v.pc.toNat 16)) →
    opcReserved (opcOf w) = true → s.clockStopped t = false → k < 512 → (∀ j, j < k → s.strandReady t j = false) →
    x.capture = none → x.vecOps k = [] → s.tilePaused t = false →
    ∃ s' c, exec (.instructionFetch t k) s = .next s' ∧ (s'.tile t).capture = some c ∧ c.code = 0x22 ∧ c.precise = true
      ∧ c.pc = v.pc ∧ c.instr = w)

/-! ### Signals, waits and barriers (R97 to R100) -/

/-- SIG, SIG_ARRIVAL, WAITQ and WAITQ_RELEASE (R97 to R99): a local SIG adds its increment modulo 2^32; a remote one enters the mesh to the
named logical tile, or raises STORE_BOUNDS at or above the enabled count; an arrival counts the retries of its die crossings and adds, and
one delivered poisoned by a crossing whose three retries failed (R68, R82) is discarded with ECC_UNCORRECTABLE, imprecise, naming no strand;
WAITQ goes on, consuming if told, once the counter has reached its threshold, wrap-safe, and waits before; the lowest satisfiable waiter is
released first. -/
def Obligations.Signals : Prop :=
  ∀ (t k : Nat) (b : IBody) (s : State) (w : IWord), let x := s.tile t
  (s.issuable t k w → w = wordOf 0x30 b → sigOk w = true → let inc := BitVec.ofNat 32 (immf w 63 32); let n := immf w 5 0
    (xtOf w % 2 = 0 → exec (.sig t k b) s = .next ((s.setTile t { x with sc := mset 0 x.sc n (x.counter n + inc) }).advance t k))
    ∧ (∀ p, xtOf w % 2 = 1 → s.partOf t = some p → let d := (x.src k w (saOf w)).toNat
      (∀ u, (s.part p).physOf d = some u →
        exec (.sig t k b) s = .next (({ s with sigs := s.sigs ++ [(⟨t, k, u, n, inc⟩ : SigMsg)] }).advance t k))
      ∧ ((s.part p).tiles ≤ d → exec (.sig t k b) s = .next (s.precise t k w 0x23 (faultAddr 4 d)))))
  ∧ (∀ i m (a : Crossed Bool), firstOfPair s.sigs i = true → s.sigs[i]? = some m →
    let y := s.tile m.destTile
    let s' := ({ s with sigs := s.sigs.eraseIdx i }).countRetries a.crossings
    (a.poison = false ∨ (∀ c ∈ a.crossings, c.2 ≠ 3) → exec (.sigArrival i a) s
        = .next (s'.setTile m.destTile { y with sc := mset 0 y.sc m.counter (y.counter m.counter + m.inc) }))
    ∧ (a.poison = true → (∃ c ∈ a.crossings, c.2 = 3) → y.capture = none →
      ∃ s'' c, exec (.sigArrival i a) s = .next s'' ∧ s''.sigs = s'.sigs ∧ (s''.tile m.destTile).capture = some c
      ∧ c.code = 0x30 ∧ c.precise = false ∧ c.noStrand = true ∧ (s''.tile m.destTile).sc = y.sc))
  ∧ (s.issuable t k w → w = wordOf 0x31 b → waitqOk w = true → let n := immf w 5 0
    let th := BitVec.ofNat 32 (immf w 63 32) + (x.src k w (saOf w)).setWidth 32
    ((x.counter n - th).toNat < 2 ^ 31 → exec (.waitq t k b) s
      = .next ((s.setTile t (if xtOf w = 1 then { x with sc := mset 0 x.sc n (x.counter n - th) } else x)).advance t k))
    ∧ (2 ^ 31 ≤ (x.counter n - th).toNat → exec (.waitq t k b) s
      = .next (s.modStrand t k fun v => { v with sched := .waiting (.waitq n th (decide (xtOf w = 1))) })))
  ∧ (∀ n th c, (x.strand k).sched = .waiting (.waitq n th c) → x.frozen = false → (x.counter n - th).toNat < 2 ^ 31 →
    (∀ j, j < k → x.waitqMet j = false) →
    exec (.waitqRelease t k) s
      = .next ((s.setTile t (if c then { x with sc := mset 0 x.sc n (x.counter n - th) } else x)).advance t k))

/-- BAR, BAR_ARRIVE and FENCE (R99, R100): BAR waits; a strand whose scalar and vector work is complete arrives, the first to arrive
fixing the count c; arrivals before the c-th wait; the c-th releases every strand of the generation past its BAR and opens a
new one; a different count is ILLEGAL_INSTR, precise; a FENCE goes on once no operation of its classes is outstanding. -/
def Obligations.BarriersAndFences : Prop :=
  ∀ (t k : Nat) (b : IBody) (s : State) (w : IWord), let x := s.tile t
  (s.issuable t k w → w = wordOf 0x32 b → barOk w = true → exec (.bar t k b) s
    = .next (s.modStrand t k fun v => { v with sched := .waiting (.bar (immf w 4 0) (immf w 25 16) false) }))
  ∧ (∀ g c, (x.strand k).sched = .waiting (.bar g c false) → x.frozen = false → s.fenceOpen t k 3 = 0 →
    let old := (x.barGroup g).getD ⟨c, []⟩
    (old.count = c → old.arrived.length + 1 < c → exec (.barArrive t k) s
      = .next ((s.setTile t { x with bars := mset none x.bars g (some ⟨c, old.arrived ++ [k]⟩) }).modStrand t k fun v =>
          { v with sched := .waiting (.bar g c true) }))
    ∧ (old.count = c → c ≤ old.arrived.length + 1 → s.Canonical → mwf none x.bars = true → ∃ s', exec (.barArrive t k) s = .next s'
      ∧ s.onlyTile s' t ∧ (s'.tile t).barGroup g = none ∧ (∀ h, h ≠ g → (s'.tile t).barGroup h = x.barGroup h)
      ∧ (old.arrived.Nodup → k ∉ old.arrived → mwf Strand.reset x.strands = true →
        ∀ j, (s'.tile t).strand j = if j ∈ old.arrived ++ [k] then { x.strand j with pc := (x.strand j).pc + 16, sched := .ready } else x.strand j))
    ∧ (old.count ≠ c → exec (.barArrive t k) s = .next (s.precise t k (((x.strand k).nextWord).getD 0) 0x22 0)))
  ∧ (s.issuable t k w → w = wordOf 0x33 b → fenceOk w = true → s.fenceOpen t k (xtOf w) = 0 → exec (.fence t k b) s
    = .next (s.modStrand t k fun v => { v with pc := v.pc + 16, sched := .ready }))

/-- IssueRule and LowestStrandIssuesRule together. -/
def Obligations.Issue : Prop := IssueRule ∧ LowestStrandIssuesRule

/-- BranchesRule and YieldAndHaltRule together. -/
def Obligations.ControlFlow : Prop := BranchesRule ∧ YieldAndHaltRule

/-- TileFaultCaptureRule and InstructionFetchRule together. -/
def Obligations.FetchAndTileFaults : Prop := TileFaultCaptureRule ∧ InstructionFetchRule

/-! ### The matrix side (R42 to R51, R113 to R119, R175 to R196) -/

/-- The products of a list, each (a, b, k index), added to an entry at datum `d` one after the other (R176). -/
def addAll (d : Int) (e : Entry) (l : List (Val × Val × Nat)) : Entry :=
  l.foldl (fun e q => addProduct d e q.1 q.2.1 q.2.2) e

/-- Order-freedom (R176, R182, R187, R192). An entry after a set of products does not depend on the order in which they were added; nor on
how they were grouped: the products of two entries that start cleared, merged with the second's k indices after the first's, give the
entry that holds them all. -/
def Obligations.OrderFree : Prop :=
  (∀ (d : Int) (e : Entry) (l m : List (Val × Val × Nat)), l.Perm m → addAll d e l = addAll d e m)
  ∧ (∀ (d : Int) (off : Nat) (l m : List (Val × Val × Nat)),
    mergeEntry off (addAll d Entry.zero l) (addAll d Entry.zero m)
      = addAll d Entry.zero (l ++ m.map fun q => (q.1, q.2.1, off + q.2.2)))
  ∧ (∀ (a b : Nat → Nat → Val) (d : Int) (k0 i j m n : Nat) (e : Entry),
    accumulate a b d k0 i j e (m + n)
      = accumulate (fun r k => a r (m + k)) (fun r k => b r (m + k)) d (k0 + m) i j (accumulate a b d k0 i j e m) n)

/-- V never wraps (R176, R178, R179): when every product has at most 22 significant bits, the V of at most 65,536 products is the
mathematical sum of the rounded contributions of the ordinary ones. -/
def Obligations.WindowNeverWraps : Prop :=
  ∀ (d : Int) (l : List (Val × Val × Nat)), l.length ≤ 65536 →
  (∀ q ∈ l, ∀ s m e, Val.mul q.1 q.2.1 = .fin s m e → m < 2 ^ 22) →
  (addAll d Entry.zero l).v.toInt = (l.map fun q => match Val.mul q.1 q.2.1 with
    | .fin s m e => if overflows d m e then 0 else contribution d s m e
    | _ => 0).sum

/-- Special and ordinary products (R176, R182): a special product sets its one sideband bit and leaves V; an ordinary product changes V
alone; a sideband bit once set stays set; the first-special index is the least k index of a special product. -/
def Obligations.ProductRule : Prop :=
  ∀ (d : Int) (e : Entry) (a b : Val) (k : Nat), let r := addProduct d e a b k
  let low := some (match e.first with | some i => min i k | none => k)
  (Val.mul a b = .nan → r = { e with nan := true, first := low })
  ∧ (∀ s, Val.mul a b = .inf s → r = { e with infPos := e.infPos || !s, infNeg := e.infNeg || s, first := low })
  ∧ (∀ s m x, Val.mul a b = .fin s m x →
    (overflows d m x = true → r = { e with ovfPos := e.ovfPos || !s, ovfNeg := e.ovfNeg || s, first := low })
    ∧ (overflows d m x = false → r = { e with v := r.v } ∧ r.v = e.v + BitVec.ofInt 112 (contribution d s m x)))
  ∧ (e.nan = true → r.nan = true) ∧ (e.infPos = true → r.infPos = true) ∧ (e.infNeg = true → r.infNeg = true)
  ∧ (e.ovfPos = true → r.ovfPos = true) ∧ (e.ovfNeg = true → r.ovfNeg = true)

/-- The code of the largest finite value of an element format with a sign (R152, R155). -/
def largestCode (f : Fmt) (neg : Bool) : Nat :=
  match f with
  | .fp32 => if neg then 0xFF7FFFFF else 0x7F7FFFFF
  | .bf16 => if neg then 0xFF7F else 0x7F7F
  | .fp16 => if neg then 0xFBFF else 0x7BFF
  | .e4m3 => if neg then 0xFE else 0x7E
  | .e5m2 => if neg then 0xFB else 0x7B
  | .e2m1 => if neg then 0xF else 0x7
  | .int8 => if neg then 0x80 else 0x7F
  | .int4 => if neg then 0x8 else 0x7
  | _ => 0

/-- Reading an entry (R183): the first of the six orders that holds decides the element and its class, in every element format. -/
def Obligations.EntryConversion : Prop :=
  ∀ (f : Fmt) (ieee : Bool) (d : Int) (e : Entry), f.isBlock = false → f ≠ .tern →
  let r := convertEntry f ieee d e
  (e.nan = true → r = (f.nanCode, .nan))
  ∧ (e.nan = false → e.infPos = true → e.infNeg = true → r = (f.nanCode, .nan))
  ∧ (e.nan = false → (e.infPos != e.infNeg) = true →
    (f.hasInf = true → r.2 = .inf ∧ f.decode r.1 = .inf e.infNeg) ∧ (f.hasInf = false → r = (largestCode f e.infNeg, .sat)))
  ∧ (e.nan = false → e.infPos = false → e.infNeg = false →
    (e.ovfPos = true → e.ovfNeg = true → r = (f.nanCode, .nan))
    ∧ ((e.ovfPos != e.ovfNeg) = true → r = (largestCode f e.ovfNeg, .sat))
    ∧ (e.ovfPos = false → e.ovfNeg = false → r = convert f ieee (Val.ofInt e.v.toInt (d - 64))))

/-- The issue-time checks of MMA and MMAS, in their order (R115, R116, R179, R180, R193, R196). -/
def MatrixChecksRule : Prop :=
  ∀ (x : Tile) (k : Nat) (w : IWord), let d := x.slot (sdOf w)
  let a := (x.src k w (saOf w)).toNat % 2 ^ 32
  let b := (x.src k w (sbOf w)).toNat % 2 ^ 32
  let dat := mmaDatum w (x.src k w (scOf w))
  let collides := d.owner ≠ k ∧ d.inflight ≠ 0
  ((Fmt.ofCode (immf w 47 40) = none ∨ Fmt.ofCode (immf w 39 32) = none) → mmaCheck x k w = some (0x24, 0))
  ∧ (∀ fa fb, Fmt.ofCode (immf w 47 40) = some fa → Fmt.ofCode (immf w 39 32) = some fb →
    let na := operandBytes fa (fl104 w) (mmaK w)
    let nb := operandBytes fb (fl104 w) (mmaK w)
    let legal := pairOk (decide (opcOf w = 0x41)) fa fb (fl104 w)
    let placed (base n : Nat) : Prop := base % 64 = 0 ∧ base + n ≤ 0x100000
    (legal = false → mmaCheck x k w = some (0x24, 0))
    ∧ (legal = true → ¬ placed a na → mmaCheck x k w = some (0x23, faultAddr 1 a))
    ∧ (legal = true → placed a na → ¬ placed b nb → mmaCheck x k w = some (0x23, faultAddr 1 b))
    ∧ (legal = true → placed a na → placed b nb →
      (collides → mmaCheck x k w = some (0x20, 0))
      ∧ (¬ collides → fl105 w = true → dat ≠ d.datum → mmaCheck x k w = some (0x24, 0))
      ∧ (¬ collides → (fl105 w = true → dat = d.datum) →
        mmaCheck x k w = if 65536 < (if fl105 w then d.projected else 0) + mmaK w then some (0x21, 0) else none)))

/-- MMA, MMAS, ACCRD and ACCCLR at issue (R44, R48, R113, R117, R119, R179, R180, R187, R193): accepted, the operation enters the matrix
queue with its strand, PC, word and the sources read, the slot's OWNER is the strand, INFLIGHT rises, the projected depth and, for
OVERWRITE, DATUM are set, and the strand goes on; an ACCRD takes the slot's datum with it (R187); a failed check is a precise fault and
changes nothing of the slot. -/
def MatrixIssueRule : Prop :=
  ∀ (t k : Nat) (b : IBody) (s : State) (w : IWord), s.issuable t k w →
  let x := s.tile t
  let on := mset Strand.reset x.strands k { x.strand k with pc := (x.strand k).pc + 16, sched := .ready }
  let key := 16384 * k + siteOf w
  let inst := mget 0 x.siteIssues key
  let accept (n : Nat) (d : SlotDesc) : SMap SlotDesc :=
    mset SlotDesc.reset x.slots n { d with owned := true, owner := k, inflight := d.inflight + 1 }
  (∀ c, (w = wordOf 0x40 b ∧ c = .mma t k b) ∨ (w = wordOf 0x41 b ∧ c = .mmas t k b) → mmaOk w = true →
    let n := sdOf w
    let d := x.slot n
    let before := if fl105 w then d.projected else 0
    let dat := mmaDatum w (x.src k w (scOf w))
    (mmaCheck x k w = none → ∃ s', exec c s = .next s' ∧ s.onlyTile s' t ∧ s'.tile t = { x with
      strands := on
      mq := x.mq ++ [{ x.mkOp k w with k0 := before, datum := dat, inst := inst }]
      serial := x.serial + 1
      siteIssues := mset 0 x.siteIssues key (inst + 1)
      slots := accept n { d with projected := before + mmaK w, datum := if fl105 w then d.datum else dat } })
    ∧ (∀ q, mmaCheck x k w = some q → exec c s = .next (s.precise t k w q.1 q.2)))
  ∧ (w = wordOf 0x42 b → accrdOk w = true →
    let d := x.slot (saOf w)
    let n := mget 0 x.accIssues k
    (outFormatOk (immf w 47 40) (immf w 33 32) = false → exec (.accrd t k b) s = .next (s.precise t k w 0x24 0))
    ∧ (outFormatOk (immf w 47 40) (immf w 33 32) = true → d.owner ≠ k → d.inflight ≠ 0 →
      exec (.accrd t k b) s = .next (s.precise t k w 0x20 0))
    ∧ (outFormatOk (immf w 47 40) (immf w 33 32) = true → (d.owner = k ∨ d.inflight = 0) →
      ∃ s', exec (.accrd t k b) s = .next s' ∧ s.onlyTile s' t ∧ s'.tile t = { x with
        strands := on
        mq := x.mq ++ [{ x.mkOp k w with accNo := n, datum := d.datum, inst := inst }]
        serial := x.serial + 1
        siteIssues := mset 0 x.siteIssues key (inst + 1)
        accIssues := mset 0 x.accIssues k (n + 1)
        slots := accept (saOf w) d }))
  ∧ (w = wordOf 0x43 b → accclrOk w = true →
    let d := x.slot (saOf w)
    (d.owner ≠ k → d.inflight ≠ 0 → exec (.accclr t k b) s = .next (s.precise t k w 0x20 0))
    ∧ ((d.owner = k ∨ d.inflight = 0) → ∃ s', exec (.accclr t k b) s = .next s' ∧ s.onlyTile s' t ∧ s'.tile t = { x with
        strands := on
        mq := x.mq ++ [x.mkOp k w]
        serial := x.serial + 1
        slots := accept (saOf w) { d with projected := 0 } }))

/-- MMA_ARRAY_START and MMA_WRITEBACK_END (R44, R45, R48, R115, R194), in a tile without storage errors. An MMA at the head of the queue starts
when a buffer is free and nothing is under way on its slot: the buffer holds, for each entry (i, j), the products a(i, k) × b(k, j) in k
order, added to the slot's entry for ACCUMULATE and to a cleared one for OVERWRITE; chained, they are added to the running MMA's buffer and
its predecessor is complete. The write-back stores the buffer and DEPTH, and the MMA is complete. -/
def MatrixArrayRule : Prop :=
  ∀ (t : Nat) (s : State) (o : QOp) (rest : List QOp), let x := s.tile t
  s.Canonical → x.ecc = [] →
  let n := o.slotOf
  let m := o.mmaOperands
  let kk := mmaK o.word
  let a := operandElem x m.fa (fl104 o.word) m.abase
  let b := operandElem x m.fb (fl104 o.word) m.bbase
  (x.mq = o :: rest → (opcOf o.word = 0x40 ∨ opcOf o.word = 0x41) →
    ((∀ r, x.arr.getLast? = some r → chains r o = false) → s.slotBusy t n = false → x.arr.length < 2 →
      ∃ s' r, exec (.mmaArrayStart t) s = .next s' ∧ s.onlyTile s' t ∧ s'.tile t = { x with
        mq := rest
        arr := x.arr ++ [r]
        kstep := if m.fa.isNarrow then x.kstep else x.kstep + BitVec.ofNat 64 kk
        kstep4 := if m.fa.isNarrow then x.kstep4 + BitVec.ofNat 64 (kk / 4) else x.kstep4 }
        ∧ r.op = o ∧ r.bad = false ∧ r.depth = (if fl105 o.word then (x.slot n).depth else 0) + kk
        ∧ ∀ e, e < 1024 → mget Entry.zero r.buf e
          = accumulate a b o.datum o.k0 (e / 32) (e % 32) (if fl105 o.word then x.entry n e else Entry.zero) kk)
    ∧ (∀ r, x.arr.getLast? = some r → chains r o = true → mwf SlotDesc.reset x.slots = true →
      ∃ s' r', exec (.mmaArrayStart t) s = .next s' ∧ (s'.tile t).mq = rest ∧ (s'.tile t).arr = x.arr.dropLast ++ [r']
        ∧ (s'.tile t).acc = x.acc ∧ (s'.tile t).slot n = { x.slot n with inflight := (x.slot n).inflight - 1 }
        ∧ r'.op = o ∧ r'.bad = r.bad ∧ r'.depth = r.depth + kk
        ∧ ∀ e, e < 1024 → mget Entry.zero r'.buf e
          = accumulate a b o.datum o.k0 (e / 32) (e % 32) (mget Entry.zero r.buf e) kk)
    ∧ ((∀ r, x.arr.getLast? = some r → chains r o = false) → (s.slotBusy t n = true ∨ 2 ≤ x.arr.length) →
      exec (.mmaArrayStart t) s = .next s))
  ∧ (∀ r more, x.arr = r :: more → mwf Entry.zero x.acc = true → mwf SlotDesc.reset x.slots = true →
    ∃ s', exec (.mmaWritebackEnd t) s = .next s' ∧ (s'.tile t).arr = more
      ∧ (r.bad = false → (∀ e, e < 1024 → (s'.tile t).entry r.op.slotOf e = mget Entry.zero r.buf e)
        ∧ (s'.tile t).slot r.op.slotOf
          = { x.slot r.op.slotOf with depth := r.depth, inflight := (x.slot r.op.slotOf).inflight - 1 })
      ∧ (r.bad = true → (s'.tile t).acc = x.acc
        ∧ (s'.tile t).slot r.op.slotOf = { x.slot r.op.slotOf with inflight := (x.slot r.op.slotOf).inflight - 1 })
      ∧ (∀ i e, i ≠ r.op.slotOf → e < 1024 → (s'.tile t).entry i e = x.entry i e)
      ∧ (∀ i, i ≠ r.op.slotOf → (s'.tile t).slot i = x.slot i) ∧ (s'.tile t).ts = x.ts ∧ (s'.tile t).vt = x.vt
      ∧ (s'.tile t).strands = x.strands)

/-- Port B (R47 to R51, R113, R118, R119, R181, R184, R185, R187, R194), in a tile without storage errors. An ACCRD at the head of the queue
starts once the port is free, its slot idle and a drain entry free, in the lowest free entry: its data, flags and first positions are the
conversion's at the datum the ACCRD took (R187), and the slot keeps its entries; the entry is then valid and INFLIGHT falls; with no entry
free it waits, counted once. An ACCCLR clears every entry of the slot and DEPTH, and leaves DATUM. -/
def PortBRule : Prop :=
  ∀ (t : Nat) (s : State) (o : QOp) (rest : List QOp), let x := s.tile t
  s.Canonical → x.ecc = [] → mwf SlotDesc.reset x.slots = true →
  let n := o.slotOf
  (x.mq = o :: rest → x.portB = none → s.slotBusy t n = false →
    (opcOf o.word = 0x43 →
      exec (.accrdPortStart t) s = .next (s.setTile t { x with mq := rest, portB := some (.accclr o) }))
    ∧ (∀ e f, opcOf o.word = 0x42 → freeDrain x.drain = some e → Fmt.ofCode (immf o.word 47 40) = some f →
      let ent (i : Nat) := x.entry n i
      let out (i : Nat) := convertEntry f (modeOf f (immf o.word 33 32)) o.datum (ent i)
      ∃ d c h l, exec (.accrdPortStart t) s = .next (s.setTile t { x with mq := rest, portB := some (.accrd o d c h l) })
        ∧ d.number = e ∧ d.strand = o.strand ∧ d.slot = n ∧ d.format = f.code
        ∧ d.data = mlist 0 0 (packCodes f ((List.range 1024).map fun i => (out i).1))
        ∧ (d.accSat = true ↔ ∃ i, i < 1024 ∧ ((ent i).ovfPos = true ∨ (ent i).ovfNeg = true))
        ∧ (d.nanInf = true ↔ ∃ i, i < 1024 ∧ setsNanInf (out i).2 = true)
        ∧ (d.nanInf = false → d.firstElem = 0 ∧ d.firstK = 0)
        ∧ (d.nanInf = true → d.firstElem < 1024 ∧ setsNanInf (out d.firstElem).2 = true
          ∧ (∀ i, i < d.firstElem → setsNanInf (out i).2 = false) ∧ d.firstK = firstK (x.slot n).depth (ent d.firstElem))
        ∧ d.rowMaxValid = fl106 o.word ∧ d.rowSumValid = fl105 o.word
        ∧ (∀ i, i < 32 → fl106 o.word = true → mget 0 d.rowMax i
          = toF32 false (rmax ((List.range 32).map fun j => f.decode (out (32 * i + j)).1)))
        ∧ (∀ i, i < 32 → fl105 o.word = true → mget 0 d.rowSum i
          = toF32 false (rsum ((List.range 32).map fun j => f.decode (out (32 * i + j)).1))))
    ∧ (opcOf o.word = 0x42 → freeDrain x.drain = none → o.waited = false → ∃ s', exec (.accrdPortStart t) s = .next s'
      ∧ s.onlyTile s' t ∧ s'.tile t = { x with mq := { o with waited := true } :: rest, fullWaits := min 0xFFFF (x.fullWaits + 1) }))
  ∧ (∀ d c h l, x.portB = some (.accrd o d c h l) → ∃ s', exec (.drainEntryValid t) s = .next s'
    ∧ s'.tile t = { x with
      portB := none
      drain := x.drain ++ [d]
      highWater := max x.highWater (x.drain.length + 1)
      slots := mset SlotDesc.reset x.slots n { x.slot n with inflight := (x.slot n).inflight - 1 } })
  ∧ (x.portB = some (.accclr o) → mwf Entry.zero x.acc = true → ∃ s', exec (.accclrDone t) s = .next s' ∧ s.onlyTile s' t
    ∧ (s'.tile t).portB = none ∧ (∀ e, e < 1024 → (s'.tile t).entry n e = Entry.zero)
    ∧ (∀ i e, i ≠ n → e < 1024 → (s'.tile t).entry i e = x.entry i e)
    ∧ (s'.tile t).slot n = { x.slot n with depth := 0, inflight := (x.slot n).inflight - 1 }
    ∧ (∀ i, i ≠ n → (s'.tile t).slot i = x.slot i) ∧ (s'.tile t).ts = x.ts ∧ (s'.tile t).strands = x.strands)

/-- MatrixChecksRule and MatrixIssueRule together. -/
def Obligations.MatrixIssue : Prop := MatrixChecksRule ∧ MatrixIssueRule

/-- MatrixArrayRule and PortBRule together. -/
def Obligations.MatrixUnit : Prop := MatrixArrayRule ∧ PortBRule

/-! ### The vector side (R53 to R55, R111 to R113, R120 to R133, R144) -/

/-- Vector instructions at issue (R113, R120, R121, R128 to R131, R133, R144): accepted, the operation enters the vector queue with its
strand, PC, word and the scalar sources read, and the strand goes on; VQNT and VOPT also count an instance at their site; a failed check of
VLD, VST, VQNT, VDQ or VOPT is a precise fault. Nothing else of the device changes. -/
def VectorIssueRule : Prop :=
  ∀ (t k : Nat) (b : IBody) (s : State) (w : IWord) (c : Instr), s.issuable t k w →
  let x := s.tile t
  let key := 16384 * k + siteOf w
  let entered (site : Bool) : Tile := { x with
    strands := mset Strand.reset x.strands k { x.strand k with pc := (x.strand k).pc + 16, sched := .ready }
    vq := x.vq ++ [{ x.mkOp k w with inst := if site then mget 0 x.siteIssues key else 0 }]
    serial := x.serial + 1
    siteIssues := if site then mset 0 x.siteIssues key (mget 0 x.siteIssues key + 1) else x.siteIssues }
  let accepts (site : Bool) : Prop := ∃ s', exec c s = .next s' ∧ s.onlyTile s' t ∧ s'.tile t = entered site
  let checked (site : Bool) (chk : Option (Nat × W64)) : Prop :=
    (chk = none → accepts site) ∧ ∀ q, chk = some q → exec c s = .next (s.precise t k w q.1 q.2)
  ((c = .vdrain t k b ∧ w = wordOf 0x52 b ∧ vdrainOk w = true
      ∨ c = .vop t k b ∧ w = wordOf 0x53 b ∧ vopOk w = true ∨ c = .vred t k b ∧ w = wordOf 0x54 b ∧ vredOk w = true
      ∨ c = .vsum t k b ∧ w = wordOf 0x55 b ∧ vsumOk w = true ∨ c = .vbc t k b ∧ w = wordOf 0x56 b ∧ vbcOk w = true
      ∨ c = .vtbl t k b ∧ w = wordOf 0x57 b ∧ vtblOk w = true ∨ c = .vrng t k b ∧ w = wordOf 0x5A b ∧ vrngOk w = true
      ∨ (c = .vscaleObserve t k b ∨ c = .vscaleFlag t k b) ∧ w = wordOf 0x5C b ∧ vscaleOk w = true
      ∨ (c = .lscaleMul t k b ∧ xtOf w = 1 ∨ c = .lscaleDiv t k b ∧ xtOf w = 2) ∧ w = wordOf 0x98 b ∧ lscaleVecOk w = true) →
    accepts false)
  ∧ ((c = .vld t k b ∧ w = wordOf 0x50 b ∨ c = .vst t k b ∧ w = wordOf 0x51 b) → vldOk w = true →
    checked false (vldCheck w (x.src k w (saOf w))))
  ∧ (c = .vqnt t k b → w = wordOf 0x58 b → vqntOk w = true → checked true (vqntCheck w))
  ∧ (c = .vdq t k b → w = wordOf 0x59 b → vdqOk w = true → checked false (vqntCheck w))
  ∧ (c = .vopt t k b → w = wordOf 0x5B b → voptOk w = true → checked true (voptCheck (x.src k w (scOf w))))

/-- The issue-time checks of VLD and VST, of VQNT and VDQ, and of VOPT (R121, R128, R129, R131). -/
def VectorChecksRule : Prop :=
  ∀ (w : IWord) (v : W64) (f : Fmt), Fmt.ofCode (immf w 47 40) = some f →
  let reg := if opcOf w = 0x50 then sdOf w else sbOf w
  let a := (v.toNat + immf w 31 0) % 2 ^ 32
  let st := immf w 63 48
  let good := isPair reg = decide (f = .fp32) ∧ (fl104 w = true → f = .pb4) ∧ (st ≠ 0 → (strideRow f).isSome = true)
  (¬ good → vldCheck w v = some (0x24, 0))
  ∧ (good → a % (if st = 0 then 64 else 16) ≠ 0 → vldCheck w v = some (0x23, faultAddr 1 a))
  ∧ (good → st = 0 → a % 64 = 0 → (vldCheck w v = none ↔ a + tileBytes f (fl104 w) ≤ 0x100000))
  ∧ (good → st ≠ 0 → a % 16 = 0 → ∀ r, strideRow f = some r → (vldCheck w v = none ↔ a + 31 * st + r ≤ 0x100000))
  ∧ (vqntCheck w = none ↔ (opcOf w = 0x58 → isVt (sdOf w) = true ∧ vtOrPair (saOf w) = true)
      ∧ (opcOf w ≠ 0x58 → vtOrPair (sdOf w) = true ∧ isVt (saOf w) = true) ∧ f ≠ .fp32 ∧ (fl104 w = true → f = .pb4)
      ∧ (opcOf w = 0x58 → immf w 33 32 = 2 → f.hasInf = true))
  ∧ (∀ q, vqntCheck w = some q → q = (0x24, 0))
  ∧ (voptCheck v = none ↔ v.toNat % 2 ^ 32 % 16 = 0 ∧ v.toNat % 2 ^ 32 + 32 ≤ 0x100000)
  ∧ (∀ q, voptCheck v = some q → q = (0x23, faultAddr 1 (v.toNat % 2 ^ 32)))

/-- The vector engine (R50, R51, R54, R113), in a tile without storage errors. The instruction at the head of the queue starts with the
results its sources give, unless an instruction in flight still has to write a source; a VQNT or VDQ waits for its scale; a VDRAIN takes
the oldest valid entry of its strand and frees it, and waits with none. The oldest instruction in flight completes by making its
writes in order. -/
def VectorEngineRule : Prop :=
  ∀ (t : Nat) (s : State) (o : QOp) (rest : List QOp), let x := s.tile t
  s.Canonical → x.ecc = [] →
  let starts (c : Instr) (r : VOut) (drain : List Drain) : Prop := ∃ s', exec c s = .next s' ∧ s.onlyTile s' t
    ∧ s'.tile t = { x with vq := rest, drain := drain, vrun := x.vrun ++ [⟨o, r.writes, r.stages, r.high, r.low⟩] }
  (x.vq = o :: rest →
    (x.vhazard o = true → exec (.vectorEngineStart t) s = .next s)
    ∧ (x.vhazard o = false → opcOf o.word ≠ 0x52 → (opcOf o.word = 0x58 ∨ opcOf o.word = 0x59 → o.scale ≠ none) →
      starts (.vectorEngineStart t) (s.vecOut t o) x.drain)
    ∧ (opcOf o.word = 0x58 ∨ opcOf o.word = 0x59 → o.scale = none → exec (.vectorEngineStart t) s = .next s)
    ∧ (x.vhazard o = false → opcOf o.word = 0x52 → ∀ c, c = .vectorEngineStart t ∨ c = .vdrainTake t →
      (∀ d l r, x.drain = l ++ d :: r → d.strand = o.strand → (∀ e ∈ l, e.strand ≠ o.strand) →
        starts c (vdrainOut d o) (x.drain.filter fun e => decide (e.number ≠ d.number)))
      ∧ ((∀ e ∈ x.drain, e.strand ≠ o.strand) → exec c s = .next s)))
  ∧ (∀ r more, x.vrun = r :: more → ∃ s', exec (.vectorComplete t) s = .next s'
    ∧ s'.tile t = r.writes.foldl (fun y a => y.applyWrite r.op.strand a) { x with vrun := more })

/-- The writes of a completing vector instruction (R53, R55, R62, R120): each changes what it names and nothing else. -/
def VectorWritesRule : Prop :=
  ∀ (x : Tile) (k n : Nat), x.ecc = [] →
  (∀ els, mwf 0 x.vt = true → let y := x.applyWrite k (.vt n els)
    y = { x with vt := y.vt } ∧ (∀ e, e < 1024 → y.vtElem n e = mget 0 els e)
      ∧ ∀ m e, m ≠ n → e < 1024 → y.vtElem m e = x.vtElem m e)
  ∧ (∀ vs, vs.length = 32 → mwf 0xFF800000 x.rsMax = true → let y := x.applyWrite k (.rsMax n vs)
    y = { x with rsMax := y.rsMax } ∧ (∀ r, r < 32 → vs[r]? = some (y.rowMax n r))
      ∧ ∀ m r, m ≠ n → r < 32 → y.rowMax m r = x.rowMax m r)
  ∧ (∀ vs, vs.length = 32 → mwf 0 x.rsSum = true → let y := x.applyWrite k (.rsSum n vs)
    y = { x with rsSum := y.rsSum } ∧ (∀ r, r < 32 → vs[r]? = some (y.rowSum n r))
      ∧ ∀ m r, m ≠ n → r < 32 → y.rowSum m r = x.rowSum m r)
  ∧ (∀ a bs, mwf 0 x.ts = true → let y := x.applyWrite k (.bytes a bs)
    y = { x with ts := y.ts } ∧ (∀ i, i < bs.length → bs[i]? = some (mget 0 y.ts (a + i)))
      ∧ ∀ j, (j < a ∨ a + bs.length ≤ j) → mget 0 y.ts j = mget 0 x.ts j)
  ∧ (∀ v, x.applyWrite k (.sreg n v) = x.setStrand k { x.strand k with s := mset 0 (x.strand k).s n v })
  ∧ (∀ mask bits : W32, ∃ cw, x.applyWrite k (.cw mask bits) = x.setStrand k { x.strand k with cw := cw }
    ∧ ∀ i, i < 32 → cw.getLsbD i = if mask.getLsbD i then bits.getLsbD i else (x.strand k).cw.getLsbD i)

/-- VOP's operations (R123): each FN's result on FP32 values. -/
def VopOperationsRule : Prop :=
  ∀ (a b c : Val), vopElem 0x00 a b c = a ∧ vopElem 0x01 a b c = a.add b ∧ vopElem 0x02 a b c = a.add b.neg
  ∧ vopElem 0x03 a b c = a.mul b ∧ vopElem 0x04 a b c = (a.mul b).add c
  ∧ (a.isNan = true ∨ b.isNan = true → vopElem 0x05 a b c = .nan ∧ vopElem 0x06 a b c = .nan
    ∧ vopElem 0x09 a b c = .fin false 0 0 ∧ vopElem 0x0A a b c = .fin false 0 0 ∧ vopElem 0x0B a b c = .fin false 0 0)
  ∧ (a.isNan = false → b.isNan = false →
    (b.lt a = true → vopElem 0x05 a b c = a ∧ vopElem 0x06 a b c = b ∧ vopElem 0x09 a b c = .fin false 1 0
      ∧ vopElem 0x0A a b c = .fin false 1 0 ∧ vopElem 0x0B a b c = .fin false 0 0)
    ∧ (a.lt b = true → vopElem 0x05 a b c = b ∧ vopElem 0x06 a b c = a ∧ vopElem 0x09 a b c = .fin false 0 0
      ∧ vopElem 0x0A a b c = .fin false 0 0 ∧ vopElem 0x0B a b c = .fin false 0 0)
    ∧ (a.lt b = false → b.lt a = false → vopElem 0x09 a b c = .fin false 0 0 ∧ vopElem 0x0A a b c = .fin false 1 0
      ∧ vopElem 0x0B a b c = .fin false 1 0
      ∧ (a.sign = false → b.sign = true → vopElem 0x05 a b c = a ∧ vopElem 0x05 b a c = a
        ∧ vopElem 0x06 a b c = b ∧ vopElem 0x06 b a c = b)))
  ∧ vopElem 0x07 a b c = a.abs ∧ vopElem 0x08 a b c = a.neg
  ∧ vopElem 0x0C a b c = (if c.isZero || c.isNan then b else a)

/-- What VOP, VRED, VBC, VSUM, LSCALE MUL and DIV, VDQ and VRNG write into a VT register or a summary (R120, R123 to R126, R129, R130, R144):
element e of a 16-bit destination is its value converted to ET16's format, in SAT or IEEE mode. -/
def VectorResultsRule : Prop :=
  ∀ (x : Tile) (o : QOp) (n : Nat), let w := o.word
  let sat := fl105 w
  let fmt := if fl106 w then Fmt.fp16 else Fmt.bf16
  let a (e : Nat) : Val := x.vsrc w (saOf w) o.sa e
  let gives (r : VOut) (sat : Bool) (f : Nat → Val) : Prop := ∃ m, r = ⟨[.vt n m], [], none, none⟩
    ∧ ∀ e, e < 1024 → mget 0 m e = BitVec.ofNat 16 (convert fmt (!sat) (f e)).1
  (vkind (sdOf w) = .vt n →
    (xtOf w ≤ 0x0C → gives (vopOut x o) sat fun e =>
      rnd32 sat (vopElem (xtOf w) (a e) (x.vsrc w (sbOf w) o.sb e) (x.vsrc w (scOf w) o.sc e)))
    ∧ (xtOf w = 0x0D → gives (vopOut x o) sat fun e => rnd32 sat (a (32 * (e % 32) + e / 32)))
    ∧ (xtOf w < 4 → gives (vredOut x o) sat fun e =>
      reduce (xtOf w) sat ((List.range 32).map fun j => x.vsrc w (saOf w) 0 (32 * (e / 32) + j)))
    ∧ (4 ≤ xtOf w → xtOf w < 8 → gives (vredOut x o) sat fun e =>
      reduce (xtOf w - 4) sat ((List.range 32).map fun i => x.vsrc w (saOf w) 0 (32 * i + e % 32)))
    ∧ (xtOf w = 0 → gives (vbcOut x o) sat fun e => x.vsrc w (saOf w) 0 (32 * immf w 4 0 + e % 32))
    ∧ (xtOf w = 1 → gives (vbcOut x o) sat fun e => x.vsrc w (saOf w) 0 (32 * (e / 32) + immf w 4 0))
    ∧ (∀ l, gives (lscaleOut x l o) sat fun e => (a e).scale (if xtOf w = 1 then l else -l))
    ∧ (∀ f m, Fmt.ofCode (immf w 47 40) = some f → vkind (saOf w) = .vt m →
      gives (vdqOut x o) sat fun e => (tileElem f (fl104 w) (x.vtByte m) e).scale (o.scale.getD 0))
    ∧ (∀ seed step, gives (vrngOut seed step o) false fun e =>
      if (gen seed (step.setWidth 32) (immf w 63 48) (immf w 47 32)
          (o.sa + BitVec.ofNat 64 (e / 32) * o.sb + BitVec.ofNat 64 (e % 32))).toNat < immf w 31 0 then .fin false 1 0
      else .fin false 0 0))
  ∧ (∀ m, vkind (saOf w) = .vt m → sdOf w ≤ 0x0F →
    let all := (List.range 1024).map a
    let summary (v : Nat) (mask bits : W32) : Prop :=
      vsumOut x o = ⟨[.sreg (sdOf w) (BitVec.ofNat 64 v), .cw mask bits], [], none, none⟩
    let nanInfZero := cwBit 8 (all.any Val.isNan) ||| cwBit 9 (all.any Val.isInf) ||| cwBit 11 (all.all Val.isZero)
    (xtOf w = 0 → summary (toF32 false (rmax all)).toNat 0xB00 nanInfZero)
    ∧ (xtOf w = 1 → summary (toF32 false (exactSum all)).toNat 0xB00 nanInfZero)
    ∧ (xtOf w = 2 → summary (all.filter fun v => !v.isZero).length 0x800 (cwBit 11 (all.all Val.isZero)))
    ∧ (xtOf w % 4 = 3 →
      let pass := ((List.range 1024).filter fun e => thrHolds (xtOf w / 4) (a e) (x.vsrc w (sbOf w) o.sb e)).length
      summary pass 0x500 (cwBit 10 (decide (pass ≠ 0))
        ||| cwBit 8 (all.any Val.isNan || ((List.range 1024).map (x.vsrc w (sbOf w) o.sb)).any Val.isNan))))

/-- VLD, VST and VDRAIN move bytes (R121, R122): a contiguous VLD packs the bytes from byte 0 of a VT register, the rest 0; a
contiguous VST of a plain format stores them; VDRAIN copies DATA, the row statistics the entry holds when SA names an RS
entry, and NAN_INF and ACC_SAT into the condition word. -/
def VectorMovesRule : Prop :=
  ∀ (x : Tile) (n : Nat) (o : QOp) (f : Fmt), let w := o.word
  Fmt.ofCode (immf w 47 40) = some f → x.ecc = [] → immf w 63 48 = 0 →
  let a := (o.sa.toNat + immf w 31 0) % 2 ^ 32
  let size := tileBytes f (fl104 w)
  (vkind (sdOf w) = .vt n → size ≤ 2048 → ∃ m, vldOut x o = ⟨[.vt n m], [], none, none⟩
    ∧ ∀ i, i < 2048 → BitVec.ofNat 8 ((mget 0 m (i / 2)).toNat >>> (8 * (i % 2))) = if i < size then mget 0 x.ts (a + i) else 0)
  ∧ (vkind (sbOf w) = .vt n → f.isBlock = false →
    vstOut x o = ⟨[.bytes a ((List.range size).map (x.vtByte n))], [], none, none⟩)
  ∧ (∀ (d : Drain) (r : Nat), vkind (sdOf w) = .vt n → vkind (saOf w) = .rsMax r → ∃ m,
    vdrainOut d o = ⟨[.vt n m] ++ (if d.rowMaxValid then [.rsMax r (mgetList 0 d.rowMax 0 32)] else [])
        ++ (if d.rowSumValid then [.rsSum r (mgetList 0 d.rowSum 0 32)] else [])
        ++ [.cw 0x30000 (cwBit 16 d.nanInf ||| cwBit 17 d.accSat)], [], none, none⟩
      ∧ ∀ e, e < 1024 → (mget 0 m e).toNat = (mget 0 d.data (2 * e)).toNat + 256 * (mget 0 d.data (2 * e + 1)).toNat)

/-- Row statistics and summaries do not depend on the order of the elements (R118, R124, R125). -/
def Obligations.ReductionsOrderFree : Prop :=
  ∀ (l m : List W32), l.Perm m →
  toF32 false (rsum (l.map f32)) = toF32 false (rsum (m.map f32))
  ∧ toF32 false (rmax (l.map f32)) = toF32 false (rmax (m.map f32))
  ∧ toF32 false (rmin (l.map f32)) = toF32 false (rmin (m.map f32))

/-! ### Scales, sites, LSCALE and votes (R133, R143 to R147, R203 to R206, R213, R229) -/

/-- SCALE_ENTRY_ARRIVAL, STAGED_OBSERVATION_MERGE and SITE_CONTRIBUTION (R68, R128, R129, R133, R204, R229, R230): each counts the retries of
its die crossings. Outside calibration the oldest VQNT or VDQ without a scale receives its entry's committed SCALE; an observation of an open
step merges by maximum, OR and sum, and one that comes later is discarded; counts add to their site, saturating. What arrives poisoned from a
crossing that failed is an imprecise ECC_UNCORRECTABLE on the instruction that waits for the entry, or a partition fault of unit 8 that
names no tile (the model's choice, log 184), and has no other effect. -/
def NumericsArrivalsRule : Prop :=
  (∀ (a : ScaleArrival) (t p i : Nat) (o : QOp) (s : State), t = a.tile → let x := s.tile t
    let s' := s.countRetries a.arrived.crossings
    s.partOf t = some p → x.vq[i]? = some o → (opcOf o.word = 0x58 ∨ opcOf o.word = 0x59) → o.scale = none →
    (∀ j q, j < i → x.vq[j]? = some q → (opcOf q.word = 0x58 ∨ opcOf q.word = 0x59) → q.scale ≠ none) →
    (a.arrived.lost = false → (s.part p).num.calActive = false →
      exec (.scaleEntryArrival a) s = .next (s'.setTile t { x with vq := x.vq.set i { o with
        scale := some (sintOf 8 ((mget scaleReset (s.part p).num.scale ((o.sb.toNat + immf o.word 15 0) % 65536)).toNat / 2 ^ 56)) } }))
    ∧ (a.arrived.lost = true →
      exec (.scaleEntryArrival a) s = .next ((s'.setTile t { x with vq := x.vq.eraseIdx i }).impreciseEcc t o 8 0)))
  ∧ (∀ (a : MeshArrival) (m : StageMsg) (s : State), s.stageMsgs[a.index]? = some m →
    let s' := ({ s with stageMsgs := s.stageMsgs.eraseIdx a.index }).countRetries a.arrived.crossings
    let lost := a.arrived.lost = true
    (∀ (e ovf : Nat) (v : Option W32) (nan : Bool), m.stage = .observe e v nan ovf →
      (¬ lost → (s.part m.part).stepOpen = true → ∃ r, exec (.stagedObservationMerge a) s
        = .next (s'.modNum m.part fun n => { n with staged := mset 0 n.staged e r })
        ∧ let old := mget 0 (s.part m.part).num.staged e
          stAbs r = max (stAbs old) (match v with | some y => y.toNat | none => 0)
          ∧ stObs r = (stObs old || v.isSome) ∧ stNan r = (stNan old || nan)
          ∧ stOvf r = min 0xFFFFFF (stOvf old + min 0xFFFFFF ovf))
      ∧ (¬ lost → (s.part m.part).stepOpen = false → exec (.stagedObservationMerge a) s = .next s')
      ∧ (lost → exec (.stagedObservationMerge a) s = .next (s'.partFault m.part 0x30 true 0 (detailOf 8 0 0 0))))
    ∧ (∀ (n : Nat) (c : SiteCounts), m.stage = .site n c →
      (¬ lost → ∃ r f, exec (.siteContribution a) s = .next (s'.modNum m.part f)
        ∧ (f (s.part m.part).num).sites = mset SiteRec.zero (s.part m.part).num.sites n r
        ∧ let old := mget SiteRec.zero (s.part m.part).num.sites n
          r.sat = min (2 ^ 32 - 1) (old.sat + c.sat) ∧ r.flush = min (2 ^ 32 - 1) (old.flush + c.flush)
          ∧ r.nan = min (2 ^ 32 - 1) (old.nan + c.nan) ∧ r.inf = min (2 ^ 32 - 1) (old.inf + c.inf)
          ∧ r.invalid = min (2 ^ 32 - 1) (old.invalid + c.invalid))
      ∧ (lost → exec (.siteContribution a) s = .next (s'.partFault m.part 0x30 true 0 (detailOf 8 0 0 0)))))

/-- LSCALE READ, LOSSCHK, VOTE CAST, VOTE READ and CWAIT (R143 to R145, R213): READ writes L; LOSSCHK sets Z and casts a
NaN or infinite loss, LATE when its tile has committed; CAST ORs the three low bits into the local vote; VOTE READ writes the
vote before the exchange; CWAIT writes the status word of its collective, or of the commit, and Z. -/
def LossScaleAndVotesRule : Prop :=
  ∀ (t k p : Nat) (b : IBody) (s : State) (w : IWord), s.issuable t k w → s.partOf t = some p →
  let x := s.tile t
  let v := x.src k w (saOf w)
  let num := (s.part p).num
  let z (y : Tile) (on : Bool) : Tile := y.modStrand k fun st => { st with cw := (st.cw &&& ~~~1#32) ||| (if on then 1#32 else 0#32) }
  (w = wordOf 0x98 b → xtOf w = 0 → lscaleScalarOk w = true → saOf w = 0x80 → dstOk (sdOf w) = true →
    exec (.lscaleRead t k b) s = .next ((s.setTile t (x.dst k (sdOf w) (BitVec.ofInt 64 num.lossL))).advance t k))
  ∧ (w = wordOf 0x98 b → xtOf w = 3 → lscaleScalarOk w = true → sdOf w = 0x80 → srcOk (saOf w) = true →
    let f := f32 (v.setWidth 32)
    (f.isFin = true → exec (.losschk t k b) s = .next ((s.setTile t (z x true)).advance t k))
    ∧ (f.isFin = false → num.ctrlStep.getLsbD 11 = false → exec (.losschk t k b) s = .next
      (((s.setTile t (z x false)).modNum p fun n => n.cast f.isNan f.isInf false x.committed).advance t k)))
  ∧ (w = wordOf 0x99 b → xtOf w = 0 → lscaleScalarOk w = true → sdOf w = 0x80 → srcOk (saOf w) = true →
    exec (.voteCast t k b) s = .next ((s.modNum p fun n => { n with vote :=
      ⟨n.vote.nan || v.getLsbD 0, n.vote.inf || v.getLsbD 1, n.vote.sat || v.getLsbD 2, n.vote.late || x.committed⟩ }).advance t k))
  ∧ (w = wordOf 0x99 b → xtOf w = 1 → lscaleScalarOk w = true → saOf w = 0x80 → dstOk (sdOf w) = true → num.global = none →
    let word := (if num.vote.nan then 1 else 0) + (if num.vote.inf then 2 else 0) + (if num.vote.sat then 4 else 0)
      + (if num.vote.late then 16 else 0)
    exec (.voteRead t k b) s = .next ((s.setTile t (x.dst k (sdOf w) (BitVec.ofNat 64 word))).advance t k))
  ∧ (w = wordOf 0x91 b → cwaitOk w = true →
    let e := immf w 15 0
    let give (st : W64) : State := (s.setTile t (z (x.dst k (sdOf w) st) (!(st.getLsbD 0 || st.getLsbD 1 || st.getLsbD 2 || st.getLsbD 4)))).advance t k
    (∀ st, e = 0xFFFF → (s.part p).commitStatus = some st → exec (.cwait t k b) s = .next (give st))
    ∧ (∀ d l r, e ≠ 0xFFFF → (s.part p).collDone = l ++ d :: r → d.tile = t → d.strand = k → d.entry = e →
      (∀ c ∈ l, ¬ (c.tile = t ∧ c.strand = k ∧ c.entry = e)) → exec (.cwait t k b) s = .next (give d.status)))

/-- VectorIssueRule and VectorChecksRule together. -/
def Obligations.VectorIssue : Prop := VectorIssueRule ∧ VectorChecksRule

/-- VectorEngineRule and VectorWritesRule together. -/
def Obligations.VectorEngine : Prop := VectorEngineRule ∧ VectorWritesRule

/-- VopOperationsRule, VectorResultsRule and VectorMovesRule together. -/
def Obligations.VectorResults : Prop := VopOperationsRule ∧ VectorResultsRule ∧ VectorMovesRule

/-- NumericsArrivalsRule and LossScaleAndVotesRule together. -/
def Obligations.NumericsInStep : Prop := NumericsArrivalsRule ∧ LossScaleAndVotesRule

/-! ### Movement and stage queues (R134 to R138, R256, R257, R343 to R345) -/

/-- The precise checks of DMA, PFX and SPILL (R134 to R137): each end's address must be a multiple of 4 with its reserved bits 0; every
row of a local end lies in writable tile space, every row of an HBM end in the partition; a remote end names an enabled
logical tile; a peer is another member of a formed gang; the strides are multiples of 4. -/
def MovementChecksRule : Prop :=
  ∀ (s : State) (p rows rb stride : Nat) (a : W64), 0 < rows → let n := a.toNat; let x := s.part p
  (s.moveEndCheck p .local a rows rb stride = none ↔ n < 2 ^ 32 ∧ n % 4 = 0 ∧ ∀ i, i < rows →
    (n + i * stride + rb ≤ 0x100000 ∨ 0x100000 ≤ n + i * stride ∧ n + i * stride + rb ≤ 0x102000))
  ∧ (s.moveEndCheck p .hbm a rows rb stride = none ↔ n < 2 ^ 40 ∧ n % 4 = 0 ∧ ∀ i, i < rows →
    n + i * stride + rb ≤ x.bays.length * 48 * 2 ^ 30)
  ∧ (s.moveEndCheck p .remote a rows rb stride = none ↔ n < 2 ^ 44 ∧ n % 4 = 0 ∧ (x.physOf (n / 2 ^ 32)).isSome = true)
  ∧ (x.tiles ≤ n / 2 ^ 32 → s.moveEndCheck p .remote a rows rb stride ≠ none)
  ∧ (s.moveEndCheck p .peer a rows rb stride = none ↔ x.gang.formed = true ∧ n / 2 ^ 56 % 8 ≠ s.member ∧ n < 2 ^ 59
    ∧ n / 2 ^ 48 % 256 = 0 ∧ n % 4 = 0)
  ∧ ∀ t k w, s.partOf t = some p → let sc := (s.tile t).src k w (scOf w)
    scOf w ≠ 0x80 → (sc.toNat % 2 ^ 32 % 4 ≠ 0 ∨ sc.toNat / 2 ^ 32 % 4 ≠ 0) → s.moveCheck t k w = some 0

/-- DMA, PFX and SPILL at issue, and DESCRIPTOR_SLOT_FREE (R113, R136, R137, R256, R257, R259): a failed check is STORE_BOUNDS, precise; an
accepted movement takes a descriptor slot of its engine at once when its queue is empty and one of the 64 is free, and one with a host
source then asks for its rows, a PFX its lender over VC3 (R265); with none free it stays at the head of its queue, and takes the slot that
becomes free. -/
def MovementIssueRule : Prop :=
  ∀ (t k p : Nat) (b : IBody) (s : State) (w : IWord) (c : Instr), s.partOf t = some p →
  let x := s.tile t
  let e := s.engineOf t
  let begins (o : QOp) (c : Instr) (y : Tile) : Prop := ∃ s', s' = { s with tiles := s'.tiles, engines := s'.engines }
    ∧ s'.engineHeld e = s.engineHeld e + 1 ∧ s'.tile t = y
    ∧ ((moveSpaces o.word).1 ≠ .host → (moveSpaces o.word).1 ≠ .peer → exec c s = .next s')
    ∧ ((moveSpaces o.word).1 = .peer → exec c s = .next (s'.startPeerRead t o))
    ∧ ((moveSpaces o.word).1 = .host → o.serial ∉ x.timedOut →
      exec c s = .next (s'.startRead p (.tile t o.serial) false ((s.part p).hostRows o)))
  (s.issuable t k w → dmaOk w = true → (c = .dma t k b ∧ w = wordOf 0x80 b ∨ c = .pfx t k b ∧ w = wordOf 0x81 b ∨ c = .spill t k b ∧ w = wordOf 0x82 b) →
    let on := mset Strand.reset x.strands k { x.strand k with pc := (x.strand k).pc + 16, sched := .ready }
    (∀ a, s.moveCheck t k w = some a → exec c s = .next (s.precise t k w 0x23 a))
    ∧ (s.moveCheck t k w = none → x.xq = [] → s.engineHeld e < 64 →
      begins (x.mkOp k w) c { x with strands := on, xrun := x.xrun ++ [x.mkOp k w], serial := x.serial + 1 })
    ∧ (s.moveCheck t k w = none → x.xq = [] → 64 ≤ s.engineHeld e → ∃ s', exec c s = .next s' ∧ s.onlyTile s' t
      ∧ s'.tile t = { x with strands := on, xq := [x.mkOp k w], serial := x.serial + 1 }))
  ∧ (∀ o, x.xq = [o] → needsEngine o.word = true → s.Canonical →
    (s.engineHeld e < 64 → begins o (.descriptorSlotFree (.tile t)) { x with xq := [], xrun := x.xrun ++ [o] })
    ∧ (64 ≤ s.engineHeld e → ∃ s', exec (.descriptorSlotFree (.tile t)) s = .next s' ∧ s' = s))

/-- DMA_COMPLETE (R135, R136, R251, R253, R257, R277), with no storage error and no poison: every row of a DMA from partition HBM into tile
store lies at its destination and every other byte of tile store reads as before; a DMA the other way stores its rows in HBM; the
engine's slot is free, the movement is no longer outstanding, and with SIG the counter rises by 1. A peer over a lost gang link (R277), or
whose lend region has another epoch (R264), is PEER_LOST, imprecise, and nothing is moved or signalled; its DETAIL gives the link and the
member, or 0xFF, the member and the lend epoch found (R443). -/
def Obligations.MovementCompletion : Prop :=
  ∀ (t p serial : Nat) (cs : List (Nat × Nat)) (o : QOp) (s : State), let x := s.tile t
  s.Canonical → s.partOf t = some p → x.xrun.find? (fun q => decide (q.serial = serial)) = some o → serial ∉ x.timedOut →
  let e := s.engineOf t
  let left := x.xrun.filter fun q => decide (q.serial ≠ serial)
  (opcOf o.word = 0x80 → fl105 o.word = false → x.ecc = [] → s.hbmPoison = [] → s.hbmErr = [] → mwf 0 x.ts = true → mwf 0 x.sc = true →
    let rows := (moveRows o.word).1
    let rb := (moveRows o.word).2
    let ss := (moveStrides o.word o.sc).1
    let ds := (moveStrides o.word o.sc).2
    let a := o.sa.toNat
    let d := o.sb.toNat
    rb % 4 = 0 → rb ≠ 0 → ss % 4 = 0 → ds % 4 = 0 → a % 4 = 0 → d % 4 = 0 → rb ≤ ds →
    (moveSpaces o.word = (.hbm, .local) → (∀ i, i < rows → d + i * ds + rb ≤ 0x100000) → d < 2 ^ 32 →
      ∃ s', exec (.dmaComplete t serial [] ⟨[], cs⟩ ⟨.ok, [], 0, 0⟩) s = .next s' ∧ (s'.tile t).xrun = left
        ∧ s'.engineHeld e = s.engineHeld e - 1 ∧ s'.hbm = s.hbm
        ∧ (∀ i j, i < rows → j < rb → mget 0 (s'.tile t).ts (d + i * ds + j) = mget 0 s.hbm ((s.part p).hbmKey (a + i * ss + j)))
        ∧ (∀ b, (∀ i, i < rows → ¬ (d + i * ds ≤ b ∧ b < d + i * ds + rb)) → mget 0 (s'.tile t).ts b = mget 0 x.ts b)
        ∧ (∀ n, (s'.tile t).counter n
          = if fl106 o.word = true ∧ n = immf o.word 63 58 then x.counter n + 1 else x.counter n)
        ∧ ∀ u, u ≠ t → s'.tile u = s.tile u)
    ∧ (moveSpaces o.word = (.local, .hbm) → (∀ i, i < rows → a + i * ss + rb ≤ 0x100000) →
      (s.part p).bays.Nodup → (∀ b ∈ (s.part p).bays, b < 12) → (∀ i, i < rows → d + i * ds + rb ≤ (s.part p).hbmSize) →
      ∃ s', exec (.dmaComplete t serial [] ⟨[], cs⟩ ⟨.ok, [], 0, 0⟩) s = .next s' ∧ (s'.tile t).xrun = left ∧ s'.engineHeld e = s.engineHeld e - 1
        ∧ (∀ i j, i < rows → j < rb → mget 0 s'.hbm ((s.part p).hbmKey (d + i * ds + j)) = mget 0 x.ts (a + i * ss + j))
        ∧ (∀ b, (∀ i, i < rows → ¬ (d + i * ds ≤ b ∧ b < d + i * ds + rb)) → b < (s.part p).hbmSize →
          mget 0 s'.hbm ((s.part p).hbmKey b) = mget 0 s.hbm ((s.part p).hbmKey b))
        ∧ (s'.tile t).ts = x.ts))
  ∧ (∀ (data : List Byte) (a : Crossed (List Nat)) (ans : PeerReply) (m : Nat), (opcOf o.word = 0x81 ∨ opcOf o.word = 0x82) →
    o.peer = some m → x.capture = none →
    let cut := (s.link (s.gangLink m)).lost = true
    (ans.answer = .lost ∨ cut
      ∧ (ans.answer = .ok → (moveSpaces o.word).1 = .peer → data.length = (moveRows o.word).1 * (moveRows o.word).2)) →
    ∃ s' c f, exec (.dmaComplete t serial data a ans) s = .next s'
    ∧ (s'.tile t).xrun = left ∧ s'.engineHeld e = s.engineHeld e - 1 ∧ (s'.tile t).capture = some c ∧ c.code = 0x12
    ∧ c.precise = false ∧ c.pc = o.pc ∧ c.instr = o.word ∧ (s'.tile t).ts = x.ts ∧ (s'.tile t).sc = x.sc ∧ s'.hbm = s.hbm
    ∧ (s'.part p).pend = (s.part p).pend ++ [f] ∧ f.code = 0x12
    ∧ (cut → f.detail = detailOf (s.gangLink m) m 0 0) ∧ (¬ cut → f.detail = detailOf 0xFF m 0 ans.epoch.toNat))

/-- SQPUT and SQGET at issue, and STAGE_CREDIT_RETURN (R138, R277, R296, R344): an unbound queue, a misaligned address and an extent outside
tile store are STORE_BOUNDS, precise; SQPUT takes a credit and ring slot p mod D, SQGET takes the entry at slot g mod D; an SQPUT or SQGET
whose other side is unreachable, over its bundle or over the relays of a spare, is PEER_LOST; a returned credit of the current epoch reaches
the producer, never above D. -/
def StageQueueIssueRule : Prop :=
  ∀ (t k p i : Nat) (b : IBody) (s : State) (w : IWord) (q : QueueBinding), s.partOf t = some p →
  let x := s.tile t
  let y := s.part p
  let a := ((x.src k w (saOf w)).toNat + immf w 31 0) % 2 ^ 32
  let on := mset Strand.reset x.strands k { x.strand k with pc := (x.strand k).pc + 16, sched := .ready }
  let moved (slot : Nat) : Tile := { x with strands := on, xrun := x.xrun ++ [{ x.mkOp k w with k0 := slot }], serial := x.serial + 1 }
  (s.issuable t k w → sqOk w = true → ∀ c, (c = .sqput t k b ∧ w = wordOf 0x88 b ∨ c = .sqget t k b ∧ w = wordOf 0x89 b) →
    (s.bindingFor t w = none → exec c s = .next (s.precise t k w 0x23 0))
    ∧ (s.bindingFor t w = some (i, q) → (a % 64 ≠ 0 ∨ 0x100000 < a + q.entryBytes) →
      exec c s = .next (s.precise t k w 0x23 (faultAddr 1 a)))
    ∧ (s.bindingFor t w = some (i, q) → a % 64 = 0 → a + q.entryBytes ≤ 0x100000 → x.xq = [] →
      (c = .sqput t k b → (q.dir = 0 ∨ s.torusLost q.dir = false) → ∃ s', exec c s = .next s' ∧ s'.tile t = moved ((y.queue i).puts % q.depth)
        ∧ s' = { s with tiles := s'.tiles, parts := s'.parts }
        ∧ (s'.part p).queue i = { y.queue i with credits := (y.queue i).credits - 1, puts := (y.queue i).puts + 1 })
      ∧ (q.dir ≠ 0 → s.torusLost (if c = .sqput t k b then q.dir else 3 - q.dir) = true → ∃ s' f, exec c s = .next s' ∧ f ∈ (s'.part p).pend
        ∧ f.code = 0x12)
      ∧ (c = .sqget t k b → (q.dir = 0 ∨ s.torusLost (3 - q.dir) = false) → ∃ s', exec c s = .next s' ∧ s'.tile t = moved ((y.queue i).gets % q.depth)
        ∧ s' = { s with tiles := s'.tiles, parts := s'.parts }
        ∧ (s'.part p).queue i = { y.queue i with
            gets := (y.queue i).gets + 1, full := mset false (y.queue i).full ((y.queue i).gets % q.depth) false })))
  ∧ (∀ n v, y.cur = some v → v.queues[i]? = some q → let z := y.queue i
    (∀ epoch, q.dir = 0 → exec (.stageCreditReturn p i ⟨n, epoch⟩) s = .next (s.modQueue p i fun _ =>
      { z with credits := min q.depth (z.credits + min n z.owed), owed := z.owed - min n z.owed }))
    ∧ (q.dir ≠ 0 → exec (.stageCreditReturn p i ⟨n, y.caps.epoch⟩) s
      = .next (s.modQueue p i fun _ => { z with credits := min q.depth (z.credits + n) }))
    ∧ (∀ epoch, q.dir ≠ 0 → epoch ≠ y.caps.epoch → exec (.stageCreditReturn p i ⟨n, epoch⟩) s = .next (s.modQueue p i fun _ => z)))

/-- SQPUT_WRITTEN and SQGET_DELIVERED (R101, R138, R296, R344), with no storage error and no poison, in the step that issued them and in
their strand's order: on a LOCAL queue the entry of tile store stands whole in the ring slot the SQPUT took; the ring slot's bytes lie in
tile store, and one credit goes back. Each is then no longer outstanding, and with SIG the counter rises by 1. Another device's entry of
the current epoch fills the next ring slot; one of another epoch does nothing. -/
def StageQueueTransferRule : Prop :=
  ∀ (t p i serial : Nat) (cs : List (Nat × Nat)) (o : QOp) (q : QueueBinding) (s : State), let x := s.tile t; let y := s.part p
  s.Canonical → s.hbmPoison = [] → s.hbmErr = [] → q.entryBytes % 64 = 0 → y.bays.Nodup → (∀ b ∈ y.bays, b < 12) →
  (s.partOf t = some p → x.xrun.find? (fun r => decide (r.serial = serial)) = some o → s.bindingFor t o.word = some (i, q) →
    q.dir = 0 → x.ecc = [] → mwf 0 x.ts = true → mwf 0 x.sc = true → x.stageNext o = true → y.stepLive = true →
    q.ringAddr + (o.k0 + 1) * q.entryBytes ≤ y.hbmSize →
    let a := (o.sa.toNat + immf o.word 31 0) % 2 ^ 32
    a + q.entryBytes ≤ 0x100000 → a % 64 = 0 →
    let ring := q.ringAddr + o.k0 * q.entryBytes
    let left := x.xrun.filter fun r => decide (r.serial ≠ serial)
    let counted (s' : State) : Prop := ∀ n, (s'.tile t).counter n
      = if fl106 o.word = true ∧ n = immf o.word 63 58 then x.counter n + 1 else x.counter n
    (opcOf o.word = 0x88 → ∃ s', exec (.sqputWritten (.producer t serial ⟨[], cs⟩)) s = .next s' ∧ (s'.tile t).xrun = left ∧ counted s'
      ∧ mget false ((s'.part p).queue i).full o.k0 = true ∧ (s'.tile t).ts = x.ts
      ∧ ∀ j, j < q.entryBytes → mget 0 s'.hbm (y.hbmKey (ring + j)) = mget 0 x.ts (a + j))
    ∧ (opcOf o.word = 0x89 → ∃ s', exec (.sqgetDelivered t ⟨serial, ⟨[], cs⟩⟩) s = .next s' ∧ (s'.tile t).xrun = left ∧ counted s'
      ∧ (s'.part p).queue i = { y.queue i with owed := (y.queue i).owed + 1 } ∧ s'.hbm = s.hbm
      ∧ (∀ j, j < q.entryBytes → mget 0 (s'.tile t).ts (a + j) = mget 0 s.hbm (y.hbmKey (ring + j)))
      ∧ ∀ b, (b < a ∨ a + q.entryBytes ≤ b) → mget 0 (s'.tile t).ts b = mget 0 x.ts b))
  ∧ (∀ v bytes, y.cur = some v → v.queues[i]? = some q → bytes.length = q.entryBytes →
    let n := (y.queue i).puts % q.depth
    (q.ringAddr + (n + 1) * q.entryBytes ≤ y.hbmSize → ∃ s', exec (.sqputWritten (.consumer p i y.caps.epoch bytes ⟨[], cs⟩)) s = .next s'
      ∧ ((s'.part p).queue i).puts = (y.queue i).puts + 1 ∧ mget false ((s'.part p).queue i).full n = true
      ∧ ∀ j, j < q.entryBytes → bytes[j]? = some (mget 0 s'.hbm (y.hbmKey (q.ringAddr + n * q.entryBytes + j))))
    ∧ ∀ e, e ≠ y.caps.epoch → exec (.sqputWritten (.consumer p i e bytes ⟨[], cs⟩)) s = .next s)

/-- A step boundary (R344 rule 1, R345): every queue of the loaded variant has its D credits, an empty ring and its first slot next, and
the entries discarded are counted. -/
def StageQueueBoundaryRule : Prop :=
  ∀ (x : Part) (v : Variant), x.cur = some v → mwf QueueState.zero x.queues = true → ∀ i b, v.queues[i]? = some b →
  let q := x.queuesBoundary.queue i
  q.credits = b.depth ∧ q.puts = 0 ∧ q.gets = 0 ∧ q.full = [] ∧ q.owed = 0
  ∧ q.discarded.toNat = min (2 ^ 32 - 1) ((x.queue i).discarded.toNat + (x.queue i).full.length)

/-! ### HBM (R248, R251, R252, R262) -/

/-- Partition addresses (R248): different addresses of a partition lie at different places, each in one of its bays' stacks. -/
def HbmInterleaveRule : Prop :=
  ∀ (x : Part) (a b : Nat), x.bays.Nodup → (∀ c ∈ x.bays, c < 12) → a < x.hbmSize → b < x.hbmSize →
  (x.hbmKey a = x.hbmKey b → a = b) ∧ x.hbmKey a / 2 ^ 36 ∈ x.bays ∧ x.hbmKey a % 2 ^ 36 < 48 * 2 ^ 30
  ∧ x.hbmKey a % 4096 = a % 4096 ∧ x.hbmKey (a / 4096 * 4096) / 2 ^ 36 = x.hbmKey a / 2 ^ 36

/-- HBM writes and poison (R251 to R253, R262): written bytes read back and every other byte of the partition reads as before; a beat
written whole is no longer poisoned; one that is poisoned stays so until then; a poisoned beat is counted once, recorded with its
source and address, and raises the partition's sticky bit; a written granule is dirty while a session runs. -/
def HbmWritesRule : Prop :=
  ∀ (s : State) (p a : Nat) (bs : List Byte), let x := s.part p
  s.Canonical → x.bays.Nodup → (∀ c ∈ x.bays, c < 12) → a + bs.length ≤ x.hbmSize → x.exist = true →
  (s.hbmPoison = [] → s.hbmErr = [] → let s' := s.hbmWrite p a bs
    (∀ i, i < bs.length → bs[i]? = some (mget 0 s'.hbm (x.hbmKey (a + i))))
    ∧ (∀ b, b < x.hbmSize → (b < a ∨ a + bs.length ≤ b) → mget 0 s'.hbm (x.hbmKey b) = mget 0 s.hbm (x.hbmKey b))
    ∧ (x.mem.dirtyActive = true → ∀ b, a ≤ b → b < a + bs.length → mget false (s'.part p).mem.dirty (b / 2 ^ 21) = true))
  ∧ (bs.length = 32 → a % 32 = 0 → mget false (s.hbmWrite p a bs).hbmPoison (x.hbmKey a / 32) = false
    ∧ mget 0 (s.hbmWrite p a bs).hbmErr (x.hbmKey a / 32) = 0)
  ∧ (∀ b src, 32 * b < x.hbmSize → mget false s.hbmPoison (x.hbmKey (32 * b) / 32) = false → let s' := s.poisonBeat p b src
    mget false s'.hbmPoison (x.hbmKey (32 * b) / 32) = true ∧ (s'.part p).mem.lastPoison = some (src, 32 * b)
    ∧ (s'.part p).mem.uncorrBeats.toNat = min (2 ^ 32 - 1) (x.mem.uncorrBeats.toNat + 1)
    ∧ (s'.part p).fltSticky.getLsbD 2 = true ∧ s'.hbm = s.hbm ∧ s'.poisonBeat p b src = s')

/-- MovementChecksRule and MovementIssueRule together. -/
def Obligations.MovementIssue : Prop := MovementChecksRule ∧ MovementIssueRule

/-- StageQueueIssueRule, StageQueueTransferRule and StageQueueBoundaryRule together. -/
def Obligations.StageQueues : Prop := StageQueueIssueRule ∧ StageQueueTransferRule ∧ StageQueueBoundaryRule

/-- HbmInterleaveRule and HbmWritesRule together. -/
def Obligations.HbmWrites : Prop := HbmInterleaveRule ∧ HbmWritesRule

/-! ### Collectives (R139 to R143, R191 to R193, R297 to R308) -/

/-- COLL at issue (R113, R139 to R142, R298): a failed check is a precise fault; a data-form COLL that is accepted with nothing before it
goes to its capstan pair, not started, with its strand, sources, epoch and time, and the strand goes on. -/
def Obligations.CollectiveIssue : Prop :=
  ∀ (t k p : Nat) (b : IBody) (s : State) (w : IWord), w = wordOf 0x90 b → s.issuable t k w → collOk w = true → s.partOf t = some p →
  let x := s.tile t
  (∀ q, s.collCheck t k p w = some q → exec (.coll t k b) s = .next (s.precise t k w q.1 q.2))
  ∧ (s.collCheck t k p w = none → collSlot w = false → fl104 w = false → x.cq = [] → (s.part p).colls = [] →
    ((s.onPair (collEntryNo w)).filter fun c => !c.started).length < 64 →
    ∃ s' o, exec (.coll t k b) s = .next s' ∧ o = { x.mkOp k w with issued := s.time }
      ∧ s'.tile t = { x with
        strands := mset Strand.reset x.strands k { x.strand k with pc := (x.strand k).pc + 16, sched := .ready }
        serial := x.serial + 1 }
      ∧ s' = { s with tiles := s'.tiles, parts := s'.parts }
      ∧ s'.part p = { s.part p with colls := [⟨t, o, collEntryNo w, false, s.time, (s.part p).caps.epoch, 0, [], [], [], false, [], false⟩] })

/-- The start of a collective (R68, R277, R297, R298, R307, R308): one the capstan pair may start is started, however its source came over
the die crossings, and with VOTE it carries the local vote; a LAST bucket leaves its tile's queue only when every tile with strands has
committed and no other is outstanding; a neighbour that is lost is PEER_LOST, a partition fault that records its link and member, and the
collective is not started. -/
def CollectiveStartRule : Prop :=
  ∀ (t p serial : Nat) (a : Crossed (List Nat)) (s : State) (r : CollRun) (c : CollShape), s.partOf t = some p →
  (∀ s1, s1 = s.releaseColls t p 4 → (s1.part p).coll t serial = some r → s1.collShape p r.entry = some c → (s1.part p).capsWork = true →
    s1.collStarts p r = true → (s1.part p).collWait = [] →
    (s1.collLost c = none → ∃ s' r', exec (.capstanCollStart t ⟨serial, a⟩) s = .next s' ∧ (s'.part p).coll t serial = some r'
      ∧ r'.started = true ∧ r'.op = r.op ∧ r'.epoch = r.epoch)
    ∧ (∀ l m, s1.collLost c = some (l, m) → ∃ s' e, exec (.capstanCollStart t ⟨serial, a⟩) s = .next s'
      ∧ (s'.part p).coll t serial = some r ∧ (s'.part p).pend = (s1.part p).pend ++ [e] ∧ e.code = 0x12
      ∧ e.detail = detailOf l m 0 0))
  ∧ (∀ o rest s1, (s.tile t).cq = o :: rest → o.serial = serial → opcOf o.word = 0x90 → fl104 o.word = true → (s.part p).capsWork = true →
    s.lastReady p = true → s.collLeaves t p o = true → s1 = s.takeColl t p o rest → (s1.part p).coll t serial = some r →
    s1.collShape p (collEntryNo o.word) = some c → s1.collStarts p r = true → (s1.part p).collWait = [] → s1.collLost c = none →
    ∃ s' r', exec (.lastBucketStart ⟨t, a⟩) s = .next s' ∧ (s'.tile t).cq = rest ∧ (s'.part p).coll t serial = some r' ∧ r'.started = true)
  ∧ (s.lastReady p = false → ∀ o rest, (s.tile t).cq = o :: rest → fl104 o.word = true → exec (.lastBucketStart ⟨t, a⟩) s = .next s)

/-- Collective messages (R289, R296, R298, R305, R306, R311): a message of a running ALL_GATHER of an X group is written at its place in
the destination and its receive buffers are free; one of the next epoch, or of a collective not started, waits in them; one of another
epoch is stale and only counted on its link; one whose check fails is ECC_UNCORRECTABLE of the partition; a FAULTED partition answers a
newer epoch, or of the one it has advanced to, with a strike of it; one that only crosses a line is passed on whole (R299). -/
def CollectiveMessagesRule : Prop :=
  ∀ (p l : Nat) (b : List Byte) (m : CollMsg) (s : State), let x := s.part p
  CollMsg.ofBytes b = some m → x.exist = true →
  let free (s : State) : State := s.freeColl p l m
  (x.faulted = false → x.hove.state ≠ 2 →
    (∀ c k, m.epoch = x.caps.epoch → s.passesOn p l m = some (c, k) → exec (.collMessageReceive p l b) s
      = .next ((free s).sendColl p c k (chunkSense (c.twoWay m.gather) (c.chunk m.chunk).2 m.offset).1 m))
    ∧ (∀ r c, m.epoch = x.caps.epoch → s.passesOn p l m = none → s.collFor p l m = some r → s.collShape p r.entry = some c →
      (crc32 m.bytes = m.check → c.e.op = 2 → c.e.wire ≠ 3 → c.e.group = 0 → m.gather = true →
        exec (.collMessageReceive p l b) s = .next (((free s).modPart p fun y => y.putColl { r with
            got := r.got ++ [(true, m.chunk, m.srcRank, m.count)], vote := r.vote ||| m.voteword }).writeUnits p r.op.sb.toNat
          (unitBits c.ofmt c.e.esc) (c.off m.chunk + m.offset) (unpackUnits (unitBits c.ofmt c.e.esc) m.count m.bytes)))
      ∧ (crc32 m.bytes ≠ m.check → ∃ s' e, exec (.collMessageReceive p l b) s = .next s'
        ∧ s'.part p = { x with pend := x.pend ++ [e] } ∧ e.code = 0x30 ∧ s'.hbm = s.hbm))
    ∧ (m.epoch = x.caps.epoch + 1 → exec (.collMessageReceive p l b) s
      = .next (s.modPart p fun y => { y with collWait := y.collWait ++ [(l, m)] }))
    ∧ (m.epoch = x.caps.epoch → s.passesOn p l m = none → m.entry ≠ 0xFFFF → s.collFor p l m = none → (s.collShape p m.entry).isSome = true →
      exec (.collMessageReceive p l b) s = .next (s.modPart p fun y => { y with collWait := y.collWait ++ [(l, m)] }))
    ∧ (m.epoch = x.caps.epoch → s.passesOn p l m = none → m.entry = 0xFFFF → s.collFor p l m = none → exec (.collMessageReceive p l b) s
      = .next (if crc32 m.bytes = m.check then free s else (free s).partFault p 0x30 true 0 (detailOf 9 0 0 0)))
    ∧ (m.epoch ≠ x.caps.epoch → m.epoch ≠ x.caps.epoch + 1 → exec (.collMessageReceive p l b) s
      = .next (free (s.modLink l fun k => { k with stale := sat32 k.stale 1 }))))
  ∧ (x.faulted = true ∨ x.hove.state = 2 → x.collWait = [] → m.epoch = x.caps.epoch ∨ newerEpoch m.epoch x.caps.epoch = true → (1, m.epoch) ∉ x.caps.seen → s.Canonical →
    ∃ s', exec (.collMessageReceive p l b) s = .next s' ∧ (1, m.epoch) ∈ (s'.part p).caps.seen
      ∧ (s'.part p).caps.sent = sat16 x.caps.sent 1 ∧ (s'.part p).caps.epoch = x.caps.epoch)

/-- Completion and timeout of a collective (R139, R142, R143, R305, R308): a data-form one whose pieces are in place is no longer
outstanding, leaves its status for CWAIT and, with SIG, adds 1 to its counter; a LAST bucket ends its phases only; one not complete stays;
one whose destination words a failed die crossing poisons is ECC_UNCORRECTABLE, imprecise, and stays outstanding (R68); one that outlives the
collective timeout of its RUN_STEPS (R409) is CMD_TIMEOUT with its entry and epoch. -/
def Obligations.CollectiveEnd : Prop :=
  ∀ (t p serial : Nat) (a : Crossed (List Nat)) (s : State) (r : CollRun) (c : CollShape), s.partOf t = some p → s.Canonical →
  let x := s.part p
  let bad : Prop := a.failed = true ∧ ∃ j ∈ a.poison, j < c.destWords r.op.word
  x.coll t serial = some r → s.collShape p r.entry = some c → x.capsWork = true → (s.tile t).frozen = false → r.started = true →
  r.done = false → collSlot r.op.word = false →
  (c.complete r = true → ¬ bad → fl104 r.op.word = false → (∀ u ∈ x.enabled, (s.tile u).cq = []) → mwf 0 (s.tile t).sc = true →
    ∃ s' rest, exec (.collComplete t ⟨serial, a⟩) s = .next s'
      ∧ s'.part p = { x with
        colls := x.colls.filter fun d => !(decide (d.tile = t) && decide (d.op.serial = serial))
        collDone := ⟨t, r.op.strand, r.entry, if fl105 r.op.word then BitVec.ofNat 64 r.vote.toNat else 0⟩ :: rest }
      ∧ (∀ d ∈ rest, ¬ (d.tile = t ∧ d.strand = r.op.strand ∧ d.entry = r.entry))
      ∧ ∀ n, (s'.tile t).counter n = if fl106 r.op.word = true ∧ n = immf r.op.word 63 58 then (s.tile t).counter n + 1
        else (s.tile t).counter n)
  ∧ (c.complete r = true → bad → (s.tile t).capture = none → ∃ s' d, exec (.collComplete t ⟨serial, a⟩) s = .next s'
    ∧ (s'.tile t).capture = some d ∧ d.code = 0x30 ∧ d.precise = false ∧ d.strand = r.op.strand ∧ (s'.part p).coll t serial = some r)
  ∧ (c.complete r = true → ¬ bad → fl104 r.op.word = true →
    exec (.collComplete t ⟨serial, a⟩) s = .next ((s.countRetries a.crossings).modPart p fun y => y.putColl { r with done := true }))
  ∧ (c.complete r = false → exec (.collComplete t ⟨serial, a⟩) s = .next s)
  ∧ ((∀ o ∈ (s.tile t).cq, opcOf o.word = 0x90 → o.serial ≠ serial) → (∀ d ∈ x.colls, d.op.serial = serial → d = r) →
    r.op.issued.toNat + x.collTicks ≤ s.time.toNat →
    ∃ s' e, exec (.collTimeout t serial) s = .next s' ∧ s' = { s with parts := s'.parts }
      ∧ s'.part p = { x with pend := x.pend ++ [e] } ∧ e.code = 0x10
      ∧ e.detail = detailOf 1 3 (collEntryNo r.op.word) x.caps.epoch.toNat)

/-- The fixed wires (R301): a member's contribution is its element's code, clamped to M and counted saturated, or flushed; the sum of a
group's contributions, at most 32, does not depend on their order; it is NaN when one is NaN or both infinities occur, else the infinity
that occurs, else the exact sum. -/
def Obligations.WireSum : Prop :=
  ∀ (wire w : Nat) (b : Int) (f : Fmt) (codes more : List Nat), (wire = 0 ∧ w = 24 ∨ wire = 1 ∧ w = 32) → codes.length ≤ 32 →
  let code (x : Nat) : Nat := (toWire wire b f x).1
  let total (l : List Nat) : Nat := (l.map code).foldl (wireAdd w) 0
  (codes.Perm more → total codes = total more)
  ∧ (((∃ x ∈ codes, f.decode x = .nan) ∨ (∃ x ∈ codes, f.decode x = .inf false) ∧ ∃ x ∈ codes, f.decode x = .inf true) →
    total codes = 2 ^ (w - 1))
  ∧ ((∀ x ∈ codes, f.decode x ≠ .nan) → ∀ s, (∃ x ∈ codes, f.decode x = .inf s) → (∀ x ∈ codes, f.decode x ≠ .inf (!s)) →
    total codes = if s then 2 ^ (w - 1) + 1 else 2 ^ (w - 1) - 1)
  ∧ ((∀ x ∈ codes, (f.decode x).isFin = true) → sintOf w (total codes) = ((codes.map code).map (sintOf w)).sum)
  ∧ (∀ x, (f.decode x = .nan → code x = 2 ^ (w - 1)) ∧ (∀ s, f.decode x = .inf s → code x = if s then 2 ^ (w - 1) + 1 else 2 ^ (w - 1) - 1)
    ∧ ∀ s m e, f.decode x = .fin s m e → let k := wireShift wire; let c := rneUnits m e (b - k)
        sintOf w (code x) = (if s then -1 else 1) * (min c (2 ^ k - 1) : Nat)
        ∧ ((toWire wire b f x).2.1 = true ↔ 2 ^ k - 1 < c) ∧ ((toWire wire b f x).2.2 = true ↔ c = 0 ∧ m ≠ 0))

/-- CollectiveStartRule and CollectiveMessagesRule together. -/
def Obligations.CollectiveTraffic : Prop := CollectiveStartRule ∧ CollectiveMessagesRule

/-! ### Steps and the commit (R104, R105, R146, R205 to R217, R308, R310, R354, R446, R467) -/

/-- A step and its commit (R104, R105, R146, R205, R215, R217, R308, R310, R314, R354, R446, R467): STEP_START opens the step, fixes
NUM_CTRL and starts the strands; the first COMMIT of a tile waits for the commit; a tile reports when it is done; the exchange sends the
record in its X phase, or is PEER_LOST when a neighbour of a phase is unreachable (R277); when every other position's record is there and
the step's writes are done, a clean commit switches the halves and advances the step count and the epoch, an unclean one advances the epoch
alone; an early abort discards with LOSS_NONFINITE; the step timeout is CMD_TIMEOUT, also of every transfer then open; the idle record
latches the sums of the tiles' counters. -/
def StepAndCommitRule : Prop :=
  ∀ (p : Nat) (s : State), s.Canonical → let x := s.part p
  (∀ c v, s.runCmd p = some c → x.cur = some v → s.stepMayStart p = true → x.caps.held = [] →
    ∃ s', exec (.stepStart p) s = .next s' ∧ s' = { s with tiles := s'.tiles, parts := s'.parts }
      ∧ (s'.part p).stepOpen = true ∧ (s'.part p).stepStart = s.time ∧ (s'.part p).num.ctrlStep = x.num.ctrl
      ∧ (s'.part p).num.vote = .clean ∧ (s'.part p).commitStatus = none
      ∧ (s'.part p).wit.open' = witnessSelected v x.wit x.num.step
      ∧ ∀ l e r t, v.starts = l ++ e :: r → x.physOf e.tile = some t → witnessSelected v x.wit x.num.step = [] →
        (∀ f ∈ r, x.physOf f.tile ≠ some t ∨ f.strand ≠ e.strand) → (s'.tile t).inStep = true
        ∧ (s'.tile t).strand e.strand = startedStrand e.tile e.strand e.station.toNat e.pc e.arg x.num.step)
  ∧ (∀ t k b w, w = wordOf 0x9A b → s.issuable t k w → commitOk w = true → (s.tile t).committed = false → (s.tile t).cq = [] →
    let y := s.tile t
    exec (.commit t k b) s = .next ((s.setTile t { y with
      committed := true, commitOp := some (y.mkOp k w), serial := y.serial + 1 }).advance t k))
  ∧ (∀ t, s.partOf t = some p → (s.tile t).inStep = true → (s.tile t).frozen = false → s.tileDone p t = true → x.stepResult = none →
    exec (.tileStepDone t) s = .next (s.modTile t fun y => { y with inStep := false }))
  ∧ (s.exchangeReady p = true → let v := x.lastVote.or x.num.vote; let r := x.num.record v
    (s.exchLost p = none → exec (.commitExchange p) s
      = .next (((s.setPart p { x with exch := ⟨true, s.time, v⟩ }).send (.exchange p x.caps.epoch r)).sendExchX p r))
    ∧ ∀ l m, s.exchLost p = some (l, m) → exec (.commitExchange p) s = .next (s.partFault p 0x12 true 0 (detailOf l m 0 0)))
  ∧ (∀ others n v, (n, v) = x.mergeOthers (others.map (·.2)) → x.exch.entered = true → x.stepOpen = true → x.stepResult = none →
    x.capsWork = true → s.allRecords p others = true → s.writesDone p = true → s.tilesInStep p ≠ [] → x.caps.held = [] →
    x.calDue = false → x.num.stepsLeft ≠ 1 → x.num.ctrlStep.getLsbD 9 = false →
    ∃ s', exec (.partitionCommit p others) s = .next s' ∧ (s'.part p).stepOpen = false
      ∧ (s'.part p).caps.epoch = x.caps.epoch + 1 ∧ (s'.part p).colls = [] ∧ (s'.part p).half = (if v.isClean then !x.half else x.half)
      ∧ (s'.part p).stepResult = some (if v.isClean then 0 else 0x60)
      ∧ (s'.part p).commitStatus = some (statusWord v true v.isClean)
      ∧ (s'.part p).num = { (if v.isClean then n.commitStep.1 else n.discardStep v false) with global := some v })
  ∧ (x.earlyAbort = true → x.stepOpen = true → x.sound = true → s.tilesInStep p ≠ [] → x.caps.held = [] →
    x.calDue = false → x.num.ctrlStep.getLsbD 9 = false → ∃ s', exec (.earlyAbortNotice p none) s = .next s' ∧ (s'.part p).stepOpen = false ∧ (s'.part p).half = x.half
      ∧ (s'.part p).stepResult = some 0x61 ∧ (s'.part p).caps.epoch = x.caps.epoch + 1 ∧ (s'.part p).num.step = x.num.step
      ∧ (s'.part p).num.lossL = max (-8) (x.num.lossL - 1) ∧ (s'.part p).num.scale = x.num.scale)
  ∧ (∀ c t k, s.runCmd p = some c → x.sound = true → x.stepOpen = true → c.start.toNat + c.timeout ≤ s.time.toNat →
    s.leastOpen p = some (t, k) → (∀ u ∈ s.tilesInStep p, (s.tile u).transfers = []) → let r := s.waitReason t k
    ∃ s' e, exec (.stepTimeout p) s = .next s' ∧ s' = { s with parts := s'.parts } ∧ s'.part p = { x with pend := x.pend ++ [e] }
      ∧ e.code = 0x10 ∧ e.originating = true ∧ e.tile = some t ∧ e.epoch = some x.caps.epoch ∧ e.detail = detailOf 0 r.1 r.2.1 r.2.2)
  ∧ (∀ c u o, s.runCmd p = some c → x.sound = true → x.stepOpen = true → c.start.toNat + c.timeout ≤ s.time.toNat →
    u ∈ s.tilesInStep p → o ∈ (s.tile u).transfers → ∃ s', exec (.stepTimeout p) s = .next s' ∧ o.serial ∈ (s'.tile u).timedOut)
  ∧ (x.exist = true → x.stepOpen = false → x.idleRec.time.toNat + 10000000 ≤ s.time.toNat →
    ∃ s' r, exec (.idleRecordLatch p) s = .next s' ∧ s' = { s with parts := s'.parts } ∧ s'.part p = { x with idleRec := r }
      ∧ r.time = s.time ∧ r.tiles = x.enabled.length ∧ r.busy = (x.enabled.map fun t => (s.tile t).busy).sum
      ∧ ∀ c, c < 10 → mget 0 r.idle c = (x.enabled.map fun t => mget 0 (s.tile t).idle c).sum)

/-- The numerics of a step's end (R203 to R207, R212, R215): a clean commit advances the step count and grows L by GROWTH_INTERVAL, an
unclean step lowers L and leaves scales and histories, and both discard what was staged; an ESTIMATE entry follows R206, a DELAYED
one R207. That the count stays 0 with a GROWTH_INTERVAL of 0 is the model's reading (log entry 39). -/
def CommitNumericsRule : Prop :=
  ∀ n : Numerics,
  (let m := n.commitStep.1
    let i := n.ctrlStep.toNat / 65536
    m.step = n.step + 1 ∧ m.staged = [] ∧ m.vote = .clean ∧ m.lossL = (if i ≠ 0 ∧ i ≤ n.growth + 1 then min 24 (n.lossL + 1) else n.lossL)
    ∧ m.growth = (if i = 0 then n.growth else if i ≤ n.growth + 1 then 0 else n.growth + 1))
  ∧ (∀ v f, let m := n.discardStep v f
    m.step = n.step ∧ m.staged = [] ∧ m.vote = .clean ∧ m.lossL = max (-8) (n.lossL - 1) ∧ m.growth = 0 ∧ m.scale = n.scale
    ∧ m.hist = n.hist ∧ (n.lossL = -8 → m.events.getLsbD 1 = true))
  ∧ (∀ e o w, mwf scaleReset n.scale = true → w = mget scaleReset n.scale e →
    let v := mget scaleReset (n.commitScale e o).scale e
    let hist := (n.commitScale e o).hist
    let seen := stObs o && !(stNan o)
    let bf16 (y : Val) : Nat := (convert .bf16 false y).1
    let s1 (m : Val) : Int := match log2Floor m with | some l => l + seHeff w - seTarget w | none => seScale w
    let s2 (y : Int) : Int := min 127 (max (-128) (if stOvf o = 0 then y else max y (seScale w + 1)))
    seOvf v = min 0x7FFF (seOvf w + stOvf o)
    ∧ (seDelayed w = false → hist = n.hist ∧ seHist v = seHist w
      ∧ seEst v = (if seen then bf16 (Val.max (f32 (BitVec.ofNat 32 (stAbs o))) (Fmt.bf16.decode (bf16 (Val.mul (Fmt.bf16.decode (seEst w)) (.fin false 15 (-4))))))
        else seEst w)
      ∧ seScale v = s2 (if seen then s1 (Fmt.bf16.decode (seEst v)) else seScale w))
    ∧ (seDelayed w = true → seEst v = seEst w ∧ seHist v = (if seen then min 16 (seHist w + 1) else seHist w)
      ∧ hist = (if seen then mset 0 n.hist (16 * seWatch w + n.step.toNat % 16) (BitVec.ofNat 32 (stAbs o)) else n.hist)
      ∧ seScale v = s2 (s1 (f32 (BitVec.ofNat 32 ((mgetList 0 hist (16 * seWatch w) 16).foldl (fun a y => max a (y.toNat % 2 ^ 31)) 0))))))

/-- StepAndCommitRule and CommitNumericsRule together. -/
def Obligations.StepAndCommit : Prop := StepAndCommitRule ∧ CommitNumericsRule

/-! ### Partition faults, resets and admission (R59, R72, R251 to R254, R311 to R315, R404, R405, R424 to R430, R439 to R445, R453, R454) -/

/-- Partition faults (R38, R311, R314, R440 to R445, R461): the fault of a lost lead waits for the control command that runs; the first
fault fills the record, freezes every tile of the partition, of which only destination slots of struck slot-form collectives lose their
contents (R192), and strikes its epoch; later ones only count; a tile that does not acknowledge is unreachable; the record is cleared when
no tile is frozen; a strike of the present epoch, or of an older one that was not committed (R315), advances the epoch and is COLL_ABORT, not
originating; one of no job held here is stale. -/
def Obligations.PartitionFaults : Prop :=
  ∀ (p : Nat) (s : State), s.Canonical → let x := s.part p
  (∀ f, s.dueFaults p = [f] → x.fault.valid = false → x.exist = true →
    ∃ s', exec (.partitionFaultStop p) s = .next s' ∧ (s'.part p).fault.valid = true ∧ (s'.part p).fault.code = f.code
      ∧ (s'.part p).fault.originating = f.originating ∧ (s'.part p).fault.later = 0 ∧ (s'.part p).pend = [] ∧ (s'.part p).lostFault = none
      ∧ (s'.part p).frozenAt = s.time ∧ (s'.part p).fltSticky.getLsbD 0 = true
      ∧ (∀ b ∈ x.bays, ∀ t ∈ bayTiles b, s'.tile t = { s.tile t with
          halted := true, acc := (s'.tile t).acc, slots := (s'.tile t).slots }
        ∧ ∀ n, (f.epoch = none ∨ (∀ r ∈ x.colls, r.tile = t → collSlot r.op.word = true → sbOf r.op.word ≠ n)
            ∧ (∀ o ∈ (s.tile t).cq, opcOf o.word = 0x90 → collSlot o.word = true → sbOf o.word ≠ n)) →
          (s'.tile t).slot n = (s.tile t).slot n ∧ ∀ i, i < 1024 → (s'.tile t).entry n i = (s.tile t).entry n i)
      ∧ (∀ e, f.epoch = some e → (1, e) ∉ x.caps.seen → (s'.part p).caps.sent = sat16 x.caps.sent 1 ∧ (1, e) ∈ (s'.part p).caps.seen))
  ∧ (∀ f, x.pend = [] → x.lostFault = some f → (s.runningControl p).isSome = true → exec (.partitionFaultStop p) s = .next s)
  ∧ (∀ f l, s.dueFaults p = f :: l → x.fault.valid = true → exec (.partitionFaultStop p) s = .next (s.setPart p { x with
      pend := [], lostFault := none, fault := { x.fault with later := min 255 (x.fault.later + (l.length + 1)) } }))
  ∧ (∀ t, s.partOf t = some p → x.exist = true → x.bays.contains (bayOf t) = true → x.faulted = true → (s.tile t).dead = false →
    x.frozenAt.toNat + 2000 ≤ s.time.toNat → ∃ s', exec (.freezeAckTimeout ⟨p, 0, t⟩) s = .next s' ∧ s'.tile t = { s.tile t with dead := true }
      ∧ s'.part p = { x with fault := { x.fault with unreachable := min 255 (x.fault.unreachable + 1) }, fltSticky := x.fltSticky ||| 0x40 })
  ∧ (x.exist = true → x.fault.valid = true → s.anyFrozen p = false →
    ∃ s', exec (.fltClear p) s = .next s' ∧ s' = { s with book := s'.book, parts := s'.parts }
      ∧ s'.part p = { x with fault := .zero })
  ∧ (∀ l b, l < 32 → leNat (b.take 1) = 1 →
    ((∀ q, q < 12 → (s.part q).image.isSome = true → (s.part q).caps.job.toNat ≠ leNat ((b.drop 8).take 4)) →
      exec (.strikeReceive l b) s = .next (s.modLink l fun k => { k with stale := sat32 k.stale 1 }))
    ∧ (p < 12 → x.exist = true → x.image.isSome = true → x.caps.job.toNat = leNat ((b.drop 8).take 4) →
      (∀ q, q < p → (s.part q).exist = true → (s.part q).image.isSome = true → (s.part q).caps.job ≠ x.caps.job) →
      ∀ e, e = BitVec.ofNat 32 (leNat ((b.drop 12).take 4)) → newerEpoch e x.caps.epoch = false → (1, e) ∉ x.caps.seen →
      e ∉ x.caps.committedEpochs → x.caps.held = [] → ∃ s' f, exec (.strikeReceive l b) s = .next s' ∧ (s'.part p).pend = x.pend ++ [f] ∧ f.code = 0x11
        ∧ f.originating = false ∧ (s'.part p).caps.epoch = x.caps.epoch + 1 ∧ (s'.part p).colls = []
        ∧ (s'.part p).caps.received = sat16 x.caps.received 1))

/-- Scrubbing and partition resets (R59, R72, R251, R252, R269, R405, R453, R454): a tile's scrubber moves on and corrects single-bit errors;
an HBM scrubber moves on and corrects one bad symbol; a reset begins with its cause, the tiles frozen and the tenancy closed, and a unit that has
not answered after 1 ms is unreachable; the automatic reset has no effect under the coordinator's AUTO_RECOVER; at its end every tile
and stack of the partition is zeroed and it holds no image. -/
def Obligations.ScrubAndReset : Prop :=
  ∀ (p : Nat) (s : State), s.Canonical → let x := s.part p
  (∀ t, let y := s.tile t
    let u := if y.scrub < 65536 then 0 else 3
    let w := if y.scrub < 65536 then 4 * y.scrub else 4 * (y.scrub - 65536)
    ∃ s', exec (.tileScrubRead t) s = .next s' ∧ (s'.tile t).scrub = (y.scrub + 1) % 66048
      ∧ (y.ecc = [] → s' = s.modTile t fun z => { z with scrub := (y.scrub + 1) % 66048 })
      ∧ (mwf 0 y.ecc = true → ∀ j, j < 4 → mget 0 y.ecc (eccKey u (w + j)) = 1 → mget 0 (s'.tile t).ecc (eccKey u (w + j)) = 0))
  ∧ (∀ b, let i := mget 0 s.hbmScrub b
    let k := (b * 2 ^ 36 + 32 * i) / 32
    let at' : State := { s with hbmScrub := mset 0 s.hbmScrub b (i + 1) }
    i + 1 < 48 * 2 ^ 30 / 32 →
    (s.hbmErr = [] → exec (.hbmScrubRead b) s = .next at')
    ∧ (mget 0 s.hbmErr k = 1 → s.ownerOfBay b = none → exec (.hbmScrubRead b) s = .next { at' with hbmErr := mset 0 s.hbmErr k 0 })
    ∧ (mget 0 s.hbmErr k = 1 → s.ownerOfBay b = some p → ∃ s', exec (.hbmScrubRead b) s = .next s' ∧ mget 0 s'.hbmErr k = 0
      ∧ s'.hbm = s.hbm ∧ (s'.part p).mem.corrSymbols = sat32 x.mem.corrSymbols 1))
  ∧ (x.exist = true → x.resetting = none → ∃ s', exec (.partCtrlReset p) s = .next s' ∧ (s'.part p).resetting = some 0
    ∧ (s'.part p).resetStart = s.time ∧ (s'.part p).tenancy = 0 ∧ ∀ b ∈ x.bays, ∀ t ∈ bayTiles b, (s'.tile t).frozen = true)
  ∧ (∀ k u, 1 ≤ k → x.hasUnit ⟨p, k, u⟩ = true → x.exist = true → x.resetting.isSome = true → (k, u) ∉ x.resetGone →
    x.resetStart.toNat + 100000 ≤ s.time.toNat → ∃ s', exec (.freezeAckTimeout ⟨p, k, u⟩) s = .next s' ∧ s'.tiles = s.tiles
    ∧ s'.part p = { x with resetGone := x.resetGone ++ [(k, u)], fltSticky := x.fltSticky ||| 0x40 })
  ∧ (∀ told, x.exist = true → x.resetting = none → x.faulted = true → x.autoReset = true → s.anyFrozen p = true → x.dump.state ≠ 1 →
    x.dump.state ≠ 2 → x.dumpDue = false →
    (x.image = none ∨ (s.jobCtrl p told).getLsbD 31 = false → x.ela.run = none → ∃ s', exec (.autoReset ⟨p, told⟩) s = .next s'
      ∧ (s'.part p).resetting = some 5 ∧ (s'.part p).resetStart = s.time ∧ (s'.part p).tenancy = 0)
    ∧ (x.image.isSome = true → (s.jobCtrl p told).getLsbD 31 = true → exec (.autoReset ⟨p, told⟩) s = .next s))
  ∧ (∀ failed back cause, x.exist = true → x.resetting = some cause → x.destroy = none →
    ∃ s', exec (.partitionReset p failed back) s = .next s' ∧ (s'.part p).exist = true ∧ (s'.part p).resetting = none
      ∧ (s'.part p).image = none ∧ (s'.part p).bays = x.bays ∧ (s'.part p).cmds = [] ∧ (s'.part p).num.lossL = Numerics.reset.lossL
      ∧ (∀ t, bayOf t ∈ x.bays → s'.tile t = Tile.reset)
      ∧ ∀ b ∈ x.bays, ∀ a, a < 2 ^ 36 → mget 0 s'.hbm (b * 2 ^ 36 + a) = 0)

/-- Admission with no request pending or deferred (R404, R424 to R430): a request that fails its check ends REFUSED with its reason; a CREATE
makes the lowest free partition number on the bays chosen and a partition reset begins; a RESIZE gives its partition the bays; a
DESTROY, a LEASE at its victim's deadline and the end of a lease's DURATION mark the partition for destruction and begin its
reset; a deferred request is cancelled, expires at WAIT_LIMIT or is served when bays are free; an ended slot is released. -/
def Obligations.Admission : Prop :=
  ∀ (n p : Nat) (s : State), s.Canonical →
  let r := s.adm.req
  let op : Instr := if r.kind = 1 then .admResize else if r.kind = 2 then .admDestroy else .admCreate
  let freeSlot (m : Nat) : Prop := m < 64 ∧ (s.adm.slot m).slot = 0 ∧ ∀ j, j < m → (s.adm.slot j).slot ≠ 0
  let freePart (q : Nat) : Prop := q < 12 ∧ (s.part q).exist = false ∧ ∀ j, j < q → (s.part j).exist = true
  (s.tackUp = true → freeSlot n →
    (∀ reason, s.admCheck r = some reason → ∃ s', exec op s = .next s' ∧ s' = { s with adm := s'.adm }
      ∧ (s'.adm.slot n).slot = 3 ∧ (s'.adm.slot n).status = 0x45 ∧ (s'.adm.slot n).reason = reason ∧ s'.adm.lastSlot = n)
    ∧ (s.pendingSlots = [] → s.adm.queue = [] → s.admCheck r = none →
      (∀ bays, r.kind = 0 → freePart p → r.choose (s.availFor r []) = some bays → ∃ s', exec op s = .next s'
        ∧ (s'.part p).exist = true ∧ (s'.part p).bays = sortBays bays ∧ (s'.part p).resetting = some 3 ∧ (s'.part p).cls = r.cls
        ∧ (s'.adm.slot n).slot = 2 ∧ (s'.adm.slot n).status = 0 ∧ (s'.adm.slot n).partition = p)
      ∧ (∀ bays, r.kind = 1 → r.choose (s.availFor r []) = some bays → (sortBays bays).length ≠ 12 → ∃ s', exec op s = .next s'
        ∧ (s'.part r.partition).exist = true ∧ (s'.part r.partition).bays = sortBays bays
        ∧ (s'.part r.partition).resetting = some 3 ∧ (s'.adm.slot n).slot = 3 ∧ (s'.adm.slot n).status = 0)
      ∧ (r.kind = 2 → (s.part r.partition).resetting = none → ∃ s', exec op s = .next s' ∧ (s'.part r.partition).destroy = some (0, 0, 0)
        ∧ (s'.part r.partition).resetting = some 3 ∧ (s'.adm.slot n).slot = 3 ∧ (s'.adm.slot n).status = 0)))
  ∧ ((s.adm.slot n).slot = 3 → exec (.admRelease n) s = .next { s with
      adm := { s.adm with slots := mset AdmSlot.free s.adm.slots n { AdmSlot.free with time := s.time } } })
  ∧ (n ∈ s.adm.queue → ∃ s', exec (.admCancel n) s = .next s' ∧ s' = { s with adm := s'.adm } ∧ n ∉ s'.adm.queue
    ∧ (s'.adm.slot n).slot = 3 ∧ (s'.adm.slot n).status = 0x45 ∧ (s'.adm.slot n).reason = 7)
  ∧ (n ∈ s.adm.queue → (s.adm.slot n).req.waitLimit ≠ 0 →
    (s.adm.slot n).time.toNat + (s.adm.slot n).req.waitLimit * 100000000 ≤ s.time.toNat →
    ∃ s', exec (.waitLimitExpiry n) s = .next s' ∧ s' = { s with adm := s'.adm } ∧ n ∉ s'.adm.queue
      ∧ (s'.adm.slot n).slot = 3 ∧ (s'.adm.slot n).status = 0x45 ∧ (s'.adm.slot n).reason = 6)
  ∧ (∀ bays, s.tackUp = true → s.pendingSlots = [] → s.adm.queue = [n] → (s.adm.slot n).req.kind = 0 → freePart p →
    (s.adm.slot n).req.choose (s.availFor (s.adm.slot n).req []) = some bays → ∃ s', exec .deferredServe s = .next s'
      ∧ (s'.part p).exist = true ∧ (s'.part p).bays = sortBays bays ∧ (s'.part p).resetting = some 3 ∧ s'.adm.queue = []
      ∧ (s'.adm.slot n).slot = 2 ∧ (s'.adm.slot n).status = 0)
  ∧ (∀ l r, s.pendingSlots = l ++ n :: r → p ∈ (s.adm.slot n).victims → (∀ m ∈ l, p ∉ (s.adm.slot m).victims) →
    (s.part p).destroy = none → (s.part p).exist = true → (s.part p).resetting = none →
    (s.adm.slot n).submitted.toNat + (s.adm.slot n).req.deadline * 100000000 ≤ s.time.toNat →
    ((s.adm.slot n).req.cls = 0 → ∃ s', exec (.victimDeadline p) s = .next s' ∧ (s'.part p).resetting = some 3
      ∧ (s'.part p).destroy = some (0x44, (s.adm.slot n).req.lease, (s.adm.slot n).req.reshapeId))
    ∧ ((s.adm.slot n).req.cls ≠ 0 → ∃ s', exec (.victimDeadline p) s = .next s' ∧ s' = { s with adm := s'.adm } ∧ n ∈ s'.adm.queue
      ∧ (s'.adm.slot n).slot = 2 ∧ (s'.adm.slot n).status = 0x43 ∧ (s'.adm.slot n).victims = []))
  ∧ (∀ t, s.adm.creator p = some n → (s.adm.slot n).leaseEnd = some t → t ≤ s.time.toNat → (s.part p).exist = true →
    (s.part p).cmds = [] → (s.part p).resetting = none → (s.part p).destroy = none →
    ∃ s', exec (.leaseDurationEnd p) s = .next s' ∧ (s'.part p).leaseEnded = true ∧ (s'.part p).tenancy = 0
      ∧ (s'.part p).destroy = some (0, 0, 0) ∧ (s'.part p).resetting = some 3)

/-! ### Host memory and the PCIe link (R250, R252, R253, R259 to R261, R402, R434) -/

/-- Host accesses to partition memory (R24, R250, R252, R253, R402), through a partition's own function or the physical one, inside its BAR2
window and of at most 4,096 bytes read and 512 written: a BAR2 read answers the bytes, all ones beyond the partition, which is counted, and
all ones during a reset or where the function shows no partition; a BAR2 write stores, or is dropped and counted; a poisoned one, and words
that a die crossing poisons, leave their beats poisoned. Accesses past those limits change nothing. -/
def HostAccessRule : Prop :=
  ∀ (p o n : Nat) (bytes : List Byte) (phys poisoned : Bool) (c : Crossed (List Nat)) (s : State),
  let fn := s.barFunction p phys
  let read := Instr.bar2Read p o ⟨phys, n, c⟩
  let write := Instr.bar2Write p o bytes ⟨phys, poisoned, c⟩
  let ones := Msg.barData fn (List.replicate n (0xFF : Byte)) false
  let window := s.windowSize fn
  let drop (q : Nat) : State := s.modPart q fun y => { y with mem := { y.mem with bar2Dropped := sat32 y.mem.bar2Dropped 1 } }
  (n ≤ 4096 → o + n ≤ window →
    (s.barPart p phys = none → exec read s = .next (s.send ones))
    ∧ ∀ q, s.barPart p phys = some q → let x := s.part q
      let a := x.bar2Base * 2 ^ 21 + o
      (x.resetting.isSome = true → exec read s = .next (s.send ones))
      ∧ (x.resetting = none → x.hbmSize < a + n → exec read s = .next ((drop q).send ones))
      ∧ (x.resetting = none → a + n ≤ x.hbmSize → s.hbmPoison = [] → s.hbmErr = [] → exec read s
        = .next ((s.countRetries c.crossings).send (.barData fn ((List.range n).map fun j => mget 0 s.hbm (x.hbmKey (a + j)))
          (crossedWord c ((n + 3) / 4)).isSome))))
  ∧ (bytes.length ≤ 512 → o + bytes.length ≤ window →
    (s.barPart p phys = none → exec write s = .next s)
    ∧ ∀ q, s.barPart p phys = some q → let x := s.part q
      let a := x.bar2Base * 2 ^ 21 + o
      (x.resetting.isSome = true → exec write s = .next s)
      ∧ (x.resetting = none → x.hbmSize < a + bytes.length → exec write s = .next (drop q))
      ∧ (x.resetting = none → a + bytes.length ≤ x.hbmSize →
        (poisoned = false → c.failed = false → exec write s = .next ((s.writeHbm q a bytes).countRetries c.crossings))
        ∧ (s.Canonical → ∃ s', exec write s = .next s' ∧ s'.hbm = (s.hbmWrite q a bytes).hbm
          ∧ (poisoned = true → ∀ b ∈ beatsOf a bytes.length, mget false s'.hbmPoison (x.hbmKey (32 * b) / 32) = true)
          ∧ ∀ j, c.bad j = true → 4 * j < bytes.length →
            mget false s'.hbmPoison (x.hbmKey (32 * ((a + 4 * j) / 32)) / 32) = true)))
  ∧ ((4096 < n ∨ window < o + n) → exec read s = .next s)
  ∧ ((512 < bytes.length ∨ window < o + bytes.length) → exec write s = .next s)

/-- Host reads and posted writes of the DMA engines (R253, R259 to R261, R273): an accepted completion of a command's read stores its bytes,
and its last part is counted to the command; a late one, and one in the cycle of the command's timeout, is only counted; a timed-out
request records the advisory error and is asked again at the next epoch; a held slot returns to use; a posted-write credit sends one
payload, poisoned where a die crossing has poisoned a word of it; the command completes with its last byte, with HBM_POISON where the host's
or HBM's data were poisoned and, for DMA_H2D, the first poisoned address; else with ECC_UNCORRECTABLE where only a crossing did it (DEDUCED, log
150). -/
def HostTransfersRule : Prop :=
  ∀ (p : Nat) (s : State), let x := s.part p
  x.exist = true →
  (∀ tag bytes a, let r := x.reqSlot (tag % 2048)
    ((r.waiting = false ∨ x.tag (tag % 2048) ≠ tag ∨ r.len < r.buf.length + bytes.length ∨ s.readLate p r.owner = true) →
      exec (.hostReadCompletion p tag bytes a) s
        = .next (s.modPart p fun y => { y with mem := { y.mem with lateCpl := sat32 y.mem.lateCpl 1 } }))
    ∧ (∀ key h, r.waiting = true → x.tag (tag % 2048) = tag → r.buf.length + bytes.length ≤ r.len → s.readLate p r.owner = false →
      r.owner = .cmd key → x.hostRead r.owner = some h → h.hbm = true →
      ∃ s', exec (.hostReadCompletion p tag bytes a) s = .next s' ∧ s'.hbm = (s.hbmWrite p (r.dest + r.buf.length) bytes).hbm
        ∧ ∀ c, x.cmd key = some c → ∃ c', (s'.part p).cmd key = some c'
          ∧ c'.moved = if r.buf.length + bytes.length = r.len then c.moved + r.len else c.moved))
  ∧ (∀ i, let r := x.reqSlot i
    let fn := x.function p
    let noted : State := { s with pci := mmod PciFn.reset s.pci fn fun c => { c with advisory := true } }
    r.waiting = true →
    (r.used < 7 → let y := x.setReq i { r with epoch := r.epoch + 1, used := r.used + 1, buf := [], bad := false }
      exec (.hostCompletionTimeout p i) s = .next ((noted.setPart p { y with mem := { y.mem with cplRetries := sat32 y.mem.cplRetries 1 } }).send
        (.hostRead fn (y.tag i) r.addr r.len)))
    ∧ (7 ≤ r.used → exec (.hostCompletionTimeout p i) s = .next noted))
  ∧ (∀ i, (x.reqSlot i).held = true → (∀ h ∈ x.reads, h.left = []) →
    exec (.tagSlotHoldoffEnd p i) s = .next (s.setPart p (x.setReq i { x.reqSlot i with held := false })))
  ∧ (∀ key c e, x.cmd key = some c → c.engine = some e → let k := s.pciOf (x.function p)
    (c.op = 0x11 → c.moved < c.arg 16 8 → s.hbmPoison = [] → s.hbmErr = [] →
      let h := c.arg 0 8 + c.moved
      let n := min (min (max 1 (min 512 k.maxPayload)) (4096 - h % 4096)) (c.arg 16 8 - c.moved)
      let bad := c.crossed.any fun j => decide (4 * j < c.moved + n) && decide (c.moved < 4 * j + 4)
      ∃ s' c', exec (.hostPostedCredit p key 1) s = .next s' ∧ (s'.part p).cmd key = some c'
        ∧ c' = { c with moved := c.moved + n, ecc := c.ecc || bad }
        ∧ s'.out = .hostWrite h ((List.range n).map fun j => mget 0 s.hbm (x.hbmKey (c.arg 8 8 + c.moved + j))) bad k.relaxed :: s.out)
    ∧ ((c.op = 0x10 ∨ c.op = 0x11) → c.moved = c.arg 16 8 → c.origin = .host → c.forwarded = false →
      exec (.hostDmaComplete p key) s = .next (s.completed p c (if c.poison.isSome then 0x32 else if c.ecc then 0x30 else 0) 0
        (match c.poison with | some a => if c.op = 0x10 then BitVec.ofNat 64 a else 0 | none => 0))))

/-- The PCIe link (R434, R593): its loss brings every partition with monitoring on and a tenancy open into hove-to; its return writes
what the completion queues hold back. -/
def PcieLinkRule : Prop :=
  ∀ s : State,
  (∃ s', exec .pcieDlDown s = .next s' ∧ s'.dlUp = false ∧ ∀ p, p < 12 → let x := s.part p
    x.exist = true → x.hove.enable = true → x.tenancy ≠ 0 → x.hove.state = 0 → x.resetting = none → (s'.part p).hove.state = 1
      ∧ (s'.part p).hove.cause = 2 ∧ (s'.part p).hove.leaseEnd = s.time + BitVec.ofNat 64 (x.hove.leaseS * 100000000))
  ∧ (s.pkg.ready = true → s.pkg.mode = 0 → (∃ s', exec .pcieDlUp s = .next s' ∧ s'.dlUp = true ∧ s'.pkg.hostLoop = false)
    ∧ ((∀ p, p < 12 → ∀ q, q < 16 → ((s.part p).cq q).held = []) →
      exec .pcieDlUp s = .next { s with dlUp := true, pkg := { s.pkg with hostLoop := false } }))

/-- HostAccessRule, HostTransfersRule and PcieLinkRule together. -/
def Obligations.HostMemory : Prop := HostAccessRule ∧ HostTransfersRule ∧ PcieLinkRule

/-! ### Balca links (R276 to R296, R318 to R324, R367) -/

/-- Training, loss and retraining of a link (R276, R282 to R284, R318, R319, R321, R323 to R325): every training begins with the identity
frames, in which a miswired link is barred; cached or full training is chosen; an attempt passes to qualification, qualification to UP; three
failed full attempts end DOWN with TRAIN_FAIL until the 10 s timer; a lane's loss or RETRAIN sends an UP link into RETRAIN; one not UP in time
is lost, and a member behind it is PEER_LOST, but not a responder's link during its peer's loop-back; FULL_TRAIN drops the cache entry; a
loop-back counts its errors, a far-end one only where the peer answers, and a responder counts a flit's codewords and sends it back. That the
identity frames are exchanged again in RETRAIN is the model's reading (DEDUCED, log 188). -/
def LinkTrainingRule : Prop :=
  ∀ (n : Nat) (s : State), s.Canonical → let l := s.link n
  n < 32 →
  (∀ serial peerLink coord lanes, l.enable = true →
    (l.state = .down ∧ l.barred = false ∧ l.failedAt = none ∨ (l.state = .trainFull ∨ l.state = .retrain) ∧ l.identified = false) →
    s.clk.refclk = true → s.pkg.perst = false → s.linkOn n = true → ∃ s', exec (.linkSignalDetect n serial peerLink coord lanes) s = .next s'
      ∧ s' = { s with links := s'.links, out := .identity n Config.serial s.coord (linkRole n).1 (linkRole n).2 :: s.out }
      ∧ (s'.link n).peerSerial = serial ∧ (s'.link n).found = true ∧ (s'.link n).identified = true ∧ (s'.link n).pos = s.coord
      ∧ (s.wiredRight n coord peerLink = false → (s'.link n).state = .down ∧ (s'.link n).barred = true ∧ (s'.link n).sticky.getLsbD 4 = true)
      ∧ (s.wiredRight n coord peerLink = true → let cached := l.cache = some (serial, peerLink % 32) ∧ l.wantFull = false
        (l.state = .down → (s'.link n).state = if cached then .trainCached else .trainFull)
        ∧ (l.state = .trainFull → (s'.link n).state = .trainFull)
        ∧ (l.state = .retrain → (s'.link n).state = if cached then .retrain else .trainFull)
        ∧ (∀ e, l.cache = some e → e.1 ≠ serial → (s'.link n).sticky.getLsbD 0 = true)))
  ∧ (∀ ms, let m := { l with trainMs := min 2047 ms, lastFull := decide (l.state = LinkState.trainFull) }
    (l.identified = false → exec (.linkTrainingDone n true ms) s = .next s ∧ exec (.linkTrainingDone n false ms) s = .next s)
    ∧ (l.identified = true →
      (l.state = .trainFull ∨ l.state = .trainCached ∨ l.state = .retrain →
        exec (.linkTrainingDone n true ms) s = .next (s.setLink n { m with state := .qualify }))
      ∧ (l.state = .trainFull → l.attempts < 2 → exec (.linkTrainingDone n false ms) s
        = .next (s.setLink n { m with state := .trainFull, attempts := l.attempts + 1 }))
      ∧ (l.state = .trainFull → 2 ≤ l.attempts → exec (.linkTrainingDone n false ms) s = .next (s.setLink n { m with
          sticky := l.sticky ||| 4, state := .down, attempts := 0, failedAt := some s.time, found := false, identified := false
          lanes := 0, retraining := false }))
      ∧ ((l.state = .trainCached ∨ l.state = .retrain) →
        (l.retraining = false ∨ 2 ≤ l.attempts → exec (.linkTrainingDone n false ms) s
          = .next (s.setLink n { m with state := .trainFull, attempts := 0 }))
        ∧ (l.retraining = true → l.attempts < 2 → exec (.linkTrainingDone n false ms) s
          = .next (s.setLink n { m with state := .retrain, attempts := l.attempts + 1 })))))
  ∧ (l.state = .qualify → ∃ s', exec (.qualificationDone n true) s = .next s' ∧ (s'.link n).state = .up ∧ (s'.link n).attempts = 0
    ∧ (s'.link n).leftUp = none ∧ (s'.link n).lost = false ∧ (s'.link n).lanes = 15 ∧ s'.out = ((s'.link n).upFlits.map (Msg.flit n)).reverse ++ s.out
    ∧ (s'.link n).outMsgs = (if l.lost then [] else l.outMsgs)
    ∧ (s'.link n).cache = (if l.lastFull then some (l.peerSerial, l.peerLink) else l.cache))
  ∧ (∀ t, l.failedAt = some t → l.enable = true → l.state = .down → t.toNat + 1000000000 ≤ s.time.toNat → exec (.trainingRetryTimer n) s
    = .next (s.setLink n { l with failedAt := none, wantFull := true, state := .trainFull, attempts := 0, identified := false }))
  ∧ (∀ lanes, l.state = .up → ∃ s', exec (.linkRetrainTrigger n lanes) s = .next s' ∧ s'.link n = { l with
      lanes := lanes % 16, state := .retrain, attempts := 0, leftUp := some s.time, lost := false, nakCount := 0, identified := false
      retraining := true, retrains := sat32 l.retrains 1 })
  ∧ (l.state = .up → ∃ s', exec (.retrain n) s = .next s' ∧ s'.link n = { l with
      barred := false, state := .retrain, attempts := 0, leftUp := some s.time, lost := false, nakCount := 0, identified := false
      retraining := true, retrains := sat32 l.retrains 1 })
  ∧ (l.state ≠ .up → exec (.retrain n) s = .next (s.setLink n { l with barred := false }))
  ∧ (∀ t loops, l.leftUp = some t → l.state ≠ .up → l.lost = false → t.toNat + s.lossMs * 100000 ≤ s.time.toNat →
    (l.responder = true → loops = true → exec (.linkLossTimeout ⟨n, loops⟩) s = .next s)
    ∧ (l.responder = false ∨ loops = false → ∃ s', exec (.linkLossTimeout ⟨n, loops⟩) s = .next s' ∧ (s'.link n).lost = true
      ∧ (s'.link n).replay = [] ∧ (s'.link n).sticky.getLsbD 1 = true
      ∧ ∀ m p, s.farMember n = some m → p < 12 → (s.part p).exist = true → (s.part p).gang.formed = true →
        (s.part p).gang.present.getLsbD m = true →
        (if (s.part p).isLead = false ∧ (s.part p).gang.lead = m ∧ (s.part p).faulted = false ∧ (s.runningControl p).isSome = true then
          (s'.part p).pend = (s.part p).pend ∧ (s'.part p).gang.leadLost = true
            ∧ ∃ e, (s'.part p).lostFault = some e ∧ ((s.part p).lostFault = none → e.code = 0x12)
        else ∃ e, (s'.part p).pend = (s.part p).pend ++ [e] ∧ e.code = 0x12)))
  ∧ (l.enable = true → l.found = true → l.state = .up → ∃ s', exec (.fullTrain n) s = .next s'
    ∧ s' = { s with links := s'.links, sscForce := s'.sscForce } ∧ s'.link n = { l with
      cache := none, wantFull := true, barred := false, state := .trainFull, attempts := 0, identified := false, retraining := false
      leftUp := some s.time })
  ∧ (l.state = .down → ∃ s', exec (.fullTrain n) s = .next s' ∧ s' = { s with links := s'.links, sscForce := s'.sscForce }
    ∧ s'.link n = { l with cache := none, wantFull := true, barred := false })
  ∧ (∀ bits errors answers, l.enable = false → l.loopback ≠ 0 →
    (farEnd l.loopback = false ∨ answers = true → exec (.loopback n bits ⟨errors, answers⟩) s = .next (s.setLink n { l with
      state := .loopback, lbErr := sat32 l.lbErr errors, lbBits := BitVec.ofNat 64 (min (2 ^ 64 - 1) (l.lbBits.toNat + bits))
      sticky := if errors = 0 then l.sticky else l.sticky ||| 8 }))
    ∧ (farEnd l.loopback = true → answers = false → exec (.loopback n bits ⟨errors, answers⟩) s = .next s))
  ∧ (∀ b fixed bad ask, l.state ≠ .up → let m := { l with fecCorr := sat32 l.fecCorr fixed, fecUncorr := sat32 l.fecUncorr bad }
    (∀ f, bad = 0 → Flit.ofBytes b = some f → l.enable = true → l.responder = true →
      exec (.dataFlitReceive n b fixed bad ask) s = .next ((s.setLink n m).send (.flit n f)))
    ∧ (bad ≠ 0 ∨ Flit.ofBytes b = none →
      exec (.dataFlitReceive n b fixed bad ask) s = .next (s.setLink n { m with crcErr := sat32 l.crcErr 1 })))

/-- The flit layer of an UP link (R285 to R290, R293, R296, R298, R324, R385): 256 bytes that are no good flit are a CRC failure, and a NAK
is sent; a good flit's ACK and credits apply; a DATA flit out of order is answered and dropped, in silence while a NAK's resend is awaited;
one in order is accepted, held for the next epoch, or stale, and its credit goes back unless its buffer stays in use; the last flit of a
mirrored write stores; NAK, RESUME and the replay timeout resend the replay buffer; credits and SLACK follow their rules. After each the
link sends what it may. That each CRC failure is NAKed is the model's reading (DEDUCED, log 189). -/
def FlitLayerRule : Prop :=
  ∀ (n : Nat) (s : State), s.Canonical → let l := s.link n
  l.state = .up →
  (∀ b fixed bad ask, let m := { l with fecCorr := sat32 l.fecCorr fixed, fecUncorr := sat32 l.fecUncorr bad }
    (bad ≠ 0 ∨ Flit.ofBytes b = none → ∃ s', exec (.dataFlitReceive n b fixed bad ask) s = .next s'
      ∧ s'.link n = { m with crcErr := sat32 l.crcErr 1, nakSent := true }
      ∧ s'.out = .flit n (m.ctl (leBytes 1 1 ++ leBytes 2 l.expectSeq.toNat)) :: s.out)
    ∧ ∀ f, bad = 0 → Flit.ofBytes b = some f →
      let h := m.header f.ack f.ccount f.cvc
      let v := h.vcOf f.vc
      let next := { h with expectSeq := l.expectSeq + 1, nakSent := false, rxFlits := BitVec.ofNat 64 (min (2 ^ 64 - 1) (l.rxFlits.toNat + 1)) }
      let taken := { next with vcs := mmod VcState.zero h.vcs f.vc fun v =>
        { v.take f s.time with busy := if f.vc ≤ 1 then v.busy + 1 else v.busy } }
      let gives (k : Link) (answer : Flit) : Prop := ∃ s1 : State, exec (.dataFlitReceive n b fixed bad ask) s = .next (s1.pump n)
        ∧ s1 = { s with links := s1.links, out := .flit n answer :: s.out } ∧ s1.link n = k
      let asks : Prop := f.last = true ∧ ((f.vc = 3 ∧ ∃ a, ask = some (.lend a)) ∨ (f.vc = 6 ∧ ∃ a bs, ask = some (.write a bs)))
      (f.type = 0 → exec (.dataFlitReceive n b fixed bad ask) s = .next ((s.setLink n h).pump n))
      ∧ (f.type = 1 → f.seq ≠ l.expectSeq → l.nakSent = true → exec (.dataFlitReceive n b fixed bad ask) s = .next ((s.setLink n h).pump n))
      ∧ (f.type = 1 → (f.seq ≠ l.expectSeq ∧ l.nakSent = false ∨ f.seq = l.expectSeq ∧ vcBuffer f.vc ≤ v.busy + v.held.length) →
        gives h (h.idleFlit 0 0))
      ∧ (f.type = 1 → f.seq = l.expectSeq → v.busy + v.held.length < vcBuffer f.vc →
        ((f.vc = 3 ∨ f.vc = 4 ∨ f.vc = 5) → ¬ asks → gives taken (next.idleFlit 1 f.vc))
        ∧ (∀ p, (f.vc = 0 ∨ f.vc = 1 ∨ f.vc = 2 ∨ f.vc = 6) → s.linkPart n = some p → (s.part p).deaf = false →
          let e := (s.part p).caps.epoch
          (f.epoch = e → ¬ asks → gives taken (next.idleFlit (if f.vc ≤ 1 then 0 else 1) f.vc))
          ∧ (∀ a bs, f.epoch = e → f.vc = 6 → f.last = true → ask = some (.write a bs) → a + bs.length ≤ (s.part p).hbmSize →
            ∃ s1 : State, exec (.dataFlitReceive n b fixed bad ask) s = .next (s1.pump n) ∧ s1.link n = taken
              ∧ s1.hbm = (s.hbmWrite p a bs).hbm)
          ∧ (f.epoch = e + 1 → gives { next with vcs := mmod VcState.zero h.vcs f.vc fun v =>
              { v with held := v.held ++ [f], lastFlit := s.time, slack := false } } (next.idleFlit 0 f.vc))
          ∧ (f.epoch ≠ e → f.epoch ≠ e + 1 → gives { next with stale := sat32 l.stale 1 } (next.idleFlit 1 f.vc)))))
  ∧ (∀ ack ccount cvc, exec (.idleFlitReceive n ack ccount cvc) s = .next ((s.setLink n { l with
      replay := l.replay.filter fun (f : Flit × W64) => !(seqLe f.1.seq ack)
      outMsgs := l.outMsgs.filter fun m => !(decide (m.sent = m.flits) && seqLe m.lastSeq ack)
      vcs := if ccount % 256 = 0 then l.vcs
        else mmod VcState.zero l.vcs (cvc % 8) fun v => { v with credits := v.credits + ccount % 256 } }).pump n))
  ∧ (∀ seq ack ccount cvc, let h := (l.header ack (ccount % 256) (cvc % 8)).header (seq - 1) 0 0
    let c := if l.nakCount ≠ 0 ∧ seq = l.nakSeq then l.nakCount + 1 else 1
    let kept (s' : State) : Prop := (s'.link n).replay.map (·.1) = h.replay.map (·.1)
    let again := ((h.replay.filter fun (f : Flit × W64) => seqLe seq f.1.seq).map fun (f : Flit × W64) => Msg.flit n f.1).reverse ++ s.out
    (c < 8 → ∃ s', exec (.nak n ⟨seq, ack, ccount, cvc⟩) s = .next s' ∧ (s'.link n).nakCount = c ∧ (s'.link n).nakSeq = seq ∧ kept s' ∧ s'.out = again)
    ∧ (8 ≤ c → ∃ s', exec (.nak n ⟨seq, ack, ccount, cvc⟩) s = .next s' ∧ (s'.link n).state = .retrain ∧ (s'.link n).replay = h.replay)
    ∧ ∃ s1 : State, exec (.resume n ⟨seq, ack, ccount, cvc⟩) s = .next (s1.pump n) ∧ kept s1 ∧ (s1.link n).nakCount = 0 ∧ s1.out = again)
  ∧ (∀ f rest, l.replay = f :: rest →
    (f.2.toNat + 2000 ≤ s.time.toNat → ∃ s', exec (.replayTimeout n) s = .next s' ∧ (s'.link n).replay.map (·.1) = l.replay.map (·.1)
      ∧ s'.out = ((l.replay.filter fun (g : Flit × W64) => seqLe f.1.seq g.1.seq).map fun (g : Flit × W64) => Msg.flit n g.1).reverse ++ s.out)
    ∧ (s.time.toNat < f.2.toNat + 2000 → exec (.replayTimeout n) s = .next s))
  ∧ (∀ counts ack v, v < 8 → ∃ s1 : State, exec (.creditInit n ⟨counts, ack⟩) s = .next (s1.pump n) ∧ s1 = { s with links := s1.links }
    ∧ (mwf VcState.zero l.vcs = true → ((s1.link n).vcOf v).credits = counts.getD v 0 % 65536
      - (l.replay.filter fun (f : Flit × W64) => !(seqLe f.1.seq ack) && decide (f.1.vc = v)).length))
  ∧ (∀ vc v, v = mget VcState.zero l.vcs vc → v.opened = true → v.slack = false → v.lastFlit.toNat + 200 ≤ s.time.toNat →
    exec (.slack n vc) s = .next (s.setLink n { l with
      slackCnt := sat32 l.slackCnt 1, vcs := mset VcState.zero l.vcs vc { v with slack := true } }))

/-- Relaying (R278, R289, R367): a relayed message frees its receive buffers; from a gang link, torus traffic for a member whose place the
spare has taken crosses the bundle to it, and at that gang it is delivered on port 0; a VC3 message of a warp goes on along its axis, or,
where the place of the next position on it is the spare's, by way of the relaying members. -/
def RelayRule : Prop :=
  ∀ (n vc dest m : Nat) (epoch : W32) (data : List Byte) (s : State),
  let t := if vc ≤ 1 then s.freeBuffers n vc (max 1 ((data.length + 239) / 240)) else s
  let onTo (m : Nat) : Prop := exec (.relayForward n vc dest ⟨epoch, data⟩) s = .next ((t.send (.relay [m] vc dest data)).transmit m vc epoch 0 data)
  (∀ role, t.relayed.contains dest = true → (linkRole n).1 = 0 → t.nextTo dest = some role → t.routeOver (bundle role) 0 = some m → onTo m)
  ∧ (t.relayed.contains dest = true → (linkRole n).1 ≠ 0 → t.spareHolds = some (dest % 256) → t.routeOver [0] 0 = some m → onTo m)
  ∧ (vc = 3 → dest ≠ s.shardId → s.relayed.contains dest = false → (linkRole n).1 = 1 →
    (s.relayed.contains (s.neighbour 2) = false → s.routeOver (bundle 2) 0 = some m → onTo m)
    ∧ (∀ p, s.relayed.contains (s.neighbour 2) = true → s.linkPart n = some p →
      exec (.relayForward n vc dest ⟨epoch, data⟩) s = .next (s.sendTorus p 2 3 epoch 0 data)))

/-- LinkTrainingRule, FlitLayerRule and RelayRule together. -/
def Obligations.Links : Prop := LinkTrainingRule ∧ FlitLayerRule ∧ RelayRule

/-! ### Elastic operation (R360 to R387) -/

/-- A switch of variant (R262, R263, R360 to R363, R366, R369 to R376): SET_VARIANT refuses with its reason or musters, its DEADLINE counting
from receipt; a CANCEL, a late muster or the deadline ends it, and a switch that waited for it is then made; with a muster the Tack core may
start a warp; precopy passes follow until few granules are dirty; at the boundary the clean half moves and the stays that change are empty; a
cut step is discarded without a change to L; segments are verified, asked for again, or end it; the switch waits for the stays, and then
adopts the variant its target resolves to with the next epoch, is refused, or leaves the job by a reset. -/
def VariantSwitchRule : Prop :=
  ∀ (p : Nat) (s : State), let x := s.part p
  x.exist = true →
  let ends (c : Instr) (r : Reshape) (reason : Nat) : Prop := ∃ s1 : State, exec c s = .next (s1.serveSwitch p) ∧ (s1.part p).ela.run = none
    ∧ (s1.part p).variant = x.variant ∧ (s1.part p).ela.last = elaLast 0x52 reason r.reason r.from' r.target (r.pauseUs s.time)
  let carried (l : List (Move × Nat)) : Prop := ∀ m ∈ l, m.1.route ≠ 0
  (∀ key c t d, d = c.begun 4 s.time → t = s.begun p key 4 → s.startable p key 4 c →
    (∀ r, c.arg 1 1 % 16 ≠ 15 → t.setCheck p (c.arg 0 1) (c.arg 1 1 % 16) = .refuse r → ∃ t' : State, exec (.setVariant p key) s
      = .next (t'.completed p d 0x52 (BitVec.ofNat 32 r) (BitVec.ofNat 64 (BitVec.ofNat 32 (c.arg 8 4)).toNat))
      ∧ t' = { s with parts := t'.parts } ∧ (t'.part p).ela.run = x.ela.run ∧ (t'.part p).variant = x.variant
      ∧ (t'.part p).ela.lastReason = c.arg 1 1 % 16)
    ∧ (∀ i plan leaving, c.arg 1 1 % 16 ≠ 15 → t.setCheck p (c.arg 0 1) (c.arg 1 1 % 16) = .go i plan leaving →
      ∃ s' r, exec (.setVariant p key) s = .next s' ∧ (s'.part p).ela.run = some r ∧ r.phase = 1 ∧ r.reason = c.arg 1 1 % 16 ∧ r.target = i
        ∧ r.plan = plan ∧ r.cmd = some key ∧ r.id = BitVec.ofNat 32 (c.arg 8 4) ∧ r.startedAt = s.time ∧ (s'.part p).variant = x.variant
        ∧ r.deadline = (if c.deadlineSecs = 0 then none else some (c.received + BitVec.ofNat 64 (c.deadlineSecs * 100000000)))
        ∧ (s'.part p).ela.ctrlNow = x.ela.ctrl)
    ∧ (∀ r, c.arg 1 1 % 16 = 15 → x.ela.run = some r → r.id.toNat = c.arg 8 4 → r.phase ≠ 8 →
      ∃ s1 : State, exec (.setVariantCancel p key) s = .next ((s1.serveSwitch p).finish p key 0 0 0) ∧ (s1.part p).ela.run = none
        ∧ (s1.part p).variant = x.variant ∧ (s1.part p).ela.last = elaLast 0x52 0xA r.reason r.from' r.target (r.pauseUs s.time)))
  ∧ (∀ h k i, x.ela.run = none → x.image.isSome = true → x.sound = true → (x.cur.isSome = true ∨ x.ela.armed = true) → s.hbmPoison = [] →
    s.hbmErr = [] → ∃ s' r, exec (.musterComplete p ⟨h, some (k, i)⟩) s = .next s' ∧ (s'.part p).ela.run = some r ∧ r.reason = 3 ∧ r.member = k
      ∧ r.target = i ∧ r.leaving = (!x.ela.armed && decide (s.member = k)) ∧ r.phase ≠ 1
      ∧ (s'.part p).ela.warpEpoch = BitVec.ofNat 32 (max h.toNat x.ela.warpEpoch.toNat + 1))
  ∧ (∀ r, x.ela.run = some r →
    (r.phase = 1 → r.startedAt.toNat + 200000000 ≤ s.time.toNat → ends (.musterTimeout p) r 4)
    ∧ (∀ d, r.deadline = some d → d.toNat ≤ s.time.toNat → ends (.reshapeDeadline p) r 5)
    ∧ (s.hbmPoison = [] → s.hbmErr = [] →
      (∀ m : Muster, r.phase = 1 → carried ((s.mySources p).filter fun m => m.1.precopy) →
        ∃ s' r', exec (.musterComplete p m) s = .next s' ∧ (s'.part p).ela.run = some r'
        ∧ (s'.part p).ela.warpEpoch = BitVec.ofNat 32 (max m.highest.toNat x.ela.warpEpoch.toNat + 1)
        ∧ r'.phase = (if (x.movesOf r).any (·.precopy) then 2 else 3)
        ∧ r'.segmentsLeft = (((x.movesOf r).filter fun m => s.isDest x r m).map fun m => segCount m.length).sum)
      ∧ (r.phase = 2 → carried ((s.mySources p).filter fun m => m.1.precopy) → let n := (s.copyPass p).2
        ∃ s' r', exec (.precopyPass p) s = .next s' ∧ (s'.part p).ela.run = some r' ∧ r'.passes = r.passes + 1
          ∧ r'.phase = (if n ≤ 512 ∨ 8 ≤ r.passes + 1 then 3 else 2))
      ∧ (r.phase = 3 → x.stepOpen = false → x.stepResult = none → s.tilesInStep p = [] → x.ela.delta1 = false → x.ela.delta2 = false →
        x.faulted = false → carried (s.mySources p) →
        ∃ s' r', exec (.reshapeBoundary p) s = .next s' ∧ (s'.part p).ela.run = some r' ∧ r'.phase = 4
          ∧ r'.pauseAt = some s.time ∧ (s'.part p).mem.dirtyActive = false
          ∧ r'.stays = some (x.ela.stay1, x.ela.stay2, x.ela.held)
          ∧ (s'.part p).ela.stay1 = (if s.stayMoves p false then .empty else x.ela.stay1)
          ∧ (s'.part p).ela.stay2 = (if s.stayMoves p true then .empty else x.ela.stay2)))
    ∧ (∀ d, r.cutAt = some d → d.toNat ≤ s.time.toNat → x.stepOpen = true → x.sound = true → s.tilesInStep p ≠ [] → x.caps.held = [] →
      ∃ s' r', exec (.cutStep p) s = .next s' ∧ (s'.part p).ela.run = some r' ∧ r'.cutAt = none ∧ (s'.part p).stepOpen = false
        ∧ (s'.part p).stepResult = some 0x44 ∧ (s'.part p).num.lossL = x.num.lossL ∧ (s'.part p).num.step = x.num.step
        ∧ (s'.part p).half = x.half ∧ (s'.part p).caps.epoch = x.caps.epoch + 1)
    ∧ (∀ l src move seg v m check bytes, x.resetting = none → x.goal = some v → (x.movesOf r)[move]? = some m → m.kind ≠ 1 →
      s.isDest x r m = true → let g := segOf r.segments move seg
      g.got = 0 → g.done = false → bytes.length = min segSize (m.length - seg * segSize) →
      let t := s.scatter p (m.destRanges v) (seg * segSize) bytes
      let c := Instr.segmentReceive p l src move seg 0 x.ela.warpEpoch .warp true check bytes
      let sound := decide (check = crc32 (t.gather (t.part p) (m.destRanges v) (seg * segSize) bytes.length))
      (sound = true → ∃ s' r', exec c s = .next s' ∧ s'.hbm = t.hbm ∧ (s'.part p).ela.run = some r' ∧ r'.segmentsLeft = r.segmentsLeft - 1
        ∧ (segOf r'.segments move seg).done = true)
      ∧ (sound = false → g.resends < 3 → ∃ s' r', exec c s = .next s'
        ∧ .segment p src move seg 0 x.ela.warpEpoch .resendWarp false 0 [] ∈ s'.out ∧ (s'.part p).ela.run = some r'
        ∧ r'.segmentsLeft = r.segmentsLeft ∧ segOf r'.segments move seg = ⟨move, seg, [], 0, none, g.resends + 1, false⟩)
      ∧ (sound = false → 3 ≤ g.resends → ends c r 6))
    ∧ (r.phase = 4 ∨ r.phase = 5 → r.segmentsLeft = 0 → r.verified = false → exec (.destinationVerified p) s
      = .next ((s.modPart p fun y => { y with ela := { y.ela with run := some { r with phase := 5, verified := true } } }).vc5 p "verified"))
    ∧ (∀ im (m : SwitchEnd), x.image = some im → r.pauseAt.isSome = true → r.phase ≠ 8 → (r.verified = true ∨ r.segmentsLeft = 0) →
      x.faulted = false →
      let i := ((x.landed r m).switchTarget im r).1
      let frm := if x.cur.isNone then m.frm else r.from'
      let noninv := (im.at' frm).any fun v => im.noninv v i && decide (frm ≠ i)
      (s.staysFilled p r = false → exec (.reshapeSwitch p m) s = .next s)
      ∧ (s.staysFilled p r = true →
        (r.leaving = false → im.available i = false → ends (.reshapeSwitch p m) r 1)
        ∧ (r.leaving = false → im.available i = true → noninv = true → x.ela.ctrlNow.getLsbD 27 = true → ends (.reshapeSwitch p m) r 9)
        ∧ (r.leaving = false → im.available i = true → (noninv && x.ela.ctrlNow.getLsbD 27) = false → x.caps.held = [] →
          ∃ s', exec (.reshapeSwitch p m) s = .next s' ∧ (s'.part p).variant = some i ∧ (s'.part p).caps.epoch = m.epoch + 1
            ∧ (s'.part p).ela.run = none ∧ (s'.part p).colls = [] ∧ (s'.part p).half = (if x.cur.isNone then m.half else x.half)
            ∧ (s'.part p).ela.last = elaLast 0 0 r.reason frm i (r.pauseUs s.time)
            ∧ (∀ d, r.reason = 3 → x.ela.armed = true → m.place = some d → s'.spareAs = some r.member ∧ (s'.part p).ela.armed = false
              ∧ (s'.part p).gang.index = r.member ∧ (s'.part p).gang.unitId = d.unit))
        ∧ (r.leaving = true → s.victimOf p = none → x.resetting = none → ∃ s', exec (.reshapeSwitch p m) s = .next s'
          ∧ (s'.part p).image = none ∧ (s'.part p).resetting = some 2))))

/-- Stays and recovery (R351, R366, R376 to R384, R390, R392): fills and deltas go to the holder and end CURRENT, or BEHIND after a commit;
recovery starts on a FAULTED job with the coordinator's AUTO_RECOVER, completes a switch whose exchange was complete, settles after 50 ms,
gives each lost position a spare, a fallback shape, or an end that is recorded, resets and restores the waves, and re-forms the job with the
next epoch or goes to the fallback shape. -/
def StaysAndRecoveryRule : Prop :=
  ∀ (p : Nat) (s : State), let x := s.part p
  x.exist = true →
  (∀ second v h, s.holderOf v second = some h → x.faulted = false → x.ela.staySends second = false → s.hbmPoison = [] → s.hbmErr = [] →
    (x.newVariant = some v → (x.ela.stay second).state ≠ 2 → ∃ s', exec (.stayFill p second) s = .next s'
      ∧ s'.hbm = s.hbm ∧ s'.tiles = s.tiles ∧ ((s'.part p).ela.stay second).state = 1
      ∧ (if second then (s'.part p).ela.fill2 else (s'.part p).ela.fill1) = true)
    ∧ (x.cur = some v → x.ela.run = none → (x.ela.stay second).state = 4 → ∃ s', exec (.stayDeltaStart p second) s = .next s'
      ∧ s'.hbm = s.hbm ∧ s'.tiles = s.tiles ∧ ((s'.part p).ela.stay second).state = 3
      ∧ (if second then (s'.part p).ela.delta2 else (s'.part p).ela.delta1) = true))
  ∧ (∀ second step, x.ela.staySends second = true →
    ∃ s', exec (.stayDeltaComplete p second step) s = .next s' ∧ s' = { s with parts := s'.parts }
      ∧ (s'.part p).ela.stay second = ⟨if step = x.committedStep then 2 else 4, step⟩ ∧ (s'.part p).ela.staySends second = false)
  ∧ (∀ told others, let ctrl := s.jobCtrl p told
    x.faulted = true → x.image.isSome = true → ctrl.getLsbD 31 = true → x.ela.run = none →
    (x.ela.stopped = none → ∃ s' r, exec (.recoveryStart ⟨p, told, others⟩) s = .next s' ∧ s' = { s with parts := s'.parts }
      ∧ (s'.part p).ela.run = some r ∧ r.phase = 8 ∧ r.verified = false ∧ r.startedAt = s.time ∧ (s'.part p).ela.lostPositions = []
      ∧ (s'.part p).ela.ctrlNow = ctrl ∧ (s'.part p).half = x.half)
    ∧ (∀ e, x.ela.stopped = some e → s.allRecords p others = true → ({ x with exch := e }.mergeOthers (others.map fun (k : Nat × ExchRec) => k.2)).2.isClean = true →
      ∃ s' r, exec (.recoveryStart ⟨p, told, others⟩) s = .next s' ∧ (s'.part p).ela.run = some r ∧ r.phase = 8 ∧ (s'.part p).half = !x.half
        ∧ (s'.part p).ela.stopped = none))
  ∧ (∀ wave (d : Restore) m, x.ela.run = none → x.ela.armed = true → coordSpare s.coord = true → d.member = some m →
    s.loadFault p d.image false true = none →
    ∃ s', exec (.recoveryWave p wave (some d)) s = .next s' ∧ s'.spareAs = some m.1 ∧ (s'.part p).image.isSome = true
      ∧ (s'.part p).half = d.selector ∧ (s'.part p).ela.armed = false ∧ (s'.part p).gang.index = m.1)
  ∧ (∀ r, x.ela.run = some r → r.phase = 8 →
    (r.verified = false → r.startedAt.toNat + 5000000 ≤ s.time.toNat → exec (.settleTimeout p) s
      = .next (s.modPart p fun y => { y with ela := { y.ela with run := some { r with verified := true } } }))
    ∧ (∀ wave, x.resetting = none → r.verified = true →
      (∀ im v, x.image = some im → x.cur = some v →
        (s.inWaveA v = decide (wave = 1) → ∃ s', exec (.recoveryWave p wave none) s = .next s'
          ∧ (s'.part p).resetting = some 4 ∧ (s'.part p).ela.wave = wave)
        ∧ (s.inWaveA v ≠ decide (wave = 1) → exec (.recoveryWave p wave none) s
          = .next ((s.modPart p fun y => { y with ela := { y.ela with wave := wave } }).sendWave p v)))
      ∧ (∀ d : Restore, x.image = none → s.loadFault p d.image false false = none → ∃ s', exec (.recoveryWave p wave (some d)) s = .next s'
        ∧ (s'.part p).image = some (s.imageOf p d.image false false) ∧ (s'.part p).ela.wave = wave ∧ (s'.part p).half = d.selector
        ∧ (s'.part p).ela.run = some r))
    ∧ (∀ m : Reform, x.faulted = false → x.image.isSome = true → x.resetting = none →
      (r.plan = none → x.caps.held = [] → ∃ s', exec (.recoveryReform p m) s = .next s'
        ∧ (s'.part p).ela.run = none ∧ (s'.part p).caps.epoch = m.epoch + 1 ∧ (s'.part p).ela.events.getLsbD 2 = true ∧ (s'.part p).colls = []
        ∧ (s'.part p).ela.last = elaLast 0 0 6 r.from' r.target (r.pauseUs s.time)
        ∧ (x.ela.spares ≠ [] → (s'.part p).ela.events.getLsbD 3 = true) ∧ ∀ id ∈ x.ela.spares, id ∈ s'.relayed)
      ∧ (r.plan.isSome = true → (∀ m ∈ x.movesOf r, m.route ≠ 0) → s.hbmPoison = [] → s.hbmErr = [] →
        ∃ s' r', exec (.recoveryReform p m) s = .next s' ∧ (s'.part p).ela.run = some r' ∧ r'.phase = 4 ∧ r'.target = r.target
          ∧ (s'.part p).ela.warpEpoch = x.ela.warpEpoch + 1)))

/-- Lost positions in recovery (R361, R382 to R384, R390, R399), of which a position is one only after 100 ms of silence on VC5: with a
source, the first CURRENT stay or, where Z is not sharded, a replica, it goes to the gang's spare, by AUTO_SPARE, or to a fallback shape, by
FALLBACK_EN; without one the recovery ends STAY_STALE or SHARD_LOST, and with neither way PEER_LOST; further lost shards are then still
recorded. -/
def LostPositionsRule : Prop :=
  ∀ (p id : Nat) (spare : Bool) (replica : Option Nat) (loss : PositionLoss) (im : Image) (v : Variant) (s : State), let x := s.part p
  x.exist = true → x.image = some im → x.cur = some v →
  let c := Instr.positionLost p id spare replica loss
  let lost := if x.ela.lostPositions.contains id then x.ela.lostPositions else x.ela.lostPositions ++ [id]
  let source := ((loss.stays.find? fun y => decide (y.2.1 = 2)).map (·.1)).orElse fun _ => if v.flags % 2 = 1 then none else replica
  let behind := loss.stays.find? fun y => decide (y.2.1 = 3) || decide (y.2.1 = 4)
  let useSpare := x.ela.ctrlNow.getLsbD 30 && spare
  let gone (s' : State) : Prop := (s'.part p).ela.events.getLsbD (if behind.isSome then 4 else 5) = true
    ∧ (s'.part p).ela.lost = elaLost x.ela.lost behind.isSome id x.num.step ∧ ∀ y, behind = some y → (s'.part p).ela.staleStep = y.2.2
  (∀ t, loss.silentSince = some t → s.time.toNat < t.toNat + 10000000 → exec c s = .next s)
  ∧ ((∀ t, loss.silentSince = some t → t.toNat + 10000000 ≤ s.time.toNat) →
    (∀ r, x.ela.run = some r → r.phase = 8 →
      let ends (s' : State) (outcome : Nat) : Prop := (s'.part p).ela.run = none ∧ (s'.part p).faulted = x.faulted
        ∧ (s'.part p).ela.last = elaLast outcome 0 6 r.from' r.target (r.pauseUs s.time)
      (∀ h, source = some h → useSpare = true → ∃ s1 : State, exec c s = .next (s1.bringIn p id (decide (h = s.shardId)))
        ∧ id ∈ s1.relayed ∧ (s1.part p).ela.lostPositions = lost ∧ (s1.part p).ela.spares = (x.ela.spares ++ [id]).eraseDups
        ∧ (s1.part p).ela.run = some r)
      ∧ (∀ t, source.isSome = true → useSpare = false → x.ela.ctrlNow.getLsbD 29 = true → x.fallback im v lost = some t →
        ∃ s', exec c s = .next s' ∧ s' = { s with parts := s'.parts } ∧ (s'.part p).ela.run = some { r with target := t.1, plan := some t.2 }
          ∧ (s'.part p).ela.lostPositions = lost)
      ∧ (source = none → (useSpare = true ∨ x.ela.ctrlNow.getLsbD 29 = true ∧ (x.fallback im v lost).isSome = true) →
        ∃ s', exec c s = .next s' ∧ gone s' ∧ ends s' (if behind.isSome then 0x51 else 0x50) ∧ (s'.part p).ela.shardLost = true)
      ∧ (useSpare = false → (x.ela.ctrlNow.getLsbD 29 = false ∨ x.fallback im v lost = none) →
        ∃ s', exec c s = .next s' ∧ ends s' 0x12))
    ∧ (x.ela.run = none → x.faulted = true → x.ela.shardLost = true → source = none → ∃ s', exec c s = .next s' ∧ gone s'
      ∧ (s'.part p).ela.run = none ∧ (s'.part p).ela.last = x.ela.last))

/-- Backup execution (R385 to R387, R397): a unit whose stations run past FACTOR ÷ 16 of its median duration starts its backup set once in the
step, by VC6, if the backup position's copy is CURRENT, and else is counted once; the first set to finish ends the unit: its duration is
kept, the done counter rises, and the other set is withdrawn. -/
def BackupRule : Prop :=
  ∀ (p i : Nat) (v : Variant) (u : BackupUnit) (s : State), let x := s.part p
  let y := mget BackupRec.zero x.ela.units i
  s.Canonical → x.exist = true → x.cur = some v → x.backupUnits[i]? = some u → x.stepOpen = true → y.time = none →
  (x.sound = true → x.ela.ctrlNow.getLsbD 26 = true → x.ela.backup.toNat % 256 ≤ y.durations.length → y.run = false → y.refused = false →
    x.ela.backup.toNat / 256 % 256 * lowerMedian y.durations < 16 * (s.time - x.stepStart).toNat →
    ((s.copyAt p v u.position).state = 2 → ∃ s1 : State, exec (.backupTrigger ⟨p, i, false⟩) s = .next (s1.vc6 p "start")
      ∧ s1 = { s with parts := s1.parts } ∧ mget BackupRec.zero (s1.part p).ela.units i = { y with run := true }
      ∧ (s1.part p).ela.started = sat16 x.ela.started 1)
    ∧ ((s.copyAt p v u.position).state ≠ 2 → ∃ s', exec (.backupTrigger ⟨p, i, false⟩) s = .next s' ∧ s' = { s with parts := s'.parts }
      ∧ mget BackupRec.zero (s'.part p).ela.units i = { y with refused := true }
      ∧ (s'.part p).ela.notStarted = BitVec.ofNat 8 (min 255 (x.ela.notStarted.toNat + 1))))
  ∧ (y.run = true ∨ y.refused = true → exec (.backupTrigger ⟨p, i, false⟩) s = .next s)
  ∧ (∀ byBackup, (if byBackup then y.run else s.stationsDone p v u) = true → ∃ s', exec (.backupDone p ⟨i, byBackup, false⟩) s = .next s'
    ∧ mget BackupRec.zero (s'.part p).ela.units i = { y with time := some (s.time - x.stepStart) }
    ∧ (s'.part p).ela.backupWon = (if byBackup then BitVec.ofNat 8 (min 255 (x.ela.backupWon.toNat + 1)) else x.ela.backupWon)
    ∧ (y.run = true → byBackup = false → .vc6 p x.caps.epoch "withdraw" ∈ s'.out)
    ∧ ∀ t, x.physOf u.done.1 = some t → (byBackup = false ∨ x.physOf u.withdraw.1 ≠ some t) → s'.tile t = (s.tile t).addCounter u.done.2 1)

/-- VariantSwitchRule, StaysAndRecoveryRule, LostPositionsRule and BackupRule together. -/
def Obligations.SwitchesAndStays : Prop := VariantSwitchRule ∧ StaysAndRecoveryRule ∧ LostPositionsRule ∧ BackupRule

/-! ### Queues, commands and gang units (R33, R34, R401, R405, R411 to R419, R423, R431 to R436, R446) -/

/-- Doorbells, queue configuration and posting (R401, R411, R414): a tail doorbell moves the tail or sets ERROR; a head doorbell frees the
entries read; enabling resets the pointers; a completion is written with its phase, and interrupts unless masked. -/
def Obligations.Queues : Prop :=
  ∀ (p q : Nat) (s : State), let x := s.part p
  let sq := x.sq q
  let cq := x.cq q
  x.exist = true → q < 16 →
  (∀ d : W32, x.d3hot = false → s.tackUp = true →
    let set (v : SubQ) : Out := .next (s.modPart p fun y => y.setSq q v)
    (sq.error = 0 → sq.enable = true → d.toNat % 65536 < 2 ^ sq.log2 →
      exec (.sqTailDoorbell p q d) s = set { sq with tail := d.toNat % 65536 })
    ∧ (sq.error = 0 → sq.enable = true → 2 ^ sq.log2 ≤ d.toNat % 65536 → exec (.sqTailDoorbell p q d) s = set { sq with error := 1 })
    ∧ (sq.error = 0 → sq.enable = false → exec (.sqTailDoorbell p q d) s = set { sq with error := 2 }))
  ∧ (∀ d : W32, x.d3hot = false → cq.held = [] → cq.error = 0 → cq.enable = true → d.toNat % 65536 < 2 ^ cq.log2 → cq.head < 2 ^ cq.log2 →
    let h := d.toNat % 65536
    let n := (h + 2 ^ cq.log2 - cq.head) % 2 ^ cq.log2
    (n ≠ 0 → n ≤ cq.used → exec (.cqHeadDoorbell p q d) s = .next (s.modPart p fun y => y.setCq q { cq with head := h, used := cq.used - n }))
    ∧ (cq.used < n → exec (.cqHeadDoorbell p q d) s
      = .next ((s.modPart p fun y => y.setCq q { cq with error := 2 }).send (.msix (x.function p) 16))))
  ∧ (∀ cfg : W32, cfg.getLsbD 31 = true → 4 ≤ cfg.toNat % 16 → cfg.toNat % 16 ≤ 12 →
    (sq.enable = false → exec (.queueEnable p q false cfg) s = .next (s.modPart p fun y => y.setSq q { sq with
      enable := true, cq := cfg.toNat / 65536 % 16, log2 := cfg.toNat % 16, head := 0, tail := 0, csn := 0, error := 0 }))
    ∧ (cq.enable = false → cq.held = [] → exec (.queueEnable p q true cfg) s = .next (s.modPart p fun y => y.setCq q { cq with
      enable := true, irqEn := cfg.getLsbD 30, log2 := cfg.toNat % 16, tail := 0, phase := true, head := 0, used := 0, error := 0 })))
  ∧ (∀ e, cq.held = [] → s.dlUp = true → cq.enable = true → cq.used < 2 ^ cq.log2 → ∃ s' msgs, s.post p q e = s'
    ∧ (s'.part p).cq q = { cq with
      tail := (cq.tail + 1) % 2 ^ cq.log2, used := cq.used + 1, phase := if cq.tail + 1 = 2 ^ cq.log2 then !cq.phase else cq.phase }
    ∧ s'.out = msgs ++ .hostWrite (cq.base.toNat + 32 * cq.tail) (completionBytes e cq.phase (x.sq e.sq).head) false false :: s.out
    ∧ msgs = if cq.irqEn ∧ e.noIrq = false then [.msix (x.function p) q] else [])
  ∧ (x.d3hot = false → exec (.functionPowerState p true) s = .next (s.setPart p { x with d3hot := true }))
  ∧ (x.d3hot = true → x.heldBells = [] → exec (.functionPowerState p false) s = .next (s.setPart p { x with d3hot := false }))
  ∧ (p < 12 → x.isDevice = false → x.resetting = none → ∃ s', exec (.flr (p + 1)) s = .next s' ∧ (s'.part p).resetting = some 1
    ∧ (s'.part p).tenancy = 0)

/-- Taking and starting commands (R33, R257, R412, R413, R415, R416, R421, R422, R537): dispatch moves the head and takes in a well-formed
command, or completes a malformed one ILLEGAL_INSTR; a host DMA whose engine is full stays in its queue; UNLOAD, RUN_STEPS, FENCE, SET_TIME,
OPEN_TENANCY, CLOSE_TENANCY, QUERY, LOAD_TRAVERSE and host DMA start with their effect, what LOAD_TRAVERSE read is checked and installed; an
expired command completes CMD_TIMEOUT, and its reads end; an expired SET_VARIANT ends its reshape with DEADLINE. -/
def HostCommandsRule : Prop :=
  ∀ (p : Nat) (s : State), let x := s.part p
  (∀ b q, x.nextQueue = some q → x.exist = true → s.tackUp = true → s.dlUp = true → x.d3hot = false → x.resetting = none → x.destroy = none →
    x.hove.state ≠ 1 → x.cmds.length < 1024 → b.length = 64 → x.isLead = false →
    (s.engineFull p q b = true → exec (.commandTake p b) s = .next s) ∧ (s.engineFull p q b = false →
    let c := mkCmd x b q (x.sq q).csn .host s.time
    let t := (s.modPart p fun y => { y.setSq q { x.sq q with head := ((x.sq q).head + 1) % 2 ^ (x.sq q).log2, csn := (x.sq q).csn + 1 } with
      nextSq := (q + 1) % 16 }).modPart p fun y => { y with cmds := y.cmds ++ [c], nextKey := y.nextKey + 1 }
    (cmdOk b = true → takeRefusal x c = none → exec (.commandTake p b) s = .next t)
    ∧ (cmdOk b = false → (∀ d ∈ x.cmds, d.key ≠ x.nextKey) → exec (.commandTake p b) s = .next (t.completed p c 0x22 0 0))))
  ∧ (∀ key c t d, d = c.begun c.op s.time → t = s.begun p key c.op → x.exist = true → s.startable p key c.op c →
    (c.op = 2 → c.opflags % 2 = 0 → x.faulted = false → ∃ s', exec (.unload p key) s = .next s' ∧ (s'.part p).image = none
      ∧ (s'.part p).num.lossL = 16 ∧ (s'.part p).cmd key = none)
    ∧ (c.op = 3 → exec (.runSteps p key) s = .next t)
    ∧ (c.op = 0x20 → (∀ e ∈ x.cmds.takeWhile (fun e => decide (e.key ≠ key)), e.origin ≠ .admission → c.opflags % 2 = 0 ∧ e.sq ≠ c.sq) →
      exec (.fenceCommand p key) s = .next (t.completed p d 0 0 0))
    ∧ (c.op = 0x21 → exec (.setTime p key) s = .next ((t.setTime (BitVec.ofNat 64 (c.arg 0 8)) (BitVec.ofNat 32 (c.arg 8 4))).completed p d 0 0 0))
    ∧ (c.op = 0x30 → x.tenancy = 0 → s.decls.length < 32 →
      exec (.openTenancy p key) s = .next { t with decls := s.decls ++ [.opening p (BitVec.ofNat 64 (c.arg 0 8)) key] })
    ∧ (c.op = 0x31 → x.tenancy ≠ 0 → s.decls.length < 32 → exec (.closeTenancy p key) s
      = .next (State.completed { (t.modPart p fun y => { y with tenancy := 0 }) with decls := s.decls ++ [CadDecl.closing p 0] } p d 0 0 0))
    ∧ (∀ others r, c.op = 0x22 → t.queryRecord p c others = some r → r.length ≤ c.arg 16 4 → exec (.query p key others) s
      = .next ((t.hostSend (x.function p) (c.arg 8 8) r false).completed p d 0 (BitVec.ofNat 32 r.length) (BitVec.ofNat 64 r.length)))
    ∧ (c.op = 1 → exec (.loadTraverse p key .start) s = .next (t.startRead p (.cmd key) false [(c.arg 0 8, 0, c.arg 8 8)]))
    ∧ (∀ a : Crossed (List Nat), c.op = 0x10 ∨ c.op = 0x11 → let e := x.hostEngine c.sq
      let run : Instr := if c.op = 0x10 then .dmaH2d p key else .dmaD2h p ⟨key, a⟩
      s.engineHeld e < 64 →
      (x.hbmSize < c.arg 8 8 + c.arg 16 8 → exec run s = .next (t.completed p d 0x23 0 0))
      ∧ (c.arg 8 8 + c.arg 16 8 ≤ x.hbmSize → c.op = 0x11 → exec run s
        = .next (((t.engineTake e).countRetries a.crossings).modPart p fun y => y.modCmd key fun c => { c with
          engine := some e, crossed := if a.failed then a.poison.filter (fun j => decide (4 * j < c.arg 16 8)) else [] }))
      ∧ (c.arg 8 8 + c.arg 16 8 ≤ x.hbmSize → c.op = 0x10 →
        let u := (t.engineTake e).modPart p fun y => y.modCmd key fun c => { c with engine := some e, crossed := [] }
        exec run s = .next (u.startRead p (.cmd key) true [(c.arg 0 8, c.arg 8 8, c.arg 16 8)]))))
  ∧ (∀ key c, x.cmd key = some c → c.started = true → c.origin = .host → c.forwarded = false →
    (∀ img join spare lends, c.op = 1 → x.readDone (.cmd key) = true → img = x.readBytes (.cmd key) → join = decide (c.opflags % 2 = 1) →
      spare = decide (c.opflags / 2 % 2 = 1) → let u := s.endRead p (.cmd key)
      (∀ e, u.loadFault p img join spare = some e → exec (.loadTraverse p key (.finish lends)) s = .next (u.completed p c e.status e.d0 e.d1))
      ∧ (u.loadFault p img join spare = none → ∃ s', exec (.loadTraverse p key (.finish lends)) s = .next s' ∧ (s'.part p).image = some (u.imageOf p img join spare)
        ∧ (s'.part p).caps.epoch = 1 ∧ (s'.part p).num.lossL = 16 ∧ (s'.part p).num.growth = 0 ∧ (s'.part p).num.step = 0
        ∧ (s'.part p).num.calActive = true ∧ (s'.part p).lendSeen = lendMap lends))
    ∧ (∀ lends, c.op = 1 → x.readDone (.cmd key) = false → exec (.loadTraverse p key (.finish lends)) s = .next s)
    ∧ (s.tackUp = true → c.start.toNat + c.timeout ≤ s.time.toNat →
      (c.op ≠ 3 → (∀ r, x.ela.run = some r → r.cmd ≠ some key) →
        exec (.commandTimeout p key) s = .next ((s.holdSlots p (.cmd key)).completed p c 0x10 0 0))
      ∧ (∀ r, c.op = 4 → x.exist = true → x.ela.run = some r → r.cmd = some key → ∃ s', exec (.commandTimeout p key) s = .next s'
        ∧ (s'.part p).ela.run = none ∧ (s'.part p).ela.events.getLsbD 6 = true ∧ (s'.part p).cmd key = none)))

/-- Checkpoints (R423): WARP_OUT waits for the step boundary and writes header, numerics record and current half, each with its
checks; WARP_IN reads its buffer, refuses a checkpoint that fails them, and restores one that passes into the other half, which becomes
current. -/
def CheckpointsRule : Prop :=
  ∀ (p key : Nat) (s : State) (c d : Cmd) (t : State) (v : Variant), let x := s.part p
  x.cur = some v →
  (d = c.begun c.op s.time → t = s.begun p key c.op → x.exist = true → s.startable p key c.op c →
    (c.op = 5 → x.stepOpen = true → exec (.warpOut p key) s = .next t)
    ∧ (c.op = 5 → x.stepOpen = false → x.stepResult = none → s.tilesInStep p = [] → s.hbmPoison = [] → s.hbmErr = [] →
      let half := s.gather x (v.halfRanges x.half) 0 v.halfSize
      let num := x.num.recordBytes x.promotedLayers
      let b := s.checkpointHeader p num.length half.length ++ withChecks num ++ withChecks half
      b.length ≤ c.arg 8 8 → exec (.warpOut p key) s = .next ((t.hostSend (x.function p) (c.arg 0 8) b false).completed p d 0
        (BitVec.ofNat 32 b.length) (BitVec.ofNat 64 b.length)))
    ∧ (c.op = 6 → exec (.warpIn p key .start) s = .next (t.startRead p (.cmd key) false [(c.arg 0 8, 0, c.arg 8 8)])))
  ∧ (x.cmd key = some c → c.op = 6 → c.started = true → c.origin = .host → c.forwarded = false → x.readDone (.cmd key) = true →
    let data := x.readBytes (.cmd key)
    let u := s.endRead p (.cmd key)
    let n := rd data 0x18 8
    let m := rd data 0x20 8
    let num := (data.drop 64).take (n + 4 * segCount n)
    let half := (data.drop 64).drop (n + 4 * segCount n)
    let sound := rd data 0 4 = 0x504B4350 ∧ rd data 4 4 = x.caps.job.toNat ∧ rd data 8 4 = s.shardId
      ∧ rd data 0x28 4 = (crc32 (data.take 0x28)).toNat ∧ n = numericsBytes ∧ m = v.halfSize
    (¬sound → exec (.warpIn p key .finish) s = .next (u.completed p c 0x52 6 0))
    ∧ (sound → (checkedOut (segCount n) n num = none ∨ checkedOut (segCount m) m half = none) →
      exec (.warpIn p key .finish) s = .next (u.completed p c 0x52 6 0))
    ∧ (∀ a b, sound → checkedOut (segCount n) n num = some a → checkedOut (segCount m) m half = some b →
      ∃ s', exec (.warpIn p key .finish) s = .next s' ∧ (s'.part p).half = (!x.half) ∧ (s'.part p).num.calActive = false
        ∧ (s'.part p).num.step = (x.num.withRecord a).step ∧ (s'.part p).num.lossL = (x.num.withRecord a).lossL
        ∧ (s'.part p).ela.stay1 = .empty ∧ (s'.part p).ela.stay2 = .empty ∧ (s'.part p).ela.held = []))

/-- Gang units and hove-to (R33, R34, R37, R431 to R436): FORM invites, formation ends with the members that joined, of which the host
commands that wait are refused, DISSOLVE takes effect when all are EMPTY or FAULTED; a missed heartbeat enters hove-to and a beat leaves it; at
the end of its lease the partition is quiesced; a member takes forwarded commands and hove-to actions, and the lead merges the answers. -/
def Obligations.GangAndHeartbeat : Prop :=
  ∀ (p : Nat) (s : State), let x := s.part p
  let g := x.gang
  x.exist = true →
  (g.role = 1 → g.formed = false → g.forming = none → exec (.gangForm p) s
    = .next ((s.modPart p fun y => { y with gang := { y.gang with forming := some s.time } }).sendNamed p 5 ((List.range 8).map gangPortLink) "invite"))
  ∧ (∀ t joined, g.forming = some t → t.toNat + 1000000 ≤ s.time.toNat → exec (.gangFormationEnd p joined none) s
    = .next (s.modPart p fun y => { y with gang := { y.gang with
        formed := true, forming := none, index := coordX s.coord, lead := coordX s.coord, members := [], leadLost := false
        present := joined ||| BitVec.ofNat 8 (2 ^ coordX s.coord) } }))
  ∧ (∀ lead joined, g.role = 2 → g.formed = false → x.stateCode = 0 →
    let t := s.modPart p fun y => { y with gang := { y.gang with
      formed := true, index := coordX s.coord, lead := lead, leadLost := false, present := joined ||| BitVec.ofNat 8 (2 ^ coordX s.coord) } }
    let formed := Instr.gangFormationEnd p joined (some (lead, g.unitId, x.bays.length))
    ((∀ c ∈ x.cmds, c.origin = .host → c.started = true) → exec formed s = .next t)
    ∧ (∀ c, x.cmds = [c] → c.origin = .host → c.started = false → c.forwarded = false → exec formed s = .next (t.completed p c 0x45 0x10 0)))
  ∧ (g.formed = true → (x.stateCode = 0 ∨ x.stateCode = 7) → exec (.gangDissolve p true) s
    = .next (s.modPart p fun y => { y with gang := { y.gang with formed := false, present := 0, members := [], leadLost := false } }))
  ∧ (∀ v, x.hove.state = 0 → exec (.heartbeatBeat p v) s
    = .next (s.modPart p fun y => { y with hove := y.hove.write v (decide (x.tenancy ≠ 0)) s.time }))
  ∧ (∀ v, x.hove.state = 1 → x.hove.quiescing = false → s.time.toNat < x.hove.leaseEnd.toNat →
    ∃ s', exec (.heartbeatBeat p v) s = .next s' ∧ (s'.part p).hove.state = 0 ∧ (s'.part p).hove.lastBeat = s.time)
  ∧ (x.hove.enable = true → x.tenancy ≠ 0 → x.hove.state = 0 → x.resetting = none → s.tackUp = true → x.isLead = false →
    x.hove.lastBeat.toNat + 3 * x.hove.interval * 10000000 ≤ s.time.toNat → exec (.heartbeatMiss p) s
    = .next (s.modPart p fun y => { y with hove := { y.hove with
        state := 1, cause := 1, leaseEnd := s.time + BitVec.ofNat 64 (x.hove.leaseS * 100000000) } }))
  ∧ (x.hove.state = 1 → x.hove.quiescing = false → x.ela.run = none → x.hove.leaseEnd.toNat ≤ s.time.toNat → x.cmds = [] → x.stepOpen = false →
    x.stepResult = none → s.tilesInStep p = [] → ∃ s', exec (.hoveToLeaseEnd p) s = .next s' ∧ (s'.part p).hove.state = 2 ∧ (s'.part p).tenancy = 0)
  ∧ (∀ data, s.memberPart (rd data 8 4) = some p →
    (rd data 0 1 = 3 → x.cmds.length < 1024 → cmdOk ((data.drop 32).take 64) = true → x.destroy = none →
      let c := mkCmd x ((data.drop 32).take 64) (rd data 24 1 % 16) (BitVec.ofNat 32 (rd data 12 4)) .lead s.time
      takeRefusal x c = none → exec (.commandForwardReceive data) s
        = .next (s.modPart p fun y => { y with cmds := y.cmds ++ [c], nextKey := y.nextKey + 1 }))
    ∧ (rd data 0 1 = 4 → rd data 24 1 = 1 → x.hove.state = 0 → x.resetting = none → exec (.hoveToForwardReceive data) s
      = .next (s.modPart p fun y => { y with hove := { y.hove with
          state := 1, cause := 1, leaseEnd := s.time + BitVec.ofNat 64 (rd data 28 4 * 100000000) } })))
  ∧ (∀ (m : Nat) (r : MemberReport) (e : Completion) (c : Cmd), x.isLead = true →
    x.cmds.find? (fun c => c.forwarded && decide (c.csn = e.csn) && decide (c.sq = e.sq)) = some c →
    (∀ a ∈ c.answers, a.1 ≠ m) → (∀ d ∈ x.cmds, d.key = c.key → d = c) →
    ∀ n, n < 8 → s.reaches p n = true → n ≠ m → (∀ a ∈ c.answers, a.1 ≠ n) → exec (.memberCompletionReceive p m ⟨r, e⟩) s
      = .next (s.modPart p fun y => { y.modCmd c.key fun c => { c with answers := c.answers ++ [(m, e)] } with gang := y.gang.hear m r }))

/-- HostCommandsRule and CheckpointsRule together. -/
def Obligations.HostCommands : Prop := HostCommandsRule ∧ CheckpointsRule

/-! ### The dump, the field book, witnesses and checks (R447 to R452, R459 to R476) -/

/-- The dump engine (R447 to R452): START and, with ARM, the first fault run or queue a dump; four access timeouts in a row make a unit
unreachable; a dump ends COMPLETE, TRUNCATED, NO_BUFFER or ABORTED, and writes its bytes to its buffer. -/
def DumpEngineRule : Prop :=
  ∀ (p : Nat) (s : State), let x := s.part p
  let d := x.dump
  x.exist = true →
  (d.state ≠ 1 → d.state ≠ 2 → d.len ≠ 0 → ∃ s', exec (.dumpStart p) s = .next s' ∧ s'.dumps = s.dumps ++ [p]
    ∧ (s'.part p).dump = { d with
        state := if s.dumps = [] then 2 else 1, unreachable := 0, bytes := 0, holes := 0, start := s.time, timeouts := [], gone := [] })
  ∧ (d.state ≠ 1 → d.state ≠ 2 → d.len ≠ 0 → x.faulted = true → x.dumpDue = true → ∃ s', exec (.dumpArmedStart p) s = .next s' ∧ s'.dumps = s.dumps ++ [p]
    ∧ (s'.part p).dump.state = (if s.dumps = [] then 2 else 1) ∧ (s'.part p).dump.start = s.time)
  ∧ (∀ kind unit i, d.state = 2 → (∀ e ∈ d.gone, ¬(e.1 = kind ∧ e.2.1 = unit)) → kind < 4 → (kind, unit, i) ∉ d.timeouts →
    ∃ s', exec (.dumpAccessTimeout p kind unit i) s = .next s' ∧ (kind, unit, i) ∈ (s'.part p).dump.timeouts
      ∧ (s'.part p).dump.unreachable = (if 3 ≤ i ∧ (kind, unit, i - 1) ∈ d.timeouts ∧ (kind, unit, i - 2) ∈ d.timeouts ∧ (kind, unit, i - 3) ∈ d.timeouts
        then min 0xFFFF (d.unreachable + 1) else d.unreachable))
  ∧ (d.state = 2 → d.len = 0 → ∀ a, ∃ s', exec (.dumpEnd p a) s = .next s' ∧ (s'.part p).dump.state = 6 ∧ p ∉ s'.dumps)
  ∧ (d.state = 2 → d.len ≠ 0 → ∃ s' data total, exec (.dumpEnd p none) s = .next s' ∧ s'.out = (s.hostMsgs (x.function p) (64 * d.addr) data false).reverse ++ s.out
    ∧ data.length = min total d.len.toNat ∧ (s'.part p).dump.bytes = BitVec.ofNat 64 total ∧ p ∉ s'.dumps
    ∧ (s'.part p).dump.state = (if data.length < total then 4 else 3) ∧ (4 ≤ data.length → leNat (data.take 4) = 0x504D5544))
  ∧ (d.state = 1 ∨ d.state = 2 → ∃ s', exec (.dumpAbort p) s = .next s' ∧ (s'.part p).dump.state = 5 ∧ p ∉ s'.dumps)

/-- The field book, site records, witness comparison and check rounds (R237, R459 to R475): the oldest waiting entry takes the next SEQ and place;
a matching witness pair is counted, a RESULT or OPERAND mismatch recorded and, with ACTION, a fault; a pair that cannot complete is
unmatched; a round records its clusters, and a confirmed failure is counted. -/
def BookAndChecksRule : Prop :=
  ∀ (p : Nat) (s : State), let x := s.part p
  (∀ e rest, s.book.waiting = e :: rest → s.book.frozen = false → ∃ s' e', exec .fieldBookEntry s = .next s' ∧ s' = { s with book := s'.book }
    ∧ s'.book.waiting = rest ∧ s'.book.nextSeq = s.book.nextSeq + 1 ∧ s'.book.nextIndex = (s.book.nextIndex + 1) % 65536
    ∧ s'.book.ring = mset BookEntry.zero s.book.ring s.book.nextIndex e' ∧ e'.seq = s.book.nextSeq ∧ e'.type = e.type ∧ e'.part = e.part
    ∧ e'.payload = e.payload ∧ s'.book.frozen = (s.book.freezeEn && decide (e.type = 1)))
  ∧ exec .fbkUnfreeze s = .next { s with book := { s.book with frozen := false } }
  ∧ exec (.sites p) s = .next (s.modNum p fun n => { n with sites := [], events := n.events &&& 0xFE })
  ∧ (∀ i l a b, x.exist = true → i ∈ x.wit.open' → x.wit.arrived.find? (fun c => decide (c.entry = i) && decide (c.witness = false)) = some a →
    x.wit.arrived.find? (fun c => decide (c.entry = i) && decide (c.witness = true)) = some b → l = x.wit.open'.filter (fun j => decide (j ≠ i)) →
    ∃ s', exec (.witnessCompare p i) s = .next s' ∧ (s'.part p).wit.open' = l ∧ (s'.part p).wit.compared = sat32 x.wit.compared 1
      ∧ (a.sig = b.sig → a.drain = b.drain → (s'.part p).wit.result = x.wit.result ∧ (s'.part p).wit.operand = x.wit.operand
        ∧ (s'.part p).pend = x.pend)
      ∧ (a.sig ≠ b.sig → (s'.part p).wit.operand = sat32 x.wit.operand 1 ∧ (s'.part p).wit.result = x.wit.result ∧ (s'.part p).wit.record.valid = true)
      ∧ (a.sig = b.sig → a.drain.data ≠ b.drain.data → (s'.part p).wit.result = sat32 x.wit.result 1 ∧ (s'.part p).wit.operand = x.wit.operand
        ∧ (s'.part p).wit.record.valid = true)
      ∧ ((a.sig ≠ b.sig ∨ a.drain.data ≠ b.drain.data) → x.wit.action = true → ∃ e, (s'.part p).pend = x.pend ++ [e] ∧ e.code = 0x31))
  ∧ (∀ i v e, x.cur = some v → v.wit[i]? = some e → i ∈ x.wit.open' → (∀ c ∈ x.wit.arrived, c.entry ≠ i) →
    (∀ t, x.physOf e.pTile = some t → s.doneIssuing t = true) → (∀ t, x.physOf e.wTile = some t → s.doneIssuing t = true) →
    exec (.witnessUnmatched p i) s = .next (s.modPart p fun y => { y with wit := { y.wit with
      unmatched := sat32 y.wit.unmatched 1, open' := y.wit.open'.filter fun j => decide (j ≠ i)
      arrived := y.wit.arrived.filter fun c => decide (c.entry ≠ i) } }))
  ∧ (s.check.enable = true → s.mast.trimUp = true → s.check.lastRound.toNat + max 1 s.check.intervalH * 3600 * 100000000 ≤ s.time.toNat →
    exec (.checkRound []) s = .next { s with check := { s.check with lastRound := s.time } }
    ∧ ∀ r i, s.checkable r.cluster = true → i < 4 → r.point ≠ 0 → s.check.points.toNat / 2 ^ (8 * i) % 256 = r.point → r.result < 3 →
      ∃ s', exec (.checkRound [r]) s = .next s' ∧ s'.check.lastRound = s.time ∧ s'.check.cluster = r.cluster ∧ s'.check.point = r.point
        ∧ s'.check.fails = (if r.result = 2 then sat16 s.check.fails 1 else s.check.fails)
        ∧ (r.result = 2 → s'.check.resValid = true))

/-- DumpEngineRule and BookAndChecksRule together. -/
def Obligations.DumpsAndChecks : Prop := DumpEngineRule ∧ BookAndChecksRule

/-! ### The Masthead (R478 to R502) -/

/-- Cores, shim and governor (R481 to R491, R494, R496, R497): a component fault or missed watchdog restarts the component, its third within
60 s or one of the kernel's its core; a Tack outage ends with held writes and doorbells taken; SHIM answers, or the busy value does; writes
are applied, held, or dropped; the fallback governor engages and releases; 60 s of running earn the success mark; an idle moment activates.
-/
def Obligations.MastheadCores : Prop :=
  ∀ s : State, let m := s.mast
  (∀ core comp, isComp core comp = true → m.recovery = false → comp ≠ 0 → (core = 0 ∨ 3 ≤ comp) →
    (∀ e ∈ m.faults, e.1 = core → e.2.1 = comp → e.2.2.toNat + 60 * 100000000 < s.time.toNat) → s.book.waiting.length < 256 →
    (∀ cause pc addr, cause < 2 → ∃ s' e, exec (.componentFault core comp cause pc addr) s = .next s' ∧ s'.book.waiting = s.book.waiting ++ [e]
      ∧ e.type = 0x20 ∧ (core, comp, s.time) ∈ s'.mast.faults ∧ s'.tackUp = s.tackUp ∧ s'.mast.trimUp = m.trimUp)
    ∧ ∃ s' e, exec (.componentWatchdogExpiry core comp) s = .next s' ∧ s'.book.waiting = s.book.waiting ++ [e]
      ∧ e.type = 0x20 ∧ (core, comp, s.time) ∈ s'.mast.faults)
  ∧ (m.recovery = false → ∀ core cause, cause < 4 →
    (core = 1 → (∃ s', exec (.coreRestart core cause) s = .next s' ∧ s'.tackUp = false ∧ s'.mast.tackRestarts = min 255 (m.tackRestarts + 1)
        ∧ s'.mast.tackCause = cause ∧ s'.mast.trimUp = m.trimUp)
      ∧ (∃ s', exec (.hardwareWatchdog core) s = .next s' ∧ s'.tackUp = false ∧ s'.mast.tackCause = 2)
      ∧ ∀ pc addr, cause < 2 → ∃ s', exec (.componentFault core 0 cause pc addr) s = .next s' ∧ s'.tackUp = false
        ∧ s'.mast.tackRestarts = min 255 (m.tackRestarts + 1))
    ∧ (core = 0 → (∃ s', exec (.coreRestart core cause) s = .next s' ∧ s'.mast.trimUp = false ∧ s'.mast.trimRestarts = min 255 (m.trimRestarts + 1)
        ∧ s'.mast.trimCause = cause ∧ s'.tackUp = s.tackUp)
      ∧ ∃ s', exec (.hardwareWatchdog core) s = .next s' ∧ s'.mast.trimUp = false ∧ s'.mast.trimCause = 2))
  ∧ (s.tackUp = false → m.recovery = false → s.pkg.ready = true → ∃ s', exec .tackRestore s = .next s' ∧ s'.tackUp = true ∧ s'.mast.fifo = []
    ∧ (m.fifo = [] → ∀ p, p < 12 → (s.part p).exist = true →
      (s'.part p).hove.lastBeat = (s.part p).hove.lastBeat + (s.time - m.tackSince) ∧ (s'.part p).bellLog = []))
  ∧ (∀ fn off, inEmulated off = true → off % 4 = 0 →
    (s.tackUp = true → emuWide (off - 0x200000) = false → exec (.shimRead fn off 4) s
      = .next (s.send (.barData fn (leBytes 4 (s.emuWord fn (off - 0x200000)).toNat) false)))
    ∧ (s.tackUp = true → off % 8 = 0 → exec (.shimRead fn off 8) s = .next (s.send (.barData fn
      (leBytes 4 (s.emuWord fn (off - 0x200000)).toNat ++ leBytes 4 (s.emuWord fn (off - 0x200000 + 4)).toNat) false)))
    ∧ (s.tackUp = false → exec (.shimReadTimeout fn off 4) s = .next (s.send (.barData fn (leBytes 4 s.shimStatus.toNat) false)))
    ∧ ∀ bytes, (s.tackUp = true → bytes.length = 4 → emuWide (off - 0x200000) = false → exec (.shimWrite fn off bytes) s
        = .next (s.emuWrite32 fn (off - 0x200000) (BitVec.ofNat 32 (leNat bytes))))
      ∧ (s.tackUp = false → m.fifo.length < 256 → exec (.shimWrite fn off bytes) s = .next { s with mast := { m with fifo := m.fifo ++ [⟨fn, off, bytes⟩] } })
      ∧ (s.tackUp = false → 256 ≤ m.fifo.length → exec (.shimWrite fn off bytes) s
        = .next { s with mast := { m with drop := true, fifoDropped := m.fifoDropped + 1 } }))
  ∧ (∀ off bytes, inShadow off = true →
    (m.trimUp = true → bytes.length = 4 → exec (.shadowWrite 0 off bytes) s = .next (s.trimWrite off (BitVec.ofNat 32 (leNat bytes))))
    ∧ (m.trimUp = false → m.mailbox.length < 64 → exec (.shadowWrite 0 off bytes) s
      = .next { s with mast := { m with mailbox := m.mailbox ++ [⟨0, off, bytes⟩] } })
    ∧ (m.trimUp = false → 64 ≤ m.mailbox.length → exec (.shadowWrite 0 off bytes) s
      = .next { s with mast := { m with drop := true, boxDropped := m.boxDropped + 1 } }))
  ∧ (m.fallback = false → ∃ s', exec .fallbackEngage s = .next s' ∧ s'.mast.fallback = true ∧ s'.mast.fallbackSince = s.time)
  ∧ (m.fallback = true → m.trimUp = true → m.recovery = false → 2 ≤ m.powerLoops → 2 ≤ m.thermLoops →
    ∃ s', exec .fallbackRelease s = .next s' ∧ s'.mast.fallback = false)
  ∧ (s.tackUp = true → m.trimUp = true → m.recovery = false → (m.slot m.slotB).mark = false → m.bootAt.toNat + 60 * 100000000 ≤ s.time.toNat →
    ∃ s', exec .bootSuccess s = .next s' ∧ s'.mast.slot m.slotB = { m.slot m.slotB with mark := true, boots := 0 }
      ∧ s'.mast.svnFloor = (if (m.slot m.slotB).factory = false ∧ (m.slot m.slotB).field 0x34 4 % 2 = 1 then max m.svnFloor (m.slot m.slotB).svn else m.svnFloor))
  ∧ (m.actPending = true → s.idleForActivation = true → m.accepts (m.slot (!m.slotB)) = true → ∃ s', exec .firmwareActivation s = .next s'
    ∧ s'.mast.actPending = false ∧ s'.mast.slotB = (!m.slotB) ∧ s'.mast.fallback = true ∧ s'.tackUp = false ∧ s'.mast.trimUp = false)

/-- The memory-protection units (R480): each core has 16 regions, whose sizes are powers of two from 4 KiB upwards, aligned, and which hold what
the rule's table assigns, with its permissions and owners; none is both writable and executable, and a component's data and journal lie in
no region that another may write. When a core's kernel switches to a component (the one it restarts, or the kernel as the core restarts)
it reloads regions 4–15, regions 0–3 stay, and the other core's regions do not change. -/
def Obligations.MemoryProtection : Prop :=
  (∀ core comp, core < 2 → isComp core comp = true →
    let l := mpuRegions core comp
    let may (i : Nat) (r w x : Bool) (owner : Option Nat) : Prop :=
      ∃ a, l[i]? = some a ∧ a.read = r ∧ a.write = w ∧ a.exec = x ∧ a.owner = owner ∧ a ≠ MpuRegion.off
    l.length = 16
    ∧ (∀ a ∈ l, (a.write && a.exec) = false ∧ (a = MpuRegion.off ∨ ∃ n, 12 ≤ n ∧ a.size = 2 ^ n ∧ a.base % a.size = 0))
    ∧ may 0 false false true none ∧ may 1 false false true (some 0) ∧ may 2 true true false (some 0) ∧ may 3 false true false none
    ∧ (comp ≠ 0 → may 4 false false true (some comp) ∧ may 5 true true false (some comp) ∧ may 6 true true false (some comp)
      ∧ (∀ i a, 7 ≤ i → l[i]? = some a → a = MpuRegion.off ∨ (a.read = true ∧ a.exec = false ∧ a.owner = some comp
          ∧ ∃ w, (a.base, a.size, w) ∈ ownedHardware core comp ∧ a.write = w))
      ∧ ∀ other i a q, isComp core other = true → other ≠ comp → (i = 5 ∨ i = 6) → l[i]? = some a → q ∈ mpuLoaded core other → q.write = true →
          a.base + a.size ≤ q.base ∨ q.base + q.size ≤ a.base))
  ∧ ∀ (s : State) (core : Nat), core < 2 → s.mast.recovery = false → (s.mast.mpu core).length = 16 →
    let reload (comp : Nat) (c : Instr) : Prop := ∃ s', exec c s = .next s' ∧ (s'.mast.mpu core).length = 16
      ∧ (∀ i, i < 4 → (s'.mast.mpu core)[i]? = (s.mast.mpu core)[i]?)
      ∧ (∀ i, i < 12 → (s'.mast.mpu core)[4 + i]? = (mpuLoaded core comp)[i]?)
      ∧ s'.mast.mpu (1 - core) = s.mast.mpu (1 - core)
    (∀ cause, cause < 4 → reload 0 (.coreRestart core cause))
    ∧ reload 0 (.hardwareWatchdog core)
    ∧ ∀ comp, isComp core comp = true → comp ≠ 0 →
      (∀ e ∈ s.mast.faults, e.1 = core → e.2.1 = comp → e.2.2.toNat + 60 * 100000000 < s.time.toNat) →
      (∀ cause pc addr, cause < 2 → reload comp (.componentFault core comp cause pc addr))
      ∧ reload comp (.componentWatchdogExpiry core comp)

/-- PLDM firmware update, platform monitoring and SPDM (R494 to R500): each step of an update follows the one before, the image goes to the
inactive slot, verification decides, activation makes it pending and cancelling ends it; sensors, records and events are read; SPDM
answers once negotiated. The message and completion codes are the model's (log entry 101). -/
def Obligations.ManagementProtocols : Prop :=
  ∀ s : State, let m := s.mast
  let u := m.update
  let b := !m.slotB
  let answer (t : State) (code cc : Nat) (args : List Nat) : State := t.send (.mctp code (leBytes 1 cc ++ Config.standardReply code args))
  let upd (v : FwUpdate) : State := { s with mast := { m with update := v } }
  exec .queryDeviceIdentifiers s = .next (answer s 0x01 0 [0x1F3C, 0x0909])
  ∧ exec .getFirmwareParameters s = .next (answer s 0x02 0
    [0x000A, 0x0001, (m.slot m.slotB).version.toNat, if m.actPending then (m.slot b).version.toNat else 0])
  ∧ exec .getStatus s = .next (answer s 0x1B 0 [u.phase, u.got])
  ∧ (u.phase = 0 → exec .requestUpdate s = .next (answer (upd ⟨1, 0, 0⟩) 0x10 0 []))
  ∧ (u.phase ≠ 0 → exec .requestUpdate s = .next (answer s 0x10 0x81 []))
  ∧ (u.phase = 1 → exec .passComponentTable s = .next (answer (upd ⟨2, 0, 0⟩) 0x13 0 []))
  ∧ (∀ size, u.phase = 2 → size ≤ 24 * 2 ^ 20 → ∃ s', exec (.updateComponent size) s = .next s' ∧ s'.mast.update = ⟨3, size, 0⟩
    ∧ s'.mast.actPending = false ∧ (s'.mast.slot b).invalid = true ∧ (s'.mast.slot b).mark = false)
  ∧ (∀ data, u.phase = 3 → data.length ≤ 4096 → u.got + data.length ≤ u.size → (m.slot b).invalid = true →
    ∃ s', exec (.requestFirmwareData u.got data) s = .next s' ∧ s' = { s with mast := s'.mast } ∧ s'.mast.update = { u with got := u.got + data.length }
      ∧ s'.mast.slot b = { m.slot b with img := msetList 0 (m.slot b).img u.got data } ∧ s'.mast.slot m.slotB = m.slot m.slotB)
  ∧ (u.phase = 3 → u.got = u.size → exec .transferComplete s = .next (answer (upd { u with phase := 4 }) 0x16 0 []))
  ∧ (u.phase = 4 → let v := { m.slot b with invalid := false }
    (m.accepts v = true → ∃ s', exec .verifyComplete s = .next s' ∧ s'.mast.update = { u with phase := 5 } ∧ s'.mast.slot b = v
      ∧ s'.out = .mctp 0x17 (leBytes 1 0 ++ Config.standardReply 0x17 []) :: s.out)
    ∧ (m.accepts v = false → ∃ s', exec .verifyComplete s = .next s' ∧ s'.mast.update = ⟨2, 0, 0⟩ ∧ s'.mast.slot b = m.slot b
      ∧ s'.out = .mctp 0x17 (leBytes 1 1 ++ Config.standardReply 0x17 []) :: s.out))
  ∧ (u.phase = 5 → exec .applyComplete s = .next (answer (upd { u with phase := 6 }) 0x18 0 []))
  ∧ (u.phase = 6 → ∃ s', exec .activateFirmware s = .next s' ∧ s'.mast.actPending = true ∧ s'.mast.update = ⟨0, 0, 0⟩)
  ∧ (3 ≤ u.phase → ∃ s', exec .cancelUpdateComponent s = .next s' ∧ s'.mast.update = ⟨2, 0, 0⟩
    ∧ (u.phase < 6 → s'.mast.slot b = { m.slot b with invalid := true }))
  ∧ (u.phase ≠ 0 ∨ m.actPending = true → ∃ s', exec .cancelUpdate s = .next s' ∧ s'.mast.update = ⟨0, 0, 0⟩ ∧ s'.mast.actPending = false)
  ∧ (∀ id, 1 ≤ id → id ≤ 34 → exec (.pldmPlatformRequest (.sensor id)) s = .next (answer s 0x11 0 [id, s.sensorValue id, s.sensorLevel id]))
  ∧ (∀ e rest, m.events = e :: rest → exec (.pldmPlatformRequest .event) s
    = .next (answer { s with mast := { m with events := rest } } 0x0B 0 [e.1, e.2]))
  ∧ exec .getVersion s = .next ({ s with mast := { m with spdmVersion := true, spdmAlgo := false } }.send (.mctp 0x04 (leBytes 2 0x1300)))
  ∧ (m.spdmVersion = true → exec .getCapabilities s = .next (s.send (.mctp 0x61 (Config.standardReply 0x61 [])))
    ∧ exec .negotiateAlgorithms s = .next ({ s with mast := { m with spdmAlgo := true } }.send (.mctp 0x63 (Config.standardReply 0x63 []))))
  ∧ (m.spdmAlgo = true → exec .getDigests s = .next (s.send (.mctp 0x01 (Config.sha384 Config.spdmCert)))
    ∧ (∀ off n, exec (.getCertificate 0 off n) s = .next (s.send (.mctp 0x02 ((Config.spdmCert.drop off).take n))))
    ∧ (∀ nonce, exec (.challenge 0 nonce) s = .next (s.send (.mctp 0x03
      (Config.signMast (Config.standardReply 0x03 (nonce.map (·.toNat)) ++ Config.sha384 Config.spdmCert)))))
    ∧ ∀ i nonce, 1 ≤ i → i ≤ 4 → exec (.getMeasurements i false nonce) s = .next (s.send (.mctp 0x60 (s.measurement i))))

/-! ### Clocks, power, heat and ageing (R490, R504 to R544) -/

/-- Clocks and domains (R505, R509 to R513, R518, R519, R525): the loss of REFCLK unlocks every PLL, stops the Masthead and, while the main
domains run, is a device reset, its return is noted; a PLL locks, or after five failures is given up, its cluster in bypass; an
excursion is recorded; a measurement ends after its window; a regulator fault turns its domain off, a free bay's domain is gated, and a
thermal trip turns every domain off. -/
def Obligations.ClocksAndDomains : Prop :=
  ∀ s : State, let k := s.clk
  (k.refclk = true → ∃ s', exec .refclkAbsent s = .next s' ∧ s'.clk.refclk = false ∧ s'.pkg.mastReady = false ∧ s'.dlUp = false
    ∧ s'.mast.trimUp = false ∧ (∀ i, i < 150 → mget false s'.clk.unlocked i = true)
    ∧ (s.pkg.mainStart.isSome = true → s'.tackUp = false ∧ ∀ p, (s'.part p).exist = false)
    ∧ (s.pkg.mainStart = none → s'.tackUp = s.tackUp ∧ s'.parts = s.parts))
  ∧ (∀ us, k.refclk = false → s.pkg.auxUp = true → ∃ s', exec (.refclkPresent us) s = .next s' ∧ s'.clk.refclk = true)
  ∧ (∀ i ppm, i < 150 → mget false k.unlocked i = true → k.refclk = true → k.tripped = false → let n := mget 0 k.attempts i
    (n < 5 → 120 ≤ i → exec (.pllLockAttempt i true ppm) s = .next { s with clk := { k with
      unlocked := mset false k.unlocked i false, attempts := mset 0 k.attempts i 0 } })
    ∧ (n < 5 → i < 120 → mwf Cluster.reset k.clusters = true → ∃ s', exec (.pllLockAttempt i true ppm) s = .next s'
      ∧ s'.clk.unlocked = mset false k.unlocked i false ∧ (s'.cluster i).bypass = false)
    ∧ (n < 4 → exec (.pllLockAttempt i false ppm) s = .next { s with clk := { k with attempts := mset 0 k.attempts i (n + 1) } })
    ∧ (n = 4 → ∃ s', exec (.pllLockAttempt i false ppm) s = .next s' ∧ s'.clk.lockFail.getLsbD i = true
      ∧ (i < 120 → (s'.cluster i).bypass = true) ∧ (i = 149 → s'.dlUp = false) ∧ ∀ b ∈ pllBays i, b ∈ s'.clk.baysLost))
  ∧ (∀ i ppm, i < 150 → mget false k.unlocked i = false → k.refclk = true → (5000 < ppm ∨ ppm < -5000) →
    ∃ s', exec (.pllMonitorWindow i ppm) s = .next s' ∧ s'.clk.excur.getLsbD i = true ∧ (i < 120 → (s'.cluster i).bypass = true))
  ∧ (∀ pll log2, s.mast.trimUp = true → pll < 256 → log2 < 32 → exec (.clkMeasStart pll log2) s = .next { s with clk := { k with
      measPll := pll, measLog2 := min 24 (max 10 log2), measDone := false, measRun := some s.time } })
  ∧ (∀ count t, k.measRun = some t → t.toNat + 2 ^ k.measLog2 ≤ s.time.toNat → exec (.clkMeasDone count) s = .next { s with clk := { k with
      measRun := none, measDone := true, measCount := if k.measPll < 150 then count else 0 } })
  ∧ (∀ d kind, d < 192 → kind < 3 → s.domainState d ≠ 0 → s.domainState d ≠ 3 → ∃ s', exec (.regulatorFault d kind) s = .next s'
    ∧ s'.domainState d = 3)
  ∧ (∀ d, let b := domainBay d
    isGated d = true → s.domainState d = 1 → s.ownerOfBay b = none → (mget 0 k.freeSince b).toNat + 1000000000 ≤ s.time.toNat →
    s.check.running = false → mwf 0 k.domains = true → ∃ s', exec (.domainGate d) s = .next s' ∧ s'.domainState d = 0
      ∧ (d % 41 < 30 → ∀ t, clusterOf t = 30 * (d / 41) + d % 41 → s'.tile t = Tile.reset))
  ∧ (∀ source temp, source < 7 → (if source = 6 then 420 else 460) ≤ temp → k.tripped = false → ∃ s', exec (.thermtrip source temp) s = .next s'
    ∧ s'.clk.tripped = true ∧ s'.clk.thmSticky.getLsbD 3 = true ∧ s'.clk.tripSource = source ∧ (∀ d, d < 192 → s'.domainState d = 0)
    ∧ ∀ p, (s'.part p).exist = false)

/-- Power and heat (R490, R516, R520 to R526): POWER takes the regulators' powers, slows every cluster while the device is over its cap and counts
operating time; THERMAL slows a hot cluster; overcurrent, 105 °C and the governor stop clocks, a cooled cluster runs again;
THROTTLE# asks for P7; a stack at 85 °C refreshes at twice the rate. -/
def Obligations.PowerAndHeat : Prop :=
  ∀ s : State, let k := s.clk
  mwf Cluster.reset k.clusters = true →
  (∀ power, s.trimCanRun = true → s.mast.trimUp = true →
    let w := (power.filter fun e => decide (e.1 < 192)).foldl (fun (m : SMap Nat) e => mset 0 m e.1 e.2) []
    let dev := w.foldl (fun n e => n + e.2) 0
    ∃ s', exec (.powerLoop power) s = .next s' ∧ s'.clk.power = w ∧ s'.mast.powerLoops = s.mast.powerLoops + 1 ∧ s'.clk.auxMs = k.auxMs + 1
      ∧ s'.clk.devCapped = (overCap dev k.devCap || (k.devCapped && !(slackCap dev k.devCap)))
      ∧ (overCap dev k.devCap = true → ∀ c, c < 120 → (s'.cluster c).powerReq = min 7 ((s.cluster c).point + 1)))
  ∧ (∀ c t, s.trimCanRun = true → s.mast.trimUp = true → c < 120 → 400 ≤ t → t < 1024 →
    ∃ s', exec (.thermalLoop [(c, t)] [] [] [] none) s = .next s' ∧ (s'.cluster c).temp = t ∧ (s'.cluster c).thermReq = min 7 ((s.cluster c).point + 1)
      ∧ s'.mast.thermLoops = s.mast.thermLoops + 1)
  ∧ (∃ s', exec .vinOvercurrent s = .next s' ∧ s'.clk.vinStop = some (s.time + 1000) ∧ ∀ c, c < 120 → (s'.cluster c).stops.getLsbD 3 = true)
  ∧ (s.pkg.perst = false → ∃ s', exec .throttleAssert s = .next s' ∧ s'.clk.throttleIn = true ∧ ∀ c, c < 120 → 7 ≤ (s'.cluster c).point)
  ∧ (∃ s', exec .throttleRelease s = .next s' ∧ s'.clk.throttleIn = false ∧ ∀ c, c < 120 → (s'.cluster c).point = s'.targetPoint c)
  ∧ (∀ c t, c < 120 → 420 ≤ t → ∃ s', exec (.hwThermalStop c t) s = .next s' ∧ (s'.cluster c).stops.getLsbD 2 = true
    ∧ s'.clk.thmSticky.getLsbD 0 = true)
  ∧ (∀ c t, c < 120 → t ≤ 408 → (s.cluster c).stops.getLsbD 2 = true → ∃ s', exec (.hwThermalRestart c t) s = .next s'
    ∧ s'.cluster c = { s.cluster c with temp := t, stops := (s.cluster c).stops &&& 0x3B })
  ∧ (∀ c t, s.mast.fallback = true → c < 120 → 400 ≤ t → ∃ s', exec (.governorClockStop [(c, t)] []) s = .next s'
    ∧ (s'.cluster c).stops.getLsbD 4 = true)
  ∧ (∀ n t, n < 12 → ∃ s', exec (.hbmHotRefresh n t) s = .next s' ∧ s'.clk.refresh2x.getLsbD n = decide (340 ≤ t)
    ∧ s'.clk.hbmTemp = mset 0 k.hbmTemp n (t % 1024))

/-- Ageing, calendar and sensors (R489, R499, R527 to R537, R539): a sample enters its benchmark; levelling serves its first trigger and plans every
cluster's table; LEVEL_NOW asks for one; UTC goes stale after 2 hours; an operating hour writes a status record, and every 24th
a daily one; SENSORS refreshes the shadow and the sensors' states. -/
def Obligations.AgeingAndSensors : Prop :=
  ∀ s : State, let k := s.clk
  (∀ b raw mv temp, s.trimCanRun = true → s.mast.trimUp = true → b < 264 → ∃ s', exec (.benchmarkSample [(b, raw, mv, temp)]) s = .next s'
    ∧ s'.benchOf b = (s.benchOf b).sample b raw mv temp)
  ∧ (∀ trigger rest, k.levelWant = trigger :: rest → s.trimCanRun = true → s.mast.trimUp = true → mwf Cluster.reset k.clusters = true →
    ∃ s', exec .levellingStart s = .next s' ∧ s'.clk.levelWant = rest ∧ s'.clk.lastTrigger = trigger ∧ s'.clk.levelAt = k.opMs
      ∧ ∀ c, c < 120 → (s'.cluster c).table = marginPlan c (s.driftOf c) ∧ (s'.cluster c).driftLevel = s.driftOf c)
  ∧ (s.mast.trimUp = true → 3 ∉ k.levelWant → exec .levelNow s = .next { s with clk := { k with levelWant := k.levelWant ++ [3] } })
  ∧ (k.utcValid = true → k.utcAt.toNat + 7200 * 100000000 ≤ s.time.toNat → exec .utcStale s = .next { s with clk := { k with utcStale := true } })
  ∧ (s.trimCanRun = true → s.mast.trimUp = true → ∃ s', exec .lifetimeStatusRecord s = .next s'
    ∧ s'.clk.status = (s.statusRecord :: k.status).take 2048
    ∧ ((mget 0 k.life 0x1000 + 1) % 24 ≠ 0 → s'.clk.daily = k.daily)
    ∧ ((mget 0 k.life 0x1000 + 1) % 24 = 0 → ∃ r, s'.clk.daily = (r :: k.daily).take 2560))
  ∧ (s.trimCanRun = true → s.mast.trimUp = true → mwf 0 s.mast.sensors = true → ∃ s', exec .sensorShadowUpdate s = .next s'
    ∧ (∀ off ∈ shadowOffsets, mget 0 s'.mast.shadow off = s.trimWord off)
    ∧ ∀ id, 1 ≤ id → id ≤ 31 → mget 0 s'.mast.sensors id = s.sensorLevel id)

/-! ### The Cadastre (R551 to R573) -/

/-- The Cadastre's metering (R551 to R555, R557, R560): each millisecond's energies go to the open tenancies and to the totals; each second the
regulators are compared with VIN_MAIN, the powers are shown and the sums restart; a silent sensor bus sets ATTR_FAULT; a checkpoint
saves time, totals and figures; INTERIM and DEVICE records are due by meter time; spread deeper than 600 ppm sets SSC. -/
def CadastreMeters : Prop :=
  ∀ s : State, let c := s.cad
  s.pkg.auxUp = true →
  (∀ reg hbm vin vddq link io aux,
    let total := vin + (((hbm.filter fun e => decide (e.1 < 12)).map (·.2)).foldl (· + ·) 0) + vddq + link + io + aux
    ∃ s', exec (.cadAttribution reg hbm vin vddq link io aux) s = .next s' ∧ s'.cad.total = c.total + total
      ∧ s'.cad.hourTotal = c.hourTotal + total ∧ s'.cad.secVin = c.secVin + vin ∧ s'.cad.secMs = c.secMs + 1
      ∧ (s.clk.refclk = true → c.ssc = false → s'.cad.meter = c.meter) ∧ (s.clk.refclk = false → c.ssc = false → s'.cad.meter = c.meter + 100000)
      ∧ ∀ p v, p < 12 → c.ten p = some v → ∃ a, s'.cad.ten p = some { v with
          energy := v.energy + powerShare (baysOf v.bays) reg hbm vin vddq, acc := a })
  ∧ (∃ s', exec .cadRailCompare s = .next s' ∧ s'.cad.secTotal = 0 ∧ s'.cad.secReg = 0 ∧ s'.cad.secVin = 0 ∧ s'.cad.declSec = 0
    ∧ s'.cad.powerTotal = min 0xFFFF (c.secTotal / 100000) ∧ s'.cad.peak = max c.peak (c.secTotal / 100000)
    ∧ (59 ≤ c.badSecs → 100 * (c.secReg - c.secVin) > 6 * c.secVin → s'.cad.attrFault = true)
    ∧ (59 ≤ c.badSecs → c.secReg ≤ c.secVin → 100 * (c.secVin - c.secReg) > 6 * c.secVin → s'.cad.attrFault = true)
    ∧ (59 ≤ c.goodSecs → c.secReg = c.secVin → s'.cad.attrFault = false))
  ∧ (∃ s', exec .cadSensorSilent s = .next s' ∧ s'.cad.attrFault = true ∧ s'.cad.goodSecs = 0)
  ∧ (∃ s', exec .cadCheckpoint s = .next s' ∧ s'.cad.checkpoint = c.meter ∧ s'.cad.ckTotal = c.total ∧ s'.cad.ckCommon = c.common)
  ∧ (∀ p v, c.ten p = some v → v.lastInterim.toNat + c.interimH * hourTicks ≤ (c.meter - v.start).toNat →
    ∃ s', exec (.cadInterim p) s = .next s' ∧ s'.cad.ten p = some { v with lastInterim := c.meter - v.start })
  ∧ (c.upAt.toNat + (c.devRecords + 1) * hourTicks ≤ c.meter.toNat → ∃ s', exec .cadDeviceRecord s = .next s' ∧ s'.cad.hourTotal = 0
    ∧ s'.cad.hourCommon = 0 ∧ s'.cad.peak = 0 ∧ s'.cad.devRecords = c.devRecords + 1)
  ∧ (∀ ppm, ∃ s', exec (.cadSscDetect ppm) s = .next s' ∧ s'.cad.ssc = decide (600 < ppm))

/-- The Cadastre's declarations and ledger (R557, R560, R561): the declaration at the front of the FIFO opens a tenancy, closes one, or gives UTC,
whose TIME record has the layout of a data record and carries the chain; resets close tenancies. -/
def CadastreDeclarations : Prop :=
  ∀ s : State, let c := s.cad
  s.pkg.auxUp = true →
  (∀ p tag key rest, s.decls = .opening p tag key :: rest → (s.part p).exist = true → maskOf (s.part p).bays ≠ 0 → c.meterOk = true → c.ten p = none →
    (s.part p).resetting = none → ∃ s', exec .cadDeclareOpen s = .next s' ∧ s'.decls = rest ∧ (s'.part p).tenancy = tag
      ∧ ∃ v, s'.cad.ten p = some v ∧ v.tag = tag ∧ v.start = c.meter ∧ v.energy = 0 ∧ v.bays = maskOf (s.part p).bays)
  ∧ (∀ p reason rest, s.decls = .closing p reason :: rest → mwf none c.tens = true → ∃ s', exec .cadDeclareClose s = .next s' ∧ s'.decls = rest
    ∧ s'.cad.ten p = none)
  ∧ (∀ u t rest, s.decls = .utc u t :: rest → ∃ s', exec .cadDeclareUtc s = .next s' ∧ s'.decls = rest ∧ s'.cad.utc = some (u, c.meter)
    ∧ (c.hold = [] → c.room = true → (s'.cad.slot c.next).take 24 = leBytes 4 c.next ++ leBytes 1 5 ++ leBytes 1 0xF
          ++ leBytes 1 (c.accNow s.clk.refclk).toNat ++ leBytes 1 0 ++ leBytes 8 c.meter.toNat ++ leBytes 8 u.toNat
        ∧ (s'.cad.slot c.next).drop 48 = s'.cad.chain.take 16
        ∧ s'.cad.chain = Config.sha384 (c.chainValue ++ (s'.cad.slot c.next).take 48)))
  ∧ (∀ p, (s.part p).resetting.isSome = true → mwf none c.tens = true → ∃ s', exec (.cadResetPulse p) s = .next s' ∧ s'.cad.ten p = none)
  ∧ (s.existing = [] → mwf none c.tens = true → ∃ s', exec .cadDeviceResetClose s = .next s' ∧ ∀ p, p < 12 → s'.cad.ten p = none)

/-- The CAD pins (R564, R566, R569, R570): each command gets its reply; ACK moves the read mark; a guarded SET_PARAM changes one parameter, steps
the event counter and is refused with a wrong guard. -/
def CadastrePins : Prop :=
  ∀ s : State, let c := s.cad
  s.pkg.auxUp = true →
  exec .ident s = .next (s.send (.cadReply (leBytes 1 0 ++ (leBytes 8 Config.serial.toNat ++ leBytes 4 Config.cadVersion.toNat
    ++ leBytes 4 Config.cadRomCrc.toNat ++ leBytes 4 c.events.toNat ++ leBytes 4 s.cadStatus))))
  ∧ (∀ i : W32, leNat ((c.slot i.toNat).take 4) = i.toNat → c.slot i.toNat ≠ [] →
    exec (.read i) s = .next (s.send (.cadReply (leBytes 1 0 ++ c.slot i.toNat))))
  ∧ (∀ i : W32, leNat ((c.slot i.toNat).take 4) ≠ i.toNat → exec (.read i) s = .next (s.send (.cadReply (leBytes 1 2))))
  ∧ exec .marks s = .next (s.send (.cadReply (leBytes 1 0 ++ (leBytes 4 c.next ++ leBytes 4 c.mark
    ++ leBytes 4 (c.dropRecords * 65536 + c.dropDecl)))))
  ∧ exec .totals s = .next (s.send (.cadReply (leBytes 1 0 ++ (leBytes 8 c.meter.toNat ++ leBytes 8 (c.total / 1000) ++ leBytes 8 (c.common / 1000)))))
  ∧ (∀ off, off < Config.cadCert.length → exec (.cert off) s = .next (s.send (.cadReply (leBytes 1 0 ++ (Config.cadCert.drop off).take 32))))
  ∧ (∀ p, exec (.part p) s = .next (s.send (.cadReply (if p < 12 then leBytes 1 0 ++ c.partBytes p else leBytes 1 2))))
  ∧ (∀ i : W32, c.next < i.toNat → exec (.ack i) s = .next (s.send (.cadReply (leBytes 1 2))))
  ∧ (∀ i : W32, i.toNat ≤ c.next → i.toNat < c.mark → exec (.ack i) s = .next (s.send (.cadReply (leBytes 1 3))))
  ∧ (∀ i : W32, i.toNat ≤ c.next → c.mark ≤ i.toNat → ∃ s', exec (.ack i) s = .next s' ∧ s'.cad.mark = i.toNat
    ∧ s'.out = .cadReply (leBytes 1 0 ++ leBytes 4 i.toNat) :: s.out)
  ∧ (∀ code v guard, paramFits code v.toNat = true → guard ≠ c.events → exec (.setParam code v guard) s = .next (s.send (.cadReply (leBytes 1 3))))
  ∧ (∀ code v, paramFits code v.toNat = true → ∃ s', exec (.setParam code v c.events) s = .next s' ∧ s'.cad.events = c.events + 1
    ∧ s'.cad.param code = v.toNat ∧ (∀ k, k ≠ code → (k = 1 ∨ k = 2 ∨ k = 3) → s'.cad.param k = c.param k))

/-- The Cadastre: its meters, its declarations and ledger, and the CAD pins. -/
def Obligations.Cadastre : Prop := CadastreMeters ∧ CadastreDeclarations ∧ CadastrePins

/-! ### Package, power-up, test access (R405, R406, R577 to R597) -/

/-- AUX and main power (R18, R406, R525, R536, R553, R565, R581, R582): loss of AUX loses the field book and every partition and keeps the
ledger; the AUX phase starts device time at 0, resumes meter time at the checkpoint, compares the ROM's CRC and closes the tenancies left
open; a main rail's fault or fall resets the device; a cycle of VIN_MAIN releases a trip and a hold. -/
def PowerRails : Prop :=
  ∀ s : State, let k := s.pkg
  (k.auxUp = true → ∃ s', exec .auxPowerLoss s = .next s' ∧ s'.pkg.auxUp = false ∧ s'.book = State.reset.book ∧ s'.cad.ledger = s.cad.ledger
    ∧ s'.cad.next = s.cad.next ∧ s'.cad.hold = [] ∧ s'.cad.total = s.cad.ckTotal ∧ ∀ p, s'.part p = Part.reset)
  ∧ (∀ crc rail ppm, k.auxUp = false → mwf none s.cad.tens = true → ∃ s', exec (.auxPowerUp crc rail ppm) s = .next s' ∧ s'.time = 0
    ∧ s'.pkg.auxUp = true ∧ s'.cad.meter = s.cad.checkpoint ∧ s'.cad.meterOk = decide (crc = Config.cadRomCrc)
    ∧ s'.cad.events = (if crc = Config.cadRomCrc then s.cad.events else s.cad.events + 1)
    ∧ s'.pkg.cadPass = decide (ppm ≤ 1000) ∧ ∀ p, p < 12 → s'.cad.ten p = none)
  ∧ (k.auxUp = true → ∃ s', exec .sequenceFault s = .next s' ∧ s'.pkg.seqHold = true ∧ s'.pkg.pwrGood = false ∧ s'.pkg.sticky = k.sticky ||| 1
    ∧ s'.dlUp = false ∧ ∀ p, (s'.part p).exist = false)
  ∧ (k.pwrGood = true → ∃ s', exec .pwrGoodFall s = .next s' ∧ s'.pkg.pwrGood = false
    ∧ (k.perst = false → s'.dlUp = false ∧ ∀ p, (s'.part p).exist = false))
  ∧ (k.auxUp = true → ∃ s', exec .vinMainCycle s = .next s' ∧ s'.clk.tripped = false ∧ s'.pkg.seqHold = false ∧ s'.pkg.pwrGood = true
    ∧ (s.clk.refclk = true → k.perst = false → k.mastReady = true → s.mast.recovery = false → s'.pkg.mainStart = some s.time))

/-- The main phase (R405, R406, R494, R578, R582 to R585): the Masthead's readiness, PERST# and the PF's reset begin it; a stack that has not trained
in 900 ms is marked; at its end the device serves the host, unless in factory test mode. -/
def MainPhase : Prop :=
  ∀ s : State, let k := s.pkg
  (k.auxUp = true → k.mastReady = false → s.clk.refclk = true → s.mast.actPending = false → (s.mast.slot s.mast.slotB).mark = true →
    s.mast.accepts (s.mast.slot s.mast.slotB) = true → ∃ s', exec .mastheadReady s = .next s' ∧ s'.pkg.mastReady = true ∧ s'.mast.trimUp = true
      ∧ s'.mast.slotB = s.mast.slotB ∧ s'.mast.recovery = false)
  ∧ (k.perst = false → k.auxUp = true → ∃ s', exec .perstAssert s = .next s' ∧ s'.pkg.perst = true ∧ s'.dlUp = false ∧ s'.mast.tackRestarts = 0
    ∧ s'.mast.trimRestarts = 0 ∧ s'.mast.actPending = false ∧ ∀ p, (s'.part p).exist = false)
  ∧ (∀ mode, k.perst = true → k.auxUp = true → ∃ s', exec (.perstDeassert mode) s = .next s' ∧ s'.pkg.perst = false ∧ s'.pkg.mode = mode % 4
    ∧ (k.mastReady = true → s.clk.refclk = true → s.clk.tripped = false → k.seqHold = false → s.mast.recovery = false → k.mainStart = none →
        s'.pkg.mainStart = some s.time ∧ ∀ i, i < 150 → mget false s'.clk.unlocked i = true))
  ∧ (∃ s', exec (.flr 0) s = .next s' ∧ s'.dlUp = s.dlUp ∧ s'.tackUp = false ∧ ∀ p, (s'.part p).exist = false)
  ∧ (∀ n t, k.mainStart = some t → n < 12 → k.ready = false → t.toNat + 900 * 100000 ≤ s.time.toNat → ∃ s', exec (.hbmTrainingTimeout n) s = .next s'
    ∧ n ∈ s'.pkg.untrained ∧ s'.pkg.hbmFail = k.hbmFail ||| BitVec.ofNat 12 (2 ^ n))
  ∧ (∀ ms ok t, k.mainStart = some t → k.ready = false → s.mainMayRun = true → ∃ s', exec (.deviceReady ms ok) s = .next s' ∧ s'.pkg.ready = true
    ∧ s'.tackUp = true ∧ s'.pkg.hbmMs = min 0xFFFF ms ∧ s'.pkg.readyMs = min 0xFFFF ((s.time - t).toNat / 100000) ∧ s'.pkg.fusesBad = !ok
    ∧ (k.mode ≠ 0 → s'.dlUp = false)
    ∧ (k.mode = 0 → mget false s.clk.unlocked 149 = false → s.domainState 190 = 1 → s.domainState 191 = 1 → s'.dlUp = true))
  ∧ (k.mode = 0 → exec .scanEnHigh s = .next { s with pkg := { k with scanStop := true } })

/-- The test access port (R587 to R590): the instructions load their codes; a guarded one outside PERST# and factory test mode acts as BYPASS and
sets JTAG_REFUSED; UNLOCK opens IJTAG only while no partition exists. -/
def TestPort : Prop :=
  ∀ s : State, let k := s.pkg
  let ir (code : Nat) : State := { s with pkg := { k with ir := code } }
  let refused : State := { s with pkg := { k with ir := 0xFF, jtagRefused := true } }
  (k.auxUp = true →
    exec .trst s = .next (ir 1) ∧ exec .idcode s = .next ((ir 1).send (.tdo 32 0x109099EB)) ∧ exec .samplePreload s = .next (ir 2)
    ∧ exec .bypass s = .next ((ir 0xFF).send (.tdo 1 0))
    ∧ (∀ e ∈ [(Instr.extest, 0), (Instr.clamp, 3), (Instr.highz, 4), (Instr.extestPulse, 5), (Instr.extestTrain, 6)],
        (k.perst = true → exec e.1 s = .next (ir e.2)) ∧ (k.perst = false → k.mode = 0 → exec e.1 s = .next refused)
        ∧ (k.perst = false → k.mode ≠ 0 → ∃ s', exec e.1 s = .next s' ∧ s'.pkg.ir = e.2 ∧ s'.dlUp = false ∧ ∀ p, (s'.part p).exist = false))
    ∧ ((k.mode ≠ 0 ∧ k.perst = false) ∨ k.unlock = true → exec .ijtagAccess s = .next (ir 0x10))
    ∧ ((k.mode = 0 ∨ k.perst = true) → k.unlock = false → exec .ijtagAccess s = .next refused))
  ∧ (s.existing = [] → exec (.unlock true) s = .next { s with pkg := { k with unlock := true } })
  ∧ (s.existing ≠ [] → exec (.unlock true) s = .next s)
  ∧ exec (.unlock false) s = .next { s with pkg := { k with unlock := false } }

/-- Loop-backs (R434, R593, R594, R597): a PCIe loop breaks the host's path and its result waits; with a tenancy open, or while one runs, it is
refused; an H test runs on a free bay's stack, which is zeroed at its end. -/
def LoopBacks : Prop :=
  ∀ s : State, let k := s.pkg
  (∀ depth pattern duration, s.tenancyOpen = false → k.pcieLb.running = none → exec (.pcieLoopback depth pattern duration) s = .next { s with
      dlUp := false
      pkg := { k with pcieLb := { k.pcieLb with
        done := false, pass := false, errors := 0, depth := if 2 < depth then 0 else depth, pattern := pattern
        duration := min 60000 (max 1 duration), running := some s.time } } })
  ∧ (∀ depth pattern duration, s.tenancyOpen = true ∨ k.pcieLb.running.isSome = true →
    exec (.pcieLoopback depth pattern duration) s = .next { s with pkg := { k with refused := true } })
  ∧ (∀ errors t, k.pcieLb.running = some t → t.toNat + k.pcieLb.duration * 100000 ≤ s.time.toNat →
    exec (.pcieLoopbackEnd errors) s = .next { s with pkg := { k with
      pcieLb := { k.pcieLb with running := none, done := true, pass := decide (errors = 0), errors := errors }
      sticky := if errors = 0 then k.sticky else k.sticky ||| 4 } })
  ∧ (∃ s', exec .hostDirectedLoopback s = .next s' ∧ s'.dlUp = false ∧ s'.pkg.hostLoop = true)
  ∧ (∀ depth stack, s.ownerOfBay (if 11 < stack then 0 else stack) = none → k.hbmLb.running = none →
    exec (.hbmLoopback depth stack) s = .next { s with pkg := { k with hbmLb := { k.hbmLb with
      done := false, pass := false, aborted := false, errors := 0, depth := if 2 < depth then 0 else depth
      stack := if 11 < stack then 0 else stack, running := some s.time } } })
  ∧ (∀ depth stack, (s.ownerOfBay (if 11 < stack then 0 else stack)).isSome = true → exec (.hbmLoopback depth stack) s = .next { s with
      pkg := { k with refused := true } })
  ∧ (∀ errors, k.hbmLb.running.isSome = true → ∃ s', exec (.hbmLoopbackEnd errors) s = .next s' ∧ s'.pkg.hbmLb.done = true
    ∧ s'.pkg.hbmLb.running = none ∧ s'.pkg.hbmLb.pass = decide (errors = 0) ∧ s'.pkg.hbmLb.errors = errors
    ∧ (∀ a, k.hbmLb.stack * 2 ^ 36 ≤ a → a < (k.hbmLb.stack + 1) * 2 ^ 36 → mget 0 s'.hbm a = 0)
    ∧ (∀ a, mwf 0 s.hbm = true → (a < k.hbmLb.stack * 2 ^ 36 ∨ (k.hbmLb.stack + 1) * 2 ^ 36 ≤ a) → mget 0 s'.hbm a = mget 0 s.hbm a))

/-- Power-up, resets from outside, the test port and the loop-backs. -/
def Obligations.PackageAndTest : Prop := PowerRails ∧ MainPhase ∧ TestPort ∧ LoopBacks

/-! ### Registers and ticks (R16, R17, R79, R233, R325, R326, R553, R597) -/

/-- Host reads of registers (R16, R17, R597): a read answers the register's value; the low half of a 64-bit register latches the high half,
which the following read of the high half answers (of a word of the numerics window, of the table and partition it shows); RC fields are
cleared after they are read. -/
def RegisterReads : Prop :=
  ∀ (s : State) (fn off : Nat), s.dlUp = true → inEmulated off = false → fn ≤ 12 →
  (off % 4 = 0 → s.hwWide fn off = false → exec (.registerReadClear fn off 4) s
    = .next ((s.afterRead fn off).send (.barData fn (leBytes 4 (s.hwWord fn off).toNat) false)))
  ∧ (off % 8 = 0 → s.hwWide fn off = true → exec (.registerReadClear fn off 4) s
    = .next ((({ s with latchRead := mset none s.latchRead (s.latchOf fn off) (some (s.hwWord fn (off + 4))) } : State).afterRead fn off).send
        (.barData fn (leBytes 4 (s.hwWord fn off).toNat) false)))
  ∧ (∀ v, off % 8 = 4 → s.hwWide fn off = true → mget none s.latchRead (s.latchOf fn off) = some v →
    ∃ s', exec (.registerReadClear fn off 4) s = .next s' ∧ s'.out = .barData fn (leBytes 4 v.toNat) false :: s.out
      ∧ (mwf none s.latchRead = true → mget none s'.latchRead (s.latchOf fn off) = none))
  ∧ (off = 0xA00000 → fn = 0 → exec (.registerReadClear fn off 4) s
    = .next (({ s with pkg := { s.pkg with jtagRefused := false, refused := false } } : State).send
        (.barData fn (leBytes 4 (s.tstWord 0)) false)))

/-- Host writes of registers (R16, R17, R233, R325): a 32-bit register takes a write at once; a 64-bit register takes it with its high half;
a write to DEV_ is ignored; LNK_COORD takes its fields from the physical function alone; NUM_STEP of a locked partition is not written, and
WRITE_IGNORED is set. -/
def RegisterWrites : Prop :=
  ∀ (s : State), s.dlUp = true →
  (∀ fn off b, fn ≤ 12 → b.length = 4 → off % 4 = 0 → inEmulated off = false → inShadow off = false → s.hwWide fn off = false → exec (.registerWrite fn off b) s = .next (s.hwWrite fn off (BitVec.ofNat 32 (leNat b))))
  ∧ (∀ fn off b, fn ≤ 12 → b.length = 4 → off % 8 = 0 → inEmulated off = false → inShadow off = false → s.hwWide fn off = true →
    exec (.registerWrite fn off b) s
      = .next { s with latchWrite := mset none s.latchWrite (s.latchOf fn off) (some (BitVec.ofNat 32 (leNat b))) })
  ∧ (∀ fn off b low, fn ≤ 12 → b.length = 4 → off % 8 = 4 → inEmulated off = false → inShadow off = false → s.hwWide fn off = true →
    mget none s.latchWrite (s.latchOf fn off) = some low → exec (.registerWrite fn off b) s
      = .next (({ s with latchWrite := mset none s.latchWrite (s.latchOf fn off) none } : State).hwWrite64 fn (off - 4)
          (BitVec.ofNat 64 (leNat b * 2 ^ 32 + low.toNat))))
  ∧ (∀ fn off b, fn ≤ 12 → b.length = 4 → off % 4 = 0 → off < 0x100000 → s.hwWide fn off = false → exec (.registerWrite fn off b) s = .next s)
  ∧ (∀ b, b.length = 4 → exec (.registerWrite 0 0x704000 b) s = .next { s with
      coord := BitVec.ofNat 32 (leNat b) &&& 0x801F1F07
      links := mmap Link.reset (fun _ l => { l with barred := false }) s.links })
  ∧ (∀ fn b, fn ≠ 0 → fn ≤ 12 → b.length = 4 → exec (.registerWrite fn 0x704000 b) s = .next s)
  ∧ (∀ fn b p, fn ≤ 12 → b.length = 8 → s.viewOf fn = some p → exec (.registerWrite fn 0x500010 b) s
    = .next (if (s.part p).numLocked then s.modNum p fun n => { n with writeIgnored := true }
        else s.modNum p fun n => { n with step := BitVec.ofNat 64 (leNat b) }))

/-- A tick (R79, R506, R536, R553): meter time advances by one, device time by one or, where the spread has added up to one more, by two; a tile
in whose cycle an instruction issued counts as many busy cycles and no idle one. Without REFCLK nothing ticks. -/
def Ticks : Prop :=
  ∀ (s : State) (issued : List Nat),
  (s.clk.refclk = false → exec (.deviceTick issued) s = .next s)
  ∧ (s.clk.refclk = true → s.pkg.auxUp = true → ∃ s', exec (.deviceTick issued) s = .next s' ∧ s'.cad.meter = s.cad.meter + 1
    ∧ s'.time = s.time + (if 2000000 ≤ s.clk.sscAcc + 250 * s.clk.ssc then 2 else 1)
    ∧ ∀ p b t, s.existing = [p] → (s.part p).bays = [b] → t ∈ bayTiles b → t ∈ issued → s.Canonical →
        (s.tile t).frozen = false → (s'.tile t).busy = (s.tile t).busy + s.ticksNow ∧ (s'.tile t).idle = (s.tile t).idle)

/-- Reading and writing registers, and the tick. -/
def Obligations.RegistersAndTicks : Prop := RegisterReads ∧ RegisterWrites ∧ Ticks

/-! ### The machine -/

/-- A step with a command in front runs that command on the state with the queue's rest; with an empty queue the device idles, which is the model's
own choice (log 1). -/
def Obligations.StepRunsFront : Prop :=
  ∀ s : State, (∀ c rest, s.pending = c :: rest → step s = exec c { s with pending := rest }) ∧ (s.pending = [] → step s = .next s)

/-- No command touches the queue of waiting commands. -/
def Obligations.QueueKept : Prop := ∀ (c : Instr) (s s' : State), exec c s = .next s' → s'.pending = s.pending

/-- Device time moves by a tick alone, and restarts when AUX power comes up: no other command changes it (R506, R536, R582). -/
def Obligations.TimeMoves : Prop :=
  ∀ (c : Instr) (s s' : State), (∀ l, c ≠ .deviceTick l) → (∀ crc rail ppm, c ≠ .auxPowerUp crc rail ppm) → exec c s = .next s' → s'.time = s.time

/-- The ledger only grows (R558, R564): no command takes back the INDEX of the next record, or the read mark. -/
def Obligations.LedgerOnlyGrows : Prop :=
  ∀ (c : Instr) (s s' : State), exec c s = .next s' → s.cad.next ≤ s'.cad.next ∧ s.cad.mark ≤ s'.cad.mark

/-- Every command has an effect in every state: none ends in a fault or a refusal. -/
def Obligations.EveryCommandRuns : Prop := ∀ (c : Instr) (s : State), ∃ s', exec c s = .next s'

/-- Every step keeps the tables canonical and the bounded registers inside their bounds (R325, R326, R557). -/
def Obligations.InvariantKept : Prop := ∀ s s' : State, s.Inv → step s = .next s' → s'.Inv

/-- Reset (R16, R325, R407, R408): the state after reset has that invariant, its queue is empty, no partition exists, and the registers whose reset
value the manual gives read it: DEV_IDENT, LNK_COORD, LNK_CTRL, and NUM_WINDOW. -/
def Obligations.ResetState : Prop :=
  State.reset.Inv ∧ State.reset.pending = [] ∧ State.reset.existing = []
  ∧ State.reset.hwWord 0 0x000000 = 0x09091F3C ∧ State.reset.hwWord 0 0x704000 = 0 ∧ (∀ n, n < 32 → State.reset.hwWord 0 (0x700000 + 0x100 * n) = 0x80000000)
  ∧ State.reset.hwWord 0 0x50001C = 0

/-- LNK_VCWEIGHT and LNK_LOSS (R326): the physical function writes their fields, LOSS_MS held between 1 and 1,000; they read what was written, their
reserved bits 0, and after reset 0x0021_2488 and 20. -/
def Obligations.LinkWeightsAndLoss : Prop :=
  State.reset.hwWord 0 0x704004 = 0x00212488 ∧ State.reset.hwWord 0 0x704008 = 20
  ∧ ∀ (s : State) (b : List Byte), s.dlUp = true → b.length = 4 → let v := leNat b
    (exec (.registerWrite 0 0x704004 b) s = .next { s with vcWeight := BitVec.ofNat 32 v &&& 0x00FFFFFF }
      ∧ ∀ s', exec (.registerWrite 0 0x704004 b) s = .next s' → s'.hwWord 0 0x704004 = BitVec.ofNat 32 (v % 2 ^ 24))
    ∧ (exec (.registerWrite 0 0x704008 b) s = .next { s with lossMs := if v % 1024 = 0 then 1 else if 1000 < v % 1024 then 1000 else v % 1024 }
      ∧ ∀ s', exec (.registerWrite 0 0x704008 b) s = .next s' → s'.hwWord 0 0x704008 = BitVec.ofNat 32 s'.lossMs)
    ∧ (∀ fn, fn ≠ 0 → fn ≤ 12 → exec (.registerWrite fn 0x704004 b) s = .next s ∧ exec (.registerWrite fn 0x704008 b) s = .next s)
end

