-- ==== Sys2Proof/Laws/Issue.lean ====
section
/-! SUPPORT. What issuing a strand instruction does. -/

set_option Elab.async false

open Sys2Proof Sys2Proof.Machine

namespace Sys2Proof.Machine

/-- With no storage error in the tile, reading storage records nothing. -/
theorem State.countEcc_clean {s : State} {t u w n : Nat} {k : Option Nat} (h : (s.tile t).ecc = []) :
    s.countEcc t u w n k = s := by
  simp [State.countEcc, h]

/-- With no storage error in the tile, reading the words of a list records nothing. -/
theorem State.countWords_clean {s : State} {t : Nat} {ws : List (Nat × Nat)} {k : Option Nat} (h : (s.tile t).ecc = []) :
    s.countWords t ws k = s := by
  simp [State.countWords, h]

/-- With no storage error in the tile, no word of a range is uncorrectable. -/
theorem Tile.firstBad_clean {x : Tile} {u w n : Nat} (h : x.ecc = []) : x.firstBad u w n = none := by
  simp [Tile.firstBad, Tile.eccRange, h]

/-- With no storage error in the tile, no word of a list is uncorrectable. -/
theorem Tile.badWord_clean {x : Tile} {ws : List (Nat × Nat)} (h : x.ecc = []) : x.badWord ws = none := by
  simp [Tile.badWord, h]

/-- With no storage error in the tile, reads deliver it as it is. -/
theorem Tile.delivered_clean {x : Tile} (h : x.ecc = []) : x.delivered = x := by
  simp [Tile.delivered, h]

/-- An instruction that can issue has its effect when its encoding is allowed. -/
theorem State.issue_run {s : State} {t k : Nat} {w : IWord} {ok : Bool} {eff : State → State} (h : s.issuable t k w)
    (hok : ok = true) : s.issue t k w ok eff = .next (eff s) := by
  simp [State.issue, h.can, h.clean, State.countWords_clean h.clean, Tile.badWord_clean h.clean, Tile.delivered_clean h.clean, hok, h.holds]

/-- An instruction that can issue raises the decode fault of R88 when its encoding is not allowed. -/
theorem State.issue_illegal {s : State} {t k : Nat} {w : IWord} {ok : Bool} {eff : State → State}
    (hc : s.canIssue t k w = true) (he : (s.tile t).ecc = []) (hok : ok = false) :
    s.issue t k w ok eff = .next (s.precise t k w cIllegal (faultAddr 0 0)) := by
  simp [State.issue, hc, he, Tile.badWord_clean he, hok]

/-- An annulled instruction only goes on (R87). -/
theorem State.issue_annulled {s : State} {t k : Nat} {w : IWord} {ok : Bool} {eff : State → State}
    (hc : s.canIssue t k w = true) (he : (s.tile t).ecc = []) (hok : ok = true)
    (hp : predHolds w ((s.tile t).strand k).cw = false) : s.issue t k w ok eff = .next (s.advance t k) := by
  simp [State.issue, hc, he, Tile.badWord_clean he, Tile.delivered_clean he, hok, hp]

/-- An instruction that cannot issue leaves its strand waiting, with the reason of the condition it fails (R64). -/
theorem State.issue_waits {s : State} {t k : Nat} {w : IWord} {ok : Bool} {eff : State → State}
    (hc : s.canIssue t k w = false) : s.issue t k w ok eff = .next (s.noteWait t k) := by
  simp [State.issue, hc]

end Sys2Proof.Machine
end

