-- ==== Sys2Proof/Laws/Map.lean ====
section
/-! SUPPORT. Sparse tables: a read after a write, and that every operation keeps the canonical form. -/

set_option Elab.async false

namespace Sys2Proof.Machine

variable {α : Type}

/-! ### The canonical form -/

theorem mwfFrom_mono [DecidableEq α] {d : α} {m : SMap α} {lo lo' : Nat} (h : mwfFrom d lo m = true) (hl : lo' ≤ lo) :
    mwfFrom d lo' m = true := by
  cases m with
  | nil => rfl
  | cons e m =>
    obtain ⟨k, v⟩ := e
    simp only [mwfFrom, Bool.and_eq_true, decide_eq_true_eq] at h ⊢
    exact ⟨⟨Nat.le_trans hl h.1.1, h.1.2⟩, h.2⟩

/-- A key below every listed one holds the default. -/
theorem mget_below [DecidableEq α] {d : α} {m : SMap α} {lo k : Nat} (h : mwfFrom d lo m = true) (hk : k < lo) : mget d m k = d := by
  cases m with
  | nil => rfl
  | cons e m =>
    obtain ⟨j, v⟩ := e
    simp only [mwfFrom, Bool.and_eq_true, decide_eq_true_eq] at h
    have : k ≠ j ∧ k < j := ⟨by omega, by omega⟩
    simp [mget, this]

/-! ### Reading after writing -/

@[simp] theorem mget_nil (d : α) (k : Nat) : mget d [] k = d := rfl

@[simp] theorem mget_mput_self (d : α) (m : SMap α) (k : Nat) (v : α) : mget d (mput m k v) k = v := by
  induction m with
  | nil => simp [mput, mget]
  | cons e m ih =>
    obtain ⟨j, w⟩ := e
    simp only [mput]
    split
    · simp [mget]
    · split
      · simp [mget]
      · rename_i h1 h2
        simp [mget, h1, h2, ih]

theorem mget_mput_ne (d : α) (m : SMap α) {k j : Nat} (v : α) (h : j ≠ k) : mget d (mput m k v) j = mget d m j := by
  induction m with
  | nil =>
    simp only [mput, mget, if_neg h]
    split <;> rfl
  | cons e m ih =>
    obtain ⟨i, w⟩ := e
    simp only [mput]
    split
    · rename_i hk
      subst hk
      simp [mget, h]
    · split
      · rename_i h1 h2
        simp only [mget, if_neg h]
        split
        · rw [if_neg (by omega), if_pos (by omega)]
        · rfl
      · simp only [mget, ih]

theorem mget_mdel_self [DecidableEq α] {d : α} {m : SMap α} {lo : Nat} (h : mwfFrom d lo m = true) (k : Nat) : mget d (mdel m k) k = d := by
  induction m generalizing lo with
  | nil => rfl
  | cons e m ih =>
    obtain ⟨j, w⟩ := e
    simp only [mwfFrom, Bool.and_eq_true, decide_eq_true_eq] at h
    simp only [mdel]
    split
    · rename_i hk
      exact mget_below h.2 (by omega)
    · split
      · rename_i h1 h2
        simp [mget, h1, h2]
      · rename_i h1 h2
        simp [mget, h1, h2, ih h.2]

theorem mget_mdel_ne [DecidableEq α] {d : α} {m : SMap α} {lo k j : Nat} (h : mwfFrom d lo m = true) (hj : j ≠ k) :
    mget d (mdel m k) j = mget d m j := by
  induction m generalizing lo with
  | nil => rfl
  | cons e m ih =>
    obtain ⟨i, w⟩ := e
    simp only [mwfFrom, Bool.and_eq_true, decide_eq_true_eq] at h
    simp only [mdel]
    split
    · rename_i hk
      simp only [mget]
      split
      · omega
      · split
        · exact mget_below h.2 (by omega)
        · rfl
    · split
      · rfl
      · simp only [mget, ih h.2]

/-- A written key holds what was written. -/
theorem mget_mset_self [DecidableEq α] {d : α} {m : SMap α} (h : mwf d m = true) (k : Nat) (v : α) : mget d (mset d m k v) k = v := by
  unfold mset
  split
  · rename_i hv
    rw [hv]
    exact mget_mdel_self h k
  · exact mget_mput_self d m k v

/-- A written key holds what was written, in any table, unless that is the default. -/
theorem mget_mset_self' [DecidableEq α] {d : α} (m : SMap α) (k : Nat) {v : α} (h : v ≠ d) : mget d (mset d m k v) k = v := by
  simp [mset, h]

/-- Every other key keeps what it held. -/
theorem mget_mset_ne [DecidableEq α] {d : α} {m : SMap α} (h : mwf d m = true) {k j : Nat} (v : α) (hj : j ≠ k) :
    mget d (mset d m k v) j = mget d m j := by
  unfold mset
  split
  · exact mget_mdel_ne h hj
  · exact mget_mput_ne d m v hj

theorem mget_mset [DecidableEq α] {d : α} {m : SMap α} (h : mwf d m = true) (k j : Nat) (v : α) :
    mget d (mset d m k v) j = if j = k then v else mget d m j := by
  split
  · rename_i hj
    rw [hj]
    exact mget_mset_self h k v
  · rename_i hj
    exact mget_mset_ne h v hj

/-! ### Every operation keeps the canonical form -/

@[simp] theorem mwf_nil [DecidableEq α] (d : α) : mwf d ([] : SMap α) = true := rfl

theorem mwfFrom_mput [DecidableEq α] {d : α} {m : SMap α} {lo k : Nat} {v : α} (h : mwfFrom d lo m = true) (hk : lo ≤ k) (hv : v ≠ d) :
    mwfFrom d lo (mput m k v) = true := by
  induction m generalizing lo with
  | nil => simp [mput, mwfFrom, hk, hv]
  | cons e m ih =>
    obtain ⟨j, w⟩ := e
    simp only [mwfFrom, Bool.and_eq_true, decide_eq_true_eq] at h
    simp only [mput]
    split
    · rename_i hj
      subst hj
      simp [mwfFrom, hk, hv, h.2]
    · split
      · rename_i h1 h2
        simp [mwfFrom, hk, hv, h.1.2, h.2]
        omega
      · rename_i h1 h2
        have := ih h.2 (by omega)
        simp [mwfFrom, h.1.1, h.1.2, this]

theorem mwfFrom_mdel [DecidableEq α] {d : α} {m : SMap α} {lo k : Nat} (h : mwfFrom d lo m = true) : mwfFrom d lo (mdel m k) = true := by
  induction m generalizing lo with
  | nil => rfl
  | cons e m ih =>
    obtain ⟨j, w⟩ := e
    have h' := h
    simp only [mwfFrom, Bool.and_eq_true, decide_eq_true_eq] at h
    simp only [mdel]
    split
    · exact mwfFrom_mono h.2 (by omega)
    · split
      · exact h'
      · simp [mwfFrom, h.1.1, h.1.2, ih h.2]

theorem mwf_mset [DecidableEq α] {d : α} {m : SMap α} (h : mwf d m = true) (k : Nat) (v : α) : mwf d (mset d m k v) = true := by
  unfold mset
  split
  · exact mwfFrom_mdel h
  · rename_i hv
    exact mwfFrom_mput h (Nat.zero_le k) hv

theorem mwf_mmod [DecidableEq α] {d : α} {m : SMap α} (h : mwf d m = true) (k : Nat) (f : α → α) : mwf d (mmod d m k f) = true :=
  mwf_mset h k _

theorem mwf_msetList [DecidableEq α] {d : α} {m : SMap α} (h : mwf d m = true) (k : Nat) (vs : List α) : mwf d (msetList d m k vs) = true := by
  induction vs generalizing m k with
  | nil => exact h
  | cons v vs ih => exact ih (mwf_mset h k v) (k + 1)

theorem mwf_mfill [DecidableEq α] {d : α} {m : SMap α} (h : mwf d m = true) (k n : Nat) (v : α) : mwf d (mfill d m k n v) = true := by
  induction n generalizing m k with
  | zero => exact h
  | succ n ih => exact ih (mwf_mset h k v) (k + 1)

theorem mwfFrom_filter [DecidableEq α] {d : α} {m : SMap α} {lo : Nat} (h : mwfFrom d lo m = true) (p : Nat × α → Bool) :
    mwfFrom d lo (m.filter p) = true := by
  induction m generalizing lo with
  | nil => rfl
  | cons e m ih =>
    obtain ⟨j, w⟩ := e
    simp only [mwfFrom, Bool.and_eq_true, decide_eq_true_eq] at h
    rw [List.filter_cons]
    split
    · simp [mwfFrom, h.1.1, h.1.2, ih h.2]
    · exact mwfFrom_mono (ih h.2) (by omega)

theorem mwf_filter [DecidableEq α] {d : α} {m : SMap α} (h : mwf d m = true) (p : Nat × α → Bool) : mwf d (m.filter p) = true :=
  mwfFrom_filter h p

theorem mwf_mclear [DecidableEq α] {d : α} {m : SMap α} (h : mwf d m = true) (lo hi : Nat) : mwf d (mclear m lo hi) = true :=
  mwfFrom_filter h _

theorem mmap_cons [DecidableEq α] (d : α) (f : Nat → α → α) (j : Nat) (w : α) (m : SMap α) :
    mmap d f ((j, w) :: m) = if f j w = d then mmap d f m else (j, f j w) :: mmap d f m := by
  simp only [mmap, List.map_cons, List.filter_cons]
  by_cases h : f j w = d <;> simp [h]

theorem mwfFrom_mmap [DecidableEq α] {d : α} {m : SMap α} {lo : Nat} (h : mwfFrom d lo m = true) (f : Nat → α → α) :
    mwfFrom d lo (mmap d f m) = true := by
  induction m generalizing lo with
  | nil => rfl
  | cons e m ih =>
    obtain ⟨j, w⟩ := e
    simp only [mwfFrom, Bool.and_eq_true, decide_eq_true_eq] at h
    rw [mmap_cons]
    split
    · exact mwfFrom_mono (ih h.2) (by omega)
    · rename_i hv
      simp [mwfFrom, h.1.1, hv, ih h.2]

theorem mwf_mmap [DecidableEq α] {d : α} {m : SMap α} (h : mwf d m = true) (f : Nat → α → α) : mwf d (mmap d f m) = true :=
  mwfFrom_mmap h f

theorem mwfFrom_mlist [DecidableEq α] (d : α) (k : Nat) (vs : List α) : mwfFrom d k (mlist d k vs) = true := by
  induction vs generalizing k with
  | nil => rfl
  | cons v vs ih =>
    simp only [mlist]
    split
    · exact mwfFrom_mono (ih (k + 1)) (by omega)
    · rename_i hv
      simp [mwfFrom, hv, ih (k + 1)]

theorem mwf_mlist [DecidableEq α] (d : α) (k : Nat) (vs : List α) : mwf d (mlist d k vs) = true :=
  mwfFrom_mono (mwfFrom_mlist d k vs) (Nat.zero_le k)

/-! ### Reading what a list, a clearing or a map has written -/

/-- A run of values written at `k` reads back; every other key keeps what it held. -/
theorem mget_msetList [DecidableEq α] {d : α} {m : SMap α} (h : mwf d m = true) (k : Nat) (vs : List α) (j : Nat) :
    mget d (msetList d m k vs) j = if k ≤ j ∧ j < k + vs.length then vs.getD (j - k) d else mget d m j := by
  induction vs generalizing m k with
  | nil => rw [if_neg (by simp only [List.length_nil]; omega)]; rfl
  | cons v vs ih =>
    simp only [msetList, List.length_cons]
    rw [ih (mwf_mset h k v) (k + 1), mget_mset h]
    by_cases hj : j = k
    · subst hj
      rw [if_neg (by omega), if_pos rfl, if_pos (by omega)]
      simp
    · by_cases hr : k + 1 ≤ j ∧ j < k + 1 + vs.length
      · rw [if_pos hr, if_pos (by omega)]
        obtain ⟨n, hn⟩ : ∃ n, j - k = n + 1 := ⟨j - k - 1, by omega⟩
        rw [hn, show j - (k + 1) = n by omega]
        simp
      · rw [if_neg hr, if_neg hj, if_neg (by omega)]

theorem mget_filter [DecidableEq α] {d : α} {m : SMap α} {lo : Nat} (h : mwfFrom d lo m = true) (p : Nat × α → Bool) (k : Nat) :
    mget d (m.filter p) k = if p (k, mget d m k) then mget d m k else d := by
  induction m generalizing lo with
  | nil => exact (ite_self d).symm
  | cons e m ih =>
    obtain ⟨j, w⟩ := e
    simp only [mwfFrom, Bool.and_eq_true, decide_eq_true_eq] at h
    rw [List.filter_cons]
    by_cases hk : k = j
    · subst hk
      by_cases hp : p (k, w) = true
      · simp [mget, hp]
      · have := mget_below (mwfFrom_filter h.2 p) (Nat.lt_succ_self k)
        simp [mget, hp, this]
    · by_cases hlt : k < j
      · have hb := mget_below (mwfFrom_filter h.2 p) (show k < j + 1 by omega)
        split <;> simp [mget, hk, hlt, hb]
      · split <;> simp [mget, hk, hlt, ih h.2]

/-- After clearing a range, keys in it hold the default, the others what they held. -/
theorem mget_mclear [DecidableEq α] {d : α} {m : SMap α} (h : mwf d m = true) (lo hi k : Nat) :
    mget d (mclear m lo hi) k = if k < lo ∨ hi ≤ k then mget d m k else d := by
  rw [mclear, mget_filter h]
  simp

/-- A map whose function keeps the default acts on every key. -/
theorem mget_mmap [DecidableEq α] {d : α} {m : SMap α} {lo : Nat} (h : mwfFrom d lo m = true) (f : Nat → α → α) (k : Nat) (hd : f k d = d) :
    mget d (mmap d f m) k = f k (mget d m k) := by
  induction m generalizing lo with
  | nil => simp [mmap, hd]
  | cons e m ih =>
    obtain ⟨j, w⟩ := e
    simp only [mwfFrom, Bool.and_eq_true, decide_eq_true_eq] at h
    have hb : k < j + 1 → mget d (mmap d f m) k = d := fun hlt => mget_below (mwfFrom_mmap h.2 f) hlt
    rw [mmap_cons]
    by_cases hk : k = j
    · subst hk
      split
      · rename_i hv
        rw [hb (by omega)]
        simp [mget, hv]
      · simp [mget]
    · by_cases hlt : k < j
      · rw [show mget d ((j, w) :: m) k = d by simp [mget, hk, hlt], hd]
        split
        · exact hb (by omega)
        · simp [mget, hk, hlt]
      · rw [show mget d ((j, w) :: m) k = mget d m k by simp [mget, hk, hlt], ← ih h.2]
        split
        · rfl
        · simp [mget, hk, hlt]

end Sys2Proof.Machine
end

