-- ==== Sys2Proof/Laws/State.lean ====
section
/-! SUPPORT. Reading a field after an update: one lemma for each field of each update of the device and of a tile, and what tiles,
strands, partitions and links read after one. -/

set_option Elab.async false

namespace Sys2Proof.Machine

section
variable (s : State)

/-! `setTile` -/
@[simp] theorem State.setTile_pending (t : Nat) (x : Tile) : (s.setTile t x).pending = s.pending := rfl
@[simp] theorem State.setTile_time (t : Nat) (x : Tile) : (s.setTile t x).time = s.time := rfl
@[simp] theorem State.setTile_out (t : Nat) (x : Tile) : (s.setTile t x).out = s.out := rfl
@[simp] theorem State.setTile_tiles (t : Nat) (x : Tile) : (s.setTile t x).tiles = mset Tile.reset s.tiles t x := rfl
@[simp] theorem State.setTile_hbm (t : Nat) (x : Tile) : (s.setTile t x).hbm = s.hbm := rfl
@[simp] theorem State.setTile_hbmErr (t : Nat) (x : Tile) : (s.setTile t x).hbmErr = s.hbmErr := rfl
@[simp] theorem State.setTile_hbmPoison (t : Nat) (x : Tile) : (s.setTile t x).hbmPoison = s.hbmPoison := rfl
@[simp] theorem State.setTile_hbmScrub (t : Nat) (x : Tile) : (s.setTile t x).hbmScrub = s.hbmScrub := rfl
@[simp] theorem State.setTile_engines (t : Nat) (x : Tile) : (s.setTile t x).engines = s.engines := rfl
@[simp] theorem State.setTile_parts (t : Nat) (x : Tile) : (s.setTile t x).parts = s.parts := rfl
@[simp] theorem State.setTile_sigs (t : Nat) (x : Tile) : (s.setTile t x).sigs = s.sigs := rfl
@[simp] theorem State.setTile_stageMsgs (t : Nat) (x : Tile) : (s.setTile t x).stageMsgs = s.stageMsgs := rfl
@[simp] theorem State.setTile_book (t : Nat) (x : Tile) : (s.setTile t x).book = s.book := rfl
@[simp] theorem State.setTile_links (t : Nat) (x : Tile) : (s.setTile t x).links = s.links := rfl
@[simp] theorem State.setTile_capstans (t : Nat) (x : Tile) : (s.setTile t x).capstans = s.capstans := rfl
@[simp] theorem State.setTile_free (t : Nat) (x : Tile) : (s.setTile t x).free = s.free := rfl
@[simp] theorem State.setTile_coord (t : Nat) (x : Tile) : (s.setTile t x).coord = s.coord := rfl
@[simp] theorem State.setTile_adm (t : Nat) (x : Tile) : (s.setTile t x).adm = s.adm := rfl
@[simp] theorem State.setTile_dumps (t : Nat) (x : Tile) : (s.setTile t x).dumps = s.dumps := rfl
@[simp] theorem State.setTile_check (t : Nat) (x : Tile) : (s.setTile t x).check = s.check := rfl
@[simp] theorem State.setTile_dlUp (t : Nat) (x : Tile) : (s.setTile t x).dlUp = s.dlUp := rfl
@[simp] theorem State.setTile_decls (t : Nat) (x : Tile) : (s.setTile t x).decls = s.decls := rfl
@[simp] theorem State.setTile_spareAs (t : Nat) (x : Tile) : (s.setTile t x).spareAs = s.spareAs := rfl
@[simp] theorem State.setTile_relayed (t : Nat) (x : Tile) : (s.setTile t x).relayed = s.relayed := rfl
@[simp] theorem State.setTile_stripe (t : Nat) (x : Tile) : (s.setTile t x).stripe = s.stripe := rfl
@[simp] theorem State.setTile_tackUp (t : Nat) (x : Tile) : (s.setTile t x).tackUp = s.tackUp := rfl
@[simp] theorem State.setTile_mast (t : Nat) (x : Tile) : (s.setTile t x).mast = s.mast := rfl
@[simp] theorem State.setTile_clk (t : Nat) (x : Tile) : (s.setTile t x).clk = s.clk := rfl
@[simp] theorem State.setTile_cad (t : Nat) (x : Tile) : (s.setTile t x).cad = s.cad := rfl
@[simp] theorem State.setTile_pkg (t : Nat) (x : Tile) : (s.setTile t x).pkg = s.pkg := rfl
@[simp] theorem State.setTile_vcWeight (t : Nat) (x : Tile) : (s.setTile t x).vcWeight = s.vcWeight := rfl
@[simp] theorem State.setTile_lossMs (t : Nat) (x : Tile) : (s.setTile t x).lossMs = s.lossMs := rfl
@[simp] theorem State.setTile_lnkSsc (t : Nat) (x : Tile) : (s.setTile t x).lnkSsc = s.lnkSsc := rfl
@[simp] theorem State.setTile_sscForce (t : Nat) (x : Tile) : (s.setTile t x).sscForce = s.sscForce := rfl
@[simp] theorem State.setTile_latchRead (t : Nat) (x : Tile) : (s.setTile t x).latchRead = s.latchRead := rfl
@[simp] theorem State.setTile_latchWrite (t : Nat) (x : Tile) : (s.setTile t x).latchWrite = s.latchWrite := rfl
@[simp] theorem State.setTile_pfWindow (t : Nat) (x : Tile) : (s.setTile t x).pfWindow = s.pfWindow := rfl
@[simp] theorem State.setTile_pci (t : Nat) (x : Tile) : (s.setTile t x).pci = s.pci := rfl

@[simp] theorem State.setTile_part (t : Nat) (x : Tile) (q : Nat) : (s.setTile t x).part q = s.part q := rfl
@[simp] theorem State.setTile_link (t : Nat) (x : Tile) (j : Nat) : (s.setTile t x).link j = s.link j := rfl

/-! `modTile` -/
@[simp] theorem State.modTile_pending (t : Nat) (f : Tile → Tile) : (s.modTile t f).pending = s.pending := rfl
@[simp] theorem State.modTile_time (t : Nat) (f : Tile → Tile) : (s.modTile t f).time = s.time := rfl
@[simp] theorem State.modTile_out (t : Nat) (f : Tile → Tile) : (s.modTile t f).out = s.out := rfl
@[simp] theorem State.modTile_hbm (t : Nat) (f : Tile → Tile) : (s.modTile t f).hbm = s.hbm := rfl
@[simp] theorem State.modTile_hbmErr (t : Nat) (f : Tile → Tile) : (s.modTile t f).hbmErr = s.hbmErr := rfl
@[simp] theorem State.modTile_hbmPoison (t : Nat) (f : Tile → Tile) : (s.modTile t f).hbmPoison = s.hbmPoison := rfl
@[simp] theorem State.modTile_hbmScrub (t : Nat) (f : Tile → Tile) : (s.modTile t f).hbmScrub = s.hbmScrub := rfl
@[simp] theorem State.modTile_engines (t : Nat) (f : Tile → Tile) : (s.modTile t f).engines = s.engines := rfl
@[simp] theorem State.modTile_parts (t : Nat) (f : Tile → Tile) : (s.modTile t f).parts = s.parts := rfl
@[simp] theorem State.modTile_sigs (t : Nat) (f : Tile → Tile) : (s.modTile t f).sigs = s.sigs := rfl
@[simp] theorem State.modTile_stageMsgs (t : Nat) (f : Tile → Tile) : (s.modTile t f).stageMsgs = s.stageMsgs := rfl
@[simp] theorem State.modTile_book (t : Nat) (f : Tile → Tile) : (s.modTile t f).book = s.book := rfl
@[simp] theorem State.modTile_links (t : Nat) (f : Tile → Tile) : (s.modTile t f).links = s.links := rfl
@[simp] theorem State.modTile_capstans (t : Nat) (f : Tile → Tile) : (s.modTile t f).capstans = s.capstans := rfl
@[simp] theorem State.modTile_free (t : Nat) (f : Tile → Tile) : (s.modTile t f).free = s.free := rfl
@[simp] theorem State.modTile_coord (t : Nat) (f : Tile → Tile) : (s.modTile t f).coord = s.coord := rfl
@[simp] theorem State.modTile_adm (t : Nat) (f : Tile → Tile) : (s.modTile t f).adm = s.adm := rfl
@[simp] theorem State.modTile_dumps (t : Nat) (f : Tile → Tile) : (s.modTile t f).dumps = s.dumps := rfl
@[simp] theorem State.modTile_check (t : Nat) (f : Tile → Tile) : (s.modTile t f).check = s.check := rfl
@[simp] theorem State.modTile_dlUp (t : Nat) (f : Tile → Tile) : (s.modTile t f).dlUp = s.dlUp := rfl
@[simp] theorem State.modTile_decls (t : Nat) (f : Tile → Tile) : (s.modTile t f).decls = s.decls := rfl
@[simp] theorem State.modTile_spareAs (t : Nat) (f : Tile → Tile) : (s.modTile t f).spareAs = s.spareAs := rfl
@[simp] theorem State.modTile_relayed (t : Nat) (f : Tile → Tile) : (s.modTile t f).relayed = s.relayed := rfl
@[simp] theorem State.modTile_stripe (t : Nat) (f : Tile → Tile) : (s.modTile t f).stripe = s.stripe := rfl
@[simp] theorem State.modTile_tackUp (t : Nat) (f : Tile → Tile) : (s.modTile t f).tackUp = s.tackUp := rfl
@[simp] theorem State.modTile_mast (t : Nat) (f : Tile → Tile) : (s.modTile t f).mast = s.mast := rfl
@[simp] theorem State.modTile_clk (t : Nat) (f : Tile → Tile) : (s.modTile t f).clk = s.clk := rfl
@[simp] theorem State.modTile_cad (t : Nat) (f : Tile → Tile) : (s.modTile t f).cad = s.cad := rfl
@[simp] theorem State.modTile_pkg (t : Nat) (f : Tile → Tile) : (s.modTile t f).pkg = s.pkg := rfl
@[simp] theorem State.modTile_vcWeight (t : Nat) (f : Tile → Tile) : (s.modTile t f).vcWeight = s.vcWeight := rfl
@[simp] theorem State.modTile_lossMs (t : Nat) (f : Tile → Tile) : (s.modTile t f).lossMs = s.lossMs := rfl
@[simp] theorem State.modTile_lnkSsc (t : Nat) (f : Tile → Tile) : (s.modTile t f).lnkSsc = s.lnkSsc := rfl
@[simp] theorem State.modTile_sscForce (t : Nat) (f : Tile → Tile) : (s.modTile t f).sscForce = s.sscForce := rfl
@[simp] theorem State.modTile_latchRead (t : Nat) (f : Tile → Tile) : (s.modTile t f).latchRead = s.latchRead := rfl
@[simp] theorem State.modTile_latchWrite (t : Nat) (f : Tile → Tile) : (s.modTile t f).latchWrite = s.latchWrite := rfl
@[simp] theorem State.modTile_pfWindow (t : Nat) (f : Tile → Tile) : (s.modTile t f).pfWindow = s.pfWindow := rfl
@[simp] theorem State.modTile_pci (t : Nat) (f : Tile → Tile) : (s.modTile t f).pci = s.pci := rfl

@[simp] theorem State.modTile_part (t : Nat) (f : Tile → Tile) (q : Nat) : (s.modTile t f).part q = s.part q := rfl
@[simp] theorem State.modTile_link (t : Nat) (f : Tile → Tile) (j : Nat) : (s.modTile t f).link j = s.link j := rfl

/-! `modStrand` -/
@[simp] theorem State.modStrand_pending (t k : Nat) (f : Strand → Strand) : (s.modStrand t k f).pending = s.pending := rfl
@[simp] theorem State.modStrand_time (t k : Nat) (f : Strand → Strand) : (s.modStrand t k f).time = s.time := rfl
@[simp] theorem State.modStrand_out (t k : Nat) (f : Strand → Strand) : (s.modStrand t k f).out = s.out := rfl
@[simp] theorem State.modStrand_hbm (t k : Nat) (f : Strand → Strand) : (s.modStrand t k f).hbm = s.hbm := rfl
@[simp] theorem State.modStrand_hbmErr (t k : Nat) (f : Strand → Strand) : (s.modStrand t k f).hbmErr = s.hbmErr := rfl
@[simp] theorem State.modStrand_hbmPoison (t k : Nat) (f : Strand → Strand) : (s.modStrand t k f).hbmPoison = s.hbmPoison := rfl
@[simp] theorem State.modStrand_hbmScrub (t k : Nat) (f : Strand → Strand) : (s.modStrand t k f).hbmScrub = s.hbmScrub := rfl
@[simp] theorem State.modStrand_engines (t k : Nat) (f : Strand → Strand) : (s.modStrand t k f).engines = s.engines := rfl
@[simp] theorem State.modStrand_parts (t k : Nat) (f : Strand → Strand) : (s.modStrand t k f).parts = s.parts := rfl
@[simp] theorem State.modStrand_sigs (t k : Nat) (f : Strand → Strand) : (s.modStrand t k f).sigs = s.sigs := rfl
@[simp] theorem State.modStrand_stageMsgs (t k : Nat) (f : Strand → Strand) : (s.modStrand t k f).stageMsgs = s.stageMsgs := rfl
@[simp] theorem State.modStrand_book (t k : Nat) (f : Strand → Strand) : (s.modStrand t k f).book = s.book := rfl
@[simp] theorem State.modStrand_links (t k : Nat) (f : Strand → Strand) : (s.modStrand t k f).links = s.links := rfl
@[simp] theorem State.modStrand_capstans (t k : Nat) (f : Strand → Strand) : (s.modStrand t k f).capstans = s.capstans := rfl
@[simp] theorem State.modStrand_free (t k : Nat) (f : Strand → Strand) : (s.modStrand t k f).free = s.free := rfl
@[simp] theorem State.modStrand_coord (t k : Nat) (f : Strand → Strand) : (s.modStrand t k f).coord = s.coord := rfl
@[simp] theorem State.modStrand_adm (t k : Nat) (f : Strand → Strand) : (s.modStrand t k f).adm = s.adm := rfl
@[simp] theorem State.modStrand_dumps (t k : Nat) (f : Strand → Strand) : (s.modStrand t k f).dumps = s.dumps := rfl
@[simp] theorem State.modStrand_check (t k : Nat) (f : Strand → Strand) : (s.modStrand t k f).check = s.check := rfl
@[simp] theorem State.modStrand_dlUp (t k : Nat) (f : Strand → Strand) : (s.modStrand t k f).dlUp = s.dlUp := rfl
@[simp] theorem State.modStrand_decls (t k : Nat) (f : Strand → Strand) : (s.modStrand t k f).decls = s.decls := rfl
@[simp] theorem State.modStrand_spareAs (t k : Nat) (f : Strand → Strand) : (s.modStrand t k f).spareAs = s.spareAs := rfl
@[simp] theorem State.modStrand_relayed (t k : Nat) (f : Strand → Strand) : (s.modStrand t k f).relayed = s.relayed := rfl
@[simp] theorem State.modStrand_stripe (t k : Nat) (f : Strand → Strand) : (s.modStrand t k f).stripe = s.stripe := rfl
@[simp] theorem State.modStrand_tackUp (t k : Nat) (f : Strand → Strand) : (s.modStrand t k f).tackUp = s.tackUp := rfl
@[simp] theorem State.modStrand_mast (t k : Nat) (f : Strand → Strand) : (s.modStrand t k f).mast = s.mast := rfl
@[simp] theorem State.modStrand_clk (t k : Nat) (f : Strand → Strand) : (s.modStrand t k f).clk = s.clk := rfl
@[simp] theorem State.modStrand_cad (t k : Nat) (f : Strand → Strand) : (s.modStrand t k f).cad = s.cad := rfl
@[simp] theorem State.modStrand_pkg (t k : Nat) (f : Strand → Strand) : (s.modStrand t k f).pkg = s.pkg := rfl
@[simp] theorem State.modStrand_vcWeight (t k : Nat) (f : Strand → Strand) : (s.modStrand t k f).vcWeight = s.vcWeight := rfl
@[simp] theorem State.modStrand_lossMs (t k : Nat) (f : Strand → Strand) : (s.modStrand t k f).lossMs = s.lossMs := rfl
@[simp] theorem State.modStrand_lnkSsc (t k : Nat) (f : Strand → Strand) : (s.modStrand t k f).lnkSsc = s.lnkSsc := rfl
@[simp] theorem State.modStrand_sscForce (t k : Nat) (f : Strand → Strand) : (s.modStrand t k f).sscForce = s.sscForce := rfl
@[simp] theorem State.modStrand_latchRead (t k : Nat) (f : Strand → Strand) : (s.modStrand t k f).latchRead = s.latchRead := rfl
@[simp] theorem State.modStrand_latchWrite (t k : Nat) (f : Strand → Strand) : (s.modStrand t k f).latchWrite = s.latchWrite := rfl
@[simp] theorem State.modStrand_pfWindow (t k : Nat) (f : Strand → Strand) : (s.modStrand t k f).pfWindow = s.pfWindow := rfl
@[simp] theorem State.modStrand_pci (t k : Nat) (f : Strand → Strand) : (s.modStrand t k f).pci = s.pci := rfl

@[simp] theorem State.modStrand_part (t k : Nat) (f : Strand → Strand) (q : Nat) : (s.modStrand t k f).part q = s.part q := rfl
@[simp] theorem State.modStrand_link (t k : Nat) (f : Strand → Strand) (j : Nat) : (s.modStrand t k f).link j = s.link j := rfl

/-! `setPart` -/
@[simp] theorem State.setPart_pending (p : Nat) (x : Part) : (s.setPart p x).pending = s.pending := rfl
@[simp] theorem State.setPart_time (p : Nat) (x : Part) : (s.setPart p x).time = s.time := rfl
@[simp] theorem State.setPart_out (p : Nat) (x : Part) : (s.setPart p x).out = s.out := rfl
@[simp] theorem State.setPart_tiles (p : Nat) (x : Part) : (s.setPart p x).tiles = s.tiles := rfl
@[simp] theorem State.setPart_hbm (p : Nat) (x : Part) : (s.setPart p x).hbm = s.hbm := rfl
@[simp] theorem State.setPart_hbmErr (p : Nat) (x : Part) : (s.setPart p x).hbmErr = s.hbmErr := rfl
@[simp] theorem State.setPart_hbmPoison (p : Nat) (x : Part) : (s.setPart p x).hbmPoison = s.hbmPoison := rfl
@[simp] theorem State.setPart_hbmScrub (p : Nat) (x : Part) : (s.setPart p x).hbmScrub = s.hbmScrub := rfl
@[simp] theorem State.setPart_engines (p : Nat) (x : Part) : (s.setPart p x).engines = s.engines := rfl
@[simp] theorem State.setPart_parts (p : Nat) (x : Part) : (s.setPart p x).parts = mset Part.reset s.parts p x := rfl
@[simp] theorem State.setPart_sigs (p : Nat) (x : Part) : (s.setPart p x).sigs = s.sigs := rfl
@[simp] theorem State.setPart_stageMsgs (p : Nat) (x : Part) : (s.setPart p x).stageMsgs = s.stageMsgs := rfl
@[simp] theorem State.setPart_book (p : Nat) (x : Part) : (s.setPart p x).book = s.book := rfl
@[simp] theorem State.setPart_links (p : Nat) (x : Part) : (s.setPart p x).links = s.links := rfl
@[simp] theorem State.setPart_capstans (p : Nat) (x : Part) : (s.setPart p x).capstans = s.capstans := rfl
@[simp] theorem State.setPart_free (p : Nat) (x : Part) : (s.setPart p x).free = s.free := rfl
@[simp] theorem State.setPart_coord (p : Nat) (x : Part) : (s.setPart p x).coord = s.coord := rfl
@[simp] theorem State.setPart_adm (p : Nat) (x : Part) : (s.setPart p x).adm = s.adm := rfl
@[simp] theorem State.setPart_dumps (p : Nat) (x : Part) : (s.setPart p x).dumps = s.dumps := rfl
@[simp] theorem State.setPart_check (p : Nat) (x : Part) : (s.setPart p x).check = s.check := rfl
@[simp] theorem State.setPart_dlUp (p : Nat) (x : Part) : (s.setPart p x).dlUp = s.dlUp := rfl
@[simp] theorem State.setPart_decls (p : Nat) (x : Part) : (s.setPart p x).decls = s.decls := rfl
@[simp] theorem State.setPart_spareAs (p : Nat) (x : Part) : (s.setPart p x).spareAs = s.spareAs := rfl
@[simp] theorem State.setPart_relayed (p : Nat) (x : Part) : (s.setPart p x).relayed = s.relayed := rfl
@[simp] theorem State.setPart_stripe (p : Nat) (x : Part) : (s.setPart p x).stripe = s.stripe := rfl
@[simp] theorem State.setPart_tackUp (p : Nat) (x : Part) : (s.setPart p x).tackUp = s.tackUp := rfl
@[simp] theorem State.setPart_mast (p : Nat) (x : Part) : (s.setPart p x).mast = s.mast := rfl
@[simp] theorem State.setPart_clk (p : Nat) (x : Part) : (s.setPart p x).clk = s.clk := rfl
@[simp] theorem State.setPart_cad (p : Nat) (x : Part) : (s.setPart p x).cad = s.cad := rfl
@[simp] theorem State.setPart_pkg (p : Nat) (x : Part) : (s.setPart p x).pkg = s.pkg := rfl
@[simp] theorem State.setPart_vcWeight (p : Nat) (x : Part) : (s.setPart p x).vcWeight = s.vcWeight := rfl
@[simp] theorem State.setPart_lossMs (p : Nat) (x : Part) : (s.setPart p x).lossMs = s.lossMs := rfl
@[simp] theorem State.setPart_lnkSsc (p : Nat) (x : Part) : (s.setPart p x).lnkSsc = s.lnkSsc := rfl
@[simp] theorem State.setPart_sscForce (p : Nat) (x : Part) : (s.setPart p x).sscForce = s.sscForce := rfl
@[simp] theorem State.setPart_latchRead (p : Nat) (x : Part) : (s.setPart p x).latchRead = s.latchRead := rfl
@[simp] theorem State.setPart_latchWrite (p : Nat) (x : Part) : (s.setPart p x).latchWrite = s.latchWrite := rfl
@[simp] theorem State.setPart_pfWindow (p : Nat) (x : Part) : (s.setPart p x).pfWindow = s.pfWindow := rfl
@[simp] theorem State.setPart_pci (p : Nat) (x : Part) : (s.setPart p x).pci = s.pci := rfl

@[simp] theorem State.setPart_tile (p : Nat) (x : Part) (u : Nat) : (s.setPart p x).tile u = s.tile u := rfl
@[simp] theorem State.setPart_link (p : Nat) (x : Part) (j : Nat) : (s.setPart p x).link j = s.link j := rfl

/-! `modPart` -/
@[simp] theorem State.modPart_pending (p : Nat) (f : Part → Part) : (s.modPart p f).pending = s.pending := rfl
@[simp] theorem State.modPart_time (p : Nat) (f : Part → Part) : (s.modPart p f).time = s.time := rfl
@[simp] theorem State.modPart_out (p : Nat) (f : Part → Part) : (s.modPart p f).out = s.out := rfl
@[simp] theorem State.modPart_tiles (p : Nat) (f : Part → Part) : (s.modPart p f).tiles = s.tiles := rfl
@[simp] theorem State.modPart_hbm (p : Nat) (f : Part → Part) : (s.modPart p f).hbm = s.hbm := rfl
@[simp] theorem State.modPart_hbmErr (p : Nat) (f : Part → Part) : (s.modPart p f).hbmErr = s.hbmErr := rfl
@[simp] theorem State.modPart_hbmPoison (p : Nat) (f : Part → Part) : (s.modPart p f).hbmPoison = s.hbmPoison := rfl
@[simp] theorem State.modPart_hbmScrub (p : Nat) (f : Part → Part) : (s.modPart p f).hbmScrub = s.hbmScrub := rfl
@[simp] theorem State.modPart_engines (p : Nat) (f : Part → Part) : (s.modPart p f).engines = s.engines := rfl
@[simp] theorem State.modPart_sigs (p : Nat) (f : Part → Part) : (s.modPart p f).sigs = s.sigs := rfl
@[simp] theorem State.modPart_stageMsgs (p : Nat) (f : Part → Part) : (s.modPart p f).stageMsgs = s.stageMsgs := rfl
@[simp] theorem State.modPart_book (p : Nat) (f : Part → Part) : (s.modPart p f).book = s.book := rfl
@[simp] theorem State.modPart_links (p : Nat) (f : Part → Part) : (s.modPart p f).links = s.links := rfl
@[simp] theorem State.modPart_capstans (p : Nat) (f : Part → Part) : (s.modPart p f).capstans = s.capstans := rfl
@[simp] theorem State.modPart_free (p : Nat) (f : Part → Part) : (s.modPart p f).free = s.free := rfl
@[simp] theorem State.modPart_coord (p : Nat) (f : Part → Part) : (s.modPart p f).coord = s.coord := rfl
@[simp] theorem State.modPart_adm (p : Nat) (f : Part → Part) : (s.modPart p f).adm = s.adm := rfl
@[simp] theorem State.modPart_dumps (p : Nat) (f : Part → Part) : (s.modPart p f).dumps = s.dumps := rfl
@[simp] theorem State.modPart_check (p : Nat) (f : Part → Part) : (s.modPart p f).check = s.check := rfl
@[simp] theorem State.modPart_dlUp (p : Nat) (f : Part → Part) : (s.modPart p f).dlUp = s.dlUp := rfl
@[simp] theorem State.modPart_decls (p : Nat) (f : Part → Part) : (s.modPart p f).decls = s.decls := rfl
@[simp] theorem State.modPart_spareAs (p : Nat) (f : Part → Part) : (s.modPart p f).spareAs = s.spareAs := rfl
@[simp] theorem State.modPart_relayed (p : Nat) (f : Part → Part) : (s.modPart p f).relayed = s.relayed := rfl
@[simp] theorem State.modPart_stripe (p : Nat) (f : Part → Part) : (s.modPart p f).stripe = s.stripe := rfl
@[simp] theorem State.modPart_tackUp (p : Nat) (f : Part → Part) : (s.modPart p f).tackUp = s.tackUp := rfl
@[simp] theorem State.modPart_mast (p : Nat) (f : Part → Part) : (s.modPart p f).mast = s.mast := rfl
@[simp] theorem State.modPart_clk (p : Nat) (f : Part → Part) : (s.modPart p f).clk = s.clk := rfl
@[simp] theorem State.modPart_cad (p : Nat) (f : Part → Part) : (s.modPart p f).cad = s.cad := rfl
@[simp] theorem State.modPart_pkg (p : Nat) (f : Part → Part) : (s.modPart p f).pkg = s.pkg := rfl
@[simp] theorem State.modPart_vcWeight (p : Nat) (f : Part → Part) : (s.modPart p f).vcWeight = s.vcWeight := rfl
@[simp] theorem State.modPart_lossMs (p : Nat) (f : Part → Part) : (s.modPart p f).lossMs = s.lossMs := rfl
@[simp] theorem State.modPart_lnkSsc (p : Nat) (f : Part → Part) : (s.modPart p f).lnkSsc = s.lnkSsc := rfl
@[simp] theorem State.modPart_sscForce (p : Nat) (f : Part → Part) : (s.modPart p f).sscForce = s.sscForce := rfl
@[simp] theorem State.modPart_latchRead (p : Nat) (f : Part → Part) : (s.modPart p f).latchRead = s.latchRead := rfl
@[simp] theorem State.modPart_latchWrite (p : Nat) (f : Part → Part) : (s.modPart p f).latchWrite = s.latchWrite := rfl
@[simp] theorem State.modPart_pfWindow (p : Nat) (f : Part → Part) : (s.modPart p f).pfWindow = s.pfWindow := rfl
@[simp] theorem State.modPart_pci (p : Nat) (f : Part → Part) : (s.modPart p f).pci = s.pci := rfl

@[simp] theorem State.modPart_tile (p : Nat) (f : Part → Part) (u : Nat) : (s.modPart p f).tile u = s.tile u := rfl
@[simp] theorem State.modPart_link (p : Nat) (f : Part → Part) (j : Nat) : (s.modPart p f).link j = s.link j := rfl

/-! `modNum` -/
@[simp] theorem State.modNum_pending (p : Nat) (f : Numerics → Numerics) : (s.modNum p f).pending = s.pending := rfl
@[simp] theorem State.modNum_time (p : Nat) (f : Numerics → Numerics) : (s.modNum p f).time = s.time := rfl
@[simp] theorem State.modNum_out (p : Nat) (f : Numerics → Numerics) : (s.modNum p f).out = s.out := rfl
@[simp] theorem State.modNum_tiles (p : Nat) (f : Numerics → Numerics) : (s.modNum p f).tiles = s.tiles := rfl
@[simp] theorem State.modNum_hbm (p : Nat) (f : Numerics → Numerics) : (s.modNum p f).hbm = s.hbm := rfl
@[simp] theorem State.modNum_hbmErr (p : Nat) (f : Numerics → Numerics) : (s.modNum p f).hbmErr = s.hbmErr := rfl
@[simp] theorem State.modNum_hbmPoison (p : Nat) (f : Numerics → Numerics) : (s.modNum p f).hbmPoison = s.hbmPoison := rfl
@[simp] theorem State.modNum_hbmScrub (p : Nat) (f : Numerics → Numerics) : (s.modNum p f).hbmScrub = s.hbmScrub := rfl
@[simp] theorem State.modNum_engines (p : Nat) (f : Numerics → Numerics) : (s.modNum p f).engines = s.engines := rfl
@[simp] theorem State.modNum_sigs (p : Nat) (f : Numerics → Numerics) : (s.modNum p f).sigs = s.sigs := rfl
@[simp] theorem State.modNum_stageMsgs (p : Nat) (f : Numerics → Numerics) : (s.modNum p f).stageMsgs = s.stageMsgs := rfl
@[simp] theorem State.modNum_book (p : Nat) (f : Numerics → Numerics) : (s.modNum p f).book = s.book := rfl
@[simp] theorem State.modNum_links (p : Nat) (f : Numerics → Numerics) : (s.modNum p f).links = s.links := rfl
@[simp] theorem State.modNum_capstans (p : Nat) (f : Numerics → Numerics) : (s.modNum p f).capstans = s.capstans := rfl
@[simp] theorem State.modNum_free (p : Nat) (f : Numerics → Numerics) : (s.modNum p f).free = s.free := rfl
@[simp] theorem State.modNum_coord (p : Nat) (f : Numerics → Numerics) : (s.modNum p f).coord = s.coord := rfl
@[simp] theorem State.modNum_adm (p : Nat) (f : Numerics → Numerics) : (s.modNum p f).adm = s.adm := rfl
@[simp] theorem State.modNum_dumps (p : Nat) (f : Numerics → Numerics) : (s.modNum p f).dumps = s.dumps := rfl
@[simp] theorem State.modNum_check (p : Nat) (f : Numerics → Numerics) : (s.modNum p f).check = s.check := rfl
@[simp] theorem State.modNum_dlUp (p : Nat) (f : Numerics → Numerics) : (s.modNum p f).dlUp = s.dlUp := rfl
@[simp] theorem State.modNum_decls (p : Nat) (f : Numerics → Numerics) : (s.modNum p f).decls = s.decls := rfl
@[simp] theorem State.modNum_spareAs (p : Nat) (f : Numerics → Numerics) : (s.modNum p f).spareAs = s.spareAs := rfl
@[simp] theorem State.modNum_relayed (p : Nat) (f : Numerics → Numerics) : (s.modNum p f).relayed = s.relayed := rfl
@[simp] theorem State.modNum_stripe (p : Nat) (f : Numerics → Numerics) : (s.modNum p f).stripe = s.stripe := rfl
@[simp] theorem State.modNum_tackUp (p : Nat) (f : Numerics → Numerics) : (s.modNum p f).tackUp = s.tackUp := rfl
@[simp] theorem State.modNum_mast (p : Nat) (f : Numerics → Numerics) : (s.modNum p f).mast = s.mast := rfl
@[simp] theorem State.modNum_clk (p : Nat) (f : Numerics → Numerics) : (s.modNum p f).clk = s.clk := rfl
@[simp] theorem State.modNum_cad (p : Nat) (f : Numerics → Numerics) : (s.modNum p f).cad = s.cad := rfl
@[simp] theorem State.modNum_pkg (p : Nat) (f : Numerics → Numerics) : (s.modNum p f).pkg = s.pkg := rfl
@[simp] theorem State.modNum_vcWeight (p : Nat) (f : Numerics → Numerics) : (s.modNum p f).vcWeight = s.vcWeight := rfl
@[simp] theorem State.modNum_lossMs (p : Nat) (f : Numerics → Numerics) : (s.modNum p f).lossMs = s.lossMs := rfl
@[simp] theorem State.modNum_lnkSsc (p : Nat) (f : Numerics → Numerics) : (s.modNum p f).lnkSsc = s.lnkSsc := rfl
@[simp] theorem State.modNum_sscForce (p : Nat) (f : Numerics → Numerics) : (s.modNum p f).sscForce = s.sscForce := rfl
@[simp] theorem State.modNum_latchRead (p : Nat) (f : Numerics → Numerics) : (s.modNum p f).latchRead = s.latchRead := rfl
@[simp] theorem State.modNum_latchWrite (p : Nat) (f : Numerics → Numerics) : (s.modNum p f).latchWrite = s.latchWrite := rfl
@[simp] theorem State.modNum_pfWindow (p : Nat) (f : Numerics → Numerics) : (s.modNum p f).pfWindow = s.pfWindow := rfl
@[simp] theorem State.modNum_pci (p : Nat) (f : Numerics → Numerics) : (s.modNum p f).pci = s.pci := rfl

@[simp] theorem State.modNum_tile (p : Nat) (f : Numerics → Numerics) (u : Nat) : (s.modNum p f).tile u = s.tile u := rfl
@[simp] theorem State.modNum_link (p : Nat) (f : Numerics → Numerics) (j : Nat) : (s.modNum p f).link j = s.link j := rfl

/-! `send` -/
@[simp] theorem State.send_pending (m : Msg) : (s.send m).pending = s.pending := rfl
@[simp] theorem State.send_time (m : Msg) : (s.send m).time = s.time := rfl
@[simp] theorem State.send_out (m : Msg) : (s.send m).out = m :: s.out := rfl
@[simp] theorem State.send_tiles (m : Msg) : (s.send m).tiles = s.tiles := rfl
@[simp] theorem State.send_hbm (m : Msg) : (s.send m).hbm = s.hbm := rfl
@[simp] theorem State.send_hbmErr (m : Msg) : (s.send m).hbmErr = s.hbmErr := rfl
@[simp] theorem State.send_hbmPoison (m : Msg) : (s.send m).hbmPoison = s.hbmPoison := rfl
@[simp] theorem State.send_hbmScrub (m : Msg) : (s.send m).hbmScrub = s.hbmScrub := rfl
@[simp] theorem State.send_engines (m : Msg) : (s.send m).engines = s.engines := rfl
@[simp] theorem State.send_parts (m : Msg) : (s.send m).parts = s.parts := rfl
@[simp] theorem State.send_sigs (m : Msg) : (s.send m).sigs = s.sigs := rfl
@[simp] theorem State.send_stageMsgs (m : Msg) : (s.send m).stageMsgs = s.stageMsgs := rfl
@[simp] theorem State.send_book (m : Msg) : (s.send m).book = s.book := rfl
@[simp] theorem State.send_links (m : Msg) : (s.send m).links = s.links := rfl
@[simp] theorem State.send_capstans (m : Msg) : (s.send m).capstans = s.capstans := rfl
@[simp] theorem State.send_free (m : Msg) : (s.send m).free = s.free := rfl
@[simp] theorem State.send_coord (m : Msg) : (s.send m).coord = s.coord := rfl
@[simp] theorem State.send_adm (m : Msg) : (s.send m).adm = s.adm := rfl
@[simp] theorem State.send_dumps (m : Msg) : (s.send m).dumps = s.dumps := rfl
@[simp] theorem State.send_check (m : Msg) : (s.send m).check = s.check := rfl
@[simp] theorem State.send_dlUp (m : Msg) : (s.send m).dlUp = s.dlUp := rfl
@[simp] theorem State.send_decls (m : Msg) : (s.send m).decls = s.decls := rfl
@[simp] theorem State.send_spareAs (m : Msg) : (s.send m).spareAs = s.spareAs := rfl
@[simp] theorem State.send_relayed (m : Msg) : (s.send m).relayed = s.relayed := rfl
@[simp] theorem State.send_stripe (m : Msg) : (s.send m).stripe = s.stripe := rfl
@[simp] theorem State.send_tackUp (m : Msg) : (s.send m).tackUp = s.tackUp := rfl
@[simp] theorem State.send_mast (m : Msg) : (s.send m).mast = s.mast := rfl
@[simp] theorem State.send_clk (m : Msg) : (s.send m).clk = s.clk := rfl
@[simp] theorem State.send_cad (m : Msg) : (s.send m).cad = s.cad := rfl
@[simp] theorem State.send_pkg (m : Msg) : (s.send m).pkg = s.pkg := rfl
@[simp] theorem State.send_vcWeight (m : Msg) : (s.send m).vcWeight = s.vcWeight := rfl
@[simp] theorem State.send_lossMs (m : Msg) : (s.send m).lossMs = s.lossMs := rfl
@[simp] theorem State.send_lnkSsc (m : Msg) : (s.send m).lnkSsc = s.lnkSsc := rfl
@[simp] theorem State.send_sscForce (m : Msg) : (s.send m).sscForce = s.sscForce := rfl
@[simp] theorem State.send_latchRead (m : Msg) : (s.send m).latchRead = s.latchRead := rfl
@[simp] theorem State.send_latchWrite (m : Msg) : (s.send m).latchWrite = s.latchWrite := rfl
@[simp] theorem State.send_pfWindow (m : Msg) : (s.send m).pfWindow = s.pfWindow := rfl
@[simp] theorem State.send_pci (m : Msg) : (s.send m).pci = s.pci := rfl

@[simp] theorem State.send_tile (m : Msg) (u : Nat) : (s.send m).tile u = s.tile u := rfl
@[simp] theorem State.send_part (m : Msg) (q : Nat) : (s.send m).part q = s.part q := rfl
@[simp] theorem State.send_link (m : Msg) (j : Nat) : (s.send m).link j = s.link j := rfl

/-! `setLink` -/
@[simp] theorem State.setLink_pending (n : Nat) (l : Link) : (s.setLink n l).pending = s.pending := rfl
@[simp] theorem State.setLink_time (n : Nat) (l : Link) : (s.setLink n l).time = s.time := rfl
@[simp] theorem State.setLink_out (n : Nat) (l : Link) : (s.setLink n l).out = s.out := rfl
@[simp] theorem State.setLink_tiles (n : Nat) (l : Link) : (s.setLink n l).tiles = s.tiles := rfl
@[simp] theorem State.setLink_hbm (n : Nat) (l : Link) : (s.setLink n l).hbm = s.hbm := rfl
@[simp] theorem State.setLink_hbmErr (n : Nat) (l : Link) : (s.setLink n l).hbmErr = s.hbmErr := rfl
@[simp] theorem State.setLink_hbmPoison (n : Nat) (l : Link) : (s.setLink n l).hbmPoison = s.hbmPoison := rfl
@[simp] theorem State.setLink_hbmScrub (n : Nat) (l : Link) : (s.setLink n l).hbmScrub = s.hbmScrub := rfl
@[simp] theorem State.setLink_engines (n : Nat) (l : Link) : (s.setLink n l).engines = s.engines := rfl
@[simp] theorem State.setLink_parts (n : Nat) (l : Link) : (s.setLink n l).parts = s.parts := rfl
@[simp] theorem State.setLink_sigs (n : Nat) (l : Link) : (s.setLink n l).sigs = s.sigs := rfl
@[simp] theorem State.setLink_stageMsgs (n : Nat) (l : Link) : (s.setLink n l).stageMsgs = s.stageMsgs := rfl
@[simp] theorem State.setLink_book (n : Nat) (l : Link) : (s.setLink n l).book = s.book := rfl
@[simp] theorem State.setLink_links (n : Nat) (l : Link) : (s.setLink n l).links = mset Link.reset s.links n l := rfl
@[simp] theorem State.setLink_capstans (n : Nat) (l : Link) : (s.setLink n l).capstans = s.capstans := rfl
@[simp] theorem State.setLink_free (n : Nat) (l : Link) : (s.setLink n l).free = s.free := rfl
@[simp] theorem State.setLink_coord (n : Nat) (l : Link) : (s.setLink n l).coord = s.coord := rfl
@[simp] theorem State.setLink_adm (n : Nat) (l : Link) : (s.setLink n l).adm = s.adm := rfl
@[simp] theorem State.setLink_dumps (n : Nat) (l : Link) : (s.setLink n l).dumps = s.dumps := rfl
@[simp] theorem State.setLink_check (n : Nat) (l : Link) : (s.setLink n l).check = s.check := rfl
@[simp] theorem State.setLink_dlUp (n : Nat) (l : Link) : (s.setLink n l).dlUp = s.dlUp := rfl
@[simp] theorem State.setLink_decls (n : Nat) (l : Link) : (s.setLink n l).decls = s.decls := rfl
@[simp] theorem State.setLink_spareAs (n : Nat) (l : Link) : (s.setLink n l).spareAs = s.spareAs := rfl
@[simp] theorem State.setLink_relayed (n : Nat) (l : Link) : (s.setLink n l).relayed = s.relayed := rfl
@[simp] theorem State.setLink_stripe (n : Nat) (l : Link) : (s.setLink n l).stripe = s.stripe := rfl
@[simp] theorem State.setLink_tackUp (n : Nat) (l : Link) : (s.setLink n l).tackUp = s.tackUp := rfl
@[simp] theorem State.setLink_mast (n : Nat) (l : Link) : (s.setLink n l).mast = s.mast := rfl
@[simp] theorem State.setLink_clk (n : Nat) (l : Link) : (s.setLink n l).clk = s.clk := rfl
@[simp] theorem State.setLink_cad (n : Nat) (l : Link) : (s.setLink n l).cad = s.cad := rfl
@[simp] theorem State.setLink_pkg (n : Nat) (l : Link) : (s.setLink n l).pkg = s.pkg := rfl
@[simp] theorem State.setLink_vcWeight (n : Nat) (l : Link) : (s.setLink n l).vcWeight = s.vcWeight := rfl
@[simp] theorem State.setLink_lossMs (n : Nat) (l : Link) : (s.setLink n l).lossMs = s.lossMs := rfl
@[simp] theorem State.setLink_lnkSsc (n : Nat) (l : Link) : (s.setLink n l).lnkSsc = s.lnkSsc := rfl
@[simp] theorem State.setLink_sscForce (n : Nat) (l : Link) : (s.setLink n l).sscForce = s.sscForce := rfl
@[simp] theorem State.setLink_latchRead (n : Nat) (l : Link) : (s.setLink n l).latchRead = s.latchRead := rfl
@[simp] theorem State.setLink_latchWrite (n : Nat) (l : Link) : (s.setLink n l).latchWrite = s.latchWrite := rfl
@[simp] theorem State.setLink_pfWindow (n : Nat) (l : Link) : (s.setLink n l).pfWindow = s.pfWindow := rfl
@[simp] theorem State.setLink_pci (n : Nat) (l : Link) : (s.setLink n l).pci = s.pci := rfl

@[simp] theorem State.setLink_tile (n : Nat) (l : Link) (u : Nat) : (s.setLink n l).tile u = s.tile u := rfl
@[simp] theorem State.setLink_part (n : Nat) (l : Link) (q : Nat) : (s.setLink n l).part q = s.part q := rfl

/-! `modLink` -/
@[simp] theorem State.modLink_pending (n : Nat) (f : Link → Link) : (s.modLink n f).pending = s.pending := rfl
@[simp] theorem State.modLink_time (n : Nat) (f : Link → Link) : (s.modLink n f).time = s.time := rfl
@[simp] theorem State.modLink_out (n : Nat) (f : Link → Link) : (s.modLink n f).out = s.out := rfl
@[simp] theorem State.modLink_tiles (n : Nat) (f : Link → Link) : (s.modLink n f).tiles = s.tiles := rfl
@[simp] theorem State.modLink_hbm (n : Nat) (f : Link → Link) : (s.modLink n f).hbm = s.hbm := rfl
@[simp] theorem State.modLink_hbmErr (n : Nat) (f : Link → Link) : (s.modLink n f).hbmErr = s.hbmErr := rfl
@[simp] theorem State.modLink_hbmPoison (n : Nat) (f : Link → Link) : (s.modLink n f).hbmPoison = s.hbmPoison := rfl
@[simp] theorem State.modLink_hbmScrub (n : Nat) (f : Link → Link) : (s.modLink n f).hbmScrub = s.hbmScrub := rfl
@[simp] theorem State.modLink_engines (n : Nat) (f : Link → Link) : (s.modLink n f).engines = s.engines := rfl
@[simp] theorem State.modLink_parts (n : Nat) (f : Link → Link) : (s.modLink n f).parts = s.parts := rfl
@[simp] theorem State.modLink_sigs (n : Nat) (f : Link → Link) : (s.modLink n f).sigs = s.sigs := rfl
@[simp] theorem State.modLink_stageMsgs (n : Nat) (f : Link → Link) : (s.modLink n f).stageMsgs = s.stageMsgs := rfl
@[simp] theorem State.modLink_book (n : Nat) (f : Link → Link) : (s.modLink n f).book = s.book := rfl
@[simp] theorem State.modLink_capstans (n : Nat) (f : Link → Link) : (s.modLink n f).capstans = s.capstans := rfl
@[simp] theorem State.modLink_free (n : Nat) (f : Link → Link) : (s.modLink n f).free = s.free := rfl
@[simp] theorem State.modLink_coord (n : Nat) (f : Link → Link) : (s.modLink n f).coord = s.coord := rfl
@[simp] theorem State.modLink_adm (n : Nat) (f : Link → Link) : (s.modLink n f).adm = s.adm := rfl
@[simp] theorem State.modLink_dumps (n : Nat) (f : Link → Link) : (s.modLink n f).dumps = s.dumps := rfl
@[simp] theorem State.modLink_check (n : Nat) (f : Link → Link) : (s.modLink n f).check = s.check := rfl
@[simp] theorem State.modLink_dlUp (n : Nat) (f : Link → Link) : (s.modLink n f).dlUp = s.dlUp := rfl
@[simp] theorem State.modLink_decls (n : Nat) (f : Link → Link) : (s.modLink n f).decls = s.decls := rfl
@[simp] theorem State.modLink_spareAs (n : Nat) (f : Link → Link) : (s.modLink n f).spareAs = s.spareAs := rfl
@[simp] theorem State.modLink_relayed (n : Nat) (f : Link → Link) : (s.modLink n f).relayed = s.relayed := rfl
@[simp] theorem State.modLink_stripe (n : Nat) (f : Link → Link) : (s.modLink n f).stripe = s.stripe := rfl
@[simp] theorem State.modLink_tackUp (n : Nat) (f : Link → Link) : (s.modLink n f).tackUp = s.tackUp := rfl
@[simp] theorem State.modLink_mast (n : Nat) (f : Link → Link) : (s.modLink n f).mast = s.mast := rfl
@[simp] theorem State.modLink_clk (n : Nat) (f : Link → Link) : (s.modLink n f).clk = s.clk := rfl
@[simp] theorem State.modLink_cad (n : Nat) (f : Link → Link) : (s.modLink n f).cad = s.cad := rfl
@[simp] theorem State.modLink_pkg (n : Nat) (f : Link → Link) : (s.modLink n f).pkg = s.pkg := rfl
@[simp] theorem State.modLink_vcWeight (n : Nat) (f : Link → Link) : (s.modLink n f).vcWeight = s.vcWeight := rfl
@[simp] theorem State.modLink_lossMs (n : Nat) (f : Link → Link) : (s.modLink n f).lossMs = s.lossMs := rfl
@[simp] theorem State.modLink_lnkSsc (n : Nat) (f : Link → Link) : (s.modLink n f).lnkSsc = s.lnkSsc := rfl
@[simp] theorem State.modLink_sscForce (n : Nat) (f : Link → Link) : (s.modLink n f).sscForce = s.sscForce := rfl
@[simp] theorem State.modLink_latchRead (n : Nat) (f : Link → Link) : (s.modLink n f).latchRead = s.latchRead := rfl
@[simp] theorem State.modLink_latchWrite (n : Nat) (f : Link → Link) : (s.modLink n f).latchWrite = s.latchWrite := rfl
@[simp] theorem State.modLink_pfWindow (n : Nat) (f : Link → Link) : (s.modLink n f).pfWindow = s.pfWindow := rfl
@[simp] theorem State.modLink_pci (n : Nat) (f : Link → Link) : (s.modLink n f).pci = s.pci := rfl

@[simp] theorem State.modLink_tile (n : Nat) (f : Link → Link) (u : Nat) : (s.modLink n f).tile u = s.tile u := rfl
@[simp] theorem State.modLink_part (n : Nat) (f : Link → Link) (q : Nat) : (s.modLink n f).part q = s.part q := rfl

/-! `engineTake` -/
@[simp] theorem State.engineTake_pending (e : Nat) : (s.engineTake e).pending = s.pending := rfl
@[simp] theorem State.engineTake_time (e : Nat) : (s.engineTake e).time = s.time := rfl
@[simp] theorem State.engineTake_out (e : Nat) : (s.engineTake e).out = s.out := rfl
@[simp] theorem State.engineTake_tiles (e : Nat) : (s.engineTake e).tiles = s.tiles := rfl
@[simp] theorem State.engineTake_hbm (e : Nat) : (s.engineTake e).hbm = s.hbm := rfl
@[simp] theorem State.engineTake_hbmErr (e : Nat) : (s.engineTake e).hbmErr = s.hbmErr := rfl
@[simp] theorem State.engineTake_hbmPoison (e : Nat) : (s.engineTake e).hbmPoison = s.hbmPoison := rfl
@[simp] theorem State.engineTake_hbmScrub (e : Nat) : (s.engineTake e).hbmScrub = s.hbmScrub := rfl
@[simp] theorem State.engineTake_parts (e : Nat) : (s.engineTake e).parts = s.parts := rfl
@[simp] theorem State.engineTake_sigs (e : Nat) : (s.engineTake e).sigs = s.sigs := rfl
@[simp] theorem State.engineTake_stageMsgs (e : Nat) : (s.engineTake e).stageMsgs = s.stageMsgs := rfl
@[simp] theorem State.engineTake_book (e : Nat) : (s.engineTake e).book = s.book := rfl
@[simp] theorem State.engineTake_links (e : Nat) : (s.engineTake e).links = s.links := rfl
@[simp] theorem State.engineTake_capstans (e : Nat) : (s.engineTake e).capstans = s.capstans := rfl
@[simp] theorem State.engineTake_free (e : Nat) : (s.engineTake e).free = s.free := rfl
@[simp] theorem State.engineTake_coord (e : Nat) : (s.engineTake e).coord = s.coord := rfl
@[simp] theorem State.engineTake_adm (e : Nat) : (s.engineTake e).adm = s.adm := rfl
@[simp] theorem State.engineTake_dumps (e : Nat) : (s.engineTake e).dumps = s.dumps := rfl
@[simp] theorem State.engineTake_check (e : Nat) : (s.engineTake e).check = s.check := rfl
@[simp] theorem State.engineTake_dlUp (e : Nat) : (s.engineTake e).dlUp = s.dlUp := rfl
@[simp] theorem State.engineTake_decls (e : Nat) : (s.engineTake e).decls = s.decls := rfl
@[simp] theorem State.engineTake_spareAs (e : Nat) : (s.engineTake e).spareAs = s.spareAs := rfl
@[simp] theorem State.engineTake_relayed (e : Nat) : (s.engineTake e).relayed = s.relayed := rfl
@[simp] theorem State.engineTake_stripe (e : Nat) : (s.engineTake e).stripe = s.stripe := rfl
@[simp] theorem State.engineTake_tackUp (e : Nat) : (s.engineTake e).tackUp = s.tackUp := rfl
@[simp] theorem State.engineTake_mast (e : Nat) : (s.engineTake e).mast = s.mast := rfl
@[simp] theorem State.engineTake_clk (e : Nat) : (s.engineTake e).clk = s.clk := rfl
@[simp] theorem State.engineTake_cad (e : Nat) : (s.engineTake e).cad = s.cad := rfl
@[simp] theorem State.engineTake_pkg (e : Nat) : (s.engineTake e).pkg = s.pkg := rfl
@[simp] theorem State.engineTake_vcWeight (e : Nat) : (s.engineTake e).vcWeight = s.vcWeight := rfl
@[simp] theorem State.engineTake_lossMs (e : Nat) : (s.engineTake e).lossMs = s.lossMs := rfl
@[simp] theorem State.engineTake_lnkSsc (e : Nat) : (s.engineTake e).lnkSsc = s.lnkSsc := rfl
@[simp] theorem State.engineTake_sscForce (e : Nat) : (s.engineTake e).sscForce = s.sscForce := rfl
@[simp] theorem State.engineTake_latchRead (e : Nat) : (s.engineTake e).latchRead = s.latchRead := rfl
@[simp] theorem State.engineTake_latchWrite (e : Nat) : (s.engineTake e).latchWrite = s.latchWrite := rfl
@[simp] theorem State.engineTake_pfWindow (e : Nat) : (s.engineTake e).pfWindow = s.pfWindow := rfl
@[simp] theorem State.engineTake_pci (e : Nat) : (s.engineTake e).pci = s.pci := rfl

@[simp] theorem State.engineTake_tile (e : Nat) (u : Nat) : (s.engineTake e).tile u = s.tile u := rfl
@[simp] theorem State.engineTake_part (e : Nat) (q : Nat) : (s.engineTake e).part q = s.part q := rfl
@[simp] theorem State.engineTake_link (e : Nat) (j : Nat) : (s.engineTake e).link j = s.link j := rfl

/-! `engineGive` -/
@[simp] theorem State.engineGive_pending (e : Nat) : (s.engineGive e).pending = s.pending := rfl
@[simp] theorem State.engineGive_time (e : Nat) : (s.engineGive e).time = s.time := rfl
@[simp] theorem State.engineGive_out (e : Nat) : (s.engineGive e).out = s.out := rfl
@[simp] theorem State.engineGive_tiles (e : Nat) : (s.engineGive e).tiles = s.tiles := rfl
@[simp] theorem State.engineGive_hbm (e : Nat) : (s.engineGive e).hbm = s.hbm := rfl
@[simp] theorem State.engineGive_hbmErr (e : Nat) : (s.engineGive e).hbmErr = s.hbmErr := rfl
@[simp] theorem State.engineGive_hbmPoison (e : Nat) : (s.engineGive e).hbmPoison = s.hbmPoison := rfl
@[simp] theorem State.engineGive_hbmScrub (e : Nat) : (s.engineGive e).hbmScrub = s.hbmScrub := rfl
@[simp] theorem State.engineGive_parts (e : Nat) : (s.engineGive e).parts = s.parts := rfl
@[simp] theorem State.engineGive_sigs (e : Nat) : (s.engineGive e).sigs = s.sigs := rfl
@[simp] theorem State.engineGive_stageMsgs (e : Nat) : (s.engineGive e).stageMsgs = s.stageMsgs := rfl
@[simp] theorem State.engineGive_book (e : Nat) : (s.engineGive e).book = s.book := rfl
@[simp] theorem State.engineGive_links (e : Nat) : (s.engineGive e).links = s.links := rfl
@[simp] theorem State.engineGive_capstans (e : Nat) : (s.engineGive e).capstans = s.capstans := rfl
@[simp] theorem State.engineGive_free (e : Nat) : (s.engineGive e).free = s.free := rfl
@[simp] theorem State.engineGive_coord (e : Nat) : (s.engineGive e).coord = s.coord := rfl
@[simp] theorem State.engineGive_adm (e : Nat) : (s.engineGive e).adm = s.adm := rfl
@[simp] theorem State.engineGive_dumps (e : Nat) : (s.engineGive e).dumps = s.dumps := rfl
@[simp] theorem State.engineGive_check (e : Nat) : (s.engineGive e).check = s.check := rfl
@[simp] theorem State.engineGive_dlUp (e : Nat) : (s.engineGive e).dlUp = s.dlUp := rfl
@[simp] theorem State.engineGive_decls (e : Nat) : (s.engineGive e).decls = s.decls := rfl
@[simp] theorem State.engineGive_spareAs (e : Nat) : (s.engineGive e).spareAs = s.spareAs := rfl
@[simp] theorem State.engineGive_relayed (e : Nat) : (s.engineGive e).relayed = s.relayed := rfl
@[simp] theorem State.engineGive_stripe (e : Nat) : (s.engineGive e).stripe = s.stripe := rfl
@[simp] theorem State.engineGive_tackUp (e : Nat) : (s.engineGive e).tackUp = s.tackUp := rfl
@[simp] theorem State.engineGive_mast (e : Nat) : (s.engineGive e).mast = s.mast := rfl
@[simp] theorem State.engineGive_clk (e : Nat) : (s.engineGive e).clk = s.clk := rfl
@[simp] theorem State.engineGive_cad (e : Nat) : (s.engineGive e).cad = s.cad := rfl
@[simp] theorem State.engineGive_pkg (e : Nat) : (s.engineGive e).pkg = s.pkg := rfl
@[simp] theorem State.engineGive_vcWeight (e : Nat) : (s.engineGive e).vcWeight = s.vcWeight := rfl
@[simp] theorem State.engineGive_lossMs (e : Nat) : (s.engineGive e).lossMs = s.lossMs := rfl
@[simp] theorem State.engineGive_lnkSsc (e : Nat) : (s.engineGive e).lnkSsc = s.lnkSsc := rfl
@[simp] theorem State.engineGive_sscForce (e : Nat) : (s.engineGive e).sscForce = s.sscForce := rfl
@[simp] theorem State.engineGive_latchRead (e : Nat) : (s.engineGive e).latchRead = s.latchRead := rfl
@[simp] theorem State.engineGive_latchWrite (e : Nat) : (s.engineGive e).latchWrite = s.latchWrite := rfl
@[simp] theorem State.engineGive_pfWindow (e : Nat) : (s.engineGive e).pfWindow = s.pfWindow := rfl
@[simp] theorem State.engineGive_pci (e : Nat) : (s.engineGive e).pci = s.pci := rfl

@[simp] theorem State.engineGive_tile (e : Nat) (u : Nat) : (s.engineGive e).tile u = s.tile u := rfl
@[simp] theorem State.engineGive_part (e : Nat) (q : Nat) : (s.engineGive e).part q = s.part q := rfl
@[simp] theorem State.engineGive_link (e : Nat) (j : Nat) : (s.engineGive e).link j = s.link j := rfl

/-! `setAdm` -/
@[simp] theorem State.setAdm_pending (n : Nat) (v : AdmSlot) : (s.setAdm n v).pending = s.pending := rfl
@[simp] theorem State.setAdm_time (n : Nat) (v : AdmSlot) : (s.setAdm n v).time = s.time := rfl
@[simp] theorem State.setAdm_out (n : Nat) (v : AdmSlot) : (s.setAdm n v).out = s.out := rfl
@[simp] theorem State.setAdm_tiles (n : Nat) (v : AdmSlot) : (s.setAdm n v).tiles = s.tiles := rfl
@[simp] theorem State.setAdm_hbm (n : Nat) (v : AdmSlot) : (s.setAdm n v).hbm = s.hbm := rfl
@[simp] theorem State.setAdm_hbmErr (n : Nat) (v : AdmSlot) : (s.setAdm n v).hbmErr = s.hbmErr := rfl
@[simp] theorem State.setAdm_hbmPoison (n : Nat) (v : AdmSlot) : (s.setAdm n v).hbmPoison = s.hbmPoison := rfl
@[simp] theorem State.setAdm_hbmScrub (n : Nat) (v : AdmSlot) : (s.setAdm n v).hbmScrub = s.hbmScrub := rfl
@[simp] theorem State.setAdm_engines (n : Nat) (v : AdmSlot) : (s.setAdm n v).engines = s.engines := rfl
@[simp] theorem State.setAdm_parts (n : Nat) (v : AdmSlot) : (s.setAdm n v).parts = s.parts := rfl
@[simp] theorem State.setAdm_sigs (n : Nat) (v : AdmSlot) : (s.setAdm n v).sigs = s.sigs := rfl
@[simp] theorem State.setAdm_stageMsgs (n : Nat) (v : AdmSlot) : (s.setAdm n v).stageMsgs = s.stageMsgs := rfl
@[simp] theorem State.setAdm_book (n : Nat) (v : AdmSlot) : (s.setAdm n v).book = s.book := rfl
@[simp] theorem State.setAdm_links (n : Nat) (v : AdmSlot) : (s.setAdm n v).links = s.links := rfl
@[simp] theorem State.setAdm_capstans (n : Nat) (v : AdmSlot) : (s.setAdm n v).capstans = s.capstans := rfl
@[simp] theorem State.setAdm_free (n : Nat) (v : AdmSlot) : (s.setAdm n v).free = s.free := rfl
@[simp] theorem State.setAdm_coord (n : Nat) (v : AdmSlot) : (s.setAdm n v).coord = s.coord := rfl
@[simp] theorem State.setAdm_dumps (n : Nat) (v : AdmSlot) : (s.setAdm n v).dumps = s.dumps := rfl
@[simp] theorem State.setAdm_check (n : Nat) (v : AdmSlot) : (s.setAdm n v).check = s.check := rfl
@[simp] theorem State.setAdm_dlUp (n : Nat) (v : AdmSlot) : (s.setAdm n v).dlUp = s.dlUp := rfl
@[simp] theorem State.setAdm_decls (n : Nat) (v : AdmSlot) : (s.setAdm n v).decls = s.decls := rfl
@[simp] theorem State.setAdm_spareAs (n : Nat) (v : AdmSlot) : (s.setAdm n v).spareAs = s.spareAs := rfl
@[simp] theorem State.setAdm_relayed (n : Nat) (v : AdmSlot) : (s.setAdm n v).relayed = s.relayed := rfl
@[simp] theorem State.setAdm_stripe (n : Nat) (v : AdmSlot) : (s.setAdm n v).stripe = s.stripe := rfl
@[simp] theorem State.setAdm_tackUp (n : Nat) (v : AdmSlot) : (s.setAdm n v).tackUp = s.tackUp := rfl
@[simp] theorem State.setAdm_mast (n : Nat) (v : AdmSlot) : (s.setAdm n v).mast = s.mast := rfl
@[simp] theorem State.setAdm_clk (n : Nat) (v : AdmSlot) : (s.setAdm n v).clk = s.clk := rfl
@[simp] theorem State.setAdm_cad (n : Nat) (v : AdmSlot) : (s.setAdm n v).cad = s.cad := rfl
@[simp] theorem State.setAdm_pkg (n : Nat) (v : AdmSlot) : (s.setAdm n v).pkg = s.pkg := rfl
@[simp] theorem State.setAdm_vcWeight (n : Nat) (v : AdmSlot) : (s.setAdm n v).vcWeight = s.vcWeight := rfl
@[simp] theorem State.setAdm_lossMs (n : Nat) (v : AdmSlot) : (s.setAdm n v).lossMs = s.lossMs := rfl
@[simp] theorem State.setAdm_lnkSsc (n : Nat) (v : AdmSlot) : (s.setAdm n v).lnkSsc = s.lnkSsc := rfl
@[simp] theorem State.setAdm_sscForce (n : Nat) (v : AdmSlot) : (s.setAdm n v).sscForce = s.sscForce := rfl
@[simp] theorem State.setAdm_latchRead (n : Nat) (v : AdmSlot) : (s.setAdm n v).latchRead = s.latchRead := rfl
@[simp] theorem State.setAdm_latchWrite (n : Nat) (v : AdmSlot) : (s.setAdm n v).latchWrite = s.latchWrite := rfl
@[simp] theorem State.setAdm_pfWindow (n : Nat) (v : AdmSlot) : (s.setAdm n v).pfWindow = s.pfWindow := rfl
@[simp] theorem State.setAdm_pci (n : Nat) (v : AdmSlot) : (s.setAdm n v).pci = s.pci := rfl

@[simp] theorem State.setAdm_tile (n : Nat) (v : AdmSlot) (u : Nat) : (s.setAdm n v).tile u = s.tile u := rfl
@[simp] theorem State.setAdm_part (n : Nat) (v : AdmSlot) (q : Nat) : (s.setAdm n v).part q = s.part q := rfl
@[simp] theorem State.setAdm_link (n : Nat) (v : AdmSlot) (j : Nat) : (s.setAdm n v).link j = s.link j := rfl

/-! `modMast` -/
@[simp] theorem State.modMast_pending (f : Mast → Mast) : (s.modMast f).pending = s.pending := rfl
@[simp] theorem State.modMast_time (f : Mast → Mast) : (s.modMast f).time = s.time := rfl
@[simp] theorem State.modMast_out (f : Mast → Mast) : (s.modMast f).out = s.out := rfl
@[simp] theorem State.modMast_tiles (f : Mast → Mast) : (s.modMast f).tiles = s.tiles := rfl
@[simp] theorem State.modMast_hbm (f : Mast → Mast) : (s.modMast f).hbm = s.hbm := rfl
@[simp] theorem State.modMast_hbmErr (f : Mast → Mast) : (s.modMast f).hbmErr = s.hbmErr := rfl
@[simp] theorem State.modMast_hbmPoison (f : Mast → Mast) : (s.modMast f).hbmPoison = s.hbmPoison := rfl
@[simp] theorem State.modMast_hbmScrub (f : Mast → Mast) : (s.modMast f).hbmScrub = s.hbmScrub := rfl
@[simp] theorem State.modMast_engines (f : Mast → Mast) : (s.modMast f).engines = s.engines := rfl
@[simp] theorem State.modMast_parts (f : Mast → Mast) : (s.modMast f).parts = s.parts := rfl
@[simp] theorem State.modMast_sigs (f : Mast → Mast) : (s.modMast f).sigs = s.sigs := rfl
@[simp] theorem State.modMast_stageMsgs (f : Mast → Mast) : (s.modMast f).stageMsgs = s.stageMsgs := rfl
@[simp] theorem State.modMast_book (f : Mast → Mast) : (s.modMast f).book = s.book := rfl
@[simp] theorem State.modMast_links (f : Mast → Mast) : (s.modMast f).links = s.links := rfl
@[simp] theorem State.modMast_capstans (f : Mast → Mast) : (s.modMast f).capstans = s.capstans := rfl
@[simp] theorem State.modMast_free (f : Mast → Mast) : (s.modMast f).free = s.free := rfl
@[simp] theorem State.modMast_coord (f : Mast → Mast) : (s.modMast f).coord = s.coord := rfl
@[simp] theorem State.modMast_adm (f : Mast → Mast) : (s.modMast f).adm = s.adm := rfl
@[simp] theorem State.modMast_dumps (f : Mast → Mast) : (s.modMast f).dumps = s.dumps := rfl
@[simp] theorem State.modMast_check (f : Mast → Mast) : (s.modMast f).check = s.check := rfl
@[simp] theorem State.modMast_dlUp (f : Mast → Mast) : (s.modMast f).dlUp = s.dlUp := rfl
@[simp] theorem State.modMast_decls (f : Mast → Mast) : (s.modMast f).decls = s.decls := rfl
@[simp] theorem State.modMast_spareAs (f : Mast → Mast) : (s.modMast f).spareAs = s.spareAs := rfl
@[simp] theorem State.modMast_relayed (f : Mast → Mast) : (s.modMast f).relayed = s.relayed := rfl
@[simp] theorem State.modMast_stripe (f : Mast → Mast) : (s.modMast f).stripe = s.stripe := rfl
@[simp] theorem State.modMast_tackUp (f : Mast → Mast) : (s.modMast f).tackUp = s.tackUp := rfl
@[simp] theorem State.modMast_mast (f : Mast → Mast) : (s.modMast f).mast = f s.mast := rfl
@[simp] theorem State.modMast_clk (f : Mast → Mast) : (s.modMast f).clk = s.clk := rfl
@[simp] theorem State.modMast_cad (f : Mast → Mast) : (s.modMast f).cad = s.cad := rfl
@[simp] theorem State.modMast_pkg (f : Mast → Mast) : (s.modMast f).pkg = s.pkg := rfl
@[simp] theorem State.modMast_vcWeight (f : Mast → Mast) : (s.modMast f).vcWeight = s.vcWeight := rfl
@[simp] theorem State.modMast_lossMs (f : Mast → Mast) : (s.modMast f).lossMs = s.lossMs := rfl
@[simp] theorem State.modMast_lnkSsc (f : Mast → Mast) : (s.modMast f).lnkSsc = s.lnkSsc := rfl
@[simp] theorem State.modMast_sscForce (f : Mast → Mast) : (s.modMast f).sscForce = s.sscForce := rfl
@[simp] theorem State.modMast_latchRead (f : Mast → Mast) : (s.modMast f).latchRead = s.latchRead := rfl
@[simp] theorem State.modMast_latchWrite (f : Mast → Mast) : (s.modMast f).latchWrite = s.latchWrite := rfl
@[simp] theorem State.modMast_pfWindow (f : Mast → Mast) : (s.modMast f).pfWindow = s.pfWindow := rfl
@[simp] theorem State.modMast_pci (f : Mast → Mast) : (s.modMast f).pci = s.pci := rfl

@[simp] theorem State.modMast_tile (f : Mast → Mast) (u : Nat) : (s.modMast f).tile u = s.tile u := rfl
@[simp] theorem State.modMast_part (f : Mast → Mast) (q : Nat) : (s.modMast f).part q = s.part q := rfl
@[simp] theorem State.modMast_link (f : Mast → Mast) (j : Nat) : (s.modMast f).link j = s.link j := rfl

/-! `modClk` -/
@[simp] theorem State.modClk_pending (f : Clk → Clk) : (s.modClk f).pending = s.pending := rfl
@[simp] theorem State.modClk_time (f : Clk → Clk) : (s.modClk f).time = s.time := rfl
@[simp] theorem State.modClk_out (f : Clk → Clk) : (s.modClk f).out = s.out := rfl
@[simp] theorem State.modClk_tiles (f : Clk → Clk) : (s.modClk f).tiles = s.tiles := rfl
@[simp] theorem State.modClk_hbm (f : Clk → Clk) : (s.modClk f).hbm = s.hbm := rfl
@[simp] theorem State.modClk_hbmErr (f : Clk → Clk) : (s.modClk f).hbmErr = s.hbmErr := rfl
@[simp] theorem State.modClk_hbmPoison (f : Clk → Clk) : (s.modClk f).hbmPoison = s.hbmPoison := rfl
@[simp] theorem State.modClk_hbmScrub (f : Clk → Clk) : (s.modClk f).hbmScrub = s.hbmScrub := rfl
@[simp] theorem State.modClk_engines (f : Clk → Clk) : (s.modClk f).engines = s.engines := rfl
@[simp] theorem State.modClk_parts (f : Clk → Clk) : (s.modClk f).parts = s.parts := rfl
@[simp] theorem State.modClk_sigs (f : Clk → Clk) : (s.modClk f).sigs = s.sigs := rfl
@[simp] theorem State.modClk_stageMsgs (f : Clk → Clk) : (s.modClk f).stageMsgs = s.stageMsgs := rfl
@[simp] theorem State.modClk_book (f : Clk → Clk) : (s.modClk f).book = s.book := rfl
@[simp] theorem State.modClk_links (f : Clk → Clk) : (s.modClk f).links = s.links := rfl
@[simp] theorem State.modClk_capstans (f : Clk → Clk) : (s.modClk f).capstans = s.capstans := rfl
@[simp] theorem State.modClk_free (f : Clk → Clk) : (s.modClk f).free = s.free := rfl
@[simp] theorem State.modClk_coord (f : Clk → Clk) : (s.modClk f).coord = s.coord := rfl
@[simp] theorem State.modClk_adm (f : Clk → Clk) : (s.modClk f).adm = s.adm := rfl
@[simp] theorem State.modClk_dumps (f : Clk → Clk) : (s.modClk f).dumps = s.dumps := rfl
@[simp] theorem State.modClk_check (f : Clk → Clk) : (s.modClk f).check = s.check := rfl
@[simp] theorem State.modClk_dlUp (f : Clk → Clk) : (s.modClk f).dlUp = s.dlUp := rfl
@[simp] theorem State.modClk_decls (f : Clk → Clk) : (s.modClk f).decls = s.decls := rfl
@[simp] theorem State.modClk_spareAs (f : Clk → Clk) : (s.modClk f).spareAs = s.spareAs := rfl
@[simp] theorem State.modClk_relayed (f : Clk → Clk) : (s.modClk f).relayed = s.relayed := rfl
@[simp] theorem State.modClk_stripe (f : Clk → Clk) : (s.modClk f).stripe = s.stripe := rfl
@[simp] theorem State.modClk_tackUp (f : Clk → Clk) : (s.modClk f).tackUp = s.tackUp := rfl
@[simp] theorem State.modClk_mast (f : Clk → Clk) : (s.modClk f).mast = s.mast := rfl
@[simp] theorem State.modClk_clk (f : Clk → Clk) : (s.modClk f).clk = f s.clk := rfl
@[simp] theorem State.modClk_cad (f : Clk → Clk) : (s.modClk f).cad = s.cad := rfl
@[simp] theorem State.modClk_pkg (f : Clk → Clk) : (s.modClk f).pkg = s.pkg := rfl
@[simp] theorem State.modClk_vcWeight (f : Clk → Clk) : (s.modClk f).vcWeight = s.vcWeight := rfl
@[simp] theorem State.modClk_lossMs (f : Clk → Clk) : (s.modClk f).lossMs = s.lossMs := rfl
@[simp] theorem State.modClk_lnkSsc (f : Clk → Clk) : (s.modClk f).lnkSsc = s.lnkSsc := rfl
@[simp] theorem State.modClk_sscForce (f : Clk → Clk) : (s.modClk f).sscForce = s.sscForce := rfl
@[simp] theorem State.modClk_latchRead (f : Clk → Clk) : (s.modClk f).latchRead = s.latchRead := rfl
@[simp] theorem State.modClk_latchWrite (f : Clk → Clk) : (s.modClk f).latchWrite = s.latchWrite := rfl
@[simp] theorem State.modClk_pfWindow (f : Clk → Clk) : (s.modClk f).pfWindow = s.pfWindow := rfl
@[simp] theorem State.modClk_pci (f : Clk → Clk) : (s.modClk f).pci = s.pci := rfl

@[simp] theorem State.modClk_tile (f : Clk → Clk) (u : Nat) : (s.modClk f).tile u = s.tile u := rfl
@[simp] theorem State.modClk_part (f : Clk → Clk) (q : Nat) : (s.modClk f).part q = s.part q := rfl
@[simp] theorem State.modClk_link (f : Clk → Clk) (j : Nat) : (s.modClk f).link j = s.link j := rfl

/-! `modCluster` -/
@[simp] theorem State.modCluster_pending (c : Nat) (f : Cluster → Cluster) : (s.modCluster c f).pending = s.pending := rfl
@[simp] theorem State.modCluster_time (c : Nat) (f : Cluster → Cluster) : (s.modCluster c f).time = s.time := rfl
@[simp] theorem State.modCluster_out (c : Nat) (f : Cluster → Cluster) : (s.modCluster c f).out = s.out := rfl
@[simp] theorem State.modCluster_tiles (c : Nat) (f : Cluster → Cluster) : (s.modCluster c f).tiles = s.tiles := rfl
@[simp] theorem State.modCluster_hbm (c : Nat) (f : Cluster → Cluster) : (s.modCluster c f).hbm = s.hbm := rfl
@[simp] theorem State.modCluster_hbmErr (c : Nat) (f : Cluster → Cluster) : (s.modCluster c f).hbmErr = s.hbmErr := rfl
@[simp] theorem State.modCluster_hbmPoison (c : Nat) (f : Cluster → Cluster) : (s.modCluster c f).hbmPoison = s.hbmPoison := rfl
@[simp] theorem State.modCluster_hbmScrub (c : Nat) (f : Cluster → Cluster) : (s.modCluster c f).hbmScrub = s.hbmScrub := rfl
@[simp] theorem State.modCluster_engines (c : Nat) (f : Cluster → Cluster) : (s.modCluster c f).engines = s.engines := rfl
@[simp] theorem State.modCluster_parts (c : Nat) (f : Cluster → Cluster) : (s.modCluster c f).parts = s.parts := rfl
@[simp] theorem State.modCluster_sigs (c : Nat) (f : Cluster → Cluster) : (s.modCluster c f).sigs = s.sigs := rfl
@[simp] theorem State.modCluster_stageMsgs (c : Nat) (f : Cluster → Cluster) : (s.modCluster c f).stageMsgs = s.stageMsgs := rfl
@[simp] theorem State.modCluster_book (c : Nat) (f : Cluster → Cluster) : (s.modCluster c f).book = s.book := rfl
@[simp] theorem State.modCluster_links (c : Nat) (f : Cluster → Cluster) : (s.modCluster c f).links = s.links := rfl
@[simp] theorem State.modCluster_capstans (c : Nat) (f : Cluster → Cluster) : (s.modCluster c f).capstans = s.capstans := rfl
@[simp] theorem State.modCluster_free (c : Nat) (f : Cluster → Cluster) : (s.modCluster c f).free = s.free := rfl
@[simp] theorem State.modCluster_coord (c : Nat) (f : Cluster → Cluster) : (s.modCluster c f).coord = s.coord := rfl
@[simp] theorem State.modCluster_adm (c : Nat) (f : Cluster → Cluster) : (s.modCluster c f).adm = s.adm := rfl
@[simp] theorem State.modCluster_dumps (c : Nat) (f : Cluster → Cluster) : (s.modCluster c f).dumps = s.dumps := rfl
@[simp] theorem State.modCluster_check (c : Nat) (f : Cluster → Cluster) : (s.modCluster c f).check = s.check := rfl
@[simp] theorem State.modCluster_dlUp (c : Nat) (f : Cluster → Cluster) : (s.modCluster c f).dlUp = s.dlUp := rfl
@[simp] theorem State.modCluster_decls (c : Nat) (f : Cluster → Cluster) : (s.modCluster c f).decls = s.decls := rfl
@[simp] theorem State.modCluster_spareAs (c : Nat) (f : Cluster → Cluster) : (s.modCluster c f).spareAs = s.spareAs := rfl
@[simp] theorem State.modCluster_relayed (c : Nat) (f : Cluster → Cluster) : (s.modCluster c f).relayed = s.relayed := rfl
@[simp] theorem State.modCluster_stripe (c : Nat) (f : Cluster → Cluster) : (s.modCluster c f).stripe = s.stripe := rfl
@[simp] theorem State.modCluster_tackUp (c : Nat) (f : Cluster → Cluster) : (s.modCluster c f).tackUp = s.tackUp := rfl
@[simp] theorem State.modCluster_mast (c : Nat) (f : Cluster → Cluster) : (s.modCluster c f).mast = s.mast := rfl
@[simp] theorem State.modCluster_cad (c : Nat) (f : Cluster → Cluster) : (s.modCluster c f).cad = s.cad := rfl
@[simp] theorem State.modCluster_pkg (c : Nat) (f : Cluster → Cluster) : (s.modCluster c f).pkg = s.pkg := rfl
@[simp] theorem State.modCluster_vcWeight (c : Nat) (f : Cluster → Cluster) : (s.modCluster c f).vcWeight = s.vcWeight := rfl
@[simp] theorem State.modCluster_lossMs (c : Nat) (f : Cluster → Cluster) : (s.modCluster c f).lossMs = s.lossMs := rfl
@[simp] theorem State.modCluster_lnkSsc (c : Nat) (f : Cluster → Cluster) : (s.modCluster c f).lnkSsc = s.lnkSsc := rfl
@[simp] theorem State.modCluster_sscForce (c : Nat) (f : Cluster → Cluster) : (s.modCluster c f).sscForce = s.sscForce := rfl
@[simp] theorem State.modCluster_latchRead (c : Nat) (f : Cluster → Cluster) : (s.modCluster c f).latchRead = s.latchRead := rfl
@[simp] theorem State.modCluster_latchWrite (c : Nat) (f : Cluster → Cluster) : (s.modCluster c f).latchWrite = s.latchWrite := rfl
@[simp] theorem State.modCluster_pfWindow (c : Nat) (f : Cluster → Cluster) : (s.modCluster c f).pfWindow = s.pfWindow := rfl
@[simp] theorem State.modCluster_pci (c : Nat) (f : Cluster → Cluster) : (s.modCluster c f).pci = s.pci := rfl

@[simp] theorem State.modCluster_tile (c : Nat) (f : Cluster → Cluster) (u : Nat) : (s.modCluster c f).tile u = s.tile u := rfl
@[simp] theorem State.modCluster_part (c : Nat) (f : Cluster → Cluster) (q : Nat) : (s.modCluster c f).part q = s.part q := rfl
@[simp] theorem State.modCluster_link (c : Nat) (f : Cluster → Cluster) (j : Nat) : (s.modCluster c f).link j = s.link j := rfl

/-! `setDomain` -/
@[simp] theorem State.setDomain_pending (d v : Nat) : (s.setDomain d v).pending = s.pending := rfl
@[simp] theorem State.setDomain_time (d v : Nat) : (s.setDomain d v).time = s.time := rfl
@[simp] theorem State.setDomain_out (d v : Nat) : (s.setDomain d v).out = s.out := rfl
@[simp] theorem State.setDomain_tiles (d v : Nat) : (s.setDomain d v).tiles = s.tiles := rfl
@[simp] theorem State.setDomain_hbm (d v : Nat) : (s.setDomain d v).hbm = s.hbm := rfl
@[simp] theorem State.setDomain_hbmErr (d v : Nat) : (s.setDomain d v).hbmErr = s.hbmErr := rfl
@[simp] theorem State.setDomain_hbmPoison (d v : Nat) : (s.setDomain d v).hbmPoison = s.hbmPoison := rfl
@[simp] theorem State.setDomain_hbmScrub (d v : Nat) : (s.setDomain d v).hbmScrub = s.hbmScrub := rfl
@[simp] theorem State.setDomain_engines (d v : Nat) : (s.setDomain d v).engines = s.engines := rfl
@[simp] theorem State.setDomain_parts (d v : Nat) : (s.setDomain d v).parts = s.parts := rfl
@[simp] theorem State.setDomain_sigs (d v : Nat) : (s.setDomain d v).sigs = s.sigs := rfl
@[simp] theorem State.setDomain_stageMsgs (d v : Nat) : (s.setDomain d v).stageMsgs = s.stageMsgs := rfl
@[simp] theorem State.setDomain_book (d v : Nat) : (s.setDomain d v).book = s.book := rfl
@[simp] theorem State.setDomain_links (d v : Nat) : (s.setDomain d v).links = s.links := rfl
@[simp] theorem State.setDomain_capstans (d v : Nat) : (s.setDomain d v).capstans = s.capstans := rfl
@[simp] theorem State.setDomain_free (d v : Nat) : (s.setDomain d v).free = s.free := rfl
@[simp] theorem State.setDomain_coord (d v : Nat) : (s.setDomain d v).coord = s.coord := rfl
@[simp] theorem State.setDomain_adm (d v : Nat) : (s.setDomain d v).adm = s.adm := rfl
@[simp] theorem State.setDomain_dumps (d v : Nat) : (s.setDomain d v).dumps = s.dumps := rfl
@[simp] theorem State.setDomain_check (d v : Nat) : (s.setDomain d v).check = s.check := rfl
@[simp] theorem State.setDomain_dlUp (d v : Nat) : (s.setDomain d v).dlUp = s.dlUp := rfl
@[simp] theorem State.setDomain_decls (d v : Nat) : (s.setDomain d v).decls = s.decls := rfl
@[simp] theorem State.setDomain_spareAs (d v : Nat) : (s.setDomain d v).spareAs = s.spareAs := rfl
@[simp] theorem State.setDomain_relayed (d v : Nat) : (s.setDomain d v).relayed = s.relayed := rfl
@[simp] theorem State.setDomain_stripe (d v : Nat) : (s.setDomain d v).stripe = s.stripe := rfl
@[simp] theorem State.setDomain_tackUp (d v : Nat) : (s.setDomain d v).tackUp = s.tackUp := rfl
@[simp] theorem State.setDomain_mast (d v : Nat) : (s.setDomain d v).mast = s.mast := rfl
@[simp] theorem State.setDomain_cad (d v : Nat) : (s.setDomain d v).cad = s.cad := rfl
@[simp] theorem State.setDomain_pkg (d v : Nat) : (s.setDomain d v).pkg = s.pkg := rfl
@[simp] theorem State.setDomain_vcWeight (d v : Nat) : (s.setDomain d v).vcWeight = s.vcWeight := rfl
@[simp] theorem State.setDomain_lossMs (d v : Nat) : (s.setDomain d v).lossMs = s.lossMs := rfl
@[simp] theorem State.setDomain_lnkSsc (d v : Nat) : (s.setDomain d v).lnkSsc = s.lnkSsc := rfl
@[simp] theorem State.setDomain_sscForce (d v : Nat) : (s.setDomain d v).sscForce = s.sscForce := rfl
@[simp] theorem State.setDomain_latchRead (d v : Nat) : (s.setDomain d v).latchRead = s.latchRead := rfl
@[simp] theorem State.setDomain_latchWrite (d v : Nat) : (s.setDomain d v).latchWrite = s.latchWrite := rfl
@[simp] theorem State.setDomain_pfWindow (d v : Nat) : (s.setDomain d v).pfWindow = s.pfWindow := rfl
@[simp] theorem State.setDomain_pci (d v : Nat) : (s.setDomain d v).pci = s.pci := rfl

@[simp] theorem State.setDomain_tile (d v : Nat) (u : Nat) : (s.setDomain d v).tile u = s.tile u := rfl
@[simp] theorem State.setDomain_part (d v : Nat) (q : Nat) : (s.setDomain d v).part q = s.part q := rfl
@[simp] theorem State.setDomain_link (d v : Nat) (j : Nat) : (s.setDomain d v).link j = s.link j := rfl

/-! `modCad` -/
@[simp] theorem State.modCad_pending (f : Cad → Cad) : (s.modCad f).pending = s.pending := rfl
@[simp] theorem State.modCad_time (f : Cad → Cad) : (s.modCad f).time = s.time := rfl
@[simp] theorem State.modCad_out (f : Cad → Cad) : (s.modCad f).out = s.out := rfl
@[simp] theorem State.modCad_tiles (f : Cad → Cad) : (s.modCad f).tiles = s.tiles := rfl
@[simp] theorem State.modCad_hbm (f : Cad → Cad) : (s.modCad f).hbm = s.hbm := rfl
@[simp] theorem State.modCad_hbmErr (f : Cad → Cad) : (s.modCad f).hbmErr = s.hbmErr := rfl
@[simp] theorem State.modCad_hbmPoison (f : Cad → Cad) : (s.modCad f).hbmPoison = s.hbmPoison := rfl
@[simp] theorem State.modCad_hbmScrub (f : Cad → Cad) : (s.modCad f).hbmScrub = s.hbmScrub := rfl
@[simp] theorem State.modCad_engines (f : Cad → Cad) : (s.modCad f).engines = s.engines := rfl
@[simp] theorem State.modCad_parts (f : Cad → Cad) : (s.modCad f).parts = s.parts := rfl
@[simp] theorem State.modCad_sigs (f : Cad → Cad) : (s.modCad f).sigs = s.sigs := rfl
@[simp] theorem State.modCad_stageMsgs (f : Cad → Cad) : (s.modCad f).stageMsgs = s.stageMsgs := rfl
@[simp] theorem State.modCad_book (f : Cad → Cad) : (s.modCad f).book = s.book := rfl
@[simp] theorem State.modCad_links (f : Cad → Cad) : (s.modCad f).links = s.links := rfl
@[simp] theorem State.modCad_capstans (f : Cad → Cad) : (s.modCad f).capstans = s.capstans := rfl
@[simp] theorem State.modCad_free (f : Cad → Cad) : (s.modCad f).free = s.free := rfl
@[simp] theorem State.modCad_coord (f : Cad → Cad) : (s.modCad f).coord = s.coord := rfl
@[simp] theorem State.modCad_adm (f : Cad → Cad) : (s.modCad f).adm = s.adm := rfl
@[simp] theorem State.modCad_dumps (f : Cad → Cad) : (s.modCad f).dumps = s.dumps := rfl
@[simp] theorem State.modCad_check (f : Cad → Cad) : (s.modCad f).check = s.check := rfl
@[simp] theorem State.modCad_dlUp (f : Cad → Cad) : (s.modCad f).dlUp = s.dlUp := rfl
@[simp] theorem State.modCad_decls (f : Cad → Cad) : (s.modCad f).decls = s.decls := rfl
@[simp] theorem State.modCad_spareAs (f : Cad → Cad) : (s.modCad f).spareAs = s.spareAs := rfl
@[simp] theorem State.modCad_relayed (f : Cad → Cad) : (s.modCad f).relayed = s.relayed := rfl
@[simp] theorem State.modCad_stripe (f : Cad → Cad) : (s.modCad f).stripe = s.stripe := rfl
@[simp] theorem State.modCad_tackUp (f : Cad → Cad) : (s.modCad f).tackUp = s.tackUp := rfl
@[simp] theorem State.modCad_mast (f : Cad → Cad) : (s.modCad f).mast = s.mast := rfl
@[simp] theorem State.modCad_clk (f : Cad → Cad) : (s.modCad f).clk = s.clk := rfl
@[simp] theorem State.modCad_cad (f : Cad → Cad) : (s.modCad f).cad = f s.cad := rfl
@[simp] theorem State.modCad_pkg (f : Cad → Cad) : (s.modCad f).pkg = s.pkg := rfl
@[simp] theorem State.modCad_vcWeight (f : Cad → Cad) : (s.modCad f).vcWeight = s.vcWeight := rfl
@[simp] theorem State.modCad_lossMs (f : Cad → Cad) : (s.modCad f).lossMs = s.lossMs := rfl
@[simp] theorem State.modCad_lnkSsc (f : Cad → Cad) : (s.modCad f).lnkSsc = s.lnkSsc := rfl
@[simp] theorem State.modCad_sscForce (f : Cad → Cad) : (s.modCad f).sscForce = s.sscForce := rfl
@[simp] theorem State.modCad_latchRead (f : Cad → Cad) : (s.modCad f).latchRead = s.latchRead := rfl
@[simp] theorem State.modCad_latchWrite (f : Cad → Cad) : (s.modCad f).latchWrite = s.latchWrite := rfl
@[simp] theorem State.modCad_pfWindow (f : Cad → Cad) : (s.modCad f).pfWindow = s.pfWindow := rfl
@[simp] theorem State.modCad_pci (f : Cad → Cad) : (s.modCad f).pci = s.pci := rfl

@[simp] theorem State.modCad_tile (f : Cad → Cad) (u : Nat) : (s.modCad f).tile u = s.tile u := rfl
@[simp] theorem State.modCad_part (f : Cad → Cad) (q : Nat) : (s.modCad f).part q = s.part q := rfl
@[simp] theorem State.modCad_link (f : Cad → Cad) (j : Nat) : (s.modCad f).link j = s.link j := rfl

/-! `modPkg` -/
@[simp] theorem State.modPkg_pending (f : Pkg → Pkg) : (s.modPkg f).pending = s.pending := rfl
@[simp] theorem State.modPkg_time (f : Pkg → Pkg) : (s.modPkg f).time = s.time := rfl
@[simp] theorem State.modPkg_out (f : Pkg → Pkg) : (s.modPkg f).out = s.out := rfl
@[simp] theorem State.modPkg_tiles (f : Pkg → Pkg) : (s.modPkg f).tiles = s.tiles := rfl
@[simp] theorem State.modPkg_hbm (f : Pkg → Pkg) : (s.modPkg f).hbm = s.hbm := rfl
@[simp] theorem State.modPkg_hbmErr (f : Pkg → Pkg) : (s.modPkg f).hbmErr = s.hbmErr := rfl
@[simp] theorem State.modPkg_hbmPoison (f : Pkg → Pkg) : (s.modPkg f).hbmPoison = s.hbmPoison := rfl
@[simp] theorem State.modPkg_hbmScrub (f : Pkg → Pkg) : (s.modPkg f).hbmScrub = s.hbmScrub := rfl
@[simp] theorem State.modPkg_engines (f : Pkg → Pkg) : (s.modPkg f).engines = s.engines := rfl
@[simp] theorem State.modPkg_parts (f : Pkg → Pkg) : (s.modPkg f).parts = s.parts := rfl
@[simp] theorem State.modPkg_sigs (f : Pkg → Pkg) : (s.modPkg f).sigs = s.sigs := rfl
@[simp] theorem State.modPkg_stageMsgs (f : Pkg → Pkg) : (s.modPkg f).stageMsgs = s.stageMsgs := rfl
@[simp] theorem State.modPkg_book (f : Pkg → Pkg) : (s.modPkg f).book = s.book := rfl
@[simp] theorem State.modPkg_links (f : Pkg → Pkg) : (s.modPkg f).links = s.links := rfl
@[simp] theorem State.modPkg_capstans (f : Pkg → Pkg) : (s.modPkg f).capstans = s.capstans := rfl
@[simp] theorem State.modPkg_free (f : Pkg → Pkg) : (s.modPkg f).free = s.free := rfl
@[simp] theorem State.modPkg_coord (f : Pkg → Pkg) : (s.modPkg f).coord = s.coord := rfl
@[simp] theorem State.modPkg_adm (f : Pkg → Pkg) : (s.modPkg f).adm = s.adm := rfl
@[simp] theorem State.modPkg_dumps (f : Pkg → Pkg) : (s.modPkg f).dumps = s.dumps := rfl
@[simp] theorem State.modPkg_check (f : Pkg → Pkg) : (s.modPkg f).check = s.check := rfl
@[simp] theorem State.modPkg_dlUp (f : Pkg → Pkg) : (s.modPkg f).dlUp = s.dlUp := rfl
@[simp] theorem State.modPkg_decls (f : Pkg → Pkg) : (s.modPkg f).decls = s.decls := rfl
@[simp] theorem State.modPkg_spareAs (f : Pkg → Pkg) : (s.modPkg f).spareAs = s.spareAs := rfl
@[simp] theorem State.modPkg_relayed (f : Pkg → Pkg) : (s.modPkg f).relayed = s.relayed := rfl
@[simp] theorem State.modPkg_stripe (f : Pkg → Pkg) : (s.modPkg f).stripe = s.stripe := rfl
@[simp] theorem State.modPkg_tackUp (f : Pkg → Pkg) : (s.modPkg f).tackUp = s.tackUp := rfl
@[simp] theorem State.modPkg_mast (f : Pkg → Pkg) : (s.modPkg f).mast = s.mast := rfl
@[simp] theorem State.modPkg_clk (f : Pkg → Pkg) : (s.modPkg f).clk = s.clk := rfl
@[simp] theorem State.modPkg_cad (f : Pkg → Pkg) : (s.modPkg f).cad = s.cad := rfl
@[simp] theorem State.modPkg_pkg (f : Pkg → Pkg) : (s.modPkg f).pkg = f s.pkg := rfl
@[simp] theorem State.modPkg_vcWeight (f : Pkg → Pkg) : (s.modPkg f).vcWeight = s.vcWeight := rfl
@[simp] theorem State.modPkg_lossMs (f : Pkg → Pkg) : (s.modPkg f).lossMs = s.lossMs := rfl
@[simp] theorem State.modPkg_lnkSsc (f : Pkg → Pkg) : (s.modPkg f).lnkSsc = s.lnkSsc := rfl
@[simp] theorem State.modPkg_sscForce (f : Pkg → Pkg) : (s.modPkg f).sscForce = s.sscForce := rfl
@[simp] theorem State.modPkg_latchRead (f : Pkg → Pkg) : (s.modPkg f).latchRead = s.latchRead := rfl
@[simp] theorem State.modPkg_latchWrite (f : Pkg → Pkg) : (s.modPkg f).latchWrite = s.latchWrite := rfl
@[simp] theorem State.modPkg_pfWindow (f : Pkg → Pkg) : (s.modPkg f).pfWindow = s.pfWindow := rfl
@[simp] theorem State.modPkg_pci (f : Pkg → Pkg) : (s.modPkg f).pci = s.pci := rfl

@[simp] theorem State.modPkg_tile (f : Pkg → Pkg) (u : Nat) : (s.modPkg f).tile u = s.tile u := rfl
@[simp] theorem State.modPkg_part (f : Pkg → Pkg) (q : Nat) : (s.modPkg f).part q = s.part q := rfl
@[simp] theorem State.modPkg_link (f : Pkg → Pkg) (j : Nat) : (s.modPkg f).link j = s.link j := rfl

end

section
variable (x : Tile)

/-! `setStrand` -/
@[simp] theorem Tile.setStrand_strands (k : Nat) (v : Strand) : (x.setStrand k v).strands = mset Strand.reset x.strands k v := rfl
@[simp] theorem Tile.setStrand_g (k : Nat) (v : Strand) : (x.setStrand k v).g = x.g := rfl
@[simp] theorem Tile.setStrand_ts (k : Nat) (v : Strand) : (x.setStrand k v).ts = x.ts := rfl
@[simp] theorem Tile.setStrand_rsMax (k : Nat) (v : Strand) : (x.setStrand k v).rsMax = x.rsMax := rfl
@[simp] theorem Tile.setStrand_rsSum (k : Nat) (v : Strand) : (x.setStrand k v).rsSum = x.rsSum := rfl
@[simp] theorem Tile.setStrand_vt (k : Nat) (v : Strand) : (x.setStrand k v).vt = x.vt := rfl
@[simp] theorem Tile.setStrand_acc (k : Nat) (v : Strand) : (x.setStrand k v).acc = x.acc := rfl
@[simp] theorem Tile.setStrand_slots (k : Nat) (v : Strand) : (x.setStrand k v).slots = x.slots := rfl
@[simp] theorem Tile.setStrand_drain (k : Nat) (v : Strand) : (x.setStrand k v).drain = x.drain := rfl
@[simp] theorem Tile.setStrand_mq (k : Nat) (v : Strand) : (x.setStrand k v).mq = x.mq := rfl
@[simp] theorem Tile.setStrand_vq (k : Nat) (v : Strand) : (x.setStrand k v).vq = x.vq := rfl
@[simp] theorem Tile.setStrand_xq (k : Nat) (v : Strand) : (x.setStrand k v).xq = x.xq := rfl
@[simp] theorem Tile.setStrand_cq (k : Nat) (v : Strand) : (x.setStrand k v).cq = x.cq := rfl
@[simp] theorem Tile.setStrand_arr (k : Nat) (v : Strand) : (x.setStrand k v).arr = x.arr := rfl
@[simp] theorem Tile.setStrand_portB (k : Nat) (v : Strand) : (x.setStrand k v).portB = x.portB := rfl
@[simp] theorem Tile.setStrand_vrun (k : Nat) (v : Strand) : (x.setStrand k v).vrun = x.vrun := rfl
@[simp] theorem Tile.setStrand_xrun (k : Nat) (v : Strand) : (x.setStrand k v).xrun = x.xrun := rfl
@[simp] theorem Tile.setStrand_timedOut (k : Nat) (v : Strand) : (x.setStrand k v).timedOut = x.timedOut := rfl
@[simp] theorem Tile.setStrand_sc (k : Nat) (v : Strand) : (x.setStrand k v).sc = x.sc := rfl
@[simp] theorem Tile.setStrand_bars (k : Nat) (v : Strand) : (x.setStrand k v).bars = x.bars := rfl
@[simp] theorem Tile.setStrand_capture (k : Nat) (v : Strand) : (x.setStrand k v).capture = x.capture := rfl
@[simp] theorem Tile.setStrand_halted (k : Nat) (v : Strand) : (x.setStrand k v).halted = x.halted := rfl
@[simp] theorem Tile.setStrand_dead (k : Nat) (v : Strand) : (x.setStrand k v).dead = x.dead := rfl
@[simp] theorem Tile.setStrand_ecc (k : Nat) (v : Strand) : (x.setStrand k v).ecc = x.ecc := rfl
@[simp] theorem Tile.setStrand_corrCount (k : Nat) (v : Strand) : (x.setStrand k v).corrCount = x.corrCount := rfl
@[simp] theorem Tile.setStrand_uncorrCount (k : Nat) (v : Strand) : (x.setStrand k v).uncorrCount = x.uncorrCount := rfl
@[simp] theorem Tile.setStrand_lastUnit (k : Nat) (v : Strand) : (x.setStrand k v).lastUnit = x.lastUnit := rfl
@[simp] theorem Tile.setStrand_stormStart (k : Nat) (v : Strand) : (x.setStrand k v).stormStart = x.stormStart := rfl
@[simp] theorem Tile.setStrand_stormCount (k : Nat) (v : Strand) : (x.setStrand k v).stormCount = x.stormCount := rfl
@[simp] theorem Tile.setStrand_fullWaits (k : Nat) (v : Strand) : (x.setStrand k v).fullWaits = x.fullWaits := rfl
@[simp] theorem Tile.setStrand_highWater (k : Nat) (v : Strand) : (x.setStrand k v).highWater = x.highWater := rfl
@[simp] theorem Tile.setStrand_idle (k : Nat) (v : Strand) : (x.setStrand k v).idle = x.idle := rfl
@[simp] theorem Tile.setStrand_busy (k : Nat) (v : Strand) : (x.setStrand k v).busy = x.busy := rfl
@[simp] theorem Tile.setStrand_kstep (k : Nat) (v : Strand) : (x.setStrand k v).kstep = x.kstep := rfl
@[simp] theorem Tile.setStrand_kstep4 (k : Nat) (v : Strand) : (x.setStrand k v).kstep4 = x.kstep4 := rfl
@[simp] theorem Tile.setStrand_scrub (k : Nat) (v : Strand) : (x.setStrand k v).scrub = x.scrub := rfl
@[simp] theorem Tile.setStrand_committed (k : Nat) (v : Strand) : (x.setStrand k v).committed = x.committed := rfl
@[simp] theorem Tile.setStrand_commitOp (k : Nat) (v : Strand) : (x.setStrand k v).commitOp = x.commitOp := rfl
@[simp] theorem Tile.setStrand_inStep (k : Nat) (v : Strand) : (x.setStrand k v).inStep = x.inStep := rfl
@[simp] theorem Tile.setStrand_serial (k : Nat) (v : Strand) : (x.setStrand k v).serial = x.serial := rfl
@[simp] theorem Tile.setStrand_siteIssues (k : Nat) (v : Strand) : (x.setStrand k v).siteIssues = x.siteIssues := rfl
@[simp] theorem Tile.setStrand_accIssues (k : Nat) (v : Strand) : (x.setStrand k v).accIssues = x.accIssues := rfl
@[simp] theorem Tile.setStrand_sigs (k : Nat) (v : Strand) : (x.setStrand k v).sigs = x.sigs := rfl
@[simp] theorem Tile.setStrand_worked (k : Nat) (v : Strand) : (x.setStrand k v).worked = x.worked := rfl

/-! `setSlot` -/
@[simp] theorem Tile.setSlot_strands (n : Nat) (d : SlotDesc) : (x.setSlot n d).strands = x.strands := rfl
@[simp] theorem Tile.setSlot_g (n : Nat) (d : SlotDesc) : (x.setSlot n d).g = x.g := rfl
@[simp] theorem Tile.setSlot_ts (n : Nat) (d : SlotDesc) : (x.setSlot n d).ts = x.ts := rfl
@[simp] theorem Tile.setSlot_rsMax (n : Nat) (d : SlotDesc) : (x.setSlot n d).rsMax = x.rsMax := rfl
@[simp] theorem Tile.setSlot_rsSum (n : Nat) (d : SlotDesc) : (x.setSlot n d).rsSum = x.rsSum := rfl
@[simp] theorem Tile.setSlot_vt (n : Nat) (d : SlotDesc) : (x.setSlot n d).vt = x.vt := rfl
@[simp] theorem Tile.setSlot_acc (n : Nat) (d : SlotDesc) : (x.setSlot n d).acc = x.acc := rfl
@[simp] theorem Tile.setSlot_slots (n : Nat) (d : SlotDesc) : (x.setSlot n d).slots = mset SlotDesc.reset x.slots n d := rfl
@[simp] theorem Tile.setSlot_drain (n : Nat) (d : SlotDesc) : (x.setSlot n d).drain = x.drain := rfl
@[simp] theorem Tile.setSlot_mq (n : Nat) (d : SlotDesc) : (x.setSlot n d).mq = x.mq := rfl
@[simp] theorem Tile.setSlot_vq (n : Nat) (d : SlotDesc) : (x.setSlot n d).vq = x.vq := rfl
@[simp] theorem Tile.setSlot_xq (n : Nat) (d : SlotDesc) : (x.setSlot n d).xq = x.xq := rfl
@[simp] theorem Tile.setSlot_cq (n : Nat) (d : SlotDesc) : (x.setSlot n d).cq = x.cq := rfl
@[simp] theorem Tile.setSlot_arr (n : Nat) (d : SlotDesc) : (x.setSlot n d).arr = x.arr := rfl
@[simp] theorem Tile.setSlot_portB (n : Nat) (d : SlotDesc) : (x.setSlot n d).portB = x.portB := rfl
@[simp] theorem Tile.setSlot_vrun (n : Nat) (d : SlotDesc) : (x.setSlot n d).vrun = x.vrun := rfl
@[simp] theorem Tile.setSlot_xrun (n : Nat) (d : SlotDesc) : (x.setSlot n d).xrun = x.xrun := rfl
@[simp] theorem Tile.setSlot_timedOut (n : Nat) (d : SlotDesc) : (x.setSlot n d).timedOut = x.timedOut := rfl
@[simp] theorem Tile.setSlot_sc (n : Nat) (d : SlotDesc) : (x.setSlot n d).sc = x.sc := rfl
@[simp] theorem Tile.setSlot_bars (n : Nat) (d : SlotDesc) : (x.setSlot n d).bars = x.bars := rfl
@[simp] theorem Tile.setSlot_capture (n : Nat) (d : SlotDesc) : (x.setSlot n d).capture = x.capture := rfl
@[simp] theorem Tile.setSlot_halted (n : Nat) (d : SlotDesc) : (x.setSlot n d).halted = x.halted := rfl
@[simp] theorem Tile.setSlot_dead (n : Nat) (d : SlotDesc) : (x.setSlot n d).dead = x.dead := rfl
@[simp] theorem Tile.setSlot_ecc (n : Nat) (d : SlotDesc) : (x.setSlot n d).ecc = x.ecc := rfl
@[simp] theorem Tile.setSlot_corrCount (n : Nat) (d : SlotDesc) : (x.setSlot n d).corrCount = x.corrCount := rfl
@[simp] theorem Tile.setSlot_uncorrCount (n : Nat) (d : SlotDesc) : (x.setSlot n d).uncorrCount = x.uncorrCount := rfl
@[simp] theorem Tile.setSlot_lastUnit (n : Nat) (d : SlotDesc) : (x.setSlot n d).lastUnit = x.lastUnit := rfl
@[simp] theorem Tile.setSlot_stormStart (n : Nat) (d : SlotDesc) : (x.setSlot n d).stormStart = x.stormStart := rfl
@[simp] theorem Tile.setSlot_stormCount (n : Nat) (d : SlotDesc) : (x.setSlot n d).stormCount = x.stormCount := rfl
@[simp] theorem Tile.setSlot_fullWaits (n : Nat) (d : SlotDesc) : (x.setSlot n d).fullWaits = x.fullWaits := rfl
@[simp] theorem Tile.setSlot_highWater (n : Nat) (d : SlotDesc) : (x.setSlot n d).highWater = x.highWater := rfl
@[simp] theorem Tile.setSlot_idle (n : Nat) (d : SlotDesc) : (x.setSlot n d).idle = x.idle := rfl
@[simp] theorem Tile.setSlot_busy (n : Nat) (d : SlotDesc) : (x.setSlot n d).busy = x.busy := rfl
@[simp] theorem Tile.setSlot_kstep (n : Nat) (d : SlotDesc) : (x.setSlot n d).kstep = x.kstep := rfl
@[simp] theorem Tile.setSlot_kstep4 (n : Nat) (d : SlotDesc) : (x.setSlot n d).kstep4 = x.kstep4 := rfl
@[simp] theorem Tile.setSlot_scrub (n : Nat) (d : SlotDesc) : (x.setSlot n d).scrub = x.scrub := rfl
@[simp] theorem Tile.setSlot_committed (n : Nat) (d : SlotDesc) : (x.setSlot n d).committed = x.committed := rfl
@[simp] theorem Tile.setSlot_commitOp (n : Nat) (d : SlotDesc) : (x.setSlot n d).commitOp = x.commitOp := rfl
@[simp] theorem Tile.setSlot_inStep (n : Nat) (d : SlotDesc) : (x.setSlot n d).inStep = x.inStep := rfl
@[simp] theorem Tile.setSlot_serial (n : Nat) (d : SlotDesc) : (x.setSlot n d).serial = x.serial := rfl
@[simp] theorem Tile.setSlot_siteIssues (n : Nat) (d : SlotDesc) : (x.setSlot n d).siteIssues = x.siteIssues := rfl
@[simp] theorem Tile.setSlot_accIssues (n : Nat) (d : SlotDesc) : (x.setSlot n d).accIssues = x.accIssues := rfl
@[simp] theorem Tile.setSlot_sigs (n : Nat) (d : SlotDesc) : (x.setSlot n d).sigs = x.sigs := rfl
@[simp] theorem Tile.setSlot_worked (n : Nat) (d : SlotDesc) : (x.setSlot n d).worked = x.worked := rfl

/-! `addCounter` -/
@[simp] theorem Tile.addCounter_strands (n : Nat) (v : W32) : (x.addCounter n v).strands = x.strands := rfl
@[simp] theorem Tile.addCounter_g (n : Nat) (v : W32) : (x.addCounter n v).g = x.g := rfl
@[simp] theorem Tile.addCounter_ts (n : Nat) (v : W32) : (x.addCounter n v).ts = x.ts := rfl
@[simp] theorem Tile.addCounter_rsMax (n : Nat) (v : W32) : (x.addCounter n v).rsMax = x.rsMax := rfl
@[simp] theorem Tile.addCounter_rsSum (n : Nat) (v : W32) : (x.addCounter n v).rsSum = x.rsSum := rfl
@[simp] theorem Tile.addCounter_vt (n : Nat) (v : W32) : (x.addCounter n v).vt = x.vt := rfl
@[simp] theorem Tile.addCounter_acc (n : Nat) (v : W32) : (x.addCounter n v).acc = x.acc := rfl
@[simp] theorem Tile.addCounter_slots (n : Nat) (v : W32) : (x.addCounter n v).slots = x.slots := rfl
@[simp] theorem Tile.addCounter_drain (n : Nat) (v : W32) : (x.addCounter n v).drain = x.drain := rfl
@[simp] theorem Tile.addCounter_mq (n : Nat) (v : W32) : (x.addCounter n v).mq = x.mq := rfl
@[simp] theorem Tile.addCounter_vq (n : Nat) (v : W32) : (x.addCounter n v).vq = x.vq := rfl
@[simp] theorem Tile.addCounter_xq (n : Nat) (v : W32) : (x.addCounter n v).xq = x.xq := rfl
@[simp] theorem Tile.addCounter_cq (n : Nat) (v : W32) : (x.addCounter n v).cq = x.cq := rfl
@[simp] theorem Tile.addCounter_arr (n : Nat) (v : W32) : (x.addCounter n v).arr = x.arr := rfl
@[simp] theorem Tile.addCounter_portB (n : Nat) (v : W32) : (x.addCounter n v).portB = x.portB := rfl
@[simp] theorem Tile.addCounter_vrun (n : Nat) (v : W32) : (x.addCounter n v).vrun = x.vrun := rfl
@[simp] theorem Tile.addCounter_xrun (n : Nat) (v : W32) : (x.addCounter n v).xrun = x.xrun := rfl
@[simp] theorem Tile.addCounter_timedOut (n : Nat) (v : W32) : (x.addCounter n v).timedOut = x.timedOut := rfl
@[simp] theorem Tile.addCounter_sc (n : Nat) (v : W32) : (x.addCounter n v).sc = mmod 0 x.sc n (· + v) := rfl
@[simp] theorem Tile.addCounter_bars (n : Nat) (v : W32) : (x.addCounter n v).bars = x.bars := rfl
@[simp] theorem Tile.addCounter_capture (n : Nat) (v : W32) : (x.addCounter n v).capture = x.capture := rfl
@[simp] theorem Tile.addCounter_halted (n : Nat) (v : W32) : (x.addCounter n v).halted = x.halted := rfl
@[simp] theorem Tile.addCounter_dead (n : Nat) (v : W32) : (x.addCounter n v).dead = x.dead := rfl
@[simp] theorem Tile.addCounter_ecc (n : Nat) (v : W32) : (x.addCounter n v).ecc = x.ecc := rfl
@[simp] theorem Tile.addCounter_corrCount (n : Nat) (v : W32) : (x.addCounter n v).corrCount = x.corrCount := rfl
@[simp] theorem Tile.addCounter_uncorrCount (n : Nat) (v : W32) : (x.addCounter n v).uncorrCount = x.uncorrCount := rfl
@[simp] theorem Tile.addCounter_lastUnit (n : Nat) (v : W32) : (x.addCounter n v).lastUnit = x.lastUnit := rfl
@[simp] theorem Tile.addCounter_stormStart (n : Nat) (v : W32) : (x.addCounter n v).stormStart = x.stormStart := rfl
@[simp] theorem Tile.addCounter_stormCount (n : Nat) (v : W32) : (x.addCounter n v).stormCount = x.stormCount := rfl
@[simp] theorem Tile.addCounter_fullWaits (n : Nat) (v : W32) : (x.addCounter n v).fullWaits = x.fullWaits := rfl
@[simp] theorem Tile.addCounter_highWater (n : Nat) (v : W32) : (x.addCounter n v).highWater = x.highWater := rfl
@[simp] theorem Tile.addCounter_idle (n : Nat) (v : W32) : (x.addCounter n v).idle = x.idle := rfl
@[simp] theorem Tile.addCounter_busy (n : Nat) (v : W32) : (x.addCounter n v).busy = x.busy := rfl
@[simp] theorem Tile.addCounter_kstep (n : Nat) (v : W32) : (x.addCounter n v).kstep = x.kstep := rfl
@[simp] theorem Tile.addCounter_kstep4 (n : Nat) (v : W32) : (x.addCounter n v).kstep4 = x.kstep4 := rfl
@[simp] theorem Tile.addCounter_scrub (n : Nat) (v : W32) : (x.addCounter n v).scrub = x.scrub := rfl
@[simp] theorem Tile.addCounter_committed (n : Nat) (v : W32) : (x.addCounter n v).committed = x.committed := rfl
@[simp] theorem Tile.addCounter_commitOp (n : Nat) (v : W32) : (x.addCounter n v).commitOp = x.commitOp := rfl
@[simp] theorem Tile.addCounter_inStep (n : Nat) (v : W32) : (x.addCounter n v).inStep = x.inStep := rfl
@[simp] theorem Tile.addCounter_serial (n : Nat) (v : W32) : (x.addCounter n v).serial = x.serial := rfl
@[simp] theorem Tile.addCounter_siteIssues (n : Nat) (v : W32) : (x.addCounter n v).siteIssues = x.siteIssues := rfl
@[simp] theorem Tile.addCounter_accIssues (n : Nat) (v : W32) : (x.addCounter n v).accIssues = x.accIssues := rfl
@[simp] theorem Tile.addCounter_sigs (n : Nat) (v : W32) : (x.addCounter n v).sigs = x.sigs := rfl
@[simp] theorem Tile.addCounter_worked (n : Nat) (v : W32) : (x.addCounter n v).worked = x.worked := rfl

end

/-! ### Tiles, strands, partitions and links after a write -/

variable {s : State} {x : Tile}

/-- A written tile reads back. -/
theorem State.tile_setTile_self (h : mwf Tile.reset s.tiles = true) (t : Nat) (y : Tile) : (s.setTile t y).tile t = y :=
  mget_mset_self h t y

/-- Every other tile keeps its value. -/
theorem State.tile_setTile_ne (h : mwf Tile.reset s.tiles = true) {t u : Nat} (y : Tile) (hu : u ≠ t) :
    (s.setTile t y).tile u = s.tile u :=
  mget_mset_ne h y hu

/-- Writing a tile keeps the tiles canonical. -/
theorem State.tiles_setTile (h : mwf Tile.reset s.tiles = true) (t : Nat) (y : Tile) : mwf Tile.reset (s.setTile t y).tiles = true :=
  mwf_mset h t y

/-- A written partition reads back. -/
theorem State.part_setPart_self (h : mwf Part.reset s.parts = true) (p : Nat) (y : Part) : (s.setPart p y).part p = y :=
  mget_mset_self h p y

/-- Every other partition keeps its value. -/
theorem State.part_setPart_ne (h : mwf Part.reset s.parts = true) {p q : Nat} (y : Part) (hq : q ≠ p) :
    (s.setPart p y).part q = s.part q :=
  mget_mset_ne h y hq

/-- Writing a partition keeps the partitions canonical. -/
theorem State.parts_setPart (h : mwf Part.reset s.parts = true) (p : Nat) (y : Part) : mwf Part.reset (s.setPart p y).parts = true :=
  mwf_mset h p y

/-- A written link reads back, and every other link keeps its value. -/
theorem State.link_setLink (h : mwf Link.reset s.links = true) (n j : Nat) (l : Link) :
    (s.setLink n l).link j = if j = n then l else s.link j :=
  mget_mset h n j l

/-- A written strand reads back, and every other strand keeps its value. -/
theorem Tile.strand_setStrand (h : mwf Strand.reset x.strands = true) (k j : Nat) (v : Strand) :
    (x.setStrand k v).strand j = if j = k then v else x.strand j :=
  mget_mset h k j v

/-- A written slot descriptor reads back, and every other one keeps its value. -/
theorem Tile.slot_setSlot (h : mwf SlotDesc.reset x.slots = true) (n j : Nat) (d : SlotDesc) :
    (x.setSlot n d).slot j = if j = n then d else x.slot j :=
  mget_mset h n j d

/-- A signal counter takes the increment modulo 2^32; the others keep their values (R97). -/
theorem Tile.counter_addCounter (h : mwf 0 x.sc = true) (n j : Nat) (v : W32) :
    (x.addCounter n v).counter j = if j = n then x.counter n + v else x.counter j :=
  mget_mset h n j _

/-- Writing one tile leaves only that tile different. -/
theorem State.onlyTile_setTile (h : mwf Tile.reset s.tiles = true) (t : Nat) (y : Tile) :
    s.setTile t y = { s with tiles := (s.setTile t y).tiles } ∧ ∀ u, u ≠ t → (s.setTile t y).tile u = s.tile u :=
  ⟨rfl, fun _ hu => State.tile_setTile_ne h y hu⟩

end Sys2Proof.Machine
end

