-- ==== Sys2Proof/Laws/Ops.lean ====
section
/-! SUPPORT. What each shared operation can do: it keeps the queue, device time, the canonical form of every table and the bounds of the
registers; and what a write to tile store changes. -/

set_option Elab.async false

namespace Sys2Proof.Machine

/-- From `s` to `s'` the queue and device time are the same, and the invariant is not lost. -/
structure State.Keeps (s s' : State) : Prop where
  pending : s'.pending = s.pending
  time : s'.time = s.time
  canonical : s.Canonical → s'.Canonical
  bounded : s.Bounded → s'.Bounded

variable {s t u : State}

theorem State.Keeps.refl (s : State) : State.Keeps s s := ⟨rfl, rfl, id, id⟩

theorem State.Keeps.trans (h : s.Keeps t) (g : t.Keeps u) : s.Keeps u :=
  ⟨g.pending.trans h.pending, g.time.trans h.time, g.canonical ∘ h.canonical, g.bounded ∘ h.bounded⟩

theorem State.Keeps.inv (h : s.Keeps t) (i : s.Inv) : t.Inv := ⟨h.canonical i.canonical, h.bounded i.bounded⟩

theorem State.keeps_ite {c : Prop} [Decidable c] {a b : State} (ha : c → s.Keeps a) (hb : ¬ c → s.Keeps b) : s.Keeps (if c then a else b) := by
  split
  · exact ha ‹_›
  · exact hb ‹_›

/-- A run over a list keeps what every round of it keeps. -/
theorem State.Keeps.foldl {α : Type} (f : State → α → State) (hf : ∀ (s : State) (a : α), State.Keeps s (f s a)) (l : List α) (s : State) :
    State.Keeps s (l.foldl f s) := by
  induction l generalizing s with
  | nil => exact .refl s
  | cons a l ih => exact (hf s a).trans (ih (f s a))

/-! ### Updates of one table or one unit -/

theorem State.keeps_setTile (s : State) (n : Nat) (x : Tile) : s.Keeps (s.setTile n x) :=
  ⟨rfl, rfl, fun h => { h with tiles := mwf_mset h.tiles n x }, fun h => { h with }⟩

theorem State.keeps_modTile (s : State) (n : Nat) (f : Tile → Tile) : s.Keeps (s.modTile n f) := s.keeps_setTile n _

theorem State.keeps_modStrand (s : State) (n k : Nat) (f : Strand → Strand) : s.Keeps (s.modStrand n k f) := s.keeps_setTile n _

theorem State.keeps_setPart (s : State) (p : Nat) (x : Part) : s.Keeps (s.setPart p x) :=
  ⟨rfl, rfl, fun h => { h with parts := mwf_mset h.parts p x }, fun h => { h with }⟩

theorem State.keeps_modPart (s : State) (p : Nat) (f : Part → Part) : s.Keeps (s.modPart p f) := s.keeps_setPart p _

theorem State.keeps_modNum (s : State) (p : Nat) (f : Numerics → Numerics) : s.Keeps (s.modNum p f) := s.keeps_setPart p _

theorem State.keeps_setLink (s : State) (n : Nat) (l : Link) : s.Keeps (s.setLink n l) :=
  ⟨rfl, rfl, fun h => { h with links := mwf_mset h.links n l }, fun h => { h with }⟩

theorem State.keeps_modLink (s : State) (n : Nat) (f : Link → Link) : s.Keeps (s.modLink n f) := s.keeps_setLink n _

theorem State.keeps_send (s : State) (m : Msg) : s.Keeps (s.send m) := ⟨rfl, rfl, fun h => { h with }, fun h => { h with }⟩

theorem State.keeps_engineTake (s : State) (e : Nat) : s.Keeps (s.engineTake e) :=
  ⟨rfl, rfl, fun h => { h with engines := mwf_mmod h.engines e (· + 1) }, fun h => { h with }⟩

theorem State.keeps_engineGive (s : State) (e : Nat) : s.Keeps (s.engineGive e) :=
  ⟨rfl, rfl, fun h => { h with engines := mwf_mmod h.engines e (· - 1) }, fun h => { h with }⟩

theorem State.keeps_setAdm (s : State) (n : Nat) (v : AdmSlot) : s.Keeps (s.setAdm n v) := ⟨rfl, rfl, fun h => { h with }, fun h => { h with }⟩

theorem State.keeps_modMast (s : State) (f : Mast → Mast) : s.Keeps (s.modMast f) := ⟨rfl, rfl, fun h => { h with }, fun h => { h with }⟩

theorem State.keeps_modClk (s : State) (f : Clk → Clk) : s.Keeps (s.modClk f) := ⟨rfl, rfl, fun h => { h with }, fun h => { h with }⟩

theorem State.keeps_modCluster (s : State) (c : Nat) (f : Cluster → Cluster) : s.Keeps (s.modCluster c f) :=
  ⟨rfl, rfl, fun h => { h with }, fun h => { h with }⟩

theorem State.keeps_setDomain (s : State) (d v : Nat) : s.Keeps (s.setDomain d v) := ⟨rfl, rfl, fun h => { h with }, fun h => { h with }⟩

theorem State.keeps_modCad (s : State) (f : Cad → Cad) : s.Keeps (s.modCad f) := ⟨rfl, rfl, fun h => { h with }, fun h => { h with }⟩

theorem State.keeps_modPkg (s : State) (f : Pkg → Pkg) : s.Keeps (s.modPkg f) := ⟨rfl, rfl, fun h => { h with }, fun h => { h with }⟩

/-! ### Records and counts -/

theorem State.keeps_lifeAdd (s : State) (off n : Nat) : s.Keeps (s.lifeAdd off n) := by
  unfold State.lifeAdd
  split
  · exact .refl s
  · exact ⟨rfl, rfl, fun h => { h with }, fun h => { h with }⟩

theorem State.keeps_bookEntry (s : State) (type part code flags : Nat) (payload : List Byte) :
    s.Keeps (s.bookEntry type part code flags payload) := by
  unfold State.bookEntry
  simp only
  split <;> exact ⟨rfl, rfl, fun h => { h with }, fun h => { h with }⟩

theorem State.keeps_sticky (s : State) (p i : Nat) : s.Keeps (s.sticky p i) := s.keeps_modPart p _

/-! ### Faults -/

theorem State.keeps_partFault (s : State) (p code : Nat) (orig : Bool) (addr detail : W64) : s.Keeps (s.partFault p code orig addr detail) :=
  s.keeps_modPart p _

theorem State.keeps_tileFault (s : State) (n : Nat) (f : FaultInfo) : s.Keeps (s.tileFault n f) := by
  unfold State.tileFault
  simp only
  split
  · exact s.keeps_setTile n _
  · split
    · exact (s.keeps_setTile n _).trans (State.keeps_modPart _ _ _)
    · exact s.keeps_setTile n _

theorem State.keeps_precise (s : State) (n k : Nat) (w : IWord) (code : Nat) (addr : W64) : s.Keeps (s.precise n k w code addr) :=
  s.keeps_tileFault n _

theorem State.keeps_imprecise (s : State) (n : Nat) (o : QOp) (code : Nat) (addr : W64) : s.Keeps (s.imprecise n o code addr) :=
  s.keeps_tileFault n _

/-! ### Storage errors -/

theorem State.keeps_noteBad (s : State) (n unit : Nat) (k : Option Nat) (addr : Nat) : s.Keeps (s.noteBad n unit k addr) := by
  unfold State.noteBad
  simp only
  split
  · exact ((s.keeps_modTile n _).trans (State.keeps_bookEntry _ _ _ _ _ _)).trans (State.keeps_sticky _ _ _)
  · exact (s.keeps_modTile n _).trans (State.keeps_bookEntry _ _ _ _ _ _)

theorem State.keeps_noteCorrected (s : State) (n unit c : Nat) : s.Keeps (s.noteCorrected n unit c) := by
  have h (x : Tile) : s.Keeps ((s.setTile n x).lifeAdd (0x460 + 4 * clusterOf n) c) := (s.keeps_setTile n x).trans (State.keeps_lifeAdd _ _ _)
  unfold State.noteCorrected
  exact State.keeps_ite (fun _ => .refl s) fun _ =>
    State.keeps_ite (fun _ => (h _).trans (State.keeps_bookEntry _ _ _ _ _ _)) fun _ => h _

/-- Counting the uncorrectable words among some outcomes. -/
theorem State.keeps_noteAll (s : State) (n v w : Nat) (k : Option Nat) (l : List (EccOut × Nat)) :
    s.Keeps (l.foldl (fun s e => if e.1 = .bad then s.noteBad n v k (4 * (w + e.2)) else s) s) :=
  State.Keeps.foldl (fun (s : State) (e : EccOut × Nat) => if e.1 = .bad then s.noteBad n v k (4 * (w + e.2)) else s)
    (fun s e => State.keeps_ite (fun _ => s.keeps_noteBad n v k (4 * (w + e.2))) fun _ => .refl s) l s

theorem State.keeps_countEcc (s : State) (n v w c : Nat) (k : Option Nat) : s.Keeps (s.countEcc n v w c k) := by
  unfold State.countEcc
  split
  · exact .refl s
  · exact (s.keeps_noteCorrected _ _ _).trans (State.keeps_noteAll _ _ _ _ _ _)

theorem State.keeps_countWords (s : State) (n : Nat) (ws : List (Nat × Nat)) (k : Option Nat) : s.Keeps (s.countWords n ws k) :=
  State.keeps_ite (fun _ => .refl s) fun _ => State.Keeps.foldl (fun (s : State) (e : Nat × Nat) => s.countEcc n e.1 e.2 1 k)
    (fun s e => s.keeps_countEcc n e.1 e.2 1 k) ws s

theorem State.keeps_countSlot (s : State) (n v : Nat) (k : Option Nat) : s.Keeps (s.countSlot n v k) :=
  (s.keeps_countEcc _ _ _ _ _).trans (State.keeps_countEcc _ _ _ _ _ _)

theorem State.keeps_countRetries (s : State) (cs : List (Nat × Nat)) : s.Keeps (s.countRetries cs) :=
  State.Keeps.foldl (fun (s : State) (c : Nat × Nat) => s.lifeAdd (0x6A0 + 4 * c.1) c.2) (fun s _ => s.keeps_lifeAdd _ _) cs s

/-! ### HBM -/

/-- Recording a beat's errors. -/
theorem State.keeps_hbmErr (s : State) (k v : Nat) : s.Keeps { s with hbmErr := mset 0 s.hbmErr k v } :=
  ⟨rfl, rfl, fun h => { h with hbmErr := mwf_mset h.hbmErr k v }, fun h => { h with }⟩

/-- Recording a beat's poison and errors. -/
theorem State.keeps_hbmPoison (s : State) (k : Nat) (b : Bool) (v : Nat) :
    s.Keeps { s with hbmPoison := mset false s.hbmPoison k b, hbmErr := mset 0 s.hbmErr k v } :=
  ⟨rfl, rfl, fun h => { h with hbmPoison := mwf_mset h.hbmPoison k b, hbmErr := mwf_mset h.hbmErr k v }, fun h => { h with }⟩

/-- Writing HBM by a function that keeps it canonical. -/
theorem State.keeps_hbm (s : State) (m : SMap Byte) (hm : mwf 0 s.hbm = true → mwf 0 m = true) : s.Keeps { s with hbm := m } :=
  ⟨rfl, rfl, fun h => { h with hbm := hm h.hbm }, fun h => { h with }⟩

theorem State.keeps_poisonBeat (s : State) (p b source : Nat) : s.Keeps (s.poisonBeat p b source) := by
  unfold State.poisonBeat
  simp only
  split
  · exact .refl s
  · refine (s.keeps_hbmPoison ((s.part p).hbmKey (32 * b) / 32) true 0).trans ?_
    exact (((State.keeps_setPart _ _ _).trans (State.keeps_sticky _ _ _)).trans (State.keeps_lifeAdd _ _ _)).trans
      (State.keeps_bookEntry _ _ _ _ _ _)

theorem State.keeps_readBeat (s : State) (p source b : Nat) : s.Keeps (s.readBeat p source b) := by
  unfold State.readBeat
  simp only
  split
  · exact .refl s
  · exact ((s.keeps_hbmErr _ _).trans (State.keeps_lifeAdd _ _ _)).trans (State.keeps_modPart _ _ _)
  · split
    · exact s.keeps_poisonBeat p b source
    · exact .refl s

theorem State.keeps_readRange (s : State) (p a n : Nat) : s.Keeps (s.readRange p a n) := by
  unfold State.readRange
  split
  · exact .refl s
  · simp only
    have h := State.Keeps.foldl (fun (s : State) b => s.readBeat p 0 b) (fun s b => s.keeps_readBeat p 0 b) (beatsOf a n) s
    split
    · exact h
    · exact h.trans (State.keeps_modPart _ _ _)

/-- Storing bytes at keys one after the other keeps a table canonical. -/
theorem mwf_foldl_mset (key : Nat → Nat) (l : List (Byte × Nat)) (m : SMap Byte) (h : mwf 0 m = true) :
    mwf 0 (l.foldl (fun h e => mset 0 h (key e.2) e.1) m) = true := by
  induction l generalizing m with
  | nil => exact h
  | cons e l ih => exact ih _ (mwf_mset h _ _)

/-- Storing computed bytes at the keys of a list keeps a table canonical. -/
theorem mwf_foldl_mset_of {α : Type} (key : α → Nat) (v : α → Byte) (l : List α) (m : SMap Byte) (h : mwf 0 m = true) :
    mwf 0 (l.foldl (fun h e => mset 0 h (key e) (v e)) m) = true := by
  induction l generalizing m with
  | nil => exact h
  | cons e l ih => exact ih _ (mwf_mset h _ _)

theorem State.keeps_mergeBeat (s : State) (p b : Nat) : s.Keeps (s.mergeBeat p b) := by
  unfold State.mergeBeat
  simp only
  split
  · refine (s.keeps_readBeat p 0 b).trans ?_
    generalize s.readBeat p 0 b = t
    have h := t.keeps_hbm _ (mwf_foldl_mset_of (fun j => (t.part p).hbmKey (32 * b) + j)
      (Config.wideErrorByte (mget 0 t.hbmErr ((t.part p).hbmKey (32 * b) / 32))) (List.range 32) t.hbm)
    exact h.trans (State.keeps_hbmErr _ _ _)
  · exact s.keeps_readBeat p 0 b

theorem State.keeps_hbmWrite (s : State) (p a : Nat) (bs : List Byte) : s.Keeps (s.hbmWrite p a bs) := by
  have hw (u : State) (hu : s.Keeps u) : s.Keeps (({ u with
      hbm := bs.zipIdx.foldl (fun h e => mset 0 h ((u.part p).hbmKey (a + e.2)) e.1) u.hbm } : State).setPart p
        { u.part p with mem := markDirty (u.part p).mem a bs.length }) :=
    (hu.trans (u.keeps_hbm _ (mwf_foldl_mset (fun n => (u.part p).hbmKey (a + n)) _ _))).trans (State.keeps_setPart _ p _)
  unfold State.hbmWrite
  refine hw _ (State.keeps_ite (fun _ => .refl s) fun _ => State.Keeps.foldl _ (fun s b => ?_) _ s)
  exact State.keeps_ite (fun _ => s.keeps_hbmPoison _ _ _) fun _ => s.keeps_mergeBeat p b

/-! ### Tile store -/

/-- Clearing storage errors leaves tile store. -/
@[simp] theorem Tile.clearEcc_ts (x : Tile) (v w n : Nat) : (x.clearEcc v w n).ts = x.ts := by
  unfold Tile.clearEcc
  split <;> rfl

/-- A write stores its bytes from its address on; every other byte of tile store keeps its value. -/
theorem Tile.tsWrite_byte {x : Tile} (h : mwf 0 x.ts = true) (a : Nat) (bs : List Byte) (j : Nat) :
    mget 0 (x.tsWrite a bs).ts j = if a ≤ j ∧ j < a + bs.length then bs.getD (j - a) 0 else mget 0 x.ts j :=
  mget_msetList h a bs j

/-- A write keeps tile store canonical. -/
theorem Tile.tsWrite_wf {x : Tile} (h : mwf 0 x.ts = true) (a : Nat) (bs : List Byte) : mwf 0 (x.tsWrite a bs).ts = true :=
  mwf_msetList h a bs

/-- In a tile without storage errors a write changes tile store alone. -/
theorem Tile.tsWrite_clean {x : Tile} (h : x.ecc = []) (a : Nat) (bs : List Byte) :
    x.tsWrite a bs = { x with ts := msetList 0 x.ts a bs } := by
  simp [Tile.tsWrite, Tile.clearEcc, h]

/-- Without storage errors a read delivers the bytes stored. -/
theorem Tile.tsRead_clean {x : Tile} (h : x.ecc = []) (a n : Nat) : x.tsRead a n = (List.range n).map fun j => mget 0 x.ts (a + j) := by
  simp [Tile.tsRead, Tile.delivered, h]

end Sys2Proof.Machine
end

