-- ==== Sys2Proof/Tests/Slice0.lean ====
section
/-! SUPPORT. The model's own tests: for every statement that has hypotheses a concrete state and operands that meet them, worked examples of the
manual, and one ill-formed command for each check. -/

set_option Elab.async false

namespace Sys2Proof.Tests

open Sys2Proof Sys2Proof.Machine

/-! ### Small states -/

/-- An instruction's body: FN, FLAGS, SD, SA, SB, SC, and IMM. -/
def body (fn flags sd sa sb sc imm : Nat) : IBody :=
  BitVec.ofNat 120 (fn * 2 ^ 112 + flags * 2 ^ 104 + sd * 2 ^ 96 + sa * 2 ^ 88 + sb * 2 ^ 80 + sc * 2 ^ 72 + imm)

/-- A partition of bay B0 with one enabled tile, PHYS_ID 0. -/
def part0 : Part := { Part.reset with exist := true, bays := [0], remap := [(0, 0x80000000)], tiles := 1 }

/-- Strand 0, started, at PC 0, with word `w` fetched. -/
def strand0 (w : IWord) : Strand := { Strand.reset with sched := .ready, fbuf := [w] }

/-- Tile 0 with that strand. -/
def tile0 (w : IWord) : Tile := { Tile.reset with strands := [(0, strand0 w)] }

/-- The device with partition `p` as partition 0 and a tile `x` at PHYS_ID 0. -/
def devP (p : Part) (x : Tile) : State := { State.reset with parts := [(0, p)], tiles := [(0, x)] }

/-- The device with `part0`. -/
def dev (x : Tile) : State := devP part0 x

/-- The device about to issue `w` on strand 0 of tile 0. -/
def at' (w : IWord) : State := dev (tile0 w)

/-- Strand 0 of tile 0 of `s` issues `w`, whose encoding passes its check. -/
def runsIn (s : State) (w : IWord) (ok : IWord → Bool) : Bool :=
  s.canIssue 0 0 w && (s.tile 0).ecc.isEmpty && predHolds w ((s.tile 0).strand 0).cw && ok w

/-- The same in the device about to issue `w`. -/
def runs (w : IWord) (ok : IWord → Bool) : Bool := runsIn (at' w) w ok

/-- What `runsIn` says is what the statements ask for. -/
theorem issuable_of_runsIn {s : State} {w : IWord} {ok : IWord → Bool} (h : runsIn s w ok = true) :
    s.issuable 0 0 w ∧ ok w = true := by
  simp only [runsIn, Bool.and_eq_true, List.isEmpty_iff] at h
  exact ⟨⟨h.1.1.1, h.1.1.2, h.1.2⟩, h.2⟩

/-- The state an outcome answers. -/
def after (o : Out) : State := match o with | .next s => s | _ => State.reset

/-- `State.Canonical` as a test. -/
def canon (s : State) : Bool :=
  mwf Tile.reset s.tiles && mwf 0 s.hbm && mwf 0 s.hbmErr && mwf false s.hbmPoison && mwf 0 s.hbmScrub && mwf 0 s.engines
    && mwf Part.reset s.parts && mwf Link.reset s.links && mwf ⟨0⟩ s.capstans && mwf 0 s.lnkSsc && mwf 0 s.sscForce && mwf PciFn.reset s.pci
    && mwf none s.latchRead && mwf none s.latchWrite

theorem canonical_of_canon {s : State} (h : canon s = true) : s.Canonical := by
  simp only [canon, Bool.and_eq_true] at h
  obtain ⟨⟨⟨⟨⟨⟨⟨⟨⟨⟨⟨⟨⟨a, b⟩, c⟩, d⟩, e⟩, f⟩, g⟩, i⟩, j⟩, k⟩, l⟩, m⟩, n⟩, o⟩ := h
  exact ⟨a, b, c, d, e, f, g, i, j, k, l, m, n, o⟩

/-- A variant with collective entries, queues and start entries, of an image that is loaded as partition 0's. -/
def variant0 (cs : List CollEntry) (qs : List QueueBinding) (ss : List StartEntry) : Variant :=
  ⟨1, 1, 3, 0, 1, 0, 1, 0, true, true, 0, [], cs, qs, [], [4, 4, 4, 4], [], ss, [], 1, 0, 0, 0, [], [], ⟨[], [], []⟩⟩
@[inherit_doc variant0] def image0 (v : Variant) : Image := ⟨1, 1, false, true, 7, 0, 0, [(0, v)], [], [], [], false, []⟩
@[inherit_doc variant0] def partV (v : Variant) : Part := { part0 with image := some (image0 v), variant := some 0 }

/-! ### Scalar instructions, their words from R89 to R92 -/

theorem witness_AddSubCompare :
    runs (wordOf 0x01 (body 0 4 1 2 3 0x80 0)) (aluOk [0]) = true ∧ runs (wordOf 0x02 (body 0 4 1 2 3 0x80 0)) (aluOk [0]) = true
    ∧ runs (wordOf 0x09 (body 0 0 0x80 2 3 0x80 0)) cmpOk = true := by decide +kernel

theorem witness_Multiply : ∀ fn ∈ [0, 1, 2], runs (wordOf 0x03 (body fn 4 1 2 3 0x80 0)) (aluOk [0, 1, 2]) = true
    ∧ xtOf (wordOf 0x03 (body fn 4 1 2 3 0x80 0)) = fn := by decide +kernel

theorem witness_FloatScalars :
    (∀ fn ∈ [0, 1], runs (wordOf 0x0E (body fn 0 1 2 3 0x80 0)) (fun w => aluOk [0, 1] w && noFlags w) = true)
    ∧ runs (wordOf 0x0F (body 0 0 1 2 3 0x80 0)) (fun w => aluOk [0] w && noFlags w) = true
    ∧ runs (wordOf 0x10 (body 0 0 0x80 2 3 0x80 0)) fcmpOk = true
    ∧ (f32 0x7FC00000).isNan = true ∧ (f32 0).isNan = false ∧ Val.eq (f32 0) (f32 0x80000000) = true
    ∧ Val.eq (f32 0) (f32 0x3F800000) = false := by decide +kernel

theorem witness_ScalarOperands : mwf 0 ((tile0 0).strand 0).s = true ∧ mwf 0 (tile0 0).g = true ∧ mwf Strand.reset (tile0 0).strands = true
    ∧ (tile0 0).ecc = [] := by decide +kernel

theorem witness_LogicAndShifts :
    (∀ o ∈ [0x04, 0x05, 0x06, 0x07], runs (wordOf o (body 0 4 1 2 3 0x80 0)) (aluOk [0]) = true)
    ∧ (∀ fn ∈ [0, 1], runs (wordOf 0x08 (body fn 4 1 2 3 0x80 0)) (aluOk [0, 1]) = true)
    ∧ runs (wordOf 0x0A (body 0x1F 0 1 2 3 0x80 0)) selOk = true ∧ runs (wordOf 0x0B (body 0 0 1 0x80 0x80 0x80 5)) liOk = true := by
  decide +kernel

/-- LDS of 2^fn bytes from ZERO + `a`, and STS of them. -/
def ldsB (fn a : Nat) : IBody := body fn 0 1 0x80 0x80 0x80 a
@[inherit_doc ldsB] def stsB (fn a : Nat) : IBody := body fn 0 0x80 0x80 1 0x80 a

/-- Addresses at the edges of tile store, row statistics and tile control space, good and bad. -/
theorem witness_ScalarMemory :
    (∀ e ∈ [(0, 0), (3, 0xFFFF8), (2, 0x100000), (3, 0x101FF8), (3, 0x110000), (2, 0x110FFC), (1, 1), (3, 0x100000 - 4), (1, 0x100000),
        (2, 0x102000), (3, 0x111000)],
      runs (wordOf 0x0C (ldsB e.1 e.2)) ldsOk = true ∧ runs (wordOf 0x0D (stsB e.1 e.2)) stsOk = true)
    ∧ (((tile0 0).src 0 (wordOf 0x0C (ldsB 3 0xFFFF8)) 0x80).toNat + (immOf (wordOf 0x0C (ldsB 3 0xFFFF8))).toNat) % 2 ^ 32 = 0xFFFF8
    ∧ mwf 0 (tile0 0).ts = true ∧ mwf 0xFF800000 (tile0 0).rsMax = true ∧ mwf 0 (tile0 0).rsSum = true
    ∧ mwf Tile.reset (at' 0).tiles = true := by decide +kernel

/-! ### Control, signals and barriers, their words from R93 to R100 -/

theorem witness_Predicates : pcondOf (wordOf 0x01 (BitVec.ofNat 120 (2 ^ 107))) = 0 ∧ pnegOf (wordOf 0x01 (BitVec.ofNat 120 (2 ^ 107))) = 1 := by
  decide +kernel

theorem witness_Traps :
    (∀ fn ∈ [0, 1], runs (wordOf 0x26 (body fn 0 0x80 0x80 0x80 0x80 0xFFFF)) trapOk = true) ∧ (at' 0).partOf 0 = some 0 := by decide +kernel

/-- A strand that waits for a reason. -/
def waiting (r : Wait) : State := dev { Tile.reset with strands := [(0, { Strand.reset with sched := .waiting r })] }

/-- A tile with one signal in the mesh for it. -/
def sigState : State := { dev Tile.reset with sigs := [(⟨0, 0, 0, 63, 5⟩ : SigMsg)] }

theorem witness_Signals :
    runs (wordOf 0x30 (body 0 0 0x80 0x80 0x80 0x80 (2 ^ 32 + 63))) sigOk = true
    ∧ runs (wordOf 0x30 (body 1 0 0x80 0x80 0x80 0x80 (2 ^ 32 + 63))) sigOk = true ∧ part0.physOf 0 = some 0
    ∧ runs (wordOf 0x30 (body 1 0 0x80 0xC0 0x80 0x80 (2 ^ 32 + 63))) sigOk = true
    ∧ part0.tiles ≤ ((tile0 0).src 0 (wordOf 0x30 (body 1 0 0x80 0xC0 0x80 0x80 (2 ^ 32 + 63))) 0xC0).toNat
    ∧ firstOfPair sigState.sigs 0 = true ∧ (sigState.tile 0).capture = none
    ∧ runs (wordOf 0x31 (body 1 0 0x80 0x80 0x80 0x80 63)) waitqOk = true ∧ ((tile0 0).counter 63 - 0).toNat < 2 ^ 31
    ∧ runs (wordOf 0x31 (body 0 0 0x80 0x80 0x80 0x80 (2 ^ 32 + 63))) waitqOk = true ∧ 2 ^ 31 ≤ ((tile0 0).counter 63 - 1).toNat
    ∧ ((waiting (.waitq 63 0 true)).tile 0).frozen = false
    ∧ (((waiting (.waitq 63 0 true)).tile 0).strand 0).sched = .waiting (.waitq 63 0 true) := by decide +kernel

/-- Barrier group 31, fixed for two members, with strand 5 arrived. -/
def barState : State := dev { Tile.reset with
  strands := [(0, { Strand.reset with sched := .waiting (.bar 31 2 false) }), (5, { Strand.reset with sched := .waiting (.bar 31 2 true) })]
  bars := [(31, some ⟨2, [5]⟩)] }

theorem witness_BarriersAndFences :
    runs (wordOf 0x32 (body 0 0 0x80 0x80 0x80 0x80 (512 * 65536 + 31))) barOk = true
    ∧ runs (wordOf 0x33 (body 0x3F 0 0x80 0x80 0x80 0x80 0)) fenceOk = true ∧ (at' 0).fenceOpen 0 0 0x3F = 0
    ∧ (waiting (.bar 31 512 false)).fenceOpen 0 0 3 = 0
    ∧ barState.fenceOpen 0 0 3 = 0 ∧ (barState.tile 0).barGroup 31 = some ⟨2, [5]⟩ ∧ mwf none (barState.tile 0).bars = true
    ∧ mwf Strand.reset (barState.tile 0).strands = true ∧ mwf Tile.reset barState.tiles = true ∧ mwf Part.reset barState.parts = true := by
  decide +kernel

theorem witness_Issue :
    (at' (wordOf 0x25 (body 0 0 0x80 0x80 0x80 0x80 0))).canIssue 0 1 0 = false
    ∧ (at' (wordOf 0x25 (body 0 0 0x80 0x80 0x80 0x80 1))).canIssue 0 0 (wordOf 0x25 (body 0 0 0x80 0x80 0x80 0x80 1)) = true
    ∧ haltOk (wordOf 0x25 (body 0 0 0x80 0x80 0x80 0x80 1)) = false
    ∧ predHolds (wordOf 0x25 (BitVec.ofNat 120 (2 ^ 107))) 0 = false
    ∧ (at' 0).strandReady 0 0 = true ∧ ((at' 0).tile 0).frozen = false ∧ (at' 0).clockStopped 0 = false := by decide +kernel

/-- A branch word with `fn`, SD and SA. -/
def brW (o fn sd sa sb imm : Nat) : IWord := wordOf o (body fn 0 sd sa sb 0x80 imm)

theorem witness_ControlFlow :
    runs (brW 0x20 0 0x80 0x80 0x80 16) brOk = true ∧ runs (brW 0x20 0 0x80 0x80 0x80 8) brOk = true
    ∧ runs (brW 0x20 1 0x80 0x80 0x80 16) brOk = true
    ∧ runs (brW 0x22 1 15 0x80 0x80 16) callOk = true ∧ runs (brW 0x23 0 0x80 15 0x80 0) retOk = true
    ∧ runs (brW 0x21 0x11 0x80 1 2 16) brcOk = true ∧ runs (brW 0x21 0x2A 0x80 0x80 0x80 16) brcOk = true
    ∧ runs (wordOf 0x24 (body 0 0 0x80 0x80 0x80 0x80 0xFFFF)) yieldOk = true ∧ runs (wordOf 0x25 (body 0 0 0x80 0x80 0x80 0x80 0)) haltOk = true
    ∧ ((waiting (.yield 1)).tile 0).frozen = false ∧ (((waiting (.yield 1)).tile 0).strand 0).sched = .waiting (.yield 1) := by decide +kernel

/-- A strand at a PC with nothing fetched. -/
def fetching (pc : W32) : State := dev { Tile.reset with strands := [(0, { Strand.reset with sched := .ready, pc := pc })] }

/-- The last line of tile store holds a reserved opcode 0xFF. -/
def fetchBad : State := dev { Tile.reset with
  strands := [(0, { Strand.reset with sched := .ready, pc := 0xFFFF0 })], ts := [(0xFFFFF, 0xFF)] }

theorem witness_FetchAndTileFaults :
    ((fetching 0).tile 0).frozen = false ∧ (((fetching 0).tile 0).strand 0).started = true ∧ (((fetching 0).tile 0).strand 0).nextWord = none
    ∧ opcReserved 0x33 = false ∧ (((fetching 0x100000).tile 0).strand 0).nextWord = none
    ∧ opcReserved (opcOf (BitVec.ofNat 128 (leNat (mgetList 0 (fetchBad.tile 0).ts 0xFFFF0 16)))) = true
    ∧ fetchBad.clockStopped 0 = false ∧ fetchBad.tilePaused 0 = false ∧ (fetchBad.tile 0).ecc = [] ∧ (fetchBad.tile 0).vecOps 0 = [] ∧ fetchBad.partOf 0 = some 0
    ∧ ((after (exec (.instructionFetch 0 0) fetchBad)).tile 0).capture.isSome = true := by decide +kernel

/-! ### The matrix side -/

theorem witness_WindowNeverWraps : [((Fmt.bf16.decode 0x3F80, Fmt.bf16.decode 0x3F80, 0) : Val × Val × Nat)].length ≤ 65536
    ∧ (match Val.mul (Fmt.bf16.decode 0x3F80) (Fmt.bf16.decode 0x3F80) with | .fin _ m _ => decide (m < 2 ^ 22) | _ => false) = true := by
  decide +kernel

theorem witness_EntryConversion : ∀ f ∈ [Fmt.bf16, .fp16, .fp32, .e4m3, .e5m2, .int8, .e2m1, .int4], f.isBlock = false ∧ f ≠ .tern := by decide


/-- MMA on slot 15 with FLAGS, SA, formats and K. -/
def mmaW (o flags sa fa fb k : Nat) : IWord := wordOf o (body 0 flags 15 sa 0x80 0x80 (k * 2 ^ 48 + fa * 2 ^ 40 + fb * 2 ^ 32))

/-- A tile whose slot 15 holds a descriptor and whose S1 is 64 bytes below the end of tile store. -/
def slotTile (w : IWord) (d : SlotDesc) : Tile := { tile0 w with
  strands := [(0, { strand0 w with s := [(1, 0xFFFC0)] })], slots := if d = SlotDesc.reset then [] else [(15, d)] }

theorem witness_MatrixIssue :
    runs (mmaW 0x40 0 0x80 1 1 32) mmaOk = true ∧ mmaCheck (tile0 0) 0 (mmaW 0x40 0 0x80 1 1 32) = none
    ∧ runs (mmaW 0x40 0 0x80 0xFF 1 32) mmaOk = true ∧ mmaCheck (tile0 0) 0 (mmaW 0x40 0 0x80 0xFF 1 32) = some (0x24, 0)
    ∧ runs (mmaW 0x41 0 0x80 1 1 32) mmaOk = true ∧ mmaCheck (tile0 0) 0 (mmaW 0x41 0 0x80 1 1 32) = some (0x24, 0)
    ∧ runsIn (dev (slotTile (mmaW 0x40 0 1 1 1 2048) .reset)) (mmaW 0x40 0 1 1 1 2048) mmaOk = true
    ∧ mmaCheck (slotTile 0 .reset) 0 (mmaW 0x40 0 1 1 1 2048) = some (0x23, faultAddr 1 0xFFFC0)
    ∧ mmaCheck (slotTile 0 ⟨0, true, 1, 511, 0, 0⟩) 0 (mmaW 0x40 0 0x80 1 1 32) = some (0x20, 0)
    ∧ mmaCheck (slotTile 0 ⟨1, true, 1, 0, 0, 0⟩) 0 (mmaW 0x40 2 0x80 1 1 32) = some (0x24, 0)
    ∧ mmaCheck (slotTile 0 ⟨0, true, 1, 0, 0, 65504⟩) 0 (mmaW 0x40 2 0x80 1 1 32) = none
    ∧ mmaCheck (slotTile 0 ⟨0, true, 1, 0, 0, 65536⟩) 0 (mmaW 0x40 2 0x80 1 1 32) = some (0x21, 0)
    ∧ runs (wordOf 0x42 (body 0 0 0x80 15 0x80 0x80 (2 ^ 40))) accrdOk = true ∧ outFormatOk 1 0 = true ∧ outFormatOk 4 0 = false
    ∧ runs (wordOf 0x43 (body 0 0 0x80 15 0x80 0x80 0)) accclrOk = true ∧ ((tile0 0).slot 15).inflight = 0 := by decide +kernel

/-- An operation of strand 0 in the matrix unit. -/
def op (w : IWord) : QOp := ⟨0, 0, w, 0, 0, 0, 0, 0, none, false, 0, 0, 0, 0⟩

/-- The matrix queue holds an MMA; the array is free, or runs an MMA that the queued one chains to. -/
def mqState (o : IWord) (arr : List MmaRun) : State := dev { Tile.reset with mq := [op o], arr := arr }

/-- An MMA of slot 15 in the array. -/
def mmaRun : MmaRun := ⟨op (mmaW 0x40 0 0x80 1 1 32), [], 32, 0, false, 0⟩

theorem witness_MatrixUnit :
    (mqState (mmaW 0x40 0 0x80 1 1 32) []).slotBusy 0 15 = false ∧ chains mmaRun (op (mmaW 0x40 2 0x80 1 1 32)) = true
    ∧ chains mmaRun (op (mmaW 0x40 0 0x80 1 1 32)) = false ∧ (mqState (mmaW 0x40 0 0x80 1 1 32) [mmaRun]).slotBusy 0 15 = true
    ∧ (op (mmaW 0x40 0 0x80 1 1 32)).slotOf = 15 ∧ (op (wordOf 0x42 (body 0 0 0x80 15 0x80 0x80 (2 ^ 40)))).slotOf = 15
    ∧ (op (wordOf 0x43 (body 0 0 0x80 15 0x80 0x80 0))).slotOf = 15
    ∧ freeDrain [] = some 0 ∧ Fmt.ofCode (immf (wordOf 0x42 (body 0 0 0x80 15 0x80 0x80 (2 ^ 40))) 47 40) = some .bf16
    ∧ mwf Tile.reset (mqState 0 [mmaRun]).tiles = true ∧ mwf SlotDesc.reset ((mqState 0 [mmaRun]).tile 0).slots = true
    ∧ mwf Entry.zero ((mqState 0 [mmaRun]).tile 0).acc = true := by decide +kernel

/-- With the eight drain entries taken none is free. -/
theorem witness_MatrixUnit_full : freeDrain ((List.range 8).map fun n => ⟨n, [], [], [], 1, 0, 0, false, false, 0, 0, false, false⟩) = none := by
  decide +kernel

/-! ### The vector side, words from R120 to R133, and votes -/

theorem witness_VectorIssue :
    runs (wordOf 0x52 (body 0 0 0x3F 0xBF 0x80 0x80 0)) vdrainOk = true ∧ runs (wordOf 0x53 (body 4 4 0x3F 0x20 0x7E 0x80 0)) vopOk = true
    ∧ runs (wordOf 0x54 (body 7 0 0x3F 0x20 0x80 0x80 0)) vredOk = true ∧ runs (wordOf 0x55 (body 0x17 0 0x0F 0x20 0x80 0x80 0)) vsumOk = true
    ∧ runs (wordOf 0x56 (body 1 0 0x3F 0x20 0x80 0x80 31)) vbcOk = true ∧ runs (wordOf 0x57 (body 6 0 0x3F 0x20 0x20 0x20 0)) vtblOk = true
    ∧ runs (wordOf 0x5A (body 0 0 0x3F 0x80 0x80 0x80 1)) vrngOk = true ∧ runs (wordOf 0x5C (body 0 0 0x80 0x20 0x80 0x80 0xFFFF)) vscaleOk = true
    ∧ runs (wordOf 0x5C (body 1 0 0x80 0x80 0x80 0x80 0)) vscaleOk = true
    ∧ (∀ fn ∈ [1, 2], runs (wordOf 0x98 (body fn 0 0x3F 0x20 0x80 0x80 0)) lscaleVecOk = true)
    ∧ runs (wordOf 0x50 (body 0 0 0x3F 0x80 0x80 0x80 (2 ^ 40))) vldOk = true ∧ vldCheck (wordOf 0x50 (body 0 0 0x3F 0x80 0x80 0x80 (2 ^ 40))) 0 = none
    ∧ runs (wordOf 0x51 (body 0 0 0x80 0x80 0x3F 0x80 (2 ^ 40))) vldOk = true
    ∧ vldCheck (wordOf 0x51 (body 0 0 0x80 0x80 0x3F 0x80 (2 ^ 40))) 0 = none
    ∧ vldCheck (wordOf 0x50 (body 0 0 0x3F 0x80 0x80 0x80 (2 ^ 40))) 0xFF800 = none
    ∧ vldCheck (wordOf 0x50 (body 0 0 0x3F 0x80 0x80 0x80 (2 ^ 40))) 0xFF840 = some (0x23, faultAddr 1 0xFF840)
    ∧ vldCheck (wordOf 0x50 (body 0 0 0x3F 0x80 0x80 0x80 (2 ^ 40))) 32 = some (0x23, faultAddr 1 32)
    ∧ vldCheck (wordOf 0x50 (body 0 0 0x3F 0x80 0x80 0x80 (64 * 2 ^ 48 + 2 ^ 40))) 16 = none
    ∧ vldCheck (wordOf 0x50 (body 0 0 0x3F 0x80 0x80 0x80 (4 * 2 ^ 40))) 0 = some (0x24, 0)
    ∧ runs (wordOf 0x58 (body 0 0 0x3F 0x20 0x80 0x80 (2 ^ 40))) vqntOk = true ∧ vqntCheck (wordOf 0x58 (body 0 0 0x3F 0x20 0x80 0x80 (2 ^ 40))) = none
    ∧ vqntCheck (wordOf 0x58 (body 0 0 0x3F 0x20 0x80 0x80 (4 * 2 ^ 40))) = some (0x24, 0)
    ∧ runs (wordOf 0x59 (body 0 0 0x3F 0x20 0x80 0x80 (2 ^ 40))) vdqOk = true ∧ vqntCheck (wordOf 0x59 (body 0 0 0x3F 0x20 0x80 0x80 (2 ^ 40))) = none
    ∧ runs (wordOf 0x5B (body 0 0 0x60 0x62 0x20 0x80 0)) voptOk = true ∧ voptCheck 0 = none ∧ voptCheck 0xFFFE0 = none
    ∧ voptCheck 0xFFFF0 = some (0x23, faultAddr 1 0xFFFF0)
    ∧ Fmt.ofCode (immf (wordOf 0x50 (body 0 0 0x3F 0x80 0x80 0x80 (2 ^ 40))) 47 40) = some .bf16 := by decide +kernel

/-- A drain entry of strand 0. -/
def drain0 : Drain := ⟨7, [], [], [], 1, 0, 15, true, false, 0, 0, true, true⟩

/-- A vector queue and what is in flight. -/
def vqState (w : IWord) (run : List VRun) (d : List Drain) : State := dev { Tile.reset with vq := [op w], vrun := run, drain := d }

/-- VOP copy VT31 from VT0; VQNT; VDRAIN. -/
def vopW : IWord := wordOf 0x53 (body 0 4 0x3F 0x20 0x80 0x80 0)
@[inherit_doc vopW] def vqntW : IWord := wordOf 0x58 (body 0 0 0x3F 0x20 0x80 0x80 (2 ^ 40))
@[inherit_doc vopW] def vdrainW : IWord := wordOf 0x52 (body 0 0 0x3F 0xBF 0x80 0x80 0)

theorem witness_VectorEngine :
    ((vqState vopW [] []).tile 0).vhazard (op vopW) = false ∧ opcOf vopW ≠ 0x52
    ∧ ((vqState vopW [⟨op vopW, [.vt 0 []], [], none, none⟩] []).tile 0).vhazard (op vopW) = true
    ∧ opcOf vqntW = 0x58 ∧ (op vqntW).scale = none ∧ opcOf vdrainW = 0x52 ∧ ((vqState vdrainW [] [drain0]).tile 0).vhazard (op vdrainW) = false
    ∧ drain0.strand = (op vdrainW).strand
    ∧ mwf 0 ((vqState vopW [] []).tile 0).vt = true ∧ (List.replicate 32 (0 : W32)).length = 32
    ∧ mwf Tile.reset (vqState vopW [] []).tiles = true := by decide +kernel

theorem witness_VectorResults :
    vkind (sdOf vopW) = .vt 31 ∧ xtOf vopW ≤ 0x0C ∧ xtOf (wordOf 0x53 (body 0xD 0 0x3F 0x20 0x80 0x80 0)) = 0x0D
    ∧ vkind (saOf vopW) = .vt 0 ∧ sdOf (wordOf 0x55 (body 0x17 0 0x0F 0x20 0x20 0x80 0)) ≤ 0x0F
    ∧ xtOf (wordOf 0x55 (body 0x17 0 0x0F 0x20 0x20 0x80 0)) % 4 = 3
    ∧ (∀ fn ∈ [0, 3, 4, 7], xtOf (wordOf 0x54 (body fn 0 0x3F 0x20 0x80 0x80 0)) = fn)
    ∧ (∀ fn ∈ [0, 1, 2], xtOf (wordOf 0x55 (body fn 0 0x0F 0x20 0x80 0x80 0)) = fn)
    ∧ Fmt.ofCode (immf vqntW 47 40) = some .bf16 ∧ immf vqntW 63 48 = 0 ∧ tileBytes .bf16 false ≤ 2048
    ∧ vkind (sbOf (wordOf 0x51 (body 0 0 0x80 0x80 0x3F 0x80 (2 ^ 40)))) = .vt 31 ∧ vkind (saOf vdrainW) = .rsMax 31
    ∧ (Fmt.bf16.decode 0x7FC0).isNan = true ∧ (Fmt.bf16.decode 0).isNan = false
    ∧ (Fmt.bf16.decode 0).lt (Fmt.bf16.decode 0x3F80) = true ∧ (Fmt.bf16.decode 0).lt (Fmt.bf16.decode 0x8000) = false
    ∧ (Fmt.bf16.decode 0x8000).lt (Fmt.bf16.decode 0) = false ∧ (Fmt.bf16.decode 0x8000).sign = true := by decide +kernel

/-- Elements in another order. -/
theorem witness_ReductionsOrderFree : ([0x3F800000, 0x7F800000] : List W32).Perm [0x7F800000, 0x3F800000] := List.Perm.swap _ _ _
/-- Products in another order. -/
theorem witness_OrderFree (p q : Val × Val × Nat) : [p, q].Perm [q, p] := List.Perm.swap _ _ _

/-- A message of tile 0 that waits to be merged. -/
def staged (m : VStage) : State := { dev Tile.reset with stageMsgs := [⟨0, 0, 0, 0, m, 0, none, none⟩] }

/-- Partition 0 with its commit's status, and a collective of entry 7 done. -/
def partDone : Part := { part0 with commitStatus := some 0, collDone := [⟨0, 0, 7, 1⟩] }

theorem witness_NumericsInStep :
    (vqState vqntW [] []).partOf 0 = some 0 ∧ ((vqState vqntW [] []).tile 0).vq[0]? = some (op vqntW) ∧ ((vqState vqntW [] []).part 0).num.calActive = false
    ∧ (staged (.observe 65535 (some 1) true 1)).stageMsgs[0]? = some ⟨0, 0, 0, 0, .observe 65535 (some 1) true 1, 0, none, none⟩
    ∧ ((staged (.observe 65535 (some 1) true 1)).part 0).stepOpen = false
    ∧ (({ staged (.observe 65535 (some 1) true 1) with parts := [(0, { part0 with stepOpen := true })] }).part 0).stepOpen = true
    ∧ (staged (.site 16383 ⟨1, 1, 1, 1, 1⟩)).stageMsgs[0]? = some ⟨0, 0, 0, 0, .site 16383 ⟨1, 1, 1, 1, 1⟩, 0, none, none⟩
    ∧ runs (wordOf 0x98 (body 0 0 0x0F 0x80 0x80 0x80 0)) lscaleScalarOk = true ∧ dstOk 0x0F = true
    ∧ runs (wordOf 0x98 (body 3 0 0x80 0x80 0x80 0x80 0)) lscaleScalarOk = true ∧ srcOk 0x80 = true ∧ (f32 0).isFin = true
    ∧ (f32 0x7F800000).isFin = false ∧ ((at' 0).part 0).num.ctrlStep.getLsbD 11 = false
    ∧ runs (wordOf 0x99 (body 0 0 0x80 0x80 0x80 0x80 0)) lscaleScalarOk = true ∧ runs (wordOf 0x99 (body 1 0 0x0F 0x80 0x80 0x80 0)) lscaleScalarOk = true
    ∧ ((at' 0).part 0).num.global = none
    ∧ runsIn (devP partDone (tile0 (wordOf 0x91 (body 0 0 0x0F 0x80 0x80 0x80 0xFFFF)))) (wordOf 0x91 (body 0 0 0x0F 0x80 0x80 0x80 0xFFFF)) cwaitOk = true
    ∧ runsIn (devP partDone (tile0 (wordOf 0x91 (body 0 0 0x0F 0x80 0x80 0x80 7)))) (wordOf 0x91 (body 0 0 0x0F 0x80 0x80 0x80 7)) cwaitOk = true := by
  decide +kernel

/-- What a mesh or host message brings over a crossing that failed, and over one that did not. -/
theorem witness_NumericsInStep_crossed :
    (⟨true, [(2, 3)]⟩ : Crossed Bool).lost = true ∧ (⟨true, [(2, 2)]⟩ : Crossed Bool).lost = false ∧ (⟨false, [(2, 3)]⟩ : Crossed Bool).lost = false := by
  decide

/-! ### Movement and stage queues -/

/-- DMA of 4 bytes, spaces `fn`, `rows` + 1 rows; PFX and SPILL with FN[0]. -/
def dmaW (fn sa sb sc rows : Nat) : IWord := wordOf 0x80 (body fn 0 0x80 sa sb sc (rows * 2 ^ 40 + 4))

/-- Members 0 and 1, with a formed gang. -/
def partGang : Part := { part0 with gang := { GangReg.reset with formed := true } }

theorem witness_MovementChecks :
    let s := devP partGang Tile.reset
    s.moveEndCheck 0 .local 0xFFFFC 1 4 4 = none ∧ s.moveEndCheck 0 .local 0xFFFFC 2 4 4 = none
    ∧ s.moveEndCheck 0 .local 0xFFFFC 1 8 8 ≠ none ∧ s.moveEndCheck 0 .local 0x101FFC 1 4 4 = none
    ∧ s.moveEndCheck 0 .local 0x102000 1 4 4 ≠ none ∧ s.moveEndCheck 0 .local (2 ^ 32) 1 4 4 ≠ none ∧ s.moveEndCheck 0 .local 2 1 4 4 ≠ none
    ∧ s.moveEndCheck 0 .hbm 0xBFFFFFFFC 1 4 4 = none ∧ s.moveEndCheck 0 .hbm 0xBFFFFFFFC 2 4 4 ≠ none
    ∧ s.moveEndCheck 0 .remote (2 ^ 32 - 4) 1 4 4 = none ∧ (s.part 0).tiles ≤ 2 ^ 32 / 2 ^ 32 ∧ s.moveEndCheck 0 .remote (2 ^ 32) 1 4 4 ≠ none
    ∧ s.moveEndCheck 0 .peer (2 ^ 56) 1 4 4 = none ∧ s.moveEndCheck 0 .peer 0 1 4 4 ≠ none
    ∧ s.moveEndCheck 0 .peer (2 ^ 56 + 2 ^ 48) 1 4 4 ≠ none ∧ (devP part0 Tile.reset).moveEndCheck 0 .peer (2 ^ 56) 1 4 4 ≠ none
    ∧ s.partOf 0 = some 0 ∧ scOf (dmaW 2 0x80 0x80 0 0) ≠ 0x80
    ∧ ({ Tile.reset with strands := [(0, { Strand.reset with s := [(0, 2)] })] }.src 0 (dmaW 2 0x80 0x80 0 0) 0).toNat % 2 ^ 32 % 4 ≠ 0 := by
  decide +kernel

/-- The device about to issue `w` with `n` descriptor slots of engine 0 held. -/
def held (n : Nat) (w : IWord) : State := { at' w with engines := if n = 0 then [] else [(0, n)] }

/-- `w` issues with `n` slots held, and its checks answer `f`. -/
def issuesMove (n : Nat) (w : IWord) (f : Option W64) : Bool :=
  runsIn (held n w) w dmaOk && decide ((held n w).moveCheck 0 0 w = f) && decide ((held n w).engineOf 0 = 0) && decide ((held n w).engineHeld 0 = n)

/-- PFX from member 1's region at S1. -/
def pfxGang : State :=
  devP partGang { tile0 (wordOf 0x81 (body 1 0 0x80 1 0x80 0x80 4)) with
    strands := [(0, { strand0 (wordOf 0x81 (body 1 0 0x80 1 0x80 0x80 4)) with s := [(1, 2 ^ 56)] })] }

/-- DMA from host window 0 into tile store. -/
def hostGet : State := devP { part0 with hostWin := [(0, ⟨0, 4096, true, false⟩)] } (tile0 (dmaW 3 0x80 0x80 0x80 0))

theorem witness_MovementIssue :
    issuesMove 0 (dmaW 2 0x80 0x80 0x80 0) none = true ∧ issuesMove 63 (dmaW 8 0x80 0x80 0x80 3) none = true
    ∧ issuesMove 64 (dmaW 2 0x80 0x80 0x80 0) none = true
    ∧ issuesMove 0 (wordOf 0x80 (body 2 0 0x80 0x80 0x80 0x80 (2 ^ 40 + 0x100004))) (some (faultAddr 1 0)) = true
    ∧ issuesMove 0 (wordOf 0x81 (body 0 0 0x80 0x80 0x80 0x80 4)) (some 0) = true
    ∧ issuesMove 0 (wordOf 0x82 (body 1 0 0x80 0x80 0x80 0x80 4)) (some 0) = true
    ∧ runsIn pfxGang (wordOf 0x81 (body 1 0 0x80 1 0x80 0x80 4)) dmaOk = true
    ∧ pfxGang.moveCheck 0 0 (wordOf 0x81 (body 1 0 0x80 1 0x80 0x80 4)) = none
    ∧ (held 0 (dmaW 2 0x80 0x80 0x80 0)).partOf 0 = some 0 ∧ pfxGang.partOf 0 = some 0 ∧ hostGet.partOf 0 = some 0
    ∧ runsIn hostGet (dmaW 3 0x80 0x80 0x80 0) dmaOk = true ∧ hostGet.moveCheck 0 0 (dmaW 3 0x80 0x80 0x80 0) = none
    ∧ (moveSpaces (dmaW 3 0x80 0x80 0x80 0)).1 = .host ∧ (hostGet.tile 0).serial ∉ (hostGet.tile 0).timedOut
    ∧ (hostGet.part 0).hostRows (op (dmaW 3 0x80 0x80 0x80 0)) = [(0, 0, 4)] ∧ hostGet.engineHeld (hostGet.engineOf 0) < 64
    ∧ needsEngine (op (dmaW 2 0x80 0x80 0x80 0)).word = true
    ∧ canon { held 63 0 with tiles := [(0, { tile0 0 with xq := [op (dmaW 2 0x80 0x80 0x80 0)] })] } = true := by decide +kernel

/-- A tile with one movement outstanding. -/
def moving (w : IWord) : State := { dev { Tile.reset with xrun := [op w] } with engines := [(0, 1)] }

/-- The movement `w` can be completed. -/
def completes (s : State) (w : IWord) : Bool :=
  canon s && decide (s.partOf 0 = some 0) && decide ((s.tile 0).xrun.find? (fun q => decide (q.serial = 0)) = some (op w))
    && (s.tile 0).ecc.isEmpty && s.hbmPoison.isEmpty && s.hbmErr.isEmpty

/-- A PFX from member 1 outstanding, over a link that is in order or lost. -/
def pfxMoving (lost : Bool) : State :=
  { dev { Tile.reset with xrun := [{ op (wordOf 0x81 (body 1 0 0x80 1 0x80 0x80 4)) with sa := 2 ^ 56 }] } with
    engines := [(0, 1)], links := if lost then [(1, { Link.reset with lost := true })] else [] }

theorem witness_MovementCompletion :
    completes (moving (dmaW 2 0x80 0x80 0x80 0)) (dmaW 2 0x80 0x80 0x80 0) = true
    ∧ completes (moving (dmaW 8 0x80 0x80 0x80 1)) (dmaW 8 0x80 0x80 0x80 1) = true
    ∧ 0 ∉ ((moving (dmaW 2 0x80 0x80 0x80 0)).tile 0).timedOut ∧ canon (pfxMoving true) = true
    ∧ ((pfxMoving false).tile 0).xrun.find? (fun q => decide (q.serial = 0)) = some { op (wordOf 0x81 (body 1 0 0x80 1 0x80 0x80 4)) with sa := 2 ^ 56 }
    ∧ ((pfxMoving false).tile 0).capture = none ∧ ({ op (wordOf 0x81 (body 1 0 0x80 1 0x80 0x80 4)) with sa := 2 ^ 56 } : QOp).peer = some 1
    ∧ ((pfxMoving true).link ((pfxMoving true).gangLink 1)).lost = true ∧ moveRows (wordOf 0x81 (body 1 0 0x80 1 0x80 0x80 4)) = (1, 4)
    ∧ opcOf (wordOf 0x81 (body 1 0 0x80 1 0x80 0x80 4)) = 0x81
    ∧ opcOf (dmaW 2 0x80 0x80 0x80 0) = 0x80 ∧ fl105 (dmaW 2 0x80 0x80 0x80 0) = false
    ∧ moveStrides (dmaW 8 0x80 0x80 0x80 1) 0 = (4, 4) ∧ needsEngine (dmaW 8 0x80 0x80 0x80 1) = true
    ∧ moveSpaces (dmaW 2 0x80 0x80 0x80 0) = (.hbm, .local) ∧ moveSpaces (dmaW 8 0x80 0x80 0x80 1) = (.local, .hbm)
    ∧ moveRows (dmaW 8 0x80 0x80 0x80 1) = (2, 4)
    ∧ (∀ i, i < 2 → 0 + i * 4 + 4 ≤ 0x100000) ∧ (∀ i, i < 2 → 0 + i * 4 + 4 ≤ part0.hbmSize)
    ∧ part0.bays.Nodup ∧ (∀ b ∈ part0.bays, b < 12) ∧ mwf 0 (Tile.reset).ts = true ∧ mwf 0 (Tile.reset).sc = true := by decide +kernel

/-- A local queue of logical tile 0 with itself: depth 2, 64-byte entries, its ring at HBM address 0. -/
def queue0 : QueueBinding := ⟨0, 0, 0, 0, 5, 6, 0, 2, 64, 0, 0, 0⟩
/-- A queue whose other side is on another device. -/
def queue1 : QueueBinding := { queue0 with dir := 1 }
/-- SQPUT and SQGET of that queue at tile address `a`. -/
def putW (a : Nat) : IWord := wordOf 0x88 (body 0 0 0x80 0x80 0x80 0x80 (5 * 2 ^ 32 + a))
@[inherit_doc putW] def getW (a : Nat) : IWord := wordOf 0x89 (body 0 0 0x80 0x80 0x80 0x80 (6 * 2 ^ 32 + a))
/-- The partition with that queue: two credits, and its slot 0 full. -/
def partQ (b : QueueBinding) : Part := { partV (variant0 [] [b] []) with queues := [(0, { QueueState.zero with credits := 2, full := [(0, true)] })] }

/-- The device about to issue the queue instruction `w`, and with it outstanding in an open step. -/
def sqState (w : IWord) : State := devP (partQ queue0) (tile0 w)
@[inherit_doc sqState] def sqMoving (w : IWord) : State := devP { partQ queue0 with stepOpen := true } { Tile.reset with xrun := [op w] }
/-- The device about to put into the queue of another device, every link to it lost or none. -/
def sqFar (lost : Bool) : State :=
  { devP (partQ queue1) (tile0 (putW 0)) with links := if lost then (bundle 1).map fun n => (n, { Link.reset with lost := true }) else [] }

/-- `w` issues and names the queue, whose entry is at `a`. -/
def issuesSq (w : IWord) (a : Nat) : Bool :=
  runsIn (sqState w) w sqOk && decide ((sqState w).bindingFor 0 w = some (0, queue0)) && decide ((sqState w).partOf 0 = some 0)
    && decide ((((sqState w).tile 0).src 0 w (saOf w)).toNat + immf w 31 0 = a)

theorem witness_StageQueueIssue :
    issuesSq (putW 0xFFFC0) 0xFFFC0 = true ∧ issuesSq (getW 0xFFFC0) 0xFFFC0 = true ∧ issuesSq (putW 0xFFFE0) 0xFFFE0 = true
    ∧ issuesSq (getW 0x100000) 0x100000 = true
    ∧ runs (putW 0) sqOk = true ∧ (at' (putW 0)).bindingFor 0 (putW 0) = none
    ∧ runs (getW 0) sqOk = true ∧ (at' (getW 0)).bindingFor 0 (getW 0) = none
    ∧ (∀ q ∈ [queue0, queue1], (partQ q).cur = some (variant0 [] [q] []) ∧ (variant0 [] [q] []).queues[0]? = some q)
    ∧ queue0.dir = 0 ∧ queue1.dir ≠ 0 ∧ (∀ b ∈ [true, false], runsIn (sqFar b) (putW 0) sqOk = true ∧ (sqFar b).partOf 0 = some 0
      ∧ (sqFar b).bindingFor 0 (putW 0) = some (0, queue1) ∧ (sqFar b).torusLost queue1.dir = b)
    ∧ (1 : W32) ≠ (partQ queue1).caps.epoch := by decide +kernel

/-- The device about to get from a queue whose producer's bundle is lost, or not. -/
def sqFarGet (lost : Bool) : State :=
  { devP (partQ { queue1 with producerStage := 31 }) (tile0 (getW 0)) with
    links := if lost then (bundle 2).map fun n => (n, { Link.reset with lost := true }) else [] }

theorem witness_StageQueueIssue_get : ∀ b ∈ [true, false], runsIn (sqFarGet b) (getW 0) sqOk = true ∧ (sqFarGet b).torusLost (3 - queue1.dir) = b := by
  decide +kernel

theorem witness_StageQueueTransfer :
    completes (sqMoving (putW 0xFFFC0)) (putW 0xFFFC0) = true ∧ completes (sqMoving (getW 0xFFFC0)) (getW 0xFFFC0) = true
    ∧ (sqMoving (putW 0xFFFC0)).bindingFor 0 (putW 0xFFFC0) = some (0, queue0)
    ∧ (sqMoving (getW 0xFFFC0)).bindingFor 0 (getW 0xFFFC0) = some (0, queue0)
    ∧ ((sqMoving (putW 0xFFFC0)).tile 0).stageNext (op (putW 0xFFFC0)) = true ∧ ((sqMoving (putW 0xFFFC0)).part 0).stepLive = true
    ∧ (partQ queue1).cur = some (variant0 [] [queue1] []) ∧ (variant0 [] [queue1] []).queues[0]? = some queue1
    ∧ (List.replicate 64 (0xA5 : Byte)).length = queue1.entryBytes
    ∧ queue1.ringAddr + (((partQ queue1).queue 0).puts % queue1.depth + 1) * queue1.entryBytes ≤ (partQ queue1).hbmSize
    ∧ (1 : W32) ≠ (partQ queue1).caps.epoch ∧ queue0.entryBytes % 64 = 0 ∧ (partQ queue0).bays.Nodup ∧ (∀ b ∈ (partQ queue0).bays, b < 12)
    ∧ queue0.ringAddr + (0 + 1) * queue0.entryBytes ≤ (partQ queue0).hbmSize
    ∧ (0 + immf (putW 0xFFFC0) 31 0) % 2 ^ 32 + queue0.entryBytes ≤ 0x100000 ∧ opcOf (putW 0xFFFC0) = 0x88 ∧ opcOf (getW 0) = 0x89
    ∧ mwf 0 (Tile.reset).ts = true ∧ mwf 0 (Tile.reset).sc = true := by decide +kernel

theorem witness_StageQueueBoundary :
    (partQ queue0).cur = some (variant0 [] [queue0] []) ∧ mwf QueueState.zero (partQ queue0).queues = true
    ∧ (variant0 [] [queue0] []).queues[0]? = some queue0 := by decide +kernel

/-! ### HBM -/

theorem witness_HbmInterleave : let x : Part := { part0 with bays := [0, 3] }
    x.bays.Nodup ∧ (∀ c ∈ x.bays, c < 12) ∧ 0 < x.hbmSize ∧ 0x17FFFFFFFF < x.hbmSize ∧ x.hbmSize = 0x1800000000 := by decide +kernel

/-- The device whose partition 0 has written nothing, its session running. -/
def partDirty : Part := { part0 with mem := { part0.mem with dirtyActive := true } }

theorem witness_HbmWrites : let s : State := { State.reset with parts := [(0, partDirty)] }
    canon s = true ∧ (s.part 0).bays.Nodup ∧ (∀ c ∈ (s.part 0).bays, c < 12) ∧ 0xBFFFFFFE0 + (List.replicate 32 (0x5A : Byte)).length ≤ (s.part 0).hbmSize
    ∧ 0xBFFFFFFE0 % 32 = 0 ∧ (s.part 0).exist = true ∧ s.hbmPoison = [] ∧ s.hbmErr = [] ∧ (s.part 0).mem.dirtyActive = true
    ∧ 32 * 0x5FFFFFFF < (s.part 0).hbmSize ∧ mget false s.hbmPoison ((s.part 0).hbmKey (32 * 0x5FFFFFFF) / 32) = false := by decide +kernel

/-- The device whose tiles have nothing. -/
def quietState (p : Part) : State := { State.reset with parts := [(0, p)] }

/-! ### Collectives -/

/-- An entry over gang members 0 and 1, four bf16 elements each on the 24-bit wire; only its OP differs. -/
def entry0 (o : Nat) : CollEntry := ⟨o, 0, 0, 2, 0, 3, 1, 1, 0, 0, 0, 0, 0, 0, 0, 0, 0⟩

/-- COLL of entry 0 with OP and FLAGS. -/
def collW (o flags : Nat) : IWord := wordOf 0x90 (body o flags 0x80 0x80 0x80 0x80 0)

/-- The partition whose image has the entry. -/
def partC (o : Nat) : Part := partV (variant0 [entry0 o] [] [])

theorem witness_CollectiveIssue :
    runsIn (devP (partC 2) (tile0 (collW 2 0))) (collW 2 0) collOk = true ∧ (devP (partC 2) (tile0 0)).partOf 0 = some 0
    ∧ (devP (partC 2) (tile0 0)).collCheck 0 0 0 (collW 2 0) = none ∧ collSlot (collW 2 0) = false ∧ fl104 (collW 2 0) = false
    ∧ (tile0 0).cq = [] ∧ (partC 2).colls = [] ∧ ((devP (partC 2) (tile0 0)).onPair 0).length = 0
    ∧ runs (collW 2 0) collOk = true ∧ (at' 0).collCheck 0 0 0 (collW 2 0) = some (0x23, 0)
    ∧ runsIn (devP (partC 2) (tile0 (collW 0 0))) (collW 0 0) collOk = true
    ∧ (devP (partC 2) (tile0 0)).collCheck 0 0 0 (collW 0 0) = some (0x24, 0) := by decide +kernel

/-- The COLL `w` as the capstan pair holds it. -/
def run0 (w : IWord) (started : Bool) (got : List (Bool × Nat × Nat × Nat)) : CollRun :=
  ⟨0, op w, 0, started, 0, 0, 0, [], [], got, false, [], false⟩

/-- The device with that collective accepted. -/
def collState (r : CollRun) (ls : SMap Link) : State := { State.reset with parts := [(0, { partC 2 with colls := [r] })], links := ls }

/-- A LAST bucket at the head of its tile's queue, every tile with strands having committed. -/
def lastState (done : Bool) : State := devP (partC 2) { Tile.reset with inStep := true, worked := true, committed := done, cq := [op (collW 2 3)] }

theorem witness_CollectiveStart :
    (collState (run0 (collW 2 0) false []) []).partOf 0 = some 0
    ∧ (((collState (run0 (collW 2 0) false []) []).releaseColls 0 0 4).part 0).coll 0 0 = some (run0 (collW 2 0) false [])
    ∧ (((collState (run0 (collW 2 0) false []) []).releaseColls 0 0 4).collShape 0 0).isSome = true
    ∧ (((collState (run0 (collW 2 0) false []) []).releaseColls 0 0 4).part 0).capsWork = true
    ∧ ((collState (run0 (collW 2 0) false []) []).releaseColls 0 0 4).collStarts 0 (run0 (collW 2 0) false []) = true
    ∧ (((collState (run0 (collW 2 0) false []) []).collShape 0 0).bind fun c => (collState (run0 (collW 2 0) false []) []).collLost c) = none
    ∧ (((collState (run0 (collW 2 0) false []) [(1, { Link.reset with lost := true })]).collShape 0 0).bind fun c =>
        (collState (run0 (collW 2 0) false []) [(1, { Link.reset with lost := true })]).collLost c) = some (1, 1)
    ∧ ((collState (run0 (collW 2 0) false []) [(1, { Link.reset with lost := true })]).releaseColls 0 0 4).collStarts 0 (run0 (collW 2 0) false []) = true
    ∧ ((lastState true).tile 0).cq = [op (collW 2 3)] ∧ (op (collW 2 3)).serial = 0 ∧ opcOf (collW 2 3) = 0x90 ∧ fl104 (collW 2 3) = true
    ∧ ((lastState true).part 0).capsWork = true ∧ (lastState true).lastReady 0 = true ∧ (lastState false).lastReady 0 = false
    ∧ (lastState true).collLeaves 0 0 (op (collW 2 3)) = true
    ∧ (((lastState true).takeColl 0 0 (op (collW 2 3)) []).part 0).coll 0 0 = some (run0 (collW 2 3) false [])
    ∧ ((lastState true).takeColl 0 0 (op (collW 2 3)) []).collStarts 0 (run0 (collW 2 3) false []) = true
    ∧ (((lastState true).takeColl 0 0 (op (collW 2 3)) []).part 0).collWait = [] := by decide +kernel

/-- A gather message of epoch `ep` from member 1, its four elements 0x0201, 0x0403, 0x0605 and 0x0807, with check `c`. -/
def msg0 (ep c : W32) : CollMsg := ⟨0, true, true, false, 0, 2, 0, ep, 1, 1, 0, 0, 4, 0, c, [1, 2, 3, 4, 5, 6, 7, 8]⟩

/-- The partition FAULTED. -/
def partStruck : Part := { partC 2 with fault := { FaultRec.zero with valid := true } }

theorem witness_CollectiveMessages :
    ((collState (run0 (collW 2 0) true []) []).part 0).exist = true ∧ ((collState (run0 (collW 2 0) true []) []).part 0).faulted = false
    ∧ ((collState (run0 (collW 2 0) true []) []).part 0).hove.state ≠ 2
    ∧ ([((0 : W32), (0x3FCA88C5 : W32)), (0, 0), (1, 0), (0xFFFFFFFF, 0)].all fun e =>
      decide (CollMsg.ofBytes (msg0 e.1 e.2).toBytes = some (msg0 e.1 e.2))) = true
    ∧ partStruck.exist = true ∧ partStruck.faulted = true ∧ partStruck.collWait = [] ∧ newerEpoch (msg0 1 0).epoch partStruck.caps.epoch = true
    ∧ (1, (msg0 1 0).epoch) ∉ partStruck.caps.seen ∧ canon (quietState partStruck) = true
    ∧ (msg0 0 0x3FCA88C5).epoch = (partC 2).caps.epoch ∧ crc32 (msg0 0 0x3FCA88C5).bytes = 0x3FCA88C5 ∧ crc32 (msg0 0 0).bytes ≠ 0
    ∧ (collState (run0 (collW 2 0) true []) []).collFor 0 1 (msg0 0 0) = some (run0 (collW 2 0) true [])
    ∧ ((collState (run0 (collW 2 0) true []) []).collShape 0 0).isSome = true
    ∧ (entry0 2).op = 2 ∧ (entry0 2).wire ≠ 3 ∧ (entry0 2).group = 0
    ∧ (msg0 1 0).epoch = (partC 2).caps.epoch + 1
    ∧ (collState (run0 (collW 2 0) false []) []).collFor 0 1 (msg0 0 0) = none ∧ (msg0 0 0).entry ≠ 0xFFFF
    ∧ (msg0 0xFFFFFFFF 0).epoch ≠ (partC 2).caps.epoch ∧ (msg0 0xFFFFFFFF 0).epoch ≠ (partC 2).caps.epoch + 1 := by decide +kernel

/-- A ring of a 32-extent Y axis, whose entry this device has; and the exchange's header. -/
def partRing : Part := partV ({ variant0 [{ entry0 0 with group := 1, size := 32, xmask := 0 }] [] [] with yj := 32 })

theorem witness_CollectiveMessages_more :
    ((quietState partRing).passesOn 0 4 { msg0 0 0 with op := 0, chunk := 5 }).isSome = true
    ∧ (quietState (partC 2)).passesOn 0 1 (msg0 0 0) = none
    ∧ (quietState (partC 2)).passesOn 0 1 { msg0 0 0 with entry := 0xFFFF } = none
    ∧ (quietState (partC 2)).collFor 0 1 { msg0 0 0 with entry := 0xFFFF } = none
    ∧ newerEpoch (0 : W32) partStruck.caps.epoch = false ∧ (0 : W32) = partStruck.caps.epoch := by decide +kernel

/-- The device long after the collective was issued. -/
def late (s : State) : State := { s with time := 0x200000000 }

theorem witness_CollectiveEnd :
    canon (collState (run0 (collW 2 0) true [(true, 1, 1, 4)]) []) = true
    ∧ ((collState (run0 (collW 2 0) true [(true, 1, 1, 4)]) []).part 0).coll 0 0 = some (run0 (collW 2 0) true [(true, 1, 1, 4)])
    ∧ ((collState (run0 (collW 2 0) true [(true, 1, 1, 4)]) []).collShape 0 0).any (fun c => c.complete (run0 (collW 2 0) true [(true, 1, 1, 4)])) = true
    ∧ ((collState (run0 (collW 2 0) true []) []).collShape 0 0).any (fun c => !(c.complete (run0 (collW 2 0) true [(true, 1, 1, 3)]))) = true
    ∧ ((collState (run0 (collW 2 0) true []) []).tile 0).frozen = false ∧ ((collState (run0 (collW 2 0) true []) []).tile 0).cq = []
    ∧ (∀ u ∈ (partC 2).enabled, ((collState (run0 (collW 2 0) true []) []).tile u).cq = []) ∧ mwf 0 (Tile.reset).sc = true
    ∧ fl104 (collW 2 3) = true ∧ collSlot (collW 2 3) = false
    ∧ ((collState (run0 (collW 2 3) true [(true, 1, 1, 4)]) []).part 0).coll 0 0 = some (run0 (collW 2 3) true [(true, 1, 1, 4)])
    ∧ (op (collW 2 0)).issued.toNat + (partC 2).timeouts.toNat / 2 ^ 16 % 2 ^ 16 * 100000
      ≤ (late (collState (run0 (collW 2 0) true []) [])).time.toNat
    ∧ (∀ d ∈ ((collState (run0 (collW 2 0) true []) []).part 0).colls, d.op.serial = 0 → d = run0 (collW 2 0) true []) := by decide +kernel

theorem witness_CollectiveEnd_crossed :
    ((collState (run0 (collW 2 0) true [(true, 1, 1, 4)]) []).collShape 0 0).any (fun c => decide (0 < c.destWords (collW 2 0))) = true
    ∧ (⟨[0], [(2, 3)]⟩ : Crossed (List Nat)).failed = true ∧ ((collState (run0 (collW 2 0) true []) []).tile 0).capture = none := by decide +kernel

theorem witness_WireSum :
    [0x3F80, 0x7FC0].length ≤ 32 ∧ Fmt.bf16.decode 0x7FC0 = .nan ∧ Fmt.bf16.decode 0x7F80 = .inf false ∧ Fmt.bf16.decode 0xFF80 = .inf true
    ∧ (∀ x ∈ [0x3F80, 0x7F80], Fmt.bf16.decode x ≠ .nan) ∧ (∀ x ∈ [0x3F80, 0x7F80], Fmt.bf16.decode x ≠ .inf true)
    ∧ (∀ x ∈ [0, 0x3F80, 0x7F7F], (Fmt.bf16.decode x).isFin = true) ∧ (Fmt.bf16.decode 0x7F80).isFin = false := by decide +kernel

/-- Contributions in another order. -/
theorem witness_WireSum_order : [0x3F80, 0x7F80].Perm [0x7F80, 0x3F80] := List.Perm.swap _ _ _

/-! ### Steps and the commit -/

/-- A command of partition 0 with its opcode, argument bytes and whether it has started; its timeout is 5 ticks. -/
def cmd0 (o : Nat) (args : List Byte) (started : Bool) : Cmd :=
  ⟨1, 0, 0, 1, o, false, 5, 1000, 0, args, .host, started, 0, 0, 0, 0, none, 0, none, 0, [], false, [], false⟩

/-- A partition that runs RUN_STEPS, its start list strand 0 of logical tile 0, with a step open or not. -/
def partRun (isOpen : Bool) : Part := { partV (variant0 [] [] [⟨0, 0, 5, 0x40, 9⟩]) with cmds := [cmd0 3 [] true], stepOpen := isOpen }

/-- The device with it: tile 0 in the step, committed, its strand inactive or READY. -/
def stepState (p : Part) (sched : Sched) : State :=
  { devP p { Tile.reset with inStep := true, committed := true, strands := if sched = .inactive then [] else [(0, { Strand.reset with sched := sched })] }
    with time := 10000000 }


/-- The commit exchange entered, with a local vote, and replay off. -/
def entered (v : Vote) : Part := { partRun true with exch := ⟨true, 0, v⟩, num := { Numerics.reset with ctrlStep := 0 } }

/-- The record of the gang's other member, whose vote is `v`. -/
def rec1 (v : Vote) : ExchRec := ⟨v, [], [], []⟩

/-- A tile whose DMA is outstanding in the open step. -/
def stepMove : State :=
  { devP (partRun true) { Tile.reset with inStep := true, strands := [(0, { Strand.reset with sched := .ready })], xrun := [op (dmaW 2 0x80 0x80 0x80 0)] }
    with time := 10000000 }

/-- A partition in its step that has received an early-abort notice. -/
def partAbort : Part := { partRun true with earlyAbort := true, num := { Numerics.reset with ctrlStep := 0 } }

theorem witness_StepAndCommit :
    canon (quietState (partRun false)) = true ∧ (quietState (partRun false)).runCmd 0 = some (cmd0 3 [] true)
    ∧ (partRun false).cur = some (variant0 [] [] [⟨0, 0, 5, 0x40, 9⟩]) ∧ (quietState (partRun false)).stepMayStart 0 = true ∧ (partRun false).caps.held = []
    ∧ (partRun false).physOf 0 = some 0
    ∧ witnessSelected (variant0 [] [] [⟨0, 0, 5, 0x40, 9⟩]) (partRun false).wit (partRun false).num.step = []
    ∧ runs (wordOf 0x9A (body 0 0 0x80 0x80 0x80 0x80 0)) commitOk = true ∧ (tile0 0).committed = false ∧ (tile0 0).cq = []
    ∧ canon (stepState (partRun true) .inactive) = true ∧ (stepState (partRun true) .inactive).partOf 0 = some 0
    ∧ ((stepState (partRun true) .inactive).tile 0).inStep = true ∧ ((stepState (partRun true) .inactive).tile 0).frozen = false
    ∧ (stepState (partRun true) .inactive).tileDone 0 0 = true ∧ (partRun true).stepResult = none
    ∧ (stepState (partRun true) .inactive).exchangeReady 0 = true
    ∧ ((entered .clean).mergeOthers [rec1 .clean]).2.isClean = true ∧ ((entered .clean).mergeOthers [rec1 { Vote.clean with nan := true }]).2.isClean = false
    ∧ (stepState (entered .clean) .inactive).allRecords 0 [(1, rec1 .clean)] = true ∧ (stepState (entered .clean) .inactive).writesDone 0 = true
    ∧ (entered .clean).stepResult = none ∧ (entered .clean).calDue = false ∧ (entered .clean).num.stepsLeft ≠ 1
    ∧ (entered .clean).exch.entered = true ∧ (entered .clean).stepOpen = true ∧ (entered .clean).capsWork = true
    ∧ (stepState (entered .clean) .inactive).tilesInStep 0 ≠ [] ∧ (entered .clean).caps.held = []
    ∧ (entered .clean).num.ctrlStep.getLsbD 9 = false
    ∧ canon (stepState partAbort .inactive) = true ∧ partAbort.earlyAbort = true ∧ partAbort.stepOpen = true ∧ partAbort.sound = true
    ∧ (stepState partAbort .inactive).tilesInStep 0 ≠ [] ∧ partAbort.caps.held = [] ∧ partAbort.calDue = false
    ∧ partAbort.num.ctrlStep.getLsbD 9 = false ∧ (∀ u ∈ (stepState (partRun true) .ready).tilesInStep 0, ((stepState (partRun true) .ready).tile u).transfers = [])
    ∧ stepMove.runCmd 0 = some (cmd0 3 [] true) ∧ (cmd0 3 [] true).start.toNat + (cmd0 3 [] true).timeout ≤ stepMove.time.toNat
    ∧ 0 ∈ stepMove.tilesInStep 0 ∧ op (dmaW 2 0x80 0x80 0x80 0) ∈ (stepMove.tile 0).transfers
    ∧ (stepState (partRun true) .ready).runCmd 0 = some (cmd0 3 [] true) ∧ (partRun true).sound = true
    ∧ (cmd0 3 [] true).start.toNat + (cmd0 3 [] true).timeout ≤ (stepState (partRun true) .ready).time.toNat
    ∧ (stepState (partRun true) .ready).leastOpen 0 = some (0, 0)
    ∧ (partRun false).exist = true ∧ (partRun false).idleRec.time.toNat + 10000000 ≤ (stepState (partRun false) .inactive).time.toNat := by
  decide +kernel

/-- The device of a gang whose member 1 is lost, ready for its exchange. -/
def exchState (lost : Bool) : State :=
  { stepState (partRun true) .inactive with links := [(1, { Link.reset with lost := lost })] }

theorem witness_StepAndCommit_lost :
    (exchState true).exchangeReady 0 = true ∧ (exchState true).exchLost 0 = some (1, 1) ∧ (exchState false).exchLost 0 = none := by decide +kernel

theorem witness_CommitNumerics :
    mwf scaleReset (Numerics.reset).scale = true ∧ ({ Numerics.reset with lossL := -8 } : Numerics).lossL = -8
    ∧ seDelayed (mget scaleReset (Numerics.reset).scale 0) = false ∧ mwf scaleReset [(3, (0x0000900000000000 : W64))] = true
    ∧ seDelayed (mget scaleReset [(3, (0x0000900000000000 : W64))] 3) = true := by decide +kernel

/-! ### Partition faults, resets and admission -/

/-- A fault of the partition that strikes epoch 0. -/
def fault0 : PendFault := ⟨0x12, true, none, 0, 0, 0, none, some 0⟩
/-- A partition with faults pending, its record filled or not. -/
def partF (l : List PendFault) (valid : Bool) : Part := { part0 with pend := l, fault := if valid then { FaultRec.zero with valid := true } else .zero }
/-- The device with tile 0 frozen by it, 20 µs after. -/
def frozenState (p : Part) : State := { devP p { Tile.reset with halted := true } with time := 2000 }
/-- A strike of a job and an epoch. -/
def strike0 (job epoch : Nat) : List Byte := leBytes 8 1 ++ leBytes 4 job ++ leBytes 4 epoch

/-- A gang member whose lead is lost while its RUN_STEPS runs. -/
def partLost : Part :=
  { part0 with
    gang := { GangReg.reset with formed := true, role := 2, index := 2, leadLost := true }, lostFault := some fault0
    cmds := [cmd0 3 [] true] }

theorem witness_PartitionFaults :
    canon (quietState (partF [fault0] false)) = true ∧ (quietState (partF [fault0] false)).dueFaults 0 = [fault0] ∧ (partF [fault0] false).fault.valid = false
    ∧ (partF [fault0] false).exist = true ∧ fault0.epoch = some 0 ∧ (1, 0) ∉ (partF [fault0] false).caps.seen
    ∧ canon (frozenState (partF [fault0, fault0] true)) = true ∧ (frozenState (partF [fault0, fault0] true)).dueFaults 0 = fault0 :: [fault0]
    ∧ partLost.pend = [] ∧ partLost.lostFault = some fault0 ∧ ((quietState partLost).runningControl 0).isSome = true
    ∧ (quietState { partLost with cmds := [] }).dueFaults 0 = [fault0]
    ∧ (partF [] true).faulted = true ∧ (frozenState (partF [] true)).partOf 0 = some 0 ∧ ((frozenState (partF [] true)).tile 0).dead = false
    ∧ (partF [] true).frozenAt.toNat + 2000 ≤ (frozenState (partF [] true)).time.toNat
    ∧ (quietState (partF [] true)).anyFrozen 0 = false
    ∧ leNat ((strike0 7 0).take 1) = 1
    ∧ (∀ q, q < 12 → ((quietState part0).part q).image.isSome = true → ((quietState part0).part q).caps.job.toNat ≠ leNat (((strike0 7 0).drop 8).take 4))
    ∧ (quietState { partC 2 with caps := { CapRegs.reset with job := 7 } }).part 0 = { partC 2 with caps := { CapRegs.reset with job := 7 } }
    ∧ (partC 2).image.isSome = true ∧ (7 : W32).toNat = leNat (((strike0 7 0).drop 8).take 4)
    ∧ (partC 2).caps.epoch.toNat = leNat (((strike0 7 0).drop 12).take 4) ∧ (partC 2).caps.committedEpochs = [] ∧ (partC 2).caps.held = [] := by
  decide +kernel

/-- A strike of an older epoch that was discarded. -/
theorem witness_PartitionFaults_older : let x := { partC 2 with caps := { CapRegs.reset with job := 7, epoch := 5 } }
    newerEpoch 3 x.caps.epoch = false ∧ (1, (3 : W32)) ∉ x.caps.seen ∧ (3 : W32) ∉ x.caps.committedEpochs ∧ x.caps.held = []
    ∧ (partF [] true).bays.contains (bayOf 0) = true := by decide +kernel

/-- A tile whose scrubber stands at word `n`, which a single-bit error holds. -/
def scrubTile (n : Nat) : Tile := { Tile.reset with scrub := n, ecc := [(eccKey 0 (4 * n), 1)] }
/-- A beat with one bad symbol, in a bay of a partition or of none. -/
def scrubState (ps : SMap Part) : State := { State.reset with parts := ps, hbmErr := [(0, 1)] }
/-- A faulted partition whose tiles reset by themselves. -/
def partAuto : Part := { partF [] true with autoReset := true }

theorem witness_ScrubAndReset :
    canon (dev (scrubTile 65535)) = true ∧ mwf 0 (scrubTile 65535).ecc = true ∧ mget 0 (scrubTile 65535).ecc (eccKey 0 (4 * 65535)) = 1
    ∧ mget 0 (quietState part0).hbmScrub 0 + 1 < 48 * 2 ^ 30 / 32 ∧ (quietState part0).hbmErr = []
    ∧ canon (scrubState []) = true ∧ mget 0 (scrubState []).hbmErr 0 = 1 ∧ (scrubState []).ownerOfBay 0 = none
    ∧ (scrubState [(0, part0)]).ownerOfBay 0 = some 0
    ∧ (quietState part0).part 0 = part0 ∧ part0.exist = true ∧ part0.resetting = none
    ∧ partAuto.faulted = true ∧ (frozenState partAuto).anyFrozen 0 = true ∧ partAuto.dump.state ≠ 1 ∧ partAuto.dump.state ≠ 2 ∧ partAuto.dumpDue = false
    ∧ partAuto.image = none ∧ partAuto.ela.run = none ∧ ({ part0 with resetting := some 3 } : Part).resetting = some 3
    ∧ ({ part0 with resetting := some 3 } : Part).destroy = none ∧ canon (quietState { part0 with resetting := some 3 }) = true := by decide +kernel

/-- A partition in a reset whose engine 0 has not answered; a frozen one with a traverse, under its own coordinator. -/
theorem witness_ScrubAndReset_more :
    let x := { part0 with resetting := some 0 }
    let y := { partC 2 with fault := { FaultRec.zero with valid := true }, autoReset := true, ela := { Ela.reset with ctrl := 0x80000000 } }
    x.hasUnit ⟨0, 1, 0⟩ = true ∧ x.hasUnit ⟨0, 2, 0⟩ = true ∧ x.resetting.isSome = true ∧ (1, 0) ∉ x.resetGone
    ∧ x.resetStart.toNat + 100000 ≤ ({ quietState x with time := 100000 } : State).time.toNat
    ∧ y.faulted = true ∧ y.image.isSome = true ∧ (frozenState y).anyFrozen 0 = true ∧ ((frozenState y).jobCtrl 0 0x80000000).getLsbD 31 = true
    ∧ ((frozenState { y with ela := { Ela.reset with ctrl := 0 } }).jobCtrl 0 0).getLsbD 31 = false := by decide +kernel

/-- A request of a kind and class for one bay, or an ill-formed one. -/
def req0 (kind cls bays : Nat) : AdmReq := { AdmReq.zero with kind := kind, cls := cls, bayCount := bays, waitLimit := 1, deadline := 1 }
/-- The device with that request in ADM_REQ, and partitions. -/
def admState (r : AdmReq) (ps : SMap Part) : State := { State.reset with parts := ps, adm := { State.reset.adm with req := r } }
/-- The device with request slot 0 as given, and partitions. -/
def slotState (v : AdmSlot) (q : List Nat) (ps : SMap Part) : State :=
  { State.reset with parts := ps, adm := { State.reset.adm with slots := [(0, v)], queue := q, served := [(0, 0)] }, time := 100000000 }

/-- Slot 0 PENDING for class `c`, its victim partition 0. -/
def pendSlot (c : Nat) : AdmSlot := { AdmSlot.free with slot := 1, req := req0 0 c 12, victims := [0] }

/-- Slot 0 with a deferred CREATE, and with a lease of 1 s. -/
def waitSlot : AdmSlot := { AdmSlot.free with slot := 2, req := req0 0 2 1 }
@[inherit_doc waitSlot] def leaseSlot : AdmSlot := { AdmSlot.free with slot := 2, req := { req0 0 0 1 with duration := 1 } }

theorem witness_Admission :
    canon (admState (req0 0 1 1) []) = true ∧ (admState (req0 0 1 1) []).tackUp = true ∧ ((admState (req0 0 1 1) []).adm.slot 0).slot = 0
    ∧ (admState (req0 0 1 0) []).admCheck (req0 0 1 0) = some 1 ∧ (admState (req0 0 1 1) []).pendingSlots = []
    ∧ (admState (req0 0 1 1) []).adm.queue = [] ∧ (admState (req0 0 1 1) []).admCheck (req0 0 1 1) = none
    ∧ ((admState (req0 0 1 1) []).part 0).exist = false ∧ (req0 0 1 1).choose ((admState (req0 0 1 1) []).availFor (req0 0 1 1) []) = some [0]
    ∧ (admState (req0 1 1 2) [(0, part0)]).admCheck (req0 1 1 2) = none
    ∧ (req0 1 1 2).choose ((admState (req0 1 1 2) [(0, part0)]).availFor (req0 1 1 2) []) = some [0, 1] ∧ (sortBays [0, 1]).length ≠ 12
    ∧ (admState (req0 2 0 0) [(0, part0)]).admCheck (req0 2 0 0) = none ∧ part0.resetting = none
    ∧ ((slotState { AdmSlot.free with slot := 3 } [] []).adm.slot 0).slot = 3
    ∧ 0 ∈ (slotState waitSlot [0] []).adm.queue
    ∧ waitSlot.req.waitLimit ≠ 0
    ∧ 0 + 1 * 100000000 ≤ (slotState waitSlot [0] []).time.toNat
    ∧ (slotState waitSlot [0] []).pendingSlots = []
    ∧ (req0 0 2 1).choose ((slotState waitSlot [0] []).availFor (req0 0 2 1) []) = some [0]
    ∧ (slotState (pendSlot 0) [] [(0, part0)]).pendingSlots = [] ++ 0 :: [] ∧ 0 ∈ (pendSlot 0).victims ∧ (pendSlot 0).req.cls = 0
    ∧ (pendSlot 1).req.cls ≠ 0 ∧ (pendSlot 1).submitted.toNat + (pendSlot 1).req.deadline * 100000000 ≤ (slotState (pendSlot 1) [] [(0, part0)]).time.toNat
    ∧ (slotState (pendSlot 1) [] [(0, part0)]).pendingSlots = [] ++ 0 :: []
    ∧ part0.destroy = none ∧ (slotState leaseSlot [] [(0, part0)]).adm.creator 0 = some 0
    ∧ leaseSlot.leaseEnd = some 100000000 ∧ 100000000 ≤ (slotState leaseSlot [] [(0, part0)]).time.toNat ∧ part0.cmds = [] := by decide +kernel

/-! ### Host memory and the PCIe link -/

/-- The device whose functions have BAR2 windows of 64 GiB. -/
def bar2State : State := { quietState part0 with pci := [(part0.function 0, { PciFn.reset with windowLog2 := 36 })] }

/-- HBM bytes within the partition and beyond its end, and past the BAR2 window. -/
theorem witness_HostAccess :
    (quietState { part0 with exist := false }).part 0 = { part0 with exist := false } ∧ ({ part0 with resetting := some 0 } : Part).resetting.isSome = true
    ∧ part0.exist = true ∧ part0.resetting = none ∧ part0.bar2Base * 2 ^ 21 + 0xBFFFFFFFC + 4 ≤ part0.hbmSize
    ∧ part0.hbmSize < part0.bar2Base * 2 ^ 21 + 0xBFFFFFFFC + 5 ∧ bar2State.part 0 = part0 ∧ bar2State.hbmPoison = [] ∧ bar2State.hbmErr = []
    ∧ part0.bar2Base * 2 ^ 21 + 0xBFFFFFFFC + ([1, 2, 3, 4] : List Byte).length ≤ part0.hbmSize
    ∧ part0.hbmSize < part0.bar2Base * 2 ^ 21 + 0xBFFFFFFFC + ([1, 2, 3, 4, 5] : List Byte).length
    ∧ bar2State.windowSize (part0.function 0) = 0x1000000000 ∧ (5 ≤ 4096 ∧ 0xBFFFFFFFC + 5 ≤ 0x1000000000) ∧ ¬ 4097 ≤ 4096
    ∧ (quietState part0).windowSize (part0.function 0) < 0xBFFFFFFFC + 4 := by decide +kernel

/-- What came over a crossing that used up its retries, and over one that did not. -/
def cross (n : Nat) : Crossed (List Nat) := ⟨[0, 5], [(2, n)]⟩

theorem witness_HostAccess_more :
    bar2State.barPart 0 false = some 0 ∧ (quietState { part0 with exist := false }).barPart 0 false = none ∧ (quietState part0).barPart 0 true = none
    ∧ (cross 3).failed = true ∧ (cross 2).failed = false ∧ (cross 3).bad 0 = true ∧ 4 * 0 < ([1, 2, 3, 4] : List Byte).length
    ∧ (cross 3).bad 1 = false ∧ canon bar2State = true ∧ 36 ≤ 36 := by decide +kernel

/-- A host DMA of 8 bytes from or to host address 0x100 and HBM address 64. -/
def dmaCmd (o moved : Nat) : Cmd :=
  { cmd0 o (leBytes 8 0x100 ++ leBytes 8 64 ++ leBytes 8 8) true with engine := some 0, moved := moved }
/-- The partition with it, its read, and request slot 3 as given. -/
def partDma (o moved : Nat) (r : ReqSlot) : Part :=
  { part0 with cmds := [dmaCmd o moved], slots := [(3, r)], reads := [⟨.cmd 1, true, [], []⟩] }
/-- A read of 8 bytes under way, 4 of them received, in its eighth epoch or before. -/
def req8 (used : Nat) : ReqSlot := ⟨0, true, used, false, .cmd 1, 0x100, 64, 8, [1, 2, 3, 4], false⟩

theorem witness_HostTransfers :
    (partDma 0x10 0 (req8 6)).exist = true ∧ ((partDma 0x10 0 (req8 6)).reqSlot (3 % 2048)).waiting = true
    ∧ (partDma 0x10 0 (req8 6)).tag (3 % 2048) = 3 ∧ (partDma 0x10 0 (req8 6)).tag (2051 % 2048) ≠ 2051
    ∧ (partDma 0x10 0 (req8 6)).tag (4 % 2048) = 4 ∧ ((partDma 0x10 0 (req8 6)).reqSlot (4 % 2048)).waiting = false
    ∧ (∀ n ∈ [1, 4], (req8 6).buf.length + n ≤ (req8 6).len) ∧ (req8 6).len < (req8 6).buf.length + 5
    ∧ (quietState (partDma 0x10 0 (req8 6))).readLate 0 (req8 6).owner = false
    ∧ ({ quietState (partDma 0x10 0 (req8 6)) with time := 5 }).readLate 0 (req8 6).owner = true
    ∧ (partDma 0x10 0 (req8 6)).hostRead (req8 6).owner = some ⟨.cmd 1, true, [], []⟩
    ∧ (partDma 0x10 0 (req8 6)).cmd 1 = some (dmaCmd 0x10 0) ∧ (req8 6).used < 7 ∧ 7 ≤ (req8 7).used
    ∧ (({ part0 with slots := [(3, { ReqSlot.zero with held := true })] } : Part).reqSlot 3).held = true ∧ part0.reads = []
    ∧ (dmaCmd 0x11 0).engine = some 0 ∧ (dmaCmd 0x11 0).op = 0x11 ∧ (dmaCmd 0x11 7).moved < (dmaCmd 0x11 7).arg 16 8
    ∧ (quietState (partDma 0x11 7 ReqSlot.zero)).hbmPoison = [] ∧ (dmaCmd 0x11 8).moved = (dmaCmd 0x11 8).arg 16 8
    ∧ (dmaCmd 0x11 8).origin = .host ∧ (dmaCmd 0x11 8).forwarded = false ∧ (dmaCmd 0x10 8).op = 0x10 := by decide +kernel

theorem witness_HostTransfers_more :
    (quietState (partDma 0x11 0 ReqSlot.zero)).hbmErr = [] ∧ (dmaCmd 0x11 0).moved < (dmaCmd 0x11 0).arg 16 8
    ∧ ({ dmaCmd 0x10 8 with poison := some 64 } : Cmd).poison.isSome = true ∧ ({ dmaCmd 0x11 8 with ecc := true } : Cmd).ecc = true
    ∧ ({ dmaCmd 0x11 8 with crossed := [1] } : Cmd).crossed = [1] := by decide +kernel

/-- A partition with a tenancy whose host is monitored. -/
def partHove : Part := { part0 with tenancy := 9, hove := { Hove.reset with enable := true } }

theorem witness_PcieLink :
    ((quietState partHove).part 0).exist = true ∧ partHove.hove.enable = true ∧ partHove.tenancy ≠ 0 ∧ partHove.hove.state = 0
    ∧ partHove.resetting = none ∧ (quietState partHove).pkg.ready = true ∧ (quietState partHove).pkg.mode = 0
    ∧ (∀ p, p < 12 → ∀ q, q < 16 → (((quietState partHove).part p).cq q).held = []) := by decide +kernel

/-! ### Balca links, link 1, to gang member 1 -/

/-- The device with link 1 as given. -/
def linkState (l : Link) : State := { quietState { partC 2 with gang := { GangReg.reset with formed := true, present := 3 } } with links := [(1, l)], time := 1000000000000 }
/-- Link 1 in a state, with an identified peer. -/
def link1 (st : LinkState) : Link := { Link.reset with state := st, found := true, lanes := 15 }

/-- A DATA flit. -/
def flit0 (vc : Nat) (seq : BitVec 16) (epoch : W32) : Flit := ⟨epoch, seq, 0xFFFF, 0, 0, 0, true, true, vc, 1, []⟩

theorem witness_LinkTraining :
    canon (linkState (link1 .up)) = true ∧ Link.reset.enable = true ∧ Link.reset.state = .down ∧ Link.reset.barred = false ∧ Link.reset.failedAt = none
    ∧ (linkState (link1 .down)).clk.refclk = true ∧ (linkState (link1 .down)).pkg.perst = false ∧ (linkState (link1 .down)).linkOn 1 = true
    ∧ (linkState (link1 .down)).wiredRight 1 1 19 = true ∧ (linkState (link1 .down)).wiredRight 1 1 15 = false
    ∧ (linkState (link1 .down)).wiredRight 1 0x101 19 = false
    ∧ ({ link1 .down with cache := some (5, 19) } : Link).cache = some ((5, 19 % 32) : W64 × Nat)
    ∧ (5 : W64) ≠ 6 ∧ (link1 .trainFull).state = .trainFull ∧ (link1 .trainFull).attempts < 2
    ∧ 2 ≤ ({ link1 .trainFull with attempts := 2 } : Link).attempts ∧ (link1 .trainCached).state = .trainCached ∧ (link1 .trainCached).retraining = false
    ∧ ({ link1 .retrain with retraining := true } : Link).retraining = true ∧ (link1 .retrain).attempts < 2 ∧ (link1 .retrain).state = .retrain
    ∧ (link1 .qualify).state = .qualify ∧ ({ link1 .down with failedAt := some 5 } : Link).failedAt = some 5
    ∧ (5 : W64).toNat + 1000000000 ≤ (linkState (link1 .down)).time.toNat ∧ (link1 .up).state = .up
    ∧ ({ link1 .retrain with leftUp := some 5 } : Link).leftUp = some 5 ∧ (link1 .retrain).state ≠ .up ∧ (link1 .retrain).lost = false
    ∧ (5 : W64).toNat + (linkState (link1 .retrain)).lossMs * 100000 ≤ (linkState (link1 .retrain)).time.toNat
    ∧ (link1 .retrain).responder = false
    ∧ (linkState (link1 .retrain)).farMember 1 = some 1 ∧ ((linkState (link1 .retrain)).part 0).gang.formed = true
    ∧ ((linkState (link1 .retrain)).part 0).gang.present.getLsbD 1 = true
    ∧ (quietState { partLost with gang := { GangReg.reset with formed := true, role := 2, present := 3, index := 0, lead := 1 } }).finishesFirst 0 1 = true
    ∧ (link1 .up).found = true ∧ ({ Link.reset with enable := false, loopback := 1 } : Link).loopback ≠ 0 ∧ farEnd 1 = false ∧ farEnd 4 = true
    ∧ ({ link1 .down with responder := true } : Link).responder = true := by decide +kernel

theorem witness_LinkTraining_more :
    ({ link1 .trainFull with identified := true } : Link).identified = true ∧ (link1 .trainFull).identified = false
    ∧ (link1 .retrain).identified = false ∧ ({ link1 .retrain with cache := some (5, 19) } : Link).cache = some ((5, 19 % 32) : W64 × Nat)
    ∧ (link1 .retrain).wantFull = false ∧ (linkState (link1 .retrain)).linkOn 1 = true ∧ (linkState (link1 .trainFull)).linkOn 1 = true
    ∧ ({ link1 .retrain with responder := true, leftUp := some 5 } : Link).responder = true ∧ (link1 .retrain).enable = true
    ∧ ({ link1 .qualify with lost := true } : Link).lost = true
    ∧ ({ link1 .loopback with responder := true } : Link).state ≠ .up ∧ ({ link1 .loopback with responder := true } : Link).enable = true := by decide +kernel

theorem leNat_leBytes4 (n : Nat) (h : n < 2 ^ 32) : leNat (leBytes 4 n) = n := by
  have e : leBytes 4 n = [BitVec.ofNat 8 (n >>> 0), BitVec.ofNat 8 (n >>> 8), BitVec.ofNat 8 (n >>> 16), BitVec.ofNat 8 (n >>> 24)] := rfl
  simp only [e, leNat, BitVec.toNat_ofNat, Nat.shiftRight_eq_div_pow]
  omega

/-- Of 252 bytes followed by their CRC-32 the length and the CRC are right. -/
theorem sealed_bytes (b : List Byte) (h : b.length = 252) : let c := b ++ leBytes 4 (crc32 b).toNat
    c.length = 256 ∧ leNat (c.drop 252) = (crc32 (c.take 252)).toNat ∧ c.take 12 = b.take 12 ∧ (c.drop 12).take 240 = b.drop 12 := by
  have d : (b.drop 12).length = 240 := by simp [h]
  refine ⟨by simp [h, leBytes], ?_, by rw [List.take_append_of_le_length (by omega)], ?_⟩
  · rw [List.drop_append_of_le_length (by omega), List.take_append_of_le_length (by omega), ← h, List.drop_length, List.take_length, List.nil_append]
    exact leNat_leBytes4 _ (crc32 b).isLt
  · rw [List.drop_append_of_le_length (by omega), List.take_append_of_le_length (by omega), List.take_of_length_le (by omega)]

/-- The flits' bytes. -/
theorem witness_Flits : ∀ f ∈ [{ flit0 3 0 0 with type := 0 }, flit0 3 1 0, flit0 3 0 0, flit0 1 0 0, flit0 6 0 0, flit0 6 0 1, flit0 6 0 2],
    Flit.ofBytes f.bytes = some f := by
  intro f m
  have h : (leBytes 12 f.head ++ padTo 240 f.data).length = 252 := by
    revert f
    decide +kernel
  obtain ⟨a, b, c, d⟩ := sealed_bytes _ h
  simp only [Flit.ofBytes, Flit.bytes, a, b, c, d, ne_eq, not_true_eq_false, or_self, if_false]
  clear a b c d h
  revert f
  decide +kernel

theorem witness_Flits_bad : Flit.ofBytes [1, 2, 3] = none := rfl

/-- A message open on VC3 for 2 µs. -/
def openVc : VcState := { VcState.zero with isOpen := true, lastFlit := 5 }
/-- VC3 of link 1 with every receive buffer in use. -/
def fullVc : VcState := { VcState.zero with busy := vcBuffer 3 }

theorem witness_FlitLayer :
    canon (linkState (link1 .up)) = true ∧ (linkState (link1 .up)).link 1 = link1 .up ∧ (link1 .up).expectSeq = 0
    ∧ (flit0 3 1 0).seq ≠ (link1 .up).expectSeq ∧ (flit0 3 0 0).seq = (link1 .up).expectSeq
    ∧ vcBuffer 3 ≤ (({ link1 .up with vcs := [(3, fullVc)] } : Link).vcOf 3).busy ∧ (∀ v ∈ [1, 3, 4, 5, 6], ((link1 .up).vcOf v).busy
      + ((link1 .up).vcOf v).held.length < vcBuffer v)
    ∧ (linkState (link1 .up)).linkPart 1 = some 0 ∧ ((linkState (link1 .up)).part 0).deaf = false
    ∧ (flit0 1 0 0).epoch = ((linkState (link1 .up)).part 0).caps.epoch ∧ (flit0 6 0 1).epoch = ((linkState (link1 .up)).part 0).caps.epoch + 1
    ∧ (flit0 6 0 2).epoch ≠ ((linkState (link1 .up)).part 0).caps.epoch ∧ (flit0 6 0 2).epoch ≠ ((linkState (link1 .up)).part 0).caps.epoch + 1
    ∧ (if (link1 .up).nakCount ≠ 0 ∧ (3 : BitVec 16) = (link1 .up).nakSeq then (link1 .up).nakCount + 1 else 1) < 8
    ∧ 8 ≤ (if ({ link1 .up with nakCount := 7, nakSeq := 3 } : Link).nakCount ≠ 0 ∧ (3 : BitVec 16) = 3 then 7 + 1 else 1)
    ∧ ({ link1 .up with replay := [(flit0 3 0 0, 5)] } : Link).replay = [(flit0 3 0 0, 5)]
    ∧ (5 : W64).toNat + 2000 ≤ (linkState (link1 .up)).time.toNat ∧ (linkState (link1 .up)).time.toNat < (1000000000000 : W64).toNat + 2000 ∧ mwf VcState.zero (link1 .up).vcs = true
    ∧ mget VcState.zero [(3, openVc)] 3 = openVc ∧ openVc.opened = true ∧ openVc.slack = false
    ∧ openVc.lastFlit.toNat + 200 ≤ (linkState (link1 .up)).time.toNat
    ∧ 7 ≠ (linkState (link1 .up)).shardId ∧ (linkRole 4).1 = 1
    ∧ ({ quietState part0 with links := [(4, link1 .up), ((bundle 2).headD 0, link1 .up)] } : State).routeOver (bundle 2) 0 = some ((bundle 2).headD 0) := by decide +kernel

theorem witness_FlitLayer_more :
    ({ link1 .up with nakSent := true } : Link).nakSent = true ∧ (link1 .up).nakSent = false
    ∧ (flit0 6 0 0).epoch = ((linkState (link1 .up)).part 0).caps.epoch ∧ (flit0 6 0 0).last = true
    ∧ (64 + ([1, 2, 3, 4] : List Byte).length) ≤ ((linkState (link1 .up)).part 0).hbmSize
    ∧ ({ flit0 6 0 0 with last := false } : Flit).last = false := by decide +kernel

/-- A device at (0, 0, 0) whose gang's spare, or another's, has taken member 1's place; every link UP. -/
def relayState (there : Bool) : State :=
  { quietState partRing with relayed := [if there then 0x101 else 1], links := (List.range 32).map fun n => (n, link1 .up) }

theorem witness_Relay :
    (relayState true).relayed.contains 0x101 = true ∧ (linkRole 1).1 = 0 ∧ (relayState true).nextTo 0x101 = some 1
    ∧ (relayState true).routeOver (bundle 1) 0 = some 4 ∧ (relayState false).relayed.contains 1 = true ∧ (linkRole 4).1 = 1
    ∧ (relayState false).spareHolds = some (1 % 256) ∧ (relayState false).routeOver [0] 0 = some 0
    ∧ 0x200 ≠ (relayState true).shardId ∧ (relayState true).relayed.contains 0x200 = false
    ∧ (relayState true).relayed.contains ((relayState true).neighbour 2) = false ∧ (relayState true).routeOver (bundle 2) 0 = some ((bundle 2).headD 0)
    ∧ ({ relayState true with relayed := [0x1F00] } : State).relayed.contains (({ relayState true with relayed := [0x1F00] } : State).neighbour 2) = true
    ∧ (relayState true).linkPart 4 = some 0 := by decide +kernel

/-! ### Elastic operation -/

/-- A box of one stage and two replicas. -/
def variantZ (flags desc : Nat) : Variant := { variant0 [] [] [] with zj := 2, flags := flags, descFlags := desc }
/-- A move of 8 kept bytes to this device. -/
def move0 (precopy : Bool) : Move := ⟨2, precopy, 1, 0, 0, 0, 0, 64, 128, 8⟩
/-- An image with that variant and a plan with that move. -/
def imageZ (v : Variant) (precopy : Bool) : Image := { image0 v with plans := [⟨0, 0, [move0 precopy], 0, true⟩] }
/-- The running reshape, in a phase, with a segment left or not. -/
def reshape0 (phase left : Nat) (leaving : Bool) : Reshape :=
  ⟨phase, 0, 0, 0, 0, 5, 0, some 9, none, some 0, if phase = 5 then some 4 else none, some 7, 0, [], left, 0, 0, false, leaving, 0, [], none⟩
/-- A partition of that image with elastic state. -/
def partE (v : Variant) (e : Ela) : Part := { partV v with image := some (imageZ v true), ela := e, tenancy := 9 }
/-- The device with partition 0 as given, at a time past every timeout; tile 0 in the step or not. -/
def elaState (p : Part) (busy : Bool) : State :=
  { State.reset with parts := [(0, p)], tiles := if busy then [(0, { Tile.reset with inStep := true })] else [], time := 1000000000000 }
/-- SET_VARIANT to a target for a reason, command 1; CANCEL names reshape 5. -/
def setCmd (target reason : Nat) : Cmd := cmd0 4 ([BitVec.ofNat 8 target, BitVec.ofNat 8 reason, 0, 0, 0, 0, 0, 0] ++ leBytes 4 5) false
/-- With that command waiting. -/
def partSet (target reason : Nat) (r : Option Reshape) : Part :=
  { partE (variantZ 0 0) { Ela.reset with run := r } with cmds := [setCmd target reason] }

/-- The command can start, and its row lists the partition's state. -/
def canStart (s : State) (c : Cmd) : Bool :=
  s.mayStart 0 1 c.op && decide ((s.part 0).cmd 1 = some c) && (s.part 0).admits c.op .host
    && (!((s.part 0).gang.formed) || decide ((s.part 0).gang.role = 1)) && (!(needsTenancy c.op) || decide ((s.part 0).tenancy ≠ 0)) && decide (c.origin = .host) && !c.forwarded

theorem startable_of_canStart {s : State} {c : Cmd} (h : canStart s c = true) : s.startable 0 1 c.op c := by
  simp only [canStart, Bool.and_eq_true, Bool.or_eq_true, Bool.not_eq_true', decide_eq_true_eq] at h
  obtain ⟨⟨⟨⟨⟨⟨a, b⟩, d⟩, u⟩, e⟩, f⟩, g⟩ := h
  exact ⟨a, b, d, fun n => u.resolve_left (by simp [n]), fun n => e.resolve_left (by simp [n]), f, g⟩

theorem witness_VariantSwitch :
    canStart (elaState (partSet 9 0 none) false) (setCmd 9 0) = true ∧ ((elaState (partSet 9 0 none) false).begun 0 1 4).setCheck 0 9 0 = .refuse 1
    ∧ (setCmd 9 0).arg 1 1 % 16 ≠ 15
    ∧ canStart (elaState (partSet 0 0 none) false) (setCmd 0 0) = true ∧ ((elaState (partSet 0 0 none) false).begun 0 1 4).setCheck 0 0 0 = .go 0 none false
    ∧ canStart (elaState (partSet 0 15 (some (reshape0 1 0 false))) false) (setCmd 0 15) = true ∧ (setCmd 0 15).arg 1 1 % 16 = 15
    ∧ (reshape0 1 0 false).id.toNat = (setCmd 0 15).arg 8 4 ∧ (reshape0 1 0 false).phase = 1
    ∧ (reshape0 1 0 false).startedAt.toNat + 200000000 ≤ (elaState part0 false).time.toNat ∧ (reshape0 1 0 false).deadline = some 9
    ∧ (elaState part0 false).hbmPoison = [] ∧ (elaState part0 false).hbmErr = [] ∧ (reshape0 3 0 false).phase = 3
    ∧ (partE (variantZ 0 0) { Ela.reset with run := some (reshape0 3 0 false) }).stepOpen = false ∧ (elaState part0 false).tilesInStep 0 = []
    ∧ (∀ n ∈ [1, 2, 3], let s := elaState (partE (variantZ 0 0) { Ela.reset with run := some (reshape0 n 0 false) }) false
        (s.mySources 0).length = 1 ∧ ((s.mySources 0).all fun m => !m.1.precopy || decide (m.1.route ≠ 0)) = true
          ∧ ((s.mySources 0).all fun m => decide (m.1.route ≠ 0)) = true)
    ∧ (partE (variantZ 0 0) Ela.reset).caps.held = [] ∧ (partE (variantZ 0 0) Ela.reset).stepResult = none ∧ (partE (variantZ 0 0) Ela.reset).ela.delta1 = false
    ∧ (partE (variantZ 0 0) Ela.reset).ela.delta2 = false ∧ (partE (variantZ 0 0) Ela.reset).faulted = false
    ∧ (reshape0 2 0 false).phase = 2 ∧ (reshape0 4 1 false).cutAt = some 7
    ∧ (7 : W64).toNat ≤ (elaState part0 true).time.toNat ∧ { partE (variantZ 0 0) Ela.reset with stepOpen := true }.sound = true
    ∧ (elaState { partE (variantZ 0 0) Ela.reset with stepOpen := true } true).tilesInStep 0 ≠ [] := by decide +kernel

/-- An image with a second variant of another shape and another INV_GROUP. -/
def imageN : Image := { imageZ (variantZ 0 0) true with variants := [(0, variantZ 0 0), (1, { variant0 [] [] [] with invGroup := 1 })] }
/-- A partition of it that refuses non-invariant switches. -/
def partN : Part := { partE (variantZ 0 0) { Ela.reset with ctrlNow := 0xC8000000, run := some { reshape0 5 0 false with target := 1 } } with image := some imageN }

theorem witness_VariantSwitch_segments :
    let x := partE (variantZ 0 0) { Ela.reset with run := some (reshape0 4 1 false) }
    x.goal = some (variantZ 0 0) ∧ (x.movesOf (reshape0 4 1 false))[0]? = some (move0 true) ∧ (move0 true).kind ≠ 1
    ∧ (elaState x false).isDest x (reshape0 4 1 false) (move0 true) = true ∧ (segOf (reshape0 4 1 false).segments 0 0).got = 0
    ∧ (segOf (reshape0 4 1 false).segments 0 0).done = false ∧ (segOf (reshape0 4 1 false).segments 0 0).resends < 3
    ∧ (let g := segOf [⟨0, 0, [], 0, none, 3, false⟩] 0 0; g.got = 0 ∧ g.done = false ∧ 3 ≤ g.resends)
    ∧ ([1, 2, 3, 4, 5, 6, 7, 8] : List Byte).length = min segSize ((move0 true).length - 0 * segSize) ∧ x.resetting = none
    ∧ (reshape0 5 0 false).segmentsLeft = 0 ∧ (reshape0 5 0 false).verified = false ∧ (reshape0 5 0 false).phase = 5 := by decide +kernel

/-- What the end of a switch carries: the greatest epoch 4, and for a spare the place in gang unit 3, or none. -/
def end0 (place : Bool) : SwitchEnd := ⟨4, true, 0, 0, [], if place then some ⟨(2, 0), (2, 0), [], 3, 2, 7, 0⟩ else none⟩

theorem witness_VariantSwitch_switch :
    let x := partE (variantZ 0 0) { Ela.reset with run := some (reshape0 5 0 false) }
    let g := imageZ (variantZ 0 0) true
    x.image = some g ∧ (reshape0 5 0 false).pauseAt.isSome = true ∧ (reshape0 5 0 false).phase ≠ 8 ∧ (reshape0 5 0 false).segmentsLeft = 0
    ∧ x.faulted = false ∧ (elaState x false).staysFilled 0 (reshape0 5 0 false) = true
    ∧ ((x.landed (reshape0 5 0 false) (end0 false)).switchTarget g (reshape0 5 0 false)).1 = 0
    ∧ (reshape0 5 0 false).leaving = false ∧ g.available 0 = true
    ∧ ((g.at' (if x.cur.isNone then (end0 false).frm else (reshape0 5 0 false).from')).any fun v => g.noninv v 0 && decide (0 ≠ 0)) = false
    ∧ x.caps.held = [] ∧ ({ g with unavailable := [0] } : Image).available
        ((x.landed (reshape0 5 0 false) (end0 false)).switchTarget { g with unavailable := [0] } (reshape0 5 0 false)).1 = false
    ∧ ((partN.landed { reshape0 5 0 false with target := 1 } (end0 false)).switchTarget imageN { reshape0 5 0 false with target := 1 }).1 = 1
    ∧ imageN.available 1 = true ∧ ((imageN.at' 0).any fun v => imageN.noninv v 1 && decide (0 ≠ 1)) = true ∧ partN.ela.ctrlNow.getLsbD 27 = true
    ∧ (elaState partN false).staysFilled 0 { reshape0 5 0 false with target := 1 } = true
    ∧ (elaState { partN with ela := { Ela.reset with run := some (reshape0 5 0 true) } } false).staysFilled 0 (reshape0 5 0 true) = true
    ∧ (reshape0 5 0 true).leaving = true ∧ (elaState x false).victimOf 0 = none ∧ x.resetting = none := by decide +kernel

/-- A variant of two replicas on a gang box, its PERSISTENT region moved between the two variants of an image, and a switch between them. -/
def variantP (a : Nat) : Variant := { variantZ 0 0 with regions := [⟨0, 0, 0, 0, a, 64, 0⟩] }
/-- The switch from it, whose stays are not filled. -/
def partP : Part :=
  { partE (variantP 0) { Ela.reset with run := some { reshape0 5 0 false with target := 1 } } with
    image := some { imageZ (variantP 0) true with variants := [(0, variantP 0), (1, variantP 128)] } }

theorem witness_VariantSwitch_unfilled :
    partP.image.isSome = true ∧ partP.faulted = false
    ∧ (elaState partP false).staysFilled 0 { reshape0 5 0 false with target := 1 } = false := by decide +kernel

/-- An armed spare that a warp brings in for member 1, with and without its switch running. -/
def partArmed (run : Option Reshape) : Part :=
  { partE (variantZ 0 0) { Ela.reset with armed := true, run := run } with variant := none }
/-- Its reshape: the warp, past the boundary. -/
def warpIn : Reshape := { reshape0 5 0 false with reason := 3, member := 1, cmd := none }

theorem witness_VariantSwitch_warp :
    let x := partE (variantZ 0 0) Ela.reset
    x.ela.run = none ∧ x.image.isSome = true ∧ x.sound = true ∧ x.cur.isSome = true ∧ (elaState x false).hbmPoison = [] ∧ (elaState x false).hbmErr = []
    ∧ (partArmed none).ela.run = none ∧ (partArmed none).image.isSome = true ∧ (partArmed none).sound = true ∧ (partArmed none).ela.armed = true
    ∧ (partArmed (some warpIn)).cur = none ∧ (elaState (partArmed (some warpIn)) false).staysFilled 0 warpIn = true ∧ warpIn.reason = 3
    ∧ ((partArmed (some warpIn)).landed warpIn (end0 true)).switchTarget (imageZ (variantZ 0 0) true) warpIn = (0, 0, false)
    ∧ (end0 true).place = some ⟨(2, 0), (2, 0), [], 3, 2, 7, 0⟩ ∧ (end0 true).frm = 0 := by decide +kernel

/-- A stay in a state. -/
def elaStay (st : Nat) : Ela := { Ela.reset with stay1 := ⟨st, 0⟩, ctrl := 0xE4000000, ctrlNow := 0xE4000000, backup := 0x1001 }
/-- A faulted partition with an image and recovery, running or not; its wave's reset comes. -/
def partRec (run : Option Reshape) (valid : Bool) : Part :=
  { partE (variantZ 1 0) { elaStay 2 with run := run } with fault := if valid then { FaultRec.zero with valid := true } else .zero }
/-- A partition that a reset has left without a traverse while its job recovers. -/
def partBare : Part := { partRec (some { reshape0 8 0 false with verified := true }) false with image := none, variant := none }

theorem witness_StaysAndRecovery :
    (elaState (partE (variantZ 0 0) (elaStay 1)) false).holderOf (variantZ 0 0) false = some 0x10000
    ∧ (partE (variantZ 0 0) (elaStay 1)).faulted = false ∧ (partE (variantZ 0 0) (elaStay 1)).newVariant = some (variantZ 0 0)
    ∧ ((partE (variantZ 0 0) (elaStay 1)).ela.stay false).state ≠ 2 ∧ ((partE (variantZ 0 0) (elaStay 4)).ela.stay false).state = 4
    ∧ (partE (variantZ 0 0) (elaStay 1)).ela.staySends false = false
    ∧ (partE (variantZ 0 0) (elaStay 4)).cur = some (variantZ 0 0) ∧ (partE (variantZ 0 0) (elaStay 4)).ela.run = none
    ∧ ({ elaStay 3 with delta1 := true } : Ela).staySends false = true
    ∧ (partRec none true).faulted = true ∧ (partRec none true).image.isSome = true
    ∧ ((elaState (partRec none true) false).jobCtrl 0 0xE4000000).getLsbD 31 = true
    ∧ (partRec none true).ela.run = none ∧ (partRec (some (reshape0 8 0 false)) true).ela.run = some (reshape0 8 0 false)
    ∧ (reshape0 8 0 false).phase = 8 ∧ (reshape0 8 0 false).verified = false
    ∧ (reshape0 8 0 false).startedAt.toNat + 5000000 ≤ (elaState part0 false).time.toNat
    ∧ (partRec none true).cur = some (variantZ 1 0) ∧ (partRec none true).image = some (imageZ (variantZ 1 0) true)
    ∧ (partRec none true).ela.stopped = none
    ∧ (elaState (partRec none true) false).inWaveA (variantZ 1 0) = decide (1 = 1) ∧ (elaState (partRec none true) false).inWaveA (variantZ 1 0) ≠ decide (2 = 1)
    ∧ (partRec none true).resetting = none ∧ { reshape0 8 0 false with verified := true }.verified = true ∧ (partRec none false).faulted = false
    ∧ (partRec (some { reshape0 8 0 false with verified := true }) false).image.isSome = true
    ∧ { reshape0 8 0 false with plan := none }.plan = none ∧ (reshape0 8 0 false).plan.isSome = true
    ∧ (((partRec (some (reshape0 8 0 false)) false).movesOf (reshape0 8 0 false)).all fun m => decide (m.route ≠ 0)) = true
    ∧ partBare.image = none ∧ partBare.resetting = none := by decide +kernel

/-- How a position is lost: its silence, and what its holders have of it. -/
def loss0 (silent : Option W64) (stays : List (Nat × Nat × W64)) : PositionLoss := ⟨silent, stays⟩
/-- A recovery of a partition whose image has a fallback variant of one replica with a plan, ELA_CTRL as given. -/
def partFall (ctrl : W32) (run : Option Reshape) (lost : Bool) : Part :=
  let g := imageZ (variantZ 1 0) true
  { partRec run true with
    image := some { g with variants := [(0, variantZ 1 0), (1, { variantZ 0 0 with zj := 1, kind := 1 })], plans := [⟨0, 1, [move0 true], 0, true⟩] }
    ela := { elaStay 2 with run := run, ctrlNow := ctrl, shardLost := lost } }

theorem witness_LostPositions :
    let r := reshape0 8 0 false
    let x := partFall 0xE4000000 (some r) false
    x.exist = true ∧ x.cur = some (variantZ 1 0) ∧ x.ela.run = some r ∧ r.phase = 8
    ∧ (elaState x false).time.toNat < (1000000000000 : W64).toNat + 10000000 ∧ (0 : W64).toNat + 10000000 ≤ (elaState x false).time.toNat
    ∧ (((loss0 none [(0, 2, 5)]).stays.find? fun y => decide (y.2.1 = 2)).map (·.1)) = some 0
    ∧ ((loss0 none [(0, 4, 5)]).stays.find? fun y => decide (y.2.1 = 2)) = none
    ∧ ((loss0 none [(0, 4, 5)]).stays.find? fun y => decide (y.2.1 = 3) || decide (y.2.1 = 4)) = some (0, 4, 5)
    ∧ ((loss0 none []).stays.find? fun y => decide (y.2.1 = 3) || decide (y.2.1 = 4)) = none
    ∧ (variantZ 1 0).flags % 2 = 1 ∧ (variantZ 0 0).flags % 2 ≠ 1
    ∧ x.ela.ctrlNow.getLsbD 30 = true ∧ x.ela.ctrlNow.getLsbD 29 = true
    ∧ (x.image.bind fun g => x.fallback g (variantZ 1 0) [0x10000]) = some (1, 0)
    ∧ (partFall 0x80000000 (some r) false).ela.ctrlNow.getLsbD 30 = false ∧ (partFall 0x80000000 (some r) false).ela.ctrlNow.getLsbD 29 = false
    ∧ (partFall 0xE4000000 none true).ela.run = none ∧ (partFall 0xE4000000 none true).faulted = true
    ∧ (partFall 0xE4000000 none true).ela.shardLost = true := by decide +kernel

/-- A step long open in which a backup unit of the variant has a median of 1 tick, S' started or not. -/
def partBackup (run : Bool) (stay : Nat) : Part :=
  { partE (variantZ 0 2) { elaStay stay with units := [(0, ⟨[1], none, run, false⟩)] } with stepOpen := true }

/-- The variant's backup units are known to no one (log 175). -/
theorem witness_Backup_units : (partBackup false 2).backupUnits = Config.backupUnits 0 0 := rfl

/-- For any unit that it has, the rest is met. -/
theorem witness_Backup :
    canon (elaState (partBackup false 2) false) = true ∧ (partBackup false 2).exist = true ∧ (partBackup false 2).cur = some (variantZ 0 2)
    ∧ (partBackup false 2).stepOpen = true
    ∧ (let y := mget BackupRec.zero (partBackup false 2).ela.units 0;
        y.time = none ∧ y.run = false ∧ y.refused = false ∧ (partBackup false 2).ela.backup.toNat % 256 ≤ y.durations.length
        ∧ (partBackup false 2).ela.backup.toNat / 256 % 256 * lowerMedian y.durations
          < 16 * ((elaState (partBackup false 2) false).time - (partBackup false 2).stepStart).toNat)
    ∧ (partBackup false 2).sound = true ∧ (partBackup false 2).ela.ctrlNow.getLsbD 26 = true
    ∧ ((elaState (partBackup false 2) false).copyAt 0 (variantZ 0 2) 0x10000).state = 2
    ∧ ((elaState (partBackup false 1) false).copyAt 0 (variantZ 0 2) 0x10000).state ≠ 2
    ∧ (mget BackupRec.zero (partBackup true 2).ela.units 0).run = true
    ∧ (elaState (partBackup false 2) false).stationsDone 0 (variantZ 0 2) ⟨[0], 0x10000, [], [], (0, 0), (0, 1), (0, 2)⟩ = true := by decide +kernel

/-- A FAULTED job whose commit exchange a strike stopped, with the others' records. -/
def partStopped : Part := { partE (variantZ 0 0) { elaStay 1 with stopped := some ⟨true, 0, .clean⟩ } with fault := { FaultRec.zero with valid := true } }

theorem witness_StaysAndRecovery_stopped :
    partStopped.faulted = true ∧ partStopped.image.isSome = true ∧ ((elaState partStopped false).jobCtrl 0 0).getLsbD 31 = true ∧ partStopped.ela.run = none
    ∧ (elaState partStopped false).allRecords 0 [(1, rec1 .clean), (0x10000, rec1 .clean), (0x10001, rec1 .clean)] = true
    ∧ (({ partStopped with exch := ⟨true, 0, .clean⟩ } : Part).mergeOthers [rec1 .clean, rec1 .clean, rec1 .clean]).2.isClean = true := by decide +kernel

/-! ### Queues, commands and gang units -/

/-- A partition with a submission queue and a completion queue. -/
def partSq (sq : SubQ) (cq : CplQ) : Part :=
  { part0 with sqs := if sq = SubQ.reset then [] else [(0, sq)], cqs := if cq = CplQ.reset then [] else [(0, cq)] }
/-- An enabled submission queue of 16 entries, one of them waiting; a completion queue with entries used. -/
def sqOn : SubQ := { SubQ.reset with enable := true, tail := 1 }
@[inherit_doc sqOn] def cqOn (used : Nat) : CplQ := { CplQ.reset with enable := true, log2 := 4, used := used }

theorem witness_Queues :
    ((quietState (partSq sqOn CplQ.reset)).part 0).exist = true ∧ ((partSq sqOn CplQ.reset).sq 0) = sqOn ∧ sqOn.error = 0 ∧ sqOn.enable = true
    ∧ (15 : W32).toNat % 65536 < 2 ^ sqOn.log2 ∧ 2 ^ sqOn.log2 ≤ (16 : W32).toNat % 65536 ∧ SubQ.reset.enable = false ∧ SubQ.reset.error = 0
    ∧ part0.d3hot = false ∧ (quietState part0).tackUp = true
    ∧ ((partSq sqOn (cqOn 3)).cq 0) = cqOn 3 ∧ (cqOn 3).held = [] ∧ (cqOn 3).error = 0 ∧ (cqOn 3).enable = true ∧ (3 : W32).toNat % 65536 < 2 ^ (cqOn 3).log2
    ∧ (cqOn 3).head < 2 ^ (cqOn 3).log2 ∧ ((3 : W32).toNat % 65536 + 2 ^ (cqOn 3).log2 - (cqOn 3).head) % 2 ^ (cqOn 3).log2 = 3
    ∧ (cqOn 3).used < ((4 : W32).toNat % 65536 + 2 ^ (cqOn 3).log2 - (cqOn 3).head) % 2 ^ (cqOn 3).log2
    ∧ (0x80000004 : W32).getLsbD 31 = true ∧ 4 ≤ (0x80000004 : W32).toNat % 16 ∧ (0x8000000C : W32).toNat % 16 ≤ 12
    ∧ CplQ.reset.enable = false ∧ CplQ.reset.held = [] ∧ (quietState part0).dlUp = true ∧ (cqOn 15).used < 2 ^ (cqOn 15).log2
    ∧ { part0 with d3hot := true }.d3hot = true ∧ part0.heldBells = [] ∧ part0.isDevice = false ∧ part0.resetting = none := by decide +kernel

/-- A command's 64 bytes: opcode, OPFLAGS and operand bytes. -/
def bytes0 (o flags : Nat) (args : List Byte) : List Byte :=
  leBytes 1 o ++ leBytes 7 0 ++ leBytes 4 flags ++ leBytes 4 0 ++ args ++ List.replicate (48 - args.length) 0

/-- A command waiting, with its operand bytes, of a partition with an image or none and a tenancy or none. -/
def waitCmd (o : Nat) (args : List Byte) (im : Bool) (ten : Nat) : State :=
  { quietState { (if im then partE (variantZ 0 0) Ela.reset else part0) with cmds := [cmd0 o args false], tenancy := BitVec.ofNat 64 ten } with time := 1000 }

/-- A started command whose read of host memory has brought `data`, all of it or a part. -/
def readState (o : Nat) (args : List Byte) (im done : Bool) (data : List Byte) : State :=
  { quietState { (if im then partE (variantZ 0 0) Ela.reset else part0) with
      cmds := [cmd0 o args true], tenancy := 9, reads := [⟨.cmd 1, false, if done then [] else [(0, 0, 512)], [(0, data, false)]⟩] }
    with time := 4 }
theorem readState_bytes (o : Nat) (args : List Byte) (im done : Bool) (data : List Byte) :
    ((readState o args im done data).part 0).readBytes (.cmd 1) = data := by
  cases im <;> exact List.append_nil data

/-- Operands of a host DMA: host address 0x100, HBM address, bytes. -/
def dmaArgs (a n : Nat) : List Byte := leBytes 8 0x100 ++ leBytes 8 a ++ leBytes 8 n

theorem witness_HostCommands :
    (partSq sqOn CplQ.reset).nextQueue = some 0 ∧ (partSq sqOn CplQ.reset).exist = true ∧ (quietState (partSq sqOn CplQ.reset)).tackUp = true
    ∧ (quietState (partSq sqOn CplQ.reset)).dlUp = true ∧ (partSq sqOn CplQ.reset).d3hot = false ∧ (partSq sqOn CplQ.reset).destroy = none
    ∧ (partSq sqOn CplQ.reset).hove.state ≠ 1 ∧ (partSq sqOn CplQ.reset).cmds.length < 1024 ∧ (partSq sqOn CplQ.reset).isLead = false
    ∧ (bytes0 0x20 1 []).length = 64 ∧ cmdOk (bytes0 0x20 1 []) = true ∧ cmdOk (bytes0 0x20 2 []) = false
    ∧ takeRefusal (partSq sqOn CplQ.reset) (mkCmd (partSq sqOn CplQ.reset) (bytes0 0x20 1 []) 0 0 .host 0) = none
    ∧ (∀ d ∈ (partSq sqOn CplQ.reset).cmds, d.key ≠ (partSq sqOn CplQ.reset).nextKey)
    ∧ canStart (waitCmd 2 [] true 9) (cmd0 2 [] false) = true ∧ (cmd0 2 [] false).opflags % 2 = 0 ∧ ((waitCmd 2 [] true 9).part 0).faulted = false
    ∧ canStart (waitCmd 3 (leBytes 4 1) true 9) (cmd0 3 (leBytes 4 1) false) = true ∧ canStart (waitCmd 0x20 [] true 9) (cmd0 0x20 [] false) = true
    ∧ canStart (waitCmd 0x21 (leBytes 8 5 ++ leBytes 4 1) false 0) (cmd0 0x21 (leBytes 8 5 ++ leBytes 4 1) false) = true
    ∧ canStart (waitCmd 0x30 (leBytes 8 5) false 0) (cmd0 0x30 (leBytes 8 5) false) = true ∧ (waitCmd 0x30 (leBytes 8 5) false 0).decls.length < 32
    ∧ canStart (waitCmd 0x31 [] false 9) (cmd0 0x31 [] false) = true
    ∧ canStart (waitCmd 0x22 (leBytes 1 0 ++ leBytes 15 0 ++ leBytes 4 1000) false 0) (cmd0 0x22 (leBytes 1 0 ++ leBytes 15 0 ++ leBytes 4 1000) false) = true
    ∧ (((waitCmd 0x22 (leBytes 1 0 ++ leBytes 15 0 ++ leBytes 4 1000) false 0).begun 0 1 0x22).queryRecord 0
        (cmd0 0x22 (leBytes 1 0 ++ leBytes 15 0 ++ leBytes 4 1000) false) []).any
      (fun r => decide (r.length ≤ (cmd0 0x22 (leBytes 1 0 ++ leBytes 15 0 ++ leBytes 4 1000) false).arg 16 4)) = true
    ∧ canStart (waitCmd 1 (leBytes 16 0) false 9) (cmd0 1 (leBytes 16 0) false) = true
    ∧ (∀ b ∈ [true, false], ((readState 1 (leBytes 16 0) false b []).part 0).cmd 1 = some (cmd0 1 (leBytes 16 0) true)
      ∧ ((readState 1 (leBytes 16 0) false b []).part 0).readDone (.cmd 1) = b)
    ∧ ((readState 1 (leBytes 16 0) false true []).part 0).readBytes (.cmd 1) = []
    ∧ (((readState 1 (leBytes 16 0) false true []).endRead 0 (.cmd 1)).loadFault 0 [] false false).isSome = true
    ∧ (waitCmd 0x10 [] false 9).engineHeld (part0.hostEngine 0) < 64
    ∧ canStart (waitCmd 0x10 (dmaArgs 0xBFFFFFFFC 4) false 9) (cmd0 0x10 (dmaArgs 0xBFFFFFFFC 4) false) = true
    ∧ canStart (waitCmd 0x11 (dmaArgs 0xC00000000 4) false 9) (cmd0 0x11 (dmaArgs 0xC00000000 4) false) = true
    ∧ part0.hbmSize < (cmd0 0x11 (dmaArgs 0xC00000000 4) false).arg 8 8 + (cmd0 0x11 (dmaArgs 0xC00000000 4) false).arg 16 8
    ∧ (cmd0 0x10 (dmaArgs 0xBFFFFFFFC 4) false).arg 8 8 + (cmd0 0x10 (dmaArgs 0xBFFFFFFFC 4) false).arg 16 8 ≤ part0.hbmSize
    ∧ (quietState (partSq sqOn CplQ.reset)).engineFull 0 0 (bytes0 0x20 1 []) = false
    ∧ ({ quietState (partSq sqOn CplQ.reset) with engines := [(part0.hostEngine 0, 64)] } : State).engineFull 0 0 (bytes0 0x10 0 []) = true
    ∧ ({ part0 with cmds := [cmd0 0x20 [] true] } : Part).cmd 1 = some (cmd0 0x20 [] true)
    ∧ (cmd0 0x20 [] true).start.toNat + (cmd0 0x20 [] true).timeout ≤ (waitCmd 0x20 [] false 0).time.toNat := by decide +kernel

/-- A SET_VARIANT past its timeout whose reshape still runs. -/
def partLate : Part :=
  { partE (variantZ 0 0) { Ela.reset with run := some { reshape0 3 0 false with cmd := some 1 } } with cmds := [{ setCmd 0 0 with started := true }] }

theorem witness_HostCommands_more :
    partLate.cmd 1 = some { setCmd 0 0 with started := true } ∧ (setCmd 0 0).op = 4 ∧ (setCmd 0 0).origin = .host ∧ (setCmd 0 0).forwarded = false
    ∧ partLate.exist = true ∧ partLate.ela.run = some { reshape0 3 0 false with cmd := some 1 } ∧ (elaState partLate false).tackUp = true
    ∧ (setCmd 0 0).start.toNat + (setCmd 0 0).timeout ≤ (elaState partLate false).time.toNat
    ∧ (cross 3).failed = true ∧ (cross 3).poison.filter (fun j => decide (4 * j < 8)) = [0] := by decide +kernel

/-- A gang unit's lead and member. -/
def partUnit (role : Nat) (formed : Bool) (forming : Option W64) : Part :=
  { part0 with gang := { GangReg.reset with role := role, formed := formed, forming := forming, present := if formed then 7 else 0, unitId := 3 } }
/-- A partition with a tenancy in a hove-to state. -/
def partBeat (st : Nat) (quiet : Bool) (lease : W64) : Part :=
  { part0 with tenancy := 9, hove := { Hove.reset with enable := true, state := st, quiescing := quiet, leaseEnd := lease } }
/-- A VC4 message to unit 3: a forwarded FENCE, or a hove-to of 1 s. -/
def forward0 (kind : Nat) : List Byte :=
  leBytes 1 kind ++ leBytes 7 0 ++ leBytes 4 3 ++ leBytes 12 0 ++ (if kind = 3 then leBytes 8 0 ++ bytes0 0x20 0 [] else leBytes 1 1 ++ leBytes 3 0 ++ leBytes 4 1)
/-- A forwarded command of the lead, answered by no one. -/
def leadCmd : Cmd := { cmd0 0x20 [] true with forwarded := true }
/-- An OK completion of it. -/
def cpl0 : Completion := ⟨leadCmd.cid, 0, false, false, leadCmd.sq, 0xF, leadCmd.csn, 0, 0, 0, false⟩

theorem witness_GangAndHeartbeat :
    (partUnit 1 false none).gang.role = 1 ∧ (partUnit 1 false none).gang.formed = false ∧ (partUnit 1 false none).gang.forming = none
    ∧ (partUnit 1 false (some 5)).gang.forming = some 5 ∧ (5 : W64).toNat + 1000000 ≤ (elaState (partUnit 1 false (some 5)) false).time.toNat
    ∧ (partUnit 2 false none).gang.role = 2 ∧ (partUnit 2 false none).stateCode = 0 ∧ (partUnit 2 true none).gang.formed = true
    ∧ (partUnit 2 true none).stateCode = 0 ∧ (partBeat 0 false 0).hove.state = 0 ∧ (partBeat 1 false 0xFFFFFFFFFF).hove.state = 1
    ∧ (partBeat 1 false 0xFFFFFFFFFF).hove.quiescing = false
    ∧ (elaState (partBeat 1 false 0xFFFFFFFFFF) false).time.toNat < (partBeat 1 false 0xFFFFFFFFFF).hove.leaseEnd.toNat
    ∧ (partBeat 0 false 0).hove.enable = true ∧ (partBeat 0 false 0).tenancy ≠ 0 ∧ (partBeat 0 false 0).resetting = none
    ∧ (elaState (partBeat 0 false 0) false).tackUp = true ∧ (partBeat 0 false 0).isLead = false
    ∧ (partBeat 0 false 0).hove.lastBeat.toNat + 3 * (partBeat 0 false 0).hove.interval * 10000000 ≤ (elaState (partBeat 0 false 0) false).time.toNat
    ∧ (partBeat 1 false 5).ela.run = none ∧ (partBeat 1 false 5).hove.leaseEnd.toNat ≤ (elaState (partBeat 1 false 5) false).time.toNat
    ∧ (partBeat 1 false 5).cmds = [] ∧ (partBeat 1 false 5).stepOpen = false ∧ (partBeat 1 false 5).stepResult = none
    ∧ (elaState (partBeat 1 false 5) false).tilesInStep 0 = []
    ∧ (quietState (partUnit 2 true none)).memberPart (rd (forward0 3) 8 4) = some 0 ∧ rd (forward0 3) 0 1 = 3
    ∧ cmdOk (((forward0 3).drop 32).take 64) = true ∧ (partUnit 2 true none).destroy = none ∧ (partUnit 2 true none).cmds.length < 1024
    ∧ takeRefusal (partUnit 2 true none) (mkCmd (partUnit 2 true none) (((forward0 3).drop 32).take 64) 0 0 .lead 0) = none
    ∧ rd (forward0 4) 0 1 = 4 ∧ rd (forward0 4) 24 1 = 1 ∧ (partUnit 2 true none).hove.state = 0 ∧ (partUnit 2 true none).resetting = none
    ∧ ({ partUnit 1 true none with cmds := [leadCmd] } : Part).isLead = true ∧ isPartFault cpl0.status = false
    ∧ [leadCmd].find? (fun c => c.forwarded && decide (c.csn = cpl0.csn) && decide (c.sq = cpl0.sq)) = some leadCmd
    ∧ leadCmd.answers = [] ∧ (quietState ({ partUnit 1 true none with cmds := [leadCmd] })).reaches 0 2 = true := by decide +kernel

/-- A FENCE that the member's host has sent before the unit formed. -/
theorem witness_GangAndHeartbeat_member :
    (({ partUnit 2 false none with cmds := [cmd0 0x20 [] false] } : Part).stateCode = 0)
    ∧ (cmd0 0x20 [] false).origin = .host ∧ (cmd0 0x20 [] false).started = false ∧ (cmd0 0x20 [] false).forwarded = false
    ∧ ([cmd0 0x20 [] true].all fun c => decide (c.origin = .host) && c.started) = true := by decide +kernel

/-! ### The dump, the field book, witnesses and checks -/

/-- Partition 0 with its dump in a state, a buffer of a length, and its fault record filled or not. -/
def partDump (st : Nat) (len : W64) (valid : Bool) : Part :=
  { partF [] valid with dump := { Dump.reset with state := st, len := len, arm := true } }

theorem witness_DumpEngine :
    (partDump 0 4096 false).exist = true ∧ (partDump 0 4096 false).dump.state ≠ 1 ∧ (partDump 0 4096 false).dump.state ≠ 2
    ∧ (partDump 0 4096 false).dump.len ≠ 0 ∧ (partDump 0 4096 true).dump.state = 0 ∧ (partDump 0 4096 true).faulted = true
    ∧ (partDump 0 4096 true).dumpDue = true ∧ (partDump 2 4096 true).dump.state = 2 ∧ (partDump 2 4096 true).dump.gone = []
    ∧ (3, 0, 3) ∉ (partDump 2 4096 true).dump.timeouts ∧ (partDump 2 0 true).dump.len = 0 ∧ (partDump 1 0 true).dump.state = 1
    ∧ 3 ≤ 3 ∧ (3, 0, 3 - 1) ∈ [(3, 0, 0), (3, 0, 1), (3, 0, 2)] ∧ (3, 0, 3 - 2) ∈ [(3, 0, 0), (3, 0, 1), (3, 0, 2)]
    ∧ (3, 0, 3 - 3) ∈ [(3, 0, 0), (3, 0, 1), (3, 0, 2)] := by decide +kernel

/-- A field-book entry. -/
def entryB : BookEntry := { BookEntry.zero with type := 1 }
/-- The two halves of plan entry 0. -/
def copy0 (w : Bool) (b : Byte) (sig : W32) : WitCopy := ⟨0, w, { drain0 with data := if b = 0 then [] else [(0, b)] }, sig, 0, 0, 0, 0, 0⟩
/-- A variant whose plan is one witness pair of logical tile 0 with itself. -/
def variantW : Variant := { variant0 [] [] [] with wit := [⟨0, 0, 0, 0, 1, 0, 0, 0, 0, true⟩] }
/-- The partition with the pair open, and what has arrived. -/
def partW (l : List WitCopy) : Part := { partV variantW with wit := { Witness.reset with open' := [0], arrived := l } }
/-- The device at the hour of a check round. -/
def roundState : State := { State.reset with time := 0x2540BE400000 }

theorem witness_BookAndChecks :
    ({ State.reset.book with waiting := [entryB] } : FieldBook).waiting = [entryB] ∧ State.reset.book.frozen = false
    ∧ (partW [copy0 false 1 5, copy0 true 1 5]).exist = true ∧ 0 ∈ (partW []).wit.open'
    ∧ (partW [copy0 false 1 5, copy0 true 1 5]).wit.arrived.find? (fun c => decide (c.entry = 0) && decide (c.witness = false)) = some (copy0 false 1 5)
    ∧ (partW [copy0 false 1 5, copy0 true 1 5]).wit.arrived.find? (fun c => decide (c.entry = 0) && decide (c.witness = true)) = some (copy0 true 1 5)
    ∧ (copy0 false 1 5).drain = (copy0 true 1 5).drain ∧ (copy0 false 1 5).sig ≠ (copy0 true 1 6).sig
    ∧ (copy0 false 1 5).drain.data ≠ (copy0 true 2 5).drain.data ∧ (partW []).wit.action = true
    ∧ (partW []).cur = some variantW ∧ variantW.wit[0]? = some ⟨0, 0, 0, 0, 1, 0, 0, 0, 0, true⟩ ∧ (partW []).wit.arrived = []
    ∧ (partW []).physOf 0 = some 0 ∧ (devP (partW []) { Tile.reset with committed := true }).doneIssuing 0 = true
    ∧ roundState.check.enable = true ∧ roundState.mast.trimUp = true
    ∧ roundState.check.lastRound.toNat + max 1 roundState.check.intervalH * 3600 * 100000000 ≤ roundState.time.toNat
    ∧ roundState.checkable 119 = true ∧ roundState.check.points.toNat / 2 ^ (8 * 3) % 256 = 0x5F := by decide +kernel

/-! ### The Masthead -/

/-- The device with a Masthead. -/
def mastState (m : Mast) : State := { State.reset with mast := m, time := 1000000000000 }
/-- The same during an outage of Tack. -/
def tackDown (m : Mast) : State := { mastState m with tackUp := false }
/-- A Masthead with `n` writes in the FIFO, and in the mailbox. -/
def mastFull (n : Nat) : Mast := { Mast.reset with fifo := List.replicate n ⟨0, 0x200000, []⟩, mailbox := List.replicate n ⟨0, 0x600000, []⟩, trimUp := false }

theorem witness_MastheadCores :
    isComp 0 5 = true ∧ isComp 1 6 = true ∧ isComp 1 3 = true ∧ isComp 1 7 = false ∧ Mast.reset.recovery = false ∧ Mast.reset.faults = []
    ∧ (∀ e ∈ [((1 : Nat), (3 : Nat), (5 : W64))], e.1 = 1 → e.2.1 = 3 → e.2.2.toNat + 60 * 100000000 < (mastState Mast.reset).time.toNat)
    ∧ (mastState Mast.reset).book.waiting.length < 256 ∧ (tackDown Mast.reset).tackUp = false ∧ (tackDown Mast.reset).pkg.ready = true
    ∧ Mast.reset.fifo = [] ∧ inEmulated 0x200000 = true ∧ inEmulated 0x2FFFFC = true ∧ inEmulated 0x300000 = false ∧ 0x2FFFFC % 4 = 0
    ∧ emuWide (0x200008 - 0x200000) = false ∧ emuWide (0x200004 - 0x200000) = true ∧ (mastState Mast.reset).tackUp = true
    ∧ (leBytes 4 5).length = 4 ∧ 0x200000 % 8 = 0
    ∧ (mastFull 255).fifo.length < 256 ∧ 256 ≤ (mastFull 256).fifo.length ∧ inShadow 0x600000 = true ∧ inShadow 0x9FFFFC = true
    ∧ Mast.reset.trimUp = true ∧ (mastFull 63).trimUp = false ∧ (mastFull 63).mailbox.length < 64 ∧ 64 ≤ (mastFull 64).mailbox.length
    ∧ Mast.reset.fallback = false ∧ { Mast.reset with fallback := true, powerLoops := 2, thermLoops := 2 }.fallback = true
    ∧ 2 ≤ { Mast.reset with fallback := true, powerLoops := 2, thermLoops := 2 }.thermLoops
    ∧ ({ Mast.reset with slotsAB := [(0, ⟨[], true, false, false, 1⟩)] }.slot false).mark = false
    ∧ Mast.reset.bootAt.toNat + 60 * 100000000 ≤ (mastState Mast.reset).time.toNat
    ∧ (mastState { Mast.reset with actPending := true }).idleForActivation = true
    ∧ Mast.reset.accepts ({ Mast.reset with slotsAB := [(0, ⟨[], true, false, true, 0⟩), (1, ⟨[], true, false, false, 0⟩)] }.slot true) = true := by
  decide +kernel

/-- Components of a core, one beside another, and a core in service. -/
theorem witness_MemoryProtection :
    (∀ e ∈ [(0, 0), (0, 5), (1, 0), (1, 6)], isComp e.1 e.2 = true) ∧ Mast.reset.recovery = false ∧ (Mast.reset.mpu 0).length = 16
    ∧ (Mast.reset.mpu 1).length = 16 ∧ Mast.reset.faults = [] ∧ (mpuRegions 1 4)[5]? = some ⟨0x10120000, 0x20000, true, true, false, some 4⟩
    ∧ (∃ q ∈ mpuLoaded 1 6, q.write = true) := by decide +kernel

/-- A Masthead whose update stands in a phase, with an image of 4 bytes, and a slot B. -/
def mastUpd (ph got : Nat) (b : FwSlot) : Mast := { Mast.reset with update := ⟨ph, 4, got⟩, slotsAB := [(0, ⟨[], true, false, true, 0⟩), (1, b)] }
/-- A slot written by an update, and the factory's. -/
def slotNew : FwSlot := ⟨[], false, true, false, 0⟩
@[inherit_doc slotNew] def slotFactory : FwSlot := ⟨[], true, true, false, 0⟩

theorem witness_ManagementProtocols :
    Mast.reset.update.phase = 0 ∧ (mastUpd 1 0 slotNew).update.phase = 1 ∧ (mastUpd 2 0 slotNew).update.phase = 2 ∧ 0x1800000 ≤ 24 * 2 ^ 20
    ∧ (mastUpd 3 1 slotNew).update.phase = 3 ∧ ([1, 2, 3] : List Byte).length ≤ 4096
    ∧ (mastUpd 3 1 slotNew).update.got + ([1, 2, 3] : List Byte).length ≤ (mastUpd 3 1 slotNew).update.size
    ∧ ((mastUpd 3 1 slotNew).slot true).invalid = true ∧ (mastUpd 3 4 slotNew).update.got = (mastUpd 3 4 slotNew).update.size
    ∧ (mastUpd 4 4 slotFactory).accepts { (mastUpd 4 4 slotFactory).slot true with invalid := false } = true
    ∧ (mastUpd 4 4 slotNew).accepts { (mastUpd 4 4 slotNew).slot true with invalid := false } = false
    ∧ (mastUpd 5 4 slotNew).update.phase = 5 ∧ (mastUpd 6 4 slotNew).update.phase = 6 ∧ 3 ≤ (mastUpd 3 0 slotNew).update.phase
    ∧ (mastUpd 2 0 slotNew).update.phase ≠ 0 ∧ ({ Mast.reset with actPending := true } : Mast).actPending = true ∧ 34 ≤ 34
    ∧ ({ Mast.reset with events := [(34, 2)] } : Mast).events = (34, 2) :: [] ∧ { Mast.reset with spdmVersion := true }.spdmVersion = true
    ∧ { Mast.reset with spdmAlgo := true }.spdmAlgo = true := by decide +kernel

/-! ### Clocks, power, heat and ageing -/

/-- The device with its clocks as given, at a late time. -/
def clkState (k : Clk) : State := { State.reset with clk := k, time := 1000000000000 }
/-- PLL `i` not locked, after `n` attempts. -/
def clkPll (i n : Nat) : Clk := { Clk.reset with unlocked := [(i, true)], attempts := if n = 0 then [] else [(i, n)] }

theorem witness_ClocksAndDomains :
    (clkState Clk.reset).pkg.mainStart.isSome = true ∧ ({ clkState Clk.reset with pkg := { Pkg.reset with mainStart := none } } : State).pkg.mainStart = none
    ∧ Clk.reset.refclk = true ∧ { Clk.reset with refclk := false }.refclk = false ∧ (clkState Clk.reset).pkg.auxUp = true
    ∧ mget false (clkPll 149 0).unlocked 149 = true ∧ (clkPll 149 0).tripped = false ∧ mget 0 (clkPll 149 4).attempts 149 = 4
    ∧ mget 0 (clkPll 119 3).attempts 119 < 4 ∧ mget false (clkPll 120 0).unlocked 120 = true ∧ mwf Cluster.reset Clk.reset.clusters = true
    ∧ mget false Clk.reset.unlocked 119 = false ∧ (5000 : Int) < 5001 ∧ (-5001 : Int) < -5000 ∧ (clkState Clk.reset).mast.trimUp = true
    ∧ { Clk.reset with measRun := some 5 }.measRun = some 5 ∧ (5 : W64).toNat + 2 ^ { Clk.reset with measRun := some 5 }.measLog2 ≤ (clkState Clk.reset).time.toNat
    ∧ (clkState Clk.reset).domainState 191 ≠ 0 ∧ (clkState Clk.reset).domainState 191 ≠ 3
    ∧ isGated 0 = true ∧ (clkState { Clk.reset with domains := [(0, 2)] }).domainState 0 = 1 ∧ (clkState Clk.reset).ownerOfBay (domainBay 0) = none
    ∧ (mget 0 Clk.reset.freeSince (domainBay 0)).toNat + 1000000000 ≤ (clkState Clk.reset).time.toNat ∧ (clkState Clk.reset).check.running = false
    ∧ mwf 0 ({ Clk.reset with domains := [(0, 2)] } : Clk).domains = true ∧ clusterOf 0 = 30 * (0 / 41) + 0 % 41
    ∧ (if 6 = 6 then 420 else 460) ≤ 420 ∧ (if 5 = 6 then 420 else 460) ≤ 460 := by decide +kernel

theorem witness_PowerAndHeat :
    mwf Cluster.reset (clkState Clk.reset).clk.clusters = true ∧ (clkState Clk.reset).trimCanRun = true ∧ (clkState Clk.reset).mast.trimUp = true
    ∧ overCap (([(0, 40000)] : SMap Nat).foldl (fun n e => n + e.2) 0) Clk.reset.devCap = true ∧ (clkState Clk.reset).pkg.perst = false
    ∧ ((clkState { Clk.reset with clusters := [(119, { Cluster.reset with stops := 4 })] }).cluster 119).stops.getLsbD 2 = true ∧ 408 ≤ 408 ∧ 420 ≤ 420
    ∧ ({ State.reset with mast := { Mast.reset with fallback := true } } : State).mast.fallback = true := by decide +kernel

theorem witness_AgeingAndSensors :
    (clkState Clk.reset).trimCanRun = true ∧ (clkState Clk.reset).mast.trimUp = true ∧ 263 < 264
    ∧ ({ Clk.reset with levelWant := [2, 3] } : Clk).levelWant = 2 :: [3] ∧ mwf Cluster.reset Clk.reset.clusters = true ∧ 3 ∉ Clk.reset.levelWant
    ∧ { Clk.reset with utcValid := true }.utcValid = true ∧ Clk.reset.utcAt.toNat + 7200 * 100000000 ≤ (clkState Clk.reset).time.toNat
    ∧ (mget 0 Clk.reset.life 0x1000 + 1) % 24 ≠ 0 ∧ (mget 0 ({ Clk.reset with life := [(0x1000, 23)] } : Clk).life 0x1000 + 1) % 24 = 0
    ∧ mwf 0 (clkState Clk.reset).mast.sensors = true := by decide +kernel

/-! ### The Cadastre -/

/-- The device with its Cadastre, declarations, and partition 0. -/
def cadState (c : Cad) (ds : List CadDecl) (p : Part) : State := { quietState p with cad := c, decls := ds }
/-- A tenancy of partition 0, open since meter time 0. -/
def ten0 : CadTen := ⟨9, 1, 0, 0, 0, 0, 0, 0, 0⟩

theorem witness_CadastreMeters :
    (cadState Cad.reset [] part0).pkg.auxUp = true ∧ (cadState Cad.reset [] part0).clk.refclk = true ∧ Cad.reset.ssc = false
    ∧ ({ cadState Cad.reset [] part0 with clk := { Clk.reset with refclk := false } } : State).clk.refclk = false
    ∧ ({ Cad.reset with tens := [(11, some ten0)] } : Cad).ten 11 = some ten0
    ∧ 59 ≤ ({ Cad.reset with badSecs := 59, secVin := 50, secReg := 54 } : Cad).badSecs
    ∧ 100 * (({ Cad.reset with badSecs := 59, secVin := 50, secReg := 54 } : Cad).secReg - 50) > 6 * 50
    ∧ 100 * (50 - ({ Cad.reset with badSecs := 59, secVin := 50, secReg := 46 } : Cad).secReg) > 6 * 50
    ∧ 59 ≤ ({ Cad.reset with goodSecs := 59 } : Cad).goodSecs ∧ Cad.reset.secReg = Cad.reset.secVin
    ∧ ten0.lastInterim.toNat + Cad.reset.interimH * hourTicks ≤ (({ Cad.reset with meter := 360000000000 } : Cad).meter - ten0.start).toNat
    ∧ Cad.reset.upAt.toNat + (Cad.reset.devRecords + 1) * hourTicks ≤ ({ Cad.reset with meter := 360000000000 } : Cad).meter.toNat := by decide +kernel

theorem witness_CadastreDeclarations :
    (cadState Cad.reset [.opening 0 9 1] part0).decls = .opening 0 9 1 :: [] ∧ part0.exist = true ∧ maskOf part0.bays ≠ 0 ∧ Cad.reset.meterOk = true
    ∧ Cad.reset.ten 0 = none ∧ part0.resetting = none ∧ (cadState Cad.reset [.closing 0 0] part0).decls = .closing 0 0 :: []
    ∧ mwf none ({ Cad.reset with tens := [(0, some ten0)] } : Cad).tens = true ∧ (cadState Cad.reset [.utc 5 1] part0).decls = .utc 5 1 :: []
    ∧ Cad.reset.hold = [] ∧ Cad.reset.room = true ∧ ({ part0 with resetting := some 0 } : Part).resetting.isSome = true
    ∧ State.reset.existing = [] ∧ mwf none Cad.reset.tens = true := by decide +kernel

/-- A ledger whose slot 0 holds record 0. -/
def cadOne : Cad := { Cad.reset with ledger := [(0, List.replicate 64 0)], next := 1 }

theorem witness_CadastrePins :
    (cadState cadOne [] part0).pkg.auxUp = true ∧ leNat ((cadOne.slot (0 : W32).toNat).take 4) = (0 : W32).toNat ∧ cadOne.slot (0 : W32).toNat ≠ []
    ∧ leNat ((cadOne.slot (1 : W32).toNat).take 4) ≠ (1 : W32).toNat ∧ cadOne.next < (2 : W32).toNat ∧ (1 : W32).toNat ≤ cadOne.next
    ∧ (0 : W32).toNat < { cadOne with mark := 1 }.mark ∧ { cadOne with mark := 1 }.mark ≤ (1 : W32).toNat
    ∧ paramFits 1 (0x63 : W32).toNat = true ∧ (5 : W32) ≠ cadOne.events := by decide +kernel

/-! ### Package, power-up, test access -/

/-- The device with its package, and partition 0. -/
def pkgState (k : Pkg) (ps : SMap Part) : State := { State.reset with pkg := k, parts := ps, time := 1000000000000 }

theorem witness_PackageAndTest_power :
    Pkg.reset.auxUp = true ∧ { Pkg.reset with auxUp := false }.auxUp = false ∧ mwf none State.reset.cad.tens = true ∧ Pkg.reset.pwrGood = true
    ∧ Pkg.reset.perst = false ∧ State.reset.clk.refclk = true ∧ Pkg.reset.mastReady = true ∧ State.reset.mast.recovery = false
    ∧ { Pkg.reset with mastReady := false }.mastReady = false ∧ State.reset.mast.actPending = false
    ∧ (State.reset.mast.slot State.reset.mast.slotB).mark = true ∧ State.reset.mast.accepts (State.reset.mast.slot State.reset.mast.slotB) = true
    ∧ { Pkg.reset with perst := true, mainStart := none }.perst = true ∧ { Pkg.reset with perst := true, mainStart := none }.mainStart = none
    ∧ State.reset.clk.tripped = false ∧ Pkg.reset.seqHold = false
    ∧ (pkgState { Pkg.reset with mainStart := some 5, ready := false } []).mainMayRun = true
    ∧ { Pkg.reset with mainStart := some 5, ready := false }.mainStart = some 5
    ∧ (5 : W64).toNat + 900 * 100000 ≤ (pkgState Pkg.reset []).time.toNat ∧ Pkg.reset.mode = 0 ∧ { Pkg.reset with mode := 1 }.mode ≠ 0
    ∧ mget false (pkgState Pkg.reset []).clk.unlocked 149 = false ∧ (pkgState Pkg.reset []).domainState 190 = 1
    ∧ (pkgState Pkg.reset []).domainState 191 = 1 := by decide +kernel

theorem witness_PackageAndTest_test :
    Pkg.reset.auxUp = true ∧ { Pkg.reset with perst := true }.perst = true ∧ Pkg.reset.perst = false ∧ Pkg.reset.mode = 0
    ∧ { Pkg.reset with mode := 2 }.mode ≠ 0 ∧ Pkg.reset.unlock = false ∧ { Pkg.reset with unlock := true }.unlock = true
    ∧ (pkgState Pkg.reset []).existing = [] ∧ (pkgState Pkg.reset [(0, part0)]).existing ≠ [] ∧ (pkgState Pkg.reset []).tenancyOpen = false
    ∧ Pkg.reset.pcieLb.running = none ∧ (pkgState Pkg.reset [(0, partHove)]).tenancyOpen = true
    ∧ { Pkg.reset with pcieLb := { Pkg.reset.pcieLb with running := some 5 } }.pcieLb.running = some 5
    ∧ (5 : W64).toNat + Pkg.reset.pcieLb.duration * 100000 ≤ (pkgState Pkg.reset []).time.toNat
    ∧ (pkgState Pkg.reset []).ownerOfBay (if 11 < 12 then 0 else 12) = none ∧ (pkgState Pkg.reset []).ownerOfBay (if 11 < 11 then 0 else 11) = none
    ∧ Pkg.reset.hbmLb.running = none ∧ ((pkgState Pkg.reset [(0, part0)]).ownerOfBay (if 11 < 12 then 0 else 12)).isSome = true
    ∧ { Pkg.reset with hbmLb := { Pkg.reset.hbmLb with running := some 5 } }.hbmLb.running.isSome = true ∧ mwf 0 State.reset.hbm = true := by decide +kernel

/-! ### Registers, ticks and the machine -/

theorem witness_RegisterReads :
    State.reset.dlUp = true ∧ inEmulated 0x1FFFFC = false ∧ inEmulated 0x300000 = false ∧ State.reset.hwWide 0 0x704000 = false
    ∧ State.reset.hwWide 12 0x500010 = true ∧ 0x500010 % 8 = 0 ∧ State.reset.hwWide 12 0x500014 = true ∧ 0x500014 % 8 = 4
    ∧ mget none [(latchKey 12 0x500014, some (5 : W32))] (latchKey 12 0x500014) = some 5
    ∧ mwf none [(latchKey 12 0x500014, some (5 : W32))] = true ∧ State.reset.hwWide 0 0xA00000 = false := by decide +kernel

theorem witness_RegisterWrites :
    State.reset.dlUp = true ∧ (leBytes 4 5).length = 4 ∧ inEmulated 0x704000 = false ∧ inShadow 0x704000 = false ∧ State.reset.hwWide 0 0x704000 = false
    ∧ State.reset.hwWide 0 0x500010 = true ∧ inEmulated 0x500010 = false ∧ inShadow 0x500010 = false ∧ 0x500014 % 8 = 4
    ∧ mget none [(latchKey 0 0x500014, some (5 : W32))] (latchKey 0 0x500014) = some 5 ∧ State.reset.hwWide 12 0xFFFFC = false ∧ (leBytes 8 5).length = 8
    ∧ (quietState part0).viewOf 1 = some 0 ∧ ((quietState part0).part 0).numLocked = false ∧ ((quietState (partRun true)).part 0).numLocked = true := by
  decide +kernel

theorem witness_Ticks :
    State.reset.clk.refclk = true ∧ ({ State.reset with clk := { Clk.reset with refclk := false } } : State).clk.refclk = false ∧ State.reset.pkg.auxUp = true
    ∧ State.reset.clk.sscAcc + 250 * State.reset.clk.ssc < 2000000 ∧ ((quietState part0).tile 0).frozen = false ∧ (quietState part0).existing = [0] ∧ ((quietState part0).part 0).bays = [0]
    ∧ 0 ∈ bayTiles 0 ∧ canon (quietState part0) = true := by decide +kernel

/-- A tick waits in front; or nothing does. -/
theorem witness_StepRunsFront : ({ State.reset with pending := [.deviceTick []] } : State).pending = .deviceTick [] :: [] ∧ State.reset.pending = [] := by
  decide

/-- A command that answers a next state with its queue kept, device time unmoved and the ledger as it was. -/
theorem witness_machine : (match exec .fbkUnfreeze State.reset with | .next s => decide (s = State.reset) | _ => false) = true := by decide +kernel

/-- The state after reset has the invariant that every step keeps. -/
theorem witness_InvariantKept : State.reset.Inv ∧ step { State.reset with pending := [.fbkUnfreeze] } = .next State.reset :=
  ⟨⟨canonical_of_canon (by decide +kernel), by constructor <;> decide +kernel⟩, rfl⟩

theorem witness_LinkWeightsAndLoss : State.reset.dlUp = true ∧ (leBytes 4 1001).length = 4 ∧ leNat (leBytes 4 0x400) % 1024 = 0
    ∧ 1000 < leNat (leBytes 4 1001) % 1024 ∧ ¬ (1000 < leNat (leBytes 4 1000) % 1024) ∧ leNat (leBytes 4 1) % 1024 ≠ 0 := by decide +kernel

/-! ### LOAD_TRAVERSE of an image that passes its checks (R420, R421) -/

/-- The shard table of a box of members 0 to 3 and two replicas (R338), with one stage. -/
def table0 : List Byte :=
  leBytes 4 2 ++ leBytes 6 0x20001000F04 ++ leBytes 2 0 ++ leBytes 32 0 ++ leBytes 4 64 ++ leBytes 16 0 ++ leBytes 2 0 ++ leBytes 2 1 ++ leBytes 2 1 ++ leBytes 10 0
/-- The sections: CODE of no blob, an empty START_LIST, the table, SCALE_INIT, one STEADY variant, and a plan with the stays its positions hold
of a partition without PERSISTENT memory; each type, variant, offset, CRC and bytes. -/
def sects0 : List (Nat × Nat × Nat × W32 × List Byte) :=
  [(1, 0xFF, 320, 0x6522DF69, leBytes 8 0), (2, 0, 328, 0, []), (3, 0, 328, 0x584F507F, table0),
    (5, 0xFF, 408, 0x95F01927, leBytes 16 (0x20001000F04 * 2 ^ 40 + 0x100)),
    (6, 0, 424, 0x4D3DEB56, ((List.range 4).map fun m => leBytes 8 1 ++ leBytes 8 (m * 2 ^ 21) ++ leBytes 8 0 ++ leBytes 8 (0x10000 + m)).flatten)]
/-- A directory entry. -/
def sectEntry (type v off n : Nat) (crc : W32) : List Byte := leBytes 2 type ++ leBytes 2 v ++ leBytes 4 crc.toNat ++ leBytes 8 off ++ leBytes 8 n ++ leBytes 8 0
/-- The header but for its CRC. -/
def header0 : List Byte :=
  leBytes 4 0x56525450 ++ leBytes 4 1 ++ leBytes 8 524840 ++ leBytes 4 6 ++ leBytes 4 0x80 ++ leBytes 4 1 ++ leBytes 4 1 ++ leBytes 4 7 ++ leBytes 88 0
/-- All of the image before SCALE_INIT. -/
def front0 : List Byte :=
  header0 ++ leBytes 4 0x93585320 ++ (sects0.map fun e => sectEntry e.1 e.2.1 e.2.2.1 e.2.2.2.2.length e.2.2.2.1).flatten
    ++ sectEntry 4 0xFF 552 524288 0xFFFFFFFF ++ (sects0.map fun e => e.2.2.2.2).flatten
/-- `n` zero bytes. -/
def zeros (n : Nat) : List Byte := List.replicate n 0
theorem zeros_length (n : Nat) : (zeros n).length = n := List.length_replicate ..
/-- SCALE_INIT: an entry whose upper half brings the CRC's register to 0, where the zeros that follow leave it. -/
def scaleFirst : List Byte := [0, 0, 0, 0, 0xE3, 0x20, 0xBB, 0xDE]
@[inherit_doc scaleFirst] def scale0 : List Byte := scaleFirst ++ zeros 524280
/-- The CRC's register over some bytes, each step's result asked for before the next. -/
def crcForced : List Byte → W32 → W32
  | [], r => r
  | b :: l, r => if r.toNat = 0 then crcForced l (crcByte r b) else crcForced l (crcByte r b)

theorem crcForced_eq (l : List Byte) (r : W32) : crcForced l r = l.foldl crcByte r := by
  induction l generalizing r with
  | nil => rfl
  | cons b l ih => rw [crcForced, List.foldl_cons, ite_self, ih]

theorem crc_of_forced {l : List Byte} {c : W32} (h : crcForced l 0xFFFFFFFF ^^^ 0xFFFFFFFF = c) : crc32 l = c := by rw [← h, crcForced_eq]; rfl

/-- The image. -/
def img0 : List Byte := front0 ++ scale0

theorem front0_length : front0.length = 552 := by decide +kernel
theorem scale0_length : scale0.length = 524288 := by rw [scale0, List.length_append, zeros_length]; rfl
theorem img0_length : img0.length = 524840 := by rw [img0, List.length_append, front0_length, scale0_length]

/-- A list of the image's first bytes is one of `front0`'s. -/
theorem img0_part (o n : Nat) (h : o + n ≤ 552) : (img0.drop o).take n = (front0.drop o).take n := by
  rw [img0, List.drop_append_of_le_length (by rw [front0_length]; omega),
    List.take_append_of_le_length (by rw [List.length_drop, front0_length]; omega)]

theorem img0_rd (o n : Nat) (h : o + n ≤ 552) : rd img0 o n = rd front0 o n := by rw [rd, rd, img0_part o n h]

theorem crc_zeros (n : Nat) : (zeros n).foldl crcByte 0 = 0 := by
  induction n with
  | zero => rfl
  | succ n ih => rw [zeros, List.replicate_succ, List.foldl_cons, show crcByte 0 0 = 0 by decide]; exact ih

theorem crc_scale0 : crc32 scale0 = 0xFFFFFFFF := by
  rw [crc32, scale0, List.foldl_append, show scaleFirst.foldl crcByte 0xFFFFFFFF#32 = 0 by decide +kernel, crc_zeros]; rfl

theorem chunks_zeros (n k : Nat) (h : 0 < n) : chunks n k (zeros (n * k)) = List.replicate k (zeros n) := by
  induction k with
  | zero => rfl
  | succ k ih =>
    have e : (zeros (n * (k + 1))).isEmpty = false := by
      rw [List.isEmpty_eq_false_iff, ← List.length_pos_iff, zeros_length]; exact Nat.mul_pos h (Nat.succ_pos k)
    rw [chunks, e, zeros, List.take_replicate, List.drop_replicate, Nat.mul_succ, Nat.add_sub_cancel, Nat.min_eq_left (Nat.le_add_left ..),
      List.replicate_succ, if_neg (by decide), ← ih]
    rfl

theorem entries_scale (k : Nat) : chunks 8 (k + 1) (scaleFirst ++ zeros (8 * k)) = scaleFirst :: List.replicate k (zeros 8) := by
  rw [chunks, if_neg (by simp [scaleFirst]), ← chunks_zeros 8 k (by decide)]
  rfl

theorem scale0_entries : entriesOf 8 scale0 = scaleFirst :: List.replicate 65535 (zeros 8) := by
  rw [entriesOf, scale0_length]; exact entries_scale 65535

theorem any_zeros (n : Nat) (f : List Byte → Bool) (b : List Byte) (h : f b = false) : (List.replicate n b).any f = false := by
  induction n with
  | zero => rfl
  | succ n ih => rw [List.replicate_succ, List.any_cons, h, ih]; rfl

theorem anyDelayed_scale0 : anyDelayed scale0 = false := by
  rw [anyDelayed, scale0_entries, List.any_cons, any_zeros _ _ _ (by decide)]; decide +kernel

theorem fold_zeros {α : Type} (g : α → Nat → α) (P : α → Prop) (h : ∀ a, P a → P (g a 0)) (n : Nat) (a : α) (p : P a) : P ((List.replicate n 0).foldl g a) := by
  induction n generalizing a with
  | zero => exact p
  | succ n ih => rw [List.replicate_succ, List.foldl_cons]; exact ih _ (h a p)

theorem scaleFault_scale0 : scaleFault scale0 = none := by
  rw [scaleFault, scale0_entries, List.map_cons, List.map_replicate, show leNat (zeros 8) = 0 by decide, List.foldl_cons]
  have z : finiteNonneg 0 = true := by decide +kernel
  exact (fold_zeros _ (fun a : Nat × List Nat × Option Nat => a.2.1 = [] ∧ a.2.2 = none)
    (fun a p => by simp only [p.1, p.2, z, Nat.zero_mod, Nat.zero_mul, Nat.zero_div]; exact ⟨rfl, rfl⟩) 65535 _ (by decide +kernel)).2

/-- The directory. -/
def dir0 : List Sect := dirOf front0

theorem dirOf_img0 : dirOf img0 = dir0 := by
  have : ∀ k o, o + 32 * k ≤ 552 → chunks 32 k (img0.drop o) = chunks 32 k (front0.drop o) := by
    intro k
    induction k with
    | zero => intro o _; rw [chunks, chunks]
    | succ k ih =>
      intro o h
      have e (l : List Byte) (q : o < l.length) : (l.drop o).isEmpty = false := by
        rw [List.isEmpty_eq_false_iff, ← List.length_pos_iff, List.length_drop]; omega
      rw [chunks, chunks, e _ (by rw [img0_length]; omega), e _ (by rw [front0_length]; omega), img0_part o 32 (by omega), List.drop_drop, List.drop_drop,
        ih (o + 32) (by omega)]
  rw [dir0, dirOf, dirOf, img0_rd 0x10 4 (by decide), img0_rd 0x14 4 (by decide), show rd front0 0x10 4 = 6 by decide +kernel,
    show rd front0 0x14 4 = 0x80 by decide +kernel, this 6 0x80 (by decide)]

theorem sectFor_data (c : Sect) (h : c.offset + c.bytes ≤ 552) : c.data img0 = c.data front0 := img0_part _ _ h

/-- What `dir0` says of SCALE_INIT. -/
def sectScale : Sect := ⟨4, 0xFF, 0xFFFFFFFF, 552, 524288, 5⟩

theorem sectScale_data : sectScale.data img0 = scale0 := by
  rw [Sect.data, img0, show sectScale.offset = front0.length by rw [front0_length]; rfl, List.drop_left]
  exact List.take_of_length_le (by rw [scale0_length]; exact Nat.le_refl _)

theorem sectBytes_img0 (t v : Nat) (h : ∀ c, sectFor dir0 t v = some c → c.offset + c.bytes ≤ 552) : sectBytes img0 dir0 t v = sectBytes front0 dir0 t v := by
  unfold sectBytes
  cases e : sectFor dir0 t v with
  | none => rfl
  | some c => exact sectFor_data c (h c e)

theorem sectFor_scale (v : Nat) : sectFor dir0 4 v = some sectScale := by
  have own : ∀ c ∈ dir0, c.type = 4 → c.variant = 0xFF := by decide +kernel
  have last : dir0.find? (fun c => decide (c.type = 4) && decide (c.variant = 0xFF)) = some sectScale := by decide +kernel
  by_cases h : v = 0xFF
  · rw [h, sectFor, last]; rfl
  · rw [sectFor, last, List.find?_eq_none.2 fun c m => by
      simp only [Bool.and_eq_true, decide_eq_true_eq]
      exact fun q => h (q.2 ▸ own c m q.1)]
    rfl

theorem sectBytes_scale (v : Nat) : sectBytes img0 dir0 4 v = scale0 := by rw [sectBytes, sectFor_scale]; exact sectScale_data

/-- No section of a type but SCALE_INIT reaches past `front0`. -/
theorem sect_inside {t v : Nat} (h : t ≠ 4) : ∀ c, sectFor dir0 t v = some c → c.offset + c.bytes ≤ 552 := by
  have all : ∀ c ∈ dir0, c.type ≠ 4 → c.offset + c.bytes ≤ 552 := by decide +kernel
  intro c e
  have of {f : Sect → Bool} {d : Sect} (g : ∀ x, f x = true → x.type = t) (q : dir0.find? f = some d) : d.offset + d.bytes ≤ 552 :=
    all d (List.mem_of_find?_eq_some q) (by rw [g d (List.find?_some q)]; exact h)
  unfold sectFor at e
  cases e1 : dir0.find? fun c => decide (c.type = t) && decide (c.variant = v) with
  | some d => rw [e1] at e; cases e; exact of (fun x y => by simp only [Bool.and_eq_true, decide_eq_true_eq] at y; exact y.1) e1
  | none =>
    rw [e1] at e
    have e2 : dir0.find? (fun c => decide (c.type = t) && decide (c.variant = 0xFF)) = some c := e
    exact of (fun x y => by simp only [Bool.and_eq_true, decide_eq_true_eq] at y; exact y.1) e2

/-- The directory, entry by entry. -/
def dirLit : List Sect := (sects0.zipIdx.map fun e => ⟨e.1.1, e.1.2.1, e.1.2.2.2.1, e.1.2.2.1, e.1.2.2.2.2.length, e.2⟩) ++ [sectScale]
theorem dir0_lit : dir0 = dirLit := by decide +kernel
theorem sects0_data : ∀ e ∈ sects0, (front0.drop e.2.2.1).take e.2.2.2.2.length = e.2.2.2.2 := by decide +kernel
theorem sects0_crc : ∀ e ∈ sects0, crcForced e.2.2.2.2 0xFFFFFFFF ^^^ 0xFFFFFFFF = e.2.2.2.1 := by decide +kernel
theorem sects0_place : ∀ e ∈ sects0, e.2.2.1 + e.2.2.2.2.length ≤ 552 ∧ e.2.2.1 % 8 = 0 := by decide +kernel

theorem size_img0 : rd front0 8 8 = 524840 := by decide +kernel
theorem take_front0 : front0.take 0x7C = header0 := by decide +kernel
theorem crc_header0 : crc32 header0 = 0x93585320 := crc_of_forced (by decide +kernel)
theorem take_img0 : img0.take 0x7C = header0 := by
  have t := img0_part 0 0x7C (by decide)
  rw [List.drop_zero, List.drop_zero] at t
  rw [t, take_front0]

/-- The checks of the image one by one. -/
theorem imageCheck_of (img : List Byte) (dir : List Sect) (d : dirOf img = dir)
    (h1 : ¬(img.length < 128 ∨ rd img 0 4 ≠ 0x56525450 ∨ rd img 4 2 ≠ 1 ∨ crc32 (img.take 0x7C) ≠ BitVec.ofNat 32 (rd img 0x7C 4)))
    (h2 : ¬(img.length < rd img 8 8 ∨ rd img 0x10 4 < 1 ∨ 4096 < rd img 0x10 4 ∨ rd img 8 8 < rd img 0x14 4 + 32 * rd img 0x10 4))
    (h3 : dir.find? (fun c => decide (rd img 8 8 < c.offset + c.bytes) || decide (c.offset % 8 ≠ 0) || decide (crc32 (c.data img) ≠ c.crc)) = none)
    (h4 : (sectFor dir 1 0xFF).isSome = true) (h5 : (dir.any fun c => decide (c.type = 5)) = true)
    (h6 : ((variantDescs img dir).all fun d => (sectFor dir 2 d.index).isSome && (sectFor dir 3 d.index).isSome && (sectFor dir 6 d.index).isSome
      && (sectFor dir 4 d.index).isSome && decide ((sectBytes img dir 4 d.index).length = 524288)
      && codeOk (sectBytes img dir 1 d.index) (rd img 0x18 4)) = true) : imageCheck img = none := by
  unfold imageCheck
  rw [d]
  simp only [if_neg h1, if_neg h2, h3, h4, h5, h6, Bool.true_or, if_true, Bool.and_self]

/-- No variant's descriptor stands in a section of its own. -/
theorem variantDescs_dir0 (img : List Byte) : variantDescs img dir0 = descsOf (sectBytes img dir0 5 0xFF) := by
  rw [variantDescs, show dir0.filter (fun c => decide (c.type = 5) && decide (c.variant ≠ 0xFF)) = [] by decide +kernel]; rfl

theorem imageCheck_img0 : imageCheck img0 = none := by
  have b5 : sectBytes img0 dir0 5 0xFF = sectBytes front0 dir0 5 0xFF := sectBytes_img0 _ _ (sect_inside (by decide))
  have b1 (v : Nat) : sectBytes img0 dir0 1 v = sectBytes front0 dir0 1 v := sectBytes_img0 _ _ (sect_inside (by decide))
  have crcs : ∀ c ∈ dir0, (decide (524840 < c.offset + c.bytes) || decide (c.offset % 8 ≠ 0) || decide (crc32 (c.data img0) ≠ c.crc)) = false := by
    intro c m
    rw [dir0_lit, dirLit, List.mem_append, List.mem_map, List.mem_singleton] at m
    rcases m with ⟨e, m, rfl⟩ | rfl
    · have m' : e.1 ∈ sects0 := (List.mem_zipIdx' m).2 ▸ List.getElem_mem _
      have p := sects0_place _ m'
      rw [sectFor_data _ p.1, Sect.data, sects0_data _ m', crc_of_forced (sects0_crc _ m')]
      simp only [p.2, ne_eq, not_true_eq_false, decide_false, Bool.or_false, decide_eq_false_iff_not, Nat.not_lt]
      exact Nat.le_trans p.1 (by decide)
    · rw [sectScale_data, crc_scale0]; decide +kernel
  refine imageCheck_of img0 dir0 dirOf_img0 ?_ ?_ ?_ (by decide +kernel) (by decide +kernel) ?_
  · rw [img0_length, img0_rd 0 4 (by decide), img0_rd 4 2 (by decide), take_img0, crc_header0, img0_rd 0x7C 4 (by decide)]
    decide +kernel
  · rw [img0_length, img0_rd 8 8 (by decide), size_img0, img0_rd 0x10 4 (by decide), img0_rd 0x14 4 (by decide)]
    decide +kernel
  · rw [img0_rd 8 8 (by decide), size_img0, List.find?_eq_none.2 (fun c m => by rw [crcs c m]; decide)]
  · rw [variantDescs_dir0, b5, img0_rd 0x18 4 (by decide)]
    simp only [b1, sectBytes_scale, scale0_length, sectFor_scale]
    decide +kernel

theorem parseVariant_congr (img img' : List Byte) (dir : List Sect) (d : VDesc) (h : ∀ t, t ≠ 4 → sectBytes img dir t d.index = sectBytes img' dir t d.index) :
    parseVariant img dir d = parseVariant img' dir d := by
  unfold parseVariant
  rw [h 3 (by decide), h 6 (by decide), h 2 (by decide), h 1 (by decide), h 8 (by decide), h 9 (by decide), h 0xA (by decide)]

theorem variantsOf_img0 : variantsOf img0 = variantsOf front0 := by
  have b (t v : Nat) (h : t ≠ 4) : sectBytes img0 dir0 t v = sectBytes front0 dir0 t v := sectBytes_img0 t v (sect_inside h)
  have e : variantsOf front0 = (descsOf (sectBytes front0 dir0 5 0xFF)).map fun d => (d.index, parseVariant front0 dir0 d) := by
    rw [← variantDescs_dir0]; rfl
  rw [e, variantsOf, dirOf_img0, variantDescs_dir0, b 5 0xFF (by decide)]
  exact List.map_congr_left fun d _ => by rw [parseVariant_congr img0 front0 dir0 d fun t h => b t _ h]

/-- The checks of a load one by one. -/
theorem loadFault_of (s : State) (p : Nat) (img : List Byte) (dir : List Sect) (vs : List (Nat × Variant)) (d : dirOf img = dir) (v : variantsOf img = vs)
    (i : imageCheck img = none) (h1 : rd img 0x1C 1 = (s.part p).bays.length) (h2 : rd img 0x18 4 ≤ (s.part p).tiles)
    (h3 : (s.wanted vs (rd img 0x1E 1) false false).filter (fun e => !(e.2.fits (s.part p).hbmSize)) = [])
    (h4 : familyFault (variantDescs img dir) vs (rd img 0x1E 1) = none)
    (h5 : firstCheck dir ((s.wanted vs (rd img 0x1E 1) false false).filterMap fun e => (s.tableFault p false e.2).map fun f => (e.1, f)) = none)
    (h6 : (vs.findSome? fun e => (startFault (s.part p).tiles e.2.starts).map fun i => shapeErr 0x12 e.1 (sectIndex dir 2 e.1) i) = none)
    (h7 : ∀ i, scaleFault (sectBytes img dir 4 i) = none) (h8 : ∀ i, anyDelayed (sectBytes img dir 4 i) = false)
    (h9 : ∀ e ∈ vs, sectBytes img dir 9 e.1 = []) : s.loadFault p img false false = none := by
  unfold State.loadFault
  rw [d, v, i]
  have n : ¬ ((s.part p).tiles < rd img 0x18 4) := Nat.not_lt.2 h2
  have sc : (vs.findSome? fun e => (scaleFault (sectBytes img dir 4 e.1)).map fun i => shapeErr 0x13 e.1 (sectIndex dir 4 e.1) i) = none :=
    List.findSome?_eq_none_iff.2 fun e _ => by rw [h7]; rfl
  have nu : (vs.findSome? fun e => if (sectBytes img dir 9 e.1).isEmpty || (numericsOk (sectBytes img dir 9 e.1) && gaugesOk (sectBytes img dir 9 e.1) [e])
      then none else some (shapeErr 0x13 e.1 (sectIndex dir 9 e.1) 0)) = none := List.findSome?_eq_none_iff.2 fun e m => by rw [h9 e m]; rfl
  have de : (vs.any fun e => anyDelayed (sectBytes img dir 4 e.1)) = false := List.any_eq_false.2 fun e _ => by rw [h8]; decide
  simp only [sc, nu, de]
  simp [h1, n, h3, h4, h5, h6]

/-- The checks that look at the image's first bytes alone. -/
def loadsFront (s : State) : Bool :=
  let x := s.part 0
  let vs := variantsOf front0
  let w := s.wanted vs (rd front0 0x1E 1) false false
  decide (rd front0 0x1C 1 = x.bays.length) && decide (rd front0 0x18 4 ≤ x.tiles) && (w.filter fun e => !(e.2.fits x.hbmSize)).isEmpty
    && (familyFault (variantDescs front0 dir0) vs (rd front0 0x1E 1)).isNone
    && (firstCheck dir0 (w.filterMap fun e => (s.tableFault 0 false e.2).map fun f => (e.1, f))).isNone
    && (vs.findSome? fun e => (startFault x.tiles e.2.starts).map fun i => shapeErr 0x12 e.1 (sectIndex dir0 2 e.1) i).isNone
    && vs.all fun e => (sectBytes front0 dir0 9 e.1).isEmpty

theorem loadFault_img0 (s : State) (h : loadsFront s = true) : s.loadFault 0 img0 false false = none := by
  have b (t v : Nat) (h : t ≠ 4) : sectBytes img0 dir0 t v = sectBytes front0 dir0 t v := sectBytes_img0 t v (sect_inside h)
  simp only [loadsFront, Bool.and_eq_true, decide_eq_true_eq, List.isEmpty_iff, Option.isNone_iff_eq_none, List.all_eq_true] at h
  obtain ⟨⟨⟨⟨⟨⟨h1, h2⟩, h3⟩, h4⟩, h5⟩, h6⟩, h9⟩ := h
  refine loadFault_of s 0 img0 dir0 _ dirOf_img0 variantsOf_img0 imageCheck_img0 ?_ ?_ ?_ ?_ ?_ h6 ?_ ?_ ?_
  · rw [img0_rd 0x1C 1 (by decide)]; exact h1
  · rw [img0_rd 0x18 4 (by decide)]; exact h2
  · rw [img0_rd 0x1E 1 (by decide)]; exact h3
  · rw [img0_rd 0x1E 1 (by decide), variantDescs_dir0, b 5 0xFF (by decide), ← variantDescs_dir0]; exact h4
  · rw [img0_rd 0x1E 1 (by decide)]; exact h5
  · intro i; rw [sectBytes_scale]; exact scaleFault_scale0
  · intro i; rw [sectBytes_scale]; exact anyDelayed_scale0
  · intro e m; rw [b 9 _ (by decide)]; exact h9 e m

/-- The checks of a load with SPARE one by one. -/
theorem loadFault_of_spare (s : State) (p : Nat) (img : List Byte) (dir : List Sect) (vs : List (Nat × Variant)) (d : dirOf img = dir)
    (v : variantsOf img = vs) (i : imageCheck img = none) (h1 : rd img 0x1C 1 = (s.part p).bays.length) (h2 : rd img 0x18 4 ≤ (s.part p).tiles)
    (hw : (s.wanted vs (rd img 0x1E 1) false true).isEmpty = false)
    (h3 : (s.wanted vs (rd img 0x1E 1) false true).filter (fun e => e.2.fits (s.part p).hbmSize) = s.wanted vs (rd img 0x1E 1) false true)
    (h4 : familyFault (variantDescs img dir) vs (rd img 0x1E 1) = none) (hc : coordSpare s.coord = true)
    (h5 : ((s.wanted vs (rd img 0x1E 1) false true).filterMap fun e => (s.tableFault p true e.2).map fun f => (e.1, f)) = [])
    (h6 : (vs.findSome? fun e => (startFault (s.part p).tiles e.2.starts).map fun i => shapeErr 0x12 e.1 (sectIndex dir 2 e.1) i) = none)
    (h7 : ∀ i, scaleFault (sectBytes img dir 4 i) = none) (h8 : ∀ i, anyDelayed (sectBytes img dir 4 i) = false)
    (h9 : ∀ e ∈ vs, sectBytes img dir 9 e.1 = []) : s.loadFault p img false true = none := by
  unfold State.loadFault
  rw [d, v, i]
  have n : ¬ ((s.part p).tiles < rd img 0x18 4) := Nat.not_lt.2 h2
  have w : s.wanted vs (rd img 0x1E 1) false true ≠ [] := fun e => by simp [e] at hw
  have sc : (vs.findSome? fun e => (scaleFault (sectBytes img dir 4 e.1)).map fun i => shapeErr 0x13 e.1 (sectIndex dir 4 e.1) i) = none :=
    List.findSome?_eq_none_iff.2 fun e _ => by rw [h7]; rfl
  have nu : (vs.findSome? fun e => if (sectBytes img dir 9 e.1).isEmpty || (numericsOk (sectBytes img dir 9 e.1) && gaugesOk (sectBytes img dir 9 e.1) [e])
      then none else some (shapeErr 0x13 e.1 (sectIndex dir 9 e.1) 0)) = none := List.findSome?_eq_none_iff.2 fun e m => by rw [h9 e m]; rfl
  have de : (vs.any fun e => anyDelayed (sectBytes img dir 4 e.1)) = false := List.any_eq_false.2 fun e _ => by rw [h8]; decide
  simp only [sc, nu, de]
  simp [h1, n, h3, h4, h5, h6, hc, w]

/-- The checks of a load with SPARE that look at the image's first bytes alone. -/
def sparesFront (s : State) : Bool :=
  let x := s.part 0
  let vs := variantsOf front0
  let w := s.wanted vs (rd front0 0x1E 1) false true
  decide (rd front0 0x1C 1 = x.bays.length) && decide (rd front0 0x18 4 ≤ x.tiles) && !w.isEmpty
    && decide (w.filter (fun e => e.2.fits x.hbmSize) = w)
    && (familyFault (variantDescs front0 dir0) vs (rd front0 0x1E 1)).isNone
    && (w.filterMap fun e => (s.tableFault 0 true e.2).map fun f => (e.1, f)).isEmpty
    && (vs.findSome? fun e => (startFault x.tiles e.2.starts).map fun i => shapeErr 0x12 e.1 (sectIndex dir0 2 e.1) i).isNone
    && vs.all fun e => (sectBytes front0 dir0 9 e.1).isEmpty

theorem loadFault_img0_spare (s : State) (hc : coordSpare s.coord = true) (h : sparesFront s = true) : s.loadFault 0 img0 false true = none := by
  have b (t v : Nat) (h : t ≠ 4) : sectBytes img0 dir0 t v = sectBytes front0 dir0 t v := sectBytes_img0 t v (sect_inside h)
  simp only [sparesFront, Bool.and_eq_true, decide_eq_true_eq, List.isEmpty_iff, Option.isNone_iff_eq_none, Bool.not_eq_true', List.all_eq_true] at h
  obtain ⟨⟨⟨⟨⟨⟨⟨h1, h2⟩, hw⟩, h3⟩, h4⟩, h5⟩, h6⟩, h9⟩ := h
  refine loadFault_of_spare s 0 img0 dir0 _ dirOf_img0 variantsOf_img0 imageCheck_img0 ?_ ?_ ?_ ?_ ?_ hc ?_ h6 ?_ ?_ ?_
  · rw [img0_rd 0x1C 1 (by decide)]; exact h1
  · rw [img0_rd 0x18 4 (by decide)]; exact h2
  · rw [img0_rd 0x1E 1 (by decide)]; exact hw
  · rw [img0_rd 0x1E 1 (by decide)]; exact h3
  · rw [img0_rd 0x1E 1 (by decide), variantDescs_dir0, b 5 0xFF (by decide), ← variantDescs_dir0]; exact h4
  · rw [img0_rd 0x1E 1 (by decide)]; exact h5
  · intro i; rw [sectBytes_scale]; exact scaleFault_scale0
  · intro i; rw [sectBytes_scale]; exact anyDelayed_scale0
  · intro e m; rw [b 9 _ (by decide)]; exact h9 e m

/-- A LOAD_TRAVERSE of the image. -/
def loadArgs : List Byte := leBytes 8 0 ++ leBytes 8 524840

/-- The image passes every check of a LOAD_TRAVERSE. -/
theorem witness_HostCommands_load :
    ((readState 1 loadArgs false true img0).part 0).cmd 1 = some (cmd0 1 loadArgs true)
    ∧ ((readState 1 loadArgs false true img0).part 0).readDone (.cmd 1) = true ∧ ((readState 1 loadArgs false true img0).part 0).readBytes (.cmd 1) = img0
    ∧ ((readState 1 loadArgs false true img0).endRead 0 (.cmd 1)).loadFault 0 img0 false false = none :=
  ⟨by decide +kernel, by decide +kernel, readState_bytes _ _ _ _ _, loadFault_img0 _ (by decide +kernel)⟩

/-- What a wave restores the partition from. -/
def restore0 : Restore := ⟨img0, [], [], false, [], 0, 0, ((2, 0), (2, 0)), [], none⟩

/-- The image passes every check of a restore in a recovery's wave. -/
theorem witness_StaysAndRecovery_wave :
    ({ part0 with ela := { Ela.reset with run := some { reshape0 8 0 false with verified := true } } } : Part).image = none
    ∧ (elaState { part0 with ela := { Ela.reset with run := some { reshape0 8 0 false with verified := true } } } false).loadFault 0 restore0.image false false
      = none :=
  ⟨rfl, loadFault_img0 _ (by decide +kernel)⟩

/-- A hot spare that a recovery has armed. -/
def spareState : State := { elaState { part0 with ela := { Ela.reset with armed := true } } false with coord := 0x80000000 }

/-- The image passes every check of a restore on a spare that takes member 1's place. -/
theorem witness_StaysAndRecovery_spare :
    (spareState.part 0).exist = true ∧ (spareState.part 0).ela.run = none ∧ (spareState.part 0).ela.armed = true ∧ coordSpare spareState.coord = true
    ∧ ({ restore0 with member := some (1, ⟨(2, 0), (2, 0), [], 3, 2, 7, 0⟩) } : Restore).member = some (1, ⟨(2, 0), (2, 0), [], 3, 2, 7, 0⟩)
    ∧ spareState.loadFault 0 ({ restore0 with member := some (1, ⟨(2, 0), (2, 0), [], 3, 2, 7, 0⟩) } : Restore).image false true = none :=
  ⟨by decide +kernel, by decide +kernel, by decide +kernel, by decide +kernel, rfl, loadFault_img0_spare _ (by decide +kernel) (by decide +kernel)⟩

/-! ### Checkpoints (R423) -/

/-- A numerics record whose CRC is known. -/
def record0 : List Byte := scaleFirst ++ zeros 612360
theorem record0_length : record0.length = 612368 := by rw [record0, List.length_append, zeros_length]; rfl
theorem crc_record0 : crc32 record0 = 0xFFFFFFFF := by
  rw [crc32, record0, List.foldl_append, show scaleFirst.foldl crcByte 0xFFFFFFFF#32 = 0 by decide +kernel, crc_zeros]; rfl

/-- The checkpoint's header, and the header but for its CRC. -/
def ckHead : List Byte := leBytes 4 0x504B4350 ++ leBytes 4 0 ++ leBytes 4 0 ++ leBytes 4 0 ++ leBytes 8 0 ++ leBytes 8 612368 ++ leBytes 8 0
@[inherit_doc ckHead] def ckHeader : List Byte := ckHead ++ leBytes 4 (crcForced ckHead 0xFFFFFFFF ^^^ 0xFFFFFFFF).toNat ++ leBytes 20 0
/-- A checkpoint of that record with a SEG_CHECK. -/
def ckBytes (check : Nat) : List Byte := ckHeader ++ (record0 ++ leBytes 4 check)

theorem ckHeader_length : ckHeader.length = 64 := by decide +kernel
theorem ck_rd (k o n : Nat) (h : o + n ≤ 64) : rd (ckBytes k) o n = rd ckHeader o n := by
  rw [rd, rd, ckBytes, List.drop_append_of_le_length (by rw [ckHeader_length]; omega),
    List.take_append_of_le_length (by rw [List.length_drop, ckHeader_length]; omega)]
theorem ck_crc (k : Nat) : crc32 ((ckBytes k).take 0x28) = crcForced ckHead 0xFFFFFFFF ^^^ 0xFFFFFFFF := by
  rw [ckBytes, List.take_append_of_le_length (by rw [ckHeader_length]; decide), show ckHeader.take 0x28 = ckHead by decide +kernel, crc_of_forced rfl]
theorem ck_body (k : Nat) : ((ckBytes k).drop 64).take (612368 + 4 * 1) = record0 ++ leBytes 4 k := by
  rw [ckBytes, show 64 = ckHeader.length from ckHeader_length.symm, List.drop_left]
  exact List.take_of_length_le (by rw [List.length_append, record0_length]; simp [leBytes])

/-- One segment and its SEG_CHECK. -/
theorem checkedOut_one (c d : List Byte) (n : Nat) (h : c.length = n) (h0 : 0 < n) (h1 : n ≤ segSize) (h4 : d.length = 4) :
    checkedOut 1 n (c ++ d) = if leNat d = (crc32 c).toNat then some c else none := by
  have e : rd (c ++ d) n 4 = leNat d := by
    rw [rd, ← h, List.drop_left, List.take_of_length_le (by omega)]
  have k : (c ++ d).take n = c := by rw [← h, List.take_left]
  rw [checkedOut, if_neg (by omega), Nat.min_eq_right h1]
  by_cases q : leNat d = (crc32 c).toNat
  · rw [if_pos q]
    simp only [k, e, h, q, List.length_append, h4, Nat.le_refl, and_self, if_true, checkedOut]
    simp
  · rw [if_neg q]
    simp only [k, e, q, false_and, and_false, if_false]

/-- WARP_OUT and WARP_IN of a partition with an image. -/
def warpCmd (o : Nat) : List Byte := leBytes 8 0 ++ leBytes 8 (if o = 5 then 1000000 else 612436)

theorem witness_Checkpoints_in : canStart (waitCmd 6 (warpCmd 6) true 9) (cmd0 6 (warpCmd 6) false) = true
    ∧ (∀ k, ((readState 6 (warpCmd 6) true true (ckBytes k)).part 0).cmd 1 = some (cmd0 6 (warpCmd 6) true)
      ∧ ((readState 6 (warpCmd 6) true true (ckBytes k)).part 0).readDone (.cmd 1) = true
      ∧ ((readState 6 (warpCmd 6) true true (ckBytes k)).part 0).readBytes (.cmd 1) = ckBytes k
      ∧ ((readState 6 (warpCmd 6) true true (ckBytes k)).part 0).cur = some (variantZ 0 0))
    ∧ (∀ k, rd (ckBytes k) 0 4 = 0x504B4350 ∧ rd (ckBytes k) 4 4 = ((waitCmd 6 (warpCmd 6) true 9).part 0).caps.job.toNat
      ∧ rd (ckBytes k) 8 4 = (waitCmd 6 (warpCmd 6) true 9).shardId ∧ rd (ckBytes k) 0x28 4 = (crc32 ((ckBytes k).take 0x28)).toNat
      ∧ rd (ckBytes k) 0x18 8 = numericsBytes ∧ rd (ckBytes k) 0x20 8 = (variantZ 0 0).halfSize)
    ∧ checkedOut (segCount 612368) 612368 (((ckBytes 0xFFFFFFFF).drop 64).take (612368 + 4 * segCount 612368)) = some record0
    ∧ checkedOut (segCount 612368) 612368 (((ckBytes 0).drop 64).take (612368 + 4 * segCount 612368)) = none
    ∧ (∀ b, checkedOut (segCount 0) 0 b = some []) ∧ rd ([] : List Byte) 0 4 ≠ 0x504B4350 := by
  refine ⟨by decide +kernel, fun k => ⟨rfl, rfl, readState_bytes _ _ _ _ _, rfl⟩, fun k => ?_, ?_, ?_,
    fun b => by rw [show segCount 0 = 0 by decide +kernel, checkedOut], by decide⟩
  · rw [ck_crc, ck_rd k 0 4 (by decide), ck_rd k 4 4 (by decide), ck_rd k 8 4 (by decide), ck_rd k 0x28 4 (by decide), ck_rd k 0x18 8 (by decide),
      ck_rd k 0x20 8 (by decide)]
    decide +kernel
  · rw [show segCount 612368 = 1 by decide +kernel, ck_body, checkedOut_one _ _ _ record0_length (by decide) (by decide +kernel) (by simp [leBytes]),
      crc_record0, if_pos (by decide +kernel)]
  · rw [show segCount 612368 = 1 by decide +kernel, ck_body, checkedOut_one _ _ _ record0_length (by decide) (by decide +kernel) (by simp [leBytes]),
      crc_record0, if_neg (by decide +kernel)]

/-- Bytes of equal pieces. -/
theorem flatten_length {α : Type} (f : α → List Byte) (k : Nat) (h : ∀ a, (f a).length = k) (l : List α) : ((l.map f).flatten).length = l.length * k := by
  induction l with
  | nil => simp
  | cons a l ih => rw [List.map_cons, List.flatten_cons, List.length_append, h, ih, List.length_cons, Nat.add_mul, Nat.one_mul, Nat.add_comm]

theorem leBytes_length (n v : Nat) : (leBytes n v).length = n := by simp [leBytes]

theorem recordBytes_length (n : Numerics) (l : List Nat) : (n.recordBytes l).length = numericsBytes := by
  simp only [Numerics.recordBytes, List.length_append, leBytes_length]
  rw [flatten_length _ 8 (fun _ => leBytes_length 8 _), flatten_length _ 4 (fun _ => leBytes_length 4 _), flatten_length _ 16 (fun i => by simp [Layer.bytes, leBytes_length]),
    flatten_length _ 72 (fun i => by simp [Gauge.bytes, leBytes_length])]
  simp [numericsBytes]

theorem withChecks_length (b : List Byte) (h0 : 0 < b.length) (h : b.length ≤ segSize) : (withChecks b).length = b.length + 4 := by
  have s : segCount b.length = 1 := by
    unfold segCount segSize at *
    omega
  have e : b.isEmpty = false := by rw [List.isEmpty_eq_false_iff, ← List.length_pos_iff]; exact h0
  rw [withChecks, s, chunks, if_neg (by rw [e]; decide), chunks]
  simp only [List.map_cons, List.map_nil, List.flatten_cons, List.flatten_nil, List.append_nil, List.length_append, leBytes_length, List.length_take]
  omega

theorem witness_Checkpoints_out : canStart (waitCmd 5 (warpCmd 5) true 9) (cmd0 5 (warpCmd 5) false) = true
    ∧ (let s := waitCmd 5 (warpCmd 5) true 9
      let x := s.part 0
      let half := s.gather x ((variantZ 0 0).halfRanges x.half) 0 (variantZ 0 0).halfSize
      let num := x.num.recordBytes x.promotedLayers
      (s.checkpointHeader 0 num.length half.length ++ withChecks num ++ withChecks half).length ≤ (cmd0 5 (warpCmd 5) false).arg 8 8)
    ∧ ((waitCmd 5 (warpCmd 5) true 9).part 0).cur = some (variantZ 0 0) ∧ ((waitCmd 5 (warpCmd 5) true 9).part 0).stepOpen = false
    ∧ (waitCmd 5 (warpCmd 5) true 9).hbmPoison = [] ∧ (waitCmd 5 (warpCmd 5) true 9).hbmErr = []
    ∧ ((waitCmd 5 (warpCmd 5) true 9).part 0).stepResult = none ∧ (waitCmd 5 (warpCmd 5) true 9).tilesInStep 0 = [] := by
  refine ⟨by decide +kernel, ?_, by decide +kernel, by decide +kernel, rfl, rfl, by decide +kernel, by decide +kernel⟩
  dsimp only
  have h : (variantZ 0 0).halfRanges ((waitCmd 5 (warpCmd 5) true 9).part 0).half = [] := by decide +kernel
  have g (s : State) (x : Part) : s.gather x [] 0 (variantZ 0 0).halfSize = [] := by
    rw [State.gather, show cutRanges [] 0 (variantZ 0 0).halfSize = [] by decide +kernel]; rfl
  rw [h, g, List.length_append, List.length_append, withChecks_length _ (by rw [recordBytes_length]; decide +kernel) (by rw [recordBytes_length]; decide +kernel),
    recordBytes_length, show (withChecks []).length = 0 by decide +kernel, State.checkpointHeader]
  simp only [List.length_append, leBytes_length]
  decide +kernel

/-! ### The manual's worked examples -/

/-- Tile Q2:21:17 (R13, R25): its number, cluster, bay and HBM stack. -/
theorem test_tile_numbers : 2 * 1024 + 21 * 32 + 17 = 2737 ∧ clusterOf 2737 = 88 ∧ bayOf 2737 = 8 := by decide

/-- ADD S3 := S3 + G2 with flags set, predicated on NE, as the example of R88 writes its word. -/
theorem test_word_add : wordOf 0x01 (body 0 0x24 3 3 0x42 0x80 0) = 0x01002403034280000000000000000000#128 := by decide

/-- The DMA of the weight block (R134): the word as chapter 4 writes it. -/
theorem test_word_dma : wordOf 0x80 (body 0x02 0x04 0x80 0x04 0x05 0x06 0x0C003F0000000400) = 0x80020480040506000C003F0000000400#128 := by decide

/-- Address 0x12_3400_0000 of the partition of bays B6, B7, B8 lies in stack 7 at 0x6_1155_5000 (R248). -/
theorem test_hbm_interleave : Part.hbmKey { Part.reset with bays := [6, 7, 8] } 0x1234000000 = 7 * 2 ^ 36 + 0x611555000 := by decide

/-- Tile Q2:21:17 is retired: bay B8's lowest unused spare, Q2:16:24, takes its place (R70). -/
theorem test_spare_taken : ((DevCheck.reset).retire 2737).spareFor = [(2737, 0x0A18)] := by decide

/-- The generator's published outputs (R225). -/
theorem test_gen :
    gen 0 0 0 0 0 = 0x52C9CEE8#32 ∧ gen 0 0 0 0 1 = 0xB3F3D7ED#32 ∧ gen 0 1 0 0 0 = 0xD53E4E21#32 ∧ gen 0 0 1 0 0 = 0xAC68A1F2#32 := by decide

/-- The element formats of 1000.0: E4M3, FP4, INT8 and INT4 saturate, as the thresholds of R165 say. -/
theorem test_convert_thousand :
    [Fmt.bf16, .fp16, .e4m3, .e5m2, .e2m1, .int8, .int4].map (fun f => (convert f false (.fin false 1000 0)).1)
      = [0x447A, 0x63D0, 0x7E, 0x64, 0x7, 0x7F, 0x7] := by decide

/-- The thresholds of R165 for negative integers: −128.5 and −8.5 tie into range; −1.5 saturates TERN. -/
theorem test_convert_negative :
    convert .int8 false (.fin true 257 (-1)) = (0x80, .none) ∧ convert .int4 false (.fin true 17 (-1)) = (0x8, .none)
      ∧ convert .int8 false (.fin true 1029 (-3)) = (0x80, .sat) ∧ convert .tern false (.fin true 3 (-1)) = (3, .sat) := by decide

/-- The eight products of the coupler's element (3, 7), R176's example, with k 2 and 4 as given. -/
def coupler (a2 b2 a4 b4 : Nat) : Entry :=
  ([(0x3FC0, 0x4000), (0xBF40, 0x4080), (a2, b2), (0x2FC0, 0x2F80), (a4, b4), (0x4020, 0xBFA0), (0x3F00, 0x3F00), (0x2B80, 0x3300)].zipIdx).foldl
    (fun e p => addProduct 0 e (Fmt.bf16.decode p.1.1) (Fmt.bf16.decode p.1.2) p.2) Entry.zero

/-- The entry and its first special index, as the example gives them (R46, R176, R182). -/
theorem test_coupler_entry :
    (coupler 0x4980 0x4980 0x7FC0 0x3F80).word = 0x0009FFFFFFFFFFFD2000000000000002#128 ∧ (coupler 0x4980 0x4980 0x7FC0 0x3F80).first = some 2 := by
  decide
/-- ACCRD of that entry, and of the two variations the example goes on to (R183). -/
theorem test_coupler_read :
    convertEntry .bf16 true 0 (coupler 0x4980 0x4980 0x7FC0 0x3F80) = (0x7FC0, .nan)
      ∧ convertEntry .bf16 true 0 (coupler 0x4980 0x4980 0 0) = (0x7F7F, .sat) ∧ convertEntry .bf16 true 0 (coupler 0 0 0 0) = (0xC038, .none) := by
  decide

/-- The sum that is the same on gangs of 8 and 7: 2^30 and 1.0 in one entry, −2^30 in another (R192). -/
theorem test_wide_merge :
    convertEntry .bf16 true 0 (mergeEntry 32 (addProduct 0 (addProduct 0 Entry.zero (Fmt.bf16.decode 0x4700) (Fmt.bf16.decode 0x4700) 0) (Fmt.bf16.decode 0x3F80) (Fmt.bf16.decode 0x3F80) 1)
      (addProduct 0 Entry.zero (Fmt.bf16.decode 0xC700) (Fmt.bf16.decode 0x4700) 0)) = (0x3F80, .none) := by decide

/-- Block 5 of Kvarn's weight tile in PB4: scale code 0x7F, sub-scales 0xEC, and its codes (R161, R170). -/
theorem test_pb4_block :
    encodeBlock .pb4 false ((List.range 32).map fun e => if e = 0 then .fin false 11 (-1) else if e = 1 then .fin true 5 (-1) else if e = 8 then f32 0x3E99999A#32
        else if e = 9 then f32 0x3E4CCCCD#32 else if e = 10 then f32 0x3F19999A#32 else if e = 16 then f32 0x3F99999A#32 else .fin false 0 0) (fun _ => false)
      = ⟨[7, 0xC, 0, 0, 0, 0, 0, 0, 4, 3, 6, 0, 0, 0, 0, 0, 6] ++ List.replicate 15 0, List.replicate 32 .none, 0x7F, 0xEC⟩ := by decide

/-- Head 0x3F80 and tail 0x0100; the update makes w1 = 1 + 81 × 2^−14, which (0x3F81, 0xD100) holds exactly (R200). -/
theorem test_head_tail :
    (pairValue 0x3F80 0x0100).eq (.fin false (2 ^ 14 + 1) (-14)) = true ∧ convert .bf16 true (.fin false (2 ^ 14 + 81) (-14)) = (0x3F81, .none)
      ∧ tailOf 0x3F81 (.fin false (2 ^ 14 + 81) (-14)) = (0xD100, .none) := by decide

/-- An ESTIMATE entry with TARGET 8, HEADROOM 2, SCALE 0 and EST 96.0 observes 150.0: SCALE 1 and EST 0x4316 (R206). -/
theorem test_estimate :
    (({ Numerics.reset with scale := [(3, 0x00081000000042C0#64)] }).commitScale 3 (mkStaged 0x43160000 true false 0)).scale = [(3, 0x0108100000004316#64)] := by
  decide

/-- Kvarn's FIXED24 bucket at B = −4: the wire codes, their sums and the converted outputs (R300 to R302). -/
theorem test_fixed24 :
    toWire 0 (-4) .bf16 0x3D00 = (0x020000, false, false) ∧ toWire 0 (-4) .bf16 0xBC00 = (0xFF8000, false, false)
      ∧ fromWire 0 (-4) .bf16 (wireAdd 24 0x020000 0xFF8000) = (0x3CC0, .none) := by decide
@[inherit_doc test_fixed24] theorem test_fixed24_clamp :
    toWire 0 (-4) .bf16 0x3DC0 = (0x03FFFF, true, false) ∧ fromWire 0 (-4) .bf16 (wireAdd 24 0x03FFFF 0) = (0x3D80, .none) := by decide
@[inherit_doc test_fixed24] theorem test_fixed24_flush :
    toWire 0 (-4) .bf16 0x3340 = (0, false, true) ∧ toWire 0 (-4) .bf16 0x7FC0 = (0x800000, false, false)
      ∧ fromWire 0 (-4) .bf16 (wireAdd 24 0 0x800000) = (0x7FC0, .nan) := by decide

/-! ### Ill-formed commands: one for each reason -/

theorem test_ill_tile : (Instr.mmaArrayStart 800).ill = some .noTile := by decide
theorem test_ill_strand : (Instr.waitqRelease 0 512).ill = some .noStrand := by decide
theorem test_ill_partition : (Instr.sqTailDoorbell 12 0 0).ill = some .noPartition := by decide
theorem test_ill_function : (Instr.flr 13).ill = some .noFunction := by decide
theorem test_ill_link : (Instr.retrain 32).ill = some .noLink := by decide
theorem test_ill_channel : (Instr.slack 0 8).ill = some .noChannel := by decide
theorem test_ill_slot : (Instr.admCancel 64).ill = some .noSlot := by decide
theorem test_ill_queue : (Instr.cqHeadDoorbell 0 16 0).ill = some .noQueue := by decide
theorem test_ill_bay : (Instr.hbmScrubRead 12).ill = some .noBay := by decide
theorem test_ill_pll : (Instr.pllMonitorWindow 150 0).ill = some .noPll := by decide
theorem test_ill_domain : (Instr.domainGate 192).ill = some .noDomain := by decide
theorem test_ill_cluster : (Instr.hwThermalStop 120 0).ill = some .noCluster := by decide
theorem test_ill_core : (Instr.hardwareWatchdog 2).ill = some .noCore := by decide
theorem test_ill_width : (Instr.registerReadClear 0 0 2).ill = some .badWidth := by decide
theorem test_ill_lanes : (Instr.linkRetrainTrigger 0 16).ill = some .badLanes := by decide
theorem test_ill_mode : (Instr.perstDeassert 4).ill = some .badMode := by decide
theorem test_ill_long (b : List Byte) (h : b.length = 241) : (Instr.strikeReceive 0 b).ill = some .tooLong := by simp [Instr.ill, firstBad, h]
theorem test_ill_length : (Instr.creditInit 0 ⟨[], 0⟩).ill = some .badLength := by decide
theorem test_ill_crossing : (Instr.sigArrival 0 ⟨false, [(0, 4)]⟩).ill = some .badCrossing := by decide
/-- A well-formed command passes every check. -/
theorem test_well_formed : (Instr.mmaArrayStart 2737).wf = true ∧ (Instr.creditInit 31 ⟨List.replicate 8 0, 0⟩).wf = true := by decide

end Sys2Proof.Tests
end

