-- ==== Sys2Proof/Proofs/StrandsAndControl.lean ====
section
/-! PROOFS. The statements about strands and control: FP32 scalars (R92), predicates (R86) and traps (R96). -/

namespace Sys2Proof.Machine

variable {s : State} {t k : Nat} {b : IBody} {w : IWord} {f : FaultInfo}

/-! ### FP32 scalars (R92) -/

/-- FADD and FMUL act on the low 32 bits of their sources, and their result is zero-extended into SD. -/
theorem fpEffect_eq (t k : Nat) (w : IWord) (g : Val → Val → Val) (s : State) :
    fpEffect t k w g s
      = (s.setTile t ((s.tile t).dst k (sdOf w)
          ((toF32 false (g (f32 (s.operand t k w 32 (saOf w))) (f32 (s.operand t k w 32 (sbOf w))))).setWidth 64))).advance t k := by
  simp only [fpEffect, State.operand, BitVec.ofNat_toNat]

theorem exec_fadd_next (hi : s.issuable t k (wordOf 0x0E b))
    (hok : (aluOk [0, 1] (wordOf 0x0E b) && noFlags (wordOf 0x0E b)) = true) :
    exec (.fadd t k b) s
      = .next (fpEffect t k (wordOf 0x0E b) (fun a c => Val.add a (if xtOf (wordOf 0x0E b) = 1 then c.neg else c)) s) :=
  State.issue_run hi hok

theorem exec_fmul_next (hi : s.issuable t k (wordOf 0x0F b))
    (hok : (aluOk [0] (wordOf 0x0F b) && noFlags (wordOf 0x0F b)) = true) :
    exec (.fmul t k b) s = .next (fpEffect t k (wordOf 0x0F b) Val.mul s) :=
  State.issue_run hi hok

theorem exec_fcmp_next (hi : s.issuable t k (wordOf 0x10 b)) (hok : fcmpOk (wordOf 0x10 b) = true) :
    exec (.fcmp t k b) s = .next ((s.setTile t ((s.tile t).putFlags k
      (fcmpFlags (s.operand t k (wordOf 0x10 b) 32 (saOf (wordOf 0x10 b)))
        (s.operand t k (wordOf 0x10 b) 32 (sbOf (wordOf 0x10 b)))))).advance t k) := by
  have hrun : exec (.fcmp t k b) s = execFcmp t k b s := rfl
  simp only [hrun, execFcmp, State.issue_run hi hok, State.operand, BitVec.ofNat_toNat]

theorem fcmpFlags_unordered {a c : W32} (h : (f32 a).isNan = true ∨ (f32 c).isNan = true) :
    fcmpFlags a c = ⟨false, false, false, false, true⟩ := by
  simp [fcmpFlags, h]

theorem fcmpFlags_equal {a c : W32} (ha : (f32 a).isNan = false) (hc : (f32 c).isNan = false)
    (he : Val.eq (f32 a) (f32 c) = true) : fcmpFlags a c = ⟨true, false, false, false, false⟩ := by
  simp [fcmpFlags, ha, hc, he]

/-- Two numbers that differ: N and C say which is the lesser. -/
theorem fcmpFlags_unequal {a c : W32} (ha : (f32 a).isNan = false) (hc : (f32 c).isNan = false)
    (he : Val.eq (f32 a) (f32 c) = false) :
    fcmpFlags a c = ⟨false, Val.lt (f32 a) (f32 c), Val.lt (f32 a) (f32 c), false, false⟩ := by
  cases hl : Val.lt (f32 a) (f32 c) <;> simp [fcmpFlags, ha, hc, he, hl]

/-- Settles O3: each instruction runs its effect, and FCMP's flags are read off case by case. -/
theorem floatScalars : Obligations.FloatScalars := by
  intro t k b s w hi
  refine ⟨?fadd, ?fmul, ?fcmp⟩
  case fadd =>
    rintro rfl hok hnf
    rw [exec_fadd_next hi (by rw [hok, hnf]; rfl), fpEffect_eq]
  case fmul =>
    rintro rfl hok hnf
    rw [exec_fmul_next hi (by rw [hok, hnf]; rfl), fpEffect_eq]
  case fcmp =>
    rintro rfl hok
    exact ⟨_, exec_fcmp_next hi hok, fcmpFlags_unordered, fcmpFlags_equal, fcmpFlags_unequal⟩

/-! ### Predicates (R86) -/

/-- Condition 0x0, AL, holds whatever the flags and the condition word. -/
@[simp] theorem condHolds_always (f : Flags) (cw : W32) : condHolds 0x0 f cw = true := rfl

/-- PNEG inverts the condition that PCOND names. -/
theorem predHolds_eq (w : IWord) (cw : W32) :
    predHolds w cw = (condHolds (pcondOf w) (flagsOfCw cw) cw != decide (pnegOf w = 1)) := rfl

/-- AL inverted never holds, so the word is always annulled. -/
theorem predHolds_never (cw : W32) (hc : pcondOf w = 0) (hn : pnegOf w = 1) : predHolds w cw = false := by
  simp [predHolds_eq, hc, hn]

/-- Settles O7: each code names its condition by definition, and AL inverted is false. -/
theorem predicates : Obligations.Predicates := by
  refine ⟨fun f cw => ?codes, fun _ => rfl, predHolds_eq, fun _ cw => predHolds_never cw⟩
  case codes => exact ⟨condHolds_always f cw, rfl, rfl, rfl, rfl, rfl, rfl, rfl, rfl, rfl, rfl, rfl, rfl, rfl, rfl, rfl⟩

/-! ### The first fault of a tile (R106 to R108) -/

/-- A strand issues only in a tile that has taken no fault (R108). -/
theorem State.capture_of_canIssue (h : s.canIssue t k w = true) : (s.tile t).capture = none := by
  simp only [State.canIssue, Tile.frozen, Bool.and_eq_true, Bool.not_eq_true', Bool.or_eq_false_iff, Option.isSome_eq_false_iff,
    Option.isNone_iff_eq_none] at h
  obtain ⟨⟨⟨⟨⟨⟨hcap, -⟩, -⟩, -⟩, -⟩, -⟩, -⟩ := h
  exact hcap

/-- The capture that fault `f` makes when it is the first of tile `t` (R107). -/
def State.captureOf (s : State) (t : Nat) (f : FaultInfo) : Capture :=
  { code := f.code, precise := f.precise, fetch := f.fetch, noStrand := f.strand.isNone, strand := f.strand.getD 0
    station := if f.strand.isSome then ((s.tile t).strand (f.strand.getD 0)).station else 0
    physId := t
    logical := match s.partOf t with
      | some p => ((s.part p).logicalOf t).getD 0
      | none => 0
    pc := f.pc, instr := if f.fetch then 0 else f.instr, addr := f.addr, trapNo := f.trapNo
    time := s.time, later := 0 }

/-- A tile with capture `c` and, where fault `f` names a strand, that strand FAULTED (R108). -/
def Tile.faultedBy (x : Tile) (f : FaultInfo) (c : Capture) : Tile :=
  let y := { x with capture := some c }
  if f.strand.isSome then y.modStrand (f.strand.getD 0) fun v => { v with sched := .faulted } else y

@[simp] theorem Tile.faultedBy_capture (x : Tile) (f : FaultInfo) (c : Capture) : (x.faultedBy f c).capture = some c := by
  unfold Tile.faultedBy
  split <;> rfl

/-- A tile that has taken a fault reads back after it is written, in any table of tiles. -/
theorem State.tile_setTile_captured {y : Tile} {c : Capture} (hc : y.capture = some c) : (s.setTile t y).tile t = y :=
  mget_mset_self' _ _ fun (h : y = Tile.reset) => by simp [h, Tile.reset] at hc

/-- The first fault of a tile makes its capture and stops its strand. -/
theorem State.tile_tileFault_first (h : (s.tile t).capture = none) :
    (s.tileFault t f).tile t = (s.tile t).faultedBy f (s.captureOf t f) := by
  have hset : (s.tileFault t f).tile t = (s.setTile t ((s.tile t).faultedBy f (s.captureOf t f))).tile t := by
    simp only [State.tileFault, h]
    split <;> rfl
  rw [hset, State.tile_setTile_captured (Tile.faultedBy_capture _ _ _)]

theorem State.tileFault_capture (h : (s.tile t).capture = none) :
    ((s.tileFault t f).tile t).capture = some (s.captureOf t f) := by
  rw [State.tile_tileFault_first h, Tile.faultedBy_capture]

/-! ### TRAP (R96) -/

/-- What TRAP FAULT reports: ILLEGAL_INSTR, precise, with the trap number. -/
def State.trapInfo (s : State) (t k : Nat) (w : IWord) : FaultInfo :=
  ⟨cIllegal, true, false, some k, ((s.tile t).strand k).pc, w, faultAddr 0 0, immf w 15 0, 0⟩

theorem State.trap_notify (hi : s.issuable t k (wordOf 0x26 b)) (hok : trapOk (wordOf 0x26 b) = true)
    (hfn : xtOf (wordOf 0x26 b) = 0) :
    s.trap t k b = .next ((s.bookEntry 0x03 ((s.partOf t).getD 0xF) 0 0 (trapPayload s t k (wordOf 0x26 b))).advance t k) := by
  rw [State.trap, State.issue_run hi hok, if_pos hfn]

theorem State.trap_fault (hi : s.issuable t k (wordOf 0x26 b)) (hok : trapOk (wordOf 0x26 b) = true)
    (hfn : xtOf (wordOf 0x26 b) ≠ 0) : s.trap t k b = .next (s.tileFault t (s.trapInfo t k (wordOf 0x26 b))) := by
  rw [State.trap, State.issue_run hi hok, if_neg hfn, State.trapInfo]

/-- The payload of a TRAP_NOTIFY entry for a tile that partition `p` owns, S0 to S3 written out (R461). -/
theorem trapPayload_eq {p : Nat} (hp : s.partOf t = some p) :
    trapPayload s t k w = leBytes 2 (immf w 15 0) ++ leBytes 2 (((s.part p).logicalOf t).getD 0) ++ leBytes 2 t ++ leBytes 2 k
      ++ leBytes 4 ((s.tile t).strand k).pc.toNat ++ leBytes 2 ((s.tile t).strand k).station.toNat ++ leBytes 2 0
      ++ leBytes 8 (mget 0 ((s.tile t).strand k).s 0).toNat ++ leBytes 8 (mget 0 ((s.tile t).strand k).s 1).toNat
      ++ leBytes 8 (mget 0 ((s.tile t).strand k).s 2).toNat ++ leBytes 8 (mget 0 ((s.tile t).strand k).s 3).toNat := by
  have hregs (g : Nat → List Byte) : ((List.range 4).map g).flatten = g 0 ++ (g 1 ++ (g 2 ++ g 3)) := by
    simp [List.range_succ]
  simp only [trapPayload, hp, hregs, List.append_assoc]

/-- Settles O8: NOTIFY is its effect with the payload written out; both faults are the first of a tile whose strand issues. -/
theorem traps : Obligations.Traps := by
  rintro t k p b s _ rfl hi hok hp
  have hcap : (s.tile t).capture = none := State.capture_of_canIssue hi.can
  refine ⟨fun hfn => ?notify, fun hfn => ?fault, ?decode⟩
  case notify =>
    have h := State.trap_notify hi hok hfn
    rw [trapPayload_eq hp, hp] at h
    exact h
  case fault =>
    have h := State.trap_fault hi hok (by omega)
    exact ⟨_, _, h, State.tileFault_capture hcap, rfl, rfl, rfl, rfl, rfl, rfl⟩
  case decode => exact ⟨_, State.tileFault_capture hcap, rfl, rfl⟩

end Sys2Proof.Machine
end

