-- ==== Sys2Proof/Proofs/OrderFreeAccumulation.lean ====
section
/-! PROOFS. The statement about reading an accumulator entry: the six orders of R183. -/

namespace Sys2Proof.Machine

variable {f : Fmt} {ieee : Bool} {d : Int} {e : Entry}

/-! ### Which order decides (R183) -/

theorem Entry.order_of_nan (hn : e.nan = true) : e.order = 1 := by
  simp [Entry.order, hn]

theorem Entry.order_of_bothInf (hn : e.nan = false) (hp : e.infPos = true) (hm : e.infNeg = true) : e.order = 2 := by
  simp [Entry.order, hn, hp, hm]

theorem Entry.order_of_oneInf (hn : e.nan = false) (hx : (e.infPos != e.infNeg) = true) : e.order = 3 := by
  cases hp : e.infPos <;> simp_all [Entry.order]

theorem Entry.order_of_bothOvf (hn : e.nan = false) (hp : e.infPos = false) (hm : e.infNeg = false)
    (op : e.ovfPos = true) (om : e.ovfNeg = true) : e.order = 4 := by
  simp [Entry.order, hn, hp, hm, op, om]

theorem Entry.order_of_oneOvf (hn : e.nan = false) (hp : e.infPos = false) (hm : e.infNeg = false)
    (hx : (e.ovfPos != e.ovfNeg) = true) : e.order = 5 := by
  cases op : e.ovfPos <;> simp_all [Entry.order]

theorem Entry.order_of_noBit (hn : e.nan = false) (hp : e.infPos = false) (hm : e.infNeg = false)
    (op : e.ovfPos = false) (om : e.ovfNeg = false) : e.order = 6 := by
  simp [Entry.order, hn, hp, hm, op, om]

/-! ### What the conversion answers at the ends of a format (R165, R166) -/

/-- The formats of one element, TERN apart. -/
def elementFmts : List Fmt := [.bf16, .fp16, .fp32, .e4m3, .e5m2, .int8, .e2m1, .int4]

theorem mem_elementFmts (hb : f.isBlock = false) (ht : f ≠ .tern) : f ∈ elementFmts := by
  cases f <;> simp_all [elementFmts, Fmt.isBlock]

/-- A format with infinities keeps an infinity and its sign, in either mode. -/
theorem convert_inf_of_hasInf : ∀ f ∈ elementFmts, f.hasInf = true → ∀ ieee s : Bool,
    (convert f ieee (.inf s)).2 = .inf ∧ f.decode (convert f ieee (.inf s)).1 = .inf s := by decide

/-- A format without infinities clamps one to its largest finite value of that sign, in either mode. -/
theorem convert_inf_of_not_hasInf : ∀ f ∈ elementFmts, f.hasInf = false → ∀ ieee s : Bool,
    convert f ieee (.inf s) = (largestCode f s, .sat) := by decide

/-- 2^1024 is out of range of every floating-point format, and saturating mode clamps it. -/
theorem convert_two_pow_1024 : ∀ f ∈ elementFmts, f.layout.isSome = true → ∀ s : Bool,
    convert f false (.fin s 1 1024) = (largestCode f s, .sat) := by decide

theorem layout_isSome_of_hasInf : ∀ f ∈ elementFmts, f.hasInf = true → f.layout.isSome = true := by decide

/-! ### The element each order gives (R183) -/

theorem convertEntry_of_order_nan (ho : e.order = 1 ∨ e.order = 2 ∨ e.order = 4) :
    convertEntry f ieee d e = (f.nanCode, .nan) := by
  rcases ho with ho | ho | ho <;> simp [convertEntry, ho]

theorem convertEntry_of_order_three (ho : e.order = 3) : convertEntry f ieee d e = convert f ieee (.inf e.infNeg) := by
  simp [convertEntry, ho]

/-- Order 5 forms the largest finite value by clamping: 2^1024 in a floating-point format, an infinity in an integer one. -/
theorem convertEntry_of_order_five (hf : f ∈ elementFmts) (ho : e.order = 5) :
    convertEntry f ieee d e = (largestCode f e.ovfNeg, .sat) := by
  by_cases hl : f.layout.isSome = true
  · simp [convertEntry, ho, hl, convert_two_pow_1024 f hf hl]
  · have hi : f.hasInf = false := by
      simpa using mt (layout_isSome_of_hasInf f hf) hl
    simp [convertEntry, ho, hl, hi, convert_inf_of_not_hasInf f hf hi]

theorem convertEntry_of_order_six (ho : e.order = 6) :
    convertEntry f ieee d e = convert f ieee (Val.ofInt e.v.toInt (d - 64)) := by
  simp [convertEntry, ho, Entry.value]

/-- Settles O17: the sideband bits fix the order, and the order fixes the element and its class. -/
theorem entryConversion : Obligations.EntryConversion := by
  intro f ieee d e hb ht
  have hf : f ∈ elementFmts := mem_elementFmts hb ht
  refine ⟨fun hn => ?nan, fun hn hp hm => ?bothInf, fun hn hx => ?oneInf, fun hn hp hm =>
    ⟨fun op om => ?bothOvf, fun hx => ?oneOvf, fun op om => ?noBit⟩⟩
  case nan => exact convertEntry_of_order_nan (.inl (Entry.order_of_nan hn))
  case bothInf => exact convertEntry_of_order_nan (.inr (.inl (Entry.order_of_bothInf hn hp hm)))
  case oneInf =>
    rw [convertEntry_of_order_three (Entry.order_of_oneInf hn hx)]
    exact ⟨fun hi => convert_inf_of_hasInf f hf hi ieee e.infNeg, fun hi => convert_inf_of_not_hasInf f hf hi ieee e.infNeg⟩
  case bothOvf => exact convertEntry_of_order_nan (.inr (.inr (Entry.order_of_bothOvf hn hp hm op om)))
  case oneOvf => exact convertEntry_of_order_five hf (Entry.order_of_oneOvf hn hp hm hx)
  case noBit => exact convertEntry_of_order_six (Entry.order_of_noBit hn hp hm op om)

end Sys2Proof.Machine
end

