-- ==== Sys2Proof/Proofs/LinksAndCapstans.lean ====
section
/-! PROOFS. The statements about the links and capstans: the sums of the fixed wires (R301), and the two registers that apply to every
link, LNK_VCWEIGHT and LNK_LOSS (R326). -/

namespace Sys2Proof.Machine

/-! ### The values of a fixed wire and their codes (R300, R301)

⊕ on codes is not associative: a sum that leaves the wire's range wraps, and may land on the code of a NaN or an infinity. On the values
that the codes stand for it is, so the order of a sum is settled there, and the codes follow as long as no sum reaches the special codes. -/

/-- What a code of a fixed wire stands for: a NaN, an infinity, or a number of units. -/
inductive WireVal where
  | nan
  | inf (neg : Bool)
  | num (z : Int)
  deriving DecidableEq

/-- The code of a value on a wire of `w` bits. -/
def WireVal.code (w : Nat) : WireVal → Nat
  | .nan => 2 ^ (w - 1)
  | .inf s => if s then 2 ^ (w - 1) + 1 else 2 ^ (w - 1) - 1
  | .num z => (BitVec.ofInt w z).toNat

@[simp] theorem WireVal.code_nan (w : Nat) : WireVal.nan.code w = 2 ^ (w - 1) := rfl

/-- The exact sum of two values: ⊕ with no bound on the numbers. -/
def WireVal.add : WireVal → WireVal → WireVal
  | .nan, _ => .nan
  | _, .nan => .nan
  | .inf s, .inf t => if s = t then .inf s else .nan
  | .inf s, .num _ => .inf s
  | .num _, .inf t => .inf t
  | .num x, .num y => .num (x + y)

/-- The exact sum of a list. -/
def WireVal.sum (l : List WireVal) : WireVal := l.foldl .add (.num 0)

/-- A number is at most `n` in magnitude; a NaN and an infinity always qualify. -/
def WireVal.Within (n : Nat) : WireVal → Prop
  | .num z => z.natAbs ≤ n
  | _ => True

/-- `c` units with a sign. -/
def signedUnits (s : Bool) (c : Nat) : Int := (if s then -1 else 1) * c

/-- The units of a magnitude on a fixed wire: rounded to the unit, and clamped to M (R301). -/
def wireUnits (wire : Nat) (b : Int) (m : Nat) (e : Int) : Nat :=
  min (rneUnits m e (b - wireShift wire)) (2 ^ wireShift wire - 1)

/-- The value that a member contributes for an element code (R301). -/
def wireValOf (wire : Nat) (b : Int) (f : Fmt) (x : Nat) : WireVal :=
  match f.decode x with
  | .nan => .nan
  | .inf s => .inf s
  | .fin s m e => .num (signedUnits s (wireUnits wire b m e))

/-- FIXED24 and FIXED32, with their bits. -/
def IsFixedWire (wire w : Nat) : Prop := wire = 0 ∧ w = 24 ∨ wire = 1 ∧ w = 32

/-! ### Sums of values -/

namespace WireVal

variable {a b : WireVal} {l l' : List WireVal} {s : Bool} {m n : Nat}

@[simp] theorem nan_add (b : WireVal) : add .nan b = .nan := rfl

@[simp] theorem add_nan (a : WireVal) : add a .nan = .nan := by cases a <;> rfl

@[simp] theorem inf_add_num (s : Bool) (y : Int) : add (.inf s) (.num y) = .inf s := rfl

@[simp] theorem num_add_inf (x : Int) (t : Bool) : add (.num x) (.inf t) = .inf t := rfl

@[simp] theorem num_add_num (x y : Int) : add (.num x) (.num y) = .num (x + y) := rfl

@[simp] theorem inf_add_inf_same (s : Bool) : add (.inf s) (.inf s) = .inf s := if_pos rfl

/-- The order of two terms does not matter, whatever stands before them. -/
theorem add_right_comm (a b c : WireVal) : (a.add b).add c = (a.add c).add b := by
  have inf_num (a : WireVal) (t : Bool) (z : Int) : (a.add (.inf t)).add (.num z) = (a.add (.num z)).add (.inf t) := by
    cases a with
    | inf s => cases s <;> cases t <;> rfl
    | _ => rfl
  cases b with
  | nan => simp
  | num y => cases c with
    | nan => simp
    | inf u => exact (inf_num a u y).symm
    | num z => cases a <;> simp [Int.add_right_comm]
  | inf t => cases c with
    | nan => simp
    | num z => exact inf_num a t z
    | inf u => cases a with
      | inf s => cases s <;> cases t <;> cases u <;> rfl
      | _ => cases t <;> cases u <;> rfl

theorem sum_perm (h : l.Perm l') : sum l = sum l' :=
  h.foldl_eq' (fun a _ b _ c => add_right_comm c a b) _

@[simp] theorem foldl_nan (l : List WireVal) : l.foldl add .nan = .nan := by
  induction l with
  | nil => rfl
  | cons a l ih => simpa using ih

/-- An infinity stays among numbers and infinities of its own sign. -/
theorem foldl_inf (hn : .nan ∉ l) (ho : .inf (!s) ∉ l) : l.foldl add (.inf s) = .inf s := by
  induction l with
  | nil => rfl
  | cons a l ih =>
    rw [List.mem_cons, not_or] at hn ho
    have ha : add (.inf s) a = .inf s := by
      cases a with
      | nan => exact absurd rfl hn.1
      | num y => rfl
      | inf t =>
        have hopp : t ≠ !s := fun h => ho.1 (h ▸ rfl)
        have hts : t = s := Decidable.not_not.1 (mt Bool.eq_not.2 hopp)
        rw [hts, inf_add_inf_same]
    rw [List.foldl_cons, ha, ih hn.2 ho.2]

theorem sum_of_nan (h : .nan ∈ l) : sum l = .nan := by
  rw [sum_perm (List.perm_cons_erase h)]
  simp [sum]

theorem sum_of_bothInf (hp : .inf false ∈ l) (hm : .inf true ∈ l) : sum l = .nan := by
  have hm' : .inf true ∈ l.erase (.inf false) := (List.mem_erase_of_ne (by decide)).2 hm
  rw [sum_perm ((List.perm_cons_erase hp).trans ((List.perm_cons_erase hm').cons _))]
  change List.foldl add .nan _ = .nan
  exact foldl_nan _

theorem sum_of_oneInf (hn : .nan ∉ l) (hs : .inf s ∈ l) (ho : .inf (!s) ∉ l) : sum l = .inf s := by
  rw [sum_perm (List.perm_cons_erase hs)]
  exact foldl_inf (fun h => hn (List.mem_of_mem_erase h)) (fun h => ho (List.mem_of_mem_erase h))

theorem foldl_num (zs : List Int) (z : Int) : (zs.map num).foldl add (.num z) = .num (z + zs.sum) := by
  induction zs generalizing z with
  | nil => simp
  | cons y zs ih => simp [ih, Int.add_assoc]

theorem sum_of_num (zs : List Int) : sum (zs.map num) = .num zs.sum := by
  rw [sum, foldl_num, Int.zero_add]

theorem zero_within : (num 0).Within 0 := Nat.le_refl 0

theorem Within.mono (h : a.Within m) (hmn : m ≤ n) : a.Within n := by
  cases a with
  | num z => exact Nat.le_trans h hmn
  | _ => trivial

theorem Within.add (ha : a.Within m) (hb : b.Within n) : (a.add b).Within (m + n) := by
  cases a with
  | nan => trivial
  | inf s => cases b with
    | inf t => cases s <;> cases t <;> trivial
    | _ => trivial
  | num x => cases b with
    | num y => exact Nat.le_trans (Int.natAbs_add_le x y) (Nat.add_le_add ha hb)
    | _ => trivial

theorem Within.foldl (ha : a.Within m) (hl : ∀ v ∈ l, v.Within n) : (l.foldl WireVal.add a).Within (m + l.length * n) := by
  induction l generalizing a m with
  | nil => exact ha.mono (Nat.le_add_right ..)
  | cons v l ih =>
    obtain ⟨hv, hl⟩ := List.forall_mem_cons.1 hl
    exact (ih (ha.add hv) hl).mono (by rw [List.length_cons, Nat.succ_mul]; omega)

end WireVal

/-! ### Codes of sums -/

section
variable {wire w : Nat} {b : Int} {f : Fmt} {x : Nat} {y z : Int} {s : Bool} {u v : WireVal} {l : List WireVal}

/-- 32 times M falls short of the special codes. -/
theorem IsFixedWire.group_bound (h : IsFixedWire wire w) : 32 * (2 ^ wireShift wire - 1) < 2 ^ (w - 1) - 1 := by
  rcases h with ⟨rfl, rfl⟩ | ⟨rfl, rfl⟩ <;> decide

theorem IsFixedWire.bound_lt (h : IsFixedWire wire w) : 2 ^ wireShift wire - 1 < 2 ^ w := by
  rcases h with ⟨rfl, rfl⟩ | ⟨rfl, rfl⟩ <;> decide

theorem IsFixedWire.bits (h : IsFixedWire wire w) : wireBits wire = w := by
  rcases h with ⟨rfl, rfl⟩ | ⟨rfl, rfl⟩ <;> rfl

theorem IsFixedWire.ne_bf16 (h : IsFixedWire wire w) : wire ≠ 2 := by
  rcases h with ⟨rfl, -⟩ | ⟨rfl, -⟩ <;> decide

theorem IsFixedWire.two_le (h : IsFixedWire wire w) : 2 ≤ w := by
  rcases h with ⟨-, rfl⟩ | ⟨-, rfl⟩ <;> decide

/-- A number's code is its two's complement. -/
theorem code_num_eq (hz : z.natAbs < 2 ^ w) : (WireVal.num z).code w = if z < 0 then 2 ^ w - z.natAbs else z.natAbs := by
  cases z with
  | ofNat n =>
    have hn : n < 2 ^ w := hz
    have hnn : ¬ (n : Int) < 0 := Int.not_lt.2 (Int.natCast_nonneg n)
    simp [WireVal.code, Nat.mod_eq_of_lt hn, hnn]
  | negSucc n =>
    have hn : n < 2 ^ w := Nat.lt_of_succ_lt hz
    simp [WireVal.code, BitVec.ofInt_negSucc_eq_not_ofNat, Nat.mod_eq_of_lt hn, Int.negSucc_lt_zero, Nat.sub_sub, Nat.add_comm 1]

/-- A code reads back as its number. -/
theorem sintOf_code_num (hw : 2 ≤ w) (hz : z.natAbs < 2 ^ (w - 1)) : sintOf w ((WireVal.num z).code w) = z := by
  have hpow : 2 ^ (w - 1) + 2 ^ (w - 1) = 2 ^ w := Nat.two_pow_pred_add_two_pow_pred (by omega)
  have hlt : (WireVal.num z).code w < 2 ^ w := BitVec.isLt _
  rw [sintOf, Nat.mod_eq_of_lt hlt, code_num_eq (by omega)]
  split <;> split <;> omega

/-- No number short of the range's ends has the code of a NaN or of an infinity. -/
theorem code_num_not_special (hw : 2 ≤ w) (hz : z.natAbs < 2 ^ (w - 1) - 1) :
    (WireVal.num z).code w ≠ 2 ^ (w - 1) ∧ (WireVal.num z).code w ≠ 2 ^ (w - 1) - 1 ∧ (WireVal.num z).code w ≠ 2 ^ (w - 1) + 1 := by
  have hpow : 2 ^ (w - 1) + 2 ^ (w - 1) = 2 ^ w := Nat.two_pow_pred_add_two_pow_pred (by omega)
  rw [code_num_eq (by omega)]
  split <;> omega

/-- Is a value an infinity? -/
def WireVal.isInf : WireVal → Bool
  | .inf _ => true
  | _ => false

section
variable {n : Nat} (hw : 2 ≤ w) (hn : n < 2 ^ (w - 1) - 1)
include hw hn

theorem code_eq_nan_iff (hv : v.Within n) : v.code w = 2 ^ (w - 1) ↔ v = .nan := by
  cases v with
  | nan => simp
  | inf s =>
    have hne : 2 ^ (w - 1) - 1 ≠ 2 ^ (w - 1) := by omega
    cases s <;> simp [WireVal.code, hne]
  | num z => simpa using (code_num_not_special hw (Nat.lt_of_le_of_lt hv hn)).1

theorem code_eq_inf_iff (hv : v.Within n) :
    (decide (v.code w = 2 ^ (w - 1) - 1) || decide (v.code w = 2 ^ (w - 1) + 1)) = v.isInf := by
  cases v with
  | nan =>
    have hne : 2 ^ (w - 1) ≠ 2 ^ (w - 1) - 1 := by omega
    simp [WireVal.isInf, hne]
  | inf s => cases s <;> simp [WireVal.code, WireVal.isInf]
  | num z =>
    obtain ⟨-, hp, hm⟩ := code_num_not_special hw (Nat.lt_of_le_of_lt hv hn)
    simp [WireVal.isInf, hp, hm]

omit hw in
theorem code_inf_eq_iff {s t : Bool} : (WireVal.inf s).code w = (WireVal.inf t).code w ↔ s = t := by
  have hne : 2 ^ (w - 1) - 1 ≠ 2 ^ (w - 1) + 1 := by omega
  cases s <;> cases t <;> simp [WireVal.code, hne, hne.symm]

/-- ⊕ adds what the codes stand for. -/
theorem wireAdd_code (hu : u.Within n) (hv : v.Within n) : wireAdd w (u.code w) (v.code w) = (u.add v).code w := by
  simp only [wireAdd, code_eq_nan_iff hw hn hu, code_eq_nan_iff hw hn hv, code_eq_inf_iff hw hn hu, code_eq_inf_iff hw hn hv]
  cases u with
  | nan => simp
  | inf s => cases v with
    | nan => simp
    | inf t => simp [WireVal.isInf, code_inf_eq_iff hn, WireVal.add, apply_ite (WireVal.code w)]
    | num y => simp [WireVal.isInf]
  | num x => cases v with
    | nan => simp
    | inf t => simp [WireVal.isInf]
    | num y => simp [WireVal.isInf, WireVal.code, BitVec.ofInt_add]
end

/-- A sum of codes is the code of the sum. -/
theorem foldl_wireAdd_code {m n : Nat} (hw : 2 ≤ w) (hu : u.Within m) (hl : ∀ v ∈ l, v.Within n)
    (hb : m + l.length * n < 2 ^ (w - 1) - 1) :
    (l.map (WireVal.code w)).foldl (wireAdd w) (u.code w) = (l.foldl .add u).code w := by
  induction l generalizing u m with
  | nil => rfl
  | cons v l ih =>
    obtain ⟨hv, hl⟩ := List.forall_mem_cons.1 hl
    rw [List.length_cons, Nat.succ_mul] at hb
    have hstep : wireAdd w (u.code w) (v.code w) = (u.add v).code w :=
      wireAdd_code hw (n := m + n) (by omega) (hu.mono (by omega)) (hv.mono (by omega))
    rw [List.map_cons, List.foldl_cons, List.foldl_cons, hstep, ih (hu.add hv) hl (by omega)]

/-! ### Contributions (R301) -/

@[simp] theorem natAbs_signedUnits (s : Bool) (c : Nat) : (signedUnits s c).natAbs = c := by
  cases s <;> simp [signedUnits]

theorem signedUnits_neg_iff (s : Bool) (c : Nat) : signedUnits s c < 0 ↔ s = true ∧ c ≠ 0 := by
  cases s <;> simp [signedUnits, Nat.pos_iff_ne_zero]

theorem wireUnits_le (wire : Nat) (b : Int) (m : Nat) (e : Int) : wireUnits wire b m e ≤ 2 ^ wireShift wire - 1 := Nat.min_le_right _ _

/-- Clamping a magnitude above M to M leaves the lesser of the two. -/
theorem wireUnits_eq (wire : Nat) (b : Int) (m : Nat) (e : Int) : wireUnits wire b m e
    = if 2 ^ wireShift wire - 1 < rneUnits m e (b - wireShift wire) then 2 ^ wireShift wire - 1 else rneUnits m e (b - wireShift wire) := by
  rw [wireUnits]
  split <;> omega

theorem wireValOf_of_fin {m : Nat} {e : Int} (hx : f.decode x = .fin s m e) :
    wireValOf wire b f x = .num (signedUnits s (wireUnits wire b m e)) := by simp [wireValOf, hx]

theorem wireValOf_within (wire : Nat) (b : Int) (f : Fmt) (x : Nat) : (wireValOf wire b f x).Within (2 ^ wireShift wire - 1) := by
  cases hx : f.decode x with
  | fin s m e => simpa [wireValOf, hx, WireVal.Within] using wireUnits_le wire b m e
  | _ => simp [wireValOf, hx, WireVal.Within]

/-- A member's contribution is the code of its value. -/
theorem toWire_fst (h : IsFixedWire wire w) (b : Int) (f : Fmt) (x : Nat) : (toWire wire b f x).1 = (wireValOf wire b f x).code w := by
  cases hx : f.decode x with
  | nan => simp [toWire, wireValOf, hx, h.ne_bf16, h.bits]
  | inf s => cases s <;> simp [toWire, wireValOf, hx, h.ne_bf16, h.bits, WireVal.code]
  | fin s m e =>
    have hlt : wireUnits wire b m e < 2 ^ w := Nat.lt_of_le_of_lt (wireUnits_le ..) h.bound_lt
    rw [wireValOf_of_fin hx, code_num_eq (by rwa [natAbs_signedUnits]), natAbs_signedUnits]
    simp [toWire, hx, h.ne_bf16, h.bits, signedUnits_neg_iff, wireUnits_eq]

theorem toWire_clamped (h : IsFixedWire wire w) {m : Nat} {e : Int} (hx : f.decode x = .fin s m e) :
    (toWire wire b f x).2.1 = true ↔ 2 ^ wireShift wire - 1 < rneUnits m e (b - wireShift wire) := by
  simp [toWire, hx, h.ne_bf16]

theorem toWire_flushed (h : IsFixedWire wire w) {m : Nat} {e : Int} (hx : f.decode x = .fin s m e) :
    (toWire wire b f x).2.2 = true ↔ rneUnits m e (b - wireShift wire) = 0 ∧ m ≠ 0 := by
  have hle : rneUnits m e (b - wireShift wire) = 0 → rneUnits m e (b - wireShift wire) ≤ 2 ^ wireShift wire - 1 :=
    fun hc => hc ▸ Nat.zero_le _
  simp [toWire, hx, h.ne_bf16, and_iff_right_of_imp hle]
end

/-! ### The sum of a group (R301) -/

section
variable {wire w : Nat} {b : Int} {f : Fmt} {codes more : List Nat}

theorem wireVals_within : ∀ v ∈ codes.map (wireValOf wire b f), v.Within (2 ^ wireShift wire - 1) :=
  List.forall_mem_map.2 fun x _ => wireValOf_within wire b f x

/-- The members of a group, 32 at most, cannot bring a sum of numbers to the special codes. -/
theorem IsFixedWire.sum_lt (h : IsFixedWire wire w) (b : Int) (f : Fmt) (hlen : codes.length ≤ 32) :
    0 + (codes.map (wireValOf wire b f)).length * (2 ^ wireShift wire - 1) < 2 ^ (w - 1) - 1 := by
  rw [List.length_map, Nat.zero_add]
  exact Nat.lt_of_le_of_lt (Nat.mul_le_mul_right _ hlen) h.group_bound

/-- The sum of a group is the code of the exact sum of its members' values. -/
theorem wireTotal_eq (h : IsFixedWire wire w) (b : Int) (f : Fmt) (hlen : codes.length ≤ 32) :
    (codes.map fun x => (toWire wire b f x).1).foldl (wireAdd w) 0 = (WireVal.sum (codes.map (wireValOf wire b f))).code w := by
  have hmap : (codes.map fun x => (toWire wire b f x).1) = (codes.map (wireValOf wire b f)).map (WireVal.code w) := by
    simp [toWire_fst h]
  have hzero : (WireVal.num 0).code w = 0 := by simp [WireVal.code]
  rw [hmap, WireVal.sum, ← foldl_wireAdd_code h.two_le WireVal.zero_within wireVals_within (h.sum_lt b f hlen), hzero]

theorem wireValOf_eq_nan {x : Nat} : wireValOf wire b f x = .nan ↔ f.decode x = .nan := by
  cases hx : f.decode x <;> simp [wireValOf, hx]

theorem wireValOf_eq_inf {x : Nat} {s : Bool} : wireValOf wire b f x = .inf s ↔ f.decode x = .inf s := by
  cases hx : f.decode x <;> simp [wireValOf, hx]

theorem nan_mem_wireVals : .nan ∈ codes.map (wireValOf wire b f) ↔ ∃ x ∈ codes, f.decode x = .nan := by
  simp only [List.mem_map, wireValOf_eq_nan]

theorem inf_mem_wireVals {s : Bool} : .inf s ∈ codes.map (wireValOf wire b f) ↔ ∃ x ∈ codes, f.decode x = .inf s := by
  simp only [List.mem_map, wireValOf_eq_inf]

/-- A finite element's value is the number that its code reads as. -/
theorem wireValOf_of_isFin (h : IsFixedWire wire w) {x : Nat} (hx : (f.decode x).isFin = true) :
    wireValOf wire b f x = .num (sintOf w (toWire wire b f x).1) := by
  have hlt := h.group_bound
  cases hd : f.decode x with
  | fin s m e =>
    have hle := wireUnits_le wire b m e
    rw [toWire_fst h, wireValOf_of_fin hd, sintOf_code_num h.two_le (by rw [natAbs_signedUnits]; omega)]
  | _ => simp [hd, Val.isFin] at hx

/-- Without a NaN and an infinity, the sum reads as the exact sum of the contributions. -/
theorem sintOf_wireTotal (h : IsFixedWire wire w) (hlen : codes.length ≤ 32) (hfin : ∀ x ∈ codes, (f.decode x).isFin = true) :
    sintOf w ((codes.map fun x => (toWire wire b f x).1).foldl (wireAdd w) 0)
      = ((codes.map fun x => (toWire wire b f x).1).map (sintOf w)).sum := by
  have hvals : codes.map (wireValOf wire b f) = ((codes.map fun x => (toWire wire b f x).1).map (sintOf w)).map .num := by
    simpa using fun x hx => wireValOf_of_isFin h (hfin x hx)
  have hsum : WireVal.sum (codes.map (wireValOf wire b f)) = .num ((codes.map fun x => (toWire wire b f x).1).map (sintOf w)).sum := by
    rw [hvals, WireVal.sum_of_num]
  have hle : (WireVal.sum (codes.map (wireValOf wire b f))).Within (0 + (codes.map (wireValOf wire b f)).length * (2 ^ wireShift wire - 1)) :=
    WireVal.zero_within.foldl wireVals_within
  have hlt := h.sum_lt b f hlen
  rw [hsum] at hle
  rw [wireTotal_eq h b f hlen, hsum, sintOf_code_num h.two_le]
  exact Nat.lt_of_le_of_lt hle (by omega)

end

/-- Settles O31: the sum of a group is the code of the exact sum of its members' values, which does not depend on their order. -/
theorem wireSum : Obligations.WireSum := by
  intro wire w b f codes more h hlen code total
  have htotal {l : List Nat} (hl : l.length ≤ 32) : total l = (WireVal.sum (l.map (wireValOf wire b f))).code w := wireTotal_eq h b f hl
  have hcode (x : Nat) : code x = (wireValOf wire b f x).code w := toWire_fst h b f x
  refine ⟨fun hp => ?order, fun hn => ?nan, fun hn s hs ho => ?inf, fun hfin => sintOf_wireTotal h hlen hfin,
    fun x => ⟨fun hx => ?nanCode, fun s hx => ?infCode, fun s m e hx => ⟨?units, toWire_clamped h hx, toWire_flushed h hx⟩⟩⟩
  case order => rw [htotal hlen, htotal (hp.length_eq ▸ hlen), WireVal.sum_perm (hp.map _)]
  case nan =>
    have hsum : WireVal.sum (codes.map (wireValOf wire b f)) = .nan := hn.elim
      (fun hx => WireVal.sum_of_nan (nan_mem_wireVals.2 hx))
      (fun ⟨hp, hm⟩ => WireVal.sum_of_bothInf (inf_mem_wireVals.2 hp) (inf_mem_wireVals.2 hm))
    rw [htotal hlen, hsum, WireVal.code_nan]
  case inf =>
    have hnan : .nan ∉ codes.map (wireValOf wire b f) := mt nan_mem_wireVals.1 fun ⟨x, hx, hd⟩ => hn x hx hd
    have hopp : .inf (!s) ∉ codes.map (wireValOf wire b f) := mt inf_mem_wireVals.1 fun ⟨x, hx, hd⟩ => ho x hx hd
    rw [htotal hlen, WireVal.sum_of_oneInf hnan (inf_mem_wireVals.2 hs) hopp, WireVal.code]
  case nanCode => rw [hcode, wireValOf_eq_nan.2 hx, WireVal.code_nan]
  case infCode => rw [hcode, wireValOf_eq_inf.2 hx, WireVal.code]
  case units =>
    have hnum : wireValOf wire b f x = .num (sintOf w (code x)) := wireValOf_of_isFin h (by rw [hx]; rfl)
    rw [wireValOf_of_fin hx, WireVal.num.injEq] at hnum
    exact hnum.symm

/-! ### LNK_VCWEIGHT and LNK_LOSS (R326) -/

section
variable {s s' : State} {fn off : Nat} {b : List Byte}

/-- A 32-bit register that hardware serves takes a write of 4 bytes at once (R16). -/
theorem exec_registerWrite_narrow (hup : s.dlUp = true) (hfn : fn ≤ 12) (hb : b.length = 4) (ho : off % 4 = 0)
    (he : inEmulated off = false) (ht : inShadow off = false) (hw : s.hwWide fn off = false) :
    exec (.registerWrite fn off b) s = .next (s.hwWrite fn off (BitVec.ofNat 32 (leNat b))) := by
  have hrun : exec (.registerWrite fn off b) s = execRegisterWrite fn off b s := rfl
  rw [hrun]
  simp [execRegisterWrite, State.writeHalves, hup, Nat.not_lt.2 hfn, hb, ho, he, ht, hw]

/-- A write of the register at `o` of LNK_ that applies to every link reaches LNK_ from the physical function alone. -/
theorem exec_lnkWrite (hup : s.dlUp = true) (hfn : fn ≤ 12) (hb : b.length = 4) {o : Nat} (ho : o % 4 = 0) (hl : 0x2000 ≤ o) (hu : o < 0x100000) :
    exec (.registerWrite fn (0x700000 + o) b) s = .next (if fn = 0 then s.lnkWrite o (BitVec.ofNat 32 (leNat b)) else s) := by
  have hdiv : (0x700000 + o) / 0x100000 = 7 := by omega
  have hmod : (0x700000 + o) % 0x100000 = o := by omega
  have hlink : ¬ o < 0x2000 := Nat.not_lt.2 hl
  rw [exec_registerWrite_narrow hup hfn hb (by omega)]
  · simp [State.hwWrite, hdiv, hmod]
  · simp [inEmulated]; omega
  · simp [inShadow, hdiv]
  · simp [State.hwWide, hdiv, hmod, hlink]

/-- The physical function reads LNK_ past the links' own registers as it stands. -/
theorem hwWord_vcWeight (s : State) : s.hwWord 0 0x704004 = s.vcWeight := BitVec.ofNat_toNat ..

theorem hwWord_lossMs (s : State) : s.hwWord 0 0x704008 = BitVec.ofNat 32 s.lossMs := rfl

/-- The 24 bits of the weights are what LNK_VCWEIGHT keeps. -/
theorem vcWeight_mask (v : Nat) : BitVec.ofNat 32 v &&& 0x00FFFFFF = BitVec.ofNat 32 (v % 2 ^ 24) := by
  apply BitVec.eq_of_toNat_eq
  simp only [BitVec.toNat_and, BitVec.toNat_ofNat]
  rw [show BitVec.toNat (0x00FFFFFF : W32) = 2 ^ 24 - 1 from rfl, Nat.and_two_pow_sub_one_eq_mod]
  omega

/-- LNK_LOSS holds its 10 bits between 1 and 1,000. -/
theorem lossMs_clamp (v : Nat) : min 1000 (max 1 ((BitVec.ofNat 32 v).toNat % 1024))
    = if v % 1024 = 0 then 1 else if 1000 < v % 1024 then 1000 else v % 1024 := by
  rw [BitVec.toNat_ofNat]
  split
  · omega
  · split <;> omega

theorem exec_write_vcWeight (hup : s.dlUp = true) (hb : b.length = 4) : exec (.registerWrite 0 0x704004 b) s
    = .next { s with vcWeight := BitVec.ofNat 32 (leNat b) &&& 0x00FFFFFF } :=
  exec_lnkWrite hup (Nat.zero_le _) hb (o := 0x4004) rfl (by decide) (by decide)

theorem exec_write_lossMs (hup : s.dlUp = true) (hb : b.length = 4) : exec (.registerWrite 0 0x704008 b) s
    = .next { s with lossMs := if leNat b % 1024 = 0 then 1 else if 1000 < leNat b % 1024 then 1000 else leNat b % 1024 } := by
  rw [← lossMs_clamp]
  exact exec_lnkWrite hup (Nat.zero_le _) hb (o := 0x4008) rfl (by decide) (by decide)

/-- No virtual function writes the registers that apply to every link. -/
theorem exec_lnkWrite_virtual (hup : s.dlUp = true) (hb : b.length = 4) (h0 : fn ≠ 0) (hfn : fn ≤ 12) {o : Nat} (ho : o % 4 = 0)
    (hl : 0x2000 ≤ o) (hu : o < 0x100000) : exec (.registerWrite fn (0x700000 + o) b) s = .next s := by
  rw [exec_lnkWrite hup hfn hb ho hl hu, if_neg h0]

end

/-- Settles O60: each write is one field's update, and a read answers the field. -/
theorem linkWeightsAndLoss : Obligations.LinkWeightsAndLoss := by
  refine ⟨hwWord_vcWeight _, hwWord_lossMs _, fun s b hup hb =>
    ⟨⟨exec_write_vcWeight hup hb, ?readWeight⟩, ⟨exec_write_lossMs hup hb, ?readLoss⟩, ?virtual⟩⟩
  case readWeight =>
    intro s' hs
    rw [exec_write_vcWeight hup hb] at hs
    cases hs
    rw [hwWord_vcWeight, vcWeight_mask]
  case readLoss => exact fun s' _ => hwWord_lossMs s'
  case virtual =>
    exact fun fn h0 hfn => ⟨exec_lnkWrite_virtual hup hb h0 hfn (o := 0x4004) rfl (by decide) (by decide),
      exec_lnkWrite_virtual hup hb h0 hfn (o := 0x4008) rfl (by decide) (by decide)⟩

end Sys2Proof.Machine
end

