-- ==== Sys2Proof/Proofs/Masthead.lean ====
section
/-! PROOFS. The statement about the memory-protection units (R480): what each region holds, and what a switch between components reloads. -/

namespace Sys2Proof.Machine

variable {core comp other cause pc addr i : Nat} {a q : MpuRegion} {e : Nat × Nat × Bool} {m : Mast} {s s' : State} {c : Instr}

theorem isComp_lt (hc : isComp core comp = true) : comp < 7 := by
  simp only [isComp, Bool.and_eq_true, decide_eq_true_eq] at hc
  omega

/-! ### Regions, their sizes and their places -/

/-- The size is a power of two from 4 KiB upwards, and the base is a multiple of it (R480). -/
def MpuRegion.Aligned (a : MpuRegion) : Prop := ∃ n, 12 ≤ n ∧ a.size = 2 ^ n ∧ a.base % a.size = 0

theorem MpuRegion.Aligned.ne_off (h : a.Aligned) : a ≠ .off := by
  rintro rfl
  obtain ⟨n, -, hs, -⟩ := h
  exact Nat.ne_of_lt (Nat.two_pow_pos n) hs

/-- Never both writable and executable, and aligned unless it is off (R480). -/
def MpuRegion.Sound (a : MpuRegion) : Prop := (a.write && a.exec) = false ∧ (a = .off ∨ a.Aligned)

theorem MpuRegion.off_sound : MpuRegion.off.Sound := ⟨rfl, .inl rfl⟩

theorem MpuRegion.Aligned.sound (h : a.Aligned) (hx : (a.write && a.exec) = false) : a.Sound := ⟨hx, .inr h⟩

/-- Every address of one lies below every address of the other. -/
def MpuRegion.Apart (a q : MpuRegion) : Prop := a.base + a.size ≤ q.base ∨ q.base + q.size ≤ a.base

theorem MpuRegion.Apart.symm (h : a.Apart q) : q.Apart a := Or.symm h

/-- A part of a core's local SRAM as a region. -/
theorem localPart_aligned (core i : Nat) (r w x : Bool) (o : Option Nat) :
    (⟨(localPart core i).1, (localPart core i).2, r, w, x, o⟩ : MpuRegion).Aligned := by
  by_cases h : core = 0
  · refine ⟨15, by decide, ?_, ?_⟩ <;> simp only [localPart, h, if_true] <;> omega
  · refine ⟨17, by decide, ?_, ?_⟩ <;> simp only [localPart, h, if_false] <;> omega

/-! ### What the kernel loads for a component -/

/-- Region 4: the component's text. -/
def textRegion (core comp : Nat) : MpuRegion :=
  ⟨(localPart core (2 * comp)).1, (localPart core (2 * comp)).2, false, false, true, some comp⟩

/-- Region 5: its data and stack. -/
def dataRegion (core comp : Nat) : MpuRegion :=
  ⟨(localPart core (2 * comp + 1)).1, (localPart core (2 * comp + 1)).2, true, true, false, some comp⟩

/-- Base and size of a component's journal area in shared SRAM. -/
def journalArea (core comp : Nat) : Nat × Nat :=
  if core = 0 then (0x20040000 + comp * 0x2000, 0x2000) else (0x20000000 + comp * 0x8000, 0x8000)

/-- Region 6: its journal area. -/
def journalRegion (core comp : Nat) : MpuRegion :=
  ⟨(journalArea core comp).1, (journalArea core comp).2, true, true, false, some comp⟩

/-- A region of hardware the component owns. -/
def hardwareRegion (comp : Nat) (e : Nat × Nat × Bool) : MpuRegion := ⟨e.1, e.2.1, true, e.2.2, false, some comp⟩

/-- Regions 7–15: the hardware it owns, and off beyond that. -/
def hardwareRegions (core comp : Nat) : List MpuRegion :=
  (ownedHardware core comp).map (hardwareRegion comp) ++ List.replicate (9 - (ownedHardware core comp).length) .off

theorem length_ownedHardware_le (core comp : Nat) : (ownedHardware core comp).length ≤ 9 := by
  unfold ownedHardware
  split <;> decide

/-- The kernel itself has none of the regions 4–15. -/
theorem mpuLoaded_kernel (core : Nat) : mpuLoaded core 0 = List.replicate 12 .off := rfl

theorem mpuLoaded_component (hc : comp ≠ 0) :
    mpuLoaded core comp = textRegion core comp :: dataRegion core comp :: journalRegion core comp :: hardwareRegions core comp := by
  have hle := length_ownedHardware_le core comp
  have hpad : ((ownedHardware core comp).map (hardwareRegion comp) ++ List.replicate 12 MpuRegion.off).take 9 = hardwareRegions core comp := by
    rw [List.take_append, List.take_of_length_le (by simpa using hle), List.take_replicate, List.length_map,
      Nat.min_eq_left (by omega), hardwareRegions]
  rw [mpuLoaded, if_neg hc, ← hpad]
  rfl

theorem length_mpuLoaded (core comp : Nat) : (mpuLoaded core comp).length = 12 := by
  by_cases hc : comp = 0
  · rw [hc, mpuLoaded_kernel, List.length_replicate]
  · have hle := length_ownedHardware_le core comp
    simp [mpuLoaded_component hc, hardwareRegions]
    omega

theorem length_mpuRegions (core comp : Nat) : (mpuRegions core comp).length = 16 := by
  rw [mpuRegions, List.length_append, length_mpuLoaded]
  rfl

theorem mem_hardwareRegions (h : a ∈ hardwareRegions core comp) : a = .off ∨ ∃ e ∈ ownedHardware core comp, hardwareRegion comp e = a := by
  rw [hardwareRegions, List.mem_append, List.mem_map] at h
  exact h.symm.imp_left List.eq_of_mem_replicate

/-- What can stand in a region 4–15. -/
theorem mem_mpuLoaded (h : a ∈ mpuLoaded core comp) : a = .off ∨ a = textRegion core comp ∨ a = dataRegion core comp
    ∨ a = journalRegion core comp ∨ ∃ e ∈ ownedHardware core comp, hardwareRegion comp e = a := by
  by_cases hc : comp = 0
  · subst hc
    exact .inl (List.eq_of_mem_replicate (mpuLoaded_kernel core ▸ h))
  · rw [mpuLoaded_component hc] at h
    simp only [List.mem_cons] at h
    obtain h | h | h | h := h
    · exact .inr (.inl h)
    · exact .inr (.inr (.inl h))
    · exact .inr (.inr (.inr (.inl h)))
    · exact (mem_hardwareRegions h).imp_right fun h => .inr (.inr (.inr h))

/-! ### Every region is sound -/

theorem journalRegion_aligned (core comp : Nat) : (journalRegion core comp).Aligned := by
  by_cases h : core = 0
  · refine ⟨13, by decide, ?_, ?_⟩ <;> simp only [journalRegion, journalArea, h, if_true] <;> omega
  · refine ⟨15, by decide, ?_, ?_⟩ <;> simp only [journalRegion, journalArea, h, if_false] <;> omega

/-- The hardware windows of the two address maps, one by one. -/
theorem ownedHardware_aligned : ∀ core < 2, ∀ comp < 7, ∀ e ∈ ownedHardware core comp,
    ∃ n < 29, 12 ≤ n ∧ e.2.1 = 2 ^ n ∧ e.1 % e.2.1 = 0 := by decide

theorem hardwareRegion_aligned (hcore : core < 2) (hc : isComp core comp = true) (he : e ∈ ownedHardware core comp) : (hardwareRegion comp e).Aligned := by
  obtain ⟨n, -, h⟩ := ownedHardware_aligned core hcore comp (isComp_lt hc) e he
  exact ⟨n, h⟩

theorem mpuLoaded_sound (hcore : core < 2) (hc : isComp core comp = true) (h : a ∈ mpuLoaded core comp) : a.Sound := by
  obtain rfl | rfl | rfl | rfl | ⟨e, he, rfl⟩ := mem_mpuLoaded h
  · exact MpuRegion.off_sound
  · exact (localPart_aligned ..).sound rfl
  · exact (localPart_aligned ..).sound rfl
  · exact (journalRegion_aligned core comp).sound rfl
  · exact (hardwareRegion_aligned hcore hc he).sound (Bool.and_false _)

theorem bootRegion_aligned : (⟨0, 0x10000, false, false, true, none⟩ : MpuRegion).Aligned := ⟨16, by decide, rfl, rfl⟩

theorem bookPort_aligned : (⟨0x80000000, 0x1000, false, true, false, none⟩ : MpuRegion).Aligned := ⟨12, by decide, rfl, rfl⟩

theorem mpuFixed_sound (h : a ∈ mpuFixed core) : a.Sound := by
  simp only [mpuFixed, List.mem_cons, List.not_mem_nil, or_false] at h
  obtain rfl | rfl | rfl | rfl := h
  · exact bootRegion_aligned.sound rfl
  · exact (localPart_aligned ..).sound rfl
  · exact (localPart_aligned ..).sound rfl
  · exact bookPort_aligned.sound rfl

theorem mpuRegions_sound (hcore : core < 2) (hc : isComp core comp = true) (h : a ∈ mpuRegions core comp) : a.Sound :=
  (List.mem_append.1 h).elim mpuFixed_sound (mpuLoaded_sound hcore hc)

/-! ### A component's data and journal lie apart from what another may write

The data areas lie in local SRAM, from 0x1000_0000, the journal areas in shared SRAM, from 0x2000_0000, and hardware from 0x3000_0000. -/

theorem dataRegion_end_le (hc : isComp core comp = true) : (dataRegion core comp).base + (dataRegion core comp).size ≤ 0x20000000 := by
  have hcomp := isComp_lt hc
  simp only [dataRegion, localPart]
  split <;> omega

theorem le_journalRegion_base (core comp : Nat) : 0x20000000 ≤ (journalRegion core comp).base := by
  simp only [journalRegion, journalArea]
  split <;> omega

theorem journalRegion_end_le (hc : isComp core comp = true) : (journalRegion core comp).base + (journalRegion core comp).size ≤ 0x30000000 := by
  have hcomp := isComp_lt hc
  simp only [journalRegion, journalArea]
  split <;> omega

theorem le_ownedHardware_base (he : e ∈ ownedHardware core comp) : 0x30000000 ≤ e.1 := by
  unfold ownedHardware at he
  revert e
  split <;> decide

theorem dataRegion_apart_dataRegion (hne : other ≠ comp) : (dataRegion core comp).Apart (dataRegion core other) := by
  simp only [MpuRegion.Apart, dataRegion, localPart]
  split <;> omega

theorem journalRegion_apart_journalRegion (hne : other ≠ comp) : (journalRegion core comp).Apart (journalRegion core other) := by
  simp only [MpuRegion.Apart, journalRegion, journalArea]
  split <;> omega

theorem dataRegion_apart_journalRegion (hc : isComp core comp = true) (other : Nat) : (dataRegion core comp).Apart (journalRegion core other) :=
  .inl (Nat.le_trans (dataRegion_end_le hc) (le_journalRegion_base core other))

/-- What lies below 0x3000_0000 lies apart from all hardware. -/
theorem apart_hardwareRegion (ha : a.base + a.size ≤ 0x30000000) (he : e ∈ ownedHardware core other) : a.Apart (hardwareRegion other e) :=
  .inl (Nat.le_trans ha (le_ownedHardware_base he))

theorem dataRegion_apart (hc : isComp core comp = true) (hne : other ≠ comp)
    (hq : q ∈ mpuLoaded core other) (hw : q.write = true) : (dataRegion core comp).Apart q := by
  obtain rfl | rfl | rfl | rfl | ⟨e, he, rfl⟩ := mem_mpuLoaded hq
  · cases hw
  · cases hw
  · exact dataRegion_apart_dataRegion hne
  · exact dataRegion_apart_journalRegion hc other
  · exact apart_hardwareRegion (Nat.le_trans (dataRegion_end_le hc) (by decide)) he

theorem journalRegion_apart (hc : isComp core comp = true) (ho : isComp core other = true) (hne : other ≠ comp)
    (hq : q ∈ mpuLoaded core other) (hw : q.write = true) : (journalRegion core comp).Apart q := by
  obtain rfl | rfl | rfl | rfl | ⟨e, he, rfl⟩ := mem_mpuLoaded hq
  · cases hw
  · cases hw
  · exact (dataRegion_apart_journalRegion ho comp).symm
  · exact journalRegion_apart_journalRegion hne
  · exact apart_hardwareRegion (journalRegion_end_le hc) he

/-! ### The regions by number -/

theorem mpuRegions_component (hc : comp ≠ 0) :
    mpuRegions core comp = mpuFixed core ++ [textRegion core comp, dataRegion core comp, journalRegion core comp] ++ hardwareRegions core comp := by
  rw [mpuRegions, mpuLoaded_component hc, List.append_assoc]
  rfl

theorem mpuRegions_text (hc : comp ≠ 0) : (mpuRegions core comp)[4]? = some (textRegion core comp) := by
  rw [mpuRegions_component hc]
  rfl

theorem mpuRegions_data (hc : comp ≠ 0) : (mpuRegions core comp)[5]? = some (dataRegion core comp) := by
  rw [mpuRegions_component hc]
  rfl

theorem mpuRegions_journal (hc : comp ≠ 0) : (mpuRegions core comp)[6]? = some (journalRegion core comp) := by
  rw [mpuRegions_component hc]
  rfl

theorem mpuRegions_hardware (hc : comp ≠ 0) (hi : 7 ≤ i) (h : (mpuRegions core comp)[i]? = some a) : a ∈ hardwareRegions core comp := by
  rw [mpuRegions_component hc, List.getElem?_append_right hi] at h
  exact List.mem_of_getElem? h

/-! ### A switch (R480) -/

@[simp] theorem Mast.switchTo_mpu_same (hcore : core < 2) : (m.switchTo core comp).mpu core = (m.mpu core).take 4 ++ mpuLoaded core comp := by
  obtain rfl | rfl : core = 0 ∨ core = 1 := by omega
  · rfl
  · rfl

@[simp] theorem Mast.switchTo_mpu_other (hcore : core < 2) : (m.switchTo core comp).mpu (1 - core) = m.mpu (1 - core) := by
  obtain rfl | rfl : core = 0 ∨ core = 1 := by omega
  · rfl
  · rfl

/-- A switch does not look at the faults of the last 60 s. -/
@[simp] theorem Mast.switchTo_mpu_faults (f : List (Nat × Nat × W64)) :
    ({ m with faults := f }.switchTo core comp).mpu = (m.switchTo core comp).mpu := by
  unfold Mast.switchTo
  split <;> rfl

@[simp] theorem State.bookEntry_mast (s : State) (type part code flags : Nat) (payload : List Byte) :
    (s.bookEntry type part code flags payload).mast = s.mast := by
  simp only [State.bookEntry]
  split <;> rfl

@[simp] theorem State.fwEvent_mpu (s before : State) : (s.fwEvent before).mast.mpu = s.mast.mpu := by
  unfold State.fwEvent
  split <;> rfl

/-- As a core restarts its kernel runs. -/
theorem State.coreRestart_mpu (s : State) (core cause : Nat) : (s.coreRestart core cause).mast.mpu = (s.mast.switchTo core 0).mpu := by
  unfold State.coreRestart
  split <;> rfl

/-- A component without a fault in the last 60 s is restarted alone, so its kernel switches to it (R481). -/
theorem State.compFault_mpu (h0 : comp ≠ 0)
    (hf : ∀ e ∈ s.mast.faults, e.1 = core → e.2.1 = comp → e.2.2.toNat + 60 * 100000000 < s.time.toNat) :
    (s.compFault core comp cause pc addr).mast.mpu = (s.mast.switchTo core comp).mpu := by
  have hnone : (s.mast.faults.filter fun e => decide (s.time.toNat ≤ e.2.2.toNat + 60 * 100000000)).filter
      (fun e => decide (e.1 = core) && decide (e.2.1 = comp)) = [] := by
    simp only [List.filter_filter, List.filter_eq_nil_iff, Bool.and_eq_true, decide_eq_true_eq]
    rintro e he ⟨⟨hcore, hcomp⟩, hrecent⟩
    have := hf e he hcore hcomp
    omega
  simp only [State.compFault, hnone, h0, if_false, List.length_nil]
  rw [if_neg (by decide)]
  -- the entry, and the outage of a component that stops serving, touch no region
  split <;> exact (congrArg Mast.mpu (State.bookEntry_mast ..)).trans (Mast.switchTo_mpu_faults _)

/-- Command `c` reloads regions 4–15 of a core for component `comp`, and changes no other region. -/
def Reloads (s : State) (core comp : Nat) (c : Instr) : Prop :=
  ∃ s', exec c s = .next s' ∧ (s'.mast.mpu core).length = 16
    ∧ (∀ i, i < 4 → (s'.mast.mpu core)[i]? = (s.mast.mpu core)[i]?)
    ∧ (∀ i, i < 12 → (s'.mast.mpu core)[4 + i]? = (mpuLoaded core comp)[i]?)
    ∧ s'.mast.mpu (1 - core) = s.mast.mpu (1 - core)

theorem reloads_of_switchTo (hcore : core < 2) (hlen : (s.mast.mpu core).length = 16) (hexec : exec c s = .next s')
    (hmpu : s'.mast.mpu = (s.mast.switchTo core comp).mpu) : Reloads s core comp c := by
  have hfour : ((s.mast.mpu core).take 4).length = 4 := by simp [hlen]
  refine ⟨s', hexec, ?_⟩
  rw [hmpu, Mast.switchTo_mpu_same hcore, Mast.switchTo_mpu_other hcore]
  refine ⟨?length, fun i hi => ?fixed, fun i _ => ?loaded, rfl⟩
  case length => rw [List.length_append, hfour, length_mpuLoaded]
  case fixed => rw [List.getElem?_append_left (by omega), List.getElem?_take_of_lt hi]
  case loaded => rw [List.getElem?_append_right (by omega), hfour, Nat.add_sub_cancel_left]

/-! ### The commands that switch -/

theorem exec_coreRestart (hcore : core < 2) (hcause : cause < 4) (hr : s.mast.recovery = false) :
    exec (.coreRestart core cause) s = .next ((s.coreRestart core cause).fwEvent s) :=
  if_pos ⟨hcore, hcause, by rw [hr]; rfl⟩

theorem exec_hardwareWatchdog (hcore : core < 2) (hr : s.mast.recovery = false) :
    exec (.hardwareWatchdog core) s = .next ((s.coreRestart core 2).fwEvent s) :=
  if_pos ⟨hcore, by rw [hr]; rfl⟩

theorem exec_componentFault (hc : isComp core comp = true) (hcause : cause < 2) (hr : s.mast.recovery = false) :
    exec (.componentFault core comp cause pc addr) s = .next ((s.compFault core comp cause pc addr).fwEvent s) :=
  if_pos (by simp [hc, hcause, hr])

theorem exec_componentWatchdogExpiry (hc : isComp core comp = true) (h0 : comp ≠ 0) (hr : s.mast.recovery = false) :
    exec (.componentWatchdogExpiry core comp) s = .next ((s.compFault core comp 2 0 0).fwEvent s) :=
  if_pos (by simp [hc, h0, hr])

/-- Settles O45: each region lies in its own part of the address map, and each command's effect on the regions is one switch. -/
theorem memoryProtection : Obligations.MemoryProtection := by
  refine ⟨fun core comp hcore hc => ⟨length_mpuRegions core comp, fun a ha => mpuRegions_sound hcore hc ha, ?boot, ?kernelText, ?kernelData, ?bookPort,
    fun h0 => ⟨?text, ?data, ?journal, fun i a hi ha => ?hardware, fun other i a q ho hne hi ha hq hw => ?apart⟩⟩,
    fun s core hcore hr hlen => ⟨fun cause hcause => ?coreRestart, ?watchdog, fun comp hc h0 hf => ⟨fun cause pc addr hcause => ?fault, ?expiry⟩⟩⟩
  case boot => exact ⟨_, rfl, rfl, rfl, rfl, rfl, bootRegion_aligned.ne_off⟩
  case kernelText => exact ⟨_, rfl, rfl, rfl, rfl, rfl, (localPart_aligned ..).ne_off⟩
  case kernelData => exact ⟨_, rfl, rfl, rfl, rfl, rfl, (localPart_aligned ..).ne_off⟩
  case bookPort => exact ⟨_, rfl, rfl, rfl, rfl, rfl, bookPort_aligned.ne_off⟩
  case text => exact ⟨_, mpuRegions_text h0, rfl, rfl, rfl, rfl, (localPart_aligned ..).ne_off⟩
  case data => exact ⟨_, mpuRegions_data h0, rfl, rfl, rfl, rfl, (localPart_aligned ..).ne_off⟩
  case journal => exact ⟨_, mpuRegions_journal h0, rfl, rfl, rfl, rfl, (journalRegion_aligned core comp).ne_off⟩
  case hardware =>
    refine (mem_hardwareRegions (mpuRegions_hardware h0 hi ha)).imp_right ?_
    rintro ⟨e, he, rfl⟩
    exact ⟨rfl, rfl, rfl, e.2.2, he, rfl⟩
  case apart =>
    obtain rfl | rfl := hi
    · obtain rfl := Option.some.inj ((mpuRegions_data h0).symm.trans ha)
      exact dataRegion_apart hc hne hq hw
    · obtain rfl := Option.some.inj ((mpuRegions_journal h0).symm.trans ha)
      exact journalRegion_apart hc ho hne hq hw
  case coreRestart =>
    exact reloads_of_switchTo hcore hlen (exec_coreRestart hcore hcause hr) (by rw [State.fwEvent_mpu, State.coreRestart_mpu])
  case watchdog =>
    exact reloads_of_switchTo hcore hlen (exec_hardwareWatchdog hcore hr) (by rw [State.fwEvent_mpu, State.coreRestart_mpu])
  case fault =>
    exact reloads_of_switchTo hcore hlen (exec_componentFault hc hcause hr) (by rw [State.fwEvent_mpu, State.compFault_mpu h0 hf])
  case expiry =>
    exact reloads_of_switchTo hcore hlen (exec_componentWatchdogExpiry hc h0 hr) (by rw [State.fwEvent_mpu, State.compFault_mpu h0 hf])

end Sys2Proof.Machine
end
